-- ==== Sys2Proof/Word.lean ====
section
/-! DEFINITION. Word: the word types of the IY-8200 and the two values that many files share. -/
namespace Sys2Proof

/-- One byte of memory (R3). -/
abbrev Byte := BitVec 8
/-- One lane of a vector register (R56). -/
abbrev Word := BitVec 32
/-- A uniform register, an address or an immediate (R56, R77). -/
abbrev DWord := BitVec 64
/-- The bits of an instruction, zero-extended to the longest length (R71, R339). -/
abbrev IBits := BitVec 128

/-- A sorted association list: the plain-data form of every sparse table of the state. -/
abbrev AMap (α : Type) := List (Nat × α)

end Sys2Proof
end

