-- ==== Sys2Proof/Machine/Bits.lean ====
section
/-! DEFINITION. Bits: fields of a natural number, sign reading and the byte order (R3, R89). -/
namespace Sys2Proof

/-- Bits [hi:lo] of `n`. -/
def fld (n hi lo : Nat) : Nat := n / 2 ^ lo % 2 ^ (hi - lo + 1)
/-- Bit `k` of `n`. -/
def bit (n k : Nat) : Bool := n / 2 ^ k % 2 == 1
/-- A bit as a number. -/
def b2n (b : Bool) : Nat := if b then 1 else 0

/-- `sext` of R89: the low `n` bits of `x` as two's complement. -/
def sext (x n : Nat) : Int :=
  let u := x % 2 ^ n
  if n = 0 then 0 else if u < 2 ^ (n - 1) then u else (u : Int) - 2 ^ n
/-- `zext` of R89. -/
def zext (x n : Nat) : Nat := x % 2 ^ n
/-- `wrap` of R89: the bit pattern of `x` mod 2^n. -/
def wrap (x : Int) (n : Nat) : Nat := (x % (2 ^ n : Int)).toNat
/-- `sat_s` of R89. -/
def satS (x : Int) (n : Nat) : Nat := wrap (max (-(2 ^ (n - 1) : Int)) (min x (2 ^ (n - 1) - 1))) n
/-- `sat_u` of R89. -/
def satU (x : Int) (n : Nat) : Nat := wrap (max 0 (min x (2 ^ n - 1))) n
/-- `rotl` of R89. -/
def rotl (x k n : Nat) : Nat := (x * 2 ^ (k % n) + x / 2 ^ (n - k % n)) % 2 ^ n

/-- The `n` bytes of `x`, lowest first (R3). -/
def leBytes : Nat → Nat → List Byte
  | 0, _ => []
  | n + 1, x => BitVec.ofNat 8 x :: leBytes n (x / 256)
/-- The number whose bytes, lowest first, are given (R3). -/
def leNat : List Byte → Nat
  | [] => 0
  | b :: bs => b.toNat + 256 * leNat bs

/-- The number of 1 bits among the low `n` bits. -/
def popCount : Nat → Nat → Nat
  | 0, _ => 0
  | n + 1, x => x % 2 + popCount n (x / 2)
/-- The bit length: the position above the highest 1 among the low `n` bits. -/
def bitLen : Nat → Nat → Nat
  | 0, _ => 0
  | n + 1, x => if x / 2 ^ n % 2 = 1 then n + 1 else bitLen n x
/-- The low `n` bits in reverse order. -/
def bitRev : Nat → Nat → Nat
  | 0, _ => 0
  | n + 1, x => x % 2 * 2 ^ n + bitRev n (x / 2)
/-- A word whose bit `i` says whether `f i`. -/
def maskOf (f : Nat → Bool) : Word :=
  (List.range 32).foldl (fun m i => if f i then m ||| BitVec.ofNat 32 (2 ^ i) else m) 0
/-- The numbers below 32 whose bit is set. -/
def lanesOf (m : Word) : List Nat := (List.range 32).filter fun i => m.getLsbD i

end Sys2Proof
end

