-- ==== Sys2Proof/Syntax.lean ====
section
/-! DEFINITION. Syntax: the operands, sub-fields and payloads of the operations, and `Instr`, one constructor per row of spec/opcode_table.json. -/
namespace Sys2Proof

/-- A register operand (R61). -/
inductive Opnd where
  | v (k : Fin 640) | s (k : Fin 64) | p (k : Fin 16) | zero | laneid
  deriving DecidableEq, Repr

/-- An operand permutation (R70). -/
inductive Perm where
  | none | rot (m : Fin 32) | bcast (m : Fin 32) | bfly (m : Fin 32) | mir | rot8 (m : Fin 8)
  deriving DecidableEq, Repr

/-- The guard of an instruction with GEN = 1: GRD and GSN (R73). -/
structure Guard where
  p : Fin 16
  neg : Bool
  deriving DecidableEq, Repr

/-- The formats that share the three-operand layout (R75, R76, R77). -/
inductive Fmt where
  | f64 | f96 | f128i
  deriving DecidableEq, Repr

/-- The fields of an F64, F96 or F128I word besides its control field. A field that the
instruction does not use holds `.v 0`, `.none` or 0 (R81). -/
structure Ops where
  fmt : Fmt
  g : Option Guard
  d : Opnd
  a : Opnd
  b : Opnd
  c : Opnd
  pa : Perm
  pb : Perm
  pc : Perm
  imm : DWord
  deriving DecidableEq, Repr

/-- The fields of an F128B word (R78). -/
structure BrOps where
  g : Option Guard
  a : Opnd
  b : Opnd
  off : Word
  aux : Word
  deriving DecidableEq, Repr

/-- The operand fields of an F128C word (R79). -/
structure EngOps where
  g : Option Guard
  a : Opnd
  b : Opnd
  c : Opnd
  m : Opnd
  deriving DecidableEq, Repr

/-- The operand fields of an F128M word (R80). -/
structure MatOps where
  a : Opnd
  b : Opnd
  c : Opnd
  deriving DecidableEq, Repr

/-- TYPE codes (R74). -/
inductive Ty where
  | b32 | b64 | s8 | s16 | s32 | s64 | z8 | z16 | z32 | z64 | f16 | bf16 | f32 | f64 | e4m3 | e5m2 | q4 | q8
  deriving DecidableEq, Repr
/-- RND codes (R74). -/
inductive Rnd where
  | rn | rz | ru | rd
  deriving DecidableEq, Repr
/-- SCOPE codes (R74, R220). -/
inductive Scope where
  | core | clu | die | dev | pod | sys
  deriving DecidableEq, Repr
/-- ORD codes (R74, R229). -/
inductive MemOrd where
  | rlx | acq | rel | ar | sc
  deriving DecidableEq, Repr
/-- Integer comparisons (R137). -/
inductive Cmp where
  | eq | ne | lt | le | gt | ge
  deriving DecidableEq, Repr
/-- Float comparisons (R195, R199). -/
inductive FCmp where
  | eq | ne | lt | le | gt | ge | num | nan
  deriving DecidableEq, Repr
/-- COND of BRA (R135). -/
inductive BrCond where
  | always | nz | z
  deriving DecidableEq, Repr
/-- MODE of VOTE (R169). -/
inductive VoteMode where
  | ballot | any | all | uni
  deriving DecidableEq, Repr
/-- MODE of LXCH (R169). -/
inductive XchMode where
  | abs | sub | add | xor
  deriving DecidableEq, Repr
/-- OP of REDL and ROP of COLL (R206, R301). -/
inductive RedOp where
  | add | min | max
  deriving DecidableEq, Repr
/-- HINT of LD and ST (R253). -/
inductive LdHint where
  | none | nal | strm
  deriving DecidableEq, Repr
/-- HINT of PREF (R253). -/
inductive PrefHint where
  | l1 | l2 | cis
  deriving DecidableEq, Repr
/-- OP of the atomics (R260). -/
inductive AtomOp where
  | add | and | or | xor | min | max | exch | inc | dec
  deriving DecidableEq, Repr
/-- Comparison of SIGWAIT and of WAIT packets (R269, R365). -/
inductive SigCmp where
  | ge | eq | ne
  deriving DecidableEq, Repr
/-- TFMT of CPYTO (R291). -/
inductive TileFmt where
  | same | fp32 | int32
  deriving DecidableEq, Repr
/-- OP of COLL (R301). -/
inductive CollOp where
  | allReduce | reduceScatter | allGather | broadcast
  deriving DecidableEq, Repr
/-- ALG of COLL (R301). -/
inductive CollAlg where
  | ring | tree | switched
  deriving DecidableEq, Repr
/-- ETYPE of COLL (R301). -/
inductive CollTy where
  | f32 | bf16 | f16 | s32 | z32
  deriving DecidableEq, Repr
/-- AFMT and BFMT of the matrix control word (R308). -/
inductive MFmt where
  | bf16 | fp16 | e4m3 | e5m2 | int8 | int4
  deriving DecidableEq, Repr

/-! ## Payloads of the operations that have no encoding

What another unit, another device, the host or the environment supplies when it acts. -/

/-- A command ring entry: 64 bytes, byte 0 lowest (R420). -/
abbrev CmdEntry := BitVec 512

/-- Where a REGISTER_WRITE lands (R417); `freorMgmt` is the management window as Freor itself writes it (R388). -/
inductive Bar where
  | pfMgmt | pfPage | vfPage (vd : Nat) | freorMgmt
  deriving DecidableEq, Repr
/-- A host or guest write of `size` bytes (4 or 8) at a BAR offset (R417, R418). -/
structure MmioWrite where
  bar : Bar
  off : Nat
  size : Nat
  value : DWord
  deriving DecidableEq, Repr

/-- What the scheduler picks: the cores in ascending coreid, for each grpid the team core index and
quadrant (R25, R27), and the team of a grid that starts (R366). -/
structure Placement where
  cores : List Nat
  homes : List (Nat × Nat)
  teamid : Nat
  deriving DecidableEq, Repr

/-- What another rank brings to a collective job: the job it issued (R405), its source bytes
and the chunks of it that were poisoned as read (R411). -/
structure RankData where
  rank : Nat
  desc : DWord
  count : Nat
  bytes : List Byte
  poisoned : List Nat
  deriving DecidableEq, Repr

/-- What the array of a team core gets wrong in a step (R314, R386): a staged word, with what its
recomputation stages where that is wrong too; or the value of a check line of a quadrant's
sub-array (its row `index`, or its column), off by `delta`, in units of 2^-320 for a float form and
of 1 for an integer one, and whether it is off again in the recomputation. -/
inductive ArrayErr where
  | element (tcore row col : Nat) (word : Word) (again : Option Word)
  | line (tcore quad : Nat) (isRow : Bool) (index : Nat) (delta : Int) (again : Bool)
  deriving DecidableEq, Repr
def ArrayErr.tcore : ArrayErr → Nat
  | .element t _ _ _ _ => t | .line t _ _ _ _ _ => t

/-- A remote register store on its way (R275, R399): `die` and `inc` are the die it was issued on and
that die's INC then (R392), `work` the bundle of a sender on this device (R364). -/
structure RemoteStore where
  gname : DWord
  sdev : Nat
  svd : Nat
  sender : DWord
  seq : Nat
  first : Nat
  regs : List (List Word)
  trapnak : Bool
  die : Nat := 0
  inc : BitVec 16 := 0
  work : Option Nat := none
  deriving DecidableEq, Repr

/-- The outcome of an RSTR that reaches its sender; reason 0 is an ACK (R276). It carries the
incarnation of its request (R392). -/
structure RstrOutcome where
  sender : DWord
  seq : Nat
  reason : Nat
  die : Nat := 0
  inc : BitVec 16 := 0
  deriving DecidableEq, Repr

/-- What another device asks of a page homed here (R398). -/
inductive RemoteOp where
  | read (n : Nat)
  | write (bytes : List Byte) (poison : Bool)
  | rmw (ty : Ty) (op : AtomOp) (v : DWord)
  | cas (ty : Ty) (cmp new : DWord)
  | tagRead
  | tagWrite (clr : Bool)
  deriving DecidableEq, Repr
/-- A remote access that arrives (R398). -/
structure RemoteReq where
  sdev : Nat
  svd : Nat
  addr : Nat
  op : RemoteOp
  deriving DecidableEq, Repr

/-- A response or request that carries an incarnation (R392). -/
structure StaleMsg where
  die : Nat
  inc : BitVec 16
  vd : Option Nat
  deriving DecidableEq, Repr

/-- Whose access a fault request or a remote access is (R329, R331). -/
inductive Origin where
  | group (key : Nat)
  | engine (cmd : Nat)
  | frontEnd (iq : Nat)
  deriving DecidableEq, Repr
/-- What Freor brings in before it writes RTOKEN (R426): `size` bytes of host memory from `host` to
`page` in local HBM, and the table entry at `pte`. Which pages it takes is its own business. -/
structure PageIn where
  pte : Nat
  entry : DWord
  page : Nat
  host : Nat
  size : Nat
  deriving DecidableEq, Repr
/-- A write of RTOKEN and RFAIL (R330), with what Freor brings in before it in hardware mode (R426). -/
structure Resolution where
  value : DWord
  pages : List PageIn
  deriving DecidableEq, Repr
/-- How many dirty-log entries Freor consumes, and the host address of its bitmap (R426). -/
structure LogDrain where
  n : Nat
  bitmap : Nat
  deriving DecidableEq, Repr
/-- An agent of a VD that accesses remote memory (R398). -/
structure Agent where
  vd : Nat
  origin : Origin
  deriving DecidableEq, Repr
/-- Where an uncorrectable error strikes (R384, R385): `laneTags` the tag word of a vector register,
`latent` a sector of HBM whose damage nothing has found yet (R391); `vd` owns the data. -/
inductive ErrSite where
  | vreg (key reg : Nat) (lanes : Word)
  | sreg (key reg : Nat)
  | preg (key reg : Nat)
  | tileRow (tid core row : Nat)
  | scratch (tid core sector : Nat)
  | laneTags (key reg : Nat)
  | sector (sector : Nat) (vd : Option Nat)
  | latent (sector : Nat)
  | cistern (sector : Nat) (vd : Option Nat)
  | l2Copy (die sector : Nat)
  | l1Copy (core sector : Nat)
  | saveImage (tid : Nat)
  | untagged (keys : List Nat) (cls : Nat) (vd : Option Nat)
  | corrected (vd : Option Nat)
  deriving DecidableEq, Repr

/-- The outcome of a known-answer operation (R389). -/
structure KaResult where
  core : Nat
  quad : Nat
  lane : Nat
  mismatch : Bool
  deriving DecidableEq, Repr

/-- What the scrubber finds in a sector (R390). -/
inductive ScrubFound where
  | clean | correctable | uncorrectable
  deriving DecidableEq, Repr

/-- An SPDM message as received: session, slot or parameter, and its bytes (R431). -/
structure SpdmReq where
  session : Nat
  param : Nat
  body : List Byte
  deriving DecidableEq, Repr

/-- A Freor image offered for loading (R431). -/
structure FreorImage where
  digest : List Byte
  signature : List Byte
  version : Nat
  deriving DecidableEq, Repr

/-- An entry of the retirement list (R14, R389). -/
inductive RetireEntry where
  | die (d : Nat) | core (c : Nat)
  deriving DecidableEq, Repr

/-- A communicator's record: this rank and the device and VD of each rank (R404). -/
structure CommRec where
  myRank : Nat
  ranks : List (Nat × Nat)
  deriving DecidableEq, Repr

/-- Every row of spec/opcode_table.json: the instructions, then the operations of the other units. -/
inductive Instr where
  | nop
  | bra (cond : BrCond) (o : BrOps)
  | brc (ty : Ty) (cm : Cmp) (o : BrOps)
  | brx (o : Ops)
  | call (o : BrOps)
  | ret (o : Ops)
  | exit (o : Ops)
  | yield (o : Ops)
  | sleepc (o : Ops)
  | trap (o : Ops)
  | bkpt (code : BitVec 15) (o : Ops)
  | rtt (o : Ops)
  | waitfault (o : Ops)
  | cropen (pmask : BitVec 16) (o : BrOps)
  | crclose (o : Ops)
  | crstat (clr : Bool) (o : Ops)
  | spawn (o : Ops)
  | join (o : Ops)
  | smstart (o : Ops)
  | waitpred (o : Ops)
  | barinit (bar : BitVec 4) (mask : BitVec 5) (o : Ops)
  | bara (bar : BitVec 4) (o : Ops)
  | barw (bar : BitVec 4) (o : Ops)
  | bars (bar : BitVec 4) (o : Ops)
  | rninit (rn : BitVec 3) (s1 : BitVec 4) (o : Ops)
  | rnpost (rn : BitVec 3) (empty : Bool) (o : Ops)
  | rnwait (rn : BitVec 3) (empty : Bool) (o : Ops)
  | smov (o : Ops)
  | sli (o : Ops)
  | slih (o : Ops)
  | sadd (ty : Ty) (o : Ops)
  | ssub (ty : Ty) (o : Ops)
  | smul (ty : Ty) (o : Ops)
  | smulh (ty : Ty) (o : Ops)
  | smad (ty : Ty) (o : Ops)
  | sand (ty : Ty) (o : Ops)
  | sor (ty : Ty) (o : Ops)
  | sxor (ty : Ty) (o : Ops)
  | sshl (ty : Ty) (o : Ops)
  | sshr (ty : Ty) (o : Ops)
  | ssra (ty : Ty) (o : Ops)
  | smin (ty : Ty) (o : Ops)
  | smax (ty : Ty) (o : Ops)
  | scmp (ty : Ty) (cm : Cmp) (o : Ops)
  | ssel (ty : Ty) (o : Ops)
  | spopc (ty : Ty) (o : Ops)
  | sclz (ty : Ty) (o : Ops)
  | sld (ty : Ty) (sc : Scope) (od : MemOrd) (o : Ops)
  | sst (ty : Ty) (sc : Scope) (od : MemOrd) (o : Ops)
  | srd (idx : BitVec 6) (o : Ops)
  | swr (idx : BitVec 6) (o : Ops)
  | pand (o : Ops)
  | por (o : Ops)
  | pxor (o : Ops)
  | pnot (o : Ops)
  | pmovs (o : Ops)
  | pmovp (o : Ops)
  | vote (vm : VoteMode) (o : Ops)
  | lxch (ty : Ty) (xm : XchMode) (wid : BitVec 3) (wrap : Bool) (o : Ops)
  | rdlane (ty : Ty) (o : Ops)
  | wrlane (ty : Ty) (o : Ops)
  | mtch (ty : Ty) (all : Bool) (o : Ops)
  | csrrd (idx : BitVec 12) (o : Ops)
  | csrwr (idx : BitVec 12) (o : Ops)
  | iadd (ty : Ty) (sat : Bool) (o : Ops)
  | iadd3 (ty : Ty) (o : Ops)
  | isub (ty : Ty) (sat : Bool) (o : Ops)
  | imul (ty : Ty) (o : Ops)
  | imulh (ty : Ty) (o : Ops)
  | imad (ty : Ty) (o : Ops)
  | imadw (ty : Ty) (o : Ops)
  | iabs (ty : Ty) (sat : Bool) (o : Ops)
  | imin (ty : Ty) (o : Ops)
  | imax (ty : Ty) (o : Ops)
  | idot4 (ty : Ty) (asg bsg sat : Bool) (o : Ops)
  | and (ty : Ty) (o : Ops)
  | or (ty : Ty) (o : Ops)
  | xor (ty : Ty) (o : Ops)
  | not (ty : Ty) (o : Ops)
  | shl (ty : Ty) (o : Ops)
  | shr (ty : Ty) (o : Ops)
  | sra (ty : Ty) (o : Ops)
  | shf (ty : Ty) (right wrap : Bool) (o : Ops)
  | popc (ty : Ty) (o : Ops)
  | clz (ty : Ty) (o : Ops)
  | brev (ty : Ty) (o : Ops)
  | bfe (ty : Ty) (o : Ops)
  | bfi (ty : Ty) (o : Ops)
  | prmt (ty : Ty) (o : Ops)
  | lea (ty : Ty) (k : BitVec 6) (sx : Bool) (o : Ops)
  | icmp (ty : Ty) (cm : Cmp) (o : Ops)
  | sel (ty : Ty) (o : Ops)
  | mov (ty : Ty) (o : Ops)
  | movi (ty : Ty) (o : Ops)
  | mova (ty : Ty) (o : Ops)
  | fadd (ty : Ty) (m : Rnd) (o : Ops)
  | fsub (ty : Ty) (m : Rnd) (o : Ops)
  | fmul (ty : Ty) (m : Rnd) (o : Ops)
  | fma (ty : Ty) (m : Rnd) (o : Ops)
  | fmin (ty : Ty) (o : Ops)
  | fmax (ty : Ty) (o : Ops)
  | fcmp (ty : Ty) (cm : FCmp) (o : Ops)
  | fclass (ty : Ty) (o : Ops)
  | frnd (ty : Ty) (m : Rnd) (o : Ops)
  | frcp (ty : Ty) (m : Rnd) (o : Ops)
  | frsq (ty : Ty) (m : Rnd) (o : Ops)
  | fsqrt (ty : Ty) (m : Rnd) (o : Ops)
  | fdiv (ty : Ty) (m : Rnd) (o : Ops)
  | fexp2 (ty : Ty) (o : Ops)
  | flog2 (ty : Ty) (o : Ops)
  | fsin (ty : Ty) (o : Ops)
  | fcos (ty : Ty) (o : Ops)
  | ftanh (ty : Ty) (o : Ops)
  | fscale (ty : Ty) (m : Rnd) (o : Ops)
  | ffrac (ty : Ty) (o : Ops)
  | pkadd (ty : Ty) (m : Rnd) (o : Ops)
  | pkmul (ty : Ty) (m : Rnd) (o : Ops)
  | pkfma (ty : Ty) (m : Rnd) (o : Ops)
  | cvt (ty : Ty) (m : Rnd) (sty : Ty) (sat : Bool) (o : Ops)
  | cvtUnit (m : Rnd) (o : Ops)
  | redl (ty : Ty) (m : Rnd) (rop : RedOp) (o : Ops)
  | rngk (ty : Ty) (w2 : Bool) (o : Ops)
  | ld (ty : Ty) (hint : LdHint) (sc : Scope) (od : MemOrd) (sx nodfr : Bool) (o : Ops)
  | st (ty : Ty) (hint : LdHint) (sc : Scope) (od : MemOrd) (sx : Bool) (o : Ops)
  | ldt (ty : Ty) (m : Rnd) (sc : Scope) (od : MemOrd) (e2 nodfr : Bool) (o : Ops)
  | stt (ty : Ty) (m : Rnd) (sc : Scope) (od : MemOrd) (e2 sat : Bool) (o : Ops)
  | pref (ty : Ty) (ph : PrefHint) (sx : Bool) (o : Ops)
  | atom (ty : Ty) (op : AtomOp) (sc : Scope) (od : MemOrd) (o : Ops)
  | atomcas (ty : Ty) (sc : Scope) (od : MemOrd) (fo : Bool) (o : Ops)
  | atomf (ty : Ty) (op : AtomOp) (sc : Scope) (od : MemOrd) (o : Ops)
  | red (ty : Ty) (op : AtomOp) (sc : Scope) (od : MemOrd) (o : Ops)
  | fence (sc : Scope) (od : MemOrd) (o : Ops)
  | cmntL1 (o : Ops)
  | cmntWb (o : Ops)
  | cmntInv (o : Ops)
  | tagrd (sc : Scope) (od : MemOrd) (o : Ops)
  | tagwr (sc : Scope) (od : MemOrd) (clr : Bool) (o : Ops)
  | sigst (add irq : Bool) (sc : Scope) (od : MemOrd) (o : Ops)
  | sigwait (sg : SigCmp) (sc : Scope) (od : MemOrd) (o : Ops)
  | rstr (cnt1 : BitVec 3) (trapnak : Bool) (od : MemOrd) (o : Ops)
  | ibarm (ctr : BitVec 2) (o : Ops)
  | ibarmDis (ctr : BitVec 2) (o : Ops)
  | ibwait (ctr : BitVec 2) (o : Ops)
  | ibstatSend (clr : Bool) (o : Ops)
  | ibstatIbox (ctr : BitVec 2) (o : Ops)
  | cpy (ord : Bool) (o : EngOps)
  | cpy2d (ord : Bool) (sp dp : BitVec 32) (o : EngOps)
  | cpyg (ord : Bool) (cnt : BitVec 32) (e16 : BitVec 12) (sx : Bool) (o : EngOps)
  | cpyt (ord pclr : Bool) (o : EngOps)
  | cpyto (ord : Bool) (tf : TileFmt) (o : EngOps)
  | tld (ty : Ty) (cnt1 : BitVec 3) (col : Bool) (o : Ops)
  | tst (ty : Ty) (cnt1 : BitVec 3) (col : Bool) (o : Ops)
  | mbinit (sc : Scope) (o : Ops)
  | mbexp (arv : Bool) (o : Ops)
  | mbarv (o : Ops)
  | mbwait (o : Ops)
  | mbtest (o : Ops)
  | coll (ord sys : Bool) (op : CollOp) (alg : CollAlg) (ety : CollTy) (rop : RedOp) (cnum : BitVec 16) (root : BitVec 10) (chunk : BitVec 4) (o : EngOps)
  | clwait (o : Ops)
  | binadd (ty : Ty) (o : Ops)
  | binrd (sc : Scope) (od : MemOrd) (clr : Bool) (o : Ops)
  | binpatch (clr : Bool) (npkt : BitVec 16) (gsh : BitVec 5) (o : EngOps)
  | mma (ty : Ty) (af bf : MFmt) (asgn bsgn asrc sq : Bool) (grp : BitVec 2) (aq bq : Bool) (o : MatOps)
  | mmaq (ty : Ty) (af bf : MFmt) (asgn bsgn asrc sq : Bool) (grp : BitVec 2) (aq bq : Bool) (o : MatOps)
  | mzero (o : Ops)
  | mwait (o : Ops)
  | mfence (o : Ops)
  | mcfg (quar : Bool) (astride : BitVec 16)
  | mstep (o : Ops)
  | mstat (o : Ops)
  | agingIssue (key : Nat)
  | storeQueueDrain (key : Nat)
  | l2Forward (die : Nat)
  | cisternWriteAck (die : Nat)
  | l1Eviction (core : Nat) (sector : Nat)
  | resolve (vd : Nat) (x : Resolution)
  | fbconsWrite (vd : Nat) (value : BitVec 32)
  | dlconsWrite (vd : Nat) (value : BitVec 32)
  | registerWrite (w : MmioWrite)
  | generationRaiseComplete (vd : Nat) (space : Nat)
  | engineReport (cmd : Nat) (off : Nat) (len : Nat)
  | copyRetire (cmd : Nat)
  | engineFault (cmd : Nat)
  | engineErrorTaken (key : Nat)
  | collJobComplete (job : Nat) (ranks : List RankData)
  | collJobFailNotice (job : Nat)
  | commTimeout (job : Nat)
  | binpatchJob (job : Nat)
  | binaddPerform (op : Nat)
  | matrixStepDrain (team : Nat) (errs : List ArrayErr)
  | remoteStoreArrival (m : RemoteStore)
  | rstrOutcome (o : RstrOutcome)
  | remoteNakTrap (key : Nat)
  | remoteAccess (r : RemoteReq)
  | remoteAccessTimeout (who : Agent)
  | sigwaitTimeout (key : Nat)
  | ibwaitTimeout (key : Nat)
  | mbwaitTimeout (key : Nat)
  | clwaitTimeout (key : Nat)
  | sleepcExpiry (key : Nat)
  | teamStart (p : Placement)
  | sliceExpiry (team : Nat)
  | preempt (team : Nat)
  | teamRestore (team : Nat) (p : Placement)
  | kick (vd : Nat) (off : Nat) (size : Nat) (word : BitVec 64)
  | packetFetch (vd : Nat) (iq : Nat)
  | pseqRereadExpiry (vd : Nat) (iq : Nat)
  | packetStart (vd : Nat) (iq : Nat) (idx : Nat)
  | preJobsDone (vd : Nat) (iq : Nat) (idx : Nat)
  | waitPacketSatisfied (vd : Nat) (iq : Nat) (idx : Nat)
  | waitPacketTimeout (vd : Nat) (iq : Nat) (idx : Nat)
  | bundleRetire (vd : Nat) (iq : Nat) (idx : Nat)
  | packetComplete (vd : Nat) (iq : Nat) (idx : Nat)
  | create (e : CmdEntry)
  | destroy (e : CmdEntry)
  | activate (e : CmdEntry)
  | deactivate (e : CmdEntry)
  | pause (e : CmdEntry)
  | resume (e : CmdEntry)
  | kill (e : CmdEntry)
  | partition (e : CmdEntry)
  | setcfgWeight (e : CmdEntry)
  | setcfgHbmWeir (e : CmdEntry)
  | setcfgBrixayWeir (e : CmdEntry)
  | setcfgPeer (e : CmdEntry)
  | setcfgGqtbase (e : CmdEntry)
  | setcfgGroot (e : CmdEntry)
  | setcfgHroot (e : CmdEntry)
  | setcfgRemap (e : CmdEntry)
  | setcfgModes (e : CmdEntry)
  | setcfgStackPool (e : CmdEntry)
  | setcfgSavePool (e : CmdEntry)
  | setcfgSlice (e : CmdEntry)
  | setcfgPowerLimit (e : CmdEntry)
  | gen (e : CmdEntry)
  | qbind (e : CmdEntry)
  | qctlEnable (e : CmdEntry)
  | qctlResume (e : CmdEntry)
  | qctlReset (e : CmdEntry)
  | grant (e : CmdEntry)
  | comm (e : CmdEntry)
  | podnum (e : CmdEntry)
  | deviceReset
  | dieReset (die : Nat)
  | dieLoss (die : Nat)
  | dielostTrap (key : Nat)
  | sparePromotion (die : Nat)
  | staleResponse (r : StaleMsg)
  | uncorrectableError (site : ErrSite)
  | hwerrTaken (key : Nat)
  | kaInjection (k : KaResult)
  | scrubSector (sector : Nat) (found : ScrubFound)
  | scrubWrite (sector : Nat)
  | vfFlr (vd : Nat)
  | pfFlr
  | d3hotEntry
  | d0Return
  | thermalThrottle (junction : Nat) (watts : Nat)
  | thermalStop (junction : Nat)
  | getVersion (q : SpdmReq)
  | getCapabilities (q : SpdmReq)
  | negotiateAlgorithms (q : SpdmReq)
  | getDigests (q : SpdmReq)
  | getCertificate (q : SpdmReq)
  | challenge (q : SpdmReq)
  | getMeasurements (q : SpdmReq)
  | keyExchange (q : SpdmReq)
  | finish (q : SpdmReq)
  | keyUpdate (q : SpdmReq)
  | endSession (q : SpdmReq)
  | lockInterfaceRequest (vd : Nat)
  | stopInterfaceRequest (vd : Nat)
  | freorImageLoad (img : FreorImage)
  | freorDirtyLogDrain (vd : Nat) (x : LogDrain)
  | retirementListClear (x : RetireEntry)
  | fabricError (job : Nat)
  | fbenWrite (vd : Nat) (value : BitVec 64)
  | l2Eviction (die : Nat) (sector : Nat)
  | migration (key : Nat) (core : Nat) (quad : Nat)
  | freorCollectiveSetup (vd : Nat) (cnum : Nat) (cr : CommRec)
  | ideKmKeyProgramming (session : Nat) (stream : Nat) (key : BitVec 256)
  | startInterfaceRequest (vd : Nat)
  | interfaceReportRequest (vd : Nat)
  | msixVectorUnmask (func : Nat) (vec : Nat)
  deriving DecidableEq, Repr

end Sys2Proof
end

