-- ==== Sys2Proof/Machine/Encoding.lean ====
section
/-! DEFINITION. Encoding: the codes of every sub-field, the opcode map (R82), and for each instruction the row that says how it is laid out and which operands it accepts (R73 to R81, with the encoding tables of the chapters on instructions). -/
namespace Sys2Proof

/-! ## Codes of the sub-fields -/

def Ty.code : Ty → Nat
  | .b32 => 0 | .b64 => 1 | .s8 => 2 | .s16 => 3 | .s32 => 4 | .s64 => 5 | .z8 => 6 | .z16 => 7 | .z32 => 8 | .z64 => 9
  | .f16 => 10 | .bf16 => 11 | .f32 => 12 | .f64 => 13 | .e4m3 => 14 | .e5m2 => 15 | .q4 => 16 | .q8 => 17
def Ty.ofCode : Nat → Option Ty
  | 0 => some .b32 | 1 => some .b64 | 2 => some .s8 | 3 => some .s16 | 4 => some .s32 | 5 => some .s64 | 6 => some .z8
  | 7 => some .z16 | 8 => some .z32 | 9 => some .z64 | 10 => some .f16 | 11 => some .bf16 | 12 => some .f32 | 13 => some .f64
  | 14 => some .e4m3 | 15 => some .e5m2 | 16 => some .q4 | 17 => some .q8 | _ => none
/-- The width of a type in bits. -/
def Ty.width : Ty → Nat
  | .b32 | .s32 | .z32 | .f32 => 32 | .b64 | .s64 | .z64 | .f64 => 64
  | .s8 | .z8 | .e4m3 | .e5m2 | .q8 => 8 | .s16 | .z16 | .f16 | .bf16 => 16 | .q4 => 4
def Ty.is64 (t : Ty) : Bool := t.width == 64
/-- A type read with sext (R187). -/
def Ty.isS : Ty → Bool
  | .s8 | .s16 | .s32 | .s64 => true | _ => false
def Ty.isZ : Ty → Bool
  | .z8 | .z16 | .z32 | .z64 => true | _ => false
/-- The set B of R186. -/
def Ty.isB : Ty → Bool
  | .b32 | .b64 => true | _ => false
/-- The set SZ of R186. -/
def Ty.isSZ : Ty → Bool
  | .s32 | .z32 | .s64 | .z64 => true | _ => false
/-- The set I of R186. -/
def Ty.isI (t : Ty) : Bool := t.isB || t.isSZ
/-- The set F of R195. -/
def Ty.isF : Ty → Bool
  | .f32 | .f64 => true | _ => false
def Ty.isFloat : Ty → Bool
  | .f16 | .bf16 | .f32 | .f64 | .e4m3 | .e5m2 => true | _ => false
/-- The types of CVT (R204). -/
def Ty.isCvt (t : Ty) : Bool := t.isFloat || t.isS || t.isZ
/-- The types of SLD and SST (R167). -/
def Ty.isUMem : Ty → Bool
  | .s8 | .z8 | .s16 | .z16 | .s32 | .z32 | .b32 | .b64 => true | _ => false

def Rnd.code : Rnd → Nat
  | .rn => 0 | .rz => 1 | .ru => 2 | .rd => 3
def Rnd.ofCode : Nat → Rnd
  | 0 => .rn | 1 => .rz | 2 => .ru | _ => .rd
def Scope.code : Scope → Nat
  | .core => 0 | .clu => 1 | .die => 2 | .dev => 3 | .pod => 4 | .sys => 5
def Scope.ofCode : Nat → Option Scope
  | 0 => some .core | 1 => some .clu | 2 => some .die | 3 => some .dev | 4 => some .pod | 5 => some .sys | _ => none
def MemOrd.code : MemOrd → Nat
  | .rlx => 0 | .acq => 1 | .rel => 2 | .ar => 3 | .sc => 4
def MemOrd.ofCode : Nat → Option MemOrd
  | 0 => some .rlx | 1 => some .acq | 2 => some .rel | 3 => some .ar | 4 => some .sc | _ => none
/-- Orderings that acquire, and those that release (R229). -/
def MemOrd.isAcq : MemOrd → Bool
  | .acq | .ar | .sc => true | .rlx | .rel => false
def MemOrd.isRel : MemOrd → Bool
  | .rel | .ar | .sc => true | .rlx | .acq => false
def Cmp.code : Cmp → Nat
  | .eq => 0 | .ne => 1 | .lt => 2 | .le => 3 | .gt => 4 | .ge => 5
def Cmp.ofCode : Nat → Option Cmp
  | 0 => some .eq | 1 => some .ne | 2 => some .lt | 3 => some .le | 4 => some .gt | 5 => some .ge | _ => none
def FCmp.code : FCmp → Nat
  | .eq => 0 | .ne => 1 | .lt => 2 | .le => 3 | .gt => 4 | .ge => 5 | .num => 6 | .nan => 7
def FCmp.ofCode : Nat → Option FCmp
  | 0 => some .eq | 1 => some .ne | 2 => some .lt | 3 => some .le | 4 => some .gt | 5 => some .ge | 6 => some .num
  | 7 => some .nan | _ => none
def BrCond.code : BrCond → Nat
  | .always => 0 | .nz => 1 | .z => 2
def BrCond.ofCode : Nat → Option BrCond
  | 0 => some .always | 1 => some .nz | 2 => some .z | _ => none
def VoteMode.code : VoteMode → Nat
  | .ballot => 0 | .any => 1 | .all => 2 | .uni => 3
def VoteMode.ofCode : Nat → VoteMode
  | 0 => .ballot | 1 => .any | 2 => .all | _ => .uni
def XchMode.code : XchMode → Nat
  | .abs => 0 | .sub => 1 | .add => 2 | .xor => 3
def XchMode.ofCode : Nat → XchMode
  | 0 => .abs | 1 => .sub | 2 => .add | _ => .xor
def RedOp.code : RedOp → Nat
  | .add => 0 | .min => 1 | .max => 2
def RedOp.ofCode : Nat → Option RedOp
  | 0 => some .add | 1 => some .min | 2 => some .max | _ => none
def LdHint.code : LdHint → Nat
  | .none => 0 | .nal => 1 | .strm => 2
def LdHint.ofCode : Nat → Option LdHint
  | 0 => some .none | 1 => some .nal | 2 => some .strm | _ => none
def PrefHint.code : PrefHint → Nat
  | .l1 => 0 | .l2 => 1 | .cis => 2
def PrefHint.ofCode : Nat → Option PrefHint
  | 0 => some .l1 | 1 => some .l2 | 2 => some .cis | _ => none
def AtomOp.code : AtomOp → Nat
  | .add => 0 | .and => 1 | .or => 2 | .xor => 3 | .min => 4 | .max => 5 | .exch => 6 | .inc => 7 | .dec => 8
def AtomOp.ofCode : Nat → Option AtomOp
  | 0 => some .add | 1 => some .and | 2 => some .or | 3 => some .xor | 4 => some .min | 5 => some .max | 6 => some .exch
  | 7 => some .inc | 8 => some .dec | _ => none
/-- OP is CTL[14] × 8 + CTL[13] × 4 + CTL[6:5] (R260). -/
def AtomOp.ctl (op : AtomOp) : Nat := op.code % 4 * 32 + op.code / 4 * 8192
def AtomOp.ofCtl (n : Nat) : Option AtomOp := AtomOp.ofCode (fld n 14 13 * 4 + fld n 6 5)
/-- The operations and types of ATOM (R260). -/
def AtomOp.okAtom (op : AtomOp) (t : Ty) : Bool :=
  match op with
  | .add => true | .and | .or | .xor | .exch => t.isB | .min | .max => t.isSZ | .inc | .dec => t.isZ
/-- The operations of ATOMF (R260). -/
def AtomOp.okAtomF : AtomOp → Bool
  | .add | .min | .max => true | _ => false
/-- The operations and types of RED (R260). -/
def AtomOp.okRed (op : AtomOp) (t : Ty) : Bool :=
  match op with
  | .add => true | .and | .or | .xor => t.isB | .exch => false | .min | .max => t.isSZ || t.isF | .inc | .dec => t.isZ
def SigCmp.code : SigCmp → Nat
  | .ge => 0 | .eq => 1 | .ne => 2
def SigCmp.ofCode : Nat → Option SigCmp
  | 0 => some .ge | 1 => some .eq | 2 => some .ne | _ => none
def TileFmt.code : TileFmt → Nat
  | .same => 0 | .fp32 => 1 | .int32 => 2
def TileFmt.ofCode : Nat → Option TileFmt
  | 0 => some .same | 1 => some .fp32 | 2 => some .int32 | _ => none
def CollOp.code : CollOp → Nat
  | .allReduce => 0 | .reduceScatter => 1 | .allGather => 2 | .broadcast => 3
def CollOp.ofCode : Nat → Option CollOp
  | 0 => some .allReduce | 1 => some .reduceScatter | 2 => some .allGather | 3 => some .broadcast | _ => none
/-- The operations that combine elements (R301, R409). -/
def CollOp.reduces : CollOp → Bool
  | .allReduce | .reduceScatter => true | .allGather | .broadcast => false
def CollAlg.code : CollAlg → Nat
  | .ring => 0 | .tree => 1 | .switched => 2
def CollAlg.ofCode : Nat → Option CollAlg
  | 0 => some .ring | 1 => some .tree | 2 => some .switched | _ => none
def CollTy.code : CollTy → Nat
  | .f32 => 0 | .bf16 => 1 | .f16 => 2 | .s32 => 3 | .z32 => 4
def CollTy.ofCode : Nat → Option CollTy
  | 0 => some .f32 | 1 => some .bf16 | 2 => some .f16 | 3 => some .s32 | 4 => some .z32 | _ => none
/-- Element bytes of a collective (R407). -/
def CollTy.bytes : CollTy → Nat
  | .f32 | .s32 | .z32 => 4 | .bf16 | .f16 => 2
def MFmt.code : MFmt → Nat
  | .bf16 => 0 | .fp16 => 1 | .e4m3 => 2 | .e5m2 => 3 | .int8 => 4 | .int4 => 5
def MFmt.ofCode : Nat → Option MFmt
  | 0 => some .bf16 | 1 => some .fp16 | 2 => some .e4m3 | 3 => some .e5m2 | 4 => some .int8 | 5 => some .int4 | _ => none
def MFmt.width : MFmt → Nat
  | .bf16 | .fp16 => 16 | .e4m3 | .e5m2 | .int8 => 8 | .int4 => 4
def MFmt.isFloat : MFmt → Bool
  | .bf16 | .fp16 | .e4m3 | .e5m2 => true | .int8 | .int4 => false

/-! ## Operand and permutation codes (R61, R70) -/

def Opnd.code : Opnd → Nat
  | .v k => k.val | .s k => 640 + k.val | .p k => 704 + k.val | .zero => 720 | .laneid => 721
def Opnd.ofCode (n : Nat) : Option Opnd :=
  if h : n < 640 then some (.v ⟨n, h⟩)
  else if h : n - 640 < 64 then some (.s ⟨n - 640, h⟩)
  else if h : n - 704 < 16 then some (.p ⟨n - 704, h⟩)
  else if n = 720 then some .zero
  else if n = 721 then some .laneid
  else none
def Perm.code : Perm → Nat
  | .none => 0 | .rot m => m.val * 8 + 1 | .bcast m => m.val * 8 + 2 | .bfly m => m.val * 8 + 3 | .mir => 4
  | .rot8 m => m.val * 8 + 5
/-- A reserved pattern or an amount outside the legal range gives none. -/
def Perm.ofCode (n : Nat) : Option Perm :=
  match n % 8 with
  | 0 => if n / 8 = 0 then some .none else Option.none
  | 1 => if h : n / 8 < 32 then some (.rot ⟨n / 8, h⟩) else Option.none
  | 2 => if h : n / 8 < 32 then some (.bcast ⟨n / 8, h⟩) else Option.none
  | 3 => if h : n / 8 < 32 then some (.bfly ⟨n / 8, h⟩) else Option.none
  | 4 => if n / 8 = 0 then some .mir else Option.none
  | 5 => if h : n / 8 < 8 then some (.rot8 ⟨n / 8, h⟩) else Option.none
  | _ => Option.none

/-! ## What an operand field accepts -/

/-- How a permutation field is read: reserved (check 5), or legal only as R70 says (check 6);
`vector` is reserved on an s register and else as R70 says (R169). -/
inductive PermUse where
  | reserved | honoured | refused | vector
  deriving DecidableEq, Repr

/-- What an operand field accepts: whether the instruction uses it, the classes it may name,
the registers of its group, and its permutation field. -/
structure Use where
  used : Bool := true
  v : Bool := false
  s : Bool := false
  p : Bool := false
  z : Bool := false
  lane : Bool := false
  n : Nat := 1
  even : Bool := false
  sn : Nat := 1
  perm : PermUse := .reserved
  deriving DecidableEq, Repr

namespace Use
/-- A field the instruction does not use (R81). -/
def none : Use := { used := false }
def sDst : Use := { s := true }
def sDstU : Use := { s := true }
/-- A source of a uniform instruction (R131). -/
def uni : Use := { s := true, z := true }
/-- The last source of a uniform instruction: IMM in F128I (R77, R164). -/
def uniLast (f : Fmt) : Use := if f = .f128i then none else uni
/-- An s register or zero in a lane instruction, whose permutation R70 refuses. -/
def uniP : Use := { s := true, z := true, perm := .refused }
def sOnly : Use := { s := true }
def sGroup (n : Nat) : Use := { s := true, sn := n }
/-- A branch target or link: an s register or an even vector pair (R135). -/
def target : Use := { s := true, v := true, n := 2, even := true }
def link : Use := target
/-- A vector source of the general kind (R179). -/
def src (is64 perm : Bool) : Use :=
  { v := true, s := true, z := true, lane := true, n := if is64 then 2 else 1, even := is64,
    perm := if perm then .honoured else .reserved }
/-- B of LXCH: R173 reads a count of 32 bits per lane, so a vector B is one register at .b64 too, odd
or even, although R169 calls the vector sources even pairs there. DESIGN CHOICE. Log entry 35. -/
def lxchB : Use := { v := true, s := true, z := true, lane := true, perm := .vector }
def vDst (is64 : Bool) : Use := { v := true, n := if is64 then 2 else 1, even := is64 }
def vDstN (n : Nat) (even : Bool) : Use := { v := true, n := n, even := even }
def vOnly (is64 : Bool) : Use := { v := true, n := if is64 then 2 else 1, even := is64, perm := .honoured }
def vGroup (n : Nat) (perm : Bool) : Use := { v := true, n := n, perm := if perm then .honoured else .reserved }
/-- Predicate operands and s registers of the predicate and lane instructions, whose permutation
fields are reserved (R169). -/
def pDst : Use := { p := true }
def pSrc : Use := { p := true, z := true }
def pOnly : Use := { p := true }
/-- SEL's predicate, whose permutation R70 refuses (R185). -/
def pSel : Use := { p := true, perm := .refused }
/-- The address operand of a lane memory instruction (R247). -/
def addr : Use := { v := true, s := true, z := true, n := 2, even := true, perm := .honoured }
/-- Store data and atomic operands: a vector register (pair at 64 bits), s or zero (R253, R260). -/
def dat (is64 : Bool) : Use :=
  { v := true, s := true, z := true, n := if is64 then 2 else 1, even := is64, perm := .honoured }
/-- STT's data group (R257). -/
def vDat (two : Bool) : Use := { v := true, n := if two then 2 else 1, even := two, perm := .honoured }
/-- The compare and new values of ATOMCAS (R262). -/
def casDat (is64 : Bool) : Use :=
  { v := true, s := true, n := if is64 then 4 else 2, even := is64, sn := 2, perm := .honoured }
def rngSrc : Use := { v := true, s := true, z := true, n := 2, even := true, perm := .honoured }
def binIdx : Use := { v := true, s := true, lane := true, perm := .honoured }
def binCnt : Use := { v := true, s := true, z := true, perm := .honoured }
/-- The destination of SRD (R57, R168): a 64-bit special goes to an even pair of vector registers. -/
def srdDst (i : Nat) : Use := if i = 5 ∨ i = 6 then { v := true, s := true, n := 2, even := true } else { v := true, s := true }
end Use

/-- The operand fields of an instruction: D, A, B, C and M, and the width of the immediate. -/
structure Uses where
  d : Use := .none
  a : Use := .none
  b : Use := .none
  c : Use := .none
  m : Use := .none
  immW : Nat := 0
  deriving DecidableEq, Repr

/-- The word layouts (R75 to R80). -/
inductive Form where
  | f64 | f96 | i | b | c | m
  deriving DecidableEq, Repr

def Form.ofFmt : Fmt → Form
  | .f64 => .f64 | .f96 => .f96 | .f128i => .i
/-- LEN of a layout (R71). -/
def Form.len : Form → Nat
  | .f64 => 0 | .f96 => 1 | .i | .b | .c | .m => 2
/-- Bytes of a layout (R71). -/
def Form.bytes : Form → Nat
  | .f64 => 8 | .f96 => 12 | .i | .b | .c | .m => 16

/-- How one instruction is laid out: opcode, operand fields, control field, what the operands
may be, the typed refusals of check 5 (`ok`) and the number refusals of check 6 (`ok6`). -/
inductive Row where
  | ops (opc : Nat) (o : Ops) (ctl : Nat) (u : Uses) (ok ok6 : Bool)
  | br (opc : Nat) (o : BrOps) (ctl : Nat) (u : Uses) (auxUsed ok ok6 : Bool)
  | eng (opc : Nat) (o : EngOps) (ctl desc : Nat) (u : Uses) (ok : Bool)
  | mat (opc : Nat) (o : MatOps) (ctl mcw : Nat) (u : Uses) (ok : Bool)
  deriving DecidableEq, Repr

/-- The operand fields of an instruction that has none. -/
def Ops.blank : Ops := ⟨.f64, none, .v 0, .v 0, .v 0, .v 0, .none, .none, .none, 0⟩
def MatOps.blank : MatOps := ⟨.v 0, .v 0, .v 0⟩

/-- The combinations of matrix formats that R308 accepts, for MMA (`q` false) and MMAQ. -/
def mmaOk (q : Bool) (ty : Ty) (af bf : MFmt) (asgn bsgn asrc : Bool) (grp : BitVec 2) (aq bq : Bool) : Bool :=
  af.isFloat == bf.isFloat &&
  (if q then ty == .f32 && !af.isFloat && grp != 0 && (aq || bq) && !(aq && asgn) && !(bq && bsgn) && !(aq && asrc)
   else grp == 0 && !aq && !bq &&
    (if af.isFloat then ty == .f32 && af.width == bf.width && !asgn && !bsgn else ty == .s32))

/-- The matrix control word of MMA and MMAQ (R308). -/
def mcwOf (af bf : MFmt) (asgn bsgn asrc sq : Bool) (grp : BitVec 2) (aq bq : Bool) : Nat :=
  af.code + bf.code * 16 + b2n asgn * 256 + b2n bsgn * 512 + b2n asrc * 1024 + b2n sq * 2048 + grp.toNat * 4096
    + b2n aq * 16384 + b2n bq * 32768

/-! ## Checks of one operand field -/

/-- The operand class is accepted and the register group lies in the register file, at an even
register where the field names pairs (R57, R61, R62). -/
def Use.classOk (u : Use) : Opnd → Bool
  | .v k => u.v && decide (k.val + u.n ≤ 640) && (!u.even || decide (k.val % 2 = 0))
  | .s k => u.s && decide (k.val + u.sn ≤ 64)
  | .p _ => u.p
  | .zero => u.z
  | .laneid => u.lane
/-- Whether an operand is a vector register. -/
def Opnd.isV : Opnd → Bool
  | .v _ => true | _ => false
/-- An operand and its permutation are what the field accepts (R61, R70, R81). -/
def Use.okFor (u : Use) (x : Opnd) (pm : Perm) : Bool :=
  if u.used then u.classOk x && (pm == .none || ((u.perm == .honoured || u.perm == .vector) && x.isV)) else x == .v 0 && pm == .none
/-- The last register of a vector group plus one; 0 for other operands (R62). -/
def Use.top (u : Use) : Opnd → Nat
  | .v k => if u.used then k.val + u.n else 0
  | _ => 0

/-- The opcode map: first and last code of a run of opcodes, and the layouts they accept (R82, R180). -/
def opcodeMap : List (Nat × Nat × List Form) :=
  [(0x0, 0x0, [.f64]), (0x1, 0x2, [.b]), (0x3, 0x3, [.f64]), (0x4, 0x4, [.b]),
   (0x5, 0x7, [.f64]), (0x8, 0x8, [.i]), (0x9, 0xb, [.f64]), (0xc, 0xc, [.b]),
   (0xd, 0x19, [.f64]), (0x1a, 0x1a, [.f64, .i]), (0x20, 0x20, [.f64]), (0x21, 0x22, [.i]),
   (0x23, 0x26, [.f64, .f96, .i]), (0x27, 0x27, [.f96, .i]), (0x28, 0x30, [.f64, .f96, .i]), (0x31, 0x31, [.f96, .i]),
   (0x32, 0x33, [.f64, .f96, .i]), (0x34, 0x35, [.f64, .i]), (0x36, 0x37, [.f64]), (0x40, 0x4a, [.f64, .f96]),
   (0x70, 0x71, [.f64]), (0x80, 0x80, [.f64, .f96, .i]), (0x81, 0x81, [.f96]), (0x82, 0x83, [.f64, .f96, .i])]  ++
  [(0x84, 0x84, [.f64, .f96]), (0x85, 0x86, [.f96]), (0x87, 0x87, [.f64, .f96]), (0x88, 0x89, [.f64, .f96, .i]),
   (0x8a, 0x8a, [.f96]), (0x8b, 0x8d, [.f64, .f96, .i]), (0x8e, 0x8e, [.f64, .f96]), (0x8f, 0x91, [.f64, .f96, .i]),
   (0x92, 0x92, [.f96]), (0x93, 0x96, [.f64, .f96]), (0x97, 0x98, [.f96]), (0x99, 0x9a, [.f64, .f96, .i]),
   (0x9b, 0x9b, [.f96]), (0x9c, 0x9c, [.f64, .f96]), (0x9d, 0x9e, [.i]), (0xc0, 0xc2, [.f64, .f96, .i]),
   (0xc3, 0xc3, [.f96, .i]), (0xc4, 0xc6, [.f64, .f96, .i]), (0xc7, 0xd5, [.f64, .f96]), (0xd6, 0xd6, [.f96]),
   (0xd7, 0xd8, [.f64, .f96]), (0xd9, 0xd9, [.f96]), (0x140, 0x148, [.f64, .f96, .i]), (0x149, 0x14a, [.f64])]  ++
  [(0x14b, 0x14b, [.f96]), (0x14c, 0x150, [.f64]), (0x151, 0x152, [.f64, .i]), (0x180, 0x184, [.c]),
   (0x185, 0x186, [.f96]), (0x187, 0x18b, [.f64]), (0x18c, 0x18c, [.c]), (0x18d, 0x18d, [.f64]),
   (0x18e, 0x18e, [.f96]), (0x18f, 0x18f, [.c]), (0x190, 0x190, [.f64]), (0x1c0, 0x1c1, [.m]),
   (0x1c2, 0x1c4, [.f64]), (0x1c5, 0x1c5, [.m]), (0x1c6, 0x1c7, [.f64])]

/-- The layouts an opcode accepts; none for an unassigned or reserved code (R82). -/
def formsOf (opc : Nat) : List Form :=
  match opcodeMap.find? fun r => r.1 ≤ opc && opc ≤ r.2.1 with
  | some r => r.2.2
  | none => []

/-- The layout of every instruction; none for the operations that have no encoding. -/
def Instr.row : Instr → Option Row
  | .nop => some (.ops 0x0 .blank 0 {} true true)
  | .bra cond o => some (.br 0x1 o (cond.code) { a := if cond.code = 0 then .none else .sOnly } false (true) (true))
  | .brc ty cm o => some (.br 0x2 o (ty.code + cm.code * 32) { a := .src ty.is64 false, b := .src ty.is64 false } false (ty.isI && (cm.code < 2 || !ty.isB)) (true))
  | .brx o => some (.ops 0x3 o (0) { a := .target } (true) (true))
  | .call o => some (.br 0x4 o (0) { a := .link } false (true) (true))
  | .ret o => some (.ops 0x5 o (0) { a := .target } (true) (true))
  | .exit o => some (.ops 0x6 o (0) {} (true) (true))
  | .yield o => some (.ops 0x7 o (0) {} (true) (true))
  | .sleepc o => some (.ops 0x1a o (0) { a := if o.fmt = .f128i then .none else .uni, immW := 32 } (true) (true))
  | .trap o => some (.ops 0x8 o (0) { immW := 64 } (true) (true))
  | .bkpt code o => some (.ops 0xa o (code.toNat) {} (true) (true))
  | .rtt o => some (.ops 0x9 o (0) {} (true) (true))
  | .waitfault o => some (.ops 0xb o (0) { d := .sDst, a := .uni } (true) (true))
  | .cropen pmask o => some (.br 0xc o (pmask.toNat) {} true (true) (decide (fld o.aux.toNat 25 20 + fld o.aux.toNat 31 26 ≤ 64)))
  | .crclose o => some (.ops 0xd o (0) {} (true) (true))
  | .crstat clr o => some (.ops 0xe o (b2n clr) { d := .sDst } (true) (true))
  | .spawn o => some (.ops 0xf o (0) { d := .sDst, a := .sGroup 8, b := .uni } (true) (true))
  | .join o => some (.ops 0x10 o (0) { a := .uni } (true) (true))
  | .smstart o => some (.ops 0x11 o (0) {} (true) (true))
  | .waitpred o => some (.ops 0x12 o (0) {} (true) (true))
  | .barinit bar mask o => some (.ops 0x13 o (bar.toNat + mask.toNat * 16) { a := .uni } (true) (true))
  | .bara bar o => some (.ops 0x14 o (bar.toNat) {} (true) (true))
  | .barw bar o => some (.ops 0x15 o (bar.toNat) {} (true) (true))
  | .bars bar o => some (.ops 0x16 o (bar.toNat) {} (true) (true))
  | .rninit rn s1 o => some (.ops 0x17 o (rn.toNat + s1.toNat * 8) { a := .uni } (true) (true))
  | .rnpost rn empty o => some (.ops 0x18 o (rn.toNat + b2n empty * 8) { a := .uni } (true) (true))
  | .rnwait rn empty o => some (.ops 0x19 o (rn.toNat + b2n empty * 8) { a := .uni } (true) (true))
  | .smov o => some (.ops 0x20 o (0) { d := .sDst, a := .uni } (true) (true))
  | .sli o => some (.ops 0x21 o (0) { d := .sDst, immW := 64 } (true) (true))
  | .slih o => some (.ops 0x22 o (0) { d := .sDst, immW := 32 } (true) (true))
  | .sadd ty o => some (.ops 0x23 o (ty.code) { d := .sDst, a := .uni, b := .uniLast o.fmt, immW := ty.width } (ty.isI) (true))
  | .ssub ty o => some (.ops 0x24 o (ty.code) { d := .sDst, a := .uni, b := .uniLast o.fmt, immW := ty.width } (ty.isI) (true))
  | .smul ty o => some (.ops 0x25 o (ty.code) { d := .sDst, a := .uni, b := .uniLast o.fmt, immW := ty.width } (ty.isI) (true))
  | .smulh ty o => some (.ops 0x26 o (ty.code) { d := .sDst, a := .uni, b := .uniLast o.fmt, immW := ty.width } (ty.isSZ) (true))
  | .smad ty o => some (.ops 0x27 o (ty.code) { d := .sDst, a := .uni, b := .uni, c := .uniLast o.fmt, immW := ty.width } (ty.isI) (true))
  | .sand ty o => some (.ops 0x28 o (ty.code) { d := .sDst, a := .uni, b := .uniLast o.fmt, immW := ty.width } (ty.isB) (true))
  | .sor ty o => some (.ops 0x29 o (ty.code) { d := .sDst, a := .uni, b := .uniLast o.fmt, immW := ty.width } (ty.isB) (true))
  | .sxor ty o => some (.ops 0x2a o (ty.code) { d := .sDst, a := .uni, b := .uniLast o.fmt, immW := ty.width } (ty.isB) (true))
  | .sshl ty o => some (.ops 0x2b o (ty.code) { d := .sDst, a := .uni, b := .uniLast o.fmt, immW := ty.width } (ty.isI) (true))
  | .sshr ty o => some (.ops 0x2c o (ty.code) { d := .sDst, a := .uni, b := .uniLast o.fmt, immW := ty.width } ((ty.isB || (ty.isSZ && ty.isZ))) (true))
  | .ssra ty o => some (.ops 0x2d o (ty.code) { d := .sDst, a := .uni, b := .uniLast o.fmt, immW := ty.width } ((ty.isSZ && ty.isS)) (true))
  | .smin ty o => some (.ops 0x2e o (ty.code) { d := .sDst, a := .uni, b := .uniLast o.fmt, immW := ty.width } (ty.isSZ) (true))
  | .smax ty o => some (.ops 0x2f o (ty.code) { d := .sDst, a := .uni, b := .uniLast o.fmt, immW := ty.width } (ty.isSZ) (true))
  | .scmp ty cm o => some (.ops 0x30 o (ty.code + cm.code * 32) { d := .sDst, a := .uni, b := .uniLast o.fmt, immW := ty.width } (ty.isI && (cm.code < 2 || !ty.isB)) (true))
  | .ssel ty o => some (.ops 0x31 o (ty.code) { d := .sDst, a := .uni, b := .uni, c := .uniLast o.fmt, immW := ty.width } (ty.isB) (true))
  | .spopc ty o => some (.ops 0x32 o (ty.code) { d := .sDst, a := .uniLast o.fmt, immW := ty.width } (ty.isB) (true))
  | .sclz ty o => some (.ops 0x33 o (ty.code) { d := .sDst, a := .uniLast o.fmt, immW := ty.width } (ty.isB) (true))
  | .sld ty sc od o => some (.ops 0x34 o (ty.code + sc.code * 128 + od.code * 1024) { d := .sDst, a := .uni, immW := 64 } (ty.isUMem && (od == .rlx || od == .acq)) (true))
  | .sst ty sc od o => some (.ops 0x35 o (ty.code + sc.code * 128 + od.code * 1024) { a := .uni, b := .uni, immW := 64 } (ty.isUMem && (od == .rlx || od == .rel)) (true))
  | .srd idx o => some (.ops 0x36 o (idx.toNat) { d := .srdDst idx.toNat } (true) (true))
  | .swr idx o => some (.ops 0x37 o (idx.toNat) { a := .uni } (true) (true))
  | .pand o => some (.ops 0x40 o (0) { d := .pDst, a := .pSrc, b := .pSrc } (true) (true))
  | .por o => some (.ops 0x41 o (0) { d := .pDst, a := .pSrc, b := .pSrc } (true) (true))
  | .pxor o => some (.ops 0x42 o (0) { d := .pDst, a := .pSrc, b := .pSrc } (true) (true))
  | .pnot o => some (.ops 0x43 o (0) { d := .pDst, a := .pSrc } (true) (true))
  | .pmovs o => some (.ops 0x44 o (0) { d := .sDst, a := .pOnly } (true) (true))
  | .pmovp o => some (.ops 0x45 o (0) { d := .pDst, a := .sOnly } (true) (true))
  | .vote vm o => some (.ops 0x46 o (vm.code * 32) { d := if vm = .ballot then .sDst else .pDst, a := .pOnly } (true) (true))
  | .lxch ty xm wid wrap o => some (.ops 0x47 o (ty.code + xm.code * 32 + wid.toNat * 128 + b2n wrap * 1024) { d := .vDst ty.is64, a := .vOnly ty.is64, b := .lxchB } (ty.isB && wid.toNat ≤ 5) (true))
  | .rdlane ty o => some (.ops 0x48 o (ty.code) { d := .sDst, a := .vOnly ty.is64, b := .uni } (ty.isB) (true))
  | .wrlane ty o => some (.ops 0x49 o (ty.code) { d := .vDst ty.is64, a := .uni, b := .uni } (ty.isB) (true))
  | .mtch ty all o => some (.ops 0x4a o (ty.code + b2n all * 32) { d := if all then .pDst else .vDst false, a := .vOnly ty.is64 } (ty.isB) (true))
  | .csrrd idx o => some (.ops 0x70 o (idx.toNat) { d := .sDst } (true) (true))
  | .csrwr idx o => some (.ops 0x71 o (idx.toNat) { a := .uni } (true) (true))
  | .iadd ty sat o => some (.ops 0x80 o (ty.code + b2n sat * 128) { d := .vDst ty.is64, a := .src ty.is64 true, b := if o.fmt = .f128i then .none else .src ty.is64 true, immW := ty.width } (ty.isI && (!sat || ty.isSZ)) (true))
  | .iadd3 ty o => some (.ops 0x81 o (ty.code) { d := .vDst ty.is64, a := .src ty.is64 true, b := .src ty.is64 true, c := .src ty.is64 true, immW := ty.width } (ty.isI) (true))
  | .isub ty sat o => some (.ops 0x82 o (ty.code + b2n sat * 128) { d := .vDst ty.is64, a := .src ty.is64 true, b := if o.fmt = .f128i then .none else .src ty.is64 true, immW := ty.width } (ty.isI && (!sat || ty.isSZ)) (true))
  | .imul ty o => some (.ops 0x83 o (ty.code) { d := .vDst ty.is64, a := .src ty.is64 true, b := if o.fmt = .f128i then .none else .src ty.is64 true, immW := ty.width } (ty.isI) (true))
  | .imulh ty o => some (.ops 0x84 o (ty.code) { d := .vDst ty.is64, a := .src ty.is64 true, b := .src ty.is64 true, immW := ty.width } (ty.isSZ) (true))
  | .imad ty o => some (.ops 0x85 o (ty.code) { d := .vDst ty.is64, a := .src ty.is64 true, b := .src ty.is64 true, c := .src ty.is64 true, immW := ty.width } (ty.isI) (true))
  | .imadw ty o => some (.ops 0x86 o (ty.code) { d := .vDst true, a := .src false true, b := .src false true, c := .src true true } ((ty == .s32 || ty == .z32)) (true))
  | .iabs ty sat o => some (.ops 0x87 o (ty.code + b2n sat * 128) { d := .vDst ty.is64, a := .src ty.is64 true } ((ty.isSZ && ty.isS)) (true))
  | .imin ty o => some (.ops 0x88 o (ty.code) { d := .vDst ty.is64, a := .src ty.is64 true, b := if o.fmt = .f128i then .none else .src ty.is64 true, immW := ty.width } (ty.isSZ) (true))
  | .imax ty o => some (.ops 0x89 o (ty.code) { d := .vDst ty.is64, a := .src ty.is64 true, b := if o.fmt = .f128i then .none else .src ty.is64 true, immW := ty.width } (ty.isSZ) (true))
  | .idot4 ty asg bsg sat o => some (.ops 0x8a o (ty.code + b2n asg * 128 + b2n bsg * 256 + b2n sat * 512) { d := .vDst ty.is64, a := .src ty.is64 true, b := .src ty.is64 true, c := .src ty.is64 true, immW := ty.width } (ty == .s32) (true))
  | .and ty o => some (.ops 0x8b o (ty.code) { d := .vDst ty.is64, a := .src ty.is64 true, b := if o.fmt = .f128i then .none else .src ty.is64 true, immW := ty.width } (ty.isB) (true))
  | .or ty o => some (.ops 0x8c o (ty.code) { d := .vDst ty.is64, a := .src ty.is64 true, b := if o.fmt = .f128i then .none else .src ty.is64 true, immW := ty.width } (ty.isB) (true))
  | .xor ty o => some (.ops 0x8d o (ty.code) { d := .vDst ty.is64, a := .src ty.is64 true, b := if o.fmt = .f128i then .none else .src ty.is64 true, immW := ty.width } (ty.isB) (true))
  | .not ty o => some (.ops 0x8e o (ty.code) { d := .vDst ty.is64, a := .src ty.is64 true } (ty.isB) (true))
  | .shl ty o => some (.ops 0x8f o (ty.code) { d := .vDst ty.is64, a := .src ty.is64 true, b := if o.fmt = .f128i then .none else .src false true, immW := 32 } (ty.isI) (true))
  | .shr ty o => some (.ops 0x90 o (ty.code) { d := .vDst ty.is64, a := .src ty.is64 true, b := if o.fmt = .f128i then .none else .src false true, immW := 32 } ((ty.isB || (ty.isSZ && ty.isZ))) (true))
  | .sra ty o => some (.ops 0x91 o (ty.code) { d := .vDst ty.is64, a := .src ty.is64 true, b := if o.fmt = .f128i then .none else .src false true, immW := 32 } ((ty.isSZ && ty.isS)) (true))
  | .shf ty right wrap o => some (.ops 0x92 o (ty.code + b2n right * 128 + b2n wrap * 256) { d := .vDst ty.is64, a := .src ty.is64 true, b := .src ty.is64 true, c := .src ty.is64 true, immW := ty.width } (ty == .b32) (true))
  | .popc ty o => some (.ops 0x93 o (ty.code) { d := .vDst false, a := .src ty.is64 true } (ty.isB) (true))
  | .clz ty o => some (.ops 0x94 o (ty.code) { d := .vDst false, a := .src ty.is64 true } (ty.isB) (true))
  | .brev ty o => some (.ops 0x95 o (ty.code) { d := .vDst ty.is64, a := .src ty.is64 true } (ty.isB) (true))
  | .bfe ty o => some (.ops 0x96 o (ty.code) { d := .vDst ty.is64, a := .src ty.is64 true, b := .src false true } (ty.isSZ) (true))
  | .bfi ty o => some (.ops 0x97 o (ty.code) { d := .vDst ty.is64, a := .src ty.is64 true, b := .src ty.is64 true, c := .src false true } (ty.isB) (true))
  | .prmt ty o => some (.ops 0x98 o (ty.code) { d := .vDst ty.is64, a := .src ty.is64 true, b := .src ty.is64 true, c := .src ty.is64 true, immW := ty.width } (ty == .b32) (true))
  | .lea ty k sx o => some (.ops 0x99 o (ty.code + k.toNat * 128 + b2n sx * 8192) { d := .vDst ty.is64, a := .src false true, b := if o.fmt = .f128i then .none else .src ty.is64 true, immW := ty.width } (ty.isB && (ty.is64 || (k.toNat ≤ 31 && !sx))) (true))
  | .icmp ty cm o => some (.ops 0x9a o (ty.code + cm.code * 32) { d := .pDst, a := .src ty.is64 true, b := if o.fmt = .f128i then .none else .src ty.is64 true, immW := ty.width } (ty.isI && (cm.code < 2 || !ty.isB)) (true))
  | .sel ty o => some (.ops 0x9b o (ty.code) { d := .vDst ty.is64, a := .src ty.is64 true, b := .src ty.is64 true, c := .pSel } (ty.isB) (true))
  | .mov ty o => some (.ops 0x9c o (ty.code) { d := .vDst ty.is64, a := .src ty.is64 true } ((ty == .b32 || ty == .s32 || ty == .z32 || ty == .b64)) (true))
  | .movi ty o => some (.ops 0x9d o (ty.code) { d := .vDst ty.is64, immW := ty.width } ((ty.isI || ty == .f32 || ty == .f64)) (true))
  | .mova ty o => some (.ops 0x9e o (ty.code) { d := .vDst false, a := .uni, immW := 32 } ((ty == .b32 || ty == .s32 || ty == .z32)) (true))
  | .fadd ty m o => some (.ops 0xc0 o (ty.code + m.code * 32) { d := .vDst ty.is64, a := .src ty.is64 true, b := if o.fmt = .f128i then .none else .src ty.is64 true, immW := ty.width } (ty.isF) (true))
  | .fsub ty m o => some (.ops 0xc1 o (ty.code + m.code * 32) { d := .vDst ty.is64, a := .src ty.is64 true, b := if o.fmt = .f128i then .none else .src ty.is64 true, immW := ty.width } (ty.isF) (true))
  | .fmul ty m o => some (.ops 0xc2 o (ty.code + m.code * 32) { d := .vDst ty.is64, a := .src ty.is64 true, b := if o.fmt = .f128i then .none else .src ty.is64 true, immW := ty.width } (ty.isF) (true))
  | .fma ty m o => some (.ops 0xc3 o (ty.code + m.code * 32) { d := .vDst ty.is64, a := .src ty.is64 true, b := .src ty.is64 true, c := if o.fmt = .f128i then .none else .src ty.is64 true, immW := ty.width } (ty.isF) (true))
  | .fmin ty o => some (.ops 0xc4 o (ty.code) { d := .vDst ty.is64, a := .src ty.is64 true, b := if o.fmt = .f128i then .none else .src ty.is64 true, immW := ty.width } (ty.isF) (true))
  | .fmax ty o => some (.ops 0xc5 o (ty.code) { d := .vDst ty.is64, a := .src ty.is64 true, b := if o.fmt = .f128i then .none else .src ty.is64 true, immW := ty.width } (ty.isF) (true))
  | .fcmp ty cm o => some (.ops 0xc6 o (ty.code + cm.code * 32) { d := .pDst, a := .src ty.is64 true, b := if o.fmt = .f128i then .none else .src ty.is64 true, immW := ty.width } (ty.isF) (true))
  | .fclass ty o => some (.ops 0xc7 o (ty.code) { d := .vDst false, a := .src ty.is64 true } (ty.isF) (true))
  | .frnd ty m o => some (.ops 0xc8 o (ty.code + m.code * 32) { d := .vDst ty.is64, a := .src ty.is64 true } (ty.isF) (true))
  | .frcp ty m o => some (.ops 0xc9 o (ty.code + m.code * 32) { d := .vDst ty.is64, a := .src ty.is64 true } (ty.isF) (true))
  | .frsq ty m o => some (.ops 0xca o (ty.code + m.code * 32) { d := .vDst ty.is64, a := .src ty.is64 true } (ty.isF) (true))
  | .fsqrt ty m o => some (.ops 0xcb o (ty.code + m.code * 32) { d := .vDst ty.is64, a := .src ty.is64 true } (ty.isF) (true))
  | .fdiv ty m o => some (.ops 0xcc o (ty.code + m.code * 32) { d := .vDst ty.is64, a := .src ty.is64 true, b := .src ty.is64 true, immW := ty.width } (ty.isF) (true))
  | .fexp2 ty o => some (.ops 0xcd o (ty.code) { d := .vDst ty.is64, a := .src ty.is64 true } (ty == .f32) (true))
  | .flog2 ty o => some (.ops 0xce o (ty.code) { d := .vDst ty.is64, a := .src ty.is64 true } (ty == .f32) (true))
  | .fsin ty o => some (.ops 0xcf o (ty.code) { d := .vDst ty.is64, a := .src ty.is64 true } (ty == .f32) (true))
  | .fcos ty o => some (.ops 0xd0 o (ty.code) { d := .vDst ty.is64, a := .src ty.is64 true } (ty == .f32) (true))
  | .ftanh ty o => some (.ops 0xd1 o (ty.code) { d := .vDst ty.is64, a := .src ty.is64 true } (ty == .f32) (true))
  | .fscale ty m o => some (.ops 0xd2 o (ty.code + m.code * 32) { d := .vDst ty.is64, a := .src ty.is64 true, b := .src false true } (ty.isF) (true))
  | .ffrac ty o => some (.ops 0xd3 o (ty.code) { d := .vDst ty.is64, a := .src ty.is64 true } (ty.isF) (true))
  | .pkadd ty m o => some (.ops 0xd4 o (ty.code + m.code * 32) { d := .vDst ty.is64, a := .src ty.is64 true, b := .src ty.is64 true, immW := ty.width } ((ty == .f16 || ty == .bf16)) (true))
  | .pkmul ty m o => some (.ops 0xd5 o (ty.code + m.code * 32) { d := .vDst ty.is64, a := .src ty.is64 true, b := .src ty.is64 true, immW := ty.width } ((ty == .f16 || ty == .bf16)) (true))
  | .pkfma ty m o => some (.ops 0xd6 o (ty.code + m.code * 32) { d := .vDst ty.is64, a := .src ty.is64 true, b := .src ty.is64 true, c := .src ty.is64 true, immW := ty.width } ((ty == .f16 || ty == .bf16)) (true))
  | .cvt ty m sty sat o => some (.ops 0xd7 o (ty.code + m.code * 32 + sty.code * 128 + b2n sat * 4096) { d := .vDst ty.is64, a := .src sty.is64 true } (ty.isCvt && sty.isCvt && (!sat || (!ty.isFloat && !sty.isFloat))) (true))
  | .cvtUnit m o => some (.ops 0xd7 o (m.code * 32 + 8204) { d := .vDst false, a := .src false true } (true) (true))
  | .redl ty m rop o => some (.ops 0xd8 o (ty.code + m.code * 32 + rop.code * 128) { d := .sDst, a := .src ty.is64 true } ((ty.isF || ty.isSZ) && (m == .rn || (ty.isF && rop == .add))) (true))
  | .rngk ty w2 o => some (.ops 0xd9 o (ty.code + b2n w2 * 128) { d := .vDstN (if w2 then 2 else 4) true, a := .rngSrc, b := .uniP, c := .uniP } (ty == .b32) (true))
  | .ld ty hint sc od sx nodfr o => some (.ops 0x140 o (ty.code + hint.code * 32 + sc.code * 128 + od.code * 1024 + b2n sx * 8192 + b2n nodfr * 16384) { d := .vDst ty.is64, a := .addr, c := if o.fmt = .f96 then .src false true else .none, immW := 64 } ((ty == .s8 || ty == .z8 || ty == .s16 || ty == .z16 || ty == .b32 || ty == .b64) && (od == .rlx || od == .acq) && (!sx || o.fmt == .f96)) (true))
  | .st ty hint sc od sx o => some (.ops 0x141 o (ty.code + hint.code * 32 + sc.code * 128 + od.code * 1024 + b2n sx * 8192) { a := .addr, b := .dat ty.is64, c := if o.fmt = .f96 then .src false true else .none, immW := 64 } ((ty == .s8 || ty == .z8 || ty == .s16 || ty == .z16 || ty == .b32 || ty == .b64) && hint != .nal && (od == .rlx || od == .rel) && (!sx || o.fmt == .f96)) (true))
  | .ldt ty m sc od e2 nodfr o => some (.ops 0x142 o (ty.code + m.code * 32 + sc.code * 128 + od.code * 1024 + b2n e2 * 8192 + b2n nodfr * 16384) { d := .vDst (ty.is64 || e2), a := .addr, c := if o.fmt = .f96 then .src false true else .none, immW := 64 } ((ty == .f32 || ty == .f64 || ty == .s32 || ty == .z32 || ty == .q8 || ty == .q4) && (od == .rlx || od == .acq) && !(e2 && ty == .f64)) (true))
  | .stt ty m sc od e2 sat o => some (.ops 0x143 o (ty.code + m.code * 32 + sc.code * 128 + od.code * 1024 + b2n e2 * 8192 + b2n sat * 16384) { a := .addr, b := .vDat (ty.is64 || e2), c := if o.fmt = .f96 then .src false true else .none, immW := 64 } ((ty == .f32 || ty == .f64 || ty == .s32 || ty == .z32 || ty == .q8 || ty == .q4) && (od == .rlx || od == .rel) && !(e2 && ty == .f64)) (true))
  | .pref ty ph sx o => some (.ops 0x144 o (ty.code + ph.code * 32 + b2n sx * 8192) { a := .addr, c := if o.fmt = .f96 then .src false true else .none, immW := 64 } (ty.isB && (!sx || o.fmt == .f96)) (true))
  | .atom ty op sc od o => some (.ops 0x145 o (ty.code + op.ctl + sc.code * 128 + od.code * 1024) { d := .vDst ty.is64, a := .addr, b := .dat ty.is64, immW := 64 } (ty.isI && (od == .rlx || od == .acq || od == .rel || od == .ar) && op.okAtom ty) (true))
  | .atomcas ty sc od fo o => some (.ops 0x146 o (ty.code + sc.code * 128 + od.code * 1024 + b2n fo * 8192) { d := .vDst ty.is64, a := .addr, b := .casDat ty.is64, immW := 64 } (ty.isB && (od == .rlx || od == .acq || od == .rel || od == .ar)) (true))
  | .atomf ty op sc od o => some (.ops 0x147 o (ty.code + op.ctl + sc.code * 128 + od.code * 1024) { d := .vDst ty.is64, a := .addr, b := .dat ty.is64, immW := 64 } (ty.isF && (od == .rlx || od == .acq || od == .rel || od == .ar) && op.okAtomF) (true))
  | .red ty op sc od o => some (.ops 0x148 o (ty.code + op.ctl + sc.code * 128 + od.code * 1024) { a := .addr, b := .dat ty.is64, immW := 64 } ((ty.isI || ty.isF) && (od == .rlx || od == .rel) && op.okRed ty) (true))
  | .fence sc od o => some (.ops 0x149 o (sc.code * 128 + od.code * 1024) {} (od != .rlx) (true))
  | .cmntL1 o => some (.ops 0x14a o (0) {} (true) (true))
  | .cmntWb o => some (.ops 0x14a o (8192) { a := .sOnly, b := .sOnly } (true) (true))
  | .cmntInv o => some (.ops 0x14a o (16384) { a := .sOnly, b := .sOnly } (true) (true))
  | .tagrd sc od o => some (.ops 0x14f o (sc.code * 128 + od.code * 1024) { d := .vDst false, a := .addr } ((od == .rlx || od == .acq)) (true))
  | .tagwr sc od clr o => some (.ops 0x150 o (sc.code * 128 + od.code * 1024 + b2n clr * 8192) { a := .addr } ((od == .rlx || od == .rel)) (true))
  | .sigst add irq sc od o => some (.ops 0x151 o (b2n add * 8192 + b2n irq * 32 + sc.code * 128 + od.code * 1024) { a := .uni, b := .uni, immW := 64 } (sc != .core && (od == .rlx || od == .rel)) (true))
  | .sigwait sg sc od o => some (.ops 0x152 o (sg.code * 8192 + sc.code * 128 + od.code * 1024) { d := .sDst, a := .uni, b := .sGroup 2, immW := 64 } (sc != .core && (od == .rlx || od == .acq)) (true))
  | .rstr cnt1 trapnak od o => some (.ops 0x14b o (cnt1.toNat + b2n trapnak * 32 + od.code * 1024) { a := .sOnly, b := .vGroup (cnt1.toNat + 1) true, c := .sOnly } ((od == .rlx || od == .rel)) (true))
  | .ibarm ctr o => some (.ops 0x14c o (ctr.toNat) { a := .sOnly, b := .sOnly } (true) (true))
  | .ibarmDis ctr o => some (.ops 0x14c o (ctr.toNat + 4) {} (true) (true))
  | .ibwait ctr o => some (.ops 0x14d o (ctr.toNat) { d := .sDst, a := .uni } (true) (true))
  | .ibstatSend clr o => some (.ops 0x14e o (b2n clr * 16) { d := .sDst } (true) (true))
  | .ibstatIbox ctr o => some (.ops 0x14e o (ctr.toNat * 4 + 1) { d := .sDst } (true) (true))
  | .cpy ord o => some (.eng 0x180 o (b2n ord) (0) { a := .uni, b := .uni, c := .uni, m := .uni } (true))
  | .cpy2d ord sp dp o => some (.eng 0x181 o (b2n ord) (sp.toNat + dp.toNat * 4294967296) { a := .uni, b := .uni, c := .uni, m := .uni } (true))
  | .cpyg ord cnt e16 sx o => some (.eng 0x182 o (b2n ord) (cnt.toNat + e16.toNat * 4294967296 + b2n sx * 281474976710656) { a := .uni, b := .uni, c := .uni, m := .uni } (true))
  | .cpyt ord pclr o => some (.eng 0x183 o (b2n ord + b2n pclr * 2) (0) { a := .uni, b := .uni, c := .uni, m := .uni } (true))
  | .cpyto ord tf o => some (.eng 0x184 o (b2n ord) (tf.code) { a := .uni, b := .uni, c := .uni, m := .uni } (true))
  | .tld ty cnt1 col o => some (.ops 0x185 o (ty.code + cnt1.toNat * 128 + b2n col * 1024) { d := .vDstN (cnt1.toNat + 1) false, a := .sOnly } (ty == .b32) (true))
  | .tst ty cnt1 col o => some (.ops 0x186 o (ty.code + cnt1.toNat * 128 + b2n col * 1024) { a := .sOnly, b := .vGroup (cnt1.toNat + 1) true } (ty == .b32) (true))
  | .mbinit sc o => some (.ops 0x187 o (sc.code * 128) { a := .sOnly, b := .sOnly } ((sc == .core || sc == .clu)) (true))
  | .mbexp arv o => some (.ops 0x188 o (b2n arv * 8192) { a := .sOnly, b := .sOnly } (true) (true))
  | .mbarv o => some (.ops 0x189 o (0) { d := .sDst, a := .sOnly, b := .uni } (true) (true))
  | .mbwait o => some (.ops 0x18a o (0) { d := .sDst, a := .sOnly, b := .uni } (true) (true))
  | .mbtest o => some (.ops 0x18b o (0) { d := .sDst, a := .sOnly, b := .uni } (true) (true))
  | .coll ord sys op alg ety rop cnum root chunk o => some (.eng 0x18c o (b2n ord + b2n sys * 2) (op.code + alg.code * 16 + ety.code * 64 + rop.code * 1024 + cnum.toNat * 4096 + root.toNat * 268435456 + chunk.toNat * 274877906944) { a := .uni, b := .uni, c := .uni, m := .sOnly } ((op.reduces || rop == .add) && (op == .broadcast || root == 0)))
  | .clwait o => some (.ops 0x18d o (0) { d := .sDst, a := .sOnly, b := .sOnly } (true) (true))
  | .binadd ty o => some (.ops 0x18e o (ty.code) { d := .vDst false, a := .binIdx, b := .sOnly, c := .binCnt } (ty == .z32) (true))
  | .binrd sc od clr o => some (.ops 0x190 o (sc.code * 128 + od.code * 1024 + b2n clr * 8192) { d := .sDst, a := .sOnly, b := .sOnly } ((od == .rlx || od == .acq)) (true))
  | .binpatch clr npkt gsh o => some (.eng 0x18f o (b2n clr) (npkt.toNat + gsh.toNat * 65536) { a := .uni, b := .uni } (true))
  | .mma ty af bf asgn bsgn asrc sq grp aq bq o =>
    some (.mat 0x1c0 o ty.code (mcwOf af bf asgn bsgn asrc sq grp aq bq) { a := .sOnly, b := .sOnly, c := .sOnly } (mmaOk false ty af bf asgn bsgn asrc grp aq bq))
  | .mmaq ty af bf asgn bsgn asrc sq grp aq bq o =>
    some (.mat 0x1c1 o ty.code (mcwOf af bf asgn bsgn asrc sq grp aq bq) { a := .sOnly, b := .sOnly, c := .sOnly } (mmaOk true ty af bf asgn bsgn asrc grp aq bq))
  | .mzero o => some (.ops 0x1c2 o (0) { a := .uni } (o.g == none) (true))
  | .mwait o => some (.ops 0x1c3 o (0) {} (o.g == none) (true))
  | .mfence o => some (.ops 0x1c4 o (0) {} (o.g == none) (true))
  | .mcfg quar astride => some (.mat 0x1c5 .blank 0 (b2n quar + astride.toNat * 4294967296) {} (decide (astride.toNat % 16 = 0)))
  | .mstep o => some (.ops 0x1c6 o (0) { d := .sDst, a := .uni } (o.g == none) (true))
  | .mstat o => some (.ops 0x1c7 o (0) { d := .sDst } (o.g == none) (true))
  | .agingIssue .. => none
  | .storeQueueDrain .. => none
  | .l2Forward .. => none
  | .cisternWriteAck .. => none
  | .l1Eviction .. => none
  | .resolve .. => none
  | .fbconsWrite .. => none
  | .dlconsWrite .. => none
  | .registerWrite .. => none
  | .generationRaiseComplete .. => none
  | .engineReport .. => none
  | .copyRetire .. => none
  | .engineFault .. => none
  | .engineErrorTaken .. => none
  | .collJobComplete .. => none
  | .collJobFailNotice .. => none
  | .commTimeout .. => none
  | .binpatchJob .. => none
  | .binaddPerform .. => none
  | .matrixStepDrain .. => none
  | .remoteStoreArrival .. => none
  | .rstrOutcome .. => none
  | .remoteNakTrap .. => none
  | .remoteAccess .. => none
  | .remoteAccessTimeout .. => none
  | .sigwaitTimeout .. => none
  | .ibwaitTimeout .. => none
  | .mbwaitTimeout .. => none
  | .clwaitTimeout .. => none
  | .sleepcExpiry .. => none
  | .teamStart .. => none
  | .sliceExpiry .. => none
  | .preempt .. => none
  | .teamRestore .. => none
  | .kick .. => none
  | .packetFetch .. => none
  | .pseqRereadExpiry .. => none
  | .packetStart .. => none
  | .preJobsDone .. => none
  | .waitPacketSatisfied .. => none
  | .waitPacketTimeout .. => none
  | .bundleRetire .. => none
  | .packetComplete .. => none
  | .create .. => none
  | .destroy .. => none
  | .activate .. => none
  | .deactivate .. => none
  | .pause .. => none
  | .resume .. => none
  | .kill .. => none
  | .partition .. => none
  | .setcfgWeight .. => none
  | .setcfgHbmWeir .. => none
  | .setcfgBrixayWeir .. => none
  | .setcfgPeer .. => none
  | .setcfgGqtbase .. => none
  | .setcfgGroot .. => none
  | .setcfgHroot .. => none
  | .setcfgRemap .. => none
  | .setcfgModes .. => none
  | .setcfgStackPool .. => none
  | .setcfgSavePool .. => none
  | .setcfgSlice .. => none
  | .setcfgPowerLimit .. => none
  | .gen .. => none
  | .qbind .. => none
  | .qctlEnable .. => none
  | .qctlResume .. => none
  | .qctlReset .. => none
  | .grant .. => none
  | .comm .. => none
  | .podnum .. => none
  | .deviceReset => none
  | .dieReset .. => none
  | .dieLoss .. => none
  | .dielostTrap .. => none
  | .sparePromotion .. => none
  | .staleResponse .. => none
  | .uncorrectableError .. => none
  | .hwerrTaken .. => none
  | .kaInjection .. => none
  | .scrubSector .. => none
  | .scrubWrite .. => none
  | .vfFlr .. => none
  | .pfFlr => none
  | .d3hotEntry => none
  | .d0Return => none
  | .thermalThrottle .. => none
  | .thermalStop .. => none
  | .getVersion .. => none
  | .getCapabilities .. => none
  | .negotiateAlgorithms .. => none
  | .getDigests .. => none
  | .getCertificate .. => none
  | .challenge .. => none
  | .getMeasurements .. => none
  | .keyExchange .. => none
  | .finish .. => none
  | .keyUpdate .. => none
  | .endSession .. => none
  | .lockInterfaceRequest .. => none
  | .stopInterfaceRequest .. => none
  | .freorImageLoad .. => none
  | .freorDirtyLogDrain .. => none
  | .retirementListClear .. => none
  | .fabricError .. => none
  | .fbenWrite .. => none
  | .l2Eviction .. => none
  | .migration .. => none
  | .freorCollectiveSetup .. => none
  | .ideKmKeyProgramming .. => none
  | .startInterfaceRequest .. => none
  | .interfaceReportRequest .. => none
  | .msixVectorUnmask .. => none

end Sys2Proof
end

