-- ==== Sys2Proof/Machine/Maps.lean ====
section
/-! DEFINITION. Maps: lookup and update of the sorted association lists of the state. -/
namespace Sys2Proof

/-- The entry of key `k`. -/
def mfind {α : Type} : AMap α → Nat → Option α
  | [], _ => none
  | (j, y) :: m, k => if j = k then some y else mfind m k
/-- The entry of key `k`, or `d`. -/
def mget {α : Type} (d : α) (m : AMap α) (k : Nat) : α := (mfind m k).getD d
/-- Key `k` takes the entry `x`; a sorted list stays sorted. -/
def mset {α : Type} : AMap α → Nat → α → AMap α
  | [], k, x => [(k, x)]
  | (j, y) :: m, k, x => if k < j then (k, x) :: (j, y) :: m else if k = j then (k, x) :: m else (j, y) :: mset m k x
/-- Key `k` loses its entry. -/
def mdel {α : Type} : AMap α → Nat → AMap α
  | [], _ => []
  | (j, y) :: m, k => if j = k then mdel m k else (j, y) :: mdel m k
/-- The entry of key `k`, or `d`, is changed by `f`. -/
def mupd {α : Type} (d : α) (m : AMap α) (k : Nat) (f : α → α) : AMap α := mset m k (f (mget d m k))
/-- Every entry is changed by `f`. -/
def mmap {α : Type} (m : AMap α) (f : Nat → α → α) : AMap α := m.map fun e => (e.1, f e.1 e.2)

/-- A number is added to a set held as a sorted list. -/
def sins : List Nat → Nat → List Nat
  | [], k => [k]
  | j :: m, k => if k < j then k :: j :: m else if k = j then j :: m else j :: sins m k
/-- A number leaves such a set. -/
def sdel (m : List Nat) (k : Nat) : List Nat := m.filter fun j => j != k

end Sys2Proof
end

