-- ==== Sys2Proof/Config.lean ====
section
/-! DEFINITION. Config: the free values (R5), which nothing in Lean can evaluate, and the constants the spec fixes for every part. -/
namespace Sys2Proof.Config

/-- UNVERIFIED. The value of an undefined result (R5): `ctr` is `State.freeCtr` when the result
arises and `i` tells apart the values of one step. Safe. Log entry 5. -/
opaque freeWord (ctr i : Nat) : DWord
/-- UNVERIFIED. What a byte that nothing has written reads as (R210, R228, R280): `space` is
the store, `addr` its address there, `epoch` the number of the device reset or start that made it undefined. Safe. Log entry 5. -/
opaque initByte (space addr epoch : Nat) : Byte
/-- UNVERIFIED. Whether the host's completion of a read of a byte of its memory, at a compute clock,
is a poisoned TLP (R252). The host decides. Log entry 6. -/
opaque hostPoisoned (addr clk : Nat) : Bool
/-- UNVERIFIED. Whether the host completes an AtomicOp on an address, at a compute clock, as an
Unsupported Request (R264). The host decides. Log entry 6. -/
opaque hostUnsupported (addr clk : Nat) : Bool
/-- UNVERIFIED. The check value of a save (R348): the key is the device's own. Log entry 5. -/
opaque sealWord (bytes : List Byte) : DWord
/-- UNVERIFIED. Whether a Freor image's Ed448 signature verifies under the fused key (R431). Log entry 15. -/
opaque signatureOk (digest signature : List Byte) : Bool
/-- UNVERIFIED. The SHAKE256 digest of a measurement: 64 bytes (R431). Log entry 15. -/
opaque shake256 (bytes : List Byte) : List Byte
/-- UNVERIFIED. The Boot ROM, and the digest of the Freor image that it starts from, as the part has them (R431). Log entry 15. -/
opaque bootRom : List Byte
opaque freorDigest : List Byte
/-- UNVERIFIED. The bytes of an SPDM response; SPDM 1.3 defines them (R431). Log entry 15. -/
opaque spdmResponse (code session param : Nat) (body : List Byte) (ctr : Nat) : List Byte

/-- Bytes of local HBM (R17, R324). -/
def hbmBytes : Nat := 2 ^ 39
/-- General slots of a quadrant before repair (R17). -/
def quadSlots : Nat := 1024
/-- Bytes of side bank of a quadrant (R17, R27). -/
def sideBytes : Nat := 32768
/-- The 1,024-byte lines of a core's L1 and of a die's L2 (R17). -/
def l1Lines : Nat := 128
def l2Lines : Nat := 65536
/-- Names the name table holds (R54). -/
def maxNames : Nat := 1048576
/-- VDs that may be ACTIVE together (R422). -/
def residentVds : Nat := 128
/-- The communicator timeout in nanoseconds of control-cluster time (R405). -/
def commTimeoutNs : Nat := 1000000000
/-- Nanoseconds after which the fabric gives up a remote access (R398). -/
def remoteTimeoutNs : Nat := 1000000
/-- Nanoseconds for which the front end rereads a late slot: 3,200 cycles (R362). -/
def rereadNs : Nat := 2000

/-- How far the check line `line` of a float step's error-free results lies from their exact sum:
the spec bounds it (R386) and states no value. A free value. Log entry 20. -/
opaque checkSlack (ctr line : Nat) : Int

end Sys2Proof.Config
end

