-- ==== Sys2Proof/Machine/State.lean ====
section
/-! DEFINITION. State: every piece of state the spec gives the device, as plain data, with the reasons a step can stop and the state after device reset. Tables are sorted association lists; a key that a table does not list holds the table's default. -/
namespace Sys2Proof.Machine

/-- Why the machine stops with a fault. -/
inductive Fault where
  /-- Raised by `step` once the junction has reached 115 °C and the device has stopped (R432),
  for every turn but a device reset. Safe: the device does nothing more. -/
  | stopped
  deriving DecidableEq, Repr

/-- Why a step is refused. -/
inductive Refusal where
  /-- Raised by an arm of `exec` whose instruction has no meaning yet. Safe. -/
  | notModelled (mnemonic : String)
  /-- Raised by `step` when the agenda names, as an operation of another unit, an instruction
  that only a group issues or a command that only Freor reads from the ring. No run of the
  device holds such a turn. Safe. -/
  | notAnEvent
  deriving DecidableEq, Repr

/-! ## Registers of a group -/

/-- A poison tag (R60, R382). -/
inductive Tag where
  | clean | poison | pending
  deriving DecidableEq, Repr

/-- The value of a vector register by its shape (R63). -/
inductive Shape where
  | uniform (u : Word)
  | affine (b t : Word)
  | general (ws : List Word)
  deriving DecidableEq, Repr

/-- A vector register: value and shape, the data-poison lanes and the fault-pending lanes (R60, R63). -/
structure VReg where
  val : Shape := .uniform 0
  dp : Word := 0
  fp : Word := 0
  deriving DecidableEq, Repr

/-- A uniform register (R56, R60). -/
structure SReg where
  val : DWord := 0
  tag : Tag := .clean
  deriving DecidableEq, Repr

/-- A predicate register: bit l for lane l, and its tags (R56, R60). -/
structure PReg where
  val : Word := 0
  dp : Word := 0
  fp : Word := 0
  deriving DecidableEq, Repr

/-- The captured values of one source register (R339): a word and a tag for each lane; an s
register's 64 bits are words 0 and 1, its tag that of lane 0. `uni`: the source's value was
uniform (R68). -/
structure Slot where
  ws : List Word
  dp : Word
  fp : Word
  uni : Bool := false
  deriving DecidableEq, Repr

/-- An instruction that stopped part-way, or an entry of the replay queue (R88, R339). `mid`: the
partial state of a REDL or RNGK that stopped (R208). -/
structure Entry where
  pc : DWord
  bits : IBits
  pend : Word
  act : Word
  pi : Word
  valid : Bool
  trapped : Bool
  dp : Word
  fp : Word
  slots : List Slot
  mid : List Slot := []
  deriving DecidableEq, Repr

/-- An inbox counter (R277). -/
structure Inbox where
  rem : Nat := 0
  armed : Bool := false
  canc : Bool := false
  done : Bool := false
  wbase : Nat := 0
  wcnt : Nat := 0
  deriving DecidableEq, Repr

/-- The send status and the next send sequence number (R275, R277). -/
structure SendStatus where
  pend : Nat := 0
  naks : Nat := 0
  lreason : Nat := 0
  lseq : Nat := 0
  next : Nat := 1
  deriving DecidableEq, Repr

/-- An open containment region: its handler, PMASK, AUX keep word (R149, R150), and the number
that attributes engine work to it. -/
structure Region where
  handler : DWord
  pmask : BitVec 16
  aux : Word
  ident : Nat
  deriving DecidableEq, Repr

/-- What a group waits on (R53, R346). -/
inductive WaitKind where
  | none | barrier | runnel | object | inbox | waitpred | waitfault | sleep | sigwait | clwait | held | resource
  deriving DecidableEq, Repr
/-- A wait: its kind, the number, stage or counter, the clock at which its timeout falls, whether
it has fallen, and whether the object waited on has changed since. -/
structure Wait where
  kind : WaitKind := .none
  num : Nat := 0
  due : Option Nat := none
  expired : Bool := false
  woken : Bool := false
  deriving DecidableEq, Repr

/-- A cause a group takes at its next instruction boundary (R53): its code, its detail, and the
region it is attributed to (0 for none). -/
structure Pending where
  cause : Nat
  td0 : Word
  td1 : Word
  td2 : Word
  region : Nat := 0
  deriving DecidableEq, Repr

/-- A trap whose frame waits to be written: its cause, the trapping PC, the entries for the frame,
the lane PCs it saves (R337, R341), and the instruction that a check of R83 refused (R84). -/
structure Trapping where
  cause : Pending
  pc : DWord
  entries : List Entry
  pcs : List (Option DWord)
  refused : Option Entry := none
  deriving DecidableEq, Repr

/-- The stores of memory (R212, R213). -/
inductive Space where
  | hbm | host | remote | scratch | stack
  deriving DecidableEq, Repr

/-- One queued store (R224): where it goes, its bytes, the sectors it poisons and the sectors
it covers whole with clean data, for host memory bytes and not sectors (R252), and whether it bears .strm (R253). -/
structure QStore where
  space : Space
  dieCoh : Bool
  bytes : List (Nat × Byte)
  poison : List Nat
  clear : List Nat
  vd : Nat
  strm : Bool := false
  deriving DecidableEq, Repr

/-- The role of a group, or the matrix stream of a team (R28, R30). -/
inductive Role where
  | general | copy | matrix | vector | stream
  deriving DecidableEq, Repr

/-- A group (R24), or a matrix stream, which runs as one lane (R30). `sent`: sequence number,
receiver and .trapnak of the RSTRs without an outcome (R276). `moving`: the core and quadrant of a migration
under way (R55). `win`: first register, length and free-value number of the B windows that the
stream has not released, and `winHit` the numbers of those that the group has written (R241). `vdirty`: the lanes of vector registers
that a matrix-role group has written since its last release (R240, R242).
`kept`: vector registers of the save image (R347, R350). -/
structure Group where
  role : Role := .general
  tid : Nat := 0
  grpid : Nat := 0
  gname : DWord := 0
  vd : Nat := 0
  ngen : Nat := 0
  ncmp : Nat := 0
  core : Nat := 0
  tcore : Nat := 0
  quad : Nat := 0
  v : AMap VReg := []
  s : AMap SReg := []
  p : AMap PReg := []
  pcs : List (Option DWord) := []
  aging : Nat := 0
  agingPtr : Nat := 31
  yielded : Bool := false
  forced : Option Nat := none
  pi : Word := 0
  tc : BitVec 5 := 0
  td0 : Word := 0
  td1 : Word := 0
  td2 : Word := 0
  tvec : DWord := 0
  tarea : DWord := 0
  spq : DWord := 0
  inhdl : Bool := false
  tdmask : BitVec 2 := 0
  regions : List Region := []
  nextRegion : Nat := 1
  lcause : BitVec 5 := 0
  unw : Bool := false
  unwcnt : Nat := 0
  ibc : AMap Inbox := []
  send : SendStatus := {}
  sent : List (Nat × DWord × Bool) := []
  dftok : AMap Word := []
  slot : Nat := 0
  stackEpoch : Nat := 0
  wait : Wait := {}
  part : Option Entry := none
  replay : List Entry := []
  errs : List Pending := []
  naks : List Pending := []
  trapping : Option Trapping := none
  predDone : Bool := false
  smstart : Bool := false
  moving : Option (Nat × Nat) := none
  win : List (Nat × Nat × Nat) := []
  winHit : List Nat := []
  vdirty : AMap Word := []
  kept : List Nat := []
  sq : List QStore := []
  deriving DecidableEq, Repr

/-! ## Teams -/

/-- A numbered barrier (R47), with the number of phases completed since BARINIT and the number of
the phase in which each participant last arrived (R48). -/
structure Bar where
  exp : Nat := 0
  arr : Nat := 0
  part : Nat := 0
  exitd : Nat := 0
  ph : Bool := false
  init : Bool := false
  mask : BitVec 5 := 0
  nph : Nat := 0
  last : AMap Nat := []
  deriving DecidableEq, Repr

/-- One stage of a runnel (R51, R52). -/
structure Stage where
  full : Bool := false
  ph : Bool := false
  fullC : Nat := 0
  freeC : Nat := 0
  deriving DecidableEq, Repr
/-- A runnel (R51). -/
structure Runnel where
  init : Bool := false
  stages : Nat := 0
  pc : Nat := 0
  cc : Nat := 0
  st : AMap Stage := []
  deriving DecidableEq, Repr

/-- A matrix operand that a group or an engine wrote since the last MFENCE (R240): bytes of a tile
row, side-bank slots of a row, bytes of a reservation, the lanes of a register. -/
inductive Dirty where
  | tile (core row lo n : Nat)
  | side (core row slot n : Nat)
  | scratch (core off n : Nat)
  | window (grp reg : Nat) (lanes : Word)
  deriving DecidableEq, Repr
/-- What a noted write has reached on its way to the stream: an agent whose later releases it
happens before, or what a release has left for those who acquire from it (R230 to R233, R239, R242).
`agent`: a group or stream. `engine`: a command. `fence`: the release fences of a group. `store`: a
release store still in its group's queue, by byte. `location`: a byte of memory that holds a
released value. `bar`, `runnel`, `object`: a phase of a barrier, of a runnel's stage, of a barrier
object with the core of the arrival. `rstr`, `inbox`: a remote register store, a group's counter. -/
inductive Carrier where
  | agent (key : Nat)
  | engine (id : Nat)
  | fence (key : Nat)
  | store (key : Nat) (space : Space) (addr : Nat)
  | location (space : Space) (addr : Nat)
  | bar (tid num : Nat) (ph : Bool)
  | runnel (tid num stage : Nat) (ph : Bool)
  | object (addr : Nat) (ph : Bool) (core : Nat)
  | rstr (sender : DWord) (seq : Nat)
  | inbox (key ctr : Nat)
  deriving DecidableEq, Repr
/-- A noted write to an operand of a team's stream, and what it has reached. -/
structure Mark where
  tid : Nat
  what : Dirty
  seen : List Carrier
  deriving DecidableEq, Repr

/-- A step queued at the matrix sequencers (R307): MZERO, or an MMA or MMAQ with its words, the
operands that were written since the last MFENCE, and the free-value numbers of its B windows
(R240, R241); for MZERO the restart point of its completion and its place among them (R320). -/
structure MStep where
  zero : Bool
  quant : Bool
  ty : Ty
  mcw : Nat
  aw : DWord
  bw : DWord
  cw : DWord
  quar : Bool
  astride : Nat
  pc : DWord
  dirty : List Dirty
  win : Nat := 0
  wins : Nat := 0
  npc : DWord := 0
  regs : AMap SReg := []
  mark : Nat := 0
  deriving DecidableEq, Repr

/-- Whether a team is on its cores or in the save pool (R344, R353). -/
structure SaveInfo where
  order : Nat
  addr : Nat
  bytes : Nat
  sealOk : Bool
  unplaceable : Bool
  target : Option Placement := none
  deriving DecidableEq, Repr

/-- A team (R25). `record` is its record (R32). `gone`: the matrix groups that have exited, whose B
windows the stream's later steps still read (R311). -/
structure Team where
  vd : Nat := 0
  vdInc : BitVec 4 := 0
  asid : Nat := 0
  band : Nat := 0
  iq : Nat := 0
  grid : Bool := true
  teamid : Word := 0
  record : BitVec 512 := 0
  cores : List Nat := []
  scratch : Nat := 0
  tile : Nat := 0
  live : DWord := 0
  codeSize : Nat := 0
  saved : Option SaveInfo := none
  startNs : Nat := 0
  bars : AMap Bar := []
  rns : AMap Runnel := []
  quar : Bool := false
  astride : Nat := 0
  fixed : Nat := 0
  recomp : Nat := 0
  skips : Nat := 0
  queue : List MStep := []
  windows : List MStep := []
  gone : AMap Group := []
  restartPc : DWord := 0
  restartS : AMap SReg := []
  restarts : Nat := 0
  deriving DecidableEq, Repr

/-! ## Virtual devices -/

/-- The error block and the next SEQ of its ring (R394, R395). -/
structure ErrBlock where
  eren : Bool := false
  erlog : Nat := 0
  erbase : Nat := 0
  erprod : Word := 0
  ercons : Word := 0
  erlost : Word := 0
  atomdrop : Word := 0
  rstrdrop : Word := 0
  kdrops : Word := 0
  mbdrop : Word := 0
  stale : Word := 0
  corr : DWord := 0
  seq : Word := 1
  deriving DecidableEq, Repr

/-- A translation fault request (R331, R332): `token` once it is in the ring; `failed` once the
pager has failed it; `deferred` when the lanes went on without it (R250). `core` and `quad` are the
originator's when the fault was detected (R329). `parked`: the PC of the instruction that met it,
while a handled trap has that instruction stopped (R53, R332). -/
structure FaultReq where
  origin : Origin
  token : Option Word
  failed : Bool
  deferred : Bool
  kind : Nat
  acc : Nat
  src : Nat
  asid : Nat
  gpav : Bool
  tbl : Bool
  level : Nat
  va : DWord
  gpa : DWord
  lanes : Word
  core : Nat := 0
  quad : Nat := 0
  parked : Option DWord := none
  deriving DecidableEq, Repr

/-- A write held by a full dirty-log ring: whose it is, which of its accesses, and the page (R328). -/
structure DirtyHeld where
  origin : Origin
  lane : Nat
  va : Nat
  leaf : Nat
  gpa : Nat
  size : Nat
  deriving DecidableEq, Repr

/-- The fault block, its held and spilled requests and the outcomes of recent tokens (R330, R332, R334). -/
structure FaultBlock where
  fben : Bool := false
  fblog : Nat := 0
  fbbase : Nat := 0
  fbprod : Word := 0
  nextseq : Word := 1
  fbcons : Word := 0
  ovfp : Bool := false
  ovfcnt : Word := 0
  dlen : Bool := false
  dllog : Nat := 0
  dlbase : Nat := 0
  dlprod : Word := 0
  dlcons : Word := 0
  dlfull : Bool := false
  dlev : Bool := false
  reqs : List FaultReq := []
  dlheld : List DirtyHeld := []
  outcomes : List (Word × Bool) := []
  deriving DecidableEq, Repr

/-- VD STATE (R421). -/
inductive VdState where
  | free | defined | active | paused | draining
  deriving DecidableEq, Repr

/-- QSTATE (R363). -/
inductive QState where
  | disabled | idle | active | late | halted
  deriving DecidableEq, Repr

/-- A translated queue number: what the two entries say of the queue (R358, R359). -/
structure QEnt where
  iq : Nat := 0
  kind : Bool := false
  asid : Nat := 0
  band : Nat := 0
  rlog : Nat := 0
  ring : Nat := 0
  stat : Nat := 0
  priv : Bool := false
  deriving DecidableEq, Repr
/-- Where a packet stands (R368). -/
inductive Phase where
  | fetched | running | completing | done
  deriving DecidableEq, Repr

/-- A fetched packet (R360, R368): its bytes, the entries it was fetched under (R359), its record
template with the descriptor's sizes (R99, R366), its place in its queue's start order (R38), and
what has become of its work. `checked`: its checks are over (R367); `patch`: the
length and group count of a patch that came before (R373); `recorded`: its completion
record is written, and the status block and signal follow (R371). -/
structure Packet where
  bytes : List Byte
  phase : Phase
  skip : Bool := false
  pp : Bool := false
  patch : Option (Nat × Nat) := none
  ent : QEnt := {}
  status : Nat := 0
  mreason : Nat := 0
  errSeq : Word := 0
  nteam : Nat := 0
  preLeft : Bool := false
  jobs : List Byte := []
  tmpl : BitVec 512 := 0
  scratch : Nat := 0
  tile : Nat := 0
  live : DWord := 0
  codeSize : Nat := 0
  order : Option Nat := none
  started : List Nat := []
  startNs : Nat := 0
  poisoned : Nat := 0
  checked : Bool := true
  recorded : Bool := false
  deriving DecidableEq, Repr

/-- A packet queue (R357 to R364), with the entries that its last kick or enable read, and whether
a write of its status block waits for the pager. -/
structure PQueue where
  prod : Nat := 0
  cons : Nat := 0
  fetch : Nat := 0
  nextpseq : Word := 1
  lcpseq : Word := 0
  dseq : Word := 0
  kseq : Word := 0
  st : QState := .disabled
  mreason : Nat := 0
  late : Word := 0
  kdrop : Word := 0
  malcnt : Word := 0
  ent : QEnt := {}
  statDue : Bool := false
  rereadDue : Option Nat := none
  skipLeft : Nat := 0
  nextOrder : Nat := 0
  pkts : AMap Packet := []
  deriving DecidableEq, Repr

/-- A record in a continuation queue, under the local queue number it was spawned with (R36, R37, R374). -/
structure CRecord where
  seq : Nat
  lq : Nat
  record : BitVec 512
  asid : Nat
  scratch : Nat
  tile : Nat
  order : Option Nat
  deriving DecidableEq, Repr
/-- A continuation queue: the RLOG it was charged for, its records, the numbers it gives out, and
the effective band its entries last gave (R358, R374). The spec gives no first sequence number: 0.
DESIGN CHOICE. Log entry 35. -/
structure CQueue where
  charged : Option Nat := none
  recs : List CRecord := []
  nextSeq : Nat := 0
  nextOrder : Nat := 0
  band : Nat := 0
  deriving DecidableEq, Repr

/-- A communicator as one VD holds it (R404). -/
structure Comm where
  myRank : Nat
  ranks : List (Nat × Nat)
  jseq : Word
  deriving DecidableEq, Repr

/-- The TDI of a VF (R416, R421, R431). -/
inductive Tdi where
  | unlocked | locked | run | error
  deriving DecidableEq, Repr

/-- A virtual device: its control page, pools, partition, queues and scheduling state. `pausing`:
its PAUSE has yet to save its teams; `drainFrom`: the state a KILL under way returns to (R422, R425);
`kicks`: slots and words of kicks whose translation waits for the pager (R367). -/
structure VD where
  st : VdState := .free
  hard : Bool := false
  inc : BitVec 4 := 0
  stklog : Nat := 0
  modes : BitVec 5 := 0
  tdi : Tdi := .unlocked
  fault : FaultBlock := {}
  err : ErrBlock := {}
  gqtbase : DWord := 0
  groot : AMap DWord := []
  hroot : DWord := 0
  hgen : BitVec 24 := 0
  ggen : AMap (BitVec 24) := []
  raising : List Nat := []
  peers : AMap Word := []
  hbmWeir : AMap Word := [(0, 16), (1, 16), (2, 16), (3, 16)]
  brxWeir : AMap Word := [(0, 16), (1, 16), (2, 16), (3, 16)]
  remap : AMap DWord := []
  stkpool : Nat := 0
  stkslots : Nat := 0
  stkused : List Nat := []
  savebase : Nat := 0
  savesize : Nat := 0
  clusters : BitVec 16 := 0
  coremask : BitVec 256 := 0
  chgroups : DWord := 0
  hqBase : Nat := 0
  hqCount : Nat := 0
  weights : AMap Nat := [(0, 16), (1, 16), (2, 16), (3, 16)]
  vt : AMap DWord := []
  hadHead : List Nat := []
  lastIq : AMap Nat := []
  hqt : AMap DWord := []
  queues : AMap PQueue := []
  conts : AMap CQueue := []
  kicks : List (Nat × Nat) := []
  jdrop : DWord := 0
  comms : AMap Comm := []
  resident : Bool := false
  pausing : Bool := false
  drainFrom : Option VdState := none
  deriving DecidableEq, Repr

/-! ## Memory -/

/-- Memory in its canonical form: addresses strictly rising; a byte that is not listed is undefined (R228). -/
abbrev Mem := List (Nat × Byte)

/-- A sector copy in a core's L1, and the VD whose access made it (R213, R215). -/
structure L1Copy where
  core : Nat
  sector : Nat
  vd : Nat
  data : Mem
  poison : Bool
  deriving DecidableEq, Repr
/-- A sector copy in a die's L2: its bytes, the dirty bytes, whether it is held write-back (a
die-coherent or a stack sector), the owning VD, its poison, whether its poison is dirty, and whether
a .strm access has marked it first for eviction (R213, R218, R252, R253). -/
structure L2Copy where
  die : Nat
  sector : Nat
  data : Mem
  dirty : List Nat
  dieCoh : Bool
  vd : Nat
  poison : Bool
  pdirty : Bool := false
  strm : Bool := false
  deriving DecidableEq, Repr
/-- A write on its way from a die's L2 to the cistern (R222), or awaiting its acknowledgement (R214). -/
structure Forward where
  die : Nat
  write : QStore
  deriving DecidableEq, Repr

/-- A cached translation, of core `core`, or of a die where `core` is none (R326): `size` bytes at
`va`, which lie at `gpa` and at `pa`, in a guest page of `gsize` and a host page of `hsize` bytes. -/
structure TlbEntry where
  die : Nat
  core : Option Nat
  vd : Nat
  asid : Nat
  hgen : BitVec 24
  ggen : BitVec 24
  va : Nat
  size : Nat
  pa : Nat
  gpa : Nat
  gsize : Nat
  hsize : Nat
  home : Nat
  gperm : BitVec 5
  hperm : BitVec 5
  dc : Bool
  fmt : Nat
  dirty : Bool
  leaf : Nat
  deriving DecidableEq, Repr

/-- A cached non-leaf entry of a stage (R326): the table at which the walk goes on, for the
addresses whose bits from the level's lowest index bit up are `pre`. -/
structure WalkEnt where
  host : Bool
  vd : Nat
  asid : Nat
  hgen : BitVec 24
  ggen : BitVec 24
  level : Nat
  pre : Nat
  next : Nat
  deriving DecidableEq, Repr
/-- A grant entry (R398). -/
structure GrantEnt where
  w : Bool
  sdev : Nat
  svd : Nat
  slog : Nat
  base : Nat
  deriving DecidableEq, Repr

/-! ## Engines -/

/-- What a copy command does (R289, R291). -/
inductive CopyKind where
  | linear
  | strided (sp dp width height : Nat)
  | gather (table count es : Nat) (sx : Bool)
  | tileIn (pclr : Bool) (rows elems pitch : Nat)
  | tileOut (tf : TileFmt) (rows elems pitch : Nat)
  deriving DecidableEq, Repr

/-- An entry of a core's range scoreboard (R225). -/
structure ScoreEnt where
  tid : Nat
  tcore : Nat
  core : Nat
  lo : Nat
  hi : Nat
  dst : Bool
  deriving DecidableEq, Repr

/-- A copy command handed to a copy engine (R284 to R294), or a copy job of a packet (R365).
`fmt`: the format of a tile copy's first page, once the engine has translated it (R294). -/
structure CopyCmd where
  id : Nat
  key : Option Nat
  job : Option (Nat × Nat × Bool)
  tid : Nat
  vd : Nat
  asid : Nat
  die : Nat
  kind : CopyKind
  opc : Nat
  src : DWord
  dst : DWord
  obj : DWord
  ord : Bool
  region : Nat
  units : Nat
  left : List (Nat × Nat)
  moved : Nat
  stopped : Bool
  cancelled : Bool
  scores : List ScoreEnt
  fmt : Option Nat := none
  deriving DecidableEq, Repr

/-- A collective job of this device's rank (R301, R405). `reason`: a failure whose signal update
still waits for the pager (R433); `mute`: cancelled with its packet's queue, it writes nothing more (R364). -/
structure CollJob where
  id : Nat
  key : Option Nat
  job : Option (Nat × Nat × Bool)
  vd : Nat
  asid : Nat
  die : Nat
  desc : DWord
  cnum : Nat
  seq : Word
  src : DWord
  dst : DWord
  count : Nat
  sig : DWord
  sys : Bool
  ord : Bool
  region : Nat
  startNs : Nat
  cancelled : Bool
  reason : Nat := 0
  mute : Bool := false
  deriving DecidableEq, Repr

/-- A BINADD handed to a binning engine: its context, and the entry that holds its sources and the
lanes not yet performed, with their bins, counts and poisoned counts (R304, R337). -/
structure BinOp where
  id : Nat
  key : Nat
  reg : Nat
  ctx : Nat
  vd : Nat
  die : Nat
  entry : Entry
  idx : List Nat
  cnt : List Nat
  cdp : Word
  deriving DecidableEq, Repr

/-- A BINPATCH job (R306, R373). -/
structure BinJob where
  id : Nat
  key : Nat
  vd : Nat
  asid : Nat
  die : Nat
  iq : Nat
  ctx : DWord
  clr : Bool
  npkt : Nat
  gsh : Nat
  region : Nat
  deriving DecidableEq, Repr

/-! ## The device -/

/-- The state of a group's name in the name table (R55). -/
inductive NameState where
  | resident | saved | transit
  deriving DecidableEq, Repr

/-- What the device sends: interrupts, poisoned writes to host memory (R252), outcomes of remote stores, answers to remote accesses,
notices of ended jobs, AER reports, security messages. -/
inductive OutMsg where
  | msix (vf : Option Nat) (vec : Nat)
  | outcome (dev : Nat) (o : RstrOutcome)
  | poisonedWrite (addrs : List Nat)
  | answer (dev svd : Nat) (admitted : Bool) (bytes : List Byte) (poison : Bool)
  | jobEnded (vd comm : Nat) (seq : Word)
  | aer
  | spdm (bytes : List Byte)
  | tdiReport (vd : Nat) (bars : List Nat)
  deriving DecidableEq, Repr

/-- An MSI-X vector: mask and pending bit (R430). `vf` none is the PF. -/
structure Vector where
  vf : Option Nat
  vec : Nat
  mask : Bool
  pend : Bool
  deriving DecidableEq, Repr

/-- KASTAT of a core, with its mismatches by quadrant and lane (R388, R389). `ret`: the core is retired. -/
structure KaStat where
  quad : Nat := 0
  lane : Nat := 0
  worst : Nat := 0
  mism : Word := 0
  counts : AMap Nat := []
  ret : Bool := false
  deriving DecidableEq, Repr

/-- An SPDM session with the responder (R431). -/
structure Spdm where
  version : Bool := false
  caps : Bool := false
  algs : Bool := false
  session : Option Nat := none
  finished : Bool := false
  keyUpdates : Nat := 0
  deriving DecidableEq, Repr

/-- What a step runs next: a group or stream, Freor's next command, or an operation of another
unit; in `part`, a group whose instruction stops part-way, `n` saying how much of it may be done:
its lanes by bit, or a number of lines, levels or rounds (R208, R251). The model's own, for the order the spec leaves open. Log entry 1. -/
inductive Who where
  | group (key : Nat)
  | part (key n : Nat)
  | freor
  | event (i : Instr)
  deriving DecidableEq, Repr
/-- One turn of the schedule: the compute clocks and nanoseconds that pass, who acts, and the
clocks that single cores count beyond the others, for no clock is shared (R19). Log entry 1. -/
structure Turn where
  clocks : Nat
  ns : Nat
  who : Who
  skew : List (Nat × Nat) := []
  deriving DecidableEq, Repr

/-- The instruction being issued: its group, run, guard tags, the sources in the order of R339
when it resumes or replays, the captured sources it reads (R40, R44, R88), its partial state
(R208), where the turn stops it part-way, and whether a check of R83 has refused it. The model's own. Log entry 2. -/
structure Issue where
  key : Nat := 0
  pc : DWord := 0
  npc : DWord := 0
  bits : IBits := 0
  xm : Word := 0
  act : Word := 0
  pend : Word := 0
  gdp : Word := 0
  gfp : Word := 0
  slots : Option (List Slot × List Slot × List Slot) := none
  cap : List Slot := []
  pi : Word := 0
  mid : List Slot := []
  replay : Bool := false
  resumed : Bool := false
  stop : Option Nat := none
  refused : Bool := false
  deriving DecidableEq, Repr

/-- Every byte the device holds or reaches, with its poison and copies. `damaged`: sectors whose
stored data is uncorrectable and has not been found by an access (R391); `found`: those that one has
found, with the VD it was for, until their records are written (R384). `scrubRead`: the sectors the scrubber has
read and has yet to write, and whether it found them uncorrectable (R390, R391). -/
structure MemSys where
  hbm : Mem := []
  host : Mem := []
  remote : Mem := []
  scratch : Mem := []
  tile : Mem := []
  side : Mem := []
  hbmPoison : List Nat := []
  damaged : List Nat := []
  found : List (Nat × Option Nat) := []
  remotePoison : List Nat := []
  scratchPoison : List Nat := []
  pb : List Nat := []
  mbInit : List Nat := []
  l1 : List L1Copy := []
  l2 : List L2Copy := []
  fwd : List Forward := []
  acks : List Forward := []
  scrubRead : AMap Bool := []
  deriving DecidableEq, Repr

/-- The state of the device and of what it reaches. `lost`: for each lost die the groups whose
DIELOST trap its promotion waits for (R14). `coreClk`: the clocks a core has counted beyond `clk`
since its die's reset, at which `clk` was `dieClk` (R19, R379). `late`: agents whose next remote access the fabric
gives up, with their VD (R398). `ports`: remote stores that the receiving ports hold while a
name-service queue is full (R401), a port for each sending device. `freorDigest`: the digest of the
Freor image last loaded; none while it is the one that the part came with (R431). `marks`: the
operands of matrix streams written since they were last fenced (R240, R242). `fenced`: the groups
whose FENCE.ar has yet to hold back their next write, with the die whose writes it waits for (R236). -/
structure State where
  fuse : Word
  remapWord : Word
  retired : List RetireEntry
  lost : AMap (List Nat)
  inc0 : BitVec 16
  inc1 : BitVec 16
  kactl : Word
  kastat : AMap KaStat
  err : ErrBlock
  cmdEn : Bool
  cmdLog : Nat
  cmdBase : Nat
  cmdProd : Word
  cmdCons : Word
  devNum : Nat
  slotsOff : AMap Nat
  grants : AMap GrantEnt
  remoteGrants : List (Nat × GrantEnt)
  slices : AMap Nat
  powerLimit : Nat
  clockSteps : Nat
  stopped : Bool
  d3Paused : Option (List Nat)
  nextSerial : BitVec 40
  serialsWrapped : Bool
  names : List (DWord × NameState)
  ctime : Nat
  clk : Nat
  dieClk : AMap Nat
  coreClk : AMap Nat
  msix : List Vector
  msgs : List OutMsg
  ide : List (Nat × Nat × BitVec 256)
  spdm : Spdm
  freorVersion : Nat
  freorDigest : Option (List Byte)
  rollback : Nat
  vds : AMap VD
  teams : AMap Team
  groups : AMap Group
  mem : MemSys
  tlb : List TlbEntry
  walkCache : List WalkEnt
  late : List (Nat × Origin)
  copies : List CopyCmd
  colls : List CollJob
  binops : List BinOp
  binjobs : List BinJob
  flight : List RemoteStore
  outcomes : List RstrOutcome
  transit : List RemoteStore
  ports : List RemoteStore
  nextTid : Nat
  nextId : Nat
  nextSave : Nat
  agenda : List Turn
  iss : Issue
  marks : List Mark
  fenced : AMap Nat
  freeCtr : Nat
  epoch : Nat
  deriving DecidableEq, Repr

/-- The fused remap word: R14's example. DESIGN CHOICE. Log entry 3. -/
def fuseWord : Word := 0x546

/-- The device after reset (R12, R388, R394, R420). Fields for which the spec gives no value
hold 0 or nothing. Log entries 1 to 5. -/
def State.reset : State where
  fuse := fuseWord
  remapWord := fuseWord
  retired := []
  lost := []
  inc0 := 0
  inc1 := 0
  kactl := 7
  kastat := []
  err := {}
  cmdEn := false
  cmdLog := 0
  cmdBase := 0
  cmdProd := 0
  cmdCons := 0
  devNum := 0
  slotsOff := []
  grants := []
  remoteGrants := []
  slices := [(1, 1000000), (2, 4000000), (3, 16000000)]
  powerLimit := 1600
  clockSteps := 0
  stopped := false
  d3Paused := none
  nextSerial := 0
  serialsWrapped := false
  names := []
  ctime := 0
  clk := 0
  dieClk := []
  coreClk := []
  msix := []
  msgs := []
  ide := []
  spdm := {}
  freorVersion := 0
  freorDigest := none
  rollback := 0
  vds := []
  teams := []
  groups := []
  mem := {}
  tlb := []
  walkCache := []
  late := []
  copies := []
  colls := []
  binops := []
  binjobs := []
  flight := []
  outcomes := []
  transit := []
  ports := []
  nextTid := 0
  nextId := 1
  nextSave := 0
  agenda := []
  iss := {}
  marks := []
  fenced := []
  freeCtr := 0
  epoch := 0

end Sys2Proof.Machine
end

