-- ==== Sys2Proof/Machine/Operands.lean ====
section
/-! DEFINITION. Operands: every form in which an instruction reads a source or writes a destination: shapes, permutations, tags, pairs, captured sources, guards and predicates (R56 to R70, R86 to R89, R182). -/
namespace Sys2Proof

/-- The register number of an operand. -/
def Opnd.reg : Opnd → Nat
  | .v k => k.val | .s k => k.val | .p k => k.val | .zero | .laneid => 0

end Sys2Proof

namespace Sys2Proof.Machine

/-! ## Tags -/

/-- `tag_join` of R89. -/
def Tag.join (a b : Tag) : Tag :=
  if a = .pending ∨ b = .pending then .pending else if a = .poison ∨ b = .poison then .poison else .clean
/-- The tag encoding of R382. -/
def Tag.code : Tag → Nat
  | .clean => 0 | .poison => 1 | .pending => 2
/-- A stored tag; 0b11 reads as 0b01 (R382). -/
def Tag.ofCode : Nat → Tag
  | 0 => .clean | 2 => .pending | _ => .poison
/-- The tag of lane `l` in the two tag masks. -/
def tagAt (dp fp : Word) (l : Nat) : Tag :=
  if fp.getLsbD l then .pending else if dp.getLsbD l then .poison else .clean
/-- The join of the tags of the lanes of `m`. -/
def tagOver (dp fp m : Word) : Tag :=
  if fp &&& m ≠ 0 then .pending else if dp &&& m ≠ 0 then .poison else .clean
/-- All lanes or none. -/
def allLanes (b : Bool) : Word := if b then 0xFFFFFFFF else 0

/-! ## Shapes -/

/-- The value of lane `l` (R63). -/
def Shape.lane (sh : Shape) (l : Nat) : Word :=
  match sh with
  | .uniform u => u
  | .affine b t => b + BitVec.ofNat 32 l * t
  | .general ws => ws.getD l 0
/-- The 32 lane values. -/
def Shape.words (sh : Shape) : List Word := (List.range 32).map sh.lane
def Shape.isUniform : Shape → Bool
  | .uniform _ => true | _ => false
def Shape.isGeneral : Shape → Bool
  | .general _ => true | _ => false

/-- The lane that a permutation reads for lane `l` (R70). -/
def permLane (p : Perm) (l : Nat) : Nat :=
  match p with
  | .none => l
  | .rot m => (l + m.val) % 32
  | .bcast m => m.val
  | .bfly m => l ^^^ m.val
  | .mir => 31 - l
  | .rot8 m => l / 8 * 8 + (l + m.val) % 8
/-- Whether a permutation moves no lane (R67). -/
def permIsId : Perm → Bool
  | .none => true
  | .rot m | .bfly m => m.val == 0
  | .rot8 m => m.val == 0
  | .bcast _ | .mir => false
/-- A mask of lanes seen through a permutation. -/
def permMask (p : Perm) (m : Word) : Word := if p = .none then m else maskOf fun l => m.getLsbD (permLane p l)
/-- A value seen through a permutation, with its shape (R67). -/
def Shape.perm (p : Perm) (sh : Shape) : Shape :=
  if permIsId p then sh
  else match p, sh with
    | .bcast m, sh => .uniform (sh.lane m.val)
    | _, .uniform u => .uniform u
    | .mir, .affine b t => .affine (b + 31 * t) (-t)
    | p, sh => .general ((List.range 32).map fun l => sh.lane (permLane p l))

/-! ## The issuing group -/

/-- The group named by the issue. -/
def State.grp (s : State) : Group := mget {} s.groups s.iss.key
/-- Group `k` is replaced. -/
def State.setGroup (s : State) (k : Nat) (g : Group) : State := { s with groups := mset s.groups k g }
/-- The issuing group is replaced. -/
def State.setGrp (s : State) (g : Group) : State := s.setGroup s.iss.key g
/-- Group `k` is changed by `f`, when it exists. -/
def State.updGroup (s : State) (k : Nat) (f : Group → Group) : State :=
  match mfind s.groups k with
  | some g => s.setGroup k (f g)
  | none => s
/-- The issuing group is changed by `f`. -/
def State.updGrp (s : State) (f : Group → Group) : State := s.setGrp (f s.grp)
/-- The issuing group's team. -/
def State.team (s : State) : Team := mget {} s.teams s.grp.tid
def State.updTeam (s : State) (tid : Nat) (f : Team → Team) : State :=
  match mfind s.teams tid with
  | some t => { s with teams := mset s.teams tid (f t) }
  | none => s
/-- The VD of number `n`. -/
def State.vd (s : State) (n : Nat) : VD := mget {} s.vds n
/-- STKSZ (R421). -/
def VD.stksz (v : VD) : Nat := 2 ^ (10 + v.stklog)
def State.updVd (s : State) (n : Nat) (f : VD → VD) : State := { s with vds := mset s.vds n (f (s.vd n)) }

/-- Live lanes: those with a PC in the table (R40). -/
def Group.live (g : Group) : Word := maskOf fun l => (g.pcs.getD l none).isSome
def Group.vreg (g : Group) (k : Nat) : VReg := mget {} g.v k
def Group.sreg (g : Group) (k : Nat) : SReg := mget {} g.s k
def Group.preg (g : Group) (k : Nat) : PReg := mget {} g.p k

/-- Lanes where the guard passes (R44). -/
def Group.guardMask (g : Group) : Option Guard → Word
  | none => 0xFFFFFFFF
  | some gd => let v := (g.preg gd.p.val).val; if gd.neg then ~~~v else v
/-- The guard predicate's tags, clean without a guard (R182). -/
def Group.guardTags (g : Group) : Option Guard → Word × Word
  | none => (0, 0)
  | some gd => ((g.preg gd.p.val).dp, (g.preg gd.p.val).fp)

/-! ## Reading sources -/

/-- A source as the lanes read it: low and high word, and tags. -/
structure Src where
  lo : Shape
  hi : Shape := .uniform 0
  dp : Word := 0
  fp : Word := 0
  deriving DecidableEq, Repr

/-- A uniform clean source. -/
def Src.const (x : DWord) : Src := { lo := .uniform (x.setWidth 32), hi := .uniform ((x >>> 32).setWidth 32) }
/-- The tag of lane `l`. -/
def Src.tag (x : Src) (l : Nat) : Tag := tagAt x.dp x.fp l
/-- The 32-bit value of lane `l` (`opnd`, R89). -/
def Src.w (x : Src) (l : Nat) : Nat := (x.lo.lane l).toNat
/-- The 64-bit value of lane `l` (`opnd64`, R89). -/
def Src.d (x : Src) (l : Nat) : Nat := (x.lo.lane l).toNat + 2 ^ 32 * (x.hi.lane l).toNat
/-- The value at one of the two widths. -/
def Src.at (x : Src) (is64 : Bool) (l : Nat) : Nat := if is64 then x.d l else x.w l

/-- The `k`-th register of a captured group. -/
def slotAt (sl : List Slot) (k : Nat) : Slot := sl.getD k { ws := [], dp := 0, fp := 0 }

/-- The free-value number of an unreleased B window that holds a register (R241). -/
def Group.winOf (g : Group) (k : Nat) : Option Nat := (g.win.find? fun w => decide (w.1 ≤ k) && decide (k < w.1 + w.2.1)).map fun w => w.2.2
/-- The undefined words of a register of such a window. Log entry 5. -/
def undefWords (n k : Nat) : List Word := (List.range 32).map fun l => (Config.freeWord n (32 * k + l)).setWidth 32
/-- A captured slot as a source; one that was uniform stays so (R68, R88). -/
def Slot.src (t : Slot) : Src := { lo := if t.uni then .uniform (t.ws.getD 0 0) else .general t.ws, dp := t.dp, fp := t.fp }
/-- A vector register through a permutation, or its captured value (R70, R88). A B window that
the stream has not released reads as undefined (R241). -/
def Group.readV (g : Group) (sl : Option (List Slot)) (k j : Nat) (pm : Perm) : Src :=
  match sl with
  | some c => (slotAt c j).src
  | none =>
    let r := g.vreg (k + j)
    let val : Shape := match g.winOf (k + j) with
      | some n => .general (undefWords n (k + j))
      | none => r.val
    { lo := val.perm pm, dp := permMask pm r.dp, fp := permMask pm r.fp }
/-- The `j`-th s register of a group, whole (R61, R91). -/
def Group.readS (g : Group) (sl : Option (List Slot)) (k j : Nat) : Src :=
  let r : DWord × Tag := match sl with
    | some c => let t := slotAt c j; ((t.ws.getD 1 0) ++ (t.ws.getD 0 0), tagAt t.dp t.fp 0)
    | none => let r := g.sreg (k + j); (r.val, r.tag)
  { Src.const r.1 with dp := allLanes (r.2 = .poison), fp := allLanes (r.2 = .pending) }
/-- A predicate as a source: bit 0 of each lane (R61, R67). -/
def Group.readP (g : Group) (sl : Option (List Slot)) (k : Nat) : Src :=
  match sl with
  | some c => (slotAt c 0).src
  | none =>
    let r := g.preg k
    { lo := .general ((List.range 32).map fun l => BitVec.ofNat 32 (b2n (r.val.getLsbD l))), dp := r.dp, fp := r.fp }

/-- The `j`-th 32-bit register of an operand (R61). An s register gives its low word. -/
def Group.read32 (g : Group) (sl : Option (List Slot)) (x : Opnd) (pm : Perm) (j : Nat := 0) : Src :=
  match x with
  | .v k => g.readV sl k.val j pm
  | .s k => { g.readS sl k.val j with hi := .uniform 0 }
  | .p k => g.readP sl k.val
  | .zero => { lo := .uniform 0 }
  | .laneid => { lo := .affine 0 1 }
/-- The `j`-th 64-bit register or pair of an operand (R57, R61, R179). -/
def Group.read64 (g : Group) (sl : Option (List Slot)) (x : Opnd) (pm : Perm) (j : Nat := 0) : Src :=
  match x with
  | .v k =>
    let a := g.readV sl k.val (2 * j) pm
    let b := g.readV sl k.val (2 * j + 1) pm
    { lo := a.lo, hi := b.lo, dp := a.dp ||| b.dp, fp := a.fp ||| b.fp }
  | .s k => g.readS sl k.val j
  | .p k => g.readP sl k.val
  | .zero => { lo := .uniform 0 }
  | .laneid => { lo := .affine 0 1 }

/-- Source A at a width. -/
def State.srcA (s : State) (o : Ops) (is64 : Bool) (j : Nat := 0) : Src :=
  let sl := s.iss.slots.map fun t => t.1
  if is64 then s.grp.read64 sl o.a o.pa j else s.grp.read32 sl o.a o.pa j
/-- Source B at a width; in F128I the immediate, where the instruction's last source is B (R77). -/
def State.srcB (s : State) (o : Ops) (is64 : Bool) (j : Nat := 0) : Src :=
  if o.fmt = .f128i then Src.const o.imm else
  let sl := s.iss.slots.map fun t => t.2.1
  if is64 then s.grp.read64 sl o.b o.pb j else s.grp.read32 sl o.b o.pb j
/-- Field B itself, in instructions whose IMM is an offset (R77, R247). -/
def State.srcBfield (s : State) (o : Ops) (is64 : Bool) (j : Nat := 0) : Src :=
  let sl := s.iss.slots.map fun t => t.2.1
  if is64 then s.grp.read64 sl o.b o.pb j else s.grp.read32 sl o.b o.pb j
/-- Source C at a width; in F128I the immediate, where the instruction's last source is C. -/
def State.srcC (s : State) (o : Ops) (is64 : Bool) : Src :=
  if o.fmt = .f128i then Src.const o.imm else
  let sl := s.iss.slots.map fun t => t.2.2
  if is64 then s.grp.read64 sl o.c o.pc else s.grp.read32 sl o.c o.pc

/-- The s register or zero that a field of a uniform instruction names (R132). -/
def State.uni (s : State) (x : Opnd) (sl : Option (List Slot)) (j : Nat := 0) : SReg :=
  let r := s.grp.read64 sl x .none j
  ⟨BitVec.ofNat 64 (r.d 0), r.tag 0⟩
def State.uniA (s : State) (o : Ops) : SReg := s.uni o.a (s.iss.slots.map fun t => t.1)
def State.uniB (s : State) (o : Ops) (j : Nat := 0) : SReg := s.uni o.b (s.iss.slots.map fun t => t.2.1) j

/-! ## Capturing sources (R88, R339) -/

/-- The slots one operand fills. -/
def Group.capture (g : Group) (u : Use) (x : Opnd) (pm : Perm) : List Slot :=
  if !u.used then [] else
  match x with
  | .v k => (List.range u.n).map fun j => let r := g.readV none k.val j pm; { ws := r.lo.words, dp := r.dp, fp := r.fp, uni := r.lo.isUniform }
  | .s k => (List.range u.sn).map fun j =>
      let r := g.sreg (k.val + j)
      { ws := [r.val.setWidth 32, (r.val >>> 32).setWidth 32], dp := b2n (r.tag = .poison), fp := b2n (r.tag = .pending) }
  | .p k => let r := g.readP none k.val; [{ ws := r.lo.words, dp := r.dp, fp := r.fp }]
  | .zero | .laneid => []
/-- The number of slots an operand needs (R340). -/
def slotCount (u : Use) : Opnd → Nat
  | .v _ => if u.used then u.n else 0
  | .s _ => if u.used then u.sn else 0
  | .p _ => if u.used then 1 else 0
  | .zero | .laneid => 0

/-! ## Writing destinations -/

/-- One destination register: its number, the shape R68 gives the result, and the tags. -/
structure DestW where
  reg : Nat
  val : Shape
  dp : Word
  fp : Word
  deriving DecidableEq, Repr

/-- Lanes of `m` from `x`, the others from `y`. -/
def mergeMask (m x y : Word) : Word := (x &&& m) ||| (y &&& ~~~m)
/-- Lanes of `m` from the new value, the others from the old, in general form. -/
def mergeShape (m : Word) (new old : Shape) : Shape :=
  .general ((List.range 32).map fun l => if m.getLsbD l then new.lane l else old.lane l)

/-- Whether a write by the lanes `act` covers every live lane (R69). -/
def Group.whole (g : Group) (act : Word) : Bool := g.live &&& ~~~act == 0
/-- The shape a written register takes (R68, R69). -/
def Group.destShape (g : Group) (act : Word) (w : DestW) : Shape :=
  if g.whole act && !w.val.isGeneral then w.val else mergeShape act w.val (g.vreg w.reg).val
/-- Whether R65 refuses the write. -/
def Group.refused (g : Group) (act : Word) (w : DestW) : Bool :=
  decide (g.ngen ≤ w.reg) && (!g.whole act || w.val.isGeneral)
/-- The numbers of every unreleased B window that holds a register. -/
def Group.winsOf (g : Group) (k : Nat) : List Nat := (g.win.filter fun w => decide (w.1 ≤ k) && decide (k < w.1 + w.2.1)).map fun w => w.2.2
/-- A register as the array reads it: of a window that the group has written while it was closed,
every register is undefined (R87, R241). -/
def Group.windowReg (g : Group) (k : Nat) : VReg :=
  match (g.winsOf k).find? g.winHit.contains with
  | some n => { g.vreg k with val := .general (undefWords n k) }
  | none => g.vreg k
/-- A destination register is written in the lanes `act`. A write to an unreleased B window leaves
undefined values (R87, R241); a matrix-role group's write is noted for MFENCE (R240). -/
def Group.writeV (g : Group) (act : Word) (w : DestW) : Group :=
  let old := g.vreg w.reg
  let fp := mergeMask act w.fp old.fp
  let val : Shape := match g.winOf w.reg with
    | some n => .general (undefWords n w.reg)
    | none => g.destShape act w
  { g with v := mset g.v w.reg ⟨val, mergeMask act w.dp old.dp &&& ~~~fp, fp⟩,
           winHit := (g.winsOf w.reg).foldl sins g.winHit,
           vdirty := if g.role = .matrix then mset g.vdirty w.reg (mget 0 g.vdirty w.reg ||| act) else g.vdirty }
/-- The lowest refused register, a pair named by its even register (R65, R336). -/
def Group.refusedReg (g : Group) (act : Word) (pair : Bool) (ws : List DestW) : Option Nat :=
  ((ws.find? (g.refused act)).map (·.reg)).map fun r => if pair then r / 2 * 2 else r

/-- An s register is written. -/
def Group.writeS (g : Group) (k : Nat) (x : DWord) (t : Tag) : Group := { g with s := mset g.s k ⟨x, t⟩ }
/-- A predicate is written in the lanes `act` (R61). -/
def Group.writeP (g : Group) (act : Word) (k : Nat) (val dp fp : Word) : Group :=
  let old := g.preg k
  let nfp := mergeMask act fp old.fp
  { g with p := mset g.p k ⟨mergeMask act val old.val, mergeMask act dp old.dp &&& ~~~nfp, nfp⟩ }

/-! ## Result shapes (R68) -/

/-- The classes of R68 that decide the shape of a 32-bit result. -/
inductive ShapeClass where
  | additive | scaleMul | scaleShl | other | general
  deriving DecidableEq, Repr

/-- Base and stride of a shape that is not general. -/
def Shape.base : Shape → Word
  | .uniform u => u | .affine b _ => b | .general _ => 0
def Shape.stride : Shape → Word
  | .affine _ t => t | .uniform _ | .general _ => 0

/-- The result of a lane-wise operation on 32-bit sources with its shape (R68). -/
def resultShape (c : ShapeClass) (srcs : List Shape) (f : List Nat → Nat) : Shape :=
  let on (g : Shape → Word) : Word := BitVec.ofNat 32 (f (srcs.map fun x => (g x).toNat))
  let lanes := Shape.general ((List.range 32).map fun l => on fun x => x.lane l)
  match c with
  | .general => lanes
  | _ =>
    if srcs.all Shape.isUniform then .uniform (on fun x => x.lane 0)
    else match c, srcs with
      | .additive, srcs => if srcs.any Shape.isGeneral then lanes else .affine (on Shape.base) (on Shape.stride)
      | .scaleMul, [.affine b t, .uniform u] =>
        .affine (BitVec.ofNat 32 (f [b.toNat, u.toNat])) (BitVec.ofNat 32 (f [t.toNat, u.toNat]))
      | .scaleMul, [.uniform u, .affine b t] =>
        .affine (BitVec.ofNat 32 (f [u.toNat, b.toNat])) (BitVec.ofNat 32 (f [u.toNat, t.toNat]))
      | .scaleShl, [.affine b t, .uniform u] =>
        .affine (BitVec.ofNat 32 (f [b.toNat, u.toNat])) (BitVec.ofNat 32 (f [t.toNat, u.toNat]))
      | _, _ => lanes

end Sys2Proof.Machine
end

