-- ==== Sys2Proof/Machine/Mem.lean ====
section
/-! DEFINITION. Mem: reading and writing the stores of R213: memory in canonical form, sectors and their poison, L1 copies, die L2s, the write-through stream to the cistern, store queues, and what releases and acquires wait for (R210 to R244, R252). -/
namespace Sys2Proof.Machine

/-! ## Memory in canonical form -/

/-- Addresses strictly rise (the canonical form). -/
def Mem.wf : Mem → Bool
  | [] => true
  | [_] => true
  | (a, _) :: (b, y) :: m => decide (a < b) && Mem.wf ((b, y) :: m)
/-- The byte at an address, if something has written it. -/
def Mem.read (m : Mem) (a : Nat) : Option Byte := mfind m a
/-- A byte is written. -/
def Mem.write (m : Mem) (a : Nat) (b : Byte) : Mem := mset m a b
/-- Bytes are written one after another, so a later one prevails. -/
def Mem.writeAll (m : Mem) (bs : List (Nat × Byte)) : Mem := bs.foldl (fun m e => Mem.write m e.1 e.2) m
/-- The entries in [lo, hi). -/
def Mem.slice (m : Mem) (lo hi : Nat) : Mem := m.filter fun e => decide (lo ≤ e.1) && decide (e.1 < hi)
/-- The entries outside [lo, hi). -/
def Mem.erase (m : Mem) (lo hi : Nat) : Mem := m.filter fun e => !(decide (lo ≤ e.1) && decide (e.1 < hi))
/-- Consecutive bytes with their addresses. -/
def bytesAt (a : Nat) (bs : List Byte) : List (Nat × Byte) := bs.zipIdx.map fun e => (a + e.2, e.1)

/-- The 256-byte sector of an address (R252). -/
def sectorOf (a : Nat) : Nat := a / 256
/-- The sectors that `n` bytes at `a` touch. -/
def sectorsOf (a n : Nat) : List Nat := if n = 0 then [] else (List.range ((a + n - 1) / 256 - a / 256 + 1)).map fun i => a / 256 + i

/-- The number that `Config.initByte` gives a store. -/
def Space.code : Space → Nat
  | .hbm => 0 | .host => 1 | .remote => 2 | .scratch => 3 | .stack => 6

/-- A located access: the store, the address in it, and the page's class and format (R212, R217). -/
structure Loc where
  space : Space
  addr : Nat
  dieCoh : Bool := false
  fmt : Nat := 0
  page : Nat := 0
  size : Nat := 0
  deriving DecidableEq, Repr

/-- The address of byte `i` of an access: consecutive, but that a lane's stack words lie 128
bytes apart (R211). -/
def Loc.byteAt (l : Loc) (i : Nat) : Nat :=
  if l.space = .stack then
    let r := l.addr % 4
    l.addr - r + (r + i) / 4 * 128 + (r + i) % 4
  else l.addr + i
/-- The bytes of an access with their addresses. -/
def Loc.bytes (l : Loc) (bs : List Byte) : List (Nat × Byte) := bs.zipIdx.map fun e => (l.byteAt e.2, e.1)
/-- The sectors an access touches. -/
def Loc.sectors (l : Loc) (n : Nat) : List Nat := (List.range n).foldl (fun c i => sins c (sectorOf (l.byteAt i))) []

/-- A byte of local HBM as the cistern holds it (R213, R228). -/
def State.hbmByte (s : State) (a : Nat) : Byte := (Mem.read s.mem.hbm a).getD (Config.initByte 0 a s.epoch)
/-- `n` bytes as the cistern holds them, as a number (R324). -/
def State.hbmNat (s : State) (a n : Nat) : Nat := leNat ((List.range n).map fun i => s.hbmByte (a + i))
/-- A byte of host memory (R213). What lies outside the device is data of the state. DESIGN CHOICE. Log entry 6. -/
def State.hostByte (s : State) (a : Nat) : Byte := (Mem.read s.mem.host a).getD (Config.initByte 1 a 0)
def State.hostNat (s : State) (a n : Nat) : Nat := leNat ((List.range n).map fun i => s.hostByte (a + i))
/-- A byte of a remote device's memory (R213). -/
def State.remoteByte (s : State) (a : Nat) : Byte := (Mem.read s.mem.remote a).getD (Config.initByte 2 a 0)

/-- The address, in the scratch store, of byte `b` of team core `t`'s reservation (R210). -/
def scratchAddr (tid t b : Nat) : Nat := (tid * 16 + t) * 2 ^ 18 + b
/-- The number of tile row `r` of team core `t` (R280). -/
def tileRow (tid t r : Nat) : Nat := (tid * 16 + t) * 512 + r
def State.scratchByte (s : State) (a : Nat) : Byte := (Mem.read s.mem.scratch a).getD (Config.initByte 3 a 0)
/-- A byte of a tile row, by row number and column (R280). -/
def State.tileByte (s : State) (row col : Nat) : Byte := (Mem.read s.mem.tile (row * 1024 + col)).getD (Config.initByte 4 (row * 1024 + col) 0)
/-- A 32-bit word of a tile row. -/
def State.tileWord (s : State) (row wd : Nat) : Word :=
  BitVec.ofNat 32 (leNat ((List.range 4).map fun i => s.tileByte row (4 * wd + i)))
/-- A byte of a row's side column (R280). -/
def State.sideByte (s : State) (row col : Nat) : Byte := (Mem.read s.mem.side (row * 32 + col)).getD (Config.initByte 5 (row * 32 + col) 0)
/-- The metadata entry in slot `j` of a row (R282). -/
def State.sideSlot (s : State) (row j : Nat) : Nat := leNat ((List.range 4).map fun i => s.sideByte row (4 * j + i))

def State.setMem (s : State) (f : MemSys → MemSys) : State := { s with mem := f s.mem }
/-- Words of tile rows are written. -/
def State.writeTile (s : State) (row col : Nat) (bs : List Byte) : State :=
  s.setMem fun m => { m with tile := Mem.writeAll m.tile (bytesAt (row * 1024 + col) bs) }
def State.writeSide (s : State) (row col : Nat) (bs : List Byte) : State :=
  s.setMem fun m => { m with side := Mem.writeAll m.side (bytesAt (row * 32 + col) bs) }
/-- PB of a row (R280, R283). -/
def State.pb (s : State) (row : Nat) : Bool := s.mem.pb.contains row
def State.setPb (s : State) (row : Nat) (b : Bool) : State :=
  s.setMem fun m => { m with pb := if b then sins m.pb row else sdel m.pb row }

/-! ## Dies and poison -/

/-- The logical die of a core (R16). -/
def dieOf (core : Nat) : Nat := core / 128 % 2
/-- The clock of a core (R19, R379). -/
def State.clkOf (s : State) (core : Nat) : Nat := s.clk + mget 0 s.coreClk core

/-- Poison marks of a write are applied: sectors marked, then sectors cleared (R252). -/
def poisonApply (m : List Nat) (w : QStore) : List Nat := w.clear.foldl sdel (w.poison.foldl sins m)

/-- A free value for an undefined result, and the counter's advance (R5). Log entry 5. -/
def State.free (s : State) (i : Nat) : DWord := Config.freeWord s.freeCtr i
def State.bumpFree (s : State) : State := { s with freeCtr := s.freeCtr + 1 }

/-- The newest of some writes, oldest first, that holds a byte (R224). -/
def forwarded (q : List QStore) (sp : Space) (a : Nat) : Option Byte :=
  (q.reverse.find? fun w => w.space = sp && (w.bytes.any fun e => e.1 == a)).map fun w =>
    (mfind w.bytes.reverse a).getD 0
/-- The poison that some writes give a sector, over what lies below. -/
def queuedPoison (q : List QStore) (sp : Space) (sec : Nat) (below : Bool) : Bool :=
  q.foldl (fun p w => if w.space = sp then (p || w.poison.contains sec) && !w.clear.contains sec else p) below

/-! ## The caches -/

def MemSys.l2Find (m : MemSys) (die sec : Nat) : Option L2Copy := m.l2.find? fun c => c.die == die && c.sector == sec
def MemSys.l1Find (m : MemSys) (core sec : Nat) : Option L1Copy := m.l1.find? fun c => c.core == core && c.sector == sec
/-- Writes that the L2 of a die has passed on and the cistern has not performed (R213, R222). -/
def MemSys.onWay (m : MemSys) (die : Nat) : List QStore := (m.fwd.filter fun f => f.die == die).map fun f => f.write
/-- Whether a read at the cistern meets poison: the sector's bit, or damage not yet found (R384, R391). -/
def MemSys.cisternPoison (m : MemSys) (sec : Nat) : Bool := m.hbmPoison.contains sec || m.damaged.contains sec

/-- A byte as the die's L2 gives it, if something has written it: from its copy; else as the
cistern holds it, under the die's own writes on their way (R213, R228). -/
def State.l2Read (s : State) (die a : Nat) : Option Byte :=
  match s.mem.l2Find die (sectorOf a) with
  | some c => Mem.read c.data a
  | none => (forwarded (s.mem.onWay die) .hbm a).or (Mem.read s.mem.hbm a)
def State.l2Byte (s : State) (die a : Nat) : Byte := (s.l2Read die a).getD (Config.initByte 0 a s.epoch)
/-- A sector's poison as the die's L2 gives it. -/
def State.l2Poison (s : State) (die sec : Nat) : Bool :=
  match s.mem.l2Find die sec with
  | some c => c.poison
  | none => queuedPoison (s.mem.onWay die) .hbm sec (s.mem.cisternPoison sec)
/-- A sector's written bytes as the die's L2 gives them. -/
def State.l2Sector (s : State) (die sec : Nat) : Mem :=
  match s.mem.l2Find die sec with
  | some c => c.data
  | none => Mem.writeAll (Mem.slice s.mem.hbm (sec * 256) (sec * 256 + 256))
      ((s.mem.onWay die).flatMap fun w => w.bytes.filter fun e => sectorOf e.1 == sec)

/-- The 1,024-byte lines of some sectors, in the order in which they first appear (R17). -/
def linesOf (secs : List Nat) : List Nat := secs.foldl (fun ls c => if ls.contains (c / 4) then ls else ls ++ [c / 4]) []
/-- The line that a cache of `cap` lines gives up before it takes a sector, where all are in use: the
first with a sector of `marked` (R253), else its oldest. The spec says no more of the order. DESIGN CHOICE. Log entry 36. -/
def victimLine (cap : Nat) (secs marked : List Nat) (sec : Nat) : Option Nat :=
  if secs.length < cap then none
  else
    let ls := linesOf secs
    if ls.contains (sec / 4) || ls.length < cap then none else (linesOf marked ++ ls).head?

/-- Copies of the sectors in the L2 of one die are invalidated (R214). -/
def State.l2Drop (s : State) (die : Nat) (secs : List Nat) : State :=
  s.setMem fun m => { m with l2 := m.l2.filter fun c => !(c.die == die && secs.contains c.sector) }
/-- The whole L1 of a core is invalidated (R216, R267). -/
def State.l1Drop (s : State) (core : Nat) : State := s.setMem fun m => { m with l1 := m.l1.filter fun c => c.core != core }
/-- The core's L1 takes a copy of a sector from the die's L2, unless it has one (R215); a full L1
first gives up a line (R216). -/
def State.l1Fill (s : State) (core sec vd : Nat) : State :=
  match s.mem.l1Find core sec with
  | some _ => s
  | none =>
    let c : L1Copy := ⟨core, sec, vd, s.l2Sector (dieOf core) sec, s.l2Poison (dieOf core) sec⟩
    let v := victimLine Config.l1Lines ((s.mem.l1.filter fun c => c.core == core).map fun c => c.sector) [] sec
    s.setMem fun m => { m with l1 := (m.l1.filter fun c => !(c.core == core && v == some (c.sector / 4))) ++ [c] }
/-- A store of the core's own groups updates the present L1 copies (R215, R216). -/
def State.l1Update (s : State) (core : Nat) (w : QStore) : State :=
  s.setMem fun m => { m with l1 := m.l1.map fun c =>
    if c.core == core then
      { c with data := Mem.writeAll c.data (w.bytes.filter fun e => sectorOf e.1 == c.sector),
               poison := (c.poison || w.poison.contains c.sector) && !w.clear.contains c.sector }
    else c }

/-! ## Writes on their way (R213, R214, R218, R222) -/

/-- The sectors a write touches, or whose poison it changes. -/
def QStore.sectors (w : QStore) : List Nat := w.clear.foldl sins (w.poison.foldl sins (w.bytes.foldl (fun l e => sins l (sectorOf e.1)) []))

/-- The sectors whose bytes a write changes, in part or whole. -/
def QStore.written (w : QStore) : List Nat := w.bytes.foldl (fun l e => sins l (sectorOf e.1)) []
/-- Damage that is now found, but for what the scrubber has found and recorded already. -/
def MemSys.newlyFound (m : MemSys) (vd : Option Nat) (secs : List Nat) : List (Nat × Option Nat) :=
  (secs.filter fun c => mfind m.scrubRead c != some true).map fun c => (c, vd)
/-- An access that reads sectors of local HBM, for a VD where it is one's, finds their damage: their
poison is set, and a record follows (R384). Log entry 35. -/
def State.meet (s : State) (vd : Option Nat) (secs : List Nat) : State :=
  match s.mem.damaged.filter secs.contains with
  | [] => s
  | cs => s.setMem fun m => { m with hbmPoison := cs.foldl sins m.hbmPoison, found := m.found ++ m.newlyFound vd cs,
                                     damaged := m.damaged.filter fun c => !cs.contains c }
/-- `n` bytes of a location are read, through the L2 of a die or at the cistern, and their damage is
found; a copy in that L2 spares the cistern the read. -/
def State.meetLoc (s : State) (vd : Option Nat) (die : Option Nat) (l : Loc) (n : Nat) : State :=
  if l.space = .hbm || l.space = .stack then
    s.meet vd ((sectorsOf l.addr n).filter fun c => match die with | some d => (s.mem.l2Find d c).isNone | none => true)
  else s
/-- A write is performed at the cistern: it finds the damage of a sector that it covers in part and
sets its poison, and it overtakes the scrubber's reads of its sectors (R391). A write of a poison
tag alone covers no data, so damage stays. -/
def State.cisternWrite (s : State) (w : QStore) : State :=
  s.setMem fun m =>
    let part := m.damaged.filter fun c => w.written.contains c && !w.clear.contains c
    { m with
      hbm := Mem.writeAll m.hbm w.bytes
      hbmPoison := part.foldl sins (poisonApply m.hbmPoison w)
      found := m.found ++ m.newlyFound (some w.vd) part
      damaged := m.damaged.filter fun c => !w.written.contains c
      scrubRead := m.scrubRead.filter fun e => !w.sectors.contains e.1 }
/-- The dirty bytes and the dirty poison of an L2 copy are written back to the cistern, and the
copy is clean (R218, R252). -/
def State.writeBackCopy (s : State) (c : L2Copy) : State :=
  let w : QStore :=
    { space := .hbm, dieCoh := true, vd := c.vd, bytes := c.data.filter fun e => c.dirty.contains e.1,
      poison := if c.pdirty && c.poison then [c.sector] else [], clear := if c.pdirty && !c.poison then [c.sector] else [] }
  if c.dirty = [] && !c.pdirty then s
  else (s.cisternWrite w).setMem fun m =>
    { m with l2 := m.l2.map fun d => if d.die == c.die && d.sector == c.sector then { d with dirty := [], pdirty := false } else d }
/-- The copies that `f` picks are written back, where they are dirty, and dropped. -/
def State.l2Evict (s : State) (f : L2Copy → Bool) : State :=
  ((s.mem.l2.filter f).foldl State.writeBackCopy s).setMem fun m => { m with l2 := m.l2.filter fun c => !f c }
/-- The die's L2 takes a copy of a sector from the cistern, unless it has one (R213, R214); a full
L2 first gives up a line. -/
def State.l2Fill (s : State) (die sec : Nat) (dieCoh : Bool) (vd : Nat) : State :=
  match s.mem.l2Find die sec with
  | some _ => s
  | none =>
    let s := s.meet (some vd) [sec]
    let c : L2Copy := { die := die, sector := sec, data := s.l2Sector die sec, dirty := [], dieCoh := dieCoh, vd := vd, poison := s.l2Poison die sec }
    let mine := s.mem.l2.filter fun c => c.die == die
    let s := match victimLine Config.l2Lines (mine.map fun c => c.sector) ((mine.filter fun c => c.strm).map fun c => c.sector) sec with
      | some v => s.l2Evict fun c => c.die == die && c.sector / 4 == v
      | none => s
    s.setMem fun m => { m with l2 := m.l2 ++ [c] }
/-- The part of a write that lies in sector `sec` is applied to the L2's copy of it. -/
def State.l2Put (s : State) (die : Nat) (w : QStore) (dirty : Bool) (sec : Nat) : State :=
  let bs := w.bytes.filter fun e => sectorOf e.1 == sec
  (s.l2Fill die sec w.dieCoh w.vd).setMem fun m => { m with l2 := m.l2.map fun c =>
    if c.die == die && c.sector == sec then
      { c with data := Mem.writeAll c.data bs, vd := w.vd, strm := c.strm || w.strm,
               pdirty := c.pdirty || (dirty && (w.poison.contains sec || w.clear.contains sec)),
               dirty := if dirty then bs.foldl (fun l e => sins l e.1) c.dirty else c.dirty,
               poison := (c.poison || w.poison.contains sec) && !w.clear.contains sec }
    else c }
/-- A die's L2 applies a write, sector by sector; held write-back, the bytes
and the poison it sets or clears become dirty (R213, R218). -/
def State.l2Apply (s : State) (die : Nat) (w : QStore) (dirty : Bool) : State :=
  w.sectors.foldl (fun s c => s.l2Put die w dirty c) s
/-- A die's L2 accepts a write: die-coherent bytes stay there, others go on to the cistern (R213, R222). -/
def State.l2Accept (s : State) (die : Nat) (w : QStore) : State :=
  let s := s.l2Apply die w w.dieCoh
  if w.dieCoh then s else s.setMem fun m => { m with fwd := m.fwd ++ [⟨die, w⟩] }
/-- The first forwarded write of a die reaches the cistern; it is acknowledged once the other
die's copies are gone (R214). -/
def State.forwardOne (s : State) (die : Nat) : State :=
  match s.mem.fwd.find? fun f => f.die == die with
  | none => s
  | some f =>
    let s := s.setMem fun m => { m with fwd := m.fwd.erase f }
    let s := s.cisternWrite f.write
    s.setMem fun m => { m with acks := m.acks ++ [f] }
/-- The oldest unacknowledged write of a die is acknowledged: the other die's copies of its
sectors are invalidated (R214). -/
def State.ackOne (s : State) (die : Nat) : State :=
  match s.mem.acks.find? fun f => f.die == die with
  | none => s
  | some f => (s.setMem fun m => { m with acks := m.acks.erase f }).l2Drop (1 - die) f.write.sectors
/-- Every write of a die is forwarded and acknowledged. -/
def State.flushDie (s : State) (die : Nat) : State :=
  let n := s.mem.fwd.length
  let s := (List.range n).foldl (fun s _ => s.forwardOne die) s
  (List.range s.mem.acks.length).foldl (fun s _ => s.ackOne die) s

/-- Every dirty die-coherent sector of a VD in a die's L2 that `f` picks is written back (R218, R267). -/
def State.writeBack (s : State) (die vd : Nat) (f : Nat → Bool) : State :=
  (s.mem.l2.filter fun c => c.die == die && c.dieCoh && c.vd == vd && f c.sector).foldl State.writeBackCopy s

/-- The bytes of a barrier object whose fields are undefined and whose INIT is 0 (R297). -/
def State.undefObject (s : State) (i : Nat) : List Byte :=
  leBytes 8 (s.free (2 * i)).toNat ++ leBytes 8 (s.free (2 * i + 1) &&& ~~~0x400000000).toNat
/-- The initialised barrier objects that a plain write touches lose INIT, and their fields hold
undefined values (R297). -/
def State.dropInit (s : State) (bs : List (Nat × Byte)) : State :=
  match s.mem.mbInit.filter fun g => bs.any fun e => e.1 / 16 == g with
  | [] => s
  | gs => (s.setMem fun m => { m with
      mbInit := m.mbInit.filter fun g => !gs.contains g
      scratch := Mem.writeAll m.scratch (gs.zipIdx.flatMap fun e => bytesAt (e.1 * 16) (s.undefObject e.2)) }).bumpFree

/-! ## Writes to operands of a matrix stream (R230 to R233, R239 to R242) -/

/-- A carrier joins those that a write has reached. -/
def addCarrier (cs : List Carrier) (c : Carrier) : List Carrier := if cs.contains c then cs else cs ++ [c]
/-- Every noted write that has reached a carrier picked by `p` reaches `c`. -/
def State.carry (s : State) (p : Carrier → Bool) (c : Carrier) : State :=
  { s with marks := s.marks.map fun m => if m.seen.any p then { m with seen := addCarrier m.seen c } else m }
/-- What carriers picked by `p` carried is gone. -/
def State.uncarry (s : State) (p : Carrier → Bool) : State :=
  { s with marks := s.marks.map fun m => { m with seen := m.seen.filter fun c => !p c } }
/-- Writes to operands of a team's stream are noted: they have reached their writer. -/
def State.mark (s : State) (tid : Nat) (writer : Option Carrier) (d : List Dirty) : State :=
  if (mget {} s.teams tid).record.getLsbD 164 then
    { s with marks := (s.marks.filter fun m => !(m.tid == tid && d.contains m.what)) ++ d.map fun x => ⟨tid, x, writer.toList⟩ }
  else s
/-- The same of writes to memory, which the steps in the queue may find too (R240). -/
def State.markDirty (s : State) (tid : Nat) (writer : Option Carrier) (d : List Dirty) : State :=
  (s.mark tid writer d).updTeam tid fun t => { t with queue := t.queue.map fun m => { m with dirty := m.dirty ++ d } }
/-- Runs of successive addresses: first address and length. -/
def runs (l : List Nat) : List (Nat × Nat) :=
  l.foldr (fun a rs => match rs with | (b, n) :: t => if a + 1 = b then (a, n + 1) :: t else (a, 1) :: rs | [] => [(a, 1)]) []
/-- The scratchpad bytes of a write as operands of their team's stream. -/
def State.markScratch (s : State) (writer : Option Carrier) (bs : List (Nat × Byte)) : State :=
  (runs (bs.map fun e => e.1)).foldl
    (fun s r => s.markDirty (r.1 / 2 ^ 18 / 16) writer [.scratch (r.1 / 2 ^ 18 % 16) (r.1 % 2 ^ 18) r.2]) s
/-- The registers that a group has written are noted, as its release has to carry them (R242). -/
def State.publish (s : State) (key : Nat) : State :=
  let g := mget {} s.groups key
  (s.updGroup key fun g => { g with vdirty := [] }).mark g.tid (some (.agent key)) (g.vdirty.map fun e => .window g.grpid e.1 e.2)
/-- Group `key` has released to `c`: what it wrote or has seen is there for those who acquire from it (R232, R233). -/
def State.releaseTo (s : State) (key : Nat) (c : Carrier) : State := s.carry (· == .agent key) c
/-- Group `key` acquires from the carriers picked by `p`. -/
def State.acquireFrom (s : State) (key : Nat) (p : Carrier → Bool) : State := s.carry p (.agent key)
/-- A release store of group `key` that has not been performed. -/
def Carrier.isStore (key : Nat) (c : Carrier) : Bool := match c with | .store k _ _ => k == key | _ => false
/-- Stores of group `key` release to the bytes that they are on their way to. -/
def State.postStores (s : State) (key n : Nat) (ls : List (Nat × Loc)) : State :=
  (ls.flatMap fun e => (List.range n).map fun i => (e.2.space, e.2.byteAt i)).foldl (fun s a => s.releaseTo key (.store key a.1 a.2)) s
/-- Bytes are written, by group `key` where it is one: they hold what the group released to them or
by a fence; what they held before goes on only through an RMW (R232). -/
def Mark.wrote (key : Option Nat) (rmw : Bool) (sp : Space) (as : List Nat) (m : Mark) : Mark :=
  let here (c : Carrier) : Bool := match c with | .location x a => x == sp && as.contains a | _ => false
  let posted (a : Nat) : Bool := key.any fun k => m.seen.contains (.fence k) || m.seen.contains (.store k sp a)
  let done (c : Carrier) : Bool := as.any fun a => key.any fun k => c == .store k sp a
  { m with seen := ((as.filter posted).map (Carrier.location sp)).foldl addCarrier ((m.seen.filter fun c => rmw || !here c).filter fun c => !done c) }
def State.wrote (s : State) (key : Option Nat) (rmw : Bool) (w : QStore) : State :=
  { s with marks := s.marks.map (Mark.wrote key rmw w.space (w.bytes.map fun e => e.1)) }
/-- Group `key` reads bytes: releases that it makes later carry the released values and the operands that it finds there (R233). -/
def State.readBy (s : State) (key n : Nat) (ls : List (Nat × Loc)) : State :=
  let touched (sp : Space) (a : Nat) : Bool := ls.any fun e => e.2.space = sp && (List.range n).any fun i => e.2.byteAt i == a
  { s with marks := s.marks.map fun m =>
      let found := m.seen.any (fun c => match c with | .location sp a => touched sp a | _ => false) ||
        match m.what with
        | .scratch c off k => (List.range k).any fun i => touched .scratch (scratchAddr m.tid c (off + i))
        | _ => false
      if found then { m with seen := addCarrier m.seen (.agent key) } else m }

/-- A write enters the core's view: the L1, scratchpads, and the stream to the die L2 or beyond
(R211, R224); poisoned data goes to the host as a poisoned TLP (R252). -/
def State.enterView (s : State) (core : Nat) (writer : Option Carrier) (w : QStore) : State :=
  match w.space with
  | .hbm => (s.l1Update core w).l2Accept (dieOf core) w
  | .stack => (s.l1Update core w).l2Apply (dieOf core) w true
  | .scratch =>
    ((s.setMem fun m => { m with scratch := Mem.writeAll m.scratch w.bytes, scratchPoison := poisonApply m.scratchPoison w }).dropInit
      w.bytes).markScratch writer w.bytes
  | .host =>
    let s := s.setMem fun m => { m with host := Mem.writeAll m.host w.bytes }
    match (w.bytes.filter fun e => w.poison.contains e.1).map fun e => e.1 with
    | [] => s
    | as => { s with msgs := s.msgs ++ [.poisonedWrite as] }
  | .remote => s.setMem fun m => { m with remote := Mem.writeAll m.remote w.bytes, remotePoison := poisonApply m.remotePoison w }

/-- What a FENCE.ar of group `key` has yet to wait for is done, before the group's next write
leaves it (R230). -/
def State.settleFence (s : State) (key : Nat) : State :=
  match mfind s.fenced key with
  | some die => ({ s with fenced := mdel s.fenced key } : State).flushDie die
  | none => s
/-- The oldest queued store of group `key` leaves its queue (R224). -/
def State.drainOne (s : State) (key : Nat) : State :=
  match mfind s.groups key with
  | none => s
  | some g =>
    match g.sq with
    | [] => s
    | w :: q => (((s.settleFence key).setGroup key { g with sq := q }).enterView g.core (some (.agent key)) w).wrote (some key) false w
/-- The store queue of group `key` drains. -/
def State.drain (s : State) (key : Nat) : State :=
  (List.range ((mget {} s.groups key).sq.length)).foldl (fun s _ => s.drainOne key) (s.settleFence key)

/-! ## Loads and stores of a group -/

/-- Whether an access looks in the L1 and fills it: at .core scope, and any stack access, for which
scopes have no effect (R211, R215). -/
def Loc.inL1 (l : Loc) (sc : Scope) : Bool := l.space = .stack || (l.space = .hbm && sc = .core)
/-- What a byte of local HBM or of a stack reads as before anything has written it (R211, R228). -/
def State.undefByte (s : State) (g : Group) (sp : Space) (a : Nat) : Byte :=
  if sp = .stack then Config.initByte 6 a g.stackEpoch else Config.initByte 0 a s.epoch
/-- A byte as a load at a scope is served (R211, R213, R215, R217). A load at .core takes a copy that
its L1 holds even after the group has read a newer write at a wider scope: R216, that the copy
stands, over R228, that no older read follows. DESIGN CHOICE. Log entry 35. -/
def State.loadByte (s : State) (g : Group) (sc : Scope) (l : Loc) (a : Nat) : Byte :=
  match forwarded g.sq l.space a with
  | some b => b
  | none =>
    match l.space with
    | .scratch => s.scratchByte a
    | .host => s.hostByte a
    | .remote => s.remoteByte a
    | sp =>
      match (if l.inL1 sc then s.mem.l1Find g.core (sectorOf a) else none) with
      | some c => (Mem.read c.data a).getD (s.undefByte g sp a)
      | none => (s.l2Read (dieOf g.core) a).getD (s.undefByte g sp a)
/-- Whether the host's completions poison a read of `n` bytes (R252). -/
def State.hostPoison (s : State) (a n : Nat) : Bool := (List.range n).any fun i => Config.hostPoisoned (a + i) s.clk
/-- Whether `n` bytes that a load at a scope reads are poisoned (R252). Host memory has no poison
bits: a byte that the group's own queue forwards is poisoned as it was stored, another as its completion says. -/
def State.loadPoison (s : State) (g : Group) (sc : Scope) (l : Loc) (n : Nat) : Bool :=
  let secs := l.sectors n
  let below (sec : Nat) : Bool :=
    match l.space with
    | .scratch => s.mem.scratchPoison.contains sec
    | .host => false
    | .remote => s.mem.remotePoison.contains sec
    | _ =>
      match (if l.inL1 sc then s.mem.l1Find g.core sec else none) with
      | some c => c.poison
      | none => s.l2Poison (dieOf g.core) sec
  if l.space = .host then
    (List.range n).any fun i => queuedPoison g.sq .host (l.addr + i) ((forwarded g.sq .host (l.addr + i)).isNone && Config.hostPoisoned (l.addr + i) s.clk)
  else secs.any fun c => queuedPoison g.sq l.space c (below c)
/-- The copies a load leaves behind: the die L2's, and the L1's unless the hint is .nal (R215, R253). -/
def State.loadFill (s : State) (g : Group) (sc : Scope) (l : Loc) (n : Nat) (nal : Bool) : State :=
  if l.space = .hbm || l.space = .stack then
    (l.sectors n).foldl (fun s c =>
      let s := s.l2Fill (dieOf g.core) c (l.dieCoh || l.space = .stack) g.vd
      if l.inL1 sc && !nal then s.l1Fill g.core c g.vd else s) s
  else s
/-- `n` bytes as a load at a scope reads them, and whether they are poisoned (R252, R254). -/
def State.loadN (s : State) (g : Group) (sc : Scope) (l : Loc) (n : Nat) : Nat × Bool :=
  (leNat ((List.range n).map fun i => s.loadByte g sc l (l.byteAt i)), s.loadPoison g sc l n)

/-- The sectors that a set of clean bytes covers whole (R252). -/
def wholeSectors (bs : List (Nat × Byte)) : List Nat :=
  (bs.foldl (fun l e => sins l (sectorOf e.1)) []).filter fun c =>
    decide (((bs.filter fun e => sectorOf e.1 == c).foldl (fun l e => sins l e.1) []).length = 256)
/-- The bytes of host memory that some lanes, in order, leave poisoned, or clean. -/
def hostMarks (bad : Bool) (ls : List (List (Nat × Byte) × Bool)) : List Nat :=
  ls.foldl (fun m e => e.1.foldl (fun m x => if e.2 = bad then sins m x.1 else sdel m x.1) m) []
/-- The queued store of one store instruction's lanes in one store and class, in ascending
lane order, so that the higher lane's byte remains (R223, R252). -/
def QStore.ofLanes (sp : Space) (dieCoh : Bool) (vd : Nat) (ls : List (List (Nat × Byte) × Bool)) (strm : Bool := false) : QStore :=
  let all := ls.flatMap fun e => e.1
  let bad := (ls.filter fun e => e.2).flatMap fun e => e.1
  let poison := if sp = .host then hostMarks true ls else bad.foldl (fun l e => sins l (sectorOf e.1)) []
  { space := sp, dieCoh := dieCoh, vd := vd, bytes := all, poison := poison, strm := strm,
    clear := if sp = .host then hostMarks false ls
             else (wholeSectors ((ls.filter fun e => !e.2).flatMap fun e => e.1)).filter fun c => !poison.contains c }

/-! ## RMWs (R235) -/

/-- The bytes and poison of a location where an RMW by a group is performed (R213, R235). -/
def State.pointRead (s : State) (g : Group) (l : Loc) (n : Nat) : Nat × Bool :=
  let rd (f : Nat → Byte) := leNat ((List.range n).map fun i => f (l.byteAt i))
  let secs := l.sectors n
  match l.space with
  | .hbm => if l.dieCoh then (rd (s.l2Byte (dieOf g.core)), secs.any (s.l2Poison (dieOf g.core)))
            else (rd s.hbmByte, secs.any s.mem.cisternPoison)
  | .stack => (rd fun a => (s.l2Read (dieOf g.core) a).getD (s.undefByte g .stack a), secs.any (s.l2Poison (dieOf g.core)))
  | .scratch => (rd s.scratchByte, secs.any s.mem.scratchPoison.contains)
  | .host => (rd s.hostByte, s.hostPoison l.addr n)
  | .remote => (rd s.remoteByte, secs.any s.mem.remotePoison.contains)
/-- A write performed at the cistern at once: both dies' copies of its sectors are invalidated, and
no L1 changes (R214, R216). -/
def State.cisternPut (s : State) (w : QStore) : State := ((s.cisternWrite w).l2Drop 0 w.sectors).l2Drop 1 w.sectors
/-- A write performed at that point at once; the other die's L2 copy and this die's are brought
up to date or dropped, and the core's own L1 copy is updated (R214, R215, R235). -/
def State.pointWrite (s : State) (g : Group) (w : QStore) : State :=
  match w.space with
  | .hbm =>
    let s := s.l1Update g.core w
    if w.dieCoh then s.l2Apply (dieOf g.core) w true else s.cisternPut w
  | _ => s.enterView g.core (some (.agent (g.tid * 4096 + g.grpid))) w
/-- The group's earlier writes are out of the way of an RMW: its store queue has drained (R222), and
before an RMW at the cistern the die's earlier writes have reached it, so that the group's own are
not coherence-after it (R228). R222 asks for the first alone. DEDUCED. Log entry 9. -/
def State.beforeRmw (s : State) (key : Nat) (l : Loc) : State :=
  let s := s.drain key
  if l.space = .hbm && !l.dieCoh then s.flushDie (dieOf (mget {} s.groups key).core) else s

/-! ## Binning and releases (R222, R304) -/

/-- A handed-over BINADD is performed: its lanes' RMWs at the cistern in ascending order, after the
group's earlier stores (R222, R228), the old counts in its destination; a lane with a poisoned count
or sector is dropped (R263, R304). -/
def State.binPerform (s : State) (b : BinOp) : State :=
  let s := (s.drain b.key).flushDie b.die
  let one (acc : List (Nat × DWord × Bool) × State) (l : Nat) : List (Nat × DWord × Bool) × State :=
    let s := acc.2
    let loc : Loc := { space := .hbm, addr := b.ctx + 4 * b.idx.getD l 0 }
    let (old, p) := s.pointRead {} loc 4
    if p || b.cdp.getLsbD l then
      (acc.1 ++ [(l, s.free l, true)],
       s.updVd b.vd fun v => { v with err := { v.err with atomdrop := if v.err.atomdrop = 0xFFFFFFFF then v.err.atomdrop else v.err.atomdrop + 1 } })
    else
      let w : QStore := { space := .hbm, dieCoh := false, vd := b.vd, poison := [], clear := [],
                          bytes := loc.bytes (leBytes 4 ((old + b.cnt.getD l 0) % 2 ^ 32)) }
      (acc.1 ++ [(l, BitVec.ofNat 64 old, false)], (s.cisternPut w).wrote (some b.key) true w)
  let (rs, s) := (lanesOf b.entry.pend).foldl one ([], s)
  let at' (l : Nat) : DWord × Bool := ((rs.find? fun r => r.1 == l).map fun r => r.2).getD (0, false)
  let fp := b.entry.fp
  let dp := (maskOf fun l => (at' l).2) ||| b.entry.dp
  let s := s.updGroup b.key fun g =>
    g.writeV b.entry.pend ⟨b.reg, .general ((List.range 32).map fun l => (at' l).1.setWidth 32), dp &&& ~~~fp, fp⟩
  { s with binops := s.binops.filter fun x => x.id != b.id }.bumpFree
/-- Every BINADD of a group is performed. -/
def State.binFinish (s : State) (key : Nat) : State := (s.binops.filter fun b => b.key == key).foldl State.binPerform s

/-- A group's earlier writes have reached the die's L2: what a release at .die waits for (R222). -/
def State.settleStores (s : State) (key : Nat) : State := (s.drain key).binFinish key
/-- What a release at a scope waits for is done (R222). The waits of R222 end inside the step
that waits. DEDUCED. Log entry 9. -/
def State.release (s : State) (key : Nat) (sc : Scope) : State :=
  let s := (s.settleStores key).publish key
  if sc.code < 3 then s else s.flushDie (dieOf (mget {} s.groups key).core)
/-- What an acquire at a scope does before the next access (R216, R222). -/
def State.acquire (s : State) (core : Nat) (sc : Scope) : State := if sc.code = 0 then s else s.l1Drop core

/-! ## Engine and front-end accesses (R238, R288) -/

/-- A byte of local HBM as an engine of a die reads it (R213, R238). -/
def State.engineByte (s : State) (die : Nat) (l : Loc) (a : Nat) : Byte :=
  match l.space with
  | .hbm => s.l2Byte die a
  | .stack => s.hbmByte a
  | .scratch => s.scratchByte a
  | .host => s.hostByte a
  | .remote => s.remoteByte a
/-- Whether `n` bytes at `a` of a located page are poisoned as an engine of a die reads them (R252). -/
def State.engineBad (s : State) (die : Nat) (l : Loc) (a n : Nat) : Bool :=
  match l.space with
  | .hbm => (sectorsOf a n).any (s.l2Poison die)
  | .stack => (sectorsOf a n).any s.mem.cisternPoison
  | .scratch => (sectorsOf a n).any s.mem.scratchPoison.contains
  | .host => s.hostPoison a n
  | .remote => (sectorsOf a n).any s.mem.remotePoison.contains
/-- An engine of a die writes: it uses no L1, and the write is performed at its point (R238). -/
def State.engineWrite (s : State) (die : Nat) (w : QStore) (who : Option Carrier := none) : State :=
  (match w.space with
  | .hbm =>
    if w.dieCoh then s.l2Apply die w true
    else (s.flushDie die).cisternPut w
  | .stack => s.cisternWrite w
  | _ => s.enterView 0 who w).wrote none false w
/-- A clean engine write of bytes at a location. -/
def QStore.plain (l : Loc) (vd : Nat) (bs : List Byte) (bad : Bool) : QStore :=
  let b := bytesAt l.addr bs
  { space := l.space, dieCoh := l.dieCoh, bytes := b, vd := vd,
    poison := if !bad then [] else if l.space = .host then b.map fun e => e.1 else b.foldl (fun l e => sins l (sectorOf e.1)) [],
    clear := if bad then [] else if l.space = .host then b.map fun e => e.1 else wholeSectors b }

end Sys2Proof.Machine
end

