-- ==== Sys2Proof/Machine/Xlate.lean ====
section
/-! DEFINITION. Xlate: windows, the two stages of translation, cached translations, dirty pages and their log (R209 to R212, R321 to R328), and the home's admission of remote accesses (R397, R398). -/
namespace Sys2Proof.Machine

/-- The windows of R209. -/
inductive Window where
  | global | stack | scratch | none
  deriving DecidableEq, Repr
def stackBase : Nat := 0xFFFFFE0000000000
def scratchBase : Nat := 0xFFFFFF0000000000
/-- The window of an address (R209). -/
def windowOf (a : Nat) : Window :=
  if a < 2 ^ 56 then .global
  else if stackBase ≤ a ∧ a < stackBase + 2 ^ 16 then .stack
  else if scratchBase ≤ a ∧ a < scratchBase + 2 ^ 22 then .scratch
  else .none
/-- The window that holds all `n` bytes at `a`; none where they span two windows or two cores'
parts of the scratchpad window (R209). -/
def windowOfN (a n : Nat) : Window :=
  let last := a + (n - 1)
  let w := windowOf a
  if windowOf last ≠ w then .none
  else if w = .scratch ∧ (a - scratchBase) / 2 ^ 18 ≠ (last - scratchBase) / 2 ^ 18 then .none
  else w

/-- Why a walk failed (R325): KIND, whether its entry lets the fault be replayed, the level, and
the GPA where the host stage failed (TBL where it failed on a guest entry). `bad`: the sector of an
entry that an error has damaged (R384). -/
structure XFault where
  kind : Nat
  repl : Bool := false
  level : Nat := 0
  gpav : Bool := false
  tbl : Bool := false
  gpa : Nat := 0
  bad : Option Nat := none
  deriving DecidableEq, Repr

/-! ## Page-table entries (R322, R323, R324) -/

/-- A level: its number, the lowest index bit, the index bits. -/
structure Level where
  n : Nat
  sh : Nat
  bits : Nat
  deriving DecidableEq, Repr
def levels : List Level := [⟨0, 48, 8⟩, ⟨1, 39, 9⟩, ⟨2, 30, 9⟩, ⟨3, 21, 9⟩, ⟨4, 16, 5⟩]
/-- Table bytes of a level (R322). -/
def tableBytes (n : Nat) : Nat := if n = 0 then 2048 else if n = 4 then 256 else 4096

def pteAddr (e : Nat) : Nat := fld e 55 8 * 256
/-- Whether a valid entry is malformed by R324; `own` is this device's number (R397). -/
def pteBad (host : Bool) (own : Nat) (lv : Level) (e : Nat) : Bool :=
  let a := pteAddr e
  if bit e 1 then
    fld e 7 2 != 0 || fld e 63 56 != 0 || lv.n == 4 || a % tableBytes (lv.n + 1) != 0 || (host && decide (2 ^ 39 ≤ a))
  else
    decide (lv.n < 2) || a % 2 ^ lv.sh != 0 ||
      (if host then
        fld e 63 58 != 0 || fld e 57 56 == 3 || (fld e 57 56 == 0 && decide (2 ^ 39 ≤ a))
          || (fld e 57 56 == 1 && (fld e 55 49 != 0 || fld e 48 39 == own))
      else bit e 5 || fld e 57 56 != 0)

/-- Whether permission bits R, W, X, D, WR refuse an access (R325); `some r` where they do, `r`
telling whether the fault is replayable. ACC 0 reads, 1 writes, 2 does both, 3 fetches. -/
def permRefuses (perm : BitVec 5) (acc : Nat) : Option Bool :=
  let noR := (acc == 0 || acc == 2) && !perm.getLsbD 0
  let noW := (acc == 1 || acc == 2) && !perm.getLsbD 1
  let noX := acc == 3 && !perm.getLsbD 2
  if noR || noX then some false else if noW then some (perm.getLsbD 4) else none

/-- The leaf a walk reached: its level, entry and where the entry lies. -/
structure Leaf where
  lv : Level
  e : Nat
  pa : Nat
  deriving DecidableEq, Repr

/-- The host stage on a GPA from a table in local HBM (R321, R324); an entry that an error has
damaged fails the walk with KIND 6 (R384). -/
def hostGo (s : State) (gpa : Nat) : List Level → Nat → Except XFault Leaf
  | [], _ => .error { kind := 6 }
  | lv :: ls, base =>
    let pa := base + 8 * (gpa / 2 ^ lv.sh % 2 ^ lv.bits)
    let e := s.hbmNat pa 8
    if s.mem.cisternPoison (sectorOf pa) then .error { kind := 6, level := lv.n, gpav := true, gpa := gpa, bad := some (sectorOf pa) }
    else if !bit e 0 then .error { kind := 4, repl := !bit e 1, level := lv.n, gpav := true, gpa := gpa }
    else if pteBad true s.devNum lv e then .error { kind := 6, level := lv.n, gpav := true, gpa := gpa }
    else if bit e 1 then hostGo s gpa ls (pteAddr e)
    else .ok ⟨lv, e, pa⟩
/-- Where a walk of a stage begins: after the deepest cached non-leaf entry for its address, or at
the root (R326). -/
def walkStart (s : State) (host : Bool) (vd asid a root : Nat) : List Level × Nat :=
  let v := s.vd vd
  let hit (e : WalkEnt) : Bool :=
    e.host == host && e.vd == vd && e.asid == asid && e.hgen == v.hgen && e.ggen == (if host then 0 else mget 0 v.ggen asid)
      && (levels.any fun lv => lv.n == e.level && e.pre == a / 2 ^ lv.sh)
  (s.walkCache.filter hit).foldl (fun b e => if levels.length - b.1.length ≤ e.level then (levels.drop (e.level + 1), e.next) else b) (levels, root)
/-- The host stage with its permission check (R325). A root outside local HBM, where HROOT must
point (R321), is malformed as a pointer there is. DEDUCED. Log entry 25. -/
def hostWalk (s : State) (vd gpa acc : Nat) : Except XFault Leaf := do
  let root := (s.vd vd).hroot.toNat
  let w := walkStart s true vd 0 gpa root
  let l ← if 2 ^ 39 < root + 2048 then .error { kind := 6, gpav := true, gpa := gpa } else hostGo s gpa w.1 w.2
  match permRefuses (BitVec.ofNat 5 (fld l.e 6 2)) acc with
  | some r => .error { kind := 5, repl := r, level := l.lv.n, gpav := true, gpa := gpa }
  | none => .ok l
/-- Where in its home a leaf places an address. -/
def Leaf.place (l : Leaf) (a : Nat) : Nat := pteAddr l.e + a % 2 ^ l.lv.sh

/-- The guest stage: each entry is read through the host stage (R321, R324, R325). -/
def guestGo (s : State) (vd va : Nat) : List Level → Nat → Except XFault Leaf
  | [], _ => .error { kind := 6 }
  | lv :: ls, base =>
    let eg := base + 8 * (va / 2 ^ lv.sh % 2 ^ lv.bits)
    match hostWalk s vd eg 0 with
    | .error x => .error { x with tbl := true, gpav := true, gpa := eg }
    | .ok h =>
      if fld h.e 57 56 ≠ 0 then .error { kind := 6, level := h.lv.n, gpav := true, tbl := true, gpa := eg }
      else
        let e := s.hbmNat (h.place eg) 8
        if s.mem.cisternPoison (sectorOf (h.place eg)) then .error { kind := 6, level := lv.n, bad := some (sectorOf (h.place eg)) }
        else if !bit e 0 then .error { kind := 2, repl := !bit e 1, level := lv.n }
        else if pteBad false s.devNum lv e then .error { kind := 6, level := lv.n }
        else if bit e 1 then guestGo s vd va ls (pteAddr e)
        else .ok ⟨lv, e, h.place eg⟩

/-- Both walks and their combination (R324). The translation is of the smaller of the two leaves,
which a format's groups are counted in (R115). DESIGN CHOICE. Log entry 35. -/
def walk (s : State) (vd asid va acc : Nat) : Except XFault TlbEntry := do
  let v := s.vd vd
  let w := walkStart s false vd asid va (mget 0 v.groot asid).toNat
  let g ← guestGo s vd va w.1 w.2
  let gp : BitVec 5 := BitVec.ofNat 5 (fld g.e 6 2)
  match permRefuses gp acc with
  | some r => .error { kind := 3, repl := r, level := g.lv.n }
  | none =>
    let gpa := g.place va
    let h ← hostWalk s vd gpa acc
    let size := min (2 ^ g.lv.sh) (2 ^ h.lv.sh)
    .ok { die := 0, core := none, vd := vd, asid := asid, hgen := v.hgen, ggen := mget 0 v.ggen asid, va := va / size * size,
          size := size, pa := h.place gpa / size * size, gpa := gpa / size * size, gsize := 2 ^ g.lv.sh, hsize := 2 ^ h.lv.sh,
          home := fld h.e 57 56, gperm := gp, hperm := BitVec.ofNat 5 (fld h.e 6 2), dc := bit g.e 7 || bit h.e 7,
          fmt := fld g.e 63 58, dirty := bit h.e 5, leaf := h.pa }

/-! ## Cached translations (R326, R327) -/

/-- The non-leaf entries that a walk of the host stage reads. -/
def hostPath (s : State) (vd gpa : Nat) : List Level → Nat → List WalkEnt
  | [], _ => []
  | lv :: ls, base =>
    let e := s.hbmNat (base + 8 * (gpa / 2 ^ lv.sh % 2 ^ lv.bits)) 8
    if bit e 0 && bit e 1 then ⟨true, vd, 0, (s.vd vd).hgen, 0, lv.n, gpa / 2 ^ lv.sh, pteAddr e⟩ :: hostPath s vd gpa ls (pteAddr e) else []
/-- The non-leaf entries that a walk of the guest stage reads, with those of the host stage that
its entries lie behind. -/
def guestPath (s : State) (vd asid va : Nat) : List Level → Nat → List WalkEnt
  | [], _ => []
  | lv :: ls, base =>
    let eg := base + 8 * (va / 2 ^ lv.sh % 2 ^ lv.bits)
    match hostWalk s vd eg 0 with
    | .error _ => []
    | .ok h =>
      let e := s.hbmNat (h.place eg) 8
      let w := walkStart s true vd 0 eg (s.vd vd).hroot.toNat
      hostPath s vd eg w.1 w.2 ++
        (if bit e 0 && bit e 1 then
          ⟨false, vd, asid, (s.vd vd).hgen, mget 0 (s.vd vd).ggen asid, lv.n, va / 2 ^ lv.sh, pteAddr e⟩ :: guestPath s vd asid va ls (pteAddr e)
         else [])
/-- The non-leaf entries that a successful walk to a GPA reads. -/
def walkPath (s : State) (vd asid va gpa : Nat) : List WalkEnt :=
  let v := s.vd vd
  let wg := walkStart s false vd asid va (mget 0 v.groot asid).toNat
  let wh := walkStart s true vd 0 gpa v.hroot.toNat
  guestPath s vd asid va wg.1 wg.2 ++ hostPath s vd gpa wh.1 wh.2
/-- A stage's walk cache keeps its newest 4,096 entries (R326). -/
def walkKeep (c : List WalkEnt) (e : WalkEnt) : List WalkEnt :=
  if c.contains e then c
  else
    let own := c.filter fun x => x.host == e.host
    let c := if own.length < 4096 then c else match own.getLast? with | some x => c.erase x | none => c
    e :: c
/-- A cached entry that a translation may use: of the agent's core, or of its die (R326). -/
def tlbHit (s : State) (die : Nat) (core : Option Nat) (vd asid va : Nat) (e : TlbEntry) : Bool :=
  let v := s.vd vd
  e.vd == vd && e.asid == asid && e.hgen == v.hgen && e.ggen == mget 0 v.ggen asid && decide (e.va ≤ va) && decide (va < e.va + e.size)
    && (match e.core with | some c => core == some c | none => e.die == die)
/-- The level of a leaf that maps pages of a size (R322). -/
def leafLevel (size : Nat) : Nat := if size = 2 ^ 16 then 4 else if size = 2 ^ 21 then 3 else 2
/-- The size of the page that a leaf of a level maps. -/
def leafSize (level : Nat) : Nat := if level = 4 then 2 ^ 16 else if level = 3 then 2 ^ 21 else 2 ^ 30
/-- A cache keeps its newest entries: 128 for a core, 8,192 for a die (R326). -/
def tlbKeep (t : List TlbEntry) (e : TlbEntry) : List TlbEntry :=
  let own := t.filter fun x => x.core == e.core && x.die == e.die
  let cap := if e.core.isSome then 128 else 8192
  let t := if own.length < cap then t else match own.getLast? with | some x => t.erase x | none => t
  e :: t
/-- A translation for an agent of a die, and of a core where it has one (R321, R325, R326). -/
def translate (s : State) (die : Nat) (core : Option Nat) (vd asid va acc : Nat) : Except XFault (TlbEntry × State) :=
  match s.tlb.find? (tlbHit s die core vd asid va) with
  | some e =>
    match permRefuses e.gperm acc, permRefuses e.hperm acc with
    | some r, _ => .error { kind := 3, repl := r, level := leafLevel e.gsize }
    | none, some r => .error { kind := 5, repl := r, level := leafLevel e.hsize, gpav := true, gpa := e.gpa + (va - e.va) }
    | none, none => .ok (e, s)
  | none =>
    match walk s vd asid va acc with
    | .error x => .error x
    | .ok e =>
      let e := { e with die := die }
      let t := tlbKeep s.tlb e
      .ok (e, { s with tlb := (match core with | some c => tlbKeep t { e with core := some c } | none => t),
                       walkCache := (walkPath s vd asid va (e.gpa + (va - e.va))).foldl walkKeep s.walkCache })

/-- The location of an address under a translation (R212, R217, R324, R397). -/
def TlbEntry.loc (e : TlbEntry) (va : Nat) : Loc :=
  let a := e.pa + (va - e.va)
  let sp : Space := if e.home = 0 then .hbm else if e.home = 1 then .remote else .host
  { space := sp, addr := a, dieCoh := e.home = 0 && !e.dc, fmt := e.fmt, page := e.pa, size := e.size }

/-- Whether the fault buffer is enabled: FBEN, treated as 0 when FBBASE is not a multiple of the ring's size (R330). -/
def VD.fbOn (v : VD) : Bool := v.fault.fben && v.fault.fbbase % (2048 * 2 ^ v.fault.fblog) == 0

/-! ## Remote pages (R397, R398) -/

/-- Whether an entry covers an access of `n` bytes at a physical address by a VD of a device. -/
def GrantEnt.covers (e : GrantEnt) (dev vd pa n : Nat) (w : Bool) : Bool :=
  e.sdev == dev && e.svd == vd && decide (e.base ≤ pa) && decide (pa + n ≤ e.base + 2 ^ (16 + e.slog)) && (e.w || !w)
/-- Whether the home of a remote address admits this device's access. DESIGN CHOICE. Log entry 6. -/
def State.homeAdmits (s : State) (vd addr n : Nat) (w : Bool) : Bool :=
  s.remoteGrants.any fun e => e.1 == addr / 2 ^ 39 && e.2.covers s.devNum vd (addr % 2 ^ 39) n w
/-- Whether an access to a location is admitted: always on this device and on the host, or where it covers no byte (R398). -/
def State.admits (s : State) (vd : Nat) (l : Loc) (r : Nat × Nat) (w : Bool) : Bool := l.space != .remote || r.2 == 0 || s.homeAdmits vd r.1 r.2 w

/-! ## Writes to a GPA, for the rings and blocks the device keeps for a VD

The spec does not say in which space the bases of a VD's rings lie: the model reads them as GPAs. DESIGN CHOICE. Log entry 8. -/

/-- A write at its point by a unit of the I/O die. -/
def State.ioWrite (s : State) (l : Loc) (vd : Nat) (bs : List Byte) : State := s.engineWrite 0 (QStore.plain l vd bs false)
/-- Bytes are written at a GPA through the host stage; where it does not map them, or their home
refuses the write (R398), nothing is written. -/
def State.writeGpa (s : State) (vd gpa : Nat) (bs : List Byte) : State :=
  match hostWalk s vd gpa 1 with
  | .error _ => s
  | .ok l =>
    let sp : Space := if fld l.e 57 56 = 0 then .hbm else if fld l.e 57 56 = 1 then .remote else .host
    let at' : Loc := { space := sp, addr := l.place gpa }
    if s.admits vd at' (at'.addr, bs.length) true then s.ioWrite at' vd bs else s
/-- Bytes are written to host memory at .sys. -/
def State.writeHost (s : State) (a : Nat) (bs : List Byte) : State := s.ioWrite { space := .host, addr := a } 0 bs

/-! ## Dirty pages (R328) -/

def FaultBlock.dlSize (f : FaultBlock) : Nat := 4096 * 2 ^ f.dllog
def FaultBlock.dlRoom (f : FaultBlock) : Bool := decide ((f.dlprod - f.dlcons).toNat < f.dlSize)
/-- D of a leaf is set with an RMW at the cistern, and the cached entry with it. -/
def State.setD (s : State) (e : TlbEntry) : State :=
  let b := s.hbmByte e.leaf ||| 0x20
  let s := s.cisternWrite { space := .hbm, dieCoh := false, bytes := [(e.leaf, b)], poison := [], clear := [], vd := e.vd }
  { s with tlb := s.tlb.map fun x => if x.leaf == e.leaf && x.vd == e.vd then { x with dirty := true } else x }
/-- A dirty-log entry: the GPA page base and the size code (R328). -/
def dirtyEntry (gpa size : Nat) : Nat := gpa / 65536 * 65536 + (if size = 2 ^ 16 then 0 else if size = 2 ^ 21 then 1 else 2)

end Sys2Proof.Machine
end

