-- ==== Sys2Proof/Machine/Faults.lean ====
section
/-! DEFINITION. Faults: interrupts, error records, and the fault buffer with its spillway (R329 to R334, R393 to R395, R430). -/
namespace Sys2Proof.Machine

/-! ## Interrupts (R430) -/

/-- The MSI-X vector of a function: masked until the host unmasks it. PRESUMED. Log entry 27. -/
def State.vector (s : State) (vf : Option Nat) (vec : Nat) : Vector :=
  (s.msix.find? fun v => v.vf == vf && v.vec == vec).getD ⟨vf, vec, true, false⟩
/-- A vector takes a new state. -/
def State.setVector (s : State) (v : Vector) : State :=
  { s with msix := s.msix.filter (fun w => !(w.vf == v.vf && w.vec == v.vec)) ++ [v] }
/-- An MSI-X message on a vector of a function; a masked vector keeps it pending, and later ones merge into it. -/
def State.sendMsix (s : State) (vf : Option Nat) (vec : Nat) : State :=
  let v := s.vector vf vec
  if v.mask then s.setVector { v with pend := true } else { s with msgs := s.msgs ++ [.msix vf vec] }
/-- A posting of interrupt source `src` of a VD is routed by its remap entry; source 7 is raised on
the PF (R426, R430). -/
def State.postIrq (s : State) (vd src : Nat) : State :=
  let e := (mget 0 (s.vd vd).remap src)
  if !e.getLsbD 0 then s
  else if e.getLsbD 1 then s.updVd vd fun v => { v with remap := mset v.remap src (e ||| 4) }
  else s.sendMsix (if e.getLsbD 3 || src == 7 then none else some vd) (fld e.toNat 13 8)
/-- A fault that is not replayable is raised to the VD's guest (R426). -/
def State.guestFault (s : State) (vd : Nat) : State := s.postIrq vd 1

/-! ## Freor's capabilities (R428, R429)

Each is derived from the pointer that it stands for, and holds its tag while that pointer is well
formed. DEDUCED. Log entry 33. -/

/-- A capability: Freor's own; no host or guest reads one. -/
structure Cap where
  base : Nat
  len : Nat
  perm : BitVec 4
  otype : BitVec 8
  tag : Bool := true
  deriving DecidableEq, Repr
/-- The 128 bits of a capability. -/
def Cap.bits (c : Cap) : BitVec 128 :=
  BitVec.ofNat 128 (c.base % 2 ^ 64 + c.len % 2 ^ 36 * 2 ^ 64 + c.perm.toNat * 2 ^ 100 + c.otype.toNat * 2 ^ 104)
/-- Whether `n` bytes at `a` may be accessed with the permission of bit `p` as an object of a type (R429). -/
def Cap.admits (c : Cap) (a n p : Nat) (otype : BitVec 8) : Bool :=
  c.tag && c.otype == otype && c.perm.getLsbD p && decide (c.base ≤ a) && decide (a + n ≤ c.base + c.len)
/-- The capability of an enabled ring, whose base is a multiple of its size. -/
def ringCap (en : Bool) (base size : Nat) (otype : BitVec 8) : Cap := ⟨base, size, 3, otype, en && base % size == 0⟩
/-- OTYPE 1 and 2: the ring and the status block of a packet queue. -/
def QEnt.ringCap (q : QEnt) : Cap := Machine.ringCap true q.ring (8192 * 2 ^ q.rlog) 1
def QEnt.statCap (q : QEnt) : Cap := Machine.ringCap true q.stat 64 2
/-- OTYPE 3: the slots of a VD's continuation queues, at the start of its save pool (R419). -/
def VD.contCap (v : VD) : Cap :=
  ⟨v.savebase, v.conts.foldl (fun n e => match e.2.charged with | some r => n + 8192 * 2 ^ r | none => n) 0, 3, 3, true⟩
/-- OTYPE 4: a team's save. -/
def SaveInfo.cap (v : SaveInfo) : Cap := ⟨v.addr, v.bytes, 3, 4, true⟩
/-- OTYPE 5 and 7: the fault ring and the dirty-log ring. -/
def VD.faultCap (v : VD) : Cap := Machine.ringCap v.fbOn v.fault.fbbase (2048 * 2 ^ v.fault.fblog) 5
def FaultBlock.dirtyCap (f : FaultBlock) : Cap := Machine.ringCap f.dlen f.dlbase (8 * f.dlSize) 7
/-- OTYPE 6: an error ring. -/
def ErrBlock.cap (b : ErrBlock) : Cap := Machine.ringCap b.eren b.erbase (4096 * 2 ^ b.erlog) 6
/-- OTYPE 8: the guest queue table. -/
def VD.tableCap (v : VD) : Cap := ⟨fld v.gqtbase.toNat 55 8 * 256, 32 * 8192, 1, 8, true⟩

/-! ## Error records (R393 to R395) -/

/-- SEQ after `q`: it never takes 0 (R330, R395). -/
def nextSeq (q : Word) : Word := if q = 0xFFFFFFFF then 1 else q + 1
/-- A saturating counter of a block is raised. -/
def satInc (x : Word) : Word := if x = 0xFFFFFFFF then x else x + 1

/-- What an error record says besides its ring, SEQ and time. -/
structure ErrInfo where
  cls : Nat := 0
  sev : Nat := 2
  die : Nat := 3
  vd : Option Nat := none
  addr : DWord := 0
  gname : DWord := 0
  pc : DWord := 0
  cause : Nat := 0
  core : Nat := 0
  td0 : Word := 0
  td1 : Word := 0
  td2 : Word := 0
  deriving DecidableEq, Repr

/-- The physical die that serves a logical die; 3 for the I/O die (R12, R393). -/
def State.physDie (s : State) (die : Nat) : Nat :=
  if die = 0 then fld s.remapWord.toNat 1 0 else if die = 1 then fld s.remapWord.toNat 5 4 else 3
/-- The 64 bytes of a record (R393): `phys` and `orig` are zero in a VD's ring. -/
def State.errBytes (s : State) (x : ErrInfo) (seq : Word) (phys : Nat) (orig : Word) : List Byte :=
  leBytes 4 seq.toNat ++ leBytes 1 x.cls ++ leBytes 1 (x.sev + x.die * 4 + phys * 16) ++
  leBytes 2 (match x.vd with | some v => v + (s.vd v).inc.toNat * 1024 | none => 16384) ++
  leBytes 8 x.addr.toNat ++ leBytes 8 x.gname.toNat ++ leBytes 8 x.pc.toNat ++ leBytes 4 (x.cause + x.core * 32) ++
  leBytes 4 x.td0.toNat ++ leBytes 4 x.td1.toNat ++ leBytes 4 x.td2.toNat ++ leBytes 8 s.ctime ++ leBytes 4 orig.toNat ++ leBytes 4 0

def ErrBlock.size (b : ErrBlock) : Nat := 64 * 2 ^ b.erlog
/-- Whether a record can be written now. -/
def ErrBlock.room (b : ErrBlock) : Bool := b.eren && b.cap.tag && decide ((b.erprod - b.ercons).toNat < b.size)
/-- Where the next record goes: record r at ERBASE + 64 × (r mod ring size). -/
def ErrBlock.slot (b : ErrBlock) : Nat := b.erbase + 64 * (b.erprod.toNat % b.size)
/-- The block after a record: SEQ counts it, written or lost. -/
def ErrBlock.count (b : ErrBlock) : ErrBlock :=
  let b := if b.room then { b with erprod := b.erprod + 1 } else { b with erlost := satInc b.erlost }
  { b with seq := nextSeq b.seq }

/-- A record goes to the device ring (R394, R395). -/
def State.errDevice (s : State) (x : ErrInfo) (orig : Word) : State :=
  let b := s.err
  let s := if b.room then s.writeHost b.slot (s.errBytes x b.seq (s.physDie x.die) orig) else s
  { s with err := b.count }
/-- A record goes to its owner's ring, with a copy in the device ring where it has a class; the
second component is the SEQ of the original (R393, R395). -/
def State.errRecord (s : State) (x : ErrInfo) : State × Word :=
  match x.vd with
  | none => (s.errDevice x 0, s.err.seq)
  | some v =>
    let b := (s.vd v).err
    let s := if b.room then s.writeGpa v b.slot (s.errBytes x b.seq 0 0) else s
    let s := s.updVd v fun d => { d with err := b.count }
    let s := s.postIrq v 4
    (if x.cls = 0 then s else s.errDevice x b.seq, b.seq)
/-- A counter of a VD's error block, or of the device's, changes. -/
def State.updErr (s : State) (vd : Option Nat) (f : ErrBlock → ErrBlock) : State :=
  match vd with
  | some v => s.updVd v fun d => { d with err := f d.err }
  | none => { s with err := f s.err }

/-- A capability fault outside packets and commands: no byte is accessed, and the VD's error ring
takes a record (R429). -/
def State.capFault (s : State) (vd : Nat) : State := (s.errRecord { vd := some vd, sev := 1 }).1
/-- A write of Freor's through a capability, at a GPA of a VD. -/
def State.capWrite (s : State) (vd : Nat) (c : Cap) (otype : BitVec 8) (gpa : Nat) (bs : List Byte) : State :=
  if c.admits gpa bs.length 1 otype then s.writeGpa vd gpa bs else s.capFault vd

/-! ## The dirty log (R328, R330) -/

/-- An entry is appended to the dirty-log ring and DLPROD advances; where that fills the ring,
DLFULL and DLEV are set and the exit is posted (R328, R330). -/
def State.dirtyAppend (s : State) (vd gpa size : Nat) : State :=
  let f := (s.vd vd).fault
  let s := s.capWrite vd f.dirtyCap 7 (f.dlbase + 8 * (f.dlprod.toNat % f.dlSize)) (leBytes 8 (dirtyEntry gpa size))
  let s := s.updVd vd fun v =>
    let f := { v.fault with dlprod := v.fault.dlprod + 1 }
    { v with fault := { f with dlfull := !f.dlRoom, dlev := f.dlev || !f.dlRoom } }
  if (s.vd vd).fault.dlfull then s.postIrq vd 3 else s

/-! ## The fault buffer (R329 to R334) -/

def FaultBlock.fbSize (f : FaultBlock) : Nat := 64 * 2 ^ f.fblog
def FaultBlock.fbRoom (f : FaultBlock) : Bool := decide ((f.fbprod - f.fbcons).toNat < f.fbSize)

/-- The core and quadrant an entry names: of the group, or of the group that issued the engine
work; 0xFF for the front end (R329). -/
def State.faultHome (s : State) (o : Origin) : Nat × Nat :=
  let ofKey (k : Nat) := let g := mget {} s.groups k; (g.core, g.quad)
  match o with
  | .group k => ofKey k
  | .engine c =>
    let key : Option Nat := match s.copies.find? fun x => x.id == c, s.colls.find? fun x => x.id == c, s.binjobs.find? fun x => x.id == c with
      | some x, _, _ => x.key
      | none, some x, _ => x.key
      | none, none, some x => some x.key
      | none, none, none => none
    match key with | some k => ofKey k | none => (0xFF, 0)
  | .frontEnd _ => (0xFF, 0)
/-- The 32 bytes of an entry (R329). -/
def FaultReq.bytes (r : FaultReq) (seq : Word) : List Byte :=
  leBytes 8 (seq.toNat + (r.kind + r.acc * 16 + r.src * 64 + r.asid * 1024 + b2n r.gpav * 16384 + b2n r.tbl * 32768 + r.level * 65536) * 2 ^ 32)
    ++ leBytes 8 r.va.toNat ++ leBytes 8 r.gpa.toNat ++ leBytes 4 (r.core + r.quad * 256) ++ leBytes 4 (if r.src = 0 then r.lanes.toNat else 0)
/-- A request enters the ring and is Held (R332). -/
def State.faultEnter (s : State) (vd : Nat) (r : FaultReq) : State × FaultReq :=
  let f := (s.vd vd).fault
  let s := s.capWrite vd (s.vd vd).faultCap 5 (f.fbbase + 32 * (f.fbprod.toNat % f.fbSize)) (r.bytes f.nextseq)
  let s := s.updVd vd fun v => { v with fault := { v.fault with fbprod := f.fbprod + 1, nextseq := nextSeq f.nextseq } }
  (s.postIrq vd 1, { r with token := some f.nextseq })
/-- A detected replayable fault enters the ring, or spills when the ring is full or another
request is spilled (R331, R332). -/
def State.faultRaise (s : State) (vd : Nat) (r : FaultReq) : State :=
  let f := (s.vd vd).fault
  let h := s.faultHome r.origin
  let r := { r with core := h.1, quad := h.2 }
  if f.fbRoom && !(f.reqs.any fun q => q.token == none && !q.failed) then
    let (s, r) := s.faultEnter vd r
    s.updVd vd fun v => { v with fault := { v.fault with reqs := v.fault.reqs ++ [r] } }
  else
    let s := s.updVd vd fun v => { v with fault := { v.fault with reqs := v.fault.reqs ++ [r], ovfcnt := satInc v.fault.ovfcnt, ovfp := true } }
    if f.ovfp then s else s.postIrq vd 2
/-- Whether a token is one of the 2^20 issued last; SEQ skips 0 (R330, R334). -/
def FaultBlock.recent (f : FaultBlock) (tok : Word) : Bool :=
  let d := (f.nextseq - tok).toNat - b2n (decide (f.nextseq.toNat < tok.toNat))
  decide (0 < d) && decide (d ≤ 2 ^ 20)
/-- Requests held or spilled, as the fault block's HELD counts them (R330). -/
def FaultBlock.heldCount (f : FaultBlock) : Nat := (f.reqs.filter fun r => !r.failed).length
/-- Spilled requests enter in detection order while room lasts (R332). -/
def State.faultAdmit (s : State) (vd : Nat) : List FaultReq → State
  | [] => s
  | r :: rs =>
    if r.token = none && !r.failed && (s.vd vd).fault.fbRoom then
      let (s, r') := s.faultEnter vd r
      let s := s.updVd vd fun v => { v with fault := { v.fault with reqs := v.fault.reqs.map fun q => if q = r then r' else q } }
      s.faultAdmit vd rs
    else s.faultAdmit vd rs
/-- Held and spilled requests of an origin are discarded; their ring entries stay (R332). -/
def State.faultDiscard (s : State) (vd : Nat) (p : FaultReq → Bool) : State :=
  s.updVd vd fun v => { v with fault := { v.fault with reqs := v.fault.reqs.filter fun r => !p r } }
/-- The requests of a group's current instruction. -/
def State.groupReqs (s : State) (key : Nat) : List FaultReq :=
  (s.vd (mget {} s.groups key).vd).fault.reqs.filter fun r => r.origin = .group key && !r.deferred && r.parked.isNone
/-- The requests of a group's stopped instruction, at `pc`, or of its fetch, stay Held while the
group is in its handler: only an unwind or an unhandled trap abandons them (R53, R332). -/
def State.park (s : State) (vd key : Nat) (pc : DWord) : State :=
  s.updVd vd fun v =>
    let stop (r : FaultReq) : FaultReq :=
      if r.origin == .group key && !r.deferred && r.parked.isNone then { r with parked := some (if r.src = 2 then r.va else pc) } else r
    { v with fault := { v.fault with reqs := v.fault.reqs.map stop } }
/-- The instruction at `pc` runs on, and has the requests again that it left. -/
def State.unpark (s : State) (vd key : Nat) (pc : DWord) : State :=
  let mine (r : FaultReq) : Bool := r.origin == .group key && r.parked == some pc
  if (s.vd vd).fault.reqs.any mine then
    s.updVd vd fun v => { v with fault := { v.fault with reqs := v.fault.reqs.map fun r => if mine r then { r with parked := none } else r } }
  else s
/-- A request for a fault a walk met (R331). -/
def faultReq (o : Origin) (x : XFault) (acc src asid : Nat) (va : DWord) (lanes : Word) : FaultReq :=
  { origin := o, token := none, failed := false, deferred := false, kind := x.kind, acc := acc, src := src, asid := asid,
    gpav := x.gpav, tbl := x.tbl, level := x.level, va := va, gpa := BitVec.ofNat 64 x.gpa, lanes := lanes }

/-- Whether a unit's work waits for the pager (R302, R332). -/
def State.jobPaged (s : State) (vd : Nat) (o : Origin) : Bool := (s.vd vd).fault.reqs.any fun r => r.origin == o && !r.failed

end Sys2Proof.Machine
end

