-- ==== Sys2Proof/Machine/Fp.lean ====
section
/-! DEFINITION. Fp: the floating-point formats, the exact values they stand for, rounding, conversions and the exact operations (R101 to R108, R112, R196 to R201). -/
namespace Sys2Proof.Fp

/-- A floating-point format: exponent bits, fraction bits, bias, and whether it is E4M3 (R101, R102). -/
structure FFmt where
  ew : Nat
  fw : Nat
  bias : Nat
  e4m3 : Bool := false
  flush : Bool := false
  deriving DecidableEq, Repr

def f64 : FFmt := { ew := 11, fw := 52, bias := 1023 }
def f32 : FFmt := { ew := 8, fw := 23, bias := 127 }
def f16 : FFmt := { ew := 5, fw := 10, bias := 15 }
def bf16 : FFmt := { ew := 8, fw := 7, bias := 127, flush := true }
def e4m3 : FFmt := { ew := 4, fw := 3, bias := 7, e4m3 := true }
def e5m2 : FFmt := { ew := 5, fw := 2, bias := 15 }
/-- The format of a float type; FP32 for the others. -/
def ofTy : Ty → FFmt
  | .f64 => f64 | .f16 => f16 | .bf16 => bf16 | .e4m3 => e4m3 | .e5m2 => e5m2
  | _ => f32

def FFmt.width (f : FFmt) : Nat := 1 + f.ew + f.fw
/-- The bits of the largest finite value (R101, R102). -/
def FFmt.maxFin (f : FFmt) : Nat := if f.e4m3 then 0x7E else (2 ^ f.ew - 1) * 2 ^ f.fw - 1
/-- The bits of +∞; E4M3 has none (R102). -/
def FFmt.infBits (f : FFmt) : Nat := (2 ^ f.ew - 1) * 2 ^ f.fw
/-- `qnan` of R89. -/
def FFmt.qnan (f : FFmt) : Nat := if f.e4m3 then 0x7F else f.infBits + 2 ^ (f.fw - 1)
def FFmt.signBit (f : FFmt) : Nat := 2 ^ (f.ew + f.fw)

/-- What bits stand for: a signed zero, a nonzero real m × 2^e, an infinity or NaN (R89). -/
inductive FVal where
  | zero (neg : Bool)
  | fin (neg : Bool) (m : Nat) (e : Int)
  | inf (neg : Bool)
  | nan
  deriving DecidableEq, Repr

/-- The classes of FCLASS (R200): the bit number. -/
def fclass (f : FFmt) (x : Nat) : Nat :=
  let neg := bit x (f.ew + f.fw)
  let mag := x % f.signBit
  let nan := if f.e4m3 then mag == 0x7F else decide (f.infBits < mag)
  if nan then 8
  else if !f.e4m3 && mag == f.infBits then (if neg then 0 else 7)
  else if mag = 0 then (if neg then 3 else 4)
  else if mag < 2 ^ f.fw then (if neg then 2 else 5)
  else if neg then 1 else 6

/-- `fp_val` of R89, with the input subnormal rule (R103). -/
def val (f : FFmt) (x : Nat) : FVal :=
  let neg := bit x (f.ew + f.fw)
  let mag := x % f.signBit
  match fclass f x with
  | 8 => .nan
  | 0 | 7 => .inf neg
  | 3 | 4 => .zero neg
  | 2 | 5 => if f.flush then .zero neg else .fin neg mag (1 - (f.bias : Int) - f.fw)
  | _ => .fin neg (mag % 2 ^ f.fw + 2 ^ f.fw) ((mag / 2 ^ f.fw : Nat) - (f.bias : Int) - f.fw)

/-- Whether the magnitude hi + lo / 2^sh is rounded up (R105). -/
def roundUp (m : Rnd) (neg : Bool) (hi lo sh : Nat) : Bool :=
  match m with
  | .rn => decide (2 ^ sh < 2 * lo) || (2 * lo == 2 ^ sh && hi % 2 == 1)
  | .rz => false
  | .ru => !neg && lo != 0
  | .rd => neg && lo != 0
/-- m × 2^e as a multiple of 2^q, rounded (R105); two bits past the top of m decide as all lower ones do. -/
def quantize (r : Rnd) (neg : Bool) (m : Nat) (e q : Int) : Nat :=
  if q ≤ e then m * 2 ^ (e - q).toNat
  else
    let sh := min (q - e).toNat (Nat.log2 m + 3)
    m / 2 ^ sh + b2n (roundUp r neg (m / 2 ^ sh) (m % 2 ^ sh) sh)

/-- The result of an overflow (R106). -/
def overflow (f : FFmt) (r : Rnd) (neg : Bool) : Nat :=
  let s := if neg then f.signBit else 0
  if f.e4m3 then s + f.maxFin
  else match r, neg with
    | .rn, _ => s + f.infBits
    | .rz, _ => s + f.maxFin
    | .ru, false => f.infBits
    | .ru, true => s + f.maxFin
    | .rd, false => f.maxFin
    | .rd, true => s + f.infBits

/-- A nonzero real rounded once to the format (R105, R106). -/
def encFin (f : FFmt) (r : Rnd) (neg : Bool) (m : Nat) (e : Int) : Nat :=
  let top : Int := Nat.log2 m + e
  let q := max (top - f.fw) (1 - (f.bias : Int) - f.fw)
  let sig := quantize r neg m e q
  let (sig, q) := if 2 ^ (f.fw + 1) ≤ sig then (sig / 2, q + 1) else (sig, q)
  let mag := if sig < 2 ^ f.fw then sig else ((q + f.fw + f.bias).toNat - 1) * 2 ^ f.fw + sig
  if f.maxFin < mag then overflow f r neg else (if neg then f.signBit else 0) + mag

/-- `fp_enc` of R89. -/
def enc (f : FFmt) (r : Rnd) : FVal → Nat
  | .zero neg => if neg then f.signBit else 0
  | .fin neg m e => if m = 0 then (if neg then f.signBit else 0) else encFin f r neg m e
  | .inf neg => (if neg then f.signBit else 0) + (if f.e4m3 then f.maxFin else f.infBits)
  | .nan => f.qnan

/-! ## Exact operations (R107, R196, R197) -/

def FVal.neg : FVal → FVal
  | .zero s => .zero !s | .fin s m e => .fin (!s) m e | .inf s => .inf !s | .nan => .nan
/-- A signed integer times 2^e; zero takes the sign `z`. -/
def ofInt (x : Int) (e : Int) (z : Bool) : FVal := if x = 0 then .zero z else .fin (decide (x < 0)) x.natAbs e
/-- The signed integer of m × 2^e over 2^q, for q ≤ e. -/
def scaled (neg : Bool) (m : Nat) (e q : Int) : Int :=
  let x : Int := (m * 2 ^ (e - q).toNat : Nat)
  if neg then -x else x
/-- A sum; an exact zero follows R107. -/
def add (r : Rnd) : FVal → FVal → FVal
  | .nan, _ => .nan
  | _, .nan => .nan
  | .inf s, .inf t => if s = t then .inf s else .nan
  | .inf s, _ => .inf s
  | _, .inf t => .inf t
  | .zero s, .zero t => if s = t then .zero s else .zero (r = .rd)
  | .zero _, y => y
  | x, .zero _ => x
  | .fin s m e, .fin t n f =>
    let q := min e f
    ofInt (scaled s m e q + scaled t n f q) q (r = .rd)
/-- A product. -/
def mul : FVal → FVal → FVal
  | .nan, _ => .nan
  | _, .nan => .nan
  | .inf _, .zero _ => .nan
  | .zero _, .inf _ => .nan
  | .inf s, .inf t => .inf (s ^^ t)
  | .inf s, .fin t _ _ => .inf (s ^^ t)
  | .fin s _ _, .inf t => .inf (s ^^ t)
  | .zero s, .zero t => .zero (s ^^ t)
  | .zero s, .fin t _ _ => .zero (s ^^ t)
  | .fin s _ _, .zero t => .zero (s ^^ t)
  | .fin s m e, .fin t n f => .fin (s ^^ t) (m * n) (e + f)
/-- A quotient, kept to 80 bits with a sticky bit below, which decides every later rounding. -/
def div : FVal → FVal → FVal
  | .nan, _ => .nan
  | _, .nan => .nan
  | .inf _, .inf _ => .nan
  | .zero _, .zero _ => .nan
  | .inf s, .zero t => .inf (s ^^ t)
  | .inf s, .fin t _ _ => .inf (s ^^ t)
  | .zero s, .inf t => .zero (s ^^ t)
  | .fin s _ _, .inf t => .zero (s ^^ t)
  | .zero s, .fin t _ _ => .zero (s ^^ t)
  | .fin s _ _, .zero t => .inf (s ^^ t)
  | .fin s m e, .fin t n f =>
    let k := 80 + Nat.log2 n
    let num := m * 2 ^ k
    .fin (s ^^ t) (num / n * 2 + b2n (num % n != 0)) (e - f - k - 1)
/-- 1 / x (R197). -/
def rcp (x : FVal) : FVal := div (.fin false 1 0) x

/-- Floor of the square root: `k` more bits below `r`. -/
def isqrtGo : Nat → Nat → Nat → Nat
  | 0, _, r => r
  | k + 1, n, r => let c := r + 2 ^ k; if c * c ≤ n then isqrtGo k n c else isqrtGo k n r
/-- Floor of the square root of a number. -/
def isqrt (n : Nat) : Nat := isqrtGo (Nat.log2 n / 2 + 1) n 0
/-- A square root with a sticky bit (R197). -/
def sqrt : FVal → FVal
  | .nan => .nan
  | .zero s => .zero s
  | .inf s => if s then .nan else .inf false
  | .fin true _ _ => .nan
  | .fin false m e =>
    let odd := (e % 2).toNat
    let n := m * 2 ^ (odd + 160)
    let r := isqrt n
    .fin false (r * 2 + b2n (r * r != n)) ((e - odd - 160) / 2 - 1)
/-- 1 / √x with a sticky bit (R197). -/
def rsqrt : FVal → FVal
  | .nan => .nan
  | .zero s => .inf s
  | .inf s => if s then .nan else .zero false
  | .fin true _ _ => .nan
  | .fin false m e =>
    let odd := (e % 2).toNat
    let n := m * 2 ^ odd
    let k := 100 + Nat.log2 n
    let r := isqrt (2 ^ (2 * k) / n)
    .fin false (r * 2 + b2n (r * r * n != 2 ^ (2 * k))) (-(e - odd) / 2 - k - 1)
/-- x × 2^k (R196, R197). -/
def scale (x : FVal) (k : Int) : FVal :=
  match x with
  | .fin s m e => .fin s m (e + k)
  | x => x

/-- x rounded to an integer in a mode, as a signed integer (R112, R201). -/
def toInt (r : Rnd) (neg : Bool) (m : Nat) (e : Int) : Int :=
  let n : Int := (quantize r neg m e 0 : Nat)
  if neg then -n else n
/-- FRND (R201). -/
def rndInt (r : Rnd) : FVal → FVal
  | .fin s m e => ofInt (toInt r s m e) 0 s
  | x => x
/-- FFRAC: x − trunc(x), a zero with x's sign where it is integral (R197, R201). -/
def frac : FVal → FVal
  | .fin s m e =>
    if 0 ≤ e then .zero s
    else let lo := m % 2 ^ (-e).toNat; if lo = 0 then .zero s else .fin s lo e
  | .inf _ => .nan
  | x => x

/-! ## Order (R198, R199) -/

/-- x < y for values that are not NaN, zeros equal. -/
def lt (x y : FVal) : Bool :=
  match x, y with
  | .nan, _ => false
  | _, .nan => false
  | .inf s, .inf t => s && !t
  | .inf s, _ => s
  | _, .inf t => !t
  | .zero _, .zero _ => false
  | .zero _, .fin t _ _ => !t
  | .fin s _ _, .zero _ => s
  | .fin s m e, .fin t n f => let q := min e f; decide (scaled s m e q < scaled t n f q)
def isNan : FVal → Bool
  | .nan => true | _ => false
/-- −0 below +0. -/
def negZero : FVal → Bool
  | .zero true => true | _ => false
def posZero : FVal → Bool
  | .zero false => true | _ => false
/-- FMIN on bits (R198); at BF16 an operand is compared as it is read. -/
def fmin (f : FFmt) (x y : Nat) : Nat :=
  let a := val f x
  let b := val f y
  if isNan a && isNan b then f.qnan
  else if isNan a then y else if isNan b then x
  else if lt b a || (negZero b && posZero a) then y else x
/-- FMAX on bits (R198). -/
def fmax (f : FFmt) (x y : Nat) : Nat :=
  let a := val f x
  let b := val f y
  if isNan a && isNan b then f.qnan
  else if isNan a then y else if isNan b then x
  else if lt a b || (negZero a && posZero b) then y else x

/-! ## Conversions (R112) -/

/-- A float to an integer of `n` bits: rounded, then clamped; NaN gives 0. -/
def toIntClamped (r : Rnd) (signed : Bool) (n : Nat) : FVal → Nat
  | .nan => 0
  | .zero _ => 0
  | .inf s =>
    if signed then (if s then 2 ^ (n - 1) else 2 ^ (n - 1) - 1) else if s then 0 else 2 ^ n - 1
  | .fin s m e => if signed then satS (toInt r s m e) n else satU (toInt r s m e) n
/-- An integer to a float. -/
def ofIntEnc (f : FFmt) (r : Rnd) (x : Int) : Nat := enc f r (ofInt x 0 false)

end Sys2Proof.Fp
end

