-- ==== Sys2Proof/Machine/Flags.lean ====
section
/-! DEFINITION. Flags: every computation that sets a predicate, a mask or a status: comparisons of integers and floats, the counts and codes of the status words (R137, R152, R199, R269, R277, R318). -/
namespace Sys2Proof

/-- A value read at a type: sext at .s types, zext otherwise (R165, R187). -/
def Ty.int (t : Ty) (x : Nat) : Int := if t.isS then sext x t.width else (zext x t.width : Nat)

/-- The comparisons of R137. -/
def Cmp.holds (c : Cmp) (x y : Int) : Bool :=
  match c with
  | .eq => x == y | .ne => x != y | .lt => decide (x < y) | .le => decide (x ≤ y) | .gt => decide (y < x) | .ge => decide (y ≤ x)
/-- Two float values are equal, −0 equal to +0; a NaN equals nothing. -/
def Fp.eq (x y : Fp.FVal) : Bool := !Fp.isNan x && !Fp.isNan y && !Fp.lt x y && !Fp.lt y x
/-- The comparisons of R199. -/
def FCmp.holds (c : FCmp) (x y : Fp.FVal) : Bool :=
  let ord := !Fp.isNan x && !Fp.isNan y
  match c with
  | .eq => Fp.eq x y
  | .ne => !Fp.eq x y
  | .lt => ord && Fp.lt x y
  | .le => ord && !Fp.lt y x
  | .gt => ord && Fp.lt y x
  | .ge => ord && !Fp.lt x y
  | .num => ord
  | .nan => !ord
/-- The comparisons of SIGWAIT and WAIT packets, unsigned (R271, R365). -/
def SigCmp.holds (c : SigCmp) (x y : DWord) : Bool :=
  match c with
  | .ge => decide (y ≤ x) | .eq => x == y | .ne => x != y

/-- A number clamped to `n` bits, as the saturating counters do. -/
def satCount (n x : Nat) : Nat := min x (2 ^ n - 1)

end Sys2Proof
end

