-- ==== Sys2Proof/Machine/Formats.lean ====
section
/-! DEFINITION. Formats: page formats, quantized pages and the elements the typed paths read and write (R110, R112 to R119, R258). -/
namespace Sys2Proof.Machine

/-- ELEM and GRP of a format code (R113). -/
def fmtElem (f : Nat) : Nat := fld f 3 0
def fmtGrp (f : Nat) : Nat := fld f 5 4
/-- A valid code (R113). -/
def fmtValid (f : Nat) : Bool :=
  decide (fmtElem f ≤ 12) && decide (f < 64) && ((fmtGrp f != 0) == (fmtElem f == 11 || fmtElem f == 12))
/-- Bits of an element of a format; RAW has none. -/
def elemBits (elem : Nat) : Nat :=
  match elem with
  | 1 => 64 | 2 => 32 | 3 | 4 => 16 | 5 | 6 | 7 | 8 | 11 => 8 | 9 | 10 | 12 => 4 | _ => 0
/-- Unit bytes of a typed access (R258). -/
def elemUnit (elem : Nat) : Nat := max 1 (elemBits elem / 8)
def fmtQuant (f : Nat) : Bool := fmtElem f == 11 || fmtElem f == 12
/-- The floating-point format of an element. -/
def elemFp (elem : Nat) : Option Fp.FFmt :=
  match elem with
  | 1 => some Fp.f64 | 2 => some Fp.f32 | 3 => some Fp.f16 | 4 => some Fp.bf16 | 5 => some Fp.e4m3 | 6 => some Fp.e5m2 | _ => none
/-- Whether an integer element is signed. -/
def elemSigned (elem : Nat) : Bool := elem == 7 || elem == 9

/-! ## Quantized pages (R115, R116) -/

/-- Group length, element bytes of a group, and superblock bytes. -/
def qLen (f : Nat) : Nat := 16 * 2 ^ fmtGrp f
def qBytes (f : Nat) : Nat := qLen f * elemBits (fmtElem f) / 8
def qSuper (f : Nat) : Nat := 64 * qBytes f + 256
/-- Whether a byte offset in a page of `size` bytes holds elements, not metadata or padding. -/
def qHolds (f size off : Nat) : Bool := decide (off / qSuper f < size / qSuper f) && decide (off % qSuper f < 64 * qBytes f)
/-- The offset of the metadata entry of the group that holds a byte offset. -/
def qMeta (f off : Nat) : Nat := off / qSuper f * qSuper f + 64 * qBytes f + off % qSuper f / qBytes f * 4
/-- The byte offset in a page of element `e`, and whether it is the high nibble (R110, R115). -/
def qElem (f e : Nat) : Nat × Bool :=
  let j := e / qLen f
  let w := elemBits (fmtElem f)
  (j / 64 * qSuper f + j % 64 * qBytes f + e % qLen f * w / 8, w == 4 && e % 2 == 1)
/-- Elements in a page of `size` bytes. -/
def pageElems (f size : Nat) : Nat :=
  if fmtQuant f then size / qSuper f * 64 * qLen f else if elemBits (fmtElem f) = 0 then 0 else size * 8 / elemBits (fmtElem f)
/-- Bits of an element as the copy engines count them: RAW has 8 (R292). -/
def copyBits (f : Nat) : Nat := if fmtElem f = 0 then 8 else elemBits (fmtElem f)
/-- Elements in a page as a tensor continues over it (R292). -/
def tensorElems (f size : Nat) : Nat := if fmtElem f = 0 then size else pageElems f size
/-- The element at a byte offset of a page of `size` bytes, where one begins there: none in the
padding and the metadata of a Q page (R115, R119). -/
def elemAt (f size off : Nat) : Option Nat :=
  if fmtQuant f then
    if qHolds f size off then some ((off / qSuper f * 64 + off % qSuper f / qBytes f) * qLen f + off % qSuper f % qBytes f * 8 / copyBits f)
    else none
  else if off * 8 % copyBits f = 0 then some (off * 8 / copyBits f) else none
/-- The byte offset of an element in its page, and whether it is the high nibble. -/
def elemPlace (f e : Nat) : Nat × Bool :=
  if fmtQuant f then qElem f e else (e * copyBits f / 8, copyBits f == 4 && e % 2 == 1)
/-- The value of an element code under a metadata word (R117). A zero takes SCALE's sign, the
integer factor 0 counting as +0. DESIGN CHOICE. Log entry 35. -/
def qValue (f q meta' : Nat) : Fp.FVal :=
  let zp := if fmtElem f = 12 then fld meta' 19 16 else fld meta' 23 16
  Fp.mul (Fp.val Fp.f16 (meta' % 2 ^ 16)) (Fp.ofInt ((q : Int) - zp) 0 false)

/-! ## Typed elements (R258) -/

/-- Whether a typed load or store accepts a type and .e2 on a page format. The row of S8 and Z8
accepts both integer types. DEDUCED. Log entry 18. -/
def typedOk (f : Nat) (ty : Ty) (e2 load : Bool) : Bool :=
  let elem := fmtElem f
  let int := ty = .s32 || ty = .z32
  fmtValid f && e2 == (elemBits elem == 4) &&
    (if (elemFp elem).isSome then ty.isF
     else if elem = 7 ∨ elem = 8 ∨ elem = 9 ∨ elem = 10 then int || (load && ty = .f32)
     else if elem = 11 then ty = .q8 || (load && ty = .f32)
     else if elem = 12 then ty = .q4 || (load && ty = .f32)
     else false)
/-- The register value of one element (LDT). An F64 element loaded as .f64 keeps its bits, a
NaN's too. DESIGN CHOICE. Log entry 35. -/
def typedLoad (f : Nat) (ty : Ty) (m : Rnd) (x meta' : Nat) : Nat :=
  let elem := fmtElem f
  match elemFp elem with
  | some fm =>
    if (elem = 1 ∧ ty = .f64) ∨ (elem = 2 ∧ ty = .f32) then x
    else Fp.enc (Fp.ofTy ty) m (Fp.val fm x)
  | none =>
    if fmtQuant f then (if ty = .f32 then Fp.enc Fp.f32 .rn (qValue f x meta') else x)
    else
      let v : Int := if elemSigned elem then sext x (elemBits elem) else (zext x (elemBits elem) : Nat)
      if ty = .f32 then Fp.ofIntEnc Fp.f32 .rn v else wrap v 32
/-- The element bits of one register value (STT). -/
def typedStore (f : Nat) (ty : Ty) (m : Rnd) (sat : Bool) (x : Nat) : Nat :=
  let elem := fmtElem f
  match elemFp elem with
  | some fm =>
    if (elem = 1 ∧ ty = .f64) ∨ (elem = 2 ∧ ty = .f32) then x
    else Fp.enc fm m (Fp.val (Fp.ofTy ty) x)
  | none =>
    let n := elemBits elem
    if fmtQuant f then satU x n
    else if sat then (if elemSigned elem then satS (ty.int x) n else satU (ty.int x) n)
    else wrap (ty.int x) n

end Sys2Proof.Machine
end

