-- ==== Sys2Proof/Machine/Image.lean ====
section
/-! DEFINITION. Image: continuation records, the words that report a group's and a team's state, replay entries, and the save image of a team (R32, R33, R47, R152, R277, R318, R339, R344 to R348). -/
namespace Sys2Proof.Machine

/-! ## Records (R32, R33) -/

/-- Roles are numbered general, copy, matrix, vector (R28). -/
def Role.code : Role → Nat
  | .general => 0 | .copy => 1 | .matrix => 2 | .vector => 3 | .stream => 4
def recFld (r : BitVec 512) (hi lo : Nat) : Nat := fld r.toNat hi lo
def recCode (r : BitVec 512) : Nat := recFld r 63 0
def recMstream (r : BitVec 512) : Bool := r.getLsbD 164
def recBundle (r : BitVec 512) : Nat := recFld r 255 192
/-- The record with its join counter, which hardware decrements on JOIN (R32). -/
def recSetJoin (r : BitVec 512) (j : Nat) : BitVec 512 :=
  BitVec.ofNat 512 (r.toNat - recFld r 159 128 * 2 ^ 128 + j % 2 ^ 32 * 2 ^ 128)
/-- The join counter of a queued record (R32, R36). -/
def CRecord.join (r : CRecord) : Nat := recFld r.record 159 128
/-- The role entry of a role: its groups, N, M and entry offset. -/
def recGcount (r : BitVec 512) (k : Nat) : Nat := recFld r (256 + 64 * k + 11) (256 + 64 * k)
def recNgen (r : BitVec 512) (k : Nat) : Nat := recFld r (256 + 64 * k + 21) (256 + 64 * k + 12)
def recNcmp (r : BitVec 512) (k : Nat) : Nat := recFld r (256 + 64 * k + 31) (256 + 64 * k + 22)
def recEntry (r : BitVec 512) (k : Nat) : Nat := recFld r (256 + 64 * k + 63) (256 + 64 * k + 32)

/-! ## Status words -/

/-- The region status word (R152). -/
def Group.crWord (g : Group) : DWord :=
  BitVec.ofNat 64 (g.regions.length + g.lcause.toNat * 8 + b2n g.unw * 256 + g.unwcnt * 65536)
/-- The send status word (R277). -/
def SendStatus.word (x : SendStatus) : DWord := BitVec.ofNat 64 (x.pend + x.naks * 2 ^ 20 + x.lreason * 2 ^ 40 + x.lseq * 2 ^ 44)
/-- The inbox status word (R277). -/
def Inbox.word (x : Inbox) : DWord :=
  BitVec.ofNat 64 (x.rem + b2n x.armed * 2 ^ 32 + b2n x.canc * 2 ^ 33 + b2n x.done * 2 ^ 34 + x.wbase * 2 ^ 35 + x.wcnt * 2 ^ 45)
def Group.inbox (g : Group) (c : Nat) : Inbox := mget {} g.ibc c
/-- The stream status word (R318). -/
def Team.mstat (t : Team) : DWord :=
  BitVec.ofNat 64 (t.queue.length + satCount 16 t.fixed * 2 ^ 8 + satCount 16 t.recomp * 2 ^ 24 + b2n t.quar * 2 ^ 40 + satCount 16 t.skips * 2 ^ 48)
/-- Commands of a group not yet retired (R286, R302). -/
def State.outstanding (s : State) (key : Nat) : Nat :=
  (s.copies.filter fun c => c.key == some key).length + (s.colls.filter fun c => c.key == some key).length

/-! ## Replay entries (R339) -/

/-- The bytes of the tags of a slot: lane l at bits [2l+1:2l] (R339). -/
def tagBytes (dp fp : Word) : List Byte :=
  leBytes 8 ((List.range 32).foldl (fun n l => n + (tagAt dp fp l).code * 4 ^ l) 0)
/-- A slot's 136 bytes. -/
def Slot.bytes (x : Slot) : List Byte :=
  ((List.range 32).flatMap fun l => leBytes 4 (x.ws.getD l 0).toNat) ++ tagBytes x.dp x.fp
/-- A replay entry's 2,240 bytes: the partial state of R208 follows the sources' slots, which alone
NSLOT counts (R339). DEDUCED. Log entry 34. -/
def Entry.bytes (e : Entry) : List Byte :=
  leBytes 8 e.pc.toNat ++ leBytes 16 e.bits.toNat ++ leBytes 4 e.pend.toNat ++ leBytes 4 e.act.toNat ++ leBytes 4 e.pi.toNat
    ++ leBytes 1 e.slots.length ++ leBytes 1 (b2n e.valid + 2 * b2n e.trapped) ++ leBytes 2 0 ++ tagBytes e.dp e.fp ++ leBytes 16 0
    ++ (e.slots ++ e.mid).flatMap Slot.bytes ++ List.replicate (136 * (16 - e.slots.length - e.mid.length)) 0

/-! ## The save image (R345 to R348) -/

/-- Bytes padded with zeros to a multiple of 256. -/
def pad256 (bs : List Byte) : List Byte := bs ++ List.replicate ((256 - bs.length % 256) % 256) 0
/-- Eight bits a byte, lowest first. -/
def bitBytes (n : Nat) (f : Nat → Bool) : List Byte :=
  (List.range ((n + 7) / 8)).map fun i => BitVec.ofNat 8 ((List.range 8).foldl (fun b j => b + b2n (decide (8 * i + j < n) && f (8 * i + j)) * 2 ^ j) 0)
/-- A group's lane PCs and LIVE, as the frame and the image hold them (R338, R346). -/
def pcBytes (pcs : List (Option DWord)) : List Byte :=
  ((List.range 32).flatMap fun l => leBytes 8 ((pcs.getD l none).getD 0).toNat) ++ leBytes 4 (maskOf fun l => (pcs.getD l none).isSome).toNat
/-- The wait codes of R346. -/
def WaitKind.code : WaitKind → Nat
  | .none => 0 | .barrier => 1 | .runnel => 2 | .object => 3 | .inbox => 4 | .waitpred => 5 | .waitfault => 6 | .sleep => 7
  | .sigwait => 8 | .clwait => 9 | .held => 10 | .resource => 0
/-- The word of a numbered barrier (R47). -/
def Bar.word (x : Bar) : Nat :=
  x.exp + x.arr * 2 ^ 12 + x.part * 2 ^ 24 + x.exitd * 2 ^ 36 + b2n x.ph * 2 ^ 48 + b2n x.init * 2 ^ 49 + x.mask.toNat * 2 ^ 50
/-- The words of a runnel and of its stage `j`. -/
def Runnel.word (x : Runnel) : Nat := (x.stages - 1) + x.pc * 2 ^ 4 + x.cc * 2 ^ 16 + b2n x.init * 2 ^ 28
def Stage.word (x : Stage) : Nat := b2n x.full + b2n x.ph * 2 + x.fullC * 4 + x.freeC * 2 ^ 14
/-- The 64 tags of a set of s registers. -/
def sTagBytes (s : AMap SReg) : List Byte := leBytes 16 ((List.range 64).foldl (fun n k => n + (mget {} s k).tag.code * 4 ^ k) 0)
/-- A set of s registers. -/
def sBytes (s : AMap SReg) : List Byte := (List.range 64).flatMap fun k => leBytes 8 (mget {} s k).val.toNat
/-- A containment region's 16 bytes. -/
def Region.bytes (r : Region) : List Byte := leBytes 8 r.handler.toNat ++ leBytes 4 r.aux.toNat ++ leBytes 2 r.pmask.toNat ++ leBytes 2 0
/-- The directory code of a shape (R347). -/
def Shape.dir : Shape → Nat
  | .uniform _ => 1 | .affine .. => 2 | .general _ => 3
/-- The directory and register data of R347, for the registers of `kept`. -/
def Group.regBytes (g : Group) : List Byte × List Byte :=
  let rs := g.kept.map fun k => (k, g.vreg k)
  let code (k : Nat) : Nat := match rs.find? fun r => r.1 == k with | some r => r.2.val.dir | none => 0
  (leBytes 160 ((List.range 640).foldl (fun n k => n + code k * 4 ^ k) 0),
   rs.flatMap (fun r => tagBytes r.2.dp r.2.fp)
   ++ rs.flatMap (fun r => match r.2.val with | .general _ => r.2.val.words.flatMap fun w => leBytes 4 w.toNat | _ => [])
   ++ rs.flatMap (fun r => match r.2.val with | .affine b t => leBytes 4 b.toNat ++ leBytes 4 t.toNat | _ => [])
   ++ rs.flatMap (fun r => match r.2.val with | .uniform u => leBytes 4 u.toNat | _ => []))
/-- Whether a waiting instruction has a stop point, so that a cause or a pre-emption leaves it
part-way (R134, R208, R251, R300, R346); any other is withdrawn, and its lanes' PCs name it. A BARS
has one once its arrival is counted. -/
def Entry.stops (e : Entry) : Bool :=
  let opc := fld e.bits.toNat 10 2
  if opc = 0x16 then e.pi != 0
  else [0x0B, 0x0F, 0x10, 0x12, 0x15, 0x18, 0x19, 0x1A, 0xD8, 0xD9, 0x140, 0x141, 0x142, 0x143, 0x145, 0x146, 0x147, 0x148, 0x149, 0x14A,
        0x14D, 0x14F, 0x150, 0x152, 0x18A, 0x18D].contains opc
/-- The 2,240 bytes of the interrupted instruction, be it a replayed one; V = 0 where there is none (R346). -/
def Group.partBytes (g : Group) : List Byte := match g.part <|> (g.replay.head?.filter Entry.stops) with | some e => e.bytes | none => List.replicate 2240 0
/-- A group image (R346); CRSTAT, inbox and send status are their status words. -/
def State.groupImage (s : State) (key : Nat) (g : Group) : List Byte :=
  let (dir, data) := g.regBytes
  let errs := g.errs.filter fun c => c.cause == 13
  let tail := errs.flatMap fun c => leBytes 4 c.td0.toNat ++ leBytes 4 c.td1.toNat ++ leBytes 4 c.td2.toNat
  let n := (3736 + data.length + tail.length + 255) / 256 * 256
  pad256 (leBytes 8 g.gname.toNat ++ leBytes 4 n ++ leBytes 4 (g.ngen + g.ncmp * 2 ^ 10 + g.role.code * 2 ^ 20) ++ pcBytes g.pcs
    ++ leBytes 4 (g.aging + g.agingPtr * 512) ++ leBytes 4 g.pi.toNat ++ leBytes 4 (g.wait.kind.code + g.wait.num * 16)
    ++ leBytes 4 (g.tdmask.toNat + g.slot * 65536) ++ leBytes 4 0 ++ ((List.range 32).flatMap fun l => leBytes 4 (mget 0 g.dftok l).toNat)
    ++ leBytes 4 errs.length ++ List.replicate 20 0 ++ sBytes g.s ++ sTagBytes g.s
    ++ ((List.range 16).flatMap fun k => leBytes 4 (mget {} g.p k).val.toNat)
    ++ ((List.range 16).flatMap fun k => tagBytes (mget {} g.p k).dp (mget {} g.p k).fp)
    ++ leBytes 8 g.tvec.toNat ++ leBytes 8 g.tarea.toNat ++ leBytes 8 g.spq.toNat ++ leBytes 8 (b2n g.inhdl)
    ++ leBytes 4 g.tc.toNat ++ leBytes 4 g.td0.toNat ++ leBytes 4 g.td1.toNat ++ leBytes 4 g.td2.toNat
    ++ g.regions.reverse.flatMap Region.bytes ++ List.replicate (64 - 16 * g.regions.length) 0
    ++ leBytes 8 g.crWord.toNat ++ ((List.range 4).flatMap fun c => leBytes 8 (g.inbox c).word.toNat)
    ++ leBytes 8 g.send.word.toNat ++ leBytes 4 g.send.next ++ leBytes 4 (s.outstanding key) ++ g.partBytes ++ dir ++ data ++ tail)
/-- A core image: scratchpad reservation, tile rows with their side columns, PB and INIT bits (R345). -/
def State.coreImage (s : State) (tid : Nat) (t : Team) (c : Nat) : List Byte :=
  let rows := t.tile / 1024
  (List.range t.scratch).map (fun b => s.scratchByte (scratchAddr tid c b))
    ++ (List.range rows).flatMap (fun r => let x := tileRow tid c r
         (List.range 1024).map (s.tileByte x) ++ (List.range 32).map (s.sideByte x))
    ++ pad256 (bitBytes rows fun r => s.pb (tileRow tid c r))
    ++ pad256 (bitBytes (t.scratch / 16) fun k => s.mem.mbInit.contains (scratchAddr tid c (16 * k) / 16))
/-- Where each of some images starts, the first at `at0`. -/
def offsets : Nat → List (List Byte) → List Nat
  | _, [] => []
  | at0, i :: is => at0 :: offsets (at0 + i.length) is
/-- A team's whole save: team area, core images, group images (R345). The seal covers every
byte after it (R348). -/
def State.saveBytes (s : State) (tid : Nat) : List Byte :=
  let t := mget {} s.teams tid
  let n := (List.range 4).foldl (fun n k => n + recGcount t.record k) 0
  let area := (2048 + 8 * n + 255) / 256 * 256
  let cores := (List.range t.cores.length).map fun c => s.coreImage tid t c
  let gs := (s.groups.filter fun e => e.2.tid == tid && e.2.role != .stream)
  let imgs := gs.map fun e => s.groupImage e.1 e.2
  let co := offsets area cores
  let go := (gs.map fun e => e.2.grpid).zip (offsets (area + cores.foldl (fun n c => n + c.length) 0) imgs)
  let total := area + cores.foldl (fun n c => n + c.length) 0 + imgs.foldl (fun n c => n + c.length) 0
  let stage (k j : Nat) : Stage := mget {} (mget {} t.rns k).st j
  let head := leBytes 8 total ++ leBytes 64 t.record.toNat ++ leBytes 8 t.vdInc.toNat ++ List.replicate 40 0
    ++ ((List.range 16).flatMap fun b => leBytes 8 (mget {} t.bars b).word) ++ ((List.range 8).flatMap fun k => leBytes 8 (mget {} t.rns k).word)
    ++ ((List.range 128).flatMap fun k => leBytes 8 (stage (k / 16) (k % 16)).word)
    ++ leBytes 8 t.restartPc.toNat ++ sBytes t.restartS ++ sTagBytes t.restartS ++ leBytes 8 (b2n t.quar + t.astride * 2 ^ 32)
    ++ leBytes 8 t.mstat.toNat ++ List.replicate 24 0 ++ ((List.range 16).flatMap fun c => leBytes 8 (co.getD c 0))
    ++ ((List.range n).flatMap fun j => leBytes 8 (mget 0 go j))
  let body := head ++ List.replicate (area - 8 - head.length) 0 ++ cores.flatMap id ++ imgs.flatMap id
  leBytes 8 (Config.sealWord body).toNat ++ body
/-- The save is written to its place in the save pool, each write performed at the cistern (R344). -/
def State.writeSave (s : State) (tid : Nat) : State :=
  match (mget {} s.teams tid).saved with
  | none => s
  | some v =>
    let bs := s.saveBytes tid
    let w := QStore.plain { space := .hbm, addr := v.addr } (mget {} s.teams tid).vd bs false
    if v.cap.admits v.addr bs.length 1 4 then s.cisternPut w else s.capFault (mget {} s.teams tid).vd
/-- The element with the least value of `f`; the first of those that tie. -/
def minBy {α : Type} (f : α → Nat) : List α → Option α
  | [] => none
  | x :: xs => match minBy f xs with
    | none => some x
    | some y => if f y < f x then some y else some x
/-- Bytes of the save pool charged to continuation queues (R374). -/
def VD.charged (v : VD) : Nat := v.conts.foldl (fun n e => match e.2.charged with | some r => n + 8192 * 2 ^ r | none => n) 0
/-- The saves of a VD in its pool: where each begins and its length. -/
def State.savesOf (s : State) (vd : Nat) : List (Nat × Nat) :=
  s.teams.filterMap fun e => if e.2.vd = vd then e.2.saved.map fun v => (v.addr, v.bytes) else none
/-- The lowest place in the pool, after the queue slots, where a save of `n` bytes lies apart from
the others. DESIGN CHOICE. Log entry 23. -/
def State.savePlace (s : State) (vd n : Nat) : Option Nat :=
  let v := s.vd vd
  let base := v.savebase + v.charged
  let used := s.savesOf vd
  let ok (a : Nat) : Bool := decide (a + n ≤ v.savebase + v.savesize) && used.all fun e => decide (a + n ≤ e.1) || decide (e.1 + e.2 ≤ a)
  minBy id ((base :: (used.map fun e => e.1 + e.2).filter fun a => decide (base ≤ a)).filter ok)
/-- The device has changed a saved team's image and seals the save again (R288, R348). A save that
has grown, by the errors of its groups' copies, moves where its place is too small. DESIGN CHOICE. Log entry 23. -/
def State.reseal (s : State) (key : Nat) : State :=
  let tid := key / 4096
  let t := mget {} s.teams tid
  match t.saved with
  | none => s
  | some v =>
    let n := (s.saveBytes tid).length
    if n ≤ v.bytes then s.writeSave tid
    else
      let alone := s.updTeam tid fun t => { t with saved := none }
      (s.updTeam tid fun t => { t with saved := some { v with addr := (alone.savePlace t.vd n).getD v.addr, bytes := n } }).writeSave tid
/-- Whether a save is as the device wrote it, and its VD's incarnation current (R348). The seal
covers every byte, so a save passes when no byte differs. DEDUCED. Log entry 22. -/
def State.sealHolds (s : State) (tid : Nat) : Bool :=
  let t := mget {} s.teams tid
  match t.saved with
  | none => true
  | some v =>
    let bs := s.saveBytes tid
    v.sealOk && t.vdInc == (s.vd t.vd).inc && !((sectorsOf v.addr bs.length).any s.mem.cisternPoison)
      && (bs.zipIdx.all fun e => s.hbmByte (v.addr + e.2) == e.1)

end Sys2Proof.Machine
end

