-- ==== Sys2Proof/Machine/Objects.lean ====
section
/-! DEFINITION. Objects: barrier objects in scratchpad and their events (R297, R299). -/
namespace Sys2Proof.Machine

/-- The fields of a barrier object (R297); INIT is kept beside the scratchpad. -/
structure MbObj where
  expb : Nat
  arrb : Nat
  acnt : Nat
  arr : Nat
  ph : Bool
  scp : Bool
  err : Bool
  lerr : Bool
  deriving DecidableEq, Repr

/-- INIT of the granule at a scratch address. -/
def State.mbInit (s : State) (a : Nat) : Bool := s.mem.mbInit.contains (a / 16)
/-- The object at a scratch address. -/
def State.mbRead (s : State) (a : Nat) : MbObj :=
  let n := leNat ((List.range 16).map fun i => s.scratchByte (a + i))
  ⟨fld n 31 0, fld n 63 32, fld n 79 64, fld n 95 80, bit n 96, bit n 97, bit n 99, bit n 100⟩
/-- The 16 bytes of an object; bit 98 reads 1 once initialised. -/
def MbObj.bytes (o : MbObj) : List Byte :=
  leBytes 16 (o.expb + o.arrb * 2 ^ 32 + o.acnt * 2 ^ 64 + o.arr * 2 ^ 80 + b2n o.ph * 2 ^ 96 + b2n o.scp * 2 ^ 97 + 2 ^ 98
    + b2n o.err * 2 ^ 99 + b2n o.lerr * 2 ^ 100)
def State.mbWrite (s : State) (a : Nat) (o : MbObj) : State :=
  s.setMem fun m => { m with scratch := Mem.writeAll m.scratch (bytesAt a o.bytes), mbInit := sins m.mbInit (a / 16) }
/-- A phase completes when ARR = ACNT and ARRB = EXPB (R299). -/
def MbObj.settle (o : MbObj) : MbObj :=
  if o.arr = o.acnt ∧ o.arrb = o.expb then { o with ph := !o.ph, lerr := o.err, err := false, arr := 0, expb := 0, arrb := 0 } else o

/-- The scratch address of a window address of a team (R210). -/
def objAddr (tid : Nat) (a : DWord) : Nat :=
  let o := (a.toNat - scratchBase) % 2 ^ 22
  scratchAddr tid (o / 2 ^ 18) (o % 2 ^ 18)

/-- ENGINE detail (R336): reason and OPC, and the address for reasons 3, 4, 6 and 8. -/
def engineCause (reason opc : Nat) (addr : DWord) (region : Nat) : Pending :=
  let a : DWord := if reason = 3 ∨ reason = 4 ∨ reason = 6 ∨ reason = 8 then addr else 0
  { cause := 13, td0 := BitVec.ofNat 32 (reason + opc * 16), td1 := a.setWidth 32, td2 := (a >>> 32).setWidth 32, region := region }
/-- An ENGINE error is raised in a group: taken at its next instruction boundary, or counted in
the VD's error records where the group has exited (R287). In a saved group it goes into the image (R288). -/
def State.engineError (s : State) (key : Option Nat) (vd : Nat) (p : Pending) : State :=
  match key with
  | none => s
  | some k =>
    match mfind s.groups k with
    | some g => (s.setGroup k { g with errs := g.errs ++ [p] }).reseal k
    | none => (s.errRecord { vd := some vd, sev := 1, cause := p.cause, td0 := p.td0, td1 := p.td1, td2 := p.td2 }).1
/-- Bytes that the first `u` units of a command count: bytes, or for a tile copy rows of `elems`
elements with, on a Q page, their metadata (R290, R292, R293). Of an odd number of 4-bit elements the
bytes are rounded down over all the rows together; the spec does not round. DESIGN CHOICE. Log entry 35. -/
def CopyCmd.counted (c : CopyCmd) (u : Nat) : Nat :=
  let rows (elems : Nat) : Nat :=
    let f := c.fmt.getD 0
    u * elems * copyBits f / 8 + (if fmtQuant f then u * (elems / qLen f) * 4 else 0)
  match c.kind with
  | .tileIn _ _ elems _ => rows elems
  | .tileOut _ _ elems _ => rows elems
  | _ => u
/-- Bytes that a range of units counts. -/
def CopyCmd.rangeBytes (c : CopyCmd) (r : Nat × Nat) : Nat := c.counted (r.1 + r.2) - c.counted r.1
/-- The bytes that a command has not yet reported. A tile copy that ends before its first page has
been translated has no format, and so no byte count that the spec states: a free value. DESIGN
CHOICE. Log entry 35. -/
def State.restBytes (s : State) (c : CopyCmd) : Nat :=
  let known := c.left.foldl (fun n r => n + c.rangeBytes r) 0
  match c.kind, c.fmt with
  | .tileIn _ _ _ _, none => (s.free 0).toNat % 2 ^ 32
  | .tileOut _ _ _ _, none => (s.free 0).toNat % 2 ^ 32
  | _, _ => known
/-- An engine reports bytes to an object, with or without an error (R299): a release, at the object's
core, of the command's writes (R239). -/
def State.mbReport (s : State) (c : CopyCmd) (n : Nat) (err : Bool) : State :=
  if c.obj = 0 then s
  else
    let a := objAddr c.tid c.obj
    if s.mbInit a then
      let o := s.mbRead a
      let s := s.carry (· == .engine c.id) (.object a o.ph ((mget {} s.teams c.tid).cores.getD (a / 2 ^ 18 % 16) 0))
      s.mbWrite a { o with arrb := (o.arrb + n) % 2 ^ 32, err := o.err || err }.settle
    else
      let s := s.updErr (some c.vd) fun b => { b with mbdrop := satInc b.mbdrop }
      if c.cancelled then s else s.engineError c.key c.vd (engineCause 6 c.opc c.obj c.region)

end Sys2Proof.Machine
end

