-- ==== Sys2Proof/Machine/Ops.lean ====
section
/-! DEFINITION. Ops: how an instruction ends: its results written and its lanes moved on, waiting, taking a trap, unwinding to a containment region, the end of a team; and the translated accesses that these and the memory instructions share (R28 to R44, R53, R65, R130, R144, R151, R325 to R328, R336 to R343). -/
namespace Sys2Proof.Machine

/-- What every meaning answers. -/
abbrev Out := Host.Outcome State Fault Refusal

/-! ## The groups of a team -/

/-- The groups of a team, and its stream, by key. -/
def State.keysOf (s : State) (tid : Nat) : List Nat := (s.groups.filter fun e => e.2.tid == tid).map fun e => e.1
/-- The keys of a team's groups of a role. -/
def State.roleKeys (s : State) (tid : Nat) (r : Role) : List Nat :=
  (s.groups.filter fun e => e.2.tid == tid && e.2.role == r).map fun e => e.1

/-! ## Ending an instruction -/

/-- The instruction leaves no wait and no captured sources behind; a replayed entry leaves the queue. -/
def Group.settled (g : Group) (replay : Bool) : Group :=
  { g with wait := {}, part := none, pi := 0, replay := if replay then g.replay.tail else g.replay }
/-- The lanes of `xm` take new PCs (R40). -/
def Group.movePcs (g : Group) (xm : Word) (f : Nat → Option DWord) : Group :=
  { g with pcs := (List.range 32).map fun l => if xm.getLsbD l then f l else g.pcs.getD l none }
/-- The lanes of xm move on, each to the PC that `f` gives it. In a replay the frame has already
set every lane's PC (R147). -/
def State.jump (s : State) (f : Nat → DWord) : State :=
  s.updGrp fun g =>
    let g := g.settled s.iss.replay
    if s.iss.replay then g else g.movePcs s.iss.xm fun l => some (f l)
/-- The instruction has finished and its lanes are at the next one (R40, R44). -/
def State.finish (s : State) : State := s.jump fun _ => s.iss.npc

/-- The entry of the issuing instruction (R339). -/
def State.entryOf (s : State) (pend pi : Word) (trapped : Bool) : Entry :=
  { pc := s.iss.pc, bits := s.iss.bits, pend := pend, act := s.iss.act, pi := pi, valid := true, trapped := trapped,
    dp := s.iss.gdp, fp := s.iss.gfp, slots := s.iss.cap, mid := s.iss.mid }
/-- The instruction waits, keeping its captured sources (R53, R88). -/
def State.hold (s : State) (w : Wait) (pend pi : Word) : State :=
  let e := s.entryOf pend pi false
  s.updGrp fun g =>
    if s.iss.replay then { g with wait := w, pi := pi, replay := e :: g.replay.tail }
    else { g with wait := w, pi := pi, part := some e }

/-- The address after an instruction; a 4-byte tail of a fetch block is skipped (R72). -/
def nextPc (pc : DWord) (len : Nat) : DWord :=
  let n := pc + BitVec.ofNat 64 len
  if n.toNat % 32 = 28 then n + 4 else n
/-- Bytes of an instruction by its LEN field (R71). -/
def lenBytes (bits : IBits) : Nat := if bits.toNat % 4 = 0 then 8 else if bits.toNat % 4 = 1 then 12 else 16

/-! ## Translated accesses (R324 to R328) -/

/-- How an access by a group or engine ends at translation. -/
inductive Reach where
  | ok (l : Loc)
  | held
  | fault (x : XFault)
  deriving DecidableEq, Repr

/-- A global address is translated for an agent of a die, and of a core where it has one. A
remote access that its home refuses or that the fabric gives up is a fault of KIND 5; `span` gives
the bytes, at the home, that a grant must cover (R398). A first write to a page sets D and appends
to an enabled dirty log, or is held while the ring is full (R328); `lane` tells the agent's accesses apart. -/
def State.reach (s : State) (o : Origin) (die : Nat) (core : Option Nat) (vd asid va acc : Nat) (span : Nat → Nat × Nat)
    (lane : Nat := 0) : Reach × State :=
  match translate s die core vd asid va acc with
  | .error x => (.fault { x with repl := x.repl && (s.vd vd).fbOn }, s.meet (some vd) x.bad.toList)
  | .ok (e, s) =>
    let l := e.loc va
    if l.space = .remote && s.late.contains (vd, o) then (.fault { kind := 5 }, { s with late := s.late.erase (vd, o) })
    else if !s.admits vd l (span l.addr) (acc == 1 || acc == 2) then (.fault { kind := 5 }, s)
    else if e.dirty || acc == 0 || acc == 3 then (.ok l, s)
    else
      let f := (s.vd vd).fault
      if !f.dlen then (.ok l, s.setD e)
      else if bit (s.hbmByte e.leaf).toNat 5 then (.ok l, s.setD e)
      else if f.dlRoom && f.dlheld.isEmpty then (.ok l, (s.setD e).dirtyAppend vd (e.gpa / e.hsize * e.hsize) e.hsize)
      else
        let h : DirtyHeld := ⟨o, lane, va, e.leaf, e.gpa / e.hsize * e.hsize, e.hsize⟩
        (.held, s.updVd vd fun v =>
          let f := v.fault
          { v with fault := { f with dlheld := if f.dlheld.contains h then f.dlheld else f.dlheld ++ [h] } })
/-- A range cut at 64 KiB pages: addresses and lengths. -/
def pieces (a n : Nat) : List (Nat × Nat) :=
  if n = 0 then []
  else (List.range ((a + n - 1) / 65536 - a / 65536 + 1)).map fun i =>
    let lo := max a ((a / 65536 + i) * 65536)
    let hi := min (a + n) ((a / 65536 + i + 1) * 65536)
    (lo, hi - lo)

/-! ## Engine work that a trap or unwind cancels (R287, R342, R343) -/

/-- What an agent holds at translation is discarded: its requests and its held writes; ring entries stay (R332). -/
def State.dropOrigin (s : State) (vd : Nat) (o : Origin) : State :=
  let s := s.faultDiscard vd fun r => r.origin == o
  s.updVd vd fun v => { v with fault := { v.fault with dlheld := v.fault.dlheld.filter fun h => h.origin != o } }
/-- Commands that `p` picks stop writing and report what they have not reported, with ERR; no
ENGINE error follows, and what they hold at translation is discarded. -/
def State.cancelCopies (s : State) (p : CopyCmd → Bool) : State :=
  (s.copies.filter fun c => p c && !c.stopped).foldl (fun s c =>
    let s := { s with copies := s.copies.map fun (d : CopyCmd) => if d.id == c.id then { d with stopped := true, cancelled := true, left := [] } else d }
    let s := s.dropOrigin c.vd (.engine c.id)
    s.bumpFree.mbReport { c with cancelled := true } (s.restBytes c) true) s
/-- Collective and patch jobs that `p` picks by key and region are cancelled; their held requests
are discarded. -/
def State.cancelJobs (s : State) (p : Option Nat → Nat → Bool) : State :=
  let s := (s.colls.filter fun c => p c.key c.region).foldl (fun s c => s.dropOrigin c.vd (.engine c.id)) s
  let s := (s.binjobs.filter fun j => p (some j.key) j.region).foldl (fun s j => s.dropOrigin j.vd (.engine j.id)) s
  { s with colls := s.colls.map fun c => if p c.key c.region then { c with cancelled := true } else c,
           binjobs := s.binjobs.filter fun j => !p (some j.key) j.region }
/-- Engine work of group `key` attributed to the regions that `p` picks is cancelled. -/
def State.cancelRegion (s : State) (key : Nat) (p : Nat → Bool) : State :=
  (s.cancelCopies fun c => c.key == some key && p c.region).cancelJobs fun k r => k == some key && p r

/-! ## Dies and names (R12, R54, R55, R276, R336, R402) -/

/-- OK of a logical die (R12). -/
def State.dieOk (s : State) (die : Nat) : Bool := s.remapWord.getLsbD (if die = 0 then 2 else 6)
/-- INC of a logical die. -/
def State.incOf (s : State) (die : Nat) : BitVec 16 := if die = 0 then s.inc0 else s.inc1
/-- A discard under R392 is counted. -/
def State.countStale (s : State) (vd : Option Nat) : State := s.updErr vd fun b => { b with stale := satInc b.stale }
/-- The DIELOST detail of a group (R336). -/
def State.dielost (s : State) (g : Group) (die : Nat) : Pending :=
  { cause := 16, td1 := 0, td2 := 0,
    td0 := BitVec.ofNat 32 (g.tdmask.toNat + (b2n (!s.dieOk 0) + 2 * b2n (!s.dieOk 1)) * 4 + (s.incOf die).toNat * 16) }
/-- The device that a group's name lies on (R54). -/
def nameDev (gname : DWord) : Nat := fld gname.toNat 63 54
def nameVd (gname : DWord) : Nat := fld gname.toNat 53 44
def nameInc (gname : DWord) : Nat := fld gname.toNat 43 40
def nameSerial (gname : DWord) : Nat := fld gname.toNat 39 0
def State.nameState (s : State) (gname : DWord) : Option NameState := (s.names.find? fun n => n.1 == gname).map fun n => n.2
def State.setName (s : State) (gname : DWord) (x : NameState) : State :=
  { s with names := s.names.map fun n => if n.1 == gname then (gname, x) else n }
/-- The group that bears a name. -/
def State.named (s : State) (gname : DWord) : Option (Nat × Group) := s.groups.find? fun e => e.2.gname == gname && e.2.role != .stream

/-- The die on which the placement of a name in transit completes. -/
def State.placementDie (s : State) (gname : DWord) : Nat :=
  match s.named gname with
  | none => 0
  | some (_, g) =>
    match g.moving, (mget {} s.teams g.tid).saved with
    | some (c, _), _ => dieOf c
    | none, some sv => (match sv.target with | some p => dieOf (p.cores.headD 0) | none => 0)
    | none, none => dieOf g.core
/-- The die whose name-service queue takes a store for a name on this device: none where the name
is dead or its group saved (R401). -/
def State.serviceDie (s : State) (gname : DWord) : Option Nat :=
  match s.nameState gname with
  | some .saved | none => none
  | _ => some (s.placementDie gname)
/-- The outcome of a store leaves the receiving device, which counts a NAK. -/
def State.answerStore (s : State) (m : RemoteStore) (reason : Nat) : State :=
  let s := if reason = 0 then s
    else s.updErr (if reason = 4 then none else some (nameVd m.gname)) fun b => { b with rstrdrop := satInc b.rstrdrop }
  let o : RstrOutcome := { sender := m.sender, seq := m.seq, reason := reason, die := m.die, inc := m.inc }
  if m.sdev = s.devNum then { s with outcomes := s.outcomes ++ [o] } else { s with msgs := s.msgs ++ [.outcome m.sdev o] }
/-- Stores held for names that die are NAKed with reason 1 (R402). -/
def State.nakHeld (s : State) (p : DWord → Bool) : State :=
  let ms := s.transit.filter fun m => p m.gname
  ms.foldl (fun s m => s.answerStore m 1) { s with transit := s.transit.filter fun m => !p m.gname }

/-! ## The end of a team -/

/-- A packet's PSEQ, from its first eight bytes (R361). -/
def Packet.pseq (p : Packet) : Nat := leNat ((p.bytes.drop 4).take 4)
/-- The packet with a bundle identity (R366) is changed, when its VD still has it. -/
def State.updBundle (s : State) (bundle : Nat) (f : Packet → Packet) : State :=
  let n := fld bundle 53 44
  s.updVd n fun v =>
    { v with queues := mmap v.queues fun iq q =>
        if iq = fld bundle 43 32 ∧ v.inc.toNat = fld bundle 57 54 then
          { q with pkts := mmap q.pkts fun _ p => if p.pseq = fld bundle 31 0 && p.phase != .done then f p else p }
        else q }
/-- A packet fails with a status, unless it has failed already (R371). -/
def Packet.fail (p : Packet) (st : Nat) (seq : Word) : Packet := if p.status = 0 then { p with status := st, errSeq := seq } else p

/-- A group's name dies, the stores held for it are NAKed with reason 1 (R402), and its stack slot goes (R54). Requests that lanes were deferred on stay
Held: only a kill, an unwind or an unhandled trap discards them (R332). -/
def State.forget (s : State) (key : Nat) (g : Group) : State :=
  let str := g.role = .stream
  let s := { s with groups := mdel s.groups key, names := s.names.filter fun n => n.1 != g.gname || str }
  if str then s else (s.updVd g.vd fun v => { v with stkused := sdel v.stkused g.slot }).nakHeld fun n => n == g.gname
/-- The team leaves its cores; its images in the save pool, if any, go with it. -/
def State.dropTeam (s : State) (tid : Nat) : State := { s with teams := mdel s.teams tid, marks := s.marks.filter fun m => m.tid != tid }
/-- Whether engine work that a team's groups issued has yet to retire. -/
def State.engineWork (s : State) (tid : Nat) : Bool :=
  let of (k : Option Nat) : Bool := match k with | some k => k / 4096 == tid | none => false
  (s.copies.any fun c => of c.key) || (s.colls.any fun c => of c.key) || (s.binjobs.any fun b => b.key / 4096 == tid)
    || (s.binops.any fun b => b.key / 4096 == tid)
/-- A team without groups is gone once its engine work has retired (R370). -/
def State.settleTeam (s : State) (tid : Nat) : State :=
  if (s.keysOf tid).isEmpty && !s.engineWork tid then s.dropTeam tid else s

/-- The class of the error record of a trap (R393). -/
def causeClass (c : Pending) : Nat := if c.cause = 15 then c.td1.toNat % 256 else if c.cause = 14 then 14 else 0
/-- The address of an error record of a trap: the VA that a program access used (R336, R393). -/
def causeAddr (c : Pending) : DWord :=
  if c.cause = 5 ∨ c.cause = 6 ∨ c.cause = 9 then c.td1 ++ c.td0 else if c.cause = 8 then c.td2 ++ c.td1 else 0
/-- The error record of a trap of a group (R393). -/
def State.trapRecord (s : State) (g : Group) (c : Pending) (pc : DWord) (sev : Nat) : State × Word :=
  s.errRecord { cls := causeClass c, sev := sev, die := dieOf g.core, vd := some g.vd, addr := causeAddr c, gname := g.gname, pc := pc, cause := c.cause,
                core := g.core, td0 := c.td0, td1 := c.td1, td2 := c.td2 }
/-- The engine work of a team's groups is cancelled (R287). -/
def State.cancelTeamWork (s : State) (tid : Nat) : State :=
  let s := (s.cancelCopies fun x => x.tid == tid && x.key.isSome).cancelJobs fun k _ =>
    match k with | some k => k / 4096 == tid | none => false
  { s with binops := s.binops.filter fun b => b.key / 4096 != tid }
/-- What a team's groups hold at translation, also those that have exited, is discarded (R332). -/
def State.dropTeamReqs (s : State) (vd tid : Nat) : State :=
  let mine (o : Origin) : Bool := match o with | .group k => k / 4096 == tid | _ => false
  let s := s.faultDiscard vd fun r => mine r.origin
  s.updVd vd fun v => { v with fault := { v.fault with dlheld := v.fault.dlheld.filter fun h => !mine h.origin } }
/-- A team ends (R342): an error record, engine work cancelled, names dead, issued stores
performed, the bundle failed. `key` is the group whose trap was unhandled. -/
def State.endTeam (s : State) (key : Nat) (c : Pending) (pc : DWord) : State :=
  let g := mget {} s.groups key
  let t := mget {} s.teams g.tid
  let (s, seq) := s.trapRecord g c pc 3
  let s := s.cancelTeamWork g.tid
  let s := (s.keysOf g.tid).foldl (fun s k => (s.drain k).forget k (mget {} s.groups k)) (s.dropTeamReqs g.vd g.tid)
  ((s.updBundle (recBundle t.record) fun p => p.fail 3 seq).updTeam g.tid fun t => { t with saved := none, queue := [] }).settleTeam g.tid

/-! ## Taking a trap (R144, R337 to R341) -/

/-- The frame's header and entries (R338). An instruction that a check of R83 refused follows them
as an entry with V = 0, which NREP does not count, so that the frame holds all of its bits (R84).
DEDUCED. Log entry 34. -/
def frameBytes (g : Group) (t : Trapping) : List Byte :=
  pcBytes t.pcs
    ++ leBytes 4 t.cause.cause ++ leBytes 4 t.cause.td0.toNat ++ leBytes 4 t.cause.td1.toNat ++ leBytes 4 t.cause.td2.toNat
    ++ leBytes 4 t.entries.length ++ leBytes 4 (g.aging + g.agingPtr * 512) ++ leBytes 4 0
    ++ ((List.range 32).flatMap fun l => leBytes 4 (mget 0 g.dftok l).toNat) ++ List.replicate 96 0
    ++ (t.entries ++ t.refused.toList).flatMap Entry.bytes

/-- Bytes of the whole frame. -/
def frameSize : Nat := 36352
/-- Whether the trap area lies in the global or scratchpad window with the frame in one window (R341). -/
def Group.tareaOk (g : Group) (t : Team) : Bool :=
  match windowOfN g.tarea.toNat frameSize with
  | .global => true
  | .scratch =>
    let o := (g.tarea.toNat - scratchBase) % 2 ^ 22
    decide (o / 2 ^ 18 < t.cores.length) && decide (o % 2 ^ 18 + frameSize ≤ t.scratch)
  | _ => false
/-- The frame's stores join the group's queue, in program order (R224, R341). The first
component tells whether a page refused: `none` when all is stored, `some x` with the fault that stopped it. -/
def State.storeFrame (s : State) (key : Nat) (g : Group) (t : Team) (bs : List Byte) : Option (Reach × Nat) × State :=
  let push (s : State) (l : Loc) (b : List Byte) : State :=
    s.updGroup key fun g => { g with sq := g.sq ++ [QStore.plain l g.vd b false] }
  if windowOf g.tarea.toNat = .scratch then (none, push s { space := .scratch, addr := objAddr g.tid g.tarea } bs)
  else
    let ps := pieces g.tarea.toNat bs.length
    let r := ps.foldl (fun (acc : Option (Reach × Nat) × State × List Loc) p =>
      match acc with
      | (some x, s, ls) => (some x, s, ls)
      | (none, s, ls) =>
        match s.reach (.group key) (dieOf g.core) (some g.core) g.vd t.asid p.1 1 (fun a => (a, p.2)) with
        | (.ok l, s) => (none, s, ls ++ [l])
        | (x, s) => (some (x, p.1), s, ls)) (none, s, [])
    match r with
    | (some x, s, _) => (some x, s)
    | (none, s, ls) =>
      (none, (ps.zip ls).foldl (fun s e => push s e.2 ((bs.drop (e.1.1 - g.tarea.toNat)).take e.1.2)) s)
/-- The group enters its handler. -/
def Group.handler (g : Group) (c : Pending) : Group :=
  { g with tc := BitVec.ofNat 5 c.cause, td0 := c.td0, td1 := c.td1, td2 := c.td2, inhdl := true, wait := {}, part := none, pi := 0,
           replay := [], trapping := none, pcs := g.pcs.map fun p => p.map fun _ => g.tvec }
/-- Cause groups whose traps all leave an error record (R393): MATRIX, HWERR, DIELOST, KILL. -/
def recordedCause (c : Nat) : Bool := c == 14 || c == 15 || c == 16 || c == 17
/-- A trap is taken: the frame is written and one run of all live lanes starts at TVEC, or the
trap is unhandled and the team ends (R144, R341, R342). A replayable fault on a frame write
waits for the pager. -/
def State.tryTrap (s : State) (key : Nat) (t : Trapping) : State :=
  let g := mget {} s.groups key
  let tm := mget {} s.teams g.tid
  let unhandled := s.endTeam key t.cause t.pc
  let reqs := s.groupReqs key
  if g.tvec = 0 || g.inhdl || !g.tareaOk tm then unhandled
  else if reqs.any (·.failed) then (s.guestFault g.vd).endTeam key t.cause t.pc
  else if !reqs.isEmpty then s
  else
    let park (s : State) : State := s.setGroup key { g with trapping := some t, wait := { kind := .held } }
    match s.storeFrame key g tm (frameBytes g t) with
    | (none, s) =>
      let s := if recordedCause t.cause.cause then (s.trapRecord g t.cause t.pc 2).1 else s
      s.updGroup key fun g => g.handler t.cause
    | (some (.fault x, va), s) =>
      if x.repl then (park s).faultRaise g.vd (faultReq (.group key) x 1 0 tm.asid (BitVec.ofNat 64 va) 0)
      else (s.guestFault g.vd).endTeam key t.cause t.pc
    | (some _, s) => park s

/-- Where a trap leaves its instruction (R337): before any lane was performed, with lanes still
to be performed, or, for SOFT and DEBUG, at the next instruction. -/
inductive TrapAt where
  | fresh
  | queued (pend : Word)
  | after
  deriving DecidableEq, Repr

/-- The BINADDs of a group that have not finished, as entries, with the state without them (R337).
A frame has 16 entries (R338): the oldest that are more than `room` finish first. DEDUCED. Log entry 34. -/
def State.takeBinops (s : State) (key room : Nat) : List Entry × State :=
  let bs := s.binops.filter fun b => b.key == key
  let s := (bs.take (bs.length - room)).foldl State.binPerform s
  ((bs.drop (bs.length - room)).map fun b => b.entry, { s with binops := s.binops.filter fun b => b.key != key })
/-- Whether a cause reports a fault that is not replayable: XLATE, or the PERM of a refused host
AtomicOp (R325). -/
def Pending.faulted (c : Pending) : Bool := c.cause == 5 || (c.cause == 6 && fld c.td2.toNat 8 5 == 4)
/-- A cause that reports such a fault is raised to the guest as well (R426). -/
def State.raised (s : State) (vd : Nat) (c : Pending) : State := if c.faulted then s.guestFault vd else s
/-- The issuing instruction traps, and its failed requests are reported with it. Where lanes of it
have been performed it is in the frame, TRAPPED, with the others in PEND; else the frame PCs of its
lanes name it (R337). Of a replay the frame holds also the entries after it (R147). DEDUCED. Log entry 34. -/
def State.trap (s : State) (c : Pending) (w : TrapAt) : State :=
  let key := s.iss.key
  let g := s.grp
  let s := s.faultDiscard g.vd fun r => r.origin == .group key && !r.deferred && r.parked.isNone
  let (es, s) := s.takeBinops key (15 - (g.replay.length - 1))
  let moved := (g.movePcs s.iss.xm fun _ => some s.iss.npc).pcs
  let pend : Word := match w with | .queued p => p | _ => s.iss.act
  let own := s.entryOf pend g.pi true
  let pc := s.iss.pc
  let refused := if s.iss.refused then some { s.entryOf pend g.pi true with valid := false } else none
  let t : Trapping :=
    if s.iss.replay then
      match w with
      | .fresh => { cause := c, pc := pc, entries := es ++ g.replay.tail, pcs := (g.movePcs (pend &&& g.live) fun _ => some pc).pcs, refused := refused }
      | .queued _ => { cause := c, pc := pc, entries := es ++ own :: g.replay.tail, pcs := g.pcs }
      | .after => { cause := c, pc := pc, entries := es ++ g.replay.tail, pcs := g.pcs }
    else
      match w with
      | .fresh => { cause := c, pc := pc, entries := es, pcs := g.pcs, refused := refused }
      | .queued _ => { cause := c, pc := pc, entries := es ++ [own], pcs := moved }
      | .after => { cause := c, pc := pc, entries := es, pcs := moved }
  (s.raised g.vd c).tryTrap key t
/-- Clocks left of a timeout that has not been seen to fall: at least one, as 0 says that there is none (R134, R251). -/
def clocksLeft (due clk : Nat) : Nat := max 1 (due - clk)
/-- The instruction that a group is stopped in: its own, or the entry that it replays. -/
def Group.current (g : Group) : Option Entry := g.part <|> g.replay.head?
/-- The stopped instruction of a group as it is saved: pi the clocks left of its timeout. -/
def Group.stopPart (g : Group) (clk : Nat) : Option Entry :=
  (g.current.filter Entry.stops).map fun e => match g.wait.due with | some d => { e with pi := BitVec.ofNat 32 (clocksLeft d clk) } | none => e
/-- A group takes a cause that is not its instruction's own. A wait at a stop point is in the
frame, its lanes moved on, its pi the clocks left of its timeout (R134, R251); any other is
withdrawn (R53). What it holds at translation stays Held for its replay (R332). `trapped` marks a
wait that itself trapped. -/
def State.trapAt (s : State) (key : Nat) (c : Pending) (trapped : Bool) : State :=
  let g := mget {} s.groups key
  let pc := match g.part, g.replay with | some e, _ => e.pc | none, e :: _ => e.pc | none, [] => ((g.pcs.find? Option.isSome).getD none).getD 0
  let s := s.park g.vd key pc
  let (es, s) := s.takeBinops key (if g.replay.isEmpty then 15 else 16 - g.replay.length)
  let left (e : Entry) : Entry := match g.wait.due with | some d => { e with pi := BitVec.ofNat 32 (clocksLeft d (s.clkOf g.core)) } | none => e
  let t : Trapping :=
    match g.part with
    | some _ =>
      match g.stopPart (s.clkOf g.core) with
      | some e =>
        if trapped && e.pi == 0 then { cause := c, pc := pc, entries := es, pcs := g.pcs }
        else { cause := c, pc := pc, entries := es ++ [{ e with trapped := trapped }],
               pcs := g.pcs.map fun p => p.map fun a => if a = e.pc then nextPc a (lenBytes e.bits) else a }
      | none => { cause := c, pc := pc, entries := es, pcs := g.pcs }
    | none => { cause := c, pc := pc, entries := es ++ (match g.replay with | e :: r => { left e with trapped := trapped } :: r | [] => []), pcs := g.pcs }
  s.tryTrap key t

/-! ## Unwinding (R151, R343) -/

/-- Vector registers, s registers and predicates a region keeps (R149). -/
def Region.keepsV (r : Region) (k : Nat) : Bool := let b := fld r.aux.toNat 9 0; decide (b ≤ k) && decide (k < b + fld r.aux.toNat 19 10)
def Region.keepsS (r : Region) (k : Nat) : Bool := let b := fld r.aux.toNat 25 20; decide (b ≤ k) && decide (k < b + fld r.aux.toNat 31 26)
def Region.keepsP (r : Region) (k : Nat) : Bool := r.pmask.getLsbD k

/-- Registers outside the keep-lists take free values with clean tags. UNVERIFIED values. Log entry 5.
An undefined register that can hold a general value takes one, and a compressed-only register a
uniform one, never an affine one; the spec names no shape. DESIGN CHOICE. Log entry 5. -/
def Group.undefine (g : Group) (r : Region) (free : Nat → DWord) : Group :=
  let vreg (k : Nat) : Nat × VReg :=
    if r.keepsV k then (k, g.vreg k)
    else if k < g.ngen then (k, { val := .general ((List.range 32).map fun l => (free (64 * k + l)).setWidth 32) })
    else (k, { val := .uniform ((free (64 * k)).setWidth 32) })
  { g with
    v := (List.range (g.ngen + g.ncmp)).map vreg
    s := (List.range 64).map fun k => if r.keepsS k then (k, g.sreg k) else (k, ⟨free (50000 + k), .clean⟩)
    p := (List.range 16).map fun k => if r.keepsP k then (k, g.preg k) else (k, ⟨(free (60000 + k)).setWidth 32, 0, 0⟩) }
/-- Group `key` unwinds to its region `ident`, leaving the regions opened inside it. Requests of
instructions that have finished, on which lanes were deferred, stay Held; the writes that a full
dirty log holds are never performed (R343). -/
def State.unwindTo (s : State) (key ident : Nat) (c : Pending) : State :=
  let g := mget {} s.groups key
  match g.regions.find? fun r => r.ident == ident with
  | none => s
  | some r =>
    let inner := (g.regions.takeWhile fun x => x.ident != ident).map (·.ident) ++ [ident]
    let s := s.cancelRegion key inner.contains
    let s := s.faultDiscard g.vd fun q => q.origin == .group key && !q.deferred
    let s := s.updVd g.vd fun v => { v with fault := { v.fault with dlheld := v.fault.dlheld.filter fun h => h.origin != .group key } }
    let s := { s with binops := s.binops.filter fun b => b.key != key }
    let s := s.updGroup key fun g =>
      let g := g.undefine r s.free
      { g with regions := g.regions.drop inner.length, tc := BitVec.ofNat 5 c.cause, td0 := c.td0, td1 := c.td1, td2 := c.td2,
               lcause := BitVec.ofNat 5 c.cause, unw := true, unwcnt := satCount 16 (g.unwcnt + 1), wait := {}, part := none, pi := 0,
               replay := [], pcs := g.pcs.map fun p => p.map fun _ => r.handler }
    s.bumpFree
/-- Group `key` unwinds to its innermost region; where none is open, `f` follows (R130). -/
def State.unwindElse (s : State) (key : Nat) (c : Pending) (f : State → State) : State :=
  match (mget {} s.groups key).regions with
  | r :: _ => s.unwindTo key r.ident c
  | [] => f s
/-- The issuing instruction unwinds to the innermost region, or traps (R130). -/
def State.unwindOrTrap (s : State) (c : Pending) (w : TrapAt) : State := s.unwindElse s.iss.key c fun s => s.trap c w

/-! ## Details of common traps (R336) -/

def lo32 (a : Nat) : Word := BitVec.ofNat 32 a
def hi32 (a : Nat) : Word := BitVec.ofNat 32 (a / 2 ^ 32)
/-- The lowest lane of a mask, 0 where it is empty. -/
def lowLane (m : Word) : Nat := ((lanesOf m).head?).getD 0
/-- ILLEGAL_INSTR, ILLEGAL_OPERAND and ROLE name the instruction (R84). -/
def State.illegal (s : State) (cause : Nat) : Pending :=
  let b := s.iss.bits.toNat
  { cause := cause, td0 := lo32 b, td1 := hi32 b, td2 := BitVec.ofNat 32 (b / 2 ^ 64) }
def shapeCause (reg : Nat) (part win : Bool) (lanes : Word) : Pending :=
  { cause := 3, td0 := BitVec.ofNat 32 (reg + b2n part * 1024 + b2n win * 2048), td1 := lanes, td2 := 0 }
def xlateCause (addr lane kind acc : Nat) (tbl : Bool) : Pending :=
  { cause := 5, td0 := lo32 addr, td1 := hi32 addr, td2 := BitVec.ofNat 32 (lane + kind * 32 + acc * 512 + b2n tbl * 2048) }
def permCause (addr lane kind : Nat) : Pending :=
  { cause := 6, td0 := lo32 addr, td1 := hi32 addr, td2 := BitVec.ofNat 32 (lane + kind * 32) }
def alignCause (addr lane lg : Nat) : Pending :=
  { cause := 9, td0 := lo32 addr, td1 := hi32 addr, td2 := BitVec.ofNat 32 (lane + lg * 32) }
def dataPoison (field lane consumer addr : Nat) : Pending :=
  { cause := 8, td0 := BitVec.ofNat 32 (field + lane * 1024 + consumer * 32768), td1 := lo32 addr, td2 := hi32 addr }
/-- FAULTPOISON names the operand, the lowest consuming lane and its DFTOK (R335). -/
def State.faultPoison (s : State) (field lane : Nat) : Pending :=
  { cause := 7, td0 := BitVec.ofNat 32 (field + lane * 1024), td1 := mget 0 s.grp.dftok lane, td2 := 0 }
def remoteCause (kind seq ctr : Nat) (gname : DWord) : Pending :=
  { cause := 12, td0 := BitVec.ofNat 32 (kind + seq % 2 ^ 20 * 16 + ctr * 2 ^ 24), td1 := gname.setWidth 32, td2 := (gname >>> 32).setWidth 32 }
def barrierCause (kind num ph arr exitd e reason stage : Nat) : Pending :=
  { cause := 11, td0 := BitVec.ofNat 32 (num + kind * 16 + ph * 128 + arr * 256 + exitd * 2 ^ 20),
    td1 := BitVec.ofNat 32 (e + reason * 4096 + stage * 65536), td2 := 0 }
def capacityCause (reason : Nat) : Pending := { cause := 20, td0 := BitVec.ofNat 32 reason, td1 := 0, td2 := 0 }

/-- A consumed operand: its field's code, its tags, and the consumer of R336. -/
structure Consumed where
  field : Nat
  dp : Word
  fp : Word
  lanes : Word
  deriving DecidableEq, Repr
/-- Fault-pending in a consumed operand traps; then data-poison unwinds or traps; else `k`
goes on (R130, R383). Fault-pending is looked for in every operand first (R248, R285). Of several
operands with the tag, the detail names the first in the order guard, A, B, C and its lowest lane;
the spec gives no order. DESIGN CHOICE. Log entry 35. -/
def State.consume (s : State) (consumer addr : Nat) (xs : List Consumed) (k : State → State) : State :=
  match xs.find? fun x => x.fp &&& x.lanes != 0 with
  | some x => s.trap (s.faultPoison x.field (lowLane (x.fp &&& x.lanes))) .fresh
  | none =>
    match xs.find? fun x => x.dp &&& x.lanes != 0 with
    | some x => s.unwindOrTrap (dataPoison x.field (lowLane (x.dp &&& x.lanes)) consumer addr) .fresh
    | none => k s
/-- A source as a consumed operand in the lanes `m`. -/
def Src.consumed (x : Src) (o : Opnd) (m : Word) : Consumed := ⟨o.code, x.dp, x.fp, m⟩
/-- An s register as an operand consumed by the lanes `m`. -/
def SReg.consumed (r : SReg) (o : Opnd) (m : Word) (k : Nat := 0) : Consumed :=
  ⟨o.code + k, allLanes (r.tag = .poison), allLanes (r.tag = .pending), m⟩

/-! ## Writing results -/

/-- A lane instruction writes its destination registers and finishes, or traps with SHAPE and
writes nothing (R65, R69). No active lane, no effect (R44). -/
def State.putV (s : State) (pair : Bool) (ws : List DestW) : State :=
  let act := s.iss.act
  if act = 0 then s.finish
  else
    match s.grp.refusedReg act pair ws with
    | some r => s.trap (shapeCause r (!s.grp.whole act) false act) .fresh
    | none => (s.updGrp fun g => ws.foldl (fun g w => g.writeV act w) g).finish
/-- A uniform instruction writes its destination, joining the guard tags of the executing lanes
(R130), and finishes. -/
def State.putS (s : State) (d : Opnd) (x : DWord) (t : Tag) : State :=
  if s.iss.act = 0 then s.finish
  else (s.updGrp fun g => g.writeS d.reg x (t.join (tagOver s.iss.gdp s.iss.gfp s.iss.act))).finish
/-- A lane instruction writes a predicate in its active lanes with the guard tags joined, and finishes. -/
def State.putP (s : State) (d : Opnd) (val dp fp : Word) : State :=
  if s.iss.act = 0 then s.finish
  else
    let fp := fp ||| s.iss.gfp
    (s.updGrp fun g => g.writeP s.iss.act d.reg val ((dp ||| s.iss.gdp) &&& ~~~fp) fp).finish
/-- A 32-bit register with the guard tags joined. -/
def State.destW (s : State) (d : Opnd) (j : Nat) (val : Shape) (dp fp : Word) : DestW :=
  let fp := fp ||| s.iss.gfp
  ⟨d.reg + j, val, (dp ||| s.iss.gdp) &&& ~~~fp, fp⟩
/-- A uniform result of a run-uniform instruction that writes nothing still moves its lanes; with
no active lane it has no effect (R128). DEDUCED. Log entry 28. -/
def State.ifActive (s : State) (k : State → State) : State := if s.iss.act = 0 then s.finish else k s

end Sys2Proof.Machine
end

