-- ==== Sys2Proof/Machine/Sync.lean ====
section
/-! DEFINITION. Sync: numbered barriers, runnels, starvation and quiescence, errors of the matrix stream, and the exit of a group (R30, R46 to R53, R141, R307). -/
namespace Sys2Proof.Machine

/-! ## Participants -/

/-- The number by which a barrier knows a participant: its grpid, 4,095 for the stream. -/
def Group.member (g : Group) : Nat := if g.role = .stream then 4095 else g.grpid
/-- Participants that BARINIT registers (R46). -/
def Team.parties (t : Team) (mask : BitVec 5) : Nat :=
  (List.range 4).foldl (fun n k => n + if mask.getLsbD k then recGcount t.record k else 0) 0
    + b2n (mask.getLsbD 4 && recMstream t.record)
def Group.inMask (g : Group) (mask : BitVec 5) : Bool := mask.getLsbD g.role.code
/-- Keys of the live participants of a barrier. -/
def State.liveParties (s : State) (tid : Nat) (mask : BitVec 5) : List Nat :=
  (s.groups.filter fun e => e.2.tid == tid && e.2.inMask mask).map fun e => e.1
def Team.bar (t : Team) (b : Nat) : Bar := mget {} t.bars b
def Team.rn (t : Team) (n : Nat) : Runnel := mget {} t.rns n
def State.setBar (s : State) (tid b : Nat) (x : Bar) : State := s.updTeam tid fun t => { t with bars := mset t.bars b x }
def State.setRn (s : State) (tid n : Nat) (x : Runnel) : State := s.updTeam tid fun t => { t with rns := mset t.rns n x }

/-- The detail of a BARRIER trap on a numbered barrier (R336). -/
def barCause (b : Nat) (x : Bar) (reason : Nat) : Pending := barrierCause 0 b (b2n x.ph) x.arr x.exitd x.exp reason 0
/-- The detail on a runnel stage: the counts of the stage stand where a barrier's do not apply. DEDUCED. Log entry 10. -/
def rnCause (n stage : Nat) (x : Runnel) (reason : Nat) : Pending :=
  barrierCause 1 n (b2n (mget {} x.st stage).ph) 0 0 0 reason stage

/-! ## Errors of the stream (R30, R307) -/

/-- The stream stops on every sequencer, and its queued steps with it. The counting of its exit
follows in `memberExit`. -/
def State.stopStream (s : State) (key : Nat) : State :=
  let s := s.dropOrigin (mget {} s.groups key).vd (.group key)
  ({ s with groups := mdel s.groups key } : State).updTeam (key / 4096) fun t => { t with queue := [] }
/-- The number of a team's next restart point: they count in program order, queued MZEROs' too (R320). -/
def Team.nextRestart (t : Team) : Nat := t.queue.foldl (fun n m => max n m.mark) t.restarts + 1
/-- The stream records a restart point: the next PC and its registers (R320). -/
def State.markRestart (s : State) : State :=
  let g := s.grp
  if g.role = .stream then
    s.updTeam g.tid fun t => { t with restartPc := s.iss.npc, restartS := g.s, restarts := t.nextRestart }
  else s
/-- An error of the stream is a pending cause of every matrix-role group (R30). -/
def State.deliver (s : State) (tid : Nat) (c : Pending) : State :=
  (s.roleKeys tid .matrix).foldl (fun s k => s.updGroup k fun g => { g with errs := g.errs ++ [c] }) s

/-! ## Phases (R48) -/

/-- Groups that wait on a numbered barrier re-enter the ready set. -/
def State.wakeBar (s : State) (tid b : Nat) : State :=
  { s with groups := mmap s.groups fun _ g =>
      if g.tid = tid ∧ g.wait.kind = .barrier ∧ g.wait.num = b then { g with wait := { g.wait with woken := true } } else g }
/-- Groups that wait on a runnel stage re-enter the ready set. -/
def State.wakeRn (s : State) (tid num : Nat) : State :=
  { s with groups := mmap s.groups fun _ g =>
      if g.tid = tid ∧ g.wait.kind = .runnel ∧ g.wait.num = num then { g with wait := { g.wait with woken := true } } else g }
/-- After a counted arrival or exit: one phase completes when ARR + EXITD ≥ E. -/
def Bar.test (x : Bar) : Bar × Bool :=
  if x.exp ≤ x.arr + x.exitd then ({ x with ph := !x.ph, arr := 0, nph := x.nph + 1 }, true) else (x, false)
/-- A barrier takes a counted event. -/
def State.barEvent (s : State) (tid b : Nat) (x : Bar) : State :=
  let (x, done) := x.test
  let s := s.setBar tid b x
  if done then s.wakeBar tid b else s

/-! ## Exit of a participant -/

/-- A participant exits: EXITD rises at every barrier it takes part in; an arrival already
counted in the current phase is not counted twice (R48). -/
def State.memberExit (s : State) (tid member : Nat) (role : Role) : State :=
  (List.range 16).foldl (fun s b =>
    let x := (mget {} s.teams tid).bar b
    if x.init && x.mask.getLsbD role.code then
      let here := mfind x.last member == some x.nph
      s.barEvent tid b { x with exitd := x.exitd + 1, arr := if here then x.arr - 1 else x.arr }
    else s) s

/-- Whether a group waits on a numbered barrier or a runnel stage and nothing has re-inserted it. -/
def Group.blocked (g : Group) : Bool := (g.wait.kind = .barrier || g.wait.kind = .runnel) && !g.wait.woken
/-- A waiter of a starved barrier: a group traps, the stream's error is delivered (R49, R307). -/
def State.starve (s : State) (key : Nat) (c : Pending) : State :=
  match mfind s.groups key with
  | none => s
  | some g => if g.role = .stream then ((s.stopStream key).memberExit g.tid 4095 .stream).deliver g.tid c else s.trapAt key c true
/-- Every live participant waits at the barrier: all of them trap (R49). -/
def State.checkStarved (s : State) (tid b : Nat) : State :=
  let x := (mget {} s.teams tid).bar b
  let ks := s.liveParties tid x.mask
  let waits (k : Nat) : Bool := let g := mget {} s.groups k; g.wait.kind = .barrier && g.wait.num == b && !g.wait.woken
  if x.init && !ks.isEmpty && ks.all waits then ks.foldl (fun s k => s.starve k (barCause b x 3)) s else s

/-- Whether engine work, a matrix step or a remote store of a team is in flight (R50). -/
def State.teamBusy (s : State) (tid : Nat) : Bool :=
  (s.copies.any fun c => c.tid == tid && c.key.isSome) || (s.colls.any fun c => match c.key with | some k => k / 4096 == tid | none => false)
    || (s.binops.any fun b => b.key / 4096 == tid) || (s.binjobs.any fun b => b.key / 4096 == tid)
    || !(mget {} s.teams tid).queue.isEmpty || (s.groups.any fun e => e.2.tid == tid && e.2.send.pend != 0)
/-- A quiescent team is starved: every waiting group traps, naming what it waits on (R50). A saved
team waits for its restore, which looks again (R53). -/
def State.checkQuiet (s : State) (tid : Nat) : State :=
  let gs := s.groups.filter fun e => e.2.tid == tid
  if (mget {} s.teams tid).saved.isNone && !gs.isEmpty && gs.all (fun e => e.2.blocked) && !s.teamBusy tid then
    (gs.filter fun e => e.2.role != .stream).foldl (fun s e =>
      let t := mget {} s.teams tid
      let w := e.2.wait
      s.starve e.1 (if w.kind = .barrier then barCause w.num (t.bar w.num) 4
                    else rnCause (w.num % 8) (w.num / 8) (t.rn (w.num % 8)) 4)) s
  else s
/-- The checks of R49 and R50 after an event in a team. -/
def State.checkTeam (s : State) (tid : Nat) : State :=
  ((List.range 16).foldl (fun s b => s.checkStarved tid b) s).checkQuiet tid

/-- The team has no group and no stream left: it ends (R38, R141). Its reservations stay while a
copy of its groups runs on (R210, R286). -/
def State.teamOver (s : State) (tid : Nat) : State := if (s.keysOf tid).isEmpty then s.settleTeam tid else s.checkTeam tid
/-- The registers of a matrix group that exits stay, for the steps that read its B window (R240, R311). -/
def State.keepWindow (s : State) (key : Nat) : State :=
  let g := mget {} s.groups key
  if g.role = .matrix then
    (s.publish key).updTeam g.tid fun t => { t with gone := mset t.gone key g }
  else s
/-- A group exits (R141): its stores are performed, its name dies, it counts as exited. -/
def State.groupExit (s : State) (key : Nat) : State :=
  let g := mget {} s.groups key
  ((((s.drain key).keepWindow key).forget key g).memberExit g.tid g.member g.role).teamOver g.tid
/-- The stream stops with an error (R30, R307). -/
def State.streamError (s : State) (key : Nat) (c : Pending) : State :=
  let g := mget {} s.groups key
  (((s.stopStream key).memberExit g.tid 4095 .stream).deliver g.tid c).teamOver g.tid

/-- The issuing instruction fails with a cause of its own: in the stream the error is delivered
to the matrix-role groups, in a group it traps. -/
def State.fail (s : State) (c : Pending) : State :=
  if s.grp.role = .stream then (s.raised s.grp.vd c).streamError s.iss.key c else s.trap c .fresh

/-- Operands consumed by an instruction that a stream may also hold (R30, R130). -/
def State.consumeAny (s : State) (consumer addr : Nat) (xs : List Consumed) (k : State → State) : State :=
  if s.grp.role = .stream then
    match xs.find? fun x => x.fp &&& x.lanes != 0 with
    | some x => s.fail (s.faultPoison x.field 0)
    | none =>
      match xs.find? fun x => x.dp &&& x.lanes != 0 with
      | some x => s.fail (dataPoison x.field 0 consumer addr)
      | none => k s
  else s.consume consumer addr xs k

/-! ## Barriers (R48, R161) -/

/-- The issuing group as a participant of barrier `b`, or the trap that refuses it (R46, R48). -/
def State.withBar (s : State) (b : Nat) (k : Bar → State) : State :=
  let x := s.team.bar b
  if !x.init then s.fail (barCause b x 1) else if !s.grp.inMask x.mask then s.fail (barCause b x 2) else k x
/-- The group arrives in the current phase: a release at .clu, then the count (R161). -/
def State.arrive (s : State) (b : Nat) (x : Bar) : State :=
  let g := s.grp
  ((s.release s.iss.key .clu).releaseTo s.iss.key (.bar g.tid b x.ph)).barEvent g.tid b { x with arr := x.arr + 1, last := mset x.last g.member x.nph }
/-- Whether the group has arrived in the current phase. -/
def Bar.arrived (x : Bar) (m : Nat) : Bool := mfind x.last m == some x.nph
/-- The group waits at barrier `b`, then the checks of R49 and R50 follow. -/
def State.waitBar (s : State) (b : Nat) (pi : Word) : State :=
  let tid := s.grp.tid
  (s.hold { kind := .barrier, num := b } s.iss.act pi).checkTeam tid
/-- The end of a wait at a barrier or runnel: an acquire at .clu from the phase `c` that has completed (R52, R161, R242). -/
def State.acquired (s : State) (c : Carrier) : State := ((s.acquireFrom s.iss.key (· == c)).acquire s.grp.core .clu).finish

/-! ## Runnels (R51, R52, R163) -/

/-- Where a use number leads: stage k mod S and phase (k / S) mod 2. -/
def Runnel.stageOf (x : Runnel) (k : Nat) : Nat := k % x.stages
def Runnel.phaseOf (x : Runnel) (k : Nat) : Bool := k / x.stages % 2 == 1
/-- A post that the stage accepts: its counts, and whether the stage changed state (R52). -/
def Runnel.post (x : Runnel) (empty : Bool) (g : Stage) : Stage × Bool :=
  if empty then
    if g.freeC + 1 = x.cc then ({ g with full := false, ph := !g.ph, freeC := 0 }, true) else ({ g with freeC := g.freeC + 1 }, false)
  else
    if g.fullC + 1 = x.pc then ({ g with full := true, fullC := 0 }, true) else ({ g with fullC := g.fullC + 1 }, false)

end Sys2Proof.Machine
end

