-- ==== Sys2Proof/Machine/Access.lean ====
section
/-! DEFINITION. Access: how a lane or uniform instruction reaches memory: its addresses, the checks of R248, translation and what a fault does to a lane, passes and the wait on the pager, and the effective scope of an access (R167, R209 to R211, R217, R218, R226, R247 to R251, R398). -/
namespace Sys2Proof.Machine

/-! ## Addresses (R247) -/

/-- The effective address of each lane. An index is C of F96, read with sext under .sx. -/
def State.lanesEa (s : State) (o : Ops) (sx : Bool) (sz : Nat → Nat) : List Nat :=
  let a := s.srcA o true
  let c := s.srcC o false
  (List.range 32).map fun l =>
    match o.fmt with
    | .f64 => a.d l
    | .f128i => wrap ((a.d l : Int) + sext o.imm.toNat 64) 64
    | .f96 => wrap ((a.d l : Int) + (if sx then sext (c.w l) 32 else (c.w l : Int)) * (sz l : Int)) 64
/-- The address operands as consumed: the base and, in F96, the index (R248). `idx` is false for
the atomics, which reserve C (R260). -/
def State.addrConsumed (s : State) (o : Ops) (idx : Bool) (m : Word) : List Consumed :=
  (s.srcA o true).consumed o.a m :: (if o.fmt = .f96 && idx then [(s.srcC o false).consumed o.c m] else [])
/-- A data operand whose fault-pending traps and whose data-poison is no check (R248); the guard
tags join it (R255). -/
def State.dataConsumed (s : State) (x : Src) (o : Opnd) (m : Word) : Consumed := ⟨o.code, 0, x.fp ||| s.iss.gfp, m⟩

/-! ## What an access is -/

/-- Which windows an instruction accepts (R167, R248, R269, R298). -/
inductive Accepts where
  | all | noStack | globalOnly | scratchOnly
  deriving DecidableEq, Repr
def Accepts.takes (w : Accepts) (x : Window) : Bool :=
  match x with
  | .global => w != .scratchOnly
  | .scratch => w != .globalOnly
  | .stack => w = .all
  | .none => false

/-- A memory instruction's access: its bytes, ACC, scope and orderings, the windows it accepts,
whether step 4 of R248 applies, whether replayable faults are deferred, whether the scoreboard is
consulted, and the destination registers. -/
structure Access where
  n : Nat
  acc : Nat
  sc : Scope
  acq : Bool
  rel : Bool
  win : Accepts := .all
  aligned : Bool := true
  defer : Bool := false
  score : Bool := false
  dst : List Nat := []
  pair : Bool := false
  general : Bool := true
  deriving DecidableEq, Repr

/-- The scope at which an access acts (R211, R217, R218); none on the stack, where scope and
ordering have no effect. -/
def Loc.scope (l : Loc) (sc : Scope) : Option Scope :=
  match l.space with
  | .stack => none
  | .host => some .sys
  | .remote => some .pod
  | .scratch => some sc
  | .hbm => some (if l.dieCoh && decide (2 < sc.code) then .die else sc)
/-- The widest scope of some accesses. -/
def widest (xs : List (Option Scope)) : Option Scope :=
  xs.foldl (fun m x => match m, x with
    | none, x => x
    | m, none => m
    | some a, some b => if a.code < b.code then some b else some a) none

/-- Byte `o` of a lane's stack, as a pool byte (R211). -/
def State.stackAddr (s : State) (g : Group) (lane o : Nat) : Nat :=
  let v := s.vd g.vd
  v.stkpool + g.slot * 32 * v.stksz + o / 4 * 128 + lane * 4 + o % 4
/-- Why a window bound refuses an access: the code of PERM (R210, R211, R336). -/
def State.boundCode (s : State) (ea n : Nat) : Option Nat :=
  match windowOf ea with
  | .stack => if (s.vd s.grp.vd).stksz ≤ ea - stackBase then some 3 else none
  | .scratch =>
    let o := ea - scratchBase
    if s.team.cores.length ≤ o / 2 ^ 18 then some 1 else if s.team.scratch < o % 2 ^ 18 + max n 1 then some 2 else none
  | _ => none
/-- Steps 4 to 6 of R248 over the lanes and their addresses, each step over every lane first. -/
def State.checkEas (s : State) (m : Access) (eas : List (Nat × Nat)) : Option Pending :=
  match (if m.aligned then eas.find? fun e => e.2 % m.n != 0 else none) with
  | some e => some (alignCause e.2 e.1 (Nat.log2 m.n))
  | none =>
    match eas.find? fun e => !m.win.takes (windowOfN e.2 m.n) with
    | some e => some (xlateCause e.2 e.1 (if windowOf e.2 = .stack then 8 else 1) m.acc false)
    | none =>
      match eas.find? fun e => (s.boundCode e.2 m.n).isSome with
      | some e => some (permCause e.2 e.1 ((s.boundCode e.2 m.n).getD 0))
      | none => none

/-! ## The range scoreboard (R226) -/

/-- Whether bytes of a scratchpad meet an entry that stalls the access. -/
def State.scored (s : State) (lo n : Nat) (write : Bool) : Bool :=
  s.copies.any fun c => c.scores.any fun e => decide (e.lo < lo + n) && decide (lo < e.hi) && (write || e.dst)
def State.stalled (s : State) (m : Access) (eas : List (Nat × Nat)) : Bool :=
  m.score && eas.any fun e => windowOf e.2 = .scratch && s.scored (objAddr s.grp.tid (BitVec.ofNat 64 e.2)) m.n (m.acc != 0)

/-! ## Where a lane's access leads -/

/-- A lane's access after translation (R249). -/
inductive LaneAt where
  | ok (l : Loc)
  | held
  | repl (x : XFault)
  | refused (c : Pending)
  deriving DecidableEq, Repr

/-- The access of a lane of the issuing group. `n` bytes at `ea`; `span` is what a home's grant must cover. -/
def State.locate (s : State) (lane ea acc : Nat) (span : Nat → Nat × Nat) : LaneAt × State :=
  let g := s.grp
  match windowOf ea with
  | .stack => (.ok { space := .stack, addr := s.stackAddr g lane (ea - stackBase) }, s)
  | .scratch => (.ok { space := .scratch, addr := objAddr g.tid (BitVec.ofNat 64 ea) }, s)
  | .none => (.refused (xlateCause ea lane 1 acc false), s)
  | .global =>
    match s.reach (.group s.iss.key) (dieOf g.core) (some g.core) g.vd s.team.asid ea acc span lane with
    | (.held, s) => (.held, s)
    | (.fault x, s) => (if x.repl then .repl x else .refused (xlateCause ea lane x.kind acc x.tbl), s)
    | (.ok l, s) => (.ok l, s)
/-- The bytes an access covers at its home: its own, or the whole sector for TAGRD and TAGWR (R268). -/
def spanOf (n : Nat) (addr : Nat) : Nat × Nat := if n = 0 then (addr / 256 * 256, 256) else (addr, n)

/-- The page of a fault: of a refused permission that of the leaf that refused it, a GPA where it is
the host's; of a missing entry, which maps no page, 64 KiB. DEDUCED. Log entry 17. -/
def faultPage (va : Nat) (x : XFault) : Nat :=
  if x.kind = 3 then va / leafSize x.level else if x.kind = 5 then x.gpa / leafSize x.level else va / 65536
/-- Lanes whose replayable faults share a page, KIND and ACC share one request (R331). -/
def shareFaults (fs : List (Nat × Nat × XFault)) : List (List (Nat × Nat × XFault)) :=
  fs.foldl (fun gs f =>
    let same (g : List (Nat × Nat × XFault)) : Bool :=
      match g.head? with | some h => h.2.2.kind == f.2.2.kind && h.2.2.level == f.2.2.level && faultPage h.2.1 h.2.2 == faultPage f.2.1 f.2.2 | none => false
    if gs.any same then gs.map fun g => if same g then g ++ [f] else g else gs ++ [[f]]) []
/-- The requests for the replayable faults of a pass: lane, address and fault. -/
def State.raiseFaults (s : State) (acc src : Nat) (fs : List (Nat × Nat × XFault)) : State :=
  (shareFaults fs).foldl (fun s g =>
    match g.head? with
    | none => s
    | some h =>
      let lanes := maskOf fun l => g.any fun f => f.1 == l
      s.faultRaise s.grp.vd (faultReq (.group s.iss.key) h.2.2 acc src s.team.asid (BitVec.ofNat 64 h.2.1) lanes)) s
/-- Requests of a deferring load that are in the ring: their lanes take the token and the tag
fault-pending in every destination register, and DFTOK (R250, R335). The second component is those lanes.
DEDUCED. Log entry 16. -/
def State.deferEntered (s : State) (dst : List Nat) : State × Word :=
  let rs := (s.groupReqs s.iss.key).filter fun r => r.token.isSome && !r.failed
  let s := rs.foldl (fun s r =>
    let tok := r.token.getD 0
    s.updGrp fun g =>
      let g := dst.foldl (fun g d => g.writeV r.lanes ⟨d, .general (List.replicate 32 tok), 0, r.lanes⟩) g
      { g with dftok := (lanesOf r.lanes).foldl (fun m l => mset m l tok) g.dftok }) s
  (s.updVd s.grp.vd fun v =>
    { v with fault := { v.fault with reqs := v.fault.reqs.map fun r => if rs.contains r then { r with deferred := true } else r } },
   rs.foldl (fun m r => m ||| r.lanes) 0)

/-! ## A pass of a lane instruction (R248 to R251) -/

/-- The lanes that the turn lets a pass perform: all, or those it names where it stops the
instruction part-way (R251). -/
def State.passLanes (s : State) (m : Access) (left : Word) : Word :=
  match s.iss.stop with
  | some n => if m.general then left &&& BitVec.ofNat 32 n else left
  | none => left
/-- What comes before the accesses of the lanes `ls`: the release that they make (R222), and what it
and their reads carry of the writes to matrix operands (R232, R233). -/
def State.ordered (s : State) (m : Access) (ls : List (Nat × Loc)) : State :=
  let key := s.iss.key
  let s := match widest (ls.map fun e => e.2.scope m.sc) with
    | some c => if m.rel then (s.release key c).postStores key m.n ls else s
    | none => s
  if m.acc = 1 then s else s.readBy key m.n ls
/-- The ALIGN of a refused typed lane is a fault of that lane, as XLATE is (R259, R426).
One pass over the lanes not yet performed; the instruction completes, traps, or waits with pi
and the lanes still to be performed (R249, R251). -/
def State.pass (s : State) (m : Access) (pi left : Word) (eas : Nat → Nat) (refuse : Nat → Nat → Loc → Option Pending)
    (perform : State → List (Nat × Loc) → State) : State :=
  let key := s.iss.key
  let reqs := s.groupReqs key
  let (rs, s) := (lanesOf (s.passLanes m left)).foldl (fun (acc : List (Nat × LaneAt) × State) l =>
    match reqs.find? fun r => r.lanes.getLsbD l with
    | some r => (acc.1 ++ [(l, if r.failed then .refused (xlateCause (eas l) l r.kind r.acc r.tbl) else .held)], acc.2)
    | none =>
      let (x, s) := acc.2.locate l (eas l) m.acc (spanOf m.n)
      let x : LaneAt := match x with
        | .ok loc => (match refuse l (eas l) loc with | some c => .refused c | none => .ok loc)
        | x => x
      (acc.1 ++ [(l, x)], s)) ([], s)
  let oks := rs.filterMap fun e => match e.2 with | .ok loc => some (e.1, loc) | _ => none
  let sc := widest (oks.map fun e => e.2.scope m.sc)
  let s := perform (s.ordered m oks) oks
  let s := if m.acc = 2 then s.uncarry (Carrier.isStore key) else s
  let s := match sc with | some c => if m.acq then s.acquire s.grp.core c else s | none => s
  let s := s.raiseFaults m.acc 0 (rs.filterMap fun e => match e.2 with | .repl x => some (e.1, eas e.1, x) | _ => none)
  let (s, deferred) := if m.defer then s.deferEntered m.dst else (s, (0 : Word))
  let did := (maskOf fun l => oks.any fun e => e.1 == l) ||| (deferred &&& left)
  let pi := pi ||| did
  let left := left &&& ~~~did
  let refused := rs.filterMap fun e => match e.2 with | .refused c => some (e.1, c) | _ => none
  if left = 0 then s.finish
  else if (left &&& ~~~(maskOf fun l => refused.any fun e => e.1 == l)) != 0 then
    s.hold { kind := if rs.any (fun e => e.2 = .held || (match e.2 with | .repl _ => true | _ => false)) then .held else .resource } left pi
  else
    match refused.head? with
    | none => s.finish
    | some e =>
      let s := if e.2.cause = 9 then s.guestFault s.grp.vd else s
      (s.updGrp fun g => { g with pi := pi }).trap e.2 (if pi = 0 then .fresh else .queued left)
/-- A lane memory instruction: the checks of R248 in order, then a pass over the lanes not yet
performed. With no active lane it has no effect. The scoreboard is consulted here, at issue (R226),
and not again when a queued store leaves its queue, of which the spec does not speak. DESIGN CHOICE. Log entry 35. -/
def State.laneMem (s : State) (m : Access) (srcs : List Consumed) (eas : Nat → Nat) (refuse : Nat → Nat → Loc → Option Pending)
    (perform : State → List (Nat × Loc) → State) : State :=
  let act := s.iss.act
  let pi := s.iss.pi
  let left := act &&& s.iss.pend &&& ~~~pi
  if act = 0 || left = 0 then s.finish
  else
    let g := s.grp
    let bad := m.dst.find? fun d => decide (g.ngen ≤ d) && (m.general || !g.whole act)
    match bad with
    | some r => s.trap (shapeCause (if m.pair then r / 2 * 2 else r) (!g.whole act) false act) .fresh
    | none =>
      s.consume 0 0 srcs fun s =>
        let at' := (lanesOf left).map fun l => (l, eas l)
        match s.checkEas m at' with
        | some c => s.trap c .fresh
        | none =>
          if s.stalled m at' then s.hold { kind := .resource } left pi
          else s.pass m pi left eas refuse perform

/-! ## A uniform access (R167, R269) -/

/-- An access made once for the run, at the lowest executing lane: the same checks, no lane
deferred; a replayable fault waits for the pager, with the deadline and the clocks left of a wait
that the instruction is making (R251). -/
def State.onceMem (s : State) (m : Access) (ea : Nat) (due : Option Nat) (perform : State → Loc → State) : State :=
  let key := s.iss.key
  let lane := lowLane s.iss.act
  match s.checkEas m [(lane, ea)] with
  | some c => s.trap c .fresh
  | none =>
    let wait (s : State) (k : WaitKind) : State :=
      s.hold { kind := k, due := due } s.iss.act (match due with | some d => BitVec.ofNat 32 (clocksLeft d (s.clkOf s.grp.core)) | none => 0)
    if s.stalled m [(lane, ea)] then wait s .resource
    else
      match s.groupReqs key with
      | r :: _ => if r.failed then s.trap (xlateCause ea lane r.kind r.acc r.tbl) .fresh else wait s .held
      | [] =>
        match s.locate lane ea m.acc (spanOf m.n) with
        | (.held, s) => wait s .held
        | (.refused c, s) => s.trap c .fresh
        | (.repl x, s) => (wait s .held).raiseFaults m.acc 1 [(lane, ea, x)]
        | (.ok l, s) =>
          let sc := l.scope m.sc
          let s := perform (s.ordered m [(lane, l)]) l
          match sc with | some c => if m.acq then s.acquire s.grp.core c else s | none => s

end Sys2Proof.Machine
end

