-- ==== Sys2Proof/Machine/Copies.lean ====
section
/-! DEFINITION. Copies: the copy engines: the commands that hand them work, and the work itself, piece by piece, with its reports, faults and retirement (R225, R284 to R294). -/
namespace Sys2Proof.Machine

/-! ## Operands and checks of an engine command (R284, R285) -/

/-- The operands of an engine command. -/
structure EngSrc where
  a : SReg
  b : SReg
  c : SReg
  m : SReg
  deriving DecidableEq, Repr
def State.engSrc (s : State) (o : EngOps) : EngSrc :=
  let third := s.iss.slots.map fun t => t.2.2
  let n := match o.c with | .s _ => 1 | _ => 0
  { a := s.uni o.a (s.iss.slots.map fun t => t.1), b := s.uni o.b (s.iss.slots.map fun t => t.2.1), c := s.uni o.c third,
    m := if third.isSome then s.uni o.m third n else s.uni o.m none }
/-- Every operand register is consumed as an engine operand (R285, R383). -/
def EngSrc.consumed (x : EngSrc) (o : EngOps) (act : Word) : List Consumed :=
  [x.a.consumed o.a act, x.b.consumed o.b act, x.c.consumed o.c act, x.m.consumed o.m act]

/-- A range that an engine command names: address, bytes, ACC, and whether the entry takes only
global addresses. -/
structure Range where
  va : Nat
  n : Nat
  acc : Nat
  globalOnly : Bool := false
  deriving DecidableEq, Repr
/-- Whether the windows of a range are ones that the entry takes (R289, R291). -/
def Range.windowOk (r : Range) : Bool :=
  r.n = 0 || (match windowOfN r.va r.n with | .global => true | .scratch => !r.globalOnly | _ => false)
/-- KIND of a refused window. -/
def windowKind (va : Nat) : Nat := if windowOf va = .stack then 8 else 1
/-- Steps 3 to 6 of R285: `reason` is the entry's refusal, `tile` that of its tile operand. -/
def State.engineRefused (s : State) (opc : Nat) (reason : Option Nat) (m : Opnd) (obj : Nat) (rs : List Range) (tile : Option Pending) : Option Pending :=
  let lane := lowLane s.iss.act
  let hasObj := m != .zero
  let all : List Range := rs ++ (if hasObj then [{ va := obj, n := 16, acc := 2 }] else [])
  match reason with
  | some r => some (engineCause r opc 0 0)
  | none =>
    if hasObj && obj % 16 ≠ 0 then some (alignCause obj lane 4)
    else match rs.find? fun r => !r.windowOk with
    | some r => some (xlateCause r.va lane (windowKind r.va) r.acc false)
    | none =>
      if hasObj && windowOfN obj 16 ≠ .scratch then some (xlateCause obj lane (windowKind obj) 2 false)
      else match all.find? fun r => r.n != 0 && (windowOf r.va = .scratch && (s.boundCode r.va r.n).isSome) with
      | some r => some (permCause r.va lane ((s.boundCode r.va r.n).getD 0))
      | none => tile

/-- The scoreboard entry of a scratchpad side: its bounding range in whole sectors (R225). -/
def State.scoreOf (s : State) (va n : Nat) (dst : Bool) : List ScoreEnt :=
  if n = 0 ∨ windowOf va ≠ .scratch then []
  else
    let tid := s.grp.tid
    let t := (va - scratchBase) / 2 ^ 18
    let lo := objAddr tid (BitVec.ofNat 64 va)
    [⟨tid, t, s.team.cores.getD t 0, lo / 256 * 256, (lo + n + 255) / 256 * 256, dst⟩]
/-- The entry over the whole reservation of a source's core (R225). -/
def State.scoreWhole (s : State) (va : Nat) : List ScoreEnt :=
  if windowOf va ≠ .scratch then []
  else
    let tid := s.grp.tid
    let t := (va - scratchBase) / 2 ^ 18
    [⟨tid, t, s.team.cores.getD t 0, scratchAddr tid t 0, scratchAddr tid t ((s.team.scratch + 255) / 256 * 256), false⟩]
/-- Whether the owning cores have the entries free: 16 each. -/
def State.scoresFree (s : State) (es : List ScoreEnt) : Bool :=
  es.all fun e =>
    let used := s.copies.foldl (fun n c => n + (c.scores.filter fun x => x.core == e.core).length) 0
    decide (used + (es.filter fun x => x.core == e.core).length ≤ 16)
/-- The region a new command is attributed to (R150). -/
def Group.regionId (g : Group) : Nat := match g.regions with | r :: _ => r.ident | [] => 0

/-- A copy command issues (R286): it stalls for want of room, releases at .core, and is handed over. -/
def State.handCopy (s : State) (opc : Nat) (ord : Bool) (kind : CopyKind) (src dst obj : DWord) (units : Nat) (scores : List ScoreEnt) : State :=
  let key := s.iss.key
  if 32 ≤ s.outstanding key || !s.scoresFree scores then s.hold { kind := .resource } s.iss.act 0
  else
    let s := s.release key .core
    let g := s.grp
    let c : CopyCmd :=
      { id := s.nextId, key := some key, job := none, tid := g.tid, vd := g.vd, asid := s.team.asid, die := dieOf g.core, kind := kind, opc := opc,
        src := src, dst := dst, obj := obj, ord := ord, region := g.regionId, units := units, left := [(0, units)], moved := 0,
        stopped := false, cancelled := false, scores := scores }
    { s.releaseTo key (.engine c.id) with copies := s.copies ++ [c], nextId := s.nextId + 1 }.finish
/-- The limits of the linear copies, by reason (R290). -/
def cpyReason (n : Nat) : Option Nat := if 2 ^ 31 < n then some 1 else none
def cpy2dReason (wd h dp : Nat) : Option Nat :=
  if wd = 0 ∨ h = 0 ∨ 65536 < h ∨ 2 ^ 31 < wd * h then some 1 else if dp < wd then some 2 else none
def cpygReason (n e16 : Nat) : Option Nat :=
  if n = 0 ∨ 65536 < n ∨ 2 ^ 31 < n * (16 * e16) then some 1 else if e16 = 0 ∨ 4096 < e16 then some 2 else none

/-- CPY (R289, R290). -/
def execCpy (ord : Bool) (o : EngOps) (s : State) : Out :=
  let x := s.engSrc o
  .next (s.ifActive fun s =>
    s.consume 5 0 (x.consumed o s.iss.act) fun s =>
      let n := x.c.val.toNat
      let a := x.a.val.toNat
      let b := x.b.val.toNat
      match s.engineRefused 0x180 (cpyReason n) o.m x.m.val.toNat [⟨a, n, 0, false⟩, ⟨b, n, 1, false⟩] none with
      | some c => s.trap c .fresh
      | none =>
        if n = 0 then s.finish
        else s.handCopy 0x180 ord .linear x.a.val x.b.val x.m.val n (s.scoreOf a n false ++ s.scoreOf b n true))
/-- CPY2D (R289, R290). -/
def execCpy2d (ord : Bool) (sp dp : BitVec 32) (o : EngOps) (s : State) : Out :=
  let x := s.engSrc o
  .next (s.ifActive fun s =>
    s.consume 5 0 (x.consumed o s.iss.act) fun s =>
      let wd := fld x.c.val.toNat 31 0
      let h := fld x.c.val.toNat 63 32
      let a := x.a.val.toNat
      let b := x.b.val.toNat
      let sn := (h - 1) * sp.toNat + wd
      let dn := (h - 1) * dp.toNat + wd
      match s.engineRefused 0x181 (cpy2dReason wd h dp.toNat) o.m x.m.val.toNat [⟨a, sn, 0, false⟩, ⟨b, dn, 1, false⟩] none with
      | some c => s.trap c .fresh
      | none =>
        s.handCopy 0x181 ord (.strided sp.toNat dp.toNat wd h) x.a.val x.b.val x.m.val (wd * h) (s.scoreOf a sn false ++ s.scoreOf b dn true))
/-- CPYG (R289, R290). -/
def execCpyg (ord : Bool) (cnt : BitVec 32) (e16 : BitVec 12) (sx : Bool) (o : EngOps) (s : State) : Out :=
  let x := s.engSrc o
  .next (s.ifActive fun s =>
    s.consume 5 0 (x.consumed o s.iss.act) fun s =>
      let n := cnt.toNat
      let es := 16 * e16.toNat
      let a := x.a.val.toNat
      let b := x.b.val.toNat
      let t := x.c.val.toNat
      match s.engineRefused 0x182 (cpygReason n e16.toNat) o.m x.m.val.toNat [⟨b, n * es, 1, false⟩, ⟨t, 4 * n, 0, false⟩] none with
      | some c => s.trap c .fresh
      | none =>
        s.handCopy 0x182 ord (.gather t n es sx) x.a.val x.b.val x.m.val (n * es)
          (s.scoreWhole a ++ s.scoreOf b (n * es) true ++ s.scoreOf t (4 * n) false))

/-! ## Tile copies: issue (R281, R291, R294) -/

/-- Fields of a tile address word. -/
def tileRow' (w : Nat) : Nat := fld w 8 0
def tileCol (w : Nat) : Nat := fld w 17 10
def tileTcore (w : Nat) : Nat := fld w 23 20
def tileBad (w : Nat) : Bool := bit w 9 || fld w 19 18 != 0 || fld w 63 24 != 0
/-- The refusals of R294 that the operands alone decide; `words` is set for TFMT 01 and 10, which
take one row word for each element. -/
def State.tileReason (s : State) (w rows elems : Nat) (words : Bool) : Option Nat :=
  let bits := 32 * tileCol w + elems * (if words then 32 else 4)
  if tileBad w ∨ rows = 0 ∨ elems = 0 ∨ s.team.tile / 1024 < rows + tileRow' w ∨ 8192 < bits then some 2 else none
/-- TCORE past the team's cores (R285). -/
def State.tcoreRefused (s : State) (w : Nat) : Option Pending :=
  if s.team.cores.length ≤ tileTcore w then some (permCause w (lowLane s.iss.act) 5) else none
/-- The extent of a tile copy: rows, elements and pitch. -/
def tileExtent (c : DWord) : Nat × Nat × Nat := (fld c.toNat 15 0, fld c.toNat 31 16, fld c.toNat 63 32)
/-- The checks of a tile copy in the order of R285, then its issue. -/
def State.tileCopy (s : State) (opc : Nat) (ord : Bool) (o : EngOps) (x : EngSrc) (tileWord page : DWord) (words : Bool) (acc : Nat)
    (kind : Nat → Nat → Nat → CopyKind) : State :=
  let (rows, elems, pitch) := tileExtent x.c.val
  let w := tileWord.toNat
  match s.engineRefused opc (s.tileReason w rows elems words) o.m x.m.val.toNat [⟨page.toNat, 1, acc, true⟩] (s.tcoreRefused w) with
  | some c => s.trap c .fresh
  | none => s.handCopy opc ord (kind rows elems pitch) x.a.val x.b.val x.m.val rows []
/-- CPYT (R291, R292). -/
def execCpyt (ord pclr : Bool) (o : EngOps) (s : State) : Out :=
  let x := s.engSrc o
  .next (s.ifActive fun s =>
    s.consume 5 0 (x.consumed o s.iss.act) fun s => s.tileCopy 0x183 ord o x x.b.val x.a.val false 0 (CopyKind.tileIn pclr))
/-- CPYTO (R291, R293). -/
def execCpyto (ord : Bool) (tf : TileFmt) (o : EngOps) (s : State) : Out :=
  let x := s.engSrc o
  .next (s.ifActive fun s =>
    s.consume 5 0 (x.consumed o s.iss.act) fun s =>
      s.tileCopy 0x184 ord o x x.a.val x.b.val (tf != .same) 1 (CopyKind.tileOut tf))

/-! ## What an engine's access meets (R287) -/

/-- Why a piece of work did not proceed. -/
inductive Block where
  | held
  | fault (x : XFault) (va acc : Nat)
  | format
  | align (va lg : Nat)
  deriving DecidableEq, Repr
/-- An access by an engine: `n` bytes in one page or one scratchpad part. -/
def State.engineReach (s : State) (c : CopyCmd) (va acc n : Nat) : Except Block Loc × State :=
  let t := mget {} s.teams c.tid
  match windowOf va with
  | .scratch =>
    let o := va - scratchBase
    if c.key.isSome && decide (o / 2 ^ 18 < t.cores.length) && decide (o % 2 ^ 18 + n ≤ t.scratch) then
      (.ok { space := .scratch, addr := objAddr c.tid (BitVec.ofNat 64 va) }, s)
    else (.error (.fault { kind := 1 } va acc), s)
  | .global =>
    match s.reach (.engine c.id) c.die none c.vd c.asid va acc fun a => (a, n) with
    | (.held, s) => (.error .held, s)
    | (.fault x, s) => (.error (.fault x va acc), s)
    | (.ok l, s) => (.ok l, s)
  | _ => (.error (.fault { kind := 1 } va acc), s)
/-- A command is replaced. -/
def State.setCopy (s : State) (c : CopyCmd) : State := { s with copies := s.copies.map fun d => if d.id == c.id then c else d }
/-- The command stops writing (R287): it reports what it has not reported, with ERR, and raises
`cause` in its group, or fails its packet (R365). -/
def State.copyStop (s : State) (c : CopyCmd) (cause : Pending) : State :=
  let rest := s.restBytes c
  let s := s.bumpFree.setCopy { c with stopped := true, left := [] }
  let s := s.faultDiscard c.vd fun r => r.origin == .engine c.id
  let s := s.mbReport c rest true
  let s := if c.cancelled then s else s.engineError c.key c.vd cause
  match c.job with
  | none => s
  | some (iq, idx, _) =>
    s.updVd c.vd fun v => { v with queues := mmap v.queues fun k q => if k = iq then { q with pkts := mmap q.pkts fun j p => if j = idx then p.fail 4 0 else p } else q }
/-- The command ends with an ENGINE reason (R287). -/
def State.copyFail (s : State) (c : CopyCmd) (reason : Nat) (addr : DWord) : State :=
  (if reason = 4 then s.guestFault c.vd else s).copyStop c (engineCause reason c.opc addr c.region)
/-- A blocked piece: a replayable fault enters the fault buffer, once, and the piece waits; any
other fault, or a refused format, ends the command. -/
def State.copyBlocked (s : State) (c : CopyCmd) (b : Block) : State :=
  match b with
  | .held => s
  | .format => s.copyFail c 3 c.src
  | .align va lg => s.copyStop c (alignCause va 0 lg)
  | .fault x va acc =>
    if x.repl then
      if (s.vd c.vd).fault.reqs.any fun r => r.origin == .engine c.id && r.va.toNat / 65536 == va / 65536 && r.acc == acc && r.kind == x.kind then s
      else s.faultRaise c.vd (faultReq (.engine c.id) x acc 3 c.asid (BitVec.ofNat 64 va) 0)
    else s.copyFail c 4 (BitVec.ofNat 64 va)

/-! ## Linear, strided and gathered work (R290) -/

/-- A run of bytes to move: source and destination addresses, length, and whether the index that
chose it was poisoned. -/
structure Seg where
  src : Nat
  dst : Nat
  len : Nat
  bad : Bool := false
  deriving DecidableEq, Repr
/-- Whether a destination byte lies in the source of the command, where the result is undefined; an
element whose index is not known yet may have it in its source. DEDUCED. Log entry 35. -/
def CopyCmd.overlaps (c : CopyCmd) (bases : List (Option Nat)) (d : Nat) : Bool :=
  let a := c.src.toNat
  match c.kind with
  | .linear => decide (a ≤ d) && decide (d < a + c.units)
  | .strided sp _ wd h =>
    if d < a then false
    else
      let r := if sp = 0 then 0 else min (h - 1) ((d - a) / sp)
      decide (d - a - r * sp < wd)
  | .gather _ _ es _ => bases.any fun b => match b with | some b => decide (b ≤ d) && decide (d < b + es) | none => true
  | _ => false
/-- The runs that a range of units of a linear or strided copy moves. -/
def CopyCmd.segs (c : CopyCmd) (off len : Nat) : List Seg :=
  let a := c.src.toNat
  let b := c.dst.toNat
  match c.kind with
  | .strided sp dp wd _ =>
    (List.range ((off + len - 1) / wd - off / wd + 1)).map fun i =>
      let r := off / wd + i
      let lo := max off (r * wd)
      let hi := min (off + len) ((r + 1) * wd)
      ⟨a + r * sp + (lo - r * wd), b + r * dp + (lo - r * wd), hi - lo, false⟩
  | _ => [⟨a + off, b + off, len, false⟩]
/-- An index word of a gather as the engine reads it, and its sector's poison. -/
def State.indexWord (s : State) (c : CopyCmd) (va : Nat) : Except Block (Nat × Bool) × State :=
  match s.engineReach c va 0 4 with
  | (.error b, s) => (.error b, s)
  | (.ok l, s) =>
    (.ok (leNat ((List.range 4).map fun i => s.engineByte c.die l (l.addr + i)), s.engineBad c.die l l.addr 4), s.meetLoc (some c.vd) (some c.die) l 4)
/-- The source base of a gathered element; none where it is skipped. -/
def gatherBase (a es : Nat) (sx : Bool) (x : Nat) : Option Nat :=
  if x = 0xFFFFFFFF ∧ !sx then none
  else some (wrap ((a : Int) + (if sx then sext x 32 else (x : Int)) * (es : Int)) 64)
/-- The runs of a range of a gather, with the index reads that choose them. -/
def State.gatherSegs (s : State) (c : CopyCmd) (table es : Nat) (sx : Bool) (off len : Nat) : Except Block (List Seg) × State :=
  (List.range ((off + len - 1) / es - off / es + 1)).foldl (fun r i =>
    match r with
    | (.error b, s) => (.error b, s)
    | (.ok gs, s) =>
      let e := off / es + i
      match s.indexWord c (table + 4 * e) with
      | (.error b, s) => (.error b, s)
      | (.ok (x, p), s) =>
        let lo := max off (e * es) - e * es
        let hi := min (off + len) ((e + 1) * es) - e * es
        match if p then some c.src.toNat else gatherBase c.src.toNat es sx x with
        | none => (.ok gs, s)
        | some base => (.ok (gs ++ [⟨base + lo, c.dst.toNat + e * es + lo, hi - lo, p⟩]), s)) (.ok [], s)
/-- The source bases of every element of a gather, as its index words read now: the ranges that
its destination may overlap. An index word that cannot be read yet may name any range: `none`. -/
def State.gatherBases (s : State) (c : CopyCmd) : List (Option Nat) :=
  match c.kind with
  | .gather table count es sx =>
    (List.range count).filterMap fun e =>
      match (s.indexWord c (table + 4 * e)).1 with
      | .ok (x, false) => (gatherBase c.src.toNat es sx x).map some
      | .ok (_, true) => none
      | .error _ => some none
  | _ => []
/-- A run cut where either side crosses a 64 KiB boundary. -/
def Seg.cut (g : Seg) : List Seg :=
  let at' (i : Nat) : Bool := i == 0 || (g.src + i) % 65536 == 0 || (g.dst + i) % 65536 == 0
  let starts := (List.range g.len).filter at'
  (starts.zip (starts.drop 1 ++ [g.len])).map fun e => ⟨g.src + e.1, g.dst + e.1, e.2 - e.1, g.bad⟩
/-- The locations of every run. A run whose index was poisoned reads no source (R290). -/
def State.placeSegs (s : State) (c : CopyCmd) (gs : List Seg) : Except Block (List (Seg × Option Loc × Loc)) × State :=
  gs.foldl (fun r g =>
    match r with
    | (.error b, s) => (.error b, s)
    | (.ok ls, s) =>
      match (if g.bad then (.ok none, s) else
          match s.engineReach c g.src 0 g.len with
          | (.error b, s) => (Except.error b, s)
          | (.ok l, s) => (.ok (some l), s)) with
      | (.error b, s) => (.error b, s)
      | (.ok src, s) =>
        match s.engineReach c g.dst 1 g.len with
        | (.error b, s) => (.error b, s)
        | (.ok dst, s) => (.ok (ls ++ [(g, src, dst)]), s)) (.ok [], s)
/-- Bytes with their marks are written, one write for each store and class (R252, R288). -/
def State.engineStore (s : State) (die vd id : Nat) (bs : List (Loc × Nat × Byte × Bool)) : State :=
  let kinds := bs.foldl (fun ks e => let k := (e.1.space, e.1.dieCoh); if ks.contains k then ks else ks ++ [k]) ([] : List (Space × Bool))
  kinds.foldl (fun s k =>
    let mine := bs.filter fun e => e.1.space == k.1 && e.1.dieCoh == k.2
    s.engineWrite die (QStore.ofLanes k.1 k.2 vd (mine.map fun e => ([(e.2.1, e.2.2.1)], e.2.2.2))) (some (.engine id))) s
/-- The bytes of placed runs as the engine writes them. -/
def State.segBytes (s : State) (c : CopyCmd) (bases : List (Option Nat)) (ls : List (Seg × Option Loc × Loc)) : List (Loc × Nat × Byte × Bool) :=
  ls.flatMap fun e =>
    (List.range e.1.len).map fun i =>
      let d := e.1.dst + i
      let free : Byte := (s.free (d % 2 ^ 40)).setWidth 8
      match e.2.1 with
      | none => (e.2.2, e.2.2.addr + i, free, true)
      | some l =>
        (e.2.2, e.2.2.addr + i, if c.overlaps bases d then free else s.engineByte c.die l (l.addr + i),
         s.engineBad c.die l (l.addr + i) 1)

/-! ## Tile work (R292 to R294) -/

/-- The page that holds element `e` of a tensor, counted from the page at `va`, its VA, and the element's
place in it; every page must carry the format `f`. -/
def State.tensorPage (s : State) (c : CopyCmd) (acc f : Nat) : Nat → Nat → Nat → Except Block (Loc × Nat × Nat) × State
  | 0, _, _ => (.error .format, s)
  | n + 1, va, e =>
    match s.engineReach c va acc 0 with
    | (.error b, s) => (.error b, s)
    | (.ok l, s) =>
      if l.fmt ≠ f then (.error .format, s)
      else if e < tensorElems f l.size then (.ok (l, va, e), s)
      else State.tensorPage s c acc f n (va + l.size) (e - tensorElems f l.size)
/-- Where an element and, on a Q page, its metadata lie. -/
structure ElemLoc where
  loc : Loc
  high : Bool
  mloc : Loc
  deriving DecidableEq, Repr
/-- The places of `cnt` elements from element `e0` of a tensor; a grant must cover the bytes of each
element and of the metadata that is read or written with it (R398). -/
def State.tensorElemsAt (s : State) (c : CopyCmd) (acc f fuel va e0 cnt : Nat) : Except Block (List ElemLoc) × State :=
  (List.range cnt).foldl (fun r i =>
    match r with
    | (.error b, s) => (.error b, s)
    | (.ok ls, s) =>
      match s.tensorPage c acc f fuel va (e0 + i) with
      | (.error b, s) => (.error b, s)
      | (.ok (l, pva, e), s) =>
        let p := elemPlace f e
        let m := l.page + qMeta f p.1
        if !s.admits c.vd l (l.page + p.1, max 1 (copyBits f / 8)) (acc != 0) || (fmtQuant f && !s.admits c.vd l (m, 4) (acc != 0)) then
          (.error (.fault { kind := 5 } (pva + p.1) acc), s)
        else (.ok (ls ++ [⟨{ l with addr := l.page + p.1 }, p.2, { l with addr := m }⟩]), s)) (.ok [], s)
/-- The refusals that depend on the page's format (R294), with A's element position. -/
def formatRefuses (f w elems pitch : Nat) (tf : TileFmt) (first : Nat) : Bool :=
  let col := tileCol w
  let b := copyBits f
  let fl := (elemFp (fmtElem f)).isSome
  let int := decide (7 ≤ fmtElem f) && decide (fmtElem f ≤ 10)
  (tf == .same && decide (8192 < 32 * col + elems * b)) ||
    (fmtQuant f && (decide (elems % qLen f ≠ 0) || decide (pitch % qLen f ≠ 0) || decide (first % qLen f ≠ 0)
      || decide (32 * col % (qLen f * b) ≠ 0) || decide (7 < 32 * col / (qLen f * b) + elems / qLen f - 1) || tf != .same)) ||
    (b == 4 && (decide (first % 2 = 1) || decide (pitch % 2 = 1))) || (tf == .fp32 && !fl) || (tf == .int32 && !int)
/-- The bytes of an element code at its width. -/
def State.elemCode (s : State) (die : Nat) (f : Nat) (e : ElemLoc) : Nat :=
  if copyBits f = 4 then
    let x := (s.engineByte die e.loc e.loc.addr).toNat
    if e.high then x / 16 else x % 16
  else leNat ((List.range (copyBits f / 8)).map fun i => s.engineByte die e.loc (e.loc.addr + i))
/-- Codes laid from bit 0 of a row's span, over the span's old last byte (R292). -/
def packCodes (b : Nat) (codes : List Nat) (old : Nat) : List Byte :=
  if b = 4 then
    (List.range ((codes.length + 1) / 2)).map fun k =>
      let hi := match codes[2 * k + 1]? with | some x => x | none => old / 16
      BitVec.ofNat 8 (codes.getD (2 * k) 0 + 16 * hi)
  else codes.flatMap fun x => leBytes (b / 8) x
/-- One row of CPYT. -/
def State.rowIn (s : State) (c : CopyCmd) (pclr : Bool) (f row w : Nat) (es : List ElemLoc) : State :=
  let b := copyBits f
  let col := 4 * tileCol w
  let g := qLen f
  let last := (s.tileByte row (col + es.length * b / 8)).toNat
  let bytes := packCodes b (es.map (s.elemCode c.die f)) last
  let heads := if fmtQuant f then (es.zipIdx.filter fun e => e.2 % g == 0).map fun e => e.1 else []
  let slot0 := 32 * tileCol w / (g * b)
  let metas := heads.map fun e => (List.range 4).map fun i => s.engineByte c.die e.mloc (e.mloc.addr + i)
  let bad := (es.any fun e => s.engineBad c.die e.loc e.loc.addr (max 1 (b / 8)))
    || heads.any fun e => s.engineBad c.die e.mloc e.mloc.addr 4
  let s := es.foldl (fun s e => s.meetLoc (some c.vd) (some c.die) e.loc (max 1 (b / 8))) s
  let s := heads.foldl (fun s e => s.meetLoc (some c.vd) (some c.die) e.mloc 4) s
  let s := s.writeTile row col bytes
  let s := if heads.isEmpty then s else s.writeSide row (4 * slot0) metas.flatten
  let s := if pclr then s.setPb row false else s
  let s := if bad then s.setPb row true else s
  s.markDirty c.tid (some (.engine c.id)) [.tile (row / 512 % 16) (row % 512) col bytes.length, .side (row / 512 % 16) (row % 512) slot0 heads.length]
/-- The code that CPYTO writes for element `i` of a row (R293). -/
def State.rowCode (s : State) (tf : TileFmt) (f row w i : Nat) : Nat :=
  let b := copyBits f
  let col := tileCol w
  let word := (s.tileWord row (col + i)).toNat
  match tf with
  | .same =>
    if b = 4 then let x := (s.tileByte row (4 * col + i / 2)).toNat; if i % 2 = 1 then x / 16 else x % 16
    else leNat ((List.range (b / 8)).map fun k => s.tileByte row (4 * col + i * (b / 8) + k))
  | .fp32 => match elemFp (fmtElem f) with | some fm => Fp.enc fm .rn (Fp.val Fp.f32 word) | none => 0
  | .int32 => if elemSigned (fmtElem f) then satS (sext word 32) b else satU (sext word 32) b
/-- One row of CPYTO. -/
def State.rowOut (s : State) (c : CopyCmd) (tf : TileFmt) (f row w : Nat) (es : List ElemLoc) : State :=
  let b := copyBits f
  let g := qLen f
  let bad := s.pb row
  let codes := es.zipIdx.map fun e => (e.1, s.rowCode tf f row w e.2)
  let data : List (Loc × Nat × Byte × Bool) :=
    if b = 4 then
      (List.range ((codes.length + 1) / 2)).filterMap fun k =>
        match codes[2 * k]? with
        | none => none
        | some (e, x) =>
          let hi := match codes[2 * k + 1]? with | some y => y.2 | none => (s.engineByte c.die e.loc e.loc.addr).toNat / 16
          some (e.loc, e.loc.addr, BitVec.ofNat 8 (x + 16 * hi), bad)
    else codes.flatMap fun e => (bytesAt e.1.loc.addr (leBytes (b / 8) e.2)).map fun p => (e.1.loc, p.1, p.2, bad)
  let slot0 := 32 * tileCol w / (g * b)
  let heads := if fmtQuant f then ((es.zipIdx.filter fun e => e.2 % g == 0).map fun e => e.1).zipIdx else []
  let metas : List (Loc × Nat × Byte × Bool) := heads.flatMap fun e =>
    let m := s.sideSlot row (slot0 + e.2) % (if b = 4 then 2 ^ 20 else 2 ^ 24)
    (bytesAt e.1.mloc.addr (leBytes 4 m)).map fun p => (e.1.mloc, p.1, p.2, bad)
  s.engineStore c.die c.vd c.id (data ++ metas)

/-! ## The engine's pieces (R286 to R288) -/

/-- A range leaves the units still to be moved. -/
def takeRange (off len : Nat) (rs : List (Nat × Nat)) : List (Nat × Nat) :=
  rs.flatMap fun r =>
    if r.1 ≤ off ∧ off + len ≤ r.1 + r.2 then [(r.1, off - r.1), (off + len, r.1 + r.2 - (off + len))].filter fun x => x.2 != 0 else [r]
/-- The piece has been moved: its bytes are reported. -/
def State.copyMoved (s : State) (c : CopyCmd) (off len : Nat) : State :=
  ((s.setCopy { c with left := takeRange off len c.left, moved := c.moved + len }).bumpFree).mbReport c (c.rangeBytes (off, len)) false
/-- Runs of bytes are moved. -/
def State.moveSegs (s : State) (c : CopyCmd) (off len : Nat) (bases : List (Option Nat)) (gs : List Seg) : State :=
  match s.placeSegs c (gs.flatMap Seg.cut) with
  | (.error b, s) => s.copyBlocked c b
  | (.ok ls, s) =>
    let s := ls.foldl (fun s e => match e.2.1 with | some l => s.meetLoc (some c.vd) (some c.die) l e.1.len | none => s) s
    (s.engineStore c.die c.vd c.id (s.segBytes c bases ls)).copyMoved c off len
/-- Rows of a tile copy are moved, after the tensor's first page has been translated and its
format accepted. An address at which no element begins, in a Q page's padding or misaligned, stops
the command with ALIGN, which R119 gives a typed access. DEDUCED. Log entry 35. -/
def State.moveRows (s : State) (c : CopyCmd) (off len : Nat) (page word : DWord) (elems pitch : Nat) (tf : TileFmt) (acc : Nat)
    (row1 : State → CopyCmd → Nat → Nat → List ElemLoc → State) : State :=
  let w := word.toNat
  let va := page.toNat
  match s.engineReach c va acc 1 with
  | (.error b, s) => s.copyBlocked c b
  | (.ok l, s) =>
    let f := l.fmt
    let c := { c with fmt := some f }
    let s := s.setCopy c
    let first := elemAt f l.size (l.addr - l.page)
    if !fmtValid f then s.copyFail c 3 page
    else if first.isNone then s.copyBlocked c (.align va (Nat.log2 (max 1 (copyBits f / 8))))
    else if formatRefuses f w elems pitch tf (first.getD 0) then s.copyFail c 3 page
    else
      let base := va - (l.addr - l.page)
      let fuel := c.units * (pitch + elems) + 2
      let r : Except Block (List (Nat × List ElemLoc)) × State := (List.range len).foldl (fun r i =>
        match r with
        | (.error b, s) => (Except.error b, s)
        | (.ok rows, s) =>
          match s.tensorElemsAt c acc f fuel base (first.getD 0 + (off + i) * pitch) elems with
          | (.error b, s) => (.error b, s)
          | (.ok es, s) => (.ok (rows ++ [(off + i, es)]), s)) (Except.ok ([] : List (Nat × List ElemLoc)), s)
      match r with
      | (.error Block.format, s) => s.copyFail c 3 page
      | (.error b, s) => s.copyBlocked c b
      | (.ok rows, s) =>
        (rows.foldl (fun s e => row1 s c f (tileRow c.tid (tileTcore w) (tileRow' w + e.1)) e.2) s).copyMoved c off len
/-- Whether a command may start: one with .ord waits for every earlier copy of its group (R286). -/
def State.mayStart (s : State) (c : CopyCmd) : Bool := !c.ord || !(s.copies.any fun d => d.key == c.key && decide (d.id < c.id))
/-- A failed request of a command (R332). -/
def State.copyFailed (s : State) (c : CopyCmd) : Option FaultReq := (s.vd c.vd).fault.reqs.find? fun r => r.origin == .engine c.id && r.failed
/-- A range of a command's units is moved and reported, or meets what stops or holds it. -/
def State.copyPiece (s : State) (c : CopyCmd) (off len : Nat) : State :=
  match c.kind with
  | .gather t _ es sx =>
    match s.gatherSegs c t es sx off len with
    | (.error b, s) => s.copyBlocked c b
    | (.ok gs, s) => s.moveSegs c off len (s.gatherBases c) gs
  | .tileIn pclr _ elems pitch =>
    s.moveRows c off len c.src c.dst elems pitch .same 0 fun s c f row es => s.rowIn c pclr f row c.dst.toNat es
  | .tileOut tf _ elems pitch =>
    s.moveRows c off len c.dst c.src elems pitch tf 1 fun s c f row es => s.rowOut c tf f row c.src.toNat es
  | _ => s.moveSegs c off len [] (c.segs off len)
def State.copyOf (s : State) (cmd : Nat) : Option CopyCmd := s.copies.find? fun c => c.id == cmd
/-- ENGINE_REPORT: the engine moves units [off, off + len) of a command and reports them (R286). -/
def execEngineReport (cmd off len : Nat) (s : State) : Out :=
  .next (match s.copyOf cmd with
    | none => s
    | some c =>
      if c.stopped || len = 0 || !s.mayStart c || !(c.left.any fun r => decide (r.1 ≤ off) && decide (off + len ≤ r.1 + r.2)) then s
      else match s.copyFailed c with
      | some r => s.copyFail c 4 r.va
      | none => s.copyPiece c off len)
/-- COPY_RETIRE: a command with nothing left to report retires, and its scoreboard entries are free (R225, R286). -/
def execCopyRetire (cmd : Nat) (s : State) : Out :=
  .next (match s.copyOf cmd with
    | none => s
    | some c =>
      if !c.left.isEmpty then s
      else
        let s := ({ s with copies := s.copies.filter fun d => d.id != cmd } : State).faultDiscard c.vd fun r => r.origin == Origin.engine cmd
        let s := match c.key with | some k => s.reseal k | none => s
        if c.key.isNone then s
        else if (mfind s.teams c.tid).isSome then (s.teamOver c.tid).checkQuiet c.tid else s)
/-- ENGINE_FAULT: the engine takes up the next unit of a command; where that meets a fault that is
not replayable, or the pager has failed one, the command ends (R287). -/
def execEngineFault (cmd : Nat) (s : State) : Out :=
  .next (match s.copyOf cmd with
    | none => s
    | some c =>
      if c.stopped || !s.mayStart c then s
      else match s.copyFailed c, c.left with
      | some r, _ => s.copyFail c 4 r.va
      | none, r :: _ =>
        let s' := s.copyPiece c r.1 1
        match s'.copyOf cmd with
        | some d => if d.stopped then s' else s
        | none => s
      | none, [] => s)

end Sys2Proof.Machine
end

