-- ==== Sys2Proof/Machine/Memory.lean ====
section
/-! DEFINITION. Memory: uniform, plain and typed loads and stores, prefetch, atomics, fences, cache maintenance, poison tags and signals (R167, R245 to R271). -/
namespace Sys2Proof.Machine

/-! ## Writing lanes of a destination group -/

/-- The lanes `m` of the destination registers take their words, the tags joined with the guard's. -/
def State.landLanes (s : State) (o : Ops) (m : Word) (vals : List (Nat → Nat)) (dp : Word) : State :=
  s.updGrp fun g =>
    vals.zipIdx.foldl (fun g e =>
      g.writeV m (s.destW o.d e.2 (.general ((List.range 32).map fun l => BitVec.ofNat 32 (e.1 l))) dp 0)) g
/-- The words of a value of 32 or 64 bits. -/
def wordsOf (is64 : Bool) (f : Nat → Nat) : List (Nat → Nat) := if is64 then [f, fun l => f l / 2 ^ 32] else [f]
/-- The lanes of some accesses. -/
def laneMask {α : Type} (ls : List (Nat × α)) : Word := maskOf fun l => ls.any fun e => e.1 == l
/-- Registers of a destination group. -/
def destRegs (o : Ops) (n : Nat) : List Nat := (List.range n).map fun j => o.d.reg + j
/-- The value that a lane's list gives, 0 where it gives none. -/
def laneVal (vs : List (Nat × Nat)) (l : Nat) : Nat := ((vs.find? fun e => e.1 == l).map fun e => e.2).getD 0

/-! ## Loads and stores (R253 to R255) -/

/-- Lanes read `n` bytes; a poisoned lane takes an undefined value (R252). -/
def State.loadLanes (s : State) (sc : Scope) (n : Nat) (nal : Bool) (ls : List (Nat × Loc)) : List (Nat × Nat) × Word × State :=
  let g := s.grp
  let vs := ls.map fun e => (e.1, s.loadN g sc e.2 n)
  let bad := maskOf fun l => vs.any fun e => e.1 == l && e.2.2
  let vals := vs.map fun e => (e.1, if e.2.2 then (s.free e.1).toNat else e.2.1)
  let s := ls.foldl (fun s e => s.loadFill g sc e.2 n nal) s
  (vals, bad, if bad = 0 then s else s.bumpFree)
/-- The die L2 marks the sectors of a .strm load first for eviction (R253). -/
def State.markStrm (s : State) (n : Nat) (ls : List (Nat × Loc)) : State :=
  let secs := (ls.filter fun e => e.2.space = .hbm).flatMap fun e => e.2.sectors n
  s.setMem fun m => { m with l2 := m.l2.map fun c => if c.die == dieOf s.grp.core && secs.contains c.sector then { c with strm := true } else c }
/-- LD (R254). -/
def execLd (ty : Ty) (hint : LdHint) (sc : Scope) (od : MemOrd) (sx nodfr : Bool) (o : Ops) (s : State) : Out :=
  let n := ty.width / 8
  let eas := s.lanesEa o sx fun _ => n
  let m : Access := { n := n, acc := 0, sc := sc, acq := od.isAcq, rel := false, defer := !nodfr, score := true,
                      dst := destRegs o (if ty.is64 then 2 else 1), pair := ty.is64 }
  .next (s.laneMem m (s.addrConsumed o true s.iss.act) (eas.getD · 0) (fun _ _ _ => none) fun s ls =>
    let (vs, bad, s) := s.loadLanes sc n (hint = .nal) ls
    let s := if hint = .strm then s.markStrm n ls else s
    let val (l : Nat) : Nat := wrap (ty.int (laneVal vs l)) 64
    s.landLanes o (laneMask ls) (wordsOf ty.is64 val) bad)
/-- The lanes' stores join the group's queue: one write for each store and class, in lane order (R223, R224, R252). -/
def State.queueLanes (s : State) (ls : List (Nat × Loc × List Byte)) (bad : Word) (strm : Bool := false) : State :=
  let kinds := ls.foldl (fun ks e => let k := (e.2.1.space, e.2.1.dieCoh); if ks.contains k then ks else ks ++ [k]) ([] : List (Space × Bool))
  kinds.foldl (fun s k =>
    let mine := ls.filter fun e => e.2.1.space == k.1 && e.2.1.dieCoh == k.2
    s.updGrp fun g =>
      { g with sq := g.sq ++ [QStore.ofLanes k.1 k.2 g.vd (mine.map fun e => (e.2.1.bytes e.2.2, bad.getLsbD e.1)) (strm && k.1 = .hbm)] }) s
/-- ST (R255). -/
def execSt (ty : Ty) (hint : LdHint) (sc : Scope) (od : MemOrd) (sx : Bool) (o : Ops) (s : State) : Out :=
  let n := ty.width / 8
  let eas := s.lanesEa o sx fun _ => n
  let b := s.srcBfield o ty.is64
  let m : Access := { n := n, acc := 1, sc := sc, acq := false, rel := od.isRel, score := true }
  .next (s.laneMem m (s.addrConsumed o true s.iss.act ++ [s.dataConsumed b o.b s.iss.act]) (eas.getD · 0) (fun _ _ _ => none)
    fun s ls => s.queueLanes (ls.map fun e => (e.1, e.2, leBytes n (b.at ty.is64 e.1))) (b.dp ||| s.iss.gdp) (hint = .strm))
/-- PREF: a lane that is refused, faults or carries a tag is dropped (R256). -/
def execPref (ty : Ty) (ph : PrefHint) (sx : Bool) (o : Ops) (s : State) : Out :=
  let n := ty.width / 8
  let eas := s.lanesEa o sx fun _ => n
  let act := s.iss.act
  let tagged := (s.addrConsumed o true act).foldl (fun m c => m ||| c.dp ||| c.fp) 0
  let g := s.grp
  let m : Access := { n := n, acc := 0, sc := .core, acq := false, rel := false, win := .globalOnly }
  .next ((lanesOf (act &&& ~~~tagged)).foldl (fun s l =>
    let ea := eas.getD l 0
    match s.checkEas m [(l, ea)] with
    | some _ => s
    | none =>
      match translate s (dieOf g.core) (some g.core) g.vd s.team.asid ea 0 with
      | .error _ => s
      | .ok (e, s) =>
        let loc := e.loc ea
        if loc.space ≠ .hbm ∨ ph = .cis then s
        else s.loadFill g .core loc 1 (ph != .l1)) s).finish

/-! ## Uniform loads and stores (R167) -/

/-- The address of a uniform access: A and the offset of F128I. -/
def State.onceEa (s : State) (o : Ops) : SReg × Nat :=
  let a := s.uniA o
  (a, wrap ((a.val.toNat : Int) + (if o.fmt = .f128i then sext o.imm.toNat 64 else 0)) 64)
/-- SLD (R167). -/
def execSld (ty : Ty) (sc : Scope) (od : MemOrd) (o : Ops) (s : State) : Out :=
  let n := ty.width / 8
  let (a, ea) := s.onceEa o
  let m : Access := { n := n, acc := 0, sc := sc, acq := od.isAcq, rel := false, win := .noStack, score := true }
  .next (s.ifActive fun s => s.consume 0 0 [a.consumed o.a s.iss.act] fun s =>
    s.onceMem m ea none fun s l =>
      let (vs, bad, s) := s.loadLanes sc n false [(0, l)]
      let x := laneVal vs 0
      s.putS o.d (if bad = 0 then BitVec.ofNat 64 (wrap (ty.int x) 64) else BitVec.ofNat 64 x) (if bad = 0 then .clean else .poison))
/-- SST (R167). -/
def execSst (ty : Ty) (sc : Scope) (od : MemOrd) (o : Ops) (s : State) : Out :=
  let n := ty.width / 8
  let (a, ea) := s.onceEa o
  let b := s.uni o.b (s.iss.slots.map fun t => t.2.1)
  let m : Access := { n := n, acc := 1, sc := sc, acq := false, rel := od.isRel, win := .noStack, score := true }
  .next (s.ifActive fun s =>
    s.consume 0 0 [a.consumed o.a s.iss.act, ⟨o.b.code, 0, allLanes (b.tag = .pending), s.iss.act⟩] fun s =>
    s.onceMem m ea none fun s l => (s.queueLanes [(0, l, leBytes n b.val.toNat)] (if b.tag = .poison then 1 else 0)).finish)

/-! ## Typed loads and stores (R257 to R259) -/

/-- The unit that an F96 index of a typed access counts in: that of the page that holds the base.
DEDUCED. Log entry 18. -/
def State.typedUnit (s : State) (base : Nat) : Nat :=
  let g := s.grp
  if windowOf base ≠ .global then 0
  else match translate s (dieOf g.core) (some g.core) g.vd s.team.asid base 0 with
    | .ok (e, _) => elemUnit (fmtElem e.fmt)
    | .error _ => 0
/-- Why a typed lane is refused on its page (R119, R259). -/
def State.typedRefused (s : State) (ty : Ty) (e2 load sat : Bool) (acc lane ea : Nat) (l : Loc) : Option Pending :=
  let elem := fmtElem l.fmt
  let off := l.addr - l.page
  let u := elemUnit elem
  if !typedOk l.fmt ty e2 load || (sat && !(decide (7 ≤ elem) && decide (elem ≤ 10))) then some (xlateCause ea lane 7 acc false)
  else if ea % u ≠ 0 then some (alignCause ea lane (Nat.log2 u))
  else if fmtQuant l.fmt then
    if !qHolds l.fmt l.size off then some (alignCause ea lane (Nat.log2 u))
    else if load && l.space = .remote && !s.homeAdmits s.grp.vd (l.page + qMeta l.fmt off) 4 false then some (xlateCause ea lane 5 acc false)
    else none
  else none
/-- One lane's elements as a typed load reads them: one, or the two of .e2. -/
def State.typedRead (s : State) (sc : Scope) (ty : Ty) (m : Rnd) (e2 : Bool) (l : Loc) : List Nat × Bool :=
  let g := s.grp
  let f := l.fmt
  let (x, bad) := s.loadN g sc l (elemUnit (fmtElem f))
  let (mw, mbad) := if fmtQuant f then s.loadN g sc { l with addr := l.page + qMeta f (l.addr - l.page) } 4 else (0, false)
  ((if e2 then [x % 16, x / 16] else [x]).map fun q => typedLoad f ty m q mw, bad || mbad)
/-- LDT (R257, R258). -/
def execLdt (ty : Ty) (m : Rnd) (sc : Scope) (od : MemOrd) (e2 nodfr : Bool) (o : Ops) (s : State) : Out :=
  let a := s.srcA o true
  let eas := s.lanesEa o false fun l => s.typedUnit (a.d l)
  let n := if ty.is64 || e2 then 2 else 1
  let acc : Access := { n := 1, acc := 0, sc := sc, acq := od.isAcq, rel := false, win := .globalOnly, aligned := false, defer := !nodfr,
                        dst := destRegs o n, pair := ty.is64 }
  .next (s.laneMem acc (s.addrConsumed o true s.iss.act) (eas.getD · 0) (s.typedRefused ty e2 true false 0) fun s ls =>
    let rs := ls.map fun e => (e.1, s.typedRead sc ty m e2 e.2)
    let bad := maskOf fun l => rs.any fun e => e.1 == l && e.2.2
    let val (k l : Nat) : Nat :=
      match rs.find? fun e => e.1 == l with
      | some e => if e.2.2 then (s.free (64 * k + l)).toNat else e.2.1.getD k 0
      | none => 0
    let s1 := ls.foldl (fun s e =>
      let s := s.loadFill s.grp sc e.2 1 false
      if fmtQuant e.2.fmt then s.loadFill s.grp sc { e.2 with addr := e.2.page + qMeta e.2.fmt (e.2.addr - e.2.page) } 4 false else s) s
    let s2 := s1.landLanes o (laneMask ls) (if e2 then [val 0, val 1] else wordsOf ty.is64 (val 0)) bad
    if bad = 0 then s2 else s2.bumpFree)
/-- STT (R257, R258): element codes only. -/
def execStt (ty : Ty) (m : Rnd) (sc : Scope) (od : MemOrd) (e2 sat : Bool) (o : Ops) (s : State) : Out :=
  let a := s.srcA o true
  let eas := s.lanesEa o false fun l => s.typedUnit (a.d l)
  let b := s.srcBfield o ty.is64
  let b1 := if e2 then s.srcBfield o false 1 else Src.const 0
  let acc : Access := { n := 1, acc := 1, sc := sc, acq := false, rel := od.isRel, win := .globalOnly, aligned := false }
  .next (s.laneMem acc (s.addrConsumed o true s.iss.act ++ [s.dataConsumed { b with fp := b.fp ||| b1.fp } o.b s.iss.act]) (eas.getD · 0)
    (s.typedRefused ty e2 false sat 1) fun s ls =>
      s.queueLanes (ls.map fun e =>
        let f := e.2.fmt
        let x := typedStore f ty m sat (b.at ty.is64 e.1)
        let y := if e2 then typedStore f ty m sat (b1.w e.1) * 16 else 0
        (e.1, e.2, leBytes (elemUnit (fmtElem f)) (x + y))) (b.dp ||| b1.dp ||| s.iss.gdp))

/-! ## Atomics (R260 to R265) -/

/-- The new value of an operation at a type (R260, R261). -/
def atomNew (ty : Ty) (op : AtomOp) (old v : Nat) : Nat :=
  let fm := Fp.ofTy ty
  let n := ty.width
  match op with
  | .add => if ty.isF then Fp.enc fm .rn (Fp.add .rn (Fp.val fm old) (Fp.val fm v)) else wrap (ty.int old + ty.int v) n
  | .and => Nat.land old v
  | .or => Nat.lor old v
  | .xor => Nat.xor old v
  | .min => if ty.isF then Fp.fmin fm old v else wrap (min (ty.int old) (ty.int v)) n
  | .max => if ty.isF then Fp.fmax fm old v else wrap (max (ty.int old) (ty.int v)) n
  | .exch => v
  | .inc => if v ≤ old then 0 else old + 1
  | .dec => if old = 0 ∨ v < old then v else old - 1
/-- An RMW of the issuing group reads its location, where it is performed (R235, R384). -/
def State.meetAt (s : State) (l : Loc) : State :=
  s.meetLoc (some s.grp.vd) (if l.dieCoh || l.space = .stack then some (dieOf s.grp.core) else none) l 1
/-- What an RMW lane did: the value it returns, whether it was dropped, whether it wrote. -/
structure Rmw where
  lane : Nat
  old : Nat
  dropped : Bool
  wrote : Bool
  deriving DecidableEq, Repr
/-- Lanes perform their RMWs in ascending order, each in one indivisible step; `f` gives the new
value, or none where nothing is written. A lane with poison in its sector or its operand is dropped (R261, R263). -/
def State.rmwLanes (s : State) (n : Nat) (bad : Word) (f : Nat → Nat → Option Nat) (ls : List (Nat × Loc)) : List Rmw × State :=
  ls.foldl (fun (acc : List Rmw × State) e =>
    let s := (acc.2.beforeRmw s.iss.key e.2).meetAt e.2
    let g := s.grp
    let (old, p) := s.pointRead g e.2 n
    if p || bad.getLsbD e.1 then
      (acc.1 ++ [⟨e.1, (s.free e.1).toNat, true, false⟩], s.updErr (some g.vd) fun b => { b with atomdrop := satInc b.atomdrop })
    else match f e.1 old with
      | none => (acc.1 ++ [⟨e.1, old, false, false⟩], s)
      | some x =>
        let w : QStore := { space := e.2.space, dieCoh := e.2.dieCoh, vd := g.vd, bytes := e.2.bytes (leBytes n x), poison := [], clear := [] }
        (acc.1 ++ [⟨e.1, old, false, true⟩], (s.pointWrite g w).wrote (some s.iss.key) true w)) ([], s)
/-- What the acquire of an RMW instruction does: the lanes that `acq` names take part, a dropped lane
never, as it orders as a relaxed load (R263). -/
def State.rmwAcquire (s : State) (sc : Scope) (acq : Rmw → Bool) (rs : List Rmw) (ls : List (Nat × Loc)) : State :=
  match widest ((ls.filter fun e => rs.any fun r => r.lane == e.1 && !r.dropped && acq r).map fun e => e.2.scope sc) with
  | some c => s.acquire s.grp.core c
  | none => s
/-- The old values land, a dropped lane's as an undefined value with tag data-poison. -/
def State.landOld (s : State) (o : Ops) (is64 : Bool) (rs : List Rmw) : State :=
  let bad := maskOf fun l => rs.any fun r => r.lane == l && r.dropped
  let s1 := s.landLanes o (maskOf fun l => rs.any fun r => r.lane == l) (wordsOf is64 (laneVal (rs.map fun r => (r.lane, r.old)))) bad
  if bad = 0 then s1 else s1.bumpFree
/-- What a host page refuses: an operation it does not accept, or one whose AtomicOp the host
completes as an Unsupported Request (R264). -/
def State.hostRefuses (s : State) (ok : Bool) (lane ea : Nat) (l : Loc) : Option Pending :=
  if l.space = .host && (!ok || Config.hostUnsupported l.addr s.clk) then some (permCause ea lane 4) else none
/-- The access of an atomic lane: a read and write of the type's width. Its acquire is the
instruction's own (R235, R263). -/
def atomAccess (ty : Ty) (sc : Scope) (od : MemOrd) (dst : List Nat) : Access :=
  { n := ty.width / 8, acc := 2, sc := sc, acq := false, rel := od.isRel, score := true, dst := dst, pair := ty.is64 }
/-- ATOM, ATOMF and RED differ in the destination and in what host pages accept. -/
def State.atomic (s : State) (ty : Ty) (op : AtomOp) (sc : Scope) (od : MemOrd) (o : Ops) (ret hostOk : Bool) : State :=
  let n := ty.width / 8
  let eas := s.lanesEa { o with fmt := if o.fmt = .f96 then .f64 else o.fmt } false fun _ => n
  let b := s.srcBfield o ty.is64
  let m := atomAccess ty sc od (if ret then destRegs o (if ty.is64 then 2 else 1) else [])
  s.laneMem m (s.addrConsumed o false s.iss.act ++ [⟨o.b.code, 0, b.fp, s.iss.act⟩]) (eas.getD · 0) (s.hostRefuses hostOk) fun s ls =>
    let (rs, s) := s.rmwLanes n b.dp (fun l old => some (atomNew ty op old (b.at ty.is64 l))) ls
    (if ret then s.landOld o ty.is64 rs else if rs.any Rmw.dropped then s.bumpFree else s).rmwAcquire sc (fun _ => od.isAcq) rs ls
def execAtom (ty : Ty) (op : AtomOp) (sc : Scope) (od : MemOrd) (o : Ops) (s : State) : Out :=
  .next (s.atomic ty op sc od o true (op = .add || op = .exch))
def execAtomf (ty : Ty) (op : AtomOp) (sc : Scope) (od : MemOrd) (o : Ops) (s : State) : Out :=
  .next (s.atomic ty op sc od o true false)
def execRed (ty : Ty) (op : AtomOp) (sc : Scope) (od : MemOrd) (o : Ops) (s : State) : Out :=
  .next (s.atomic ty op sc od o false (op = .add && !ty.isF))
/-- ATOMCAS (R262): a failed lane writes nothing and is a load with the failure ordering (R235). -/
def execAtomcas (ty : Ty) (sc : Scope) (od : MemOrd) (fo : Bool) (o : Ops) (s : State) : Out :=
  let n := ty.width / 8
  let eas := s.lanesEa { o with fmt := if o.fmt = .f96 then .f64 else o.fmt } false fun _ => n
  let cmp := s.srcBfield o ty.is64 0
  let new := s.srcBfield o ty.is64 1
  let m := atomAccess ty sc od (destRegs o (if ty.is64 then 2 else 1))
  .next (s.laneMem m (s.addrConsumed o false s.iss.act ++ [⟨o.b.code, 0, cmp.fp ||| new.fp, s.iss.act⟩]) (eas.getD · 0)
    (s.hostRefuses true) fun s ls =>
      let (rs, s) := s.rmwLanes n (cmp.dp ||| new.dp) (fun l old => if old = cmp.at ty.is64 l then some (new.at ty.is64 l) else none) ls
      (s.landOld o ty.is64 rs).rmwAcquire sc (fun r => if r.wrote then od.isAcq else fo) rs ls)

/-! ## Fences and cache maintenance (R266, R267) -/

/-- Whether the turn lets a FENCE.ar go on before the cistern has acknowledged the earlier writes.
They are acknowledged before any later write of the group, but not before its next load, so that
store buffering, which R236 allows under .ar and forbids under .sc, has a schedule. DEDUCED. Log entry 9. -/
def Issue.lateFence (i : Issue) (sc : Scope) (od : MemOrd) : Bool := i.stop.isSome && od = .ar && decide (3 ≤ sc.code)
/-- FENCE: every kind waits for the store queue (R222, R266); a release fence for what a release at
its scope waits for (R229). -/
def execFence (sc : Scope) (od : MemOrd) (_o : Ops) (s : State) : Out :=
  let key := s.iss.key
  .next (s.ifActive fun s =>
    let s :=
      if s.iss.lateFence sc od then
        let s := (s.settleStores key).publish key
        { s with fenced := mset s.fenced key (dieOf s.grp.core) }
      else if od.isRel then s.release key sc else s.drain key
    let s := if od.isRel then s.releaseTo key (.fence key) else s
    (if od.isAcq then s.acquire s.grp.core sc else s).finish)
/-- CMNT.l1: the waits of a release at .die, and no release (R267). -/
def execCmntL1 (_o : Ops) (s : State) : Out := .next (s.ifActive fun s => ((s.settleStores s.iss.key).l1Drop s.grp.core).finish)
/-- The sectors of local HBM that a range of the global window meets; pages that are not present
are skipped, whatever their permissions (ACC 4 asks for none). -/
def State.rangeSectors (s : State) (a n : Nat) : List (Nat × Nat) :=
  let g := s.grp
  (pieces a n).filterMap fun p =>
    match translate s (dieOf g.core) (some g.core) g.vd s.team.asid p.1 4 with
    | .ok (e, _) => let l := e.loc p.1; if l.space = .hbm then some (l.addr / 256, (l.addr + p.2 - 1) / 256) else none
    | .error _ => none
/-- CMNT.wb and .inv over [A, A + B), line by line; the turn may stop it after any line, and pi
counts the lines completed (R251, R267). -/
def State.maintain (s : State) (o : Ops) (inv : Bool) : State :=
  let a := s.uniA o
  let b := s.uniB o
  let key := s.iss.key
  s.ifActive fun s =>
    s.consume 0 0 [a.consumed o.a s.iss.act, b.consumed o.b s.iss.act] fun s =>
      let lo := a.val.toNat
      let n := b.val.toNat
      if n ≠ 0 ∧ (2 ^ 36 < n ∨ 2 ^ 56 < lo + n) then s.trap (xlateCause lo (lowLane s.iss.act) 1 0 false) .fresh
      else if n = 0 then s.finish
      else
        let first := lo / 1024
        let total := (lo + n - 1) / 1024 - first + 1
        let from' := s.iss.pi.toNat
        let upto := match s.iss.stop with | some k => min total (from' + k) | none => total
        let lo' := max lo ((first + from') * 1024)
        let s := s.settleStores key
        let g := s.grp
        let die := dieOf g.core
        let rs := s.rangeSectors lo' (min (lo + n) ((first + upto) * 1024) - lo')
        let hit (c : Nat) : Bool := rs.any fun r => decide (r.1 ≤ c) && decide (c ≤ r.2)
        let s := s.writeBack die g.vd hit
        let s := if inv then
          s.setMem fun m => { m with l2 := m.l2.filter fun c => !(c.die == die && c.vd == g.vd && hit c.sector),
                                     l1 := m.l1.filter fun c => !(c.core == g.core && c.vd == g.vd && hit c.sector) }
         else s
        if upto < total then s.hold { kind := .resource } s.iss.act (BitVec.ofNat 32 upto) else s.finish
def execCmntWb (o : Ops) (s : State) : Out := .next (s.maintain o false)
def execCmntInv (o : Ops) (s : State) : Out := .next (s.maintain o true)

/-! ## Poison tags (R268) -/

/-- The access of TAGRD and TAGWR: the whole sector of an address, at any alignment. -/
def tagAccess (acc : Nat) (sc : Scope) (od : MemOrd) (dst : List Nat) : Access :=
  { n := 0, acc := acc, sc := sc, acq := od.isAcq, rel := od.isRel, win := .noStack, aligned := false, dst := dst }
/-- TAGRD. Its result is uniform where the address is (R68). -/
def execTagrd (sc : Scope) (od : MemOrd) (o : Ops) (s : State) : Out :=
  let a := s.srcA o true
  let uni := a.lo.isUniform && a.hi.isUniform
  let key := s.iss.key
  .next (s.laneMem { tagAccess 0 sc od (destRegs o 1) with general := !uni } (s.addrConsumed o false s.iss.act) a.d (fun _ _ _ => none) fun s ls =>
    let s := ls.foldl (fun s e => s.beforeRmw key e.2) s
    let g := s.grp
    let val (l : Nat) : Nat :=
      match ls.find? fun e => e.1 == l with
      | some e => if e.2.space = .host then 0 else b2n (s.pointRead g e.2 1).2
      | none => 0
    let sh : Shape := if uni then .uniform (BitVec.ofNat 32 (val (lowLane (laneMask ls)))) else .general ((List.range 32).map fun l => BitVec.ofNat 32 (val l))
    s.updGrp fun g => g.writeV (laneMask ls) (s.destW o.d 0 sh 0 0))
/-- TAGWR. -/
def execTagwr (sc : Scope) (od : MemOrd) (clr : Bool) (o : Ops) (s : State) : Out :=
  let a := s.srcA o true
  let key := s.iss.key
  .next (s.laneMem (tagAccess 2 sc od []) (s.addrConsumed o false s.iss.act) a.d
    (fun lane ea l => if l.space = .host then some (permCause ea lane 6) else none) fun s ls =>
      ls.foldl (fun s e =>
        let s := s.beforeRmw key e.2
        let c := [sectorOf e.2.addr]
        s.pointWrite s.grp { space := e.2.space, dieCoh := e.2.dieCoh, vd := s.grp.vd, bytes := [],
                             poison := if clr then [] else c, clear := if clr then c else [] }) s)

/-! ## Signals (R269 to R271) -/

/-- The access of a signal word. -/
def sigAccess (acc : Nat) (sc : Scope) (od : MemOrd) : Access :=
  { n := 8, acc := acc, sc := sc, acq := false, rel := od.isRel, win := .globalOnly }
/-- A trap on a signal word that lies in a poisoned sector (R270). -/
def poisonedWord (lane ea : Nat) : Pending := dataPoison 0x3FF lane 4 ea
/-- SIGST (R270). A poisoned value is reported with consumer 4. DEDUCED. Log entry 19. -/
def execSigst (add irq : Bool) (sc : Scope) (od : MemOrd) (o : Ops) (s : State) : Out :=
  let (a, ea) := s.onceEa o
  let b := s.uni o.b (s.iss.slots.map fun t => t.2.1)
  let key := s.iss.key
  .next (s.ifActive fun s =>
    s.consume 0 0 [a.consumed o.a s.iss.act, ⟨o.b.code, 0, allLanes (b.tag = .pending), s.iss.act⟩] fun s =>
    s.consume 4 ea [b.consumed o.b s.iss.act] fun s =>
    s.onceMem (sigAccess 2 sc od) ea none fun s l =>
      let s := (s.beforeRmw key l).meetAt l
      let g := s.grp
      let (old, p) := s.pointRead g l 8
      if p then s.trap (poisonedWord (lowLane s.iss.act) ea) .fresh
      else
        let x := if add then wrap ((old : Int) + b.val.toNat) 64 else b.val.toNat
        let w : QStore := { space := l.space, dieCoh := l.dieCoh, vd := g.vd, bytes := l.bytes (leBytes 8 x), poison := [], clear := [] }
        let s := (s.pointWrite g w).wrote (some key) add w
        (if irq then s.postIrq g.vd 0 else s).finish)

/-- The deadline of a wait: the one it has, also while its access waits at translation, or `t`
clocks from now; 0 is none. A replayed or restored wait takes the clocks its entry holds (R134, R251). -/
def State.deadline (s : State) (k : WaitKind) (t : Nat) : Option Nat :=
  if (s.grp.wait.kind = k || s.grp.wait.kind = .held || s.grp.wait.kind = .resource) && s.iss.resumed then s.grp.wait.due
  else
    let n := if s.iss.pi = 0 then t else s.iss.pi.toNat
    if n = 0 then none else some (s.clkOf s.grp.core + n)
/-- Whether the timeout of the present wait has fallen. -/
def State.timedOut (s : State) (k : WaitKind) : Bool :=
  let w := s.grp.wait
  (w.kind = k || w.kind = .held || w.kind = .resource) && (w.expired || (match w.due with | some d => decide (d ≤ s.clkOf s.grp.core) | none => false))
/-- The instruction waits with a deadline, pi the clocks left. -/
def State.waitFor (s : State) (k : WaitKind) (num t : Nat) : State :=
  let due := s.deadline k t
  s.hold { kind := k, num := num, due := due } s.iss.act (match due with | some d => BitVec.ofNat 32 (clocksLeft d (s.clkOf s.grp.core)) | none => 0)
/-- SIGWAIT (R271). The comparand's and timeout's tags join the result (R383). -/
def execSigwait (sg : SigCmp) (sc : Scope) (od : MemOrd) (o : Ops) (s : State) : Out :=
  let (a, ea) := s.onceEa o
  let c := s.uniB o 0
  let t := s.uniB o 1
  .next (s.ifActive fun s =>
    s.consume 0 0 [a.consumed o.a s.iss.act] fun s =>
    s.onceMem (sigAccess 0 sc .rlx) ea (s.deadline .sigwait (fld t.val.toNat 31 0)) fun s l =>
      let (vs, bad, s) := s.loadLanes sc 8 true [(0, l)]
      let x : DWord := BitVec.ofNat 64 (laneVal vs 0)
      if bad != 0 then s.putS o.d x .poison
      else if sg.holds x c.val then
        let s := if od.isAcq then (match l.scope sc with | some k => s.acquire s.grp.core k | none => s) else s
        s.putS o.d x (c.tag.join t.tag)
      else if s.timedOut .sigwait then s.putS o.d x (c.tag.join t.tag)
      else s.waitFor .sigwait 0 (fld t.val.toNat 31 0))

end Sys2Proof.Machine
end

