-- ==== Sys2Proof/Machine/Collect.lean ====
section
/-! DEFINITION. Collect: collectives: their issue, the chunks and reduction orders, the completion of a job with its signal, and CLWAIT (R301 to R303, R404 to R412, R433). -/
namespace Sys2Proof.Machine

/-! ## Accesses of jobs -/

/-- An access of `n` bytes in one page of the global window by a unit that works for a VD. -/
def State.jobReach (s : State) (o : Origin) (die vd asid va acc n : Nat) : Except Block Loc × State :=
  if windowOf va ≠ .global then (.error (.fault { kind := 1 } va acc), s)
  else
    match s.reach o die none vd asid va acc fun a => (a, n) with
    | (.held, s) => (.error .held, s)
    | (.fault x, s) => (.error (.fault x va acc), s)
    | (.ok l, s) => (.ok l, s)
/-- The locations of a range, page by page. -/
def State.jobRange (s : State) (o : Origin) (die vd asid va n acc : Nat) : Except Block (List (Loc × Nat)) × State :=
  (pieces va n).foldl (fun r p =>
    match r with
    | (.error b, s) => (.error b, s)
    | (.ok ls, s) =>
      match s.jobReach o die vd asid p.1 acc p.2 with
      | (.error b, s) => (.error b, s)
      | (.ok l, s) => (.ok (ls ++ [(l, p.2)]), s)) (.ok [], s)
/-- A replayable fault of a job enters the fault buffer once, and the job waits. -/
def State.jobWaits (s : State) (o : Origin) (vd src asid : Nat) (x : XFault) (va acc : Nat) : State :=
  if (s.vd vd).fault.reqs.any fun r => r.origin == o && r.va.toNat / 65536 == va / 65536 && r.acc == acc && r.kind == x.kind then s
  else s.faultRaise vd (faultReq o x acc src asid (BitVec.ofNat 64 va) 0)
/-- A request of a unit's work that the pager has failed: of its signal word, or of the rest. -/
def State.jobFailed (s : State) (vd : Nat) (o : Origin) (signal : Bool := false) : Option FaultReq :=
  (s.vd vd).fault.reqs.find? fun r => r.origin == o && r.failed && (r.acc == 2) == signal
/-- The bytes of located pieces with their sectors' poison. -/
def State.jobBytes (s : State) (die : Nat) (ls : List (Loc × Nat)) : List (Byte × Bool) :=
  ls.flatMap fun e => (List.range e.2).map fun i => (s.engineByte die e.1 (e.1.addr + i), s.engineBad die e.1 (e.1.addr + i) 1)

/-! ## The descriptor (R301) -/

def collOp (d : Nat) : Nat := fld d 3 0
def collAlg (d : Nat) : Nat := fld d 5 4
def collEty (d : Nat) : CollTy := (CollTy.ofCode (fld d 9 6)).getD .f32
def collRop (d : Nat) : Nat := fld d 11 10
def collComm (d : Nat) : Nat := fld d 27 12
def collRoot (d : Nat) : Nat := fld d 37 28
def collChunk (d : Nat) : Nat := 2 ^ (fld d 41 38 + 10)
/-- The reason that refuses a job at issue (R302). -/
def collReason (c : Option Comm) (d count : Nat) : Option Nat :=
  match c with
  | none => some 5
  | some c =>
    let n := c.ranks.length
    let eb := (collEty d).bytes
    if count = 0 ∨ count % eb ≠ 0 ∨ 2 ^ 34 < count then some 1
    else if collOp d = 1 ∧ count % (n * eb) ≠ 0 then some 1
    else if n ≤ collRoot d then some 1
    else none
/-- Bytes of a job's source and destination at a rank (R408). -/
def collSrcBytes (c : Comm) (d count : Nat) : Nat := if collOp d = 3 ∧ collRoot d ≠ c.myRank then 0 else count
def collDstBytes (c : Comm) (d count : Nat) : Nat :=
  if collOp d = 1 then count / c.ranks.length else if collOp d = 2 then c.ranks.length * count else count
/-- A range that a job names lies in the global window. -/
def globalRange (va n : Nat) : Bool := n = 0 || windowOfN va n = .global
/-- A job of this rank joins its communicator: it takes the next JSEQ (R404, R405). -/
def State.startColl (s : State) (j : CollJob) : State :=
  let c : Comm := mget ⟨0, [], 0⟩ (s.vd j.vd).comms j.cnum
  let s := s.updVd j.vd fun v => { v with comms := mset v.comms j.cnum { c with jseq := c.jseq + 1 } }
  { s with colls := s.colls ++ [{ j with id := s.nextId, seq := c.jseq, startNs := s.ctime }], nextId := s.nextId + 1 }
/-- COLL (R301, R302). -/
def execColl (ord sys : Bool) (op : CollOp) (alg : CollAlg) (ety : CollTy) (rop : RedOp) (cnum : BitVec 16) (root : BitVec 10)
    (chunk : BitVec 4) (o : EngOps) (s : State) : Out :=
  let x := s.engSrc o
  let key := s.iss.key
  let d := op.code + alg.code * 16 + ety.code * 64 + rop.code * 1024 + cnum.toNat * 2 ^ 12 + root.toNat * 2 ^ 28 + chunk.toNat * 2 ^ 38
  .next (s.ifActive fun s =>
    s.consume 5 0 (x.consumed o s.iss.act) fun s =>
      let g := s.grp
      let lane := lowLane s.iss.act
      let a := x.a.val.toNat
      let b := x.b.val.toNat
      let n := x.c.val.toNat
      let sig := x.m.val.toNat
      let c := mfind (s.vd g.vd).comms cnum.toNat
      let cm : Comm := c.getD ⟨0, [], 0⟩
      match collReason c d n with
      | some r => s.trap (engineCause r 0x18C 0 0) .fresh
      | none =>
        if sig % 8 ≠ 0 then s.trap (alignCause sig lane 3) .fresh
        else if !globalRange a (collSrcBytes cm d n) then s.trap (xlateCause a lane (windowKind a) 0 false) .fresh
        else if !globalRange b (collDstBytes cm d n) then s.trap (xlateCause b lane (windowKind b) 1 false) .fresh
        else if !globalRange sig 8 then s.trap (xlateCause sig lane (windowKind sig) 2 false) .fresh
        else if 32 ≤ s.outstanding key then s.hold { kind := .resource } s.iss.act 0
        else
          let s := s.release key .dev
          (s.startColl
            { id := 0, key := some key, job := none, vd := g.vd, asid := s.team.asid, die := dieOf g.core, desc := BitVec.ofNat 64 d, cnum := cnum.toNat,
              seq := 0, src := x.a.val, dst := x.b.val, count := n, sig := x.m.val, sys := sys, ord := ord, region := g.regionId, startNs := 0,
              cancelled := false }).finish)

/-! ## Elements and their reduction (R407, R409) -/

/-- An element as a partial: FP32 bits of a float, 32 bits of an integer. -/
def collIn (t : CollTy) (x : Nat) : Nat :=
  match t with
  | .bf16 => Fp.enc Fp.f32 .rn (Fp.val Fp.bf16 x)
  | .f16 => Fp.enc Fp.f32 .rn (Fp.val Fp.f16 x)
  | _ => x
/-- A partial as the element delivered. -/
def collOut (t : CollTy) (x : Nat) : Nat :=
  match t with
  | .bf16 => Fp.enc Fp.bf16 .rn (Fp.val Fp.f32 x)
  | .f16 => Fp.enc Fp.f16 .rn (Fp.val Fp.f32 x)
  | _ => x
/-- One combine, the partial result first. -/
def collCombine (t : CollTy) (rop x y : Nat) : Nat :=
  match t with
  | .s32 => if rop = 0 then (x + y) % 2 ^ 32 else if rop = 1 then wrap (min (sext x 32) (sext y 32)) 32 else wrap (max (sext x 32) (sext y 32)) 32
  | .z32 => if rop = 0 then (x + y) % 2 ^ 32 else if rop = 1 then min x y else max x y
  | _ => if rop = 0 then Fp.enc Fp.f32 .rn (Fp.add .rn (Fp.val Fp.f32 x) (Fp.val Fp.f32 y))
         else if rop = 1 then Fp.fmin Fp.f32 x y else Fp.fmax Fp.f32 x y
/-- The tree over n terms from `lo`: the first part holds 2^(ceil(log2 n) − 1) of them. -/
def collTree (f : Nat → Nat → Nat) (x : Nat → Nat) : Nat → Nat → Nat → Nat
  | 0, lo, _ => x lo
  | fuel + 1, lo, n =>
    if n ≤ 1 then x lo
    else
      let k := 2 ^ Nat.log2 (n - 1)
      f (collTree f x fuel lo k) (collTree f x fuel (lo + k) (n - k))
/-- The reduced value of the n ranks' values (R409). -/
def collReduce (t : CollTy) (rop alg n owner : Nat) (x : Nat → Nat) : Nat :=
  let f := collCombine t rop
  if alg = 0 then ((List.range (n - 1)).foldl (fun acc h => f acc (x ((owner + h + 2) % n))) (x ((owner + 1) % n)))
  else collTree f x 11 0 n

/-- A piece of a job's destination at this rank: the chunk, its owner or its source rank, and
where it lies in the source and destination (R408). -/
structure ChunkAt where
  chunk : Nat
  rank : Nat
  src : Nat
  dst : Nat
  len : Nat
  deriving DecidableEq, Repr
/-- The chunks of `n` bytes. -/
def chunksOf (size n : Nat) : List (Nat × Nat × Nat) := (List.range ((n + size - 1) / size)).map fun i => (i, i * size, min size (n - i * size))
/-- The pieces a rank's destination is made of. -/
def collPieces (c : Comm) (d count : Nat) : List ChunkAt :=
  let n := c.ranks.length
  let size := collChunk d
  match collOp d with
  | 0 => (chunksOf size count).map fun e => ⟨e.1, e.1 % n, e.2.1, e.2.1, e.2.2⟩
  | 1 =>
    let seg := count / n
    let k := (seg + size - 1) / size
    (chunksOf size seg).map fun e => ⟨c.myRank * k + e.1, c.myRank, c.myRank * seg + e.2.1, e.2.1, e.2.2⟩
  | 2 => (List.range n).flatMap fun r => (chunksOf size count).map fun e => ⟨e.1, r, e.2.1, r * count + e.2.1, e.2.2⟩
  | _ => (chunksOf size count).map fun e => ⟨e.1, collRoot d, e.2.1, e.2.1, e.2.2⟩
/-- What one rank contributes: its bytes and the chunks it read poisoned. -/
structure Contribution where
  bytes : List Byte
  poisoned : List Nat
  deriving DecidableEq, Repr
/-- The bytes of a piece, and whether it is poisoned. -/
def collPiece (d n : Nat) (x : Nat → Contribution) (p : ChunkAt) : List Byte × Bool :=
  let t := collEty d
  if 2 ≤ collOp d then (((x p.rank).bytes.drop p.src).take p.len, (x p.rank).poisoned.contains p.chunk)
  else
    let elem (r i : Nat) : Nat := collIn t (leNat (((x r).bytes.drop (p.src + i * t.bytes)).take t.bytes))
    ((List.range (p.len / t.bytes)).flatMap fun i =>
        leBytes t.bytes (collOut t (collReduce t (collRop d) (collAlg d) n p.rank fun r => elem r i)),
     (List.range n).any fun r => (x r).poisoned.contains p.chunk)
/-- The chunks of the whole source that hold a poisoned byte, numbered as R408 numbers them. -/
def collPoisoned (c : Comm) (d count : Nat) (bad : List Bool) : List Nat :=
  let n := c.ranks.length
  let size := collChunk d
  let seg := if collOp d = 1 then count / n else count
  let k := (seg + size - 1) / size
  (bad.zipIdx.filter fun e => e.1).foldl (fun l e => sins l (e.2 / seg * k + e.2 % seg / size)) []

/-! ## The end of a job (R302, R405, R433) -/

/-- A packet's collective job ends: its poisoned chunks and, where it failed, STATUS 4 (R365, R371). -/
def State.packetJob (s : State) (vd iq idx : Nat) (f : Packet → Packet) : State :=
  s.updVd vd fun v => { v with queues := mmap v.queues fun k q => if k = iq then { q with pkts := mmap q.pkts fun j p => if j = idx then f p else p } else q }
/-- Where the signal word of a job stands. -/
inductive SigAt where
  | none | waits | refused (c : Pending) | at (l : Loc)
  deriving DecidableEq, Repr
def State.sigAt (s : State) (j : CollJob) : SigAt × State :=
  let va := j.sig.toNat
  if j.key.isNone || j.mute then (.none, s)
  else
    match s.jobReach (.engine j.id) j.die j.vd j.asid va 2 8 with
    | (.error (.fault x va acc), s) =>
      if x.repl && (s.jobFailed j.vd (.engine j.id) true).isNone then (.waits, s.jobWaits (.engine j.id) j.vd 5 j.asid x va acc)
      else (.refused (xlateCause va 0 x.kind acc x.tbl), s)
    | (.error _, s) => (.waits, s)
    | (.ok l, s) =>
      let s := s.meetLoc (some j.vd) (some j.die) l 8
      if s.engineBad j.die l l.addr 8 then (.refused (dataPoison 0x3FF 0 4 va), s) else (.at l, s)
/-- The new value of a job's signal word (R302). -/
def sigNew (old chunks : Nat) (failed : Bool) : Nat :=
  (fld old 31 0 + 1) % 2 ^ 32 + min (fld old 62 32 + chunks) (2 ^ 31 - 1) * 2 ^ 32 + (if failed || bit old 63 then 2 ^ 63 else 0)
/-- A job ends with a reason, 0 for none, and a number of poisoned chunks; `sg` is where its signal stands. -/
def State.collEnd (s : State) (j : CollJob) (reason chunks : Nat) (sg : SigAt) : State :=
  let s := match sg with
    | .at l =>
      let s := s.flushDie j.die
      let old := leNat ((List.range 8).map fun i => (if l.space == Space.hbm && !l.dieCoh then s.hbmByte (l.addr + i) else s.engineByte j.die l (l.addr + i)))
      s.engineWrite j.die (QStore.plain l j.vd (leBytes 8 (sigNew old chunks (reason != 0))) false)
    | .refused c =>
      let s := ((s.raised j.vd c).errRecord { vd := some j.vd, sev := 1, cause := c.cause, addr := j.sig, td0 := c.td0, td1 := c.td1, td2 := c.td2 }).1
      if j.cancelled then s else s.engineError j.key j.vd (engineCause 8 0x18C j.sig j.region)
    | _ => s
  let s := if reason = 4 then s.guestFault j.vd else s
  let s := if reason != 0 && !j.cancelled && j.key.isSome then s.engineError j.key j.vd (engineCause reason 0x18C j.src j.region) else s
  let s := match j.job with
    | some (iq, idx, _) => s.packetJob j.vd iq idx fun p =>
        let p := { p with poisoned := p.poisoned + chunks }
        if reason != 0 then p.fail 4 0 else p
    | none => s
  let s := ({ s with colls := s.colls.filter fun x => x.id != j.id } : State).faultDiscard j.vd fun r => r.origin == Origin.engine j.id
  let s := match j.key with | some k => s.reseal k | none => s
  match j.key with | some k => s.teamOver (k / 4096) | none => s
/-- Whether an earlier job of the communicator still runs: they complete in job order (R405). -/
def State.collBehind (s : State) (j : CollJob) : Bool := s.colls.any fun x => x.vd == j.vd && x.cnum == j.cnum && decide (x.id < j.id)
/-- A job fails at this rank; `tell` notifies the other ranks (R405). The end waits for the earlier
jobs of its communicator, and for a signal word that the pager still has to bring. -/
def State.collFail (s : State) (j : CollJob) (reason : Nat) (tell : Bool) : State :=
  let j := { j with reason := reason }
  let s := if tell then { s with msgs := s.msgs ++ [.jobEnded j.vd j.cnum j.seq] } else s
  let s := { s with colls := s.colls.map fun (x : CollJob) => if x.id == j.id then j else x }
  if s.collBehind j then s
  else
    match s.sigAt j with
    | (.waits, s) => s
    | (sg, s) => s.collEnd j reason 0 sg
/-- Whether an earlier job of the communicator, or a command that .ord waits for, still runs (R286, R405). -/
def State.collWaits (s : State) (j : CollJob) : Bool :=
  s.collBehind j || (j.ord && s.copies.any fun c => c.key == j.key && decide (c.id < j.id))
/-- Whether the other ranks' jobs agree (R405): the descriptor but for its communicator number, and the count. -/
def collAgrees (d count : Nat) (r : RankData) : Bool :=
  let key (x : Nat) := (fld x 11 0, fld x 41 28)
  decide (key r.desc.toNat = key d) && r.count == count
/-- The contribution of a rank, this one's own or one supplied. -/
def collGive (me : Nat) (own : Contribution) (ranks : List RankData) (r : Nat) : Contribution :=
  if r = me then own else match ranks.find? fun x => x.rank == r with | some x => ⟨x.bytes, x.poisoned⟩ | none => ⟨[], []⟩
/-- A piece's bytes at the destination: undefined where it is poisoned, or where source and
destination partly overlap (R406, R411). -/
def State.collPut (s : State) (j : CollJob) (srcBytes : Nat) (dst : List (Loc × Nat)) (p : ChunkAt) (bs : List Byte) (bad : Bool) : State :=
  let a := j.src.toNat
  let b := j.dst.toNat
  let whole := dst.flatMap fun e => (List.range e.2).map fun i => (e.1, e.1.addr + i)
  let cells := (((whole.drop p.dst).take p.len).zip bs).zipIdx.map fun e =>
    let at' := b + p.dst + e.2
    let undef := bad || (a != b && decide (a ≤ at') && decide (at' < a + srcBytes))
    (e.1.1.1, e.1.1.2, if undef then (s.free (p.dst + e.2)).setWidth 8 else e.1.2, bad)
  s.engineStore j.die j.vd j.id cells
/-- COLL_JOB_COMPLETE: every rank has joined and its data has arrived. Where a rank disagrees the
job ends with reason 7 (R405); an end that waited for its signal word is made (R433). -/
def execCollJobComplete (job : Nat) (ranks : List RankData) (s : State) : Out :=
  .next (match s.colls.find? fun x => x.id == job with
    | none => s
    | some j =>
      let d := j.desc.toNat
      let c : Comm := mget ⟨0, [], 0⟩ (s.vd j.vd).comms j.cnum
      let n := c.ranks.length
      let others := (List.range n).filter fun r => r != c.myRank
      let o := Origin.engine j.id
      if j.reason != 0 then s.collFail j j.reason false
      else if s.collWaits j then s
      else if j.cancelled then s.collFail j 7 true
      else if !(others.all fun r => ranks.any fun x => x.rank == r) then s
      else if !((ranks.filter fun x => others.contains x.rank).all (collAgrees d j.count)) then s.collFail j 7 false
      else if (s.jobFailed j.vd o).isSome then s.collFail j 4 true
      else
        let sb := collSrcBytes c d j.count
        match s.jobRange o j.die j.vd j.asid j.src.toNat sb 0 with
        | (.error (.fault x va acc), s) => if x.repl then s.jobWaits o j.vd 5 j.asid x va acc else s.collFail j 4 true
        | (.error _, s) => s
        | (.ok src, s) =>
          match s.jobRange o j.die j.vd j.asid j.dst.toNat (collDstBytes c d j.count) 1 with
          | (.error (.fault x va acc), s) => if x.repl then s.jobWaits o j.vd 5 j.asid x va acc else s.collFail j 4 true
          | (.error _, s) => s
          | (.ok dst, s) =>
            match s.sigAt j with
            | (.waits, s) => s
            | (sg, s) =>
              let mine := s.jobBytes j.die src
              let s := src.foldl (fun s e => s.meetLoc (some j.vd) (some j.die) e.1 e.2) s
              let own : Contribution := ⟨mine.map fun e => e.1, collPoisoned c d j.count (mine.map fun e => e.2)⟩
              let ps := (collPieces c d j.count).map fun p => (p, collPiece d n (collGive c.myRank own ranks) p)
              let s := ps.foldl (fun s e => s.collPut j sb dst e.1 e.2.1 e.2.2) s
              s.bumpFree.collEnd j 0 (ps.filter fun e => e.2.2).length sg)
/-- COLL_JOB_FAIL_NOTICE: another rank's job has ended with reason 4 or 7 (R405). -/
def execCollJobFailNotice (job : Nat) (s : State) : Out :=
  .next (match s.colls.find? fun x => x.id == job with
    | some j => if j.reason != 0 then s else s.collFail j 7 false
    | none => s)
/-- COMM_TIMEOUT: some rank has not joined in time (R405); time in which the job waited for the
pager does not count (R302, `State.tick`). -/
def execCommTimeout (job : Nat) (s : State) : Out :=
  .next (match s.colls.find? fun x => x.id == job with
    | some j =>
      if j.reason != 0 || decide (s.ctime < j.startNs + Config.commTimeoutNs) || s.jobPaged j.vd (.engine j.id) then s
      else s.collFail j 7 true
    | none => s)
/-- FABRIC_ERROR: the fabric fails a job: reason 7 (R285). -/
def execFabricError (job : Nat) (s : State) : Out :=
  .next (match s.colls.find? fun x => x.id == job with
    | some j => if j.reason != 0 then s else s.collFail j 7 true
    | none => s)
/-- CLWAIT (R303). The target and timeout are engine operands (R383). DEDUCED. Log entry 21. -/
def execClwait (o : Ops) (s : State) : Out :=
  let (a, ea) := s.onceEa o
  let b := s.uniB o
  let target := fld b.val.toNat 31 0
  .next (s.ifActive fun s =>
    s.consume 0 0 [a.consumed o.a s.iss.act] fun s =>
    s.consume 5 0 [b.consumed o.b s.iss.act] fun s =>
    s.onceMem (sigAccess 0 .dev .rlx) ea (s.deadline .clwait (fld b.val.toNat 63 32)) fun s l =>
      let (vs, bad, s) := s.loadLanes .dev 8 true [(0, l)]
      let x := laneVal vs 0
      let w : DWord := BitVec.ofNat 64 x
      if bad != 0 then s.putS o.d w .poison
      else if decide ((fld x 31 0 + 2 ^ 32 - target) % 2 ^ 32 < 2 ^ 31) then
        (match l.scope .dev with | some k => s.acquire s.grp.core k | none => s).putS o.d w .clean
      else if s.timedOut .clwait then s.putS o.d w .clean
      else s.waitFor .clwait 0 (fld b.val.toNat 63 32))

end Sys2Proof.Machine
end

