-- ==== Sys2Proof/Machine/Place.lean ====
section
/-! DEFINITION. Place: allotments, usable slots, whether a record's team fits, and the translation of queue numbers (R27, R31, R34, R358, R359, R424). -/
namespace Sys2Proof.Machine

/-! ## Allotments (R14, R424) -/

def clusterOf (core : Nat) : Nat := core / 16
/-- Whether a hard partition other than `vd` owns a cluster. -/
def State.ownedByOther (s : State) (vd cluster : Nat) : Bool :=
  s.vds.any fun e => e.1 != vd && e.2.st != .free && e.2.hard && e.2.clusters.getLsbD cluster
/-- A core in service: not retired, on a die whose OK bit is set. -/
def State.inService (s : State) (core : Nat) : Bool := s.dieOk (dieOf core) && !(mget {} s.kastat core).ret
/-- The allotment of a VD, in ascending coreid. -/
def State.allotment (s : State) (vd : Nat) : List Nat :=
  let v := s.vd vd
  (List.range 256).filter fun c =>
    (if v.hard then v.clusters.getLsbD (clusterOf c) else true) && !s.ownedByOther vd (clusterOf c)
      && (v.coremask == 0 || v.coremask.getLsbD c) && s.inService c

/-! ## Fit (R27) -/

/-- Room of a quadrant: groups, general slots, compressed registers. -/
structure Room where
  g : Nat
  n : Nat
  m : Nat
  deriving DecidableEq, Repr
def Room.take (r : Room) (n m : Nat) : Option Room :=
  if 1 ≤ r.g ∧ n ≤ r.n ∧ m ≤ r.m then some ⟨r.g - 1, r.n - n, r.m - m⟩ else none
/-- Usable general slots of a quadrant (R17). -/
def State.usable (s : State) (core q : Nat) : Nat := Config.quadSlots - mget 0 s.slotsOff (4 * core + q)
/-- The room of an emptied quadrant. -/
def State.emptyRoom (s : State) (core q : Nat) : Room := ⟨32, s.usable core q, Config.sideBytes / 8⟩
/-- Whether a team occupies its cores: it is not saved, or its restore has begun. -/
def Team.seated (t : Team) : Bool := match t.saved with | none => true | some v => v.target.isSome
/-- Groups that occupy a core. A migrating group occupies both of its places. -/
def State.onCore (s : State) (core : Nat) : List (Nat × Group) :=
  (s.groups.filter fun e => e.2.role != .stream && (mget {} s.teams e.2.tid).seated).flatMap fun e =>
    (if e.2.core = core then [(e.2.quad, e.2)] else []) ++ (match e.2.moving with | some (c, q) => if c = core then [(q, e.2)] else [] | none => [])
/-- The room that is free now. -/
def State.freeRoom (s : State) (core q : Nat) : Room :=
  let gs := ((s.onCore core).filter fun g => g.1 == q).map fun g => g.2
  let e := s.emptyRoom core q
  ⟨e.g - gs.length, e.n - gs.foldl (fun n g => n + g.ngen) 0, e.m - gs.foldl (fun n g => n + g.ncmp) 0⟩
/-- Scratchpad and tile bytes of a core that teams have reserved; an ended team's stay while a copy
of its groups runs (R210, R286). -/
def State.reserved (s : State) (core : Nat) : Nat × Nat :=
  (s.teams.filter fun e => e.2.seated && e.2.cores.contains core && (!(s.keysOf e.1).isEmpty || s.copies.any fun c => c.tid == e.1 && c.key.isSome)).foldl (fun r e => (r.1 + e.2.scratch, r.2 + e.2.tile)) (0, 0)
/-- The reservation limits of a core (R17). -/
def coreScratch : Nat := 262144
def coreTile : Nat := 524288

/-- A group to be placed: its grpid, registers and, for a matrix group, its quadrant among those
of the team's cores (R27). -/
structure Member where
  grpid : Nat
  role : Role
  n : Nat
  m : Nat
  fix : Option Nat
  deriving DecidableEq, Repr
/-- The roles in the order of R28. -/
def roles : List Role := [.general, .copy, .matrix, .vector]
/-- The groups of a record, numbered by role (R28). -/
def recMembers (r : BitVec 512) : List Member :=
  let first (k : Nat) : Nat := (List.range k).foldl (fun n j => n + recGcount r j) 0
  (List.range 4).flatMap fun k => (List.range (recGcount r k)).map fun i =>
    ⟨first k + i, roles.getD k .general, recNgen r k, recNcmp r k, if k = 2 then some i else none⟩
/-- A group of `n` general and `m` compressed registers goes to quadrant `k`. -/
def placeAt (n m : Nat) : Nat → List Room → Option (List Room)
  | _, [] => none
  | 0, r :: rs => (r.take n m).map fun r' => r' :: rs
  | k + 1, r :: rs => (placeAt n m k rs).map fun l => r :: l
/-- Groups are placed one after another, each in the quadrant it names. -/
def placeAll : List (Nat × Member) → List Room → Option (List Room)
  | [], rs => some rs
  | (k, g) :: gs, rs => match placeAt g.n g.m k rs with
    | some rs' => placeAll gs rs'
    | none => none
/-- What a team needs: its cores, reservations and groups. -/
structure Need where
  cores : Nat
  scratch : Nat
  tile : Nat
  members : List Member
  deriving DecidableEq, Repr
/-- Cores a record's team occupies (R32). -/
def recCores (r : BitVec 512) : Nat := recFld r 163 160 + 1
def recNeed (r : BitVec 512) (scratch tile : Nat) : Need := ⟨recCores r, scratch, tile, recMembers r⟩

/-! The search goes over the cores in ascending order and over their quadrants, and keeps, for each
number of cores taken, every least remainder of groups that some placement leaves. -/

/-- The sizes of the groups whose quadrant the scheduler chooses. -/
def Need.kinds (x : Need) : List (Nat × Nat) :=
  (x.members.filter fun g => g.fix.isNone).foldl (fun l g => if l.contains (g.n, g.m) then l else l ++ [(g.n, g.m)]) []
/-- Groups of each such size. -/
def Need.counts (x : Need) : List Nat :=
  x.kinds.map fun k => (x.members.filter fun g => g.fix.isNone && (g.n, g.m) == k).length
/-- What the ways to fill a room leave of some groups of some sizes. -/
def Room.fill : List (Nat × Nat) → List Nat → Room → List (List Nat)
  | k :: ks, c :: cs, r => (List.range (min c r.g + 1)).flatMap fun i =>
      if i * k.1 ≤ r.n ∧ i * k.2 ≤ r.m then (Room.fill ks cs ⟨r.g - i, r.n - i * k.1, r.m - i * k.2⟩).map fun l => (c - i) :: l else []
  | _, _, _ => [[]]
/-- Whether one remainder is within another, after as many cores. -/
def leftWithin (a b : Nat × List Nat) : Bool := a.1 == b.1 && (a.2.zip b.2).all fun e => decide (e.1 ≤ e.2)
/-- The least of some remainders. -/
def leastLeft (xs : List (Nat × List Nat)) : List (Nat × List Nat) :=
  xs.foldl (fun l x => if l.any fun y => leftWithin y x then l else x :: l.filter fun y => !leftWithin x y) []
/-- A core of four rooms becomes the team's next: its matrix groups stand in place (R27), and the
remainders are those of the ways to fill what is left. -/
def Need.takeCore (x : Need) (rooms : List Room) (f : Nat × List Nat) : List (Nat × List Nat) :=
  rooms.zipIdx.foldl (fun fs e =>
    let room := match x.members.find? fun g => g.fix == some (4 * f.1 + e.2) with
      | some g => e.1.take g.n g.m
      | none => some e.1
    match room with
    | some r => leastLeft (fs.flatMap fun h => (r.fill x.kinds h.2).map fun l => (h.1, l))
    | none => []) [(f.1 + 1, f.2)]
/-- Whether a team fits some cores, given in ascending order, with the room that `room` and
`spare` give (R27). -/
def fitsCluster (x : Need) (cores : List Nat) (room : Nat → Nat → Room) (spare : Nat → Nat × Nat) : Bool :=
  let ok := cores.filter fun c => decide ((spare c).1 + x.scratch ≤ coreScratch) && decide ((spare c).2 + x.tile ≤ coreTile)
  (ok.foldl (fun fs c => leastLeft (fs ++ (fs.filter fun f => decide (f.1 < x.cores)).flatMap fun f =>
      x.takeCore ((List.range 4).map (room c)) f)) [(0, x.counts)]).any fun f => f.1 == x.cores && f.2.all fun n => n == 0
/-- The clusters of a VD's allotment that could hold a team, were they emptied (R34, R352, R375). -/
def State.couldHold (s : State) (vd : Nat) (x : Need) : List Nat :=
  let al := s.allotment vd
  (List.range 16).filter fun k => fitsCluster x (al.filter fun c => clusterOf c == k) s.emptyRoom fun _ => (0, 0)
/-- The shape conditions of R34 and R31 on a record. -/
def recShapeOk (r : BitVec 512) : Bool :=
  let n := (List.range 4).foldl (fun n k => n + recGcount r k) 0
  decide (1 ≤ n) && decide (n ≤ 2048) && ((List.range 4).all fun k => recGcount r k == 0 || decide (recNgen r k + recNcmp r k ≤ 640))
    && ((List.range 4).all fun k => decide (recGcount r k ≤ 2048))
    && recGcount r 2 == (if recMstream r then 4 * recCores r else 0) && recCode r % 32 == 0
/-- Validity of a record (R34). -/
def State.recValid (s : State) (vd : Nat) (r : BitVec 512) (scratch tile : Nat) : Bool := recShapeOk r && !(s.couldHold vd (recNeed r scratch tile)).isEmpty

/-! ## Queue numbers (R358, R359) -/

/-- Bytes at a GPA as the I/O die reads them through the host stage; none where it does not map
them or their home refuses the read (R398). -/
def State.readGpa (s : State) (vd gpa n : Nat) : Option Nat :=
  match hostWalk s vd gpa 0 with
  | .error _ => none
  | .ok l =>
    let a := l.place gpa
    if fld l.e 57 56 = 1 && !s.homeAdmits vd a n false then none
    else some (if fld l.e 57 56 = 0 then s.hbmNat a n else if fld l.e 57 56 = 1 then leNat ((List.range n).map fun i => s.remoteByte (a + i)) else s.hostNat a n)
/-- The guest queue table entry of a local queue number; 0 where the table cannot be read. -/
def State.guestEntry (s : State) (vd lq : Nat) : Nat :=
  let a := fld (s.vd vd).gqtbase.toNat 55 8 * 256 + 32 * lq
  if (s.vd vd).tableCap.admits a 32 0 8 then (s.readGpa vd a 32).getD 0 else 0
/-- Entries of a packet ring, or slots of a continuation queue. -/
def QEnt.entries (q : QEnt) : Nat := 64 * 2 ^ q.rlog
/-- The first of `k` guest entries from queue number `lq` on that is valid and names an IQ. -/
def State.namingFrom (s : State) (vd iq : Nat) : Nat → Nat → Option (Nat × Nat)
  | 0, _ => none
  | k + 1, lq => let e := s.guestEntry vd lq; if bit e 0 && fld e 19 8 == iq then some (lq, e) else s.namingFrom vd iq k (lq + 1)
/-- The valid guest entry with the lowest queue number below `n` that names an IQ. -/
def State.entryNaming (s : State) (vd iq n : Nat) : Option (Nat × Nat) := s.namingFrom vd iq n 0
/-- The two stages of translation, or a refusal (R359). -/
def State.queueOf (s : State) (vd lq : Nat) : Option QEnt :=
  let e := s.guestEntry vd lq
  let iq := fld e 19 8
  let h := (mget 0 (s.vd vd).hqt iq).toNat
  let q : QEnt := { iq := iq, kind := bit e 1, asid := fld e 5 2, band := max (fld e 7 6) (fld h 15 14), rlog := fld e 23 20,
                    ring := fld e 127 64, stat := fld e 191 128, priv := bit h 13 }
  if 8192 ≤ lq || !bit e 0 || !bit h 0 then none
  else if fld e 63 24 != 0 || fld e 255 192 != 0 || fld h 63 17 != 0 || (q.kind && (q.asid != 0 || q.ring != 0 || q.stat != 0)) then none
  else if 10 < q.rlog || (!q.kind && (q.ring % (128 * q.entries) != 0 || q.stat % 64 != 0)) then none
  else if (s.entryNaming vd iq lq).isSome then none
  else if q.kind && (match (mget {} (s.vd vd).conts iq).charged with | some r => decide (r < q.rlog) | none => true) then none
  else some q

/-- The replayable fault that a read of the guest queue table up to a queue number's entry meets
(R358, R367); none where no page faults so, or the pager has failed it. -/
def State.tableFault (s : State) (o : Origin) (vd lq : Nat) : Option XFault :=
  let f := (s.vd vd).fault
  let base := fld (s.vd vd).gqtbase.toNat 55 8 * 256
  if !(s.vd vd).fbOn || 8192 ≤ lq then none
  else (pieces base (32 * (lq + 1))).findSome? fun p =>
    match hostWalk s vd p.1 0 with
    | .error x => if x.repl && !(f.reqs.any fun r => r.origin == o && r.failed && r.gpa.toNat / 65536 == p.1 / 65536) then some { x with gpa := p.1 } else none
    | .ok _ => none
/-- The translation of a queue number waits for the pager, with SRC 7 (R367); none where it need not. -/
def State.awaitTable (s : State) (o : Origin) (vd lq : Nat) : Option State :=
  (s.tableFault o vd lq).map fun x =>
    if (s.vd vd).fault.reqs.any fun r => r.origin == o && !r.failed && r.gpa.toNat / 65536 == x.gpa / 65536 then s
    else s.faultRaise vd (faultReq o x 0 7 0 0 0)
/-- The failed requests of a translation that is over are discarded, and each is raised to the guest (R426). -/
def State.tableDone (s : State) (o : Origin) (vd : Nat) : State :=
  let mine (r : FaultReq) : Bool := r.origin == o && r.src == 7
  let s := if (s.vd vd).fault.reqs.any fun r => mine r && r.failed then s.guestFault vd else s
  s.faultDiscard vd mine

end Sys2Proof.Machine
end

