-- ==== Sys2Proof/Machine/Bin.lean ====
section
/-! DEFINITION. Bin: binning contexts: BINADD and its performance by the binning engine, BINRD, and the issue of BINPATCH (R304 to R306). -/
namespace Sys2Proof.Machine

/-- Whether a location holds a binning context or a word of one: device-coherent local HBM. -/
def contextOk (l : Loc) : Bool := l.space == Space.hbm && !l.dieCoh
/-- A context is reached by the issuing group: aligned, in device-coherent local HBM; a
replayable fault waits for the pager with SRC 4 (R304, R329). `ea` is the address accessed. -/
def State.onContext (s : State) (opc ctx ea acc : Nat) (k : State → Loc → State) : State :=
  let key := s.iss.key
  let lane := lowLane s.iss.act
  let refused := s.trap (engineCause 2 opc 0 0) .fresh
  if ctx % 16384 ≠ 0 ∨ windowOf ctx ≠ .global then refused
  else
    match s.groupReqs key with
    | r :: _ => if r.failed then s.trap (xlateCause ea lane r.kind r.acc r.tbl) .fresh else s.hold { kind := .held } s.iss.act 0
    | [] =>
      match s.locate lane ea acc (fun a => (a, 4)) with
      | (.held, s) => s.hold { kind := .held } s.iss.act 0
      | (.refused c, s) => s.trap c .fresh
      | (.repl x, s) => (s.hold { kind := .held } s.iss.act 0).raiseFaults acc 4 [(lane, ea, x)]
      | (.ok l, s) => if contextOk l then k s l else s.trap (engineCause 2 opc 0 0) .fresh
/-- BINADD (R304): its lanes are handed to the die's binning engine. -/
def execBinadd (_ty : Ty) (o : Ops) (s : State) : Out :=
  let a := s.srcA o false
  let b := s.uniB o
  let c := s.srcC o false
  let key := s.iss.key
  .next (s.ifActive fun s =>
    let act := s.iss.act
    let g := s.grp
    let ctx := b.val.toNat
    match g.refusedReg act false [⟨o.d.reg, .general [], 0, 0⟩] with
    | some r => s.trap (shapeCause r (!g.whole act) false act) .fresh
    | none =>
      s.consume 0 0 [a.consumed o.a act, ⟨o.b.code, 0, allLanes (b.tag = .pending), act⟩, ⟨o.c.code, 0, c.fp, act⟩] fun s =>
      s.consume 5 0 [b.consumed o.b act] fun s =>
      s.onContext 0x18E ctx ctx 2 fun s l =>
        match (lanesOf act).find? fun k => decide (4095 < a.w k) with
        | some k => s.trap (permCause (ctx + 4 * a.w k) k 7) .fresh
        | none =>
          let op : BinOp := { id := s.nextId, key := key, reg := o.d.reg, ctx := l.addr, vd := g.vd, die := dieOf g.core, entry := s.entryOf act 0 false,
                              idx := (List.range 32).map a.w, cnt := (List.range 32).map c.w, cdp := c.dp }
          ({ s with binops := s.binops ++ [op], nextId := s.nextId + 1 } : State).finish)
/-- BINADD_PERFORM: the binning engine performs a BINADD. -/
def execBinaddPerform (op : Nat) (s : State) : Out :=
  .next (match s.binops.find? fun b => b.id == op with
    | none => s
    | some b => (s.binPerform b).teamOver (b.key / 4096))
/-- BINRD (R305): without .clr a load of the count; with .clr an RMW that writes 0, dropped where
the sector is poisoned (R263). -/
def execBinrd (sc : Scope) (od : MemOrd) (clr : Bool) (o : Ops) (s : State) : Out :=
  let a := s.uniA o
  let b := s.uniB o
  .next (s.ifActive fun s =>
    s.consume 5 0 [a.consumed o.a s.iss.act, b.consumed o.b s.iss.act] fun s =>
      let ctx := a.val.toNat
      let j := b.val.toNat
      let done (s : State) (l : Loc) (x : Nat) (t : Tag) : State :=
        let s := if od.isAcq then (match l.scope sc with | some k => s.acquire s.grp.core k | none => s) else s
        s.putS o.d (BitVec.ofNat 64 x) t
      if 4095 < j then
        if ctx % 16384 ≠ 0 then s.trap (engineCause 2 0x190 0 0) .fresh else s.trap (permCause (ctx + 4 * j) (lowLane s.iss.act) 7) .fresh
      else
        s.onContext 0x190 ctx (ctx + 4 * j) (if clr then 2 else 0) fun s l =>
          if !clr then
            let (vs, bad, s) := s.loadLanes sc 4 false [(0, l)]
            done s l (if bad = 0 then laneVal vs 0 else laneVal vs 0 % 2 ^ 32) (if bad = 0 then .clean else .poison)
          else
            let (rs, s) := s.rmwLanes 4 0 (fun _ _ => some 0) [(0, l)]
            match rs with
            | r :: _ => if r.dropped then (done s l (r.old % 2 ^ 32) .poison).bumpFree else done s l r.old .clean
            | [] => s.finish)
/-- BINPATCH (R306): a context that is not aligned is refused as R304 refuses it. DEDUCED. Log entry 21. -/
def execBinpatch (clr : Bool) (npkt : BitVec 16) (gsh : BitVec 5) (o : EngOps) (s : State) : Out :=
  let x := s.engSrc o
  let key := s.iss.key
  .next (s.ifActive fun s =>
    s.consume 5 0 (x.consumed o s.iss.act) fun s =>
      let g := s.grp
      let lq := x.b.val.toNat
      let ctx := x.a.val.toNat
      match s.awaitTable (.group key) g.vd lq with
      | some s => s.hold { kind := .held } s.iss.act 0
      | none =>
      let s := s.tableDone (.group key) g.vd
      match s.queueOf g.vd lq with
      | none => s.trap (engineCause 5 0x18F 0 0) .fresh
      | some q =>
        if 65536 ≤ lq || q.kind then s.trap (engineCause 5 0x18F 0 0) .fresh
        else if ctx % 16384 ≠ 0 then s.trap (engineCause 2 0x18F 0 0) .fresh
        else if windowOf ctx ≠ .global then s.trap (xlateCause ctx (lowLane s.iss.act) (windowKind ctx) 0 false) .fresh
        else
          let s := s.release key .dev
          let j : BinJob := { id := s.nextId, key := key, vd := g.vd, asid := s.team.asid, die := dieOf g.core, iq := q.iq, ctx := x.a.val, clr := clr,
                              npkt := npkt.toNat, gsh := gsh.toNat, region := g.regionId }
          ({ s with binjobs := s.binjobs ++ [j], nextId := s.nextId + 1 } : State).finish)

end Sys2Proof.Machine
end

