-- ==== Sys2Proof/Machine/Control.lean ====
section
/-! DEFINITION. Control: branches, calls, exit, sleeping, software traps, containment regions, continuations, barriers and runnels (R135 to R163). -/
namespace Sys2Proof.Machine

/-! ## Branches (R130, R135 to R139) -/

/-- The guard predicate as a branch consumes it: in every lane of xm (R130). -/
def State.guardConsumed (s : State) (g : Option Guard) : List Consumed :=
  match g with
  | none => []
  | some gd => [⟨704 + gd.p.val, s.iss.gdp, s.iss.gfp, s.iss.xm⟩]
/-- Active lanes that `take` picks go to PC + OFF, the others of xm to the next instruction. -/
def State.branch (s : State) (off : Word) (take : Nat → Bool) : State :=
  let target := s.iss.pc + off.signExtend 64
  s.jump fun l => if s.iss.act.getLsbD l && take l then target else s.iss.npc
/-- NOP has no effect (R140). -/
def execNop (s : State) : Out := .next s.finish
/-- BRA (R136). -/
def execBra (cond : BrCond) (o : BrOps) (s : State) : Out :=
  let a := s.uni o.a (s.iss.slots.map fun t => t.1)
  let taken := match cond with | .always => true | .nz => a.val != 0 | .z => a.val == 0
  .next (s.consumeAny 1 0 (s.guardConsumed o.g ++ if cond = .always then [] else [a.consumed o.a s.iss.act]) fun s =>
    s.branch o.off fun _ => taken)
/-- Source A or B of a branch at a width. -/
def State.brSrc (s : State) (x : Opnd) (sl : Option (List Slot)) (is64 : Bool) : Src :=
  if is64 then s.grp.read64 sl x .none else s.grp.read32 sl x .none
/-- BRC (R137). -/
def execBrc (ty : Ty) (cm : Cmp) (o : BrOps) (s : State) : Out :=
  let a := s.brSrc o.a (s.iss.slots.map fun t => t.1) ty.is64
  let b := s.brSrc o.b (s.iss.slots.map fun t => t.2.1) ty.is64
  .next (s.consume 1 0 (s.guardConsumed o.g ++ [a.consumed o.a s.iss.act, b.consumed o.b s.iss.act]) fun s =>
    s.branch o.off fun l => cm.holds (ty.int (a.at ty.is64 l)) (ty.int (b.at ty.is64 l)))
/-- Each active lane goes to its 64-bit target; a misaligned one traps and no lane moves (R138). Of
several misaligned lanes the ALIGN detail names the lowest; R336 says only 'lane'. DESIGN CHOICE. Log entry 35. -/
def State.jumpTo (s : State) (o : Ops) : State :=
  let a := s.srcA o true
  s.consume 1 0 (s.guardConsumed o.g ++ [a.consumed o.a s.iss.act]) fun s =>
    match (lanesOf s.iss.act).find? fun l => a.d l % 4 != 0 with
    | some l => s.trap (alignCause (a.d l) l 2) .fresh
    | none => s.jump fun l => if s.iss.act.getLsbD l then BitVec.ofNat 64 (a.d l) else s.iss.npc
/-- BRX (R138). -/
def execBrx (o : Ops) (s : State) : Out := .next (s.jumpTo o)
/-- RET behaves as BRX (R138). -/
def execRet (o : Ops) (s : State) : Out := .next (s.jumpTo o)
/-- CALL (R139). A guard that bears a tag is consumed before the shape of the link write is checked;
the spec gives no order. DESIGN CHOICE. Log entry 35. The link value is PC + 16, also where the next sequential PC lies 4 bytes further (R72). -/
def execCall (o : BrOps) (s : State) : Out :=
  .next (s.consume 1 0 (s.guardConsumed o.g) fun s =>
    let act := s.iss.act
    let link := s.iss.pc + 16
    if act = 0 then s.finish
    else match o.a with
    | .v k =>
      let ws := [s.destW o.a 0 (.uniform (link.setWidth 32)) 0 0, s.destW o.a 1 (.uniform ((link >>> 32).setWidth 32)) 0 0]
      match s.grp.refusedReg act true ws with
      | some _ => s.trap (shapeCause (k.val / 2 * 2) (!s.grp.whole act) false act) .fresh
      | none => (s.updGrp fun g => ws.foldl (fun g w => g.writeV act w) g).branch o.off fun _ => true
    | x => (s.updGrp fun g => g.writeS x.reg link (tagOver s.iss.gdp s.iss.gfp act)).branch o.off fun _ => true)

/-! ## Ending, yielding, sleeping (R140 to R143) -/

/-- EXIT (R141); the stream's waits for its queued steps (R307). -/
def execExit (_o : Ops) (s : State) : Out :=
  let act := s.iss.act
  let key := s.iss.key
  if act = 0 then .next s.finish
  else if s.grp.role = .stream && !s.team.queue.isEmpty then .next (s.hold { kind := .resource } act 0)
  else
    let s := s.finish.updGrp fun g => g.movePcs act fun _ => none
    .next (if s.grp.live = 0 then s.groupExit key else s)
/-- YIELD: the next issue is an aging issue (R142). -/
def execYield (_o : Ops) (s : State) : Out := .next (s.ifActive fun s => (s.updGrp fun g => { g with yielded := true }).finish)
/-- SLEEPC (R143). A replayed or restored one sleeps the clocks its entry holds (R134). -/
def execSleepc (o : Ops) (s : State) : Out :=
  let n := if s.iss.pi ≠ 0 then s.iss.pi.toNat
           else if o.fmt = .f128i then fld o.imm.toNat 31 0 else fld (s.uniA o).val.toNat 31 0
  .next (s.ifActive fun s =>
    match s.grp.wait.kind, s.grp.wait.due with
    | .sleep, some d => if d ≤ s.clkOf s.grp.core || s.grp.wait.expired then s.finish else s
    | _, _ => if n = 0 then s.finish else s.hold { kind := .sleep, due := some (s.clkOf s.grp.core + n) } s.iss.act (BitVec.ofNat 32 n))

/-! ## Software traps (R144 to R148) -/

/-- TRAP (R146). -/
def execTrap (o : Ops) (s : State) : Out :=
  .next (s.ifActive fun s => s.trap { cause := 18, td0 := o.imm.setWidth 32, td1 := (o.imm >>> 32).setWidth 32, td2 := 0 } .after)
/-- BKPT (R146). -/
def execBkpt (code : BitVec 15) (_o : Ops) (s : State) : Out :=
  .next (s.ifActive fun s => s.trap { cause := 19, td0 := code.setWidth 32, td1 := 0, td2 := 0 } .after)

/-- A number of little-endian bytes of a frame. -/
def frameNat (bs : List Byte) (off n : Nat) : Nat := leNat ((bs.drop off).take n)
/-- Tag masks of eight bytes of tags; 0b11 reads as 0b01 (R382). -/
def frameTags (n : Nat) : Word × Word :=
  (maskOf fun l => Tag.ofCode (n / 4 ^ l % 4) = .poison, maskOf fun l => Tag.ofCode (n / 4 ^ l % 4) = .pending)
/-- Slots that hold the partial state of a REDL or RNGK that stopped: the tree values, or x0 to x3, k0 and k1 (R208, R339). -/
def Entry.midSlots (bits pi : Nat) : Nat := if pi = 0 then 0 else if fld bits 10 2 = 0xD8 then 2 else if fld bits 10 2 = 0xD9 then 6 else 0
/-- A replay entry from its 2,240 bytes (R339). The frame keeps no shapes: a slot whose words agree
is read as uniform (R68). DEDUCED. Log entry 34. -/
def entryOfBytes (bs : List Byte) : Entry :=
  let gt := frameTags (frameNat bs 40 8)
  let n := frameNat bs 36 1
  let slot (i : Nat) : Slot :=
    let t := frameTags (frameNat bs (64 + 136 * i + 128) 8)
    let ws := (List.range 32).map fun l => BitVec.ofNat 32 (frameNat bs (64 + 136 * i + 4 * l) 4)
    { ws := ws, dp := t.1, fp := t.2, uni := ws.all fun w => w == ws.getD 0 0 }
  { pc := BitVec.ofNat 64 (frameNat bs 0 8), bits := BitVec.ofNat 128 (frameNat bs 8 16), pend := BitVec.ofNat 32 (frameNat bs 24 4),
    act := BitVec.ofNat 32 (frameNat bs 28 4), pi := BitVec.ofNat 32 (frameNat bs 32 4), valid := bit (frameNat bs 37 1) 0,
    trapped := bit (frameNat bs 37 1) 1, dp := gt.1, fp := gt.2, slots := (List.range n).map slot,
    mid := (List.range (Entry.midSlots (frameNat bs 8 16) (frameNat bs 32 4))).map fun i => slot (n + i) }
/-- The bytes of the frame at TAREA in the group's program order (R340), or the fault that stops
the read. -/
def State.readFrame (s : State) (key : Nat) (n : Nat) : Except (XFault × Nat) (List Byte × State) :=
  let g := mget {} s.groups key
  let t := mget {} s.teams g.tid
  let rd (s : State) (l : Loc) (n : Nat) : List Byte := (List.range n).map fun i => s.loadByte g .core l (l.addr + i)
  match windowOfN g.tarea.toNat n with
  | .scratch => .ok (rd s { space := .scratch, addr := objAddr g.tid g.tarea } n, s)
  | .global =>
    (pieces g.tarea.toNat n).foldl (fun r p =>
      match r with
      | .error x => .error x
      | .ok (bs, s) =>
        match s.reach (.group key) (dieOf g.core) (some g.core) g.vd t.asid p.1 0 (fun a => (a, p.2)) with
        | (.ok l, s) => .ok (bs ++ rd s l p.2, s)
        | (.fault x, _) => .error (x, p.1)
        | (.held, _) => .error ({ kind := 1 }, p.1)) (.ok ([], s))
  | _ => .error ({ kind := 1 }, g.tarea.toNat)
/-- RTT (R147, R340): the handler ends, the frame's entries wait to be replayed and every live lane
takes its frame PC. Where its read of the frame faults, it waits for the pager, with SRC 1, or traps
XLATE inside the handler; the spec speaks only of frame writes. DESIGN CHOICE. Log entry 35. -/
def execRtt (_o : Ops) (s : State) : Out :=
  let key := s.iss.key
  .next (s.ifActive fun s =>
    let g := s.grp
    if !g.inhdl then s.trap (s.illegal 1) .fresh
    else
      let stop (x : XFault) (va : Nat) : State :=
        let reqs := s.groupReqs key
        if reqs.any (·.failed) then s.trap (xlateCause va 0 x.kind 0 x.tbl) .fresh
        else if !reqs.isEmpty then s
        else if x.repl && (s.vd g.vd).fbOn then
          (s.hold { kind := .held } s.iss.act 0).faultRaise g.vd
            (faultReq (.group key) x 0 1 (mget {} s.teams g.tid).asid (BitVec.ofNat 64 va) 0)
        else s.trap (xlateCause va 0 x.kind 0 x.tbl) .fresh
      match s.readFrame key 512 with
      | .error (x, va) => stop x va
      | .ok (hd, s1) =>
        let nrep := min 16 (frameNat hd 276 4)
        match s1.readFrame key (512 + 2240 * nrep) with
        | .error (x, va) => stop x va
        | .ok (bs, s2) =>
          let es := (List.range nrep).map fun i => entryOfBytes ((bs.drop (512 + 2240 * i)).take 2240)
          s2.updGrp fun g =>
            { g with inhdl := false, tc := 0, wait := {}, part := none, pi := 0, replay := es,
                     pcs := g.pcs.zipIdx.map fun p => p.1.map fun _ => BitVec.ofNat 64 (frameNat bs (8 * p.2) 8) })
/-- WAITFAULT (R148, R334). -/
def execWaitfault (o : Ops) (s : State) : Out :=
  let tok : Word := (s.uniA o).val.setWidth 32
  .next (s.ifActive fun s =>
    let f := (s.vd s.grp.vd).fault
    if f.reqs.any fun r => r.token == some tok && !r.failed then s.hold { kind := .waitfault, num := tok.toNat } s.iss.act 0
    else
      match f.outcomes.find? fun e => e.1 == tok && f.recent e.1 with
      | some (_, false) => (s.acquire s.grp.core .dev).putS o.d 0 .clean
      | some (_, true) => s.putS o.d 1 .clean
      | none => s.putS o.d 2 .clean)

/-! ## Containment regions (R149 to R152) -/

/-- CROPEN (R150). -/
def execCropen (pmask : BitVec 16) (o : BrOps) (s : State) : Out :=
  .next (s.ifActive fun s =>
    let g := s.grp
    if g.regions.length = 4 then s.trap (capacityCause 1) .fresh
    else
      let r : Region := ⟨s.iss.pc + o.off.signExtend 64, pmask, o.aux, g.nextRegion⟩
      (s.updGrp fun g => { g with regions := r :: g.regions, nextRegion := g.nextRegion + 1 }).finish)
/-- CRCLOSE (R150): work of the closed region belongs to the enclosing one, 0 where there is none. -/
def execCrclose (_o : Ops) (s : State) : Out :=
  let key := s.iss.key
  .next (s.ifActive fun s =>
    match s.grp.regions with
    | [] => s.trap (s.illegal 1) .fresh
    | r :: rs =>
      let outer := match rs with | q :: _ => q.ident | [] => 0
      let move (k : Option Nat) (x : Nat) : Nat := if k == some key && x == r.ident then outer else x
      let s := { s with copies := s.copies.map fun (c : CopyCmd) => { c with region := move c.key c.region },
                        colls := s.colls.map fun (c : CollJob) => { c with region := move c.key c.region },
                        binjobs := s.binjobs.map fun (j : BinJob) => { j with region := move (some j.key) j.region } }
      (s.updGrp fun g => { g with regions := rs }).finish)
/-- CRSTAT (R152). -/
def execCrstat (clr : Bool) (o : Ops) (s : State) : Out :=
  .next (s.ifActive fun s =>
    let w := s.grp.crWord
    (if clr then s.updGrp fun g => { g with lcause := 0, unw := false } else s).putS o.d w .clean)

/-! ## Continuations (R153 to R158) -/

/-- The status words of SPAWN (R154). -/
def spawnStatus (n : Nat) : DWord := BitVec.ofNat 64 (0xFFF0000000000000 + n)
/-- A record becomes runnable: it takes the next place in its queue's order (R38). -/
def CQueue.runnable (q : CQueue) (r : CRecord) : CRecord := { r with order := some q.nextOrder }
/-- A record is pushed, or the status that refuses it (R154, R374). Where several apply, the status
is 3, then 2, then 1; the spec gives no order. DESIGN CHOICE. Log entry 35. -/
def State.pushRecord (s : State) (vd lq asid scratch tile : Nat) (rec : BitVec 512) : State × DWord :=
  match s.queueOf vd lq with
  | none => (s, spawnStatus 3)
  | some q =>
    if !q.kind then (s, spawnStatus 3)
    else if !s.recValid vd rec scratch tile then (s, spawnStatus 2)
    else
      let c : CQueue := mget {} (s.vd vd).conts q.iq
      let v := s.vd vd
      if !v.contCap.admits (v.savebase + 128 * (c.nextSeq % q.entries)) 128 1 3 then (s.capFault vd, spawnStatus 3)
      else if q.entries ≤ c.recs.length then (s, spawnStatus 1)
      else
        let join := recFld rec 159 128
        let r : CRecord := { seq := c.nextSeq, lq := lq, record := rec, asid := asid, scratch := scratch, tile := tile,
                             order := if join = 0 then some c.nextOrder else none }
        let c' := { c with recs := c.recs ++ [r], nextSeq := (c.nextSeq + 1) % 2 ^ 32, nextOrder := c.nextOrder + b2n (join == 0), band := q.band }
        (s.updVd vd fun v => { v with conts := mset v.conts q.iq c' },
         BitVec.ofNat 64 (lq + c.nextSeq * 2 ^ 16 + (s.vd vd).inc.toNat * 2 ^ 48))
/-- SPAWN (R154). Where the queue table must be paged in, it waits (R367). -/
def execSpawn (o : Ops) (s : State) : Out :=
  let key := s.iss.key
  let sl := s.iss.slots.map fun t => t.1
  let rs := (List.range 8).map fun j => s.uni o.a sl j
  let b := s.uniB o
  .next (s.ifActive fun s =>
    s.consume 0 0 ((rs.zipIdx.map fun e => e.1.consumed o.a s.iss.act e.2) ++ [b.consumed o.b s.iss.act]) fun s =>
      let t := s.team
      let n := rs.zipIdx.foldl (fun n e => n + e.1.val.toNat * 2 ^ (64 * e.2)) 0
      let rec0 := n % 2 ^ 192 + recBundle t.record * 2 ^ 192 + n / 2 ^ 256 * 2 ^ 256
      let lq := if o.b = .zero then fld s.grp.spq.toNat 15 0 else b.val.toNat
      let s := s.release key .dev
      if 65536 ≤ lq then s.putS o.d (spawnStatus 3) .clean
      else match s.awaitTable (.group key) s.grp.vd lq with
      | some s => s.hold { kind := .held } s.iss.act 0
      | none =>
        let (s, w) := (s.tableDone (.group key) s.grp.vd).pushRecord s.grp.vd lq t.asid t.scratch t.tile (BitVec.ofNat 512 rec0)
        s.putS o.d w .clean)
/-- A JOIN that names no waiting record is dropped and counted in JDROP (R36, R155). A handle names
a record by the queue number it was spawned with, whatever the queue tables say since. A handle
with bits [63:52] nonzero, of which the spec does not speak, names none. Where the queue table has
changed, records of two internal queues may bear one handle, and R36 does not say which the JOIN
takes: the model takes that of the lowest internal queue. DESIGN CHOICE. Log entry 35. -/
def State.joinRecord (s : State) (vd : Nat) (h : DWord) : State :=
  let v := s.vd vd
  let drop := s.updVd vd fun v => { v with jdrop := v.jdrop + 1 }
  let n := h.toNat
  let named (r : CRecord) : Bool := r.lq == fld n 15 0 && r.seq == fld n 47 16
  if fld n 63 52 ≠ 0 ∨ fld n 51 48 ≠ v.inc.toNat then drop
  else match v.conts.find? fun e => e.2.recs.any named with
  | none => drop
  | some (iq, c) =>
    match c.recs.find? named with
    | none => drop
    | some r =>
      if r.join = 0 then drop
      else
        let j := r.join - 1
        let r' : CRecord := { r with record := recSetJoin r.record j, order := if j = 0 then some c.nextOrder else none }
        let c' := { c with recs := c.recs.map fun x => if x = r then r' else x, nextOrder := c.nextOrder + b2n (j == 0) }
        s.updVd vd fun v => { v with conts := mset v.conts iq c' }
/-- JOIN (R155). -/
def execJoin (o : Ops) (s : State) : Out :=
  let key := s.iss.key
  let a := s.uniA o
  .next (s.ifActive fun s =>
    s.consume 0 0 [a.consumed o.a s.iss.act] fun s => ((s.release key .dev).joinRecord s.grp.vd a.val).finish)
/-- SMSTART (R156). -/
def execSmstart (_o : Ops) (s : State) : Out := .next (s.ifActive fun s => (s.updGrp fun g => { g with smstart := true }).finish)

/-- The packet of a bundle identity: its VD, queue, index and the packet (R366). -/
def State.bundlePacket (s : State) (bundle : Nat) : Option (PQueue × Nat × Packet) :=
  let v := s.vd (fld bundle 53 44)
  if v.inc.toNat ≠ fld bundle 57 54 then none
  else
    let q : PQueue := mget {} v.queues (fld bundle 43 32)
    (q.pkts.find? fun e => e.2.pseq == fld bundle 31 0 && e.2.phase != .done).map fun e => (q, e.1, e.2)
def Packet.hdr (p : Packet) : Nat := leNat (p.bytes.take 8)
def Packet.early (p : Packet) : Bool := bit p.hdr 14
def Packet.scope (p : Packet) : Scope := (Scope.ofCode (fld p.hdr 12 10)).getD .dev
/-- Whether the predecessor of a bundle has reached step 2 of R371, and the scope at which the
successor sees its writes; a bundle without EARLY has none (R370). -/
def State.predReached (s : State) (bundle : Nat) : Bool × Scope :=
  match s.bundlePacket bundle with
  | none => (true, .dev)
  | some (q, idx, p) =>
    if !p.early then (true, .core)
    else match mfind q.pkts ((idx + 2 ^ 19 - 1) % 2 ^ 19) with
      | none => (true, p.scope)
      | some b => (b.phase = .completing || b.phase = .done, p.scope)
/-- WAITPRED (R157). -/
def execWaitpred (_o : Ops) (s : State) : Out :=
  .next (s.ifActive fun s =>
    if s.grp.predDone then s.finish
    else
      let (ready, sc) := s.predReached (recBundle s.team.record)
      if ready then (s.acquire s.grp.core sc).finish.updGrp fun g => { g with predDone := true }
      else s.hold { kind := .waitpred } s.iss.act 0)

/-! ## Barriers (R159 to R161) -/

/-- BARINIT (R46, R160). Refused operands are reported before a nonzero ARR; the spec gives no order. DESIGN CHOICE. Log entry 35. -/
def execBarinit (b : BitVec 4) (mask : BitVec 5) (o : Ops) (s : State) : Out :=
  let a := (s.uniA o).val.toNat
  .next (s.ifActive fun s =>
    let t := s.team
    let tid := s.grp.tid
    let x := t.bar b.toNat
    let e := fld a 11 0
    if fld a 63 12 ≠ 0 ∨ e = 0 ∨ 2048 < e ∨ mask = 0 ∨ (mask.getLsbD 4 && !recMstream t.record) then s.fail (barCause b.toNat x 5)
    else if x.arr ≠ 0 then s.fail (barCause b.toNat x 6)
    else
      let part := t.parties mask
      let x' : Bar := { exp := e, arr := 0, part := part, exitd := part - (s.liveParties tid mask).length, ph := false, init := true, mask := mask }
      ((s.uncarry fun c => match c with | .bar t n _ => t == tid && n == b.toNat | _ => false).setBar tid b.toNat x').finish.checkTeam tid)
/-- BARA (R48, R161); a restart point of the stream (R320). -/
def execBara (b : BitVec 4) (_o : Ops) (s : State) : Out :=
  let tid := s.grp.tid
  .next (s.ifActive fun s =>
    s.withBar b.toNat fun x =>
      if x.arrived s.grp.member && !s.grp.wait.woken then s.waitBar b.toNat 0
      else (s.arrive b.toNat x).finish.markRestart.checkTeam tid)
/-- BARW (R48, R161). -/
def execBarw (b : BitVec 4) (_o : Ops) (s : State) : Out :=
  .next (s.ifActive fun s =>
    s.withBar b.toNat fun x =>
      let waiting := s.grp.wait.kind = .barrier
      let go :=
        if waiting then s.grp.wait.woken
        else match mfind x.last s.grp.member with
          | some k => (k % 2 == 1) != x.ph
          | none => false
      if go then s.acquired (.bar s.grp.tid b.toNat !x.ph) else s.waitBar b.toNat 0)
/-- BARS (R48, R134, R161): pi is 1 once the arrival has been counted. -/
def execBars (b : BitVec 4) (_o : Ops) (s : State) : Out :=
  let tid := s.grp.tid
  .next (s.ifActive fun s =>
    s.withBar b.toNat fun x =>
      let m := s.grp.member
      if s.iss.pi = 1 then if x.arrived m then s.waitBar b.toNat 1 else s.acquired (.bar tid b.toNat !x.ph)
      else if x.arrived m && !s.grp.wait.woken then s.waitBar b.toNat 0
      else
        let s := s.arrive b.toNat x
        if (s.team.bar b.toNat).nph ≠ x.nph then (s.acquired (.bar tid b.toNat x.ph)).checkTeam tid
        else s.waitBar b.toNat 1)

/-! ## Runnels (R162, R163) -/

/-- RNINIT (R51, R162). Refused operands are reported before a stage that is not idle, and of such
stages the lowest is named; the spec gives no order. DESIGN CHOICE. Log entry 35. -/
def execRninit (rn : BitVec 3) (s1 : BitVec 4) (o : Ops) (s : State) : Out :=
  let a := (s.uniA o).val.toNat
  .next (s.ifActive fun s =>
    let n := rn.toNat
    let x := s.team.rn n
    let pc := fld a 11 0
    let cc := fld a 27 16
    let idle (g : Stage) : Bool := !g.full && !g.ph && g.fullC == 0 && g.freeC == 0
    if pc = 0 ∨ 2048 < pc ∨ cc = 0 ∨ 2048 < cc ∨ fld a 15 12 ≠ 0 ∨ fld a 63 28 ≠ 0 then s.fail (rnCause n 0 x 5)
    else
      match x.st.find? fun e => !idle e.2 with
      | some e => s.fail (rnCause n e.1 x 6)
      | none =>
        let tid := s.grp.tid
        ((s.uncarry fun c => match c with | .runnel t r _ _ => t == tid && r == n | _ => false).setRn tid n { init := true, stages := s1.toNat + 1, pc := pc, cc := cc }).finish)
/-- RNPOST (R52, R163); a restart point of the stream (R320). -/
def execRnpost (rn : BitVec 3) (empty : Bool) (o : Ops) (s : State) : Out :=
  let k := (s.uniA o).val.toNat
  let key := s.iss.key
  .next (s.ifActive fun s =>
    let n := rn.toNat
    let tid := s.grp.tid
    let x := s.team.rn n
    if !x.init then s.fail (rnCause n 0 x 1)
    else
      let st := x.stageOf k
      let g : Stage := mget {} x.st st
      if g.full != empty then (s.hold { kind := .runnel, num := n + 8 * st } s.iss.act 0).checkQuiet tid
      else
        let s := if empty then s else (s.release key .clu).releaseTo key (.runnel tid n st g.ph)
        let (g', changed) := x.post empty g
        let s := s.setRn tid n { x with st := mset x.st st g' }
        (if changed then s.wakeRn tid (n + 8 * st) else s).finish.markRestart)
/-- RNWAIT (R52, R163). -/
def execRnwait (rn : BitVec 3) (empty : Bool) (o : Ops) (s : State) : Out :=
  let k := (s.uniA o).val.toNat
  .next (s.ifActive fun s =>
    let n := rn.toNat
    let tid := s.grp.tid
    let x := s.team.rn n
    if !x.init then s.fail (rnCause n 0 x 1)
    else
      let st := x.stageOf k
      let g : Stage := mget {} x.st st
      if g.full != empty && g.ph == x.phaseOf k then (if empty then s.finish else s.acquired (.runnel tid n st g.ph))
      else (s.hold { kind := .runnel, num := n + 8 * st } s.iss.act 0).checkQuiet tid)

end Sys2Proof.Machine
end

