-- ==== Sys2Proof/WellFormed.lean ====
section
/-! DEFINITION. WellFormed: which terms of `Instr` stand for an instruction the encodings admit. -/
namespace Sys2Proof

/-- No permutation field outside F96, and an immediate only in F128I (R75 to R77). -/
def Ops.shapeOk (o : Ops) : Bool :=
  (o.fmt == .f96 || (o.pa == .none && o.pb == .none && o.pc == .none && o.c == .v 0)) && (o.fmt == .f128i || o.imm == 0)

/-- A row is well formed when the opcode accepts the layout, every field satisfies its use,
and no reserved bit is set (R73 to R82). -/
def Row.wf : Row → Bool
  | .ops opc o _ u ok ok6 =>
    (formsOf opc).contains (Form.ofFmt o.fmt) && o.shapeOk && u.d.okFor o.d .none && u.a.okFor o.a o.pa && u.b.okFor o.b o.pb
      && u.c.okFor o.c o.pc && decide (o.imm.toNat < 2 ^ u.immW) && ok && ok6
  | .br opc o _ u auxUsed ok ok6 =>
    (formsOf opc).contains .b && u.a.okFor o.a .none && u.b.okFor o.b .none && decide (o.off.toNat % 4 = 0)
      && (auxUsed || o.aux == 0) && ok && ok6
  | .eng opc o _ _ u ok =>
    (formsOf opc).contains .c && u.a.okFor o.a .none && u.b.okFor o.b .none && u.c.okFor o.c .none && u.m.okFor o.m .none && ok
  | .mat opc o _ _ u ok =>
    (formsOf opc).contains .m && u.a.okFor o.a .none && u.b.okFor o.b .none && u.c.okFor o.c .none && ok

/-- An instruction is well formed when its row is; an operation without an encoding is not one. -/
def Instr.wf (i : Instr) : Bool :=
  match i.row with
  | some r => r.wf
  | none => false

end Sys2Proof
end

