-- ==== Sys2Proof/Decode.lean ====
section
/-! DEFINITION. Decode: the decoder, which accepts or rejects any word by name, and after it the encoder, both from the layouts of R73 to R82. -/
namespace Sys2Proof

/-- What the decoder answers: an instruction and its length in bytes, or the cause group of
the first failing check (R83, checks 2 to 6 without the role check). -/
inductive Decoded where
  | ok (i : Instr) (bytes : Nat)
  | illegalInstr
  | illegalOperand
  deriving DecidableEq, Repr

/-- Opcodes 0x0 to 0x1f in the three-operand layouts: the instruction that the opcode and control field name. -/
def buildControl (opc n : Nat) (o : Ops) : Option Instr :=
  match opc with
  | 0x0 => some .nop
  | 0x3 => some (.brx o)
  | 0x5 => some (.ret o)
  | 0x6 => some (.exit o)
  | 0x7 => some (.yield o)
  | 0x8 => some (.trap o)
  | 0x9 => some (.rtt o)
  | 0xa => some (.bkpt (BitVec.ofNat 15 (fld n 14 0)) o)
  | 0xb => some (.waitfault o)
  | 0xd => some (.crclose o)
  | 0xe => some (.crstat (bit n 0) o)
  | 0xf => some (.spawn o)
  | 0x10 => some (.join o)
  | 0x11 => some (.smstart o)
  | 0x12 => some (.waitpred o)
  | 0x13 => some (.barinit (BitVec.ofNat 4 (fld n 3 0)) (BitVec.ofNat 5 (fld n 8 4)) o)
  | 0x14 => some (.bara (BitVec.ofNat 4 (fld n 3 0)) o)
  | 0x15 => some (.barw (BitVec.ofNat 4 (fld n 3 0)) o)
  | 0x16 => some (.bars (BitVec.ofNat 4 (fld n 3 0)) o)
  | 0x17 => some (.rninit (BitVec.ofNat 3 (fld n 2 0)) (BitVec.ofNat 4 (fld n 6 3)) o)
  | 0x18 => some (.rnpost (BitVec.ofNat 3 (fld n 2 0)) (bit n 3) o)
  | 0x19 => some (.rnwait (BitVec.ofNat 3 (fld n 2 0)) (bit n 3) o)
  | 0x1a => some (.sleepc o)
  | _ => none

/-- Opcodes 0x20 to 0x3f in the three-operand layouts: the instruction that the opcode and control field name. -/
def buildUniform (opc n : Nat) (o : Ops) : Option Instr :=
  match opc with
  | 0x20 => some (.smov o)
  | 0x21 => some (.sli o)
  | 0x22 => some (.slih o)
  | 0x23 => do let ty ← Ty.ofCode (fld n 4 0); some (.sadd ty o)
  | 0x24 => do let ty ← Ty.ofCode (fld n 4 0); some (.ssub ty o)
  | 0x25 => do let ty ← Ty.ofCode (fld n 4 0); some (.smul ty o)
  | 0x26 => do let ty ← Ty.ofCode (fld n 4 0); some (.smulh ty o)
  | 0x27 => do let ty ← Ty.ofCode (fld n 4 0); some (.smad ty o)
  | 0x28 => do let ty ← Ty.ofCode (fld n 4 0); some (.sand ty o)
  | 0x29 => do let ty ← Ty.ofCode (fld n 4 0); some (.sor ty o)
  | 0x2a => do let ty ← Ty.ofCode (fld n 4 0); some (.sxor ty o)
  | 0x2b => do let ty ← Ty.ofCode (fld n 4 0); some (.sshl ty o)
  | 0x2c => do let ty ← Ty.ofCode (fld n 4 0); some (.sshr ty o)
  | 0x2d => do let ty ← Ty.ofCode (fld n 4 0); some (.ssra ty o)
  | 0x2e => do let ty ← Ty.ofCode (fld n 4 0); some (.smin ty o)
  | 0x2f => do let ty ← Ty.ofCode (fld n 4 0); some (.smax ty o)
  | 0x30 => do let ty ← Ty.ofCode (fld n 4 0); let cm ← Cmp.ofCode (fld n 8 5); some (.scmp ty cm o)
  | 0x31 => do let ty ← Ty.ofCode (fld n 4 0); some (.ssel ty o)
  | 0x32 => do let ty ← Ty.ofCode (fld n 4 0); some (.spopc ty o)
  | 0x33 => do let ty ← Ty.ofCode (fld n 4 0); some (.sclz ty o)
  | 0x34 => do let ty ← Ty.ofCode (fld n 4 0); let sc ← Scope.ofCode (fld n 9 7); let od ← MemOrd.ofCode (fld n 12 10); some (.sld ty sc od o)
  | 0x35 => do let ty ← Ty.ofCode (fld n 4 0); let sc ← Scope.ofCode (fld n 9 7); let od ← MemOrd.ofCode (fld n 12 10); some (.sst ty sc od o)
  | 0x36 => some (.srd (BitVec.ofNat 6 (fld n 5 0)) o)
  | 0x37 => some (.swr (BitVec.ofNat 6 (fld n 5 0)) o)
  | _ => none

/-- Opcodes 0x40 to 0x7f in the three-operand layouts: the instruction that the opcode and control field name. -/
def buildLane (opc n : Nat) (o : Ops) : Option Instr :=
  match opc with
  | 0x40 => some (.pand o)
  | 0x41 => some (.por o)
  | 0x42 => some (.pxor o)
  | 0x43 => some (.pnot o)
  | 0x44 => some (.pmovs o)
  | 0x45 => some (.pmovp o)
  | 0x46 => some (.vote (VoteMode.ofCode (fld n 6 5)) o)
  | 0x47 => do let ty ← Ty.ofCode (fld n 4 0); some (.lxch ty (XchMode.ofCode (fld n 6 5)) (BitVec.ofNat 3 (fld n 9 7)) (bit n 10) o)
  | 0x48 => do let ty ← Ty.ofCode (fld n 4 0); some (.rdlane ty o)
  | 0x49 => do let ty ← Ty.ofCode (fld n 4 0); some (.wrlane ty o)
  | 0x4a => do let ty ← Ty.ofCode (fld n 4 0); some (.mtch ty (bit n 5) o)
  | 0x70 => some (.csrrd (BitVec.ofNat 12 (fld n 11 0)) o)
  | 0x71 => some (.csrwr (BitVec.ofNat 12 (fld n 11 0)) o)
  | _ => none

/-- Opcodes 0x80 to 0xbf in the three-operand layouts: the instruction that the opcode and control field name. -/
def buildInt (opc n : Nat) (o : Ops) : Option Instr :=
  match opc with
  | 0x80 => do let ty ← Ty.ofCode (fld n 4 0); some (.iadd ty (bit n 7) o)
  | 0x81 => do let ty ← Ty.ofCode (fld n 4 0); some (.iadd3 ty o)
  | 0x82 => do let ty ← Ty.ofCode (fld n 4 0); some (.isub ty (bit n 7) o)
  | 0x83 => do let ty ← Ty.ofCode (fld n 4 0); some (.imul ty o)
  | 0x84 => do let ty ← Ty.ofCode (fld n 4 0); some (.imulh ty o)
  | 0x85 => do let ty ← Ty.ofCode (fld n 4 0); some (.imad ty o)
  | 0x86 => do let ty ← Ty.ofCode (fld n 4 0); some (.imadw ty o)
  | 0x87 => do let ty ← Ty.ofCode (fld n 4 0); some (.iabs ty (bit n 7) o)
  | 0x88 => do let ty ← Ty.ofCode (fld n 4 0); some (.imin ty o)
  | 0x89 => do let ty ← Ty.ofCode (fld n 4 0); some (.imax ty o)
  | 0x8a => do let ty ← Ty.ofCode (fld n 4 0); some (.idot4 ty (bit n 7) (bit n 8) (bit n 9) o)
  | 0x8b => do let ty ← Ty.ofCode (fld n 4 0); some (.and ty o)
  | 0x8c => do let ty ← Ty.ofCode (fld n 4 0); some (.or ty o)
  | 0x8d => do let ty ← Ty.ofCode (fld n 4 0); some (.xor ty o)
  | 0x8e => do let ty ← Ty.ofCode (fld n 4 0); some (.not ty o)
  | 0x8f => do let ty ← Ty.ofCode (fld n 4 0); some (.shl ty o)
  | 0x90 => do let ty ← Ty.ofCode (fld n 4 0); some (.shr ty o)
  | 0x91 => do let ty ← Ty.ofCode (fld n 4 0); some (.sra ty o)
  | 0x92 => do let ty ← Ty.ofCode (fld n 4 0); some (.shf ty (bit n 7) (bit n 8) o)
  | 0x93 => do let ty ← Ty.ofCode (fld n 4 0); some (.popc ty o)
  | 0x94 => do let ty ← Ty.ofCode (fld n 4 0); some (.clz ty o)
  | 0x95 => do let ty ← Ty.ofCode (fld n 4 0); some (.brev ty o)
  | 0x96 => do let ty ← Ty.ofCode (fld n 4 0); some (.bfe ty o)
  | 0x97 => do let ty ← Ty.ofCode (fld n 4 0); some (.bfi ty o)
  | 0x98 => do let ty ← Ty.ofCode (fld n 4 0); some (.prmt ty o)
  | 0x99 => do let ty ← Ty.ofCode (fld n 4 0); some (.lea ty (BitVec.ofNat 6 (fld n 12 7)) (bit n 13) o)
  | 0x9a => do let ty ← Ty.ofCode (fld n 4 0); let cm ← Cmp.ofCode (fld n 8 5); some (.icmp ty cm o)
  | 0x9b => do let ty ← Ty.ofCode (fld n 4 0); some (.sel ty o)
  | 0x9c => do let ty ← Ty.ofCode (fld n 4 0); some (.mov ty o)
  | 0x9d => do let ty ← Ty.ofCode (fld n 4 0); some (.movi ty o)
  | 0x9e => do let ty ← Ty.ofCode (fld n 4 0); some (.mova ty o)
  | _ => none

/-- Opcodes 0xc0 to 0xff in the three-operand layouts: the instruction that the opcode and control field name. -/
def buildFloat (opc n : Nat) (o : Ops) : Option Instr :=
  match opc with
  | 0xc0 => do let ty ← Ty.ofCode (fld n 4 0); some (.fadd ty (Rnd.ofCode (fld n 6 5)) o)
  | 0xc1 => do let ty ← Ty.ofCode (fld n 4 0); some (.fsub ty (Rnd.ofCode (fld n 6 5)) o)
  | 0xc2 => do let ty ← Ty.ofCode (fld n 4 0); some (.fmul ty (Rnd.ofCode (fld n 6 5)) o)
  | 0xc3 => do let ty ← Ty.ofCode (fld n 4 0); some (.fma ty (Rnd.ofCode (fld n 6 5)) o)
  | 0xc4 => do let ty ← Ty.ofCode (fld n 4 0); some (.fmin ty o)
  | 0xc5 => do let ty ← Ty.ofCode (fld n 4 0); some (.fmax ty o)
  | 0xc6 => do let ty ← Ty.ofCode (fld n 4 0); let cm ← FCmp.ofCode (fld n 8 5); some (.fcmp ty cm o)
  | 0xc7 => do let ty ← Ty.ofCode (fld n 4 0); some (.fclass ty o)
  | 0xc8 => do let ty ← Ty.ofCode (fld n 4 0); some (.frnd ty (Rnd.ofCode (fld n 6 5)) o)
  | 0xc9 => do let ty ← Ty.ofCode (fld n 4 0); some (.frcp ty (Rnd.ofCode (fld n 6 5)) o)
  | 0xca => do let ty ← Ty.ofCode (fld n 4 0); some (.frsq ty (Rnd.ofCode (fld n 6 5)) o)
  | 0xcb => do let ty ← Ty.ofCode (fld n 4 0); some (.fsqrt ty (Rnd.ofCode (fld n 6 5)) o)
  | 0xcc => do let ty ← Ty.ofCode (fld n 4 0); some (.fdiv ty (Rnd.ofCode (fld n 6 5)) o)
  | 0xcd => do let ty ← Ty.ofCode (fld n 4 0); some (.fexp2 ty o)
  | 0xce => do let ty ← Ty.ofCode (fld n 4 0); some (.flog2 ty o)
  | 0xcf => do let ty ← Ty.ofCode (fld n 4 0); some (.fsin ty o)
  | 0xd0 => do let ty ← Ty.ofCode (fld n 4 0); some (.fcos ty o)
  | 0xd1 => do let ty ← Ty.ofCode (fld n 4 0); some (.ftanh ty o)
  | 0xd2 => do let ty ← Ty.ofCode (fld n 4 0); some (.fscale ty (Rnd.ofCode (fld n 6 5)) o)
  | 0xd3 => do let ty ← Ty.ofCode (fld n 4 0); some (.ffrac ty o)
  | 0xd4 => do let ty ← Ty.ofCode (fld n 4 0); some (.pkadd ty (Rnd.ofCode (fld n 6 5)) o)
  | 0xd5 => do let ty ← Ty.ofCode (fld n 4 0); some (.pkmul ty (Rnd.ofCode (fld n 6 5)) o)
  | 0xd6 => do let ty ← Ty.ofCode (fld n 4 0); some (.pkfma ty (Rnd.ofCode (fld n 6 5)) o)
  | 0xd7 => if bit n 13 then some (.cvtUnit (Rnd.ofCode (fld n 6 5)) o) else do let ty ← Ty.ofCode (fld n 4 0); let sty ← Ty.ofCode (fld n 11 7); some (.cvt ty (Rnd.ofCode (fld n 6 5)) sty (bit n 12) o)
  | 0xd8 => do let ty ← Ty.ofCode (fld n 4 0); let rop ← RedOp.ofCode (fld n 8 7); some (.redl ty (Rnd.ofCode (fld n 6 5)) rop o)
  | 0xd9 => do let ty ← Ty.ofCode (fld n 4 0); some (.rngk ty (bit n 7) o)
  | _ => none

/-- Opcodes 0x140 to 0x15f in the three-operand layouts: the instruction that the opcode and control field name. -/
def buildMem (opc n : Nat) (o : Ops) : Option Instr :=
  match opc with
  | 0x140 => do let ty ← Ty.ofCode (fld n 4 0); let hint ← LdHint.ofCode (fld n 6 5); let sc ← Scope.ofCode (fld n 9 7); let od ← MemOrd.ofCode (fld n 12 10); some (.ld ty hint sc od (bit n 13) (bit n 14) o)
  | 0x141 => do let ty ← Ty.ofCode (fld n 4 0); let hint ← LdHint.ofCode (fld n 6 5); let sc ← Scope.ofCode (fld n 9 7); let od ← MemOrd.ofCode (fld n 12 10); some (.st ty hint sc od (bit n 13) o)
  | 0x142 => do let ty ← Ty.ofCode (fld n 4 0); let sc ← Scope.ofCode (fld n 9 7); let od ← MemOrd.ofCode (fld n 12 10); some (.ldt ty (Rnd.ofCode (fld n 6 5)) sc od (bit n 13) (bit n 14) o)
  | 0x143 => do let ty ← Ty.ofCode (fld n 4 0); let sc ← Scope.ofCode (fld n 9 7); let od ← MemOrd.ofCode (fld n 12 10); some (.stt ty (Rnd.ofCode (fld n 6 5)) sc od (bit n 13) (bit n 14) o)
  | 0x144 => do let ty ← Ty.ofCode (fld n 4 0); let ph ← PrefHint.ofCode (fld n 6 5); some (.pref ty ph (bit n 13) o)
  | 0x145 => do let ty ← Ty.ofCode (fld n 4 0); let op ← AtomOp.ofCtl n; let sc ← Scope.ofCode (fld n 9 7); let od ← MemOrd.ofCode (fld n 12 10); some (.atom ty op sc od o)
  | 0x146 => do let ty ← Ty.ofCode (fld n 4 0); let sc ← Scope.ofCode (fld n 9 7); let od ← MemOrd.ofCode (fld n 12 10); some (.atomcas ty sc od (bit n 13) o)
  | 0x147 => do let ty ← Ty.ofCode (fld n 4 0); let op ← AtomOp.ofCtl n; let sc ← Scope.ofCode (fld n 9 7); let od ← MemOrd.ofCode (fld n 12 10); some (.atomf ty op sc od o)
  | 0x148 => do let ty ← Ty.ofCode (fld n 4 0); let op ← AtomOp.ofCtl n; let sc ← Scope.ofCode (fld n 9 7); let od ← MemOrd.ofCode (fld n 12 10); some (.red ty op sc od o)
  | 0x149 => do let sc ← Scope.ofCode (fld n 9 7); let od ← MemOrd.ofCode (fld n 12 10); some (.fence sc od o)
  | 0x14a => if bit n 14 then some (.cmntInv o) else if bit n 13 then some (.cmntWb o) else some (.cmntL1 o)
  | 0x14b => do let od ← MemOrd.ofCode (fld n 12 10); some (.rstr (BitVec.ofNat 3 (fld n 2 0)) (bit n 5) od o)
  | 0x14c => if bit n 2 then some (.ibarmDis (BitVec.ofNat 2 (fld n 1 0)) o) else some (.ibarm (BitVec.ofNat 2 (fld n 1 0)) o)
  | 0x14d => some (.ibwait (BitVec.ofNat 2 (fld n 1 0)) o)
  | 0x14e => if bit n 0 then some (.ibstatIbox (BitVec.ofNat 2 (fld n 3 2)) o) else some (.ibstatSend (bit n 4) o)
  | 0x14f => do let sc ← Scope.ofCode (fld n 9 7); let od ← MemOrd.ofCode (fld n 12 10); some (.tagrd sc od o)
  | 0x150 => do let sc ← Scope.ofCode (fld n 9 7); let od ← MemOrd.ofCode (fld n 12 10); some (.tagwr sc od (bit n 13) o)
  | 0x151 => do let sc ← Scope.ofCode (fld n 9 7); let od ← MemOrd.ofCode (fld n 12 10); some (.sigst (bit n 13) (bit n 5) sc od o)
  | 0x152 => do let sg ← SigCmp.ofCode (fld n 14 13); let sc ← Scope.ofCode (fld n 9 7); let od ← MemOrd.ofCode (fld n 12 10); some (.sigwait sg sc od o)
  | _ => none

/-- Opcodes 0x180 to 0x19f in the three-operand layouts: the instruction that the opcode and control field name. -/
def buildEngLane (opc n : Nat) (o : Ops) : Option Instr :=
  match opc with
  | 0x185 => do let ty ← Ty.ofCode (fld n 4 0); some (.tld ty (BitVec.ofNat 3 (fld n 9 7)) (bit n 10) o)
  | 0x186 => do let ty ← Ty.ofCode (fld n 4 0); some (.tst ty (BitVec.ofNat 3 (fld n 9 7)) (bit n 10) o)
  | 0x187 => do let sc ← Scope.ofCode (fld n 9 7); some (.mbinit sc o)
  | 0x188 => some (.mbexp (bit n 13) o)
  | 0x189 => some (.mbarv o)
  | 0x18a => some (.mbwait o)
  | 0x18b => some (.mbtest o)
  | 0x18d => some (.clwait o)
  | 0x18e => do let ty ← Ty.ofCode (fld n 4 0); some (.binadd ty o)
  | 0x190 => do let sc ← Scope.ofCode (fld n 9 7); let od ← MemOrd.ofCode (fld n 12 10); some (.binrd sc od (bit n 13) o)
  | _ => none

/-- Opcodes 0x1c0 to 0x1df in the three-operand layouts: the instruction that the opcode and control field name. -/
def buildMatLane (opc _n : Nat) (o : Ops) : Option Instr :=
  match opc with
  | 0x1c2 => some (.mzero o)
  | 0x1c3 => some (.mwait o)
  | 0x1c4 => some (.mfence o)
  | 0x1c6 => some (.mstep o)
  | 0x1c7 => some (.mstat o)
  | _ => none

/-- The instruction of a three-operand layout. -/
def buildOps (opc n : Nat) (o : Ops) : Option Instr :=
  if opc ≤ 0x1f then buildControl opc n o
  else if opc ≤ 0x3f then buildUniform opc n o
  else if opc ≤ 0x7f then buildLane opc n o
  else if opc ≤ 0xbf then buildInt opc n o
  else if opc ≤ 0xff then buildFloat opc n o
  else if opc ≤ 0x15f then buildMem opc n o
  else if opc ≤ 0x19f then buildEngLane opc n o
  else buildMatLane opc n o

/-- The instruction of an F128B layout. -/
def buildBr (opc n : Nat) (o : BrOps) : Option Instr :=
  match opc with
  | 0x1 => do let cond ← BrCond.ofCode (fld n 1 0); some (.bra cond o)
  | 0x2 => do let ty ← Ty.ofCode (fld n 4 0); let cm ← Cmp.ofCode (fld n 8 5); some (.brc ty cm o)
  | 0x4 => some (.call o)
  | 0xc => some (.cropen (BitVec.ofNat 16 (fld n 15 0)) o)
  | _ => none

/-- The instruction of an F128C layout; `x` is DESC. -/
def buildEng (opc n x : Nat) (o : EngOps) : Option Instr :=
  match opc with
  | 0x180 => some (.cpy (bit n 0) o)
  | 0x181 => some (.cpy2d (bit n 0) (BitVec.ofNat 32 (fld x 31 0)) (BitVec.ofNat 32 (fld x 63 32)) o)
  | 0x182 => some (.cpyg (bit n 0) (BitVec.ofNat 32 (fld x 31 0)) (BitVec.ofNat 12 (fld x 43 32)) (bit x 48) o)
  | 0x183 => some (.cpyt (bit n 0) (bit n 1) o)
  | 0x184 => do let tf ← TileFmt.ofCode (fld x 1 0); some (.cpyto (bit n 0) tf o)
  | 0x18c => do let op ← CollOp.ofCode (fld x 3 0); let alg ← CollAlg.ofCode (fld x 5 4); let ety ← CollTy.ofCode (fld x 9 6); let rop ← RedOp.ofCode (fld x 11 10); some (.coll (bit n 0) (bit n 1) op alg ety rop (BitVec.ofNat 16 (fld x 27 12)) (BitVec.ofNat 10 (fld x 37 28)) (BitVec.ofNat 4 (fld x 41 38)) o)
  | 0x18f => some (.binpatch (bit n 0) (BitVec.ofNat 16 (fld x 15 0)) (BitVec.ofNat 5 (fld x 20 16)) o)
  | _ => none

/-- The instruction of an F128M layout; `x` is MCW. -/
def buildMat (opc n x : Nat) (o : MatOps) : Option Instr :=
  match opc with
  | 0x1c0 => do let ty ← Ty.ofCode n; let af ← MFmt.ofCode (fld x 3 0); let bf ← MFmt.ofCode (fld x 7 4); some (.mma ty af bf (bit x 8) (bit x 9) (bit x 10) (bit x 11) (BitVec.ofNat 2 (fld x 13 12)) (bit x 14) (bit x 15) o)
  | 0x1c1 => do let ty ← Ty.ofCode n; let af ← MFmt.ofCode (fld x 3 0); let bf ← MFmt.ofCode (fld x 7 4); some (.mmaq ty af bf (bit x 8) (bit x 9) (bit x 10) (bit x 11) (BitVec.ofNat 2 (fld x 13 12)) (bit x 14) (bit x 15) o)
  | 0x1c5 => some (.mcfg (bit x 0) (BitVec.ofNat 16 (fld x 47 32)))
  | _ => none

/-! ## The checks on the fields -/

/-- Check 5 on an operand field and its permutation field: what the instruction does not use is
zero (R81, R131), and so is what LXCH reserves on an s register (R169). -/
def Use.check5 (u : Use) (raw rawPerm : Nat) : Bool :=
  if u.used then rawPerm == 0 || !(u.perm == .reserved || (u.perm == .vector && decide (640 ≤ raw) && decide (raw < 704))) else raw == 0 && rawPerm == 0
/-- Check 6 on an operand field and its permutation field (R57, R61, R62, R70). -/
def Use.check6 (u : Use) (raw rawPerm : Nat) : Bool :=
  !u.used || match Opnd.ofCode raw, Perm.ofCode rawPerm with
    | some x, some pm => u.okFor x pm
    | _, _ => false
/-- The operand a field names; a field no operand has reads as v0, and check 6 refuses it. -/
def opndOf (raw : Nat) : Opnd := (Opnd.ofCode raw).getD (.v 0)
def permOf (raw : Nat) : Perm := (Perm.ofCode raw).getD .none

/-- GEN, GRD and GSN (R73). -/
def guardOf (w : Nat) : Option Guard :=
  if bit w 11 then some ⟨BitVec.toFin (BitVec.ofNat 4 (fld w 15 12)), bit w 16⟩ else none
/-- With GEN = 0, GRD and GSN are zero (R73). -/
def guardOk (w : Nat) : Bool := bit w 11 || fld w 16 12 == 0

/-- Answer by the first failing of checks 5 and 6 (R83). -/
def answer (c5 c6 : Bool) (i : Instr) (bytes : Nat) : Decoded :=
  if !c5 then .illegalInstr else if !c6 then .illegalOperand else .ok i bytes

/-- The operands, control field and raw fields of a three-operand layout. -/
structure RawOps where
  o : Ops
  ctl : Nat
  rd : Nat
  ra : Nat
  rb : Nat
  rc : Nat
  qa : Nat
  qb : Nat
  qc : Nat
  deriving DecidableEq, Repr

/-- The fields of F64, F96 and F128I (R75, R76, R77). -/
def rawOps (fmt : Fmt) (w : Nat) : RawOps :=
  let rd := fld w 26 17; let ra := fld w 36 27; let rb := fld w 46 37
  match fmt with
  | .f96 =>
    let rc := fld w 56 47; let qa := fld w 64 57; let qb := fld w 72 65; let qc := fld w 80 73
    ⟨⟨.f96, guardOf w, opndOf rd, opndOf ra, opndOf rb, opndOf rc, permOf qa, permOf qb, permOf qc, 0⟩, fld w 95 81,
      rd, ra, rb, rc, qa, qb, qc⟩
  | fmt =>
    ⟨⟨fmt, guardOf w, opndOf rd, opndOf ra, opndOf rb, .v 0, .none, .none, .none,
      if fmt = .f128i then BitVec.ofNat 64 (fld w 127 64) else 0⟩, fld w 63 47, rd, ra, rb, 0, 0, 0, 0⟩

def decodeOps (opc : Nat) (fmt : Fmt) (w : Nat) : Decoded :=
  let r := rawOps fmt w
  match buildOps opc r.ctl r.o with
  | none => .illegalInstr
  | some i =>
    match i.row with
    | some (.ops _ o ctl u ok ok6) =>
      answer (guardOk w && o == r.o && ctl == r.ctl && ok && u.d.check5 r.rd 0 && u.a.check5 r.ra r.qa && u.b.check5 r.rb r.qb
          && u.c.check5 r.rc r.qc && decide (r.o.imm.toNat < 2 ^ u.immW))
        (ok6 && u.d.check6 r.rd 0 && u.a.check6 r.ra r.qa && u.b.check6 r.rb r.qb && u.c.check6 r.rc r.qc)
        i (Form.ofFmt fmt).bytes
    | _ => .illegalInstr

/-- F128B (R78). -/
def decodeBr (opc w : Nat) : Decoded :=
  let ra := fld w 26 17; let rb := fld w 36 27; let n := fld w 63 37
  let o : BrOps := ⟨guardOf w, opndOf ra, opndOf rb, BitVec.ofNat 32 (fld w 95 64), BitVec.ofNat 32 (fld w 127 96)⟩
  match buildBr opc n o with
  | none => .illegalInstr
  | some i =>
    match i.row with
    | some (.br _ _ ctl u auxUsed ok ok6) =>
      answer (guardOk w && ctl == n && ok && u.a.check5 ra 0 && u.b.check5 rb 0 && decide (o.off.toNat % 4 = 0)
          && (auxUsed || o.aux == 0))
        (ok6 && u.a.check6 ra 0 && u.b.check6 rb 0) i 16
    | _ => .illegalInstr

/-- F128C (R79). -/
def decodeEng (opc w : Nat) : Decoded :=
  let ra := fld w 26 17; let rb := fld w 36 27; let rc := fld w 46 37; let rm := fld w 56 47
  let n := fld w 63 57; let x := fld w 127 64
  let o : EngOps := ⟨guardOf w, opndOf ra, opndOf rb, opndOf rc, opndOf rm⟩
  match buildEng opc n x o with
  | none => .illegalInstr
  | some i =>
    match i.row with
    | some (.eng _ _ ctl desc u ok) =>
      answer (guardOk w && ctl == n && desc == x && ok && u.a.check5 ra 0 && u.b.check5 rb 0 && u.c.check5 rc 0 && u.m.check5 rm 0)
        (u.a.check6 ra 0 && u.b.check6 rb 0 && u.c.check6 rc 0 && u.m.check6 rm 0) i 16
    | _ => .illegalInstr

/-- F128M, whose GEN, GRD and GSN are reserved (R80). -/
def decodeMat (opc w : Nat) : Decoded :=
  let ra := fld w 26 17; let rb := fld w 36 27; let rc := fld w 46 37
  let n := fld w 63 47; let x := fld w 127 64
  match buildMat opc n x ⟨opndOf ra, opndOf rb, opndOf rc⟩ with
  | none => .illegalInstr
  | some i =>
    match i.row with
    | some (.mat _ _ ctl mcw u ok) =>
      answer (fld w 16 11 == 0 && ctl == n && mcw == x && ok && u.a.check5 ra 0 && u.b.check5 rb 0 && u.c.check5 rc 0)
        (u.a.check6 ra 0 && u.b.check6 rb 0 && u.c.check6 rc 0) i 16
    | _ => .illegalInstr

/-! ## The decoder -/

/-- The opcode of a word. -/
def opcOf (w : Nat) : Nat := fld w 10 2
/-- Checks 2 and 3 without the fetch block: the layout that LEN and the opcode give, or none (R71, R82). -/
def formOf (w : Nat) : Option Form := (formsOf (opcOf w)).find? fun f => f.len == fld w 1 0

/-- Checks 5 and 6 of a word whose layout is known. -/
def decodeBody (f : Form) (w : Nat) : Decoded :=
  let opc := opcOf w
  match f with
  | .f64 => decodeOps opc .f64 w
  | .f96 => decodeOps opc .f96 w
  | .i => decodeOps opc .f128i w
  | .b => decodeBr opc w
  | .c => decodeEng opc w
  | .m => decodeMat opc w

/-- The decoder: total on every word of up to 128 bits. -/
def decode (w : Nat) : Decoded :=
  match formOf w with
  | none => .illegalInstr
  | some f => decodeBody f (w % 2 ^ (8 * f.bytes))

/-! ## The encoder -/

/-- GEN, GRD and GSN in place (R73). -/
def guardBits : Option Guard → Nat
  | none => 0
  | some g => 2 ^ 11 + g.p.val * 2 ^ 12 + b2n g.neg * 2 ^ 16

/-- The bits of a row (R73 to R80). -/
def Row.bits : Row → Nat
  | .ops opc o ctl _ _ _ =>
    let head := (Form.ofFmt o.fmt).len + opc * 4 + guardBits o.g + o.d.code * 2 ^ 17 + o.a.code * 2 ^ 27 + o.b.code * 2 ^ 37
    match o.fmt with
    | .f64 => head + ctl * 2 ^ 47
    | .f96 => head + o.c.code * 2 ^ 47 + o.pa.code * 2 ^ 57 + o.pb.code * 2 ^ 65 + o.pc.code * 2 ^ 73 + ctl * 2 ^ 81
    | .f128i => head + ctl * 2 ^ 47 + o.imm.toNat * 2 ^ 64
  | .br opc o ctl _ _ _ _ =>
    2 + opc * 4 + guardBits o.g + o.a.code * 2 ^ 17 + o.b.code * 2 ^ 27 + ctl * 2 ^ 37 + o.off.toNat * 2 ^ 64 + o.aux.toNat * 2 ^ 96
  | .eng opc o ctl desc _ _ =>
    2 + opc * 4 + guardBits o.g + o.a.code * 2 ^ 17 + o.b.code * 2 ^ 27 + o.c.code * 2 ^ 37 + o.m.code * 2 ^ 47 + ctl * 2 ^ 57
      + desc * 2 ^ 64
  | .mat opc o ctl mcw _ _ =>
    2 + opc * 4 + o.a.code * 2 ^ 17 + o.b.code * 2 ^ 27 + o.c.code * 2 ^ 37 + ctl * 2 ^ 47 + mcw * 2 ^ 64
/-- The bytes of a row. -/
def Row.bytes : Row → Nat
  | .ops _ o _ _ _ _ => (Form.ofFmt o.fmt).bytes
  | .br .. | .eng .. | .mat .. => 16

/-- The encoder: the bits of an instruction as one number; 0 for an operation without an encoding. -/
def encodeBits (i : Instr) : Nat :=
  match i.row with
  | some r => r.bits
  | none => 0
/-- The 32-bit words of an instruction, first word first. -/
def encode (i : Instr) : List Word :=
  match i.row with
  | some r => (List.range (r.bytes / 4)).map fun k => BitVec.ofNat 32 (r.bits / 2 ^ (32 * k))
  | none => []

/-- The instruction the decoder reads from a word whose bits above `nbits` are zero. -/
def decodeTableWord (nbits w : Nat) : Option Instr :=
  match decode (w % 2 ^ nbits) with
  | .ok i _ => some i
  | _ => none

end Sys2Proof
end

