-- ==== Sys2Proof/Machine/Issue.lean ====
section
/-! DEFINITION. Issue: what a group does in its turn up to the instruction's own effect: pending causes, held waits, replayed entries, the choice of a run, the fetch, and the checks of R83 (R29, R30, R40 to R44, R53, R71, R72, R80, R83 to R85, R147, R184, R340). -/
namespace Sys2Proof

/-- The vector groups an instruction names: first register and count (R62, R86). -/
def Row.groups : Row → List (Nat × Nat)
  | .ops _ o _ u _ _ => [(u.d, o.d), (u.a, o.a), (u.b, o.b), (u.c, o.c)].flatMap fun e =>
      match e.2 with | .v k => if e.1.used then [(k.val, e.1.n)] else [] | _ => []
  | .br _ o _ u _ _ _ => [(u.a, o.a), (u.b, o.b)].flatMap fun e =>
      match e.2 with | .v k => if e.1.used then [(k.val, e.1.n)] else [] | _ => []
  | .eng .. | .mat .. => []
/-- The operands of an instruction, for the stream's restriction (R80). -/
def Row.operands : Row → List (Use × Opnd)
  | .ops _ o _ u _ _ => [(u.d, o.d), (u.a, o.a), (u.b, o.b), (u.c, o.c)]
  | .br _ o _ u _ _ _ => [(u.a, o.a), (u.b, o.b)]
  | .eng _ o _ _ u _ => [(u.a, o.a), (u.b, o.b), (u.c, o.c), (u.m, o.m)]
  | .mat _ o _ _ u _ => [(u.a, o.a), (u.b, o.b), (u.c, o.c)]
def Row.guard : Row → Option Guard
  | .ops _ o _ _ _ _ => o.g
  | .br _ o _ _ _ _ _ => o.g
  | .eng _ o _ _ _ _ => o.g
  | .mat .. => none
/-- The slots each of them needs (R340). -/
def Row.slotCounts : Row → Nat × Nat × Nat
  | .ops _ o _ u _ _ => (Machine.slotCount u.a o.a, Machine.slotCount u.b o.b, Machine.slotCount u.c o.c)
  | .br _ o _ u _ _ _ => (Machine.slotCount u.a o.a, Machine.slotCount u.b o.b, 0)
  | .eng _ o _ _ u _ => (Machine.slotCount u.a o.a, Machine.slotCount u.b o.b, Machine.slotCount u.c o.c + Machine.slotCount u.m o.m)
  | .mat _ o _ _ u _ => (Machine.slotCount u.a o.a, Machine.slotCount u.b o.b, Machine.slotCount u.c o.c)
end Sys2Proof

namespace Sys2Proof.Machine

/-- A turn of a group either is over, or has an instruction to execute. -/
inductive Turned where
  | done (s : State)
  | run (i : Instr) (s : State)
  deriving DecidableEq, Repr

/-! ## Roles (R29, R30) -/

/-- Whether a role may issue an opcode (R29). -/
def Role.permits (r : Role) (opc : Nat) : Bool :=
  let gv := r = .general || r = .vector
  if opc ≤ 0x0E then true
  else if opc ≤ 0x12 then r != .matrix
  else if opc ≤ 0x34 then true
  else if opc = 0x35 then r != .matrix
  else if opc ≤ 0x71 then true
  else if opc = 0x9C ∨ opc = 0x9D ∨ opc = 0x9E then r != .copy
  else if opc ≤ 0x13F then gv
  else if opc = 0x140 ∨ opc = 0x142 ∨ opc = 0x144 then r != .copy
  else if opc = 0x149 then true
  else if opc ≤ 0x152 then gv
  else if opc = 0x185 ∨ opc = 0x186 then gv
  else if 0x187 ≤ opc ∧ opc ≤ 0x18B then true
  else if opc ≤ 0x190 then r = .general || r = .copy
  else false
/-- What a matrix stream accepts (R30, R133). -/
def streamTakes (opc : Nat) : Bool :=
  opc == 0 || opc == 1 || opc == 6 || opc == 0x14 || opc == 0x15 || opc == 0x18 || opc == 0x19 || (0x20 ≤ opc && opc ≤ 0x33)
    || (0x1C0 ≤ opc && opc ≤ 0x1C7)
/-- The group-level instructions (R43, R128). -/
def convergeOpc (opc : Nat) : Bool := opc == 0x0C || opc == 0x0D || (0x0F ≤ opc && opc ≤ 0x19)

/-! ## Register groups of an instruction -/

/-- The sources of an instruction, in the order of R339, as three groups; an engine command's M follows C. -/
def Group.captureRow (g : Group) : Row → List Slot × List Slot × List Slot
  | .ops _ o _ u _ _ => (g.capture u.a o.a o.pa, g.capture u.b o.b o.pb, g.capture u.c o.c o.pc)
  | .br _ o _ u _ _ _ => (g.capture u.a o.a .none, g.capture u.b o.b .none, [])
  | .eng _ o _ _ u _ => (g.capture u.a o.a .none, g.capture u.b o.b .none, g.capture u.c o.c .none ++ g.capture u.m o.m .none)
  | .mat _ o _ _ u _ => (g.capture u.a o.a .none, g.capture u.b o.b .none, g.capture u.c o.c .none)
/-- Captured slots as the three groups. -/
def splitSlots (n : Nat × Nat × Nat) (sl : List Slot) : List Slot × List Slot × List Slot :=
  (sl.take n.1, (sl.drop n.1).take n.2.1, sl.drop (n.1 + n.2.1))

/-! ## The checks of R83 -/

/-- Whether a CROPEN keep-list passes v(N+M−1) (R149). -/
def keepsBeyond (g : Group) (i : Instr) : Bool :=
  match i with
  | .cropen _ o => decide (g.ngen + g.ncmp < fld o.aux.toNat 9 0 + fld o.aux.toNat 19 10)
  | _ => false
/-- Checks 2 to 6 on the bits at a PC of which `avail` bytes lie in the fetch block: the
instruction and its length, or the cause group (R83, R85). -/
def Group.checkWord (g : Group) (bits avail : Nat) : Except Nat (Instr × Row × Nat) :=
  let opc := opcOf bits
  let len := lenBytes (BitVec.ofNat 128 bits)
  if bits % 4 = 3 ∨ avail < len then .error 1
  else match formOf bits with
    | none => .error 1
    | some f =>
      let str := g.role = .stream
      if (if str then !streamTakes opc else !g.role.permits opc) then .error 4
      else if str && fld bits 16 11 != 0 then .error 1
      else match decodeBody f (bits % 2 ^ (8 * len)) with
        | .illegalInstr => .error 1
        | .illegalOperand => .error 2
        | .ok i n =>
          match i.row with
          | none => .error 1
          | some r =>
            if str && r.operands.any fun e => e.1.used && (match e.2 with | .s _ | .zero => false | _ => true) then .error 2
            else if r.groups.any fun e => decide (g.ngen + g.ncmp < e.1 + e.2) then .error 2
            else if keepsBeyond g i then .error 2
            else .ok (i, r, n)

/-! ## Fetching (R72, R325) -/

/-- `n` bytes at a PC as the group's die reads them; bytes on a page that translates to nothing, or
that its home refuses (R398), read 0. DEDUCED. Log entry 12. -/
def State.peekCode (s : State) (g : Group) (asid pc n : Nat) : Nat :=
  leNat ((List.range n).map fun i =>
    match translate s (dieOf g.core) (some g.core) g.vd asid (pc + i) 3 with
    | .ok (e, _) => let l := e.loc (pc + i); if s.admits g.vd l (l.addr, 1) false then s.engineByte (dieOf g.core) l l.addr else 0
    | .error _ => 0)
/-- Bytes from a PC to the end of its fetch block. -/
def blockLeft (pc : Nat) : Nat := 32 - pc % 32
/-- Whether the run at a PC is at a convergence point (R43). -/
def State.atConvergence (s : State) (g : Group) (asid pc : Nat) : Bool :=
  pc % 4 == 0 && convergeOpc (opcOf (s.peekCode g asid pc 4))

/-! ## The choice of a run (R40 to R43, R142) -/

/-- The lanes that hold a PC. -/
def Group.runAt (g : Group) (pc : DWord) : Word := maskOf fun l => g.pcs.getD l none == some pc
/-- The distinct PCs of the live lanes, in ascending lane order of first appearance. -/
def Group.livePcs (g : Group) : List DWord := (g.pcs.filterMap id).foldl (fun l p => if l.contains p then l else l ++ [p]) []
def minPc (l : List DWord) : Option DWord :=
  l.foldl (fun m p => match m with | none => some p | some q => if p.toNat < q.toNat then some p else some q) none
/-- Lanes after a pointer, in cyclic order. -/
def lanesAfter (ptr : Nat) : List Nat := (List.range 32).map fun i => (ptr + 1 + i) % 32
/-- Whether a run is held at a convergence point: there, while other lanes hold other PCs (R43). -/
def Group.heldAt (g : Group) (held : DWord → Bool) (p : DWord) : Bool := g.livePcs.length != 1 && held p
/-- The lane whose run an aging issue serves: the first after the pointer that is neither in the
head run nor held; none where it is an ordinary head issue (R42). -/
def Group.agingLane (g : Group) (held : DWord → Bool) : Option Nat :=
  let head := minPc g.livePcs
  (lanesAfter g.agingPtr).find? fun l =>
    match g.pcs.getD l none with | some p => head != some p && !g.heldAt held p | none => false
/-- The run to issue, and the aging pointer after it; none when every run is held (R43). -/
def Group.choose (g : Group) (aging : Bool) (held : DWord → Bool) : Option (DWord × Nat) :=
  match minPc (g.livePcs.filter fun p => !g.heldAt held p) with
  | none => none
  | some first =>
    match (if aging then g.agingLane held else none) with
    | some l => some ((g.pcs.getD l none).getD first, l)
    | none => some (first, g.agingPtr)
/-- The next issue is an aging issue: after the 256th, after a YIELD, or by the unit's own event (R42, R142). -/
def Group.agingDue (g : Group) : Bool := g.aging == 256 || g.yielded
/-- The counters after an issue (R42, R142). An instruction that a check of R83 or its fetch
refuses does not count, and neither does the resumption or the replay of one; the spec does not
say. DESIGN CHOICE. Log entry 35. -/
def Group.issued (g : Group) (ptr : Nat) : Group :=
  { g with aging := if g.yielded then g.aging else if g.aging = 256 then 0 else g.aging + 1, agingPtr := ptr, yielded := false, forced := none }

/-! ## Pending causes (R53, R276, R287) -/

/-- The first pending ENGINE error, stream error, DIELOST or HWERR of a group is taken. -/
def State.takeErr (s : State) (key : Nat) : State :=
  match mfind s.groups key with
  | none => s
  | some g =>
    match g.errs with
    | [] => s
    | c :: cs =>
      let s := s.setGroup key { g with errs := cs }
      if g.role = .stream then s.streamError key c
      else if c.cause = 13 then
        if c.region != 0 && g.regions.any fun r => r.ident == c.region then s.unwindTo key c.region c else s.trapAt key c false
      else if c.cause = 16 || c.cause = 9 then s.trapAt key c false
      else s.unwindElse key c fun s => s.trapAt key c false
/-- The first NAK held for a trap is taken, outside a handler (R276). -/
def State.takeNak (s : State) (key : Nat) : State :=
  match mfind s.groups key with
  | none => s
  | some g =>
    match g.naks with
    | [] => s
    | c :: cs => if g.inhdl then s else (s.setGroup key { g with naks := cs }).trapAt key c false

/-! ## The turn of a group -/

/-- The issue of an instruction with lanes `xm` and its guard. -/
def State.startIssue (s : State) (key : Nat) (g : Group) (pc : DWord) (bits : Nat) (len : Nat) (xm : Word) (r : Row) : State :=
  let act := xm &&& g.guardMask r.guard
  let gt := g.guardTags r.guard
  let c := g.captureRow r
  { s with iss := { key := key, pc := pc, npc := nextPc pc len, bits := BitVec.ofNat 128 (bits % 2 ^ (8 * len)), xm := xm, act := act,
                    pend := act, gdp := gt.1, gfp := gt.2, cap := c.1 ++ c.2.1 ++ c.2.2 } }
/-- The issue of a stopped or replayed entry, which reads its captured sources (R88, R340). -/
def State.resumeIssue (s : State) (key : Nat) (g : Group) (e : Entry) (r : Row) (replay : Bool) : State :=
  let act := if replay then e.pend &&& e.act else e.act
  { s with iss := { key := key, pc := e.pc, npc := nextPc e.pc (lenBytes e.bits), bits := e.bits,
                    xm := if replay then act else g.runAt e.pc, act := act, pend := e.pend &&& e.act, gdp := e.dp, gfp := e.fp, mid := e.mid,
                    slots := some (splitSlots r.slotCounts e.slots), cap := e.slots, pi := e.pi, replay := replay, resumed := !replay || g.wait.kind != .none } }
/-- A check of R83 fails at the PC `pc`, of which `avail` bytes lie in the fetch block (R84): the
frame holds all bits of the instruction, the detail 96 of them, which of a LEN = 11 word and of a
crossing are those at the PC. Then it traps. -/
def State.refuse (s : State) (key : Nat) (pc : DWord) (bits avail : Nat) (xm : Word) (cause : Nat) (replay : Bool) : State :=
  let len := lenBytes (BitVec.ofNat 128 bits)
  let n := if bits % 4 = 3 then 12 else if avail < len then max 12 len else len
  let w := bits % 2 ^ (8 * n)
  let s := { s with iss := { key := key, pc := pc, npc := nextPc pc n, bits := BitVec.ofNat 128 w, xm := xm,
                             act := xm, pend := xm, replay := replay, refused := true } }
  s.fail { cause := cause, td0 := lo32 w, td1 := hi32 w, td2 := BitVec.ofNat 32 (w / 2 ^ 64) }

/-- The next valid entry of the replay queue; entries with V = 0 are skipped (R340). -/
def dropInvalid : List Entry → List Entry
  | [] => []
  | e :: es => if e.valid then e :: es else dropInvalid es
/-- Whether an instruction names a register of an armed inbox window (R184). -/
def Group.inWindow (g : Group) (r : Row) : Option Nat :=
  (g.ibc.find? fun e => e.2.armed && r.groups.any fun q => decide (q.1 < e.2.wbase + e.2.wcnt) && decide (e.2.wbase < q.1 + q.2)).map fun e => e.1
/-- Whether it names the destination of a BINADD that has not finished (R304). -/
def State.binPending (s : State) (key : Nat) (r : Row) : Bool :=
  s.binops.any fun b => b.key == key && r.groups.any fun q => decide (q.1 ≤ b.reg) && decide (b.reg < q.1 + q.2)
/-- An instruction that names such a register stalls: the group with its wait (R184, R304). -/
def State.stalls (s : State) (key : Nat) (g : Group) (r : Row) : Option Group :=
  match g.inWindow r with
  | some c => some { g with wait := { kind := .inbox, num := c } }
  | none => if s.binPending key r then some { g with wait := { kind := .resource } } else none

/-- A replayed entry is decoded under R83; a wrong slot count is ILLEGAL_INSTR (R340). A
destination in an armed window stalls it (R184). -/
def State.replayTurn (s : State) (key : Nat) (g : Group) (e : Entry) : Turned :=
  let bits := e.bits.toNat
  let left := e.pend &&& e.act
  let s := s.unpark g.vd key e.pc
  match (if e.pc.toNat % 4 ≠ 0 then Except.error 9 else g.checkWord bits (blockLeft e.pc.toNat)) with
  | .error 9 =>
    .done ((({ s with iss := { key := key, pc := e.pc, npc := e.pc, bits := e.bits, xm := left, act := left, pend := left, replay := true } }).fail
      (alignCause e.pc.toNat (lowLane left) 2)))
  | .error c => .done (s.refuse key e.pc bits (blockLeft e.pc.toNat) left c true)
  | .ok (i, r, _) =>
    let n := r.slotCounts
    if n.1 + n.2.1 + n.2.2 ≠ e.slots.length then .done (s.refuse key e.pc bits (blockLeft e.pc.toNat) left 1 true)
    else match s.stalls key g r with
      | some g => .done (s.setGroup key g)
      | none => .run i (s.resumeIssue key g e r true)

/-- The fetch and the checks for a run at `pc`. -/
def State.fetchTurn (s : State) (key : Nat) (g : Group) (t : Team) (pc : DWord) (ptr : Nat) : Turned :=
  let a := pc.toNat
  let xm := g.runAt pc
  let die := dieOf g.core
  let at0 : Issue := { key := key, pc := pc, npc := pc, xm := xm, act := xm, pend := xm }
  let s := s.unpark g.vd key pc
  let lane := lowLane xm
  if a % 4 ≠ 0 then .done (({ s with iss := at0 }).fail (alignCause a lane 2))
  else if windowOf a ≠ .global then .done (({ s with iss := at0 }).fail (xlateCause a lane 1 3 false))
  else
    match translate s die (some g.core) g.vd t.asid a 3 with
    | .error x =>
      let s := s.meet (some g.vd) x.bad.toList
      let reqs := s.groupReqs key
      if reqs.any (·.failed) then
        let s := s.faultDiscard g.vd fun r => r.origin == .group key && r.failed
        .done (({ s with iss := at0 }).fail (xlateCause a lane x.kind 3 x.tbl))
      else if !reqs.isEmpty then .done s
      else if x.repl && (s.vd g.vd).fbOn then
        .done ((s.setGroup key { g with wait := { kind := .held } }).faultRaise g.vd (faultReq (.group key) x 3 2 t.asid pc 0))
      else .done (({ s with iss := at0 }).fail (xlateCause a lane x.kind 3 x.tbl))
    | .ok (e, s) =>
      let l := e.loc a
      if l.space = .remote && s.late.contains (g.vd, .group key) then
        .done (({ s with late := s.late.erase (g.vd, .group key), iss := at0 } : State).fail (xlateCause a lane 5 3 false))
      else if !s.admits g.vd l (l.addr, 1) false then .done (({ s with iss := at0 }).fail (xlateCause a lane 5 3 false))
      else if s.engineBad die l l.addr 1 then
        let s := if l.space = .hbm then s.meet (some g.vd) [sectorOf l.addr] else s
        let (s, q) := s.errRecord { cls := 4, sev := 1, die := die, vd := some g.vd, addr := pc, gname := g.gname, pc := pc, core := g.core }
        let c : Pending := { cause := 15, td0 := q, td1 := 4, td2 := 0 }
        .done (if g.role = .stream then s.streamError key c else s.unwindElse key c fun s => s.trapAt key c false)
      else
        let left := blockLeft a
        let w0 := s.peekCode g t.asid a (min left 16)
        let len := lenBytes (BitVec.ofNat 128 w0)
        let bits := if w0 % 4 = 3 then s.peekCode g t.asid a 12 else if left < len then s.peekCode g t.asid a (max 12 len) else w0
        match g.checkWord bits left with
        | .error c => .done (s.refuse key pc bits left xm c false)
        | .ok (i, r, n) =>
          match s.stalls key g r with
          | some g => .done (s.setGroup key g)
          | none =>
              let g := { g.issued ptr with wait := {} }
              .run i ((s.setGroup key g).startIssue key g pc bits n xm r)

/-- A group's turn (R40 to R44, R53): a trap that waits for its frame, a pending cause, a
replayed or stopped instruction, or the next instruction of the chosen run. -/
def State.issue (s : State) (key : Nat) : Turned :=
  match mfind s.groups key with
  | none => .done s
  | some g =>
    let t := mget {} s.teams g.tid
    if t.saved.isSome || g.moving.isSome then .done s
    else match g.trapping with
    | some x => .done (s.tryTrap key x)
    | none =>
      if !g.errs.isEmpty then .done (s.takeErr key)
      else if !g.naks.isEmpty && !g.inhdl then .done (s.takeNak key)
      else match dropInvalid g.replay with
      | e :: es =>
        let g := { g with replay := e :: es }
        (s.setGroup key g).replayTurn key g e
      | [] =>
        let g := { g with replay := [] }
        match g.part with
        | some e =>
          match g.checkWord e.bits.toNat 32 with
          | .ok (i, r, _) => .run i (s.resumeIssue key g e r false)
          | .error c => .done (s.refuse key e.pc e.bits.toNat 32 (g.runAt e.pc) c false)
        | none =>
          let held (p : DWord) : Bool := s.atConvergence g t.asid p.toNat
          let pick : Option (DWord × Nat) :=
            match g.forced.bind fun l => (g.pcs.getD l none).map fun p => (p, l) with
            | some (p, l) => if g.heldAt held p then g.choose g.agingDue held else some (p, l)
            | none => g.choose g.agingDue held
          match pick with
          | some (pc, ptr) => s.fetchTurn key g t pc ptr
          | none =>
            match minPc g.livePcs with
            | none => .done s
            | some p => .done (s.trapAt key { barrierCause 0 0 0 0 0 0 8 0 with td0 := 0, td2 := p.setWidth 32 } false)

end Sys2Proof.Machine
end

