-- ==== Sys2Proof/Machine/Inbox.lean ====
section
/-! DEFINITION. Inbox: sending remote register stores, and arming, waiting on and reading the inbox counters (R272 to R279). -/
namespace Sys2Proof.Machine

/-- RSTR (R275): all 32 lanes of each data register, whatever the run and guard. The die whose
name-service queue takes it joins the touched-dies mask (R22), and where that die is out of service the
request traps DIELOST (R355). -/
def execRstr (cnt1 : BitVec 3) (trapnak : Bool) (od : MemOrd) (o : Ops) (s : State) : Out :=
  let cnt := cnt1.toNat + 1
  let sl := s.iss.slots
  let a := s.uni o.a (sl.map fun t => t.1)
  let c := s.uni o.c (sl.map fun t => t.2.2)
  let bs := (List.range cnt).map fun j => s.grp.read32 (sl.map fun t => t.2.1) o.b o.pb j
  let key := s.iss.key
  .next (s.ifActive fun s =>
    s.consume 2 0 ([a.consumed o.a s.iss.act, c.consumed o.c s.iss.act]
        ++ bs.zipIdx.map fun e => ⟨o.b.code + e.2, e.1.dp, e.1.fp, 0xFFFFFFFF⟩) fun s =>
      if fld c.val.toNat 63 10 ≠ 0 then s.trap (remoteCause 10 0 0 a.val) .fresh
      else if 64 ≤ s.grp.send.pend then s.hold { kind := .resource } s.iss.act 0
      else
        let s := if od.isRel then (s.release key .pod).releaseTo key (.rstr s.grp.gname s.grp.send.next) else s.settleFence key
        let far := if nameDev a.val = s.devNum then s.serviceDie a.val else none
        let s := match far with | some d => s.updGrp fun g => { g with tdmask := g.tdmask ||| BitVec.ofNat 2 (2 ^ d) } | none => s
        let g := s.grp
        match far.filter fun d => !s.dieOk d with
        | some d => s.trap (s.dielost g d) .fresh
        | none =>
        let m : RemoteStore :=
          { gname := a.val, sdev := s.devNum, svd := g.vd, sender := g.gname, seq := g.send.next, first := c.val.toNat,
            regs := bs.map fun b => b.lo.words, trapnak := trapnak, die := dieOf g.core, inc := s.incOf (dieOf g.core),
            work := some (recBundle s.team.record) }
        let s := { s with flight := s.flight ++ [m] }
        (s.updGrp fun g => { g with sent := g.sent ++ [(m.seq, a.val, trapnak)], send := { g.send with pend := g.send.pend + 1, next := (g.send.next + 1) % 2 ^ 20 } }).finish)

/-- Registers of two windows meet. -/
def windowsMeet (b1 n1 b2 n2 : Nat) : Bool := decide (b1 < b2 + n2) && decide (b2 < b1 + n1)
/-- The cause that refuses IBARM of counter `c`, its checks in order (R273). -/
def State.ibarmRefused (s : State) (c e w : Nat) : Option Pending :=
  let g := s.grp
  let base := fld w 9 0
  let n := fld w 16 10
  let rem (k : Nat) : Option Pending := some (remoteCause k 0 c g.gname)
  if (g.inbox c).armed then rem 6
  else if e % 128 ≠ 0 ∨ e < 128 ∨ 2 ^ 24 < e then rem 7
  else if n = 0 ∨ 64 < n ∨ fld w 63 17 ≠ 0 ∨ g.ngen + g.ncmp < base + n then rem 8
  else if g.ibc.any fun x => x.1 != c && x.2.armed && windowsMeet base n x.2.wbase x.2.wcnt then rem 9
  else if g.ngen < base + n then some (shapeCause (max base g.ngen) false true s.iss.act)
  else none
/-- IBARM (R273, R274): the window keeps its values and takes the general shape. -/
def execIbarm (ctr : BitVec 2) (o : Ops) (s : State) : Out :=
  let a := s.uniA o
  let b := s.uniB o
  let c := ctr.toNat
  .next (s.ifActive fun s =>
    s.consume 0 0 [a.consumed o.a s.iss.act, b.consumed o.b s.iss.act] fun s =>
      let e := a.val.toNat
      let w := b.val.toNat
      match s.ibarmRefused c e w with
      | some p => s.trap p .fresh
      | none =>
        ((s.uncarry (· == .inbox s.iss.key c)).updGrp fun g =>
          let gen (g : Group) (k : Nat) : Group := let r := g.vreg k; { g with v := mset g.v k { r with val := .general r.val.words } }
          let g := (List.range (fld w 16 10)).foldl (fun g i => gen g (fld w 9 0 + i)) g
          { g with ibc := mset g.ibc c { rem := e, armed := true, canc := false, done := false, wbase := fld w 9 0, wcnt := fld w 16 10 } }).finish)
/-- IBARM.dis (R273, R274). -/
def execIbarmDis (ctr : BitVec 2) (_o : Ops) (s : State) : Out :=
  let c := ctr.toNat
  .next (s.ifActive fun s =>
    (s.updGrp fun g =>
      let x := g.inbox c
      if x.armed then { g with ibc := mset g.ibc c { x with armed := false, rem := 0, canc := true } } else g).finish)
/-- The status of a counter that is not armed (R278). -/
def Inbox.status (x : Inbox) : DWord := if x.done then 0 else if x.canc then 2 else 3
/-- IBWAIT (R278): status 0 is the acquire of R243, at .pod. -/
def execIbwait (ctr : BitVec 2) (o : Ops) (s : State) : Out :=
  let a := s.uniA o
  let c := ctr.toNat
  .next (s.ifActive fun s =>
    let x := s.grp.inbox c
    if !x.armed then
      let s := if x.done then s.acquire s.grp.core .pod else s
      s.putS o.d x.status a.tag
    else if s.timedOut .inbox then s.putS o.d 1 a.tag
    else s.waitFor .inbox c (fld a.val.toNat 31 0))
/-- IBSTAT.send (R277). -/
def execIbstatSend (clr : Bool) (o : Ops) (s : State) : Out :=
  .next (s.ifActive fun s =>
    let w := s.grp.send.word
    (if clr then s.updGrp fun g => { g with send := { g.send with naks := 0, lreason := 0, lseq := 0 } } else s).putS o.d w .clean)
/-- IBSTAT.ibox (R277). -/
def execIbstatIbox (ctr : BitVec 2) (o : Ops) (s : State) : Out :=
  .next (s.ifActive fun s => s.putS o.d (s.grp.inbox ctr.toNat).word .clean)

end Sys2Proof.Machine
end

