-- ==== Sys2Proof/Machine/Remote.lean ====
section
/-! DEFINITION. Remote: remote stores as the receiving device delivers them, their outcomes, and the accesses of other devices to memory homed here (R54, R55, R243, R274, R276, R396 to R403). -/
namespace Sys2Proof

/-- Bytes of a remote access: of TAGRD and TAGWR, the whole sector. -/
def RemoteReq.span (r : RemoteReq) : Nat × Nat :=
  match r.op with
  | .read n => (r.addr, n)
  | .write bs _ => (r.addr, bs.length)
  | .rmw ty _ _ => (r.addr, ty.width / 8)
  | .cas ty _ _ => (r.addr, ty.width / 8)
  | .tagRead => (r.addr / 256 * 256, 256)
  | .tagWrite _ => (r.addr / 256 * 256, 256)
def RemoteReq.writes (r : RemoteReq) : Bool :=
  match r.op with
  | .read _ | .tagRead => false
  | .write .. | .rmw .. | .cas .. | .tagWrite _ => true

end Sys2Proof

namespace Sys2Proof.Machine

/-! ## The inbox (R274) -/

/-- The armed counter whose window takes a store. -/
def Group.inboxFor (g : Group) (m : RemoteStore) : Option (Nat × Inbox) :=
  g.ibc.find? fun e => e.2.armed && decide (e.2.wbase ≤ m.first) && decide (m.first + m.regs.length ≤ e.2.wbase + e.2.wcnt)
/-- A store is applied to the group's counters; the reason of its NAK, 0 for an ACK, and whether
a counter reached zero. -/
def Group.applyStore (g : Group) (m : RemoteStore) : Group × Nat × Bool :=
  let n := m.regs.length
  match g.inboxFor m with
  | none => (g, 2, false)
  | some (c, x) =>
    if x.rem < 128 * n then (g, 5, false)
    else
      let g := m.regs.zipIdx.foldl (fun g e => g.writeV 0xFFFFFFFF ⟨m.first + e.2, .general ((List.range 32).map fun l => e.1.getD l 0), 0, 0⟩) g
      let rem := x.rem - 128 * n
      ({ g with ibc := mset g.ibc c { x with rem := rem, armed := rem != 0, done := rem == 0 } }, 0, rem == 0)

/-! ## Outcomes (R276) -/

/-- A store meets a resident or saved name (R401): at zero the acquire of R243 is made. A saved
group's image takes the store, and the save is sealed again (R348). -/
def State.landStore (s : State) (m : RemoteStore) : State :=
  match s.named m.gname with
  | none => s.answerStore m 1
  | some (k, g) =>
    let (g', r, zero) := g.applyStore m
    let s := (s.setGroup k g').reseal k
    let s : State := match g.inboxFor m with
      | some (c, _) =>
        let s := if r = 0 then s.carry (· == Carrier.rstr m.sender m.seq) (Carrier.inbox k c) else s
        if zero then s.acquireFrom k (· == Carrier.inbox k c) else s
      | none => s
    let s := if zero && (mget {} s.teams g.tid).saved.isNone then s.acquire g.core .pod else s
    s.answerStore m r

/-! ## Delivery (R399 to R403) -/

/-- Whether a VD admits a sender (R403). -/
def State.peerOk (s : State) (vd : Nat) (m : RemoteStore) : Bool :=
  (m.sdev == s.devNum && m.svd == vd) ||
    ((s.vd vd).peers.any fun e =>
      let x := e.2.toNat
      decide (e.1 < 16) && bit x 0 && fld x 21 12 == m.svd && (bit x 1 || fld x 11 2 == m.sdev))
/-- The NAK that refuses a store, by the steps of R400. -/
def State.storeRefused (s : State) (m : RemoteStore) : Option Nat :=
  let vd := nameVd m.gname
  let v := s.vd vd
  let i := v.inc.toNat
  let inc := nameInc m.gname
  if v.st = .free || (inc != i && inc != (i + 15) % 16) || (!s.serialsWrapped && decide (s.nextSerial.toNat ≤ nameSerial m.gname)) then some 4
  else if inc != i || (s.nameState m.gname).isNone then some 1
  else if !s.peerOk vd m then some 3
  else none
/-- Whether the die that issued a store has been reset since (R392). -/
def State.storeStale (s : State) (m : RemoteStore) : Bool := m.sdev == s.devNum && m.inc != s.incOf m.die
/-- The sender's mask holds the die whose name-service queue takes its store, in its image where it
is saved (R22, R348). -/
def State.touchDie (s : State) (m : RemoteStore) : State :=
  match (if m.sdev = s.devNum then s.serviceDie m.gname else none), s.named m.sender with
  | some d, some (k, _) => (s.updGroup k fun g => { g with tdmask := g.tdmask ||| BitVec.ofNat 2 (2 ^ d) }).reseal k
  | _, _ => s
/-- The store is delivered, held (256 in a die's queue), or, where the queue is full, waits at
the port: then `none`. A stale one is discarded and counted (R392). -/
def State.deliverStore (s : State) (m : RemoteStore) : Option State :=
  if s.storeStale m then some (s.countStale (some m.svd)) else
  let s := s.touchDie m
  match s.storeRefused m with
  | some r => some (s.answerStore m r)
  | none =>
    if s.nameState m.gname = some .transit then
      let die := s.placementDie m.gname
      if 256 ≤ (s.transit.filter fun x => s.placementDie x.gname == die).length then none
      else some { s with transit := s.transit ++ [m] }
    else some (s.landStore m)
/-- The stores that the ports hold are delivered, in order, as far as the queues have room: a store
behind another of its port waits with it (R401). -/
def State.drainPorts (s : State) : State :=
  s.ports.foldl (fun (s : State) m =>
    if s.ports.any fun x => x.sdev == m.sdev then { s with ports := s.ports ++ [m] }
    else match s.deliverStore m with | some s' => s' | none => { s with ports := s.ports ++ [m] }) { s with ports := [] }
/-- REMOTE_STORE_ARRIVAL: a store of another device, which a port may have to hold, or the oldest
of this device's own to itself. -/
def execRemoteStoreArrival (m : RemoteStore) (s : State) : Out :=
  .next (
    if nameDev m.gname ≠ s.devNum then s
    else if m.sdev ≠ s.devNum then
      let s := s.drainPorts
      let held : State := { s with ports := s.ports ++ [m] }
      if s.ports.any fun x => x.sdev == m.sdev then held else (s.deliverStore m).getD held
    else
      match s.flight.find? fun x => nameDev x.gname == s.devNum with
      | some x => if x = m then (({ s with flight := s.flight.erase x } : State).deliverStore m).getD s else s
      | none => s)
/-- The stores held for a name are applied in arrival order, at the end of its placement (R401). -/
def State.applyHeld (s : State) (gname : DWord) : State :=
  let ms := s.transit.filter fun m => m.gname == gname
  (ms.foldl (fun (s : State) m => if s.storeStale m then s.countStale (some m.svd) else s.landStore m)
    { s with transit := s.transit.filter fun m => m.gname != gname }).drainPorts
/-- An outcome reaches its sender, in its image where it is saved (R276). -/
def State.outcomeArrives (s : State) (o : RstrOutcome) : State :=
  match s.named o.sender with
  | none => s
  | some (k, g) =>
    let sent := g.sent.find? fun e => e.1 == o.seq
    let send := { g.send with pend := g.send.pend - 1 }
    let g := { g with sent := g.sent.filter fun e => e.1 != o.seq }
    let s : State :=
      if o.reason = 0 then s.setGroup k { g with send := send }
      else
        let send := { send with naks := satCount 20 (send.naks + 1), lreason := o.reason, lseq := o.seq }
        let naks := match sent with
          | some (_, dst, true) => g.naks ++ [remoteCause o.reason o.seq 0 dst]
          | _ => g.naks
        s.setGroup k { g with send := send, naks := naks }
    (s.reseal k).checkQuiet g.tid
/-- An outcome arrives, unless its request's die has been reset: then it is discarded and counted (R392). -/
def State.outcomeUnlessStale (s : State) (o : RstrOutcome) (die : Nat) (inc : BitVec 16) : State :=
  if inc != s.incOf die then s.countStale (some (nameVd o.sender)) else s.outcomeArrives o
/-- RSTR_OUTCOME: from this device's own name service, or over the fabric for a store sent to another device. -/
def execRstrOutcome (o : RstrOutcome) (s : State) : Out :=
  .next (
    if s.outcomes.contains o then ({ s with outcomes := s.outcomes.erase o } : State).outcomeUnlessStale o o.die o.inc
    else
      match s.flight.find? fun m => m.sender == o.sender && m.seq == o.seq && nameDev m.gname != s.devNum with
      | some m => ({ s with flight := s.flight.erase m } : State).outcomeUnlessStale o m.die m.inc
      | none => s)

/-! ## Memory homed here (R398) -/

/-- An admitted RMW: dropped where the sector is poisoned (R263). -/
def State.homeRmw (s : State) (l : Loc) (n : Nat) (f : Nat → Option Nat) : State × List Byte × Bool :=
  let old := s.hbmNat l.addr n
  if (sectorsOf l.addr n).any s.mem.cisternPoison then (s.bumpFree, leBytes n (s.free 0).toNat, true)
  else match f old with
    | some x => (s.cisternPut (QStore.plain l 0 (leBytes n x) false), leBytes n old, false)
    | none => (s, leBytes n old, false)
/-- REMOTE_ACCESS: what the home does with another device's access, and its answer. -/
def execRemoteAccess (r : RemoteReq) (s : State) : Out :=
  let (lo, n) := r.span
  let l : Loc := { space := .hbm, addr := r.addr }
  let poison (s : State) : Bool := (sectorsOf lo n).any s.mem.cisternPoison
  let answer (s : State) (ok : Bool) (bs : List Byte) (p : Bool) : State := { s with msgs := s.msgs ++ [OutMsg.answer r.sdev r.svd ok bs p] }
  let admitted := decide (lo + n ≤ Config.hbmBytes) && (s.grants.any fun e => e.2.covers r.sdev r.svd lo n r.writes)
  let secs := sectorsOf lo n
  let read := match r.op with
    | .tagRead | .tagWrite _ => []
    | .write bs bad => if bad then secs else secs.filter fun c => !(wholeSectors (bytesAt r.addr bs)).contains c
    | _ => secs
  let s := if admitted then s.meet none read else s
  .next (if !admitted then answer s false [] false
    else match r.op with
      | .read n => answer s true (leBytes n (s.hbmNat r.addr n)) (poison s)
      | .write bs bad => answer (s.cisternPut (QStore.plain l 0 bs bad)) true [] false
      | .rmw ty op v => let (s, bs, p) := s.homeRmw l (ty.width / 8) fun old => some (atomNew ty op old (v.toNat % 2 ^ ty.width)); answer s true bs p
      | .cas ty c x => let (s, bs, p) := s.homeRmw l (ty.width / 8) fun old => if old = c.toNat % 2 ^ ty.width then some (x.toNat % 2 ^ ty.width) else none; answer s true bs p
      | .tagRead => answer s true [BitVec.ofNat 8 (b2n (poison s))] false
      | .tagWrite clr =>
        let c := [sectorOf r.addr]
        answer (s.cisternPut { space := .hbm, dieCoh := false, bytes := [], poison := if clr then [] else c, clear := if clr then c else [], vd := 0 }) true [] false)

end Sys2Proof.Machine
end

