-- ==== Sys2Proof/Machine/Sched.lean ====
section
/-! DEFINITION. Sched: the choice of heads, starting a team's groups, pre-emption with the save, restore, and migration (R37 to R39, R42, R54 to R59, R210, R211, R320, R344 to R354, R375 to R378). -/
namespace Sys2Proof.Machine

/-! ## Heads (R375, R376) -/

/-- What a scheduling decision may place: a saved team, a team of a grid, or a continuation record. -/
inductive Head where
  | saved (tid : Nat)
  | grid (iq idx : Nat)
  | cont (iq seq : Nat)
  deriving DecidableEq, Repr

/-- A list sorted by `f`, stably. -/
def sortBy {α : Type} (f : α → Nat) (l : List α) : List α :=
  l.foldl (fun l x => (l.takeWhile fun y => decide (f y ≤ f x)) ++ x :: (l.dropWhile fun y => decide (f y ≤ f x))) []

/-- Whether a packet's grid still has teams to start in a band. -/
def Packet.waiting (p : Packet) (band : Nat) : Bool :=
  p.phase = .running && p.order.isSome && decide (p.started.length < p.nteam) && p.ent.band == band
/-- The next runnable record of each queue of a VD in a band (R38). Where a queue's packets were
fetched under different BAND values, its grids are in order within each band, and not over the
whole queue; the spec does not say. DESIGN CHOICE. Log entry 35. -/
def State.sources (s : State) (vd band : Nat) : List (Nat × Head) :=
  let v := s.vd vd
  (v.queues.filterMap fun e =>
    (minBy (fun x => x.2.order.getD 0) (e.2.pkts.filter fun x => x.2.waiting band)).map fun x => (e.1, Head.grid e.1 x.1))
  ++ (v.conts.filterMap fun e =>
    if e.2.band = band then
      (minBy (fun x => x.order.getD 0) (e.2.recs.filter fun x => x.order.isSome)).map fun x => (e.1, Head.cont e.1 x.seq)
    else none)
/-- A VD's saved, placeable teams. -/
def State.savedTeams (s : State) (vd : Nat) : List (Nat × Team × SaveInfo) :=
  s.teams.filterMap fun e =>
    match e.2.saved with
    | some v => if e.2.vd = vd && v.target.isNone && !v.unplaceable then some (e.1, e.2, v) else none
    | none => none
/-- The head candidate of a VD in a band (R375, R39). -/
def State.headOf (s : State) (vd band : Nat) : Option Head :=
  let sv := s.savedTeams vd
  match minBy (fun x => x.2.2.order) (sv.filter fun x => x.2.1.band == band) with
  | some x => some (.saved x.1)
  | none =>
    if sv.any fun x => decide (x.2.1.band < band) then none
    else
      let last := mget 4095 (s.vd vd).lastIq band
      (minBy (fun x => (x.1 + 4095 - last) % 4096) (s.sources vd band)).map fun x => x.2
/-- Numbers of the VDs that start records: those that are ACTIVE (R421). -/
def State.activeVds (s : State) : List Nat := (s.vds.filter fun e => e.2.st = .active).map fun e => e.1
def VD.vtOf (v : VD) (band : Nat) : Nat := (mget 0 v.vt band).toNat
/-- A VD that gains a head in a band has its VT raised to the least VT among those that have one (R376). -/
def State.refreshBand (s : State) (band : Nat) : State :=
  let now := s.activeVds.filter fun v => (s.headOf v band).isSome
  let old := now.filter fun v => (s.vd v).hadHead.contains band
  let least := minBy (fun v => (s.vd v).vtOf band) old
  { s with vds := mmap s.vds fun n v =>
      if now.contains n then
        let x := match least with | some m => max (v.vtOf band) ((s.vd m).vtOf band) | none => v.vtOf band
        if v.hadHead.contains band then v else { v with hadHead := sins v.hadHead band, vt := mset v.vt band (BitVec.ofNat 64 x) }
      else { v with hadHead := sdel v.hadHead band } }
/-- Every heads-list is brought up to date. -/
def State.refreshHeads (s : State) : State := (List.range 4).foldl State.refreshBand s
/-- The heads in the order of the scheduler's loop: band, VT, VD number. -/
def State.headList (s : State) : List (Nat × Nat × Head) :=
  (List.range 4).flatMap fun b =>
    (sortBy (fun v => (s.vd v).vtOf b) s.activeVds).filterMap fun v => (s.headOf v b).map fun h => (b, v, h)

/-! ## Fit (R27, R351) -/

/-- The packet of a grid head, and the record of a continuation head. -/
def State.packetAt (s : State) (vd iq idx : Nat) : Packet := mget { bytes := [], phase := .done } (mget {} (s.vd vd).queues iq).pkts idx
def State.recordAt (s : State) (vd iq seq : Nat) : Option CRecord := (mget {} (s.vd vd).conts iq).recs.find? fun r => r.seq == seq
/-- What a head's team needs; a saved team needs room for the groups that have not exited. -/
def State.needOf (s : State) (vd : Nat) : Head → Need
  | .saved tid =>
    let t := mget {} s.teams tid
    { recNeed t.record t.scratch t.tile with members := (recMembers t.record).filter fun m => (mfind s.groups (tid * 4096 + m.grpid)).isSome }
  | .grid iq idx => let p := s.packetAt vd iq idx; recNeed p.tmpl p.scratch p.tile
  | .cont iq seq => match s.recordAt vd iq seq with | some r => recNeed r.record r.scratch r.tile | none => ⟨0, 0, 0, []⟩
/-- A record that would exceed the name table or the VD's stack slots stays runnable (R54, R211).
It holds no cluster meanwhile. DEDUCED. Log entry 23. -/
def State.shortOf (s : State) (vd : Nat) (h : Head) : Bool :=
  match h with
  | .saved _ => false
  | _ =>
    let n := (s.needOf vd h).members.length
    decide (Config.maxNames < s.names.length + n) || decide ((s.vd vd).stkslots < (s.vd vd).stkused.length + n)
/-- Whether a team fits the free capacity of one cluster of the allotment that is not held. -/
def State.fitsNow (s : State) (vd : Nat) (x : Need) (held : List Nat) : Bool :=
  let al := s.allotment vd
  (List.range 16).any fun k => !held.contains k && fitsCluster x (al.filter fun c => clusterOf c == k) s.freeRoom s.reserved
/-- Whether a list strictly rises. -/
def rising : List Nat → Bool
  | a :: b :: l => decide (a < b) && rising (b :: l)
  | _ => true
/-- Whether a placement puts a team where it fits now (R25, R27, R351). -/
def State.placeOk (s : State) (vd : Nat) (x : Need) (p : Placement) (held : List Nat) : Bool :=
  let al := s.allotment vd
  let home (m : Member) : Nat × Nat := p.homes.getD m.grpid (0, 0)
  p.cores.length == x.cores && rising p.cores && (p.cores.all fun c => al.contains c && clusterOf c == clusterOf (p.cores.headD 0)
    && decide ((s.reserved c).1 + x.scratch ≤ coreScratch) && decide ((s.reserved c).2 + x.tile ≤ coreTile))
  && !held.contains (clusterOf (p.cores.headD 0))
  && (x.members.all fun m =>
    let h := home m
    decide (h.1 < p.cores.length) && decide (h.2 < 4) && (match m.fix with | some k => 4 * h.1 + h.2 == k | none => true))
  && (placeAll (x.members.map fun m => (4 * (home m).1 + (home m).2, m))
        (p.cores.flatMap fun c => (List.range 4).map (s.freeRoom c))).isSome
/-- The head that the decision places at `p`: the first in the loop's order that fits, when it is
placed there (R375). -/
def State.decideGo (s : State) (p : Placement) : List (Nat × Nat × Head) → List Nat → Option (Nat × Nat × Head)
  | [], _ => none
  | (b, v, h) :: hs, held =>
    let x := s.needOf v h
    if s.shortOf v h then s.decideGo p hs held
    else if s.placeOk v x p held then some (b, v, h)
    else if s.fitsNow v x held then none
    else s.decideGo p hs (held ++ s.couldHold v x)
def State.decision (s : State) (p : Placement) : Option (Nat × Nat × Head) := s.decideGo p s.headList []
/-- The held heads, with the clusters held for each. -/
def State.heldGo (s : State) : List (Nat × Nat × Head) → List Nat → List (Nat × Nat × Need × List Nat)
  | [], _ => []
  | (b, v, h) :: hs, held =>
    let x := s.needOf v h
    if s.shortOf v h || s.fitsNow v x held then s.heldGo hs held
    else (b, v, x, s.couldHold v x) :: s.heldGo hs (held ++ s.couldHold v x)
def State.heldHeads (s : State) : List (Nat × Nat × Need × List Nat) := s.heldGo s.headList []
/-- Saved teams become unplaceable, which is reported, or placeable again (R352). -/
def State.reviewSaved (s : State) : State :=
  (s.teams.filter fun e => e.2.saved.isSome).foldl (fun s e =>
    match e.2.saved with
    | some v =>
      let lost := (s.couldHold e.2.vd (s.needOf e.2.vd (.saved e.1))).isEmpty
      let s := s.updTeam e.1 fun t => { t with saved := some { v with unplaceable := lost } }
      if lost && !v.unplaceable then s.postIrq e.2.vd 5 else s
    | none => s) s

/-! ## Starting a team (R28, R37, R54, R59, R211) -/

/-- The first serial from `x` on that no live name holds. -/
def freshSerial (held : List Nat) : Nat → BitVec 40 → BitVec 40
  | 0, x => x
  | n + 1, x => if held.contains x.toNat then freshSerial held n (x + 1) else x
/-- `n` serials for a team's names. -/
def freshSerials (held : List Nat) : Nat → BitVec 40 → List (BitVec 40)
  | 0, _ => []
  | n + 1, x => let y := freshSerial held (held.length + 1) x; y :: freshSerials held n (y + 1)
/-- A gname (R54). -/
def gnameOf (dev vd : Nat) (inc : BitVec 4) (serial : BitVec 40) : DWord :=
  BitVec.ofNat 64 (serial.toNat + inc.toNat * 2 ^ 40 + vd * 2 ^ 44 + dev * 2 ^ 54)
/-- The first `n` free stack slots of a VD. Which slots are taken is a DESIGN CHOICE. Log entry 23. -/
def VD.freeSlots (v : VD) (n : Nat) : List Nat := ((List.range v.stkslots).filter fun k => !v.stkused.contains k).take n
/-- The bytes of a stack slot of a VD in its pool (R211). -/
def VD.slotRange (v : VD) (k : Nat) : Nat × Nat := (v.stkpool + k * 32 * v.stksz, v.stkpool + (k + 1) * 32 * v.stksz)
/-- Whether a sector belongs to a stack slot. -/
def VD.slotHas (v : VD) (k sec : Nat) : Bool := decide ((v.slotRange k).1 ≤ sec * 256) && decide (sec * 256 < (v.slotRange k).2)
/-- The dirty stack sectors of a slot are written back to the cistern, and no copy of them stays (R211). -/
def State.stackBack (s : State) (vd slot : Nat) : State :=
  let v := s.vd vd
  (s.l2Evict fun c => v.slotHas slot c.sector).setMem fun m => { m with l1 := m.l1.filter fun c => !v.slotHas slot c.sector }
/-- What a record's team is started from: its record, address space, reservations, liveness table,
code size, teamid, and whether it is a team of a grid. -/
structure Launch where
  record : BitVec 512
  asid : Nat
  scratch : Nat
  tile : Nat
  live : DWord
  codeSize : Nat
  teamid : Word
  grid : Bool
  iq : Nat
  deriving DecidableEq, Repr
/-- The s registers at the start of a group or a stream: s1 holds FRAME (R59, R133). -/
def startS (r : BitVec 512) : AMap SReg := [(1, ⟨BitVec.ofNat 64 (recFld r 127 64), .clean⟩)]
/-- A member as its group starts. -/
def startGroup (x : Launch) (vd tid : Nat) (p : Placement) (m : Member) (name : DWord) (slot : Nat) : Group :=
  let h := p.homes.getD m.grpid (0, 0)
  let core := p.cores.getD h.1 0
  { role := m.role, tid := tid, grpid := m.grpid, gname := name, vd := vd, ngen := m.n, ncmp := m.m, core := core, tcore := h.1, quad := h.2,
    s := startS x.record, pcs := List.replicate 32 (some (BitVec.ofNat 64 (recCode x.record + 32 * recEntry x.record (m.role.code)))),
    tdmask := BitVec.ofNat 2 (2 ^ dieOf core), slot := slot, stackEpoch := tid * 4096 + m.grpid + 1 }
/-- The team becomes resident: its groups start at their entry points, with names and stack
slots; its start is an acquire at .dev in every group (R37). -/
def State.startTeam (s : State) (vd band : Nat) (x : Launch) (p : Placement) : State :=
  let v := s.vd vd
  let tid := s.nextTid
  let ms := recMembers x.record
  let serials := freshSerials (s.names.map fun n => nameSerial n.1) ms.length s.nextSerial
  let names := serials.map (gnameOf s.devNum vd v.inc)
  let slots := v.freeSlots ms.length
  let r := x.record
  let pc : DWord := BitVec.ofNat 64 (recCode r + 32 * recFld r 191 165)
  let t : Team :=
    { vd := vd, vdInc := v.inc, asid := x.asid, band := band, iq := x.iq, grid := x.grid, teamid := x.teamid, record := r, cores := p.cores,
      scratch := x.scratch, tile := x.tile, live := x.live, codeSize := x.codeSize, startNs := s.ctime, restartPc := pc, restartS := startS r }
  let stream : Group := { role := .stream, tid := tid, grpid := 4095, vd := vd, core := p.cores.headD 0, s := startS r, pcs := [some pc] }
  let gs := (ms.zip (names.zip slots)).map fun e => (tid * 4096 + e.1.grpid, startGroup x vd tid p e.1 e.2.1 e.2.2)
  let groups := gs.foldl (fun m e => mset m e.1 e.2) s.groups
  let s := { s with
    teams := mset s.teams tid t
    groups := if recMstream r then mset groups (tid * 4096 + 4095) stream else groups
    names := s.names ++ names.map fun n => (n, NameState.resident)
    nextSerial := (serials.getLast?.map fun y => y + 1).getD s.nextSerial
    serialsWrapped := s.serialsWrapped || (match serials.getLast? with | some y => decide ((y + 1).toNat ≤ s.nextSerial.toNat) | none => false)
    nextTid := tid + 1 }
  let s := s.updVd vd fun v => { v with stkused := slots.foldl sins v.stkused, lastIq := mset v.lastIq band x.iq }
  let s := s.setMem fun m => { m with
    hbm := slots.foldl (fun h k => Mem.erase h (v.slotRange k).1 (v.slotRange k).2) m.hbm
    l1 := m.l1.filter fun c => !(slots.any fun k => v.slotHas k c.sector)
    l2 := m.l2.filter fun c => !(slots.any fun k => v.slotHas k c.sector) }
  p.cores.foldl State.l1Drop s
/-- The launch of a head record; none where `p` names no team of the grid that has yet to start. -/
def State.launchOf (s : State) (vd : Nat) (h : Head) (p : Placement) : Option Launch :=
  match h with
  | .saved _ => none
  | .grid iq idx =>
    let k := s.packetAt vd iq idx
    if k.nteam ≤ p.teamid || k.started.contains p.teamid then none
    else some ⟨k.tmpl, k.ent.asid, k.scratch, k.tile, k.live, k.codeSize, BitVec.ofNat 32 p.teamid, true, iq⟩
  | .cont iq seq =>
    (s.recordAt vd iq seq).map fun r =>
      let own := match s.bundlePacket (recBundle r.record) with
        | some (_, _, k) => if recCode k.tmpl = recCode r.record then some (k.live, k.codeSize) else none
        | none => none
      ⟨r.record, r.asid, r.scratch, r.tile, (own.map fun o => o.1).getD 0, (own.map fun o => o.2).getD 0, 0xFFFFFFFF, false, iq⟩
/-- The record leaves its queue. -/
def State.takeRecord (s : State) (vd : Nat) (h : Head) (teamid : Nat) : State :=
  s.updVd vd fun v =>
    match h with
    | .saved _ => v
    | .grid iq idx =>
      let q : PQueue := mget {} v.queues iq
      let k := mget { bytes := [], phase := .done } q.pkts idx
      { v with queues := mset v.queues iq { q with pkts := mset q.pkts idx { k with started := k.started ++ [teamid] } } }
    | .cont iq seq =>
      let c : CQueue := mget {} v.conts iq
      { v with conts := mset v.conts iq { c with recs := c.recs.filter fun r => r.seq != seq } }

/-! ## Restore (R351 to R353) -/

/-- Every group of a team on the cores: its name takes a state. -/
def State.nameTeam (s : State) (tid : Nat) (x : NameState) : State :=
  (s.groups.filter fun e => e.2.tid == tid && e.2.role != .stream).foldl (fun s e => s.setName e.2.gname x) s
/-- Held stores whose names have died are NAKed with reason 1, and the ports use the room (R401, R402). -/
def State.nakDead (s : State) : State := (s.nakHeld fun n => (s.nameState n).isNone).drainPorts
/-- A team ends with cause group KILL: every name dies, and held stores with it (R342). -/
def State.killTeam (s : State) (tid reason : Nat) : State :=
  let t := mget {} s.teams tid
  match (s.keysOf tid).head? with
  | none => (s.dropTeamReqs t.vd tid).dropTeam tid
  | some k => (s.endTeam k { cause := 17, td0 := BitVec.ofNat 32 reason, td1 := t.vdInc.setWidth 32, td2 := 0 } 0).nakDead
/-- The read of a team's save finds the damage there (R384). -/
def State.meetSave (s : State) (tid : Nat) : State :=
  let t := mget {} s.teams tid
  match t.saved with
  | some v => s.meet (some t.vd) (sectorsOf v.addr (s.saveBytes tid).length)
  | none => s
/-- A restore begins: a save that is refused ends the team; otherwise its names are In transit to
the placement. -/
def State.beginRestore (s : State) (tid : Nat) (p : Placement) : State :=
  let s := s.meetSave tid
  if !s.sealHolds tid then s.killTeam tid 1
  else
    let s := s.nameTeam tid .transit
    let s := s.updTeam tid fun t => { t with cores := p.cores, saved := t.saved.map fun v => { v with target := some p } }
    { s with groups := mmap s.groups fun _ g =>
        if g.tid = tid then
          let h := if g.role = .stream then (0, 0) else p.homes.getD g.grpid (0, 0)
          { g with core := p.cores.getD h.1 0, tcore := h.1, quad := h.2 }
        else g }
/-- A group as it runs on: timeouts count again from what was left, a held fault is translated
again, and its die joins the touched-dies mask (R53, R353). -/
def Group.resumed (g : Group) (clk : Nat) : Group :=
  let w := { g.wait with due := g.wait.due.map fun d => clk + d }
  { g with wait := if w.kind = .held then {} else w, kept := [], tdmask := g.tdmask ||| BitVec.ofNat 2 (2 ^ dieOf g.core) }
/-- A restore completes: stack sectors are written back, held stores are applied, then the names
are Resident; the team's room in the save pool returns (R211, R353, R401, R419). -/
def State.endRestore (s : State) (tid : Nat) : State :=
  let gs := s.groups.filter fun e => e.2.tid == tid
  let s := s.updTeam tid fun t => { t with saved := none, startNs := s.ctime }
  let s := gs.foldl (fun s e => (s.faultDiscard e.2.vd fun r => r.origin = .group e.1 && !r.deferred && !r.failed && r.parked.isNone).updGroup e.1 fun g => g.resumed (s.clkOf g.core)) s
  let s := (mget {} s.teams tid).cores.foldl State.l1Drop s
  let s := (gs.filter fun e => e.2.role != .stream).foldl (fun s e => ((s.stackBack e.2.vd e.2.slot).setName e.2.gname .resident).applyHeld e.2.gname) s
  s.checkTeam tid

/-- TEAM_START: a scheduling decision places its head at `p`: a record's team starts, or a saved
team's restore begins (R375). -/
def execTeamStart (p : Placement) (s : State) : Out :=
  let s := s.reviewSaved.refreshHeads
  .next (match s.decision p with
    | none => s
    | some (b, v, h) =>
      match h with
      | .saved tid => s.beginRestore tid p
      | h =>
        match s.launchOf v h p with
        | none => s
        | some x => ((s.startTeam v b x p).takeRecord v h p.teamid).refreshHeads)
/-- A migration under way ends where it began: the name is Resident again, and the held stores are applied. -/
def State.stopMove (s : State) (key : Nat) : State :=
  let g := mget {} s.groups key
  if g.moving.isNone then s
  else ((s.updGroup key fun g => { g with moving := none }).setName g.gname .resident).applyHeld g.gname
/-- A restore that has begun is given up: the team waits again, and the held stores reach its images. -/
def State.stopRestore (s : State) (tid : Nat) : State :=
  let s := (s.updTeam tid fun t => { t with saved := t.saved.map fun v => { v with target := none } }).nameTeam tid .saved
  (s.groups.filter fun e => e.2.tid == tid && e.2.role != .stream).foldl (fun s e => s.applyHeld e.2.gname) s
/-- What is on its way to a core that leaves service goes no further (R389). -/
def State.stopMoves (s : State) (core : Nat) : State :=
  let s := (s.groups.filter fun e => match e.2.moving with | some m => m.1 == core | none => false).foldl (fun s e => s.stopMove e.1) s
  (s.teams.filter fun e => match e.2.saved.bind SaveInfo.target with | some p => p.cores.contains core | none => false).foldl (fun s e => s.stopRestore e.1) s
/-- TEAM_RESTORE: the restore of a saved team that a decision chooses begins, or one that has
begun completes (R353). -/
def execTeamRestore (team : Nat) (p : Placement) (s : State) : Out :=
  .next (match (mget {} s.teams team).saved with
    | none => s
    | some v =>
      match v.target with
      | some q => if q ≠ p then s else if p.cores.all s.inService then s.endRestore team else s.stopRestore team
      | none =>
        let s := s.reviewSaved.refreshHeads
        match s.decision p with
        | some (_, _, .saved tid) => if tid = team then s.beginRestore tid p else s
        | _ => s)

/-! ## What a save keeps (R349, R350) -/

/-- `n` bytes at a VA of an address space as a unit of a die reads them; none where the read
leaves the global window, faults or meets poison. -/
def State.peekVa (s : State) (die vd asid a n : Nat) : Option (List Byte) :=
  if 2 ^ 56 < a + n then none
  else (pieces a n).foldl (fun r p =>
    match r, translate s die none vd asid p.1 0 with
    | some bs, .ok (e, _) =>
      let l := e.loc p.1
      if s.engineBad die l l.addr p.2 || !s.admits vd l (l.addr, p.2) false then none
      else some (bs ++ (List.range p.2).map fun i => s.engineByte die l (l.addr + i))
    | _, _ => none) (some [])
/-- The registers live at one PC: none stands for all of them. -/
def State.liveAt (s : State) (g : Group) (t : Team) (bmb : Nat) (es : List (Nat × Nat)) (pc : DWord) : Option (Nat → Bool) :=
  let code := recCode t.record
  let o := pc.toNat - code
  if pc.toNat < code ∨ t.codeSize ≤ o then none
  else match (es.filter fun e => e.1 ≤ o).getLast? with
    | none => none
    | some e => (s.peekVa (dieOf g.core) t.vd t.asid (t.live.toNat + e.2) bmb).map fun bm => fun r =>
        decide (8 * bmb ≤ r) || bit (bm.getD (r / 8) 0).toNat (r % 8)
/-- The liveness sets of a group's PCs; none where every register is live. -/
def State.liveSets (s : State) (g : Group) (t : Team) : Option (List (Nat → Bool)) :=
  if g.inhdl || t.live = 0 then none
  else
    let die := dieOf g.core
    match s.peekVa die t.vd t.asid t.live.toNat 8 with
    | none => none
    | some hd =>
      let n := leNat (hd.take 4)
      let bmb := leNat ((hd.drop 4).take 2)
      match s.peekVa die t.vd t.asid (t.live.toNat + 8) (8 * n) with
      | none => none
      | some bs =>
        let es := (List.range n).map fun i => (leNat ((bs.drop (8 * i)).take 4), leNat ((bs.drop (8 * i + 4)).take 4))
        g.livePcs.mapM (s.liveAt g t bmb es)
/-- The destination registers of a stopped or replayed instruction. -/
def Group.destRegs (g : Group) (e : Entry) : List Nat :=
  match g.checkWord e.bits.toNat 32 with
  | .ok (_, .ops _ o _ u _ _, _) => (match o.d with | .v k => if u.d.used then (List.range u.d.n).map fun i => k.val + i else [] | _ => [])
  | _ => []
/-- The registers a save keeps (R347, R350). -/
def State.keptRegs (s : State) (g : Group) (t : Team) : List Nat :=
  let all := List.range (g.ngen + g.ncmp)
  match s.liveSets g t with
  | none => all
  | some sets =>
    let dst := (g.part.toList ++ g.replay).flatMap g.destRegs
    all.filter fun r => (sets.any fun f => f r) || dst.contains r || (g.regions.any fun q => q.keepsV r)
      || (g.ibc.any fun e => e.2.armed && decide (e.2.wbase ≤ r) && decide (r < e.2.wbase + e.2.wcnt))

/-! ## Pre-emption (R344) -/

/-- Copies still in flight that touch a team's reservations, or whose barrier object lies in one (R210). -/
def State.copiesTouch (s : State) (tid : Nat) : Bool :=
  s.copies.any fun c => c.key.isSome && c.tid == tid &&
    (c.obj != 0 || windowOf c.src.toNat == .scratch || windowOf c.dst.toNat == .scratch
      || (match c.kind with | .tileIn .. | .tileOut .. => true | .gather table _ _ _ => windowOf table == .scratch | _ => false))
/-- A group as it stops: its instruction at a stop point, or withdrawn where it has none; clocks
left of a timeout in place of its end; the save set, and free values in the registers that are not
saved (R53, R134, R251, R344, R347). UNVERIFIED values. Log entry 5. -/
def Group.stopped (g : Group) (clk : Nat) (kept : List Nat) (free : Nat → DWord) : Group :=
  let left := g.wait.due.map fun d => clocksLeft d clk
  let part := g.stopPart clk
  { g with
    wait := if g.current.isSome && part.isNone then {} else { g.wait with due := left }
    part := if g.part.isSome then part else none
    pi := match part with | some e => e.pi | none => 0
    replay := match g.part, part, g.replay with
      | none, some e, _ :: r => e :: r
      | _, _, r => r
    kept := kept
    v := (List.range (g.ngen + g.ncmp)).map fun k =>
      (k, if kept.contains k then g.vreg k else { val := .uniform ((free (1024 * g.grpid + k)).setWidth 32) }) }
/-- The stream as it stops: what it resumes is its restart point; queued steps that have not
started are discarded (R320). -/
def State.stopTeamStream (s : State) (tid : Nat) : State :=
  let t := mget {} s.teams tid
  (s.updGroup (tid * 4096 + 4095) fun g =>
    { g with s := t.restartS, pcs := [some t.restartPc], wait := {}, part := none, pi := 0, replay := [] }).updTeam tid fun t => { t with queue := [], gone := [] }
/-- Room left in the save pool (R419). -/
def State.saveRoom (s : State) (vd : Nat) : Nat :=
  (s.vd vd).savesize - (s.vd vd).charged - (s.savesOf vd).foldl (fun n e => n + e.2) 0
/-- A team stops: its stores are performed and acknowledged, its stream is at its restart point, and
its groups are as they are saved. -/
def State.stopTeam (s : State) (tid : Nat) : State :=
  let t := mget {} s.teams tid
  let keys := s.keysOf tid
  let s1 := keys.foldl (fun s k => (s.drain k).binFinish k) s
  let s1 := (t.cores.map dieOf).foldl State.flushDie s1
  let s1 := s1.stopTeamStream tid
  ((keys.filter fun k => (mget {} s1.groups k).role != .stream).foldl
    (fun (a : State) k => a.updGroup k fun g => g.stopped (s.clkOf g.core) (s1.keptRegs g t) s1.free) s1).bumpFree

/-- Where the save of a team that has stopped goes; none where the pool has no room for it (R419). -/
def State.saveSpot (s : State) (tid : Nat) : Option Nat :=
  let vd := (mget {} s.teams tid).vd
  let n := (s.saveBytes tid).length
  if n ≤ s.saveRoom vd then s.savePlace vd n else none

/-- A team is pre-empted: it stops, its save is written and its names become Saved. Where copies
touch its reservations nothing happens yet; where the save does not fit, it is not begun (R419). -/
def State.preemptTeam (s : State) (tid : Nat) : State :=
  let t := mget {} s.teams tid
  let s1 := s.stopTeam tid
  if t.saved.isSome || (s.keysOf tid).isEmpty || s.copiesTouch tid || (s.groups.any fun e => e.2.tid == tid && e.2.moving.isSome) then s
  else
    match s1.saveSpot tid with
    | none => (s.errRecord { vd := some t.vd, sev := 1, cause := 20, td0 := 2 }).1
    | some a =>
      let s := s1.updTeam tid fun t => { t with saved := some ⟨s1.nextSave, a, (s1.saveBytes tid).length, true, false, none⟩ }
      ({ s with nextSave := s.nextSave + 1 } : State).writeSave tid |>.nameTeam tid .saved

/-! ## Whom to pre-empt (R377) -/

/-- The device with some teams off their cores, to ask what would fit then. -/
def State.without (s : State) (tids : List Nat) : State :=
  { s with teams := mmap s.teams fun k t => if tids.contains k then { t with saved := some ⟨0, 0, 0, true, true, none⟩ } else t }
/-- Resident teams of a cluster. -/
def State.residents (s : State) (cluster : Nat) : List (Nat × Team) :=
  s.teams.filter fun e => e.2.saved.isNone && clusterOf (e.2.cores.headD 0) == cluster && !(s.keysOf e.1).isEmpty
/-- The teams of a cluster that are pre-empted by urgency for a need of band `b`, in order: the
least urgent band first, then the most recently started (R377). -/
def State.victims (s : State) (vd : Nat) (x : Need) (b cluster : Nat) : Option (List Nat) :=
  let late := (s.residents cluster).foldl (fun n e => max n e.2.startNs) 0
  let vs := (sortBy (fun e => (3 - e.2.band) * (late + 1) + (late - e.2.startNs)) ((s.residents cluster).filter fun e => decide (b < e.2.band))).map fun e => e.1
  let others := (List.range 16).filter fun k => k != cluster
  ((List.range (vs.length + 1)).map fun n => vs.take n).find? fun l => (s.without l).fitsNow vd x others
/-- Cores that pre-empting some teams frees. -/
def State.coresOf (s : State) (tids : List Nat) : Nat := (tids.foldl (fun l k => (mget {} s.teams k).cores.foldl sins l) []).length
/-- The teams to be pre-empted by urgency for one held head. -/
def State.urgent (s : State) (h : Nat × Nat × Need × List Nat) : List Nat :=
  ((minBy s.coresOf (h.2.2.2.filterMap fun k => s.victims h.2.1 h.2.2.1 h.1 k))).getD []
/-- PREEMPT: a team of a paused VD is saved (R422), or one on cores that its VD has lost (R423), or
the next team that urgency gives up (R377). -/
def execPreempt (team : Nat) (s : State) : Out :=
  .next (match mfind s.teams team with
    | none => s
    | some t =>
      if (s.vd t.vd).st = .paused || !(t.cores.all (s.allotment t.vd).contains) then s.preemptTeam team
      else
        let s := s.reviewSaved.refreshHeads
        if s.heldHeads.any fun h => (s.urgent h).head? == some team then s.preemptTeam team else s)
/-- SLICE_EXPIRY: a team that has run its slice makes way, on a cluster held for it, for a head of
the same band whose VD's VT is lower (R377). A VD that the host schedules is left alone (R426). -/
def execSliceExpiry (team : Nat) (s : State) : Out :=
  let s := s.reviewSaved.refreshHeads
  .next (match mfind s.teams team with
    | none => s
    | some t =>
      let spent := match mfind s.slices t.band with | some n => decide (t.startNs + n ≤ s.ctime) | none => false
      let gives (h : Nat × Nat × Need × List Nat) : Bool :=
        h.1 == t.band && decide ((s.vd h.2.1).vtOf t.band < (s.vd t.vd).vtOf t.band) && h.2.2.2.contains (clusterOf (t.cores.headD 0))
      if spent && !(s.vd t.vd).modes.getLsbD 0 && s.heldHeads.any gives then s.preemptTeam team else s)

/-! ## Migration (R55) -/

/-- Whether a group may go to a quadrant of one of its team's cores. -/
def State.mayMove (s : State) (g : Group) (core quad : Nat) : Bool :=
  let t := mget {} s.teams g.tid
  g.role != .matrix && g.role != .stream && t.saved.isNone && t.cores.contains core && s.inService core && decide (quad < 4) && (core, quad) != (g.core, g.quad)
    && ((s.freeRoom core quad).take g.ngen g.ncmp).isSome
/-- MIGRATION: a group's name goes In transit, its stores performed; then it is Resident at its new
quadrant, the held stores applied. It stays on its team's cores, and matrix groups stay in place
(R25, R27). DEDUCED. Log entry 23. Its dirty stack sectors are written back first (R211), and a
timeout runs on by its new core's clock (R379). -/
def execMigration (key core quad : Nat) (s : State) : Out :=
  .next (match mfind s.groups key with
    | none => s
    | some g =>
      match g.moving with
      | some m =>
        if m ≠ (core, quad) then s
        else
          if !s.inService core then s.stopMove key
          else
          let tc := ((mget {} s.teams g.tid).cores.findIdx? fun c => c == core).getD 0
          let s := s.updGroup key fun g =>
            { g with moving := none, core := core, tcore := tc, quad := quad, tdmask := g.tdmask ||| BitVec.ofNat 2 (2 ^ dieOf core),
                     wait := { g.wait with due := g.wait.due.map fun d => d - s.clkOf g.core + s.clkOf core } }
          (((s.stackBack g.vd g.slot).l1Drop core).setName g.gname .resident).applyHeld g.gname
      | none =>
        if !s.mayMove g core quad then s
        else
          let s := ((s.drain key).binFinish key).flushDie (dieOf g.core)
          (s.updGroup key fun g => { g with moving := some (core, quad) }).setName g.gname .transit)

/-! ## Time (R376, R379, R380) -/

/-- VT of each VD and band grows by floor(255 / W) for every core-microsecond that its teams
occupy (R376); W is 16 unless SETCFG has set it. A team whose groups have all ended occupies none, one whose restore has begun those of its placement. -/
def State.chargeVt (s : State) (us : Nat) : State :=
  (s.teams.filter fun e => e.2.seated && s.groups.any fun g => g.2.tid == e.1).foldl (fun s e =>
    let t := e.2
    s.updVd t.vd fun v =>
      { v with vt := mset v.vt t.band (mget 0 v.vt t.band + BitVec.ofNat 64 (us * t.cores.length * (255 / mget 16 v.weights t.band))) }) s
/-- The records of the damage that accesses have found since the last turn: class 10 of R385, with
the physical address of the sector (R384, R393). -/
def State.reportFound (s : State) : State :=
  s.mem.found.foldl (fun s e => (s.errRecord { cls := 10, sev := 1, die := 3, vd := e.2, addr := BitVec.ofNat 64 (256 * e.1) }).1)
    (s.setMem fun m => { m with found := [] })
/-- Time passes, once the records of found damage are written: compute clocks for cyc and waits, but in D3hot, where the cores' clocks are
stopped, and nanoseconds for CTIME (R379, R380). A VD that has gained a head meanwhile has its VT
raised before any VT grows (R376). The communicator timeout of a job does not run
while the job waits for the pager (R302). -/
def State.tick (s : State) (clocks ns : Nat) (skew : List (Nat × Nat) := []) : State :=
  let s := s.reportFound
  let us := (s.ctime + ns) / 1000 - s.ctime / 1000
  let s := if us = 0 then s.refreshHeads else s.refreshHeads.chargeVt us
  let s := { s with
    ctime := s.ctime + ns
    colls := s.colls.map fun (j : CollJob) => if s.jobPaged j.vd (.engine j.id) then { j with startNs := j.startNs + ns } else j }
  if s.d3Paused.isSome then s
  else { s with clk := s.clk + clocks, coreClk := skew.foldl (fun m e => mset m e.1 (mget 0 m e.1 + e.2)) s.coreClk }

end Sys2Proof.Machine
end

