-- ==== Sys2Proof/Machine/Front.lean ====
section
/-! DEFINITION. Front: the front end: kicks, fetching, the checks of packets, their start, jobs, patching, retirement and completion, and the cancelling of a queue (R306, R356 to R374, R433). -/
namespace Sys2Proof.Machine

/-! ## The front end's accesses (R362, R363, R367) -/

/-- How an access of the front end ends. -/
inductive FeRes where
  | ok (ls : List (Loc × Nat))
  | waits
  | refused (x : XFault) (va : Nat)
  deriving DecidableEq, Repr
/-- A range of the global window is translated for queue `iq`; a replayable fault waits for the
pager with SRC 7, and one that the pager fails is reported as non-replayable. -/
def State.feRange (s : State) (vd iq asid va n acc : Nat) : FeRes × State :=
  let o := Origin.frontEnd iq
  if 2 ^ 56 < va + n then (.refused { kind := 1 } va, s.guestFault vd)
  else match s.jobRange o 0 vd asid va n acc with
  | (.ok ls, s) => (.ok ls, s)
  | (.error (.fault x a acc), s) =>
    let mine (r : FaultReq) : Bool := r.origin == o && r.failed && r.va.toNat / 65536 == a / 65536 && r.acc == acc
    if !x.repl then (.refused x a, s.guestFault vd)
    else if (s.vd vd).fault.reqs.any mine then (.refused x a, (s.faultDiscard vd mine).guestFault vd)
    else (.waits, s.jobWaits o vd 7 asid x a acc)
  | (.error _, s) => (.waits, s)
/-- A byte as the I/O die reads it: at the cistern, or at its home. -/
def State.feByte (s : State) (l : Loc) (a : Nat) : Byte :=
  match l.space with | .hbm => s.hbmByte a | .host => s.hostByte a | .remote => s.remoteByte a | _ => 0
/-- Whether bytes that the I/O die reads are poisoned. -/
def State.feBad (s : State) (l : Loc) (n : Nat) : Bool :=
  match l.space with
  | .hbm => (sectorsOf l.addr n).any s.mem.cisternPoison
  | .host => s.hostPoison l.addr n
  | .remote => (sectorsOf l.addr n).any s.mem.remotePoison.contains
  | _ => false
def State.feBytes (s : State) (ls : List (Loc × Nat)) : List Byte :=
  ls.flatMap fun e => (List.range e.2).map fun i => s.feByte e.1 (e.1.addr + i)
/-- A write of the front end, at .sys: the I/O die has no L2, so a copy that a die holds of a
die-coherent sector stands (R218). -/
def State.feWrite (s : State) (vd : Nat) (ls : List (Loc × Nat)) (bs : List Byte) : State :=
  (ls.foldl (fun (r : State × List Byte) e =>
    let l := { e.1 with dieCoh := false }
    let w := QStore.plain l vd (r.2.take e.2) false
    (if e.1.dieCoh then r.1.cisternWrite w else r.1.engineWrite 0 w, r.2.drop e.2)) (s, bs)).1
/-- What a read of `n` bytes gives. -/
inductive FeRead where
  | ok (bs : List Byte)
  | waits
  | refused (x : XFault) (va : Nat)
  deriving DecidableEq, Repr
def State.feRead (s : State) (vd iq asid va n : Nat) : FeRead × State :=
  match s.feRange vd iq asid va n 0 with
  | (.ok ls, s) => (.ok (s.feBytes ls), s)
  | (.waits, s) => (.waits, s)
  | (.refused x a, s) => (.refused x a, s)

/-! ## Queues and their status blocks (R363, R364) -/

def State.queue (s : State) (vd iq : Nat) : PQueue := mget {} (s.vd vd).queues iq
def State.updQueue (s : State) (vd iq : Nat) (f : PQueue → PQueue) : State :=
  s.updVd vd fun v => { v with queues := mset v.queues iq (f (mget {} v.queues iq)) }
def State.updPacket (s : State) (vd iq idx : Nat) (f : Packet → Packet) : State :=
  s.updQueue vd iq fun q => match mfind q.pkts idx with | some p => { q with pkts := mset q.pkts idx (f p) } | none => q
def QState.code : QState → Nat
  | .disabled => 0 | .idle => 1 | .active => 2 | .late => 3 | .halted => 4
/-- The status block (R363). -/
def State.statusBytes (s : State) (q : PQueue) : List Byte :=
  leBytes 8 (q.cons + q.fetch * 2 ^ 32) ++ leBytes 8 (q.nextpseq.toNat + q.lcpseq.toNat * 2 ^ 32)
    ++ leBytes 8 (q.dseq.toNat + q.kseq.toNat * 2 ^ 32) ++ leBytes 8 (q.st.code + q.mreason * 16 + q.late.toNat * 2 ^ 32)
    ++ leBytes 8 (q.kdrop.toNat + q.malcnt.toNat * 2 ^ 32) ++ leBytes 8 s.ctime ++ leBytes 16 0
/-- The detail of a fault in the record that reports it: as an XLATE trap's, with no lane (R336). -/
def xlateInfo (vd : Nat) (x : XFault) (va acc : Nat) : ErrInfo :=
  let c := xlateCause va 0 x.kind acc x.tbl
  { vd := some vd, sev := 1, addr := BitVec.ofNat 64 va, cause := 5, td0 := c.td0, td1 := c.td1, td2 := c.td2 }
/-- A write of the device to a slot or status block met a fault that is not replayable (R363). -/
def State.haltWrite (s : State) (vd iq : Nat) (x : XFault) (va : Nat) : State :=
  let s := s.updQueue vd iq fun q => { q with st := if q.st = .disabled then .disabled else .halted, mreason := 3, statDue := false }
  (s.errRecord (xlateInfo vd x va 1)).1.postIrq vd 6
/-- The status block is written; where that waits for the pager, it is still due. -/
def State.writeStatus (s : State) (vd iq : Nat) : State :=
  let q := s.queue vd iq
  if !q.ent.statCap.admits q.ent.stat 64 1 2 then s.capFault vd
  else match s.feRange vd iq q.ent.asid q.ent.stat 64 1 with
  | (.ok ls, s) => (s.feWrite vd ls (s.statusBytes q)).updQueue vd iq fun q => { q with statDue := false }
  | (.waits, s) => s.updQueue vd iq fun q => { q with statDue := true }
  | (.refused x a, s) => s.haltWrite vd iq x a
/-- A status write that is still due is tried again. -/
def State.flushStatus (s : State) (vd iq : Nat) : State := if (s.queue vd iq).statDue then s.writeStatus vd iq else s

/-! ## Kicks (R356, R357) -/

/-- A dropped kick: counted in the VD, and in the queue where it has a status block. -/
def State.dropKick (s : State) (vd : Nat) (iq : Option Nat) : State :=
  let s := s.updErr (some vd) fun b => { b with kdrops := satInc b.kdrops }
  match iq with
  | some k => (s.updQueue vd k fun q => { q with kdrop := q.kdrop + 1 }).writeStatus vd k
  | none => s
/-- The state of a queue after an accepted kick (R364). -/
def PQueue.kicked (q : PQueue) (prod : Nat) (kseq : Word) : PQueue :=
  let n := (prod + 2 ^ 19 - q.cons) % 2 ^ 19
  let q := { q with kseq := kseq, prod := if (q.prod + 2 ^ 19 - q.cons) % 2 ^ 19 < n then prod else q.prod }
  { q with st := if q.st = .late || (q.st = .idle && q.prod != q.fetch) then .active else q.st }
/-- The origin of the front end's reads of the guest queue table for a kick. -/
def kickOrigin : Origin := .frontEnd 4096
/-- A kick with word `k` to slot `l`; where the queue table must be paged in, it waits (R367). None
is taken while the VD is DRAINING (R425). A word that names another queue is dropped, and counted
by slot L's queue too where that has a status block. -/
def State.kickSlot (s : State) (vd l k : Nat) : State :=
  if (s.vd vd).st = .draining then s.dropKick vd none
  else match s.awaitTable kickOrigin vd l with
  | some s => s.updVd vd fun v => { v with kicks := v.kicks ++ [(l, k)] }
  | none =>
  let s := s.tableDone kickOrigin vd
  match s.queueOf vd l with
  | none => s.dropKick vd none
  | some e =>
    let q := s.queue vd e.iq
    if e.kind || q.st = .disabled then s.dropKick vd none
    else if fld k 12 0 ≠ l then s.dropKick vd (some e.iq)
    else
      let d := (fld k 63 32 + 2 ^ 32 - q.kseq.toNat) % 2 ^ 32
      let n := (fld k 31 13 + 2 ^ 19 - q.cons) % 2 ^ 19
      let s := s.updQueue vd e.iq fun q => { q with ent := e }
      if d = 0 ∨ 2 ^ 31 ≤ d ∨ e.entries < n ∨ n < (q.fetch + 2 ^ 19 - q.cons) % 2 ^ 19 then s.dropKick vd (some e.iq)
      else (s.updQueue vd e.iq fun q => q.kicked (fld k 31 13) (BitVec.ofNat 32 (fld k 63 32))).writeStatus vd e.iq
/-- The kicks that wait for the pager are taken up again, in order. -/
def State.retryKicks (s : State) (vd : Nat) : State :=
  (s.vd vd).kicks.foldl (fun s e => s.kickSlot vd e.1 e.2) (s.updVd vd fun v => { v with kicks := [] })
/-- KICK: a write of `size` bytes at offset `off` of the kick page. -/
def execKick (vd off size : Nat) (word : BitVec 64) (s : State) : Out :=
  .next (if (s.vd vd).st = .free || 65536 ≤ off then s
    else if size ≠ 8 ∨ off % 8 ≠ 0 then s.dropKick vd none
    else (s.retryKicks vd).kickSlot vd (off / 8) word.toNat)

/-! ## The checks of a packet (R361, R365, R367) -/

/-- Bytes [hi:lo] of a packet as a number. -/
def Packet.at (p : Packet) (off n : Nat) : Nat := leNat ((p.bytes.drop off).take n)
def Packet.type (p : Packet) : Nat := fld p.hdr 7 0
def Packet.bar (p : Packet) : Bool := bit p.hdr 8
def Packet.isBundle (p : Packet) : Bool := p.type == 1 || p.type == 6
def Packet.sig (p : Packet) : Nat := p.at 8 8
/-- Whether bytes [lo, hi) are zero. -/
def Packet.zeros (p : Packet) (lo hi : Nat) : Bool := ((p.bytes.drop lo).take (hi - lo)).all fun b => b == 0
/-- A job entry (R365): its 48 bytes. -/
structure JobEnt where
  bytes : List Byte
  deriving DecidableEq, Repr
def JobEnt.at (j : JobEnt) (off n : Nat) : Nat := leNat ((j.bytes.drop off).take n)
def JobEnt.type (j : JobEnt) : Nat := j.at 0 4 % 16
def JobEnt.pre (j : JobEnt) : Bool := bit (j.at 0 4) 4
/-- Reserved bits of the types' bodies; a reserved code is refused with them (R367, reason 1). -/
def Packet.reserved (p : Packet) : Bool :=
  let t := p.type
  decide (7 < t) || fld p.hdr 31 15 != 0 || bit p.hdr 9 != (t == 6) ||
    (match t with
     | 0 => !p.zeros 16 128
     | 1 => fld (p.at 36 4) 31 4 != 0 || !p.zeros 56 128
     | 2 | 3 => !p.zeros 64 128
     | 4 => decide (2 < p.at 24 8) || !p.zeros 32 128
     | 5 => decide (2 < p.at 32 4) || !p.zeros 40 128
     | 6 => fld (p.at 36 4) 31 4 != 0 || fld (p.at 56 4) 31 12 != 0 || !p.zeros 72 128
     | _ => decide (7 < p.at 24 8) || !p.zeros 48 128)
/-- Addresses that a packet names outside the global window (R367, reason 3). -/
def Packet.outside (p : Packet) : Bool :=
  let out (a n : Nat) : Bool := decide (2 ^ 56 < a + n)
  (p.sig != 0 && out p.sig 8) ||
    (match p.type with
     | 1 | 6 => out (p.at 16 8) 96 || (p.at 40 8 != 0 && out (p.at 40 8) 8) || (p.at 36 4 % 16 != 0 && out (p.at 48 8) (48 * (p.at 36 4 % 16)))
                  || (p.type == 6 && p.at 64 8 != 0 && out (p.at 64 8) 4)
     | 5 => out (p.at 16 8) 8
     | 7 => out (p.at 16 8) 4
     | _ => false)
/-- The reasons that need no read, lowest code first but that reason 3 stands for every address. DEDUCED. Log entry 24. -/
def Packet.earlyReason (p : Packet) (prev : Option Packet) (priv : Bool) : Nat :=
  let sc := fld p.hdr 12 10
  if p.reserved then 1
  else if sc < 3 ∨ 5 < sc ∨ p.sig % 8 ≠ 0 ∨ (p.type = 4 ∧ p.sig = 0) then 2
  else if p.outside then 3
  else if p.type = 7 ∧ !priv then 5
  else if p.early ∧ (p.bar ∨ !p.isBundle ∨ !(match prev with | some b => b.isBundle | none => false)) then 6
  else if p.isBundle ∧ (8 < p.at 36 4 % 16 ∨ p.at 48 8 % 16 ≠ 0) then 7
  else 0
/-- Values that COLL refuses at check 5 (R301). -/
def descBad (d : Nat) : Bool :=
  decide (3 < collOp d) || collAlg d == 3 || decide (4 < fld d 9 6) || collRop d == 3 || (decide (2 ≤ collOp d) && collRop d != 0)
    || (collOp d != 3 && collRoot d != 0) || fld d 63 42 != 0
/-- The ranges a job names: source and destination with their bytes. -/
def JobEnt.ranges (j : JobEnt) (c : Comm) : List (Nat × Nat) :=
  let ext := j.at 24 8
  let d := j.at 32 8
  match j.type with
  | 1 => [(j.at 8 8, ext), (j.at 16 8, ext)]
  | 2 => [(j.at 8 8, (fld ext 63 32 - 1) * fld d 31 0 + fld ext 31 0), (j.at 16 8, (fld ext 63 32 - 1) * fld d 63 32 + fld ext 31 0)]
  | _ => [(j.at 8 8, collSrcBytes c d ext), (j.at 16 8, collDstBytes c d ext)]
/-- The reason that refuses a job entry, 0 for none (R365, R367). -/
def State.jobReason (s : State) (vd : Nat) (types : List Nat) (j : JobEnt) : Nat :=
  let d := j.at 32 8
  let ext := j.at 24 8
  let c := mfind (s.vd vd).comms (collComm d)
  if fld (j.at 0 4) 31 5 ≠ 0 ∨ j.at 4 4 ≠ 0 ∨ j.at 40 8 ≠ 0 ∨ (j.type = 1 ∧ d ≠ 0) then 1
  else if !types.contains j.type then 7
  else if (match j.type with
      | 1 => (cpyReason ext).isSome
      | 2 => (cpy2dReason (fld ext 31 0) (fld ext 63 32) (fld d 63 32)).isSome
      | _ => descBad d || (collReason c d ext).isSome) then 7
  else if (j.ranges (c.getD ⟨0, [], 0⟩)).any fun r => r.2 != 0 && decide (2 ^ 56 < r.1 + r.2) then 3
  else 0
/-- The first nonzero reason. -/
def firstReason : List Nat → Nat
  | [] => 0
  | r :: rs => if r = 0 then firstReason rs else r
/-- A packet's job entries, from its body or as read from JOBS. -/
def splitJobs (n : Nat) (bs : List Byte) : List JobEnt := (List.range n).map fun i => ⟨(bs.drop (48 * i)).take 48⟩
/-- The bundle identity (R366). -/
def State.identOf (s : State) (vd iq pseq : Nat) : Nat := pseq + iq * 2 ^ 32 + vd * 2 ^ 44 + (s.vd vd).inc.toNat * 2 ^ 54
/-- The template of a bundle: the descriptor's record with FRAME, JOIN and BUNDLE filled in (R366). -/
def State.template (s : State) (vd iq : Nat) (p : Packet) (desc : List Byte) : BitVec 512 :=
  let r := leNat (desc.take 64)
  BitVec.ofNat 512 (fld r 63 0 + p.at 24 8 * 2 ^ 64 + fld r 191 160 * 2 ^ 160 + s.identOf vd iq p.pseq * 2 ^ 192 + fld r 511 256 * 2 ^ 256)
/-- A packet with its descriptor, or the reason that refuses it. Bytes 88 to 95 of the descriptor,
which R99 reserves and no rule checks, are ignored. DESIGN CHOICE. Log entry 35. -/
def State.withDescriptor (s : State) (vd iq : Nat) (p : Packet) (desc : List Byte) : Packet :=
  let r := s.template vd iq p desc
  let scratch := leNat ((desc.drop 64).take 4)
  let tile := leNat ((desc.drop 68).take 4)
  let n := p.at 32 4
  let bad := !s.recValid vd r scratch tile || decide (coreScratch < scratch) || decide (coreTile < tile)
    || (p.type == 1 && (n == 0 || decide (2 ^ 24 < n)))
  { p with tmpl := r, scratch := scratch, tile := tile, live := BitVec.ofNat 64 (p.at 40 8), codeSize := leNat ((desc.drop 76).take 4),
           nteam := if p.type = 1 then n else 0, mreason := if bad then 4 else 0 }
/-- The job entries of a packet as the front end reads them. -/
def State.readJobs (s : State) (vd iq : Nat) (p : Packet) : FeRead × State :=
  if p.isBundle then
    (if p.at 36 4 % 16 = 0 then (.ok [], s) else s.feRead vd iq p.ent.asid (p.at 48 8) (48 * (p.at 36 4 % 16)))
  else if p.type = 2 ∨ p.type = 3 then (.ok ((p.bytes.drop 16).take 48), s)
  else (.ok [], s)
/-- The checks of R367 on a packet; none where a read waits for the pager. -/
def State.checkPacket (s : State) (vd iq : Nat) (p : Packet) (prev : Option Packet) : Option Packet × State :=
  let r := p.earlyReason prev p.ent.priv
  if r ≠ 0 then (some { p with mreason := r }, s)
  else match s.readJobs vd iq p with
  | (.waits, s) => (none, s)
  | (.refused .., s) => (some { p with mreason := 3 }, s)
  | (.ok bs, s) =>
    let types := if p.type = 2 then [1, 2] else if p.type = 3 then [3] else [1, 2, 3]
    let js := splitJobs (bs.length / 48) bs
    let r := firstReason (js.map (s.jobReason vd types))
    let p := { p with jobs := bs }
    if r ≠ 0 then (some { p with mreason := r }, s)
    else if !p.isBundle then (some p, s)
    else match s.feRead vd iq p.ent.asid (p.at 16 8) 96 with
    | (.waits, s) => (none, s)
    | (.refused .., s) => (some { p with mreason := 3 }, s)
    | (.ok d, s) => (some (s.withDescriptor vd iq p d), s)
/-- A malformed packet completes with STATUS 2 and the queue becomes HALTED (R367). -/
def State.malformed (s : State) (vd iq idx reason : Nat) : State :=
  let s := s.updPacket vd iq idx fun p => { p with phase := .completing, status := 2, mreason := reason }
  (s.updQueue vd iq fun q => { q with mreason := reason, malcnt := q.malcnt + 1, st := if q.st = .disabled then .disabled else .halted }).postIrq vd 6

/-! ## Fetching (R362) -/

/-- The PSEQ after `x`: it never takes 0. -/
def nextPseq (x : Word) : Word := nextSeq x
/-- Packets fetched and not yet Done. -/
def PQueue.inFlight (q : PQueue) : Nat := (q.pkts.filter fun e => e.2.phase != .done).length
/-- Where slot `idx` of a queue lies. -/
def slotVa (e : QEnt) (idx : Nat) : Nat := e.ring + 128 * (idx % e.entries)
/-- The first word of a header with PP clear (R361). -/
def clearPp (hdr : Nat) : Nat := hdr % 2 ^ 32 - b2n (bit hdr 9) * 2 ^ 9
/-- A packet with its patch: LEN, the group count and a cleared PP, in the front end's copy. -/
def Packet.patched (p : Packet) (len gcnt : Nat) : Packet :=
  { p with bytes := leBytes 4 (clearPp p.hdr) ++ (p.bytes.drop 4).take 28 ++ leBytes 4 gcnt ++ (p.bytes.drop 36).take 24 ++ leBytes 4 len ++ p.bytes.drop 64, pp := false,
           nteam := if len = 0 then 0 else gcnt }
/-- The checks of a fetched packet, which may wait for the pager (R367, R368). -/
def State.checkAt (s : State) (vd iq idx : Nat) : State :=
  let prev := mfind (s.queue vd iq).pkts ((idx + 2 ^ 19 - 1) % 2 ^ 19)
  match s.checkPacket vd iq (s.packetAt vd iq idx) prev with
  | (none, s) => s
  | (some p, s) =>
    let p := match p.patch with | some (n, g) => p.patched n g | none => p
    let s := s.updPacket vd iq idx fun _ => { p with checked := true }
    let s := if p.mreason ≠ 0 then s.malformed vd iq idx p.mreason else s
    let s := s.updQueue vd iq fun q => { q with st := if q.st = .active && q.fetch == q.prod then .idle else q.st }
    s.writeStatus vd iq
/-- The packet at FETCH is fetched: FETCH and NEXTPSEQ advance, whatever its checks wait for (R362). -/
def State.fetched (s : State) (vd iq : Nat) (bs : List Byte) : State :=
  let q := s.queue vd iq
  let idx := q.fetch
  let p : Packet :=
    { bytes := bs, phase := .fetched, pp := bit (leNat (bs.take 8)) 9, ent := q.ent, checked := false, skip := decide (0 < q.skipLeft) }
  let s := s.updQueue vd iq fun q =>
    { q with fetch := (idx + 1) % 2 ^ 19, nextpseq := nextPseq q.nextpseq, rereadDue := none, skipLeft := q.skipLeft - 1, pkts := mset q.pkts idx p }
  s.checkAt vd iq idx
/-- The packet of a queue whose checks wait; no later one is fetched before they are over. -/
def State.unchecked (s : State) (vd iq : Nat) : Option Nat := ((s.queue vd iq).pkts.find? fun e => !e.2.checked).map fun e => e.1
/-- The slot at FETCH cannot be read (R362, R364). -/
def State.unreadable (s : State) (vd iq : Nat) : State :=
  ((s.updQueue vd iq fun q => { q with st := .halted, mreason := 3, malcnt := q.malcnt + 1, rereadDue := none }).postIrq vd 6).writeStatus vd iq
/-- Whether a queue may fetch: ACTIVE, not HALTed by its host entry, under the limit of 16. -/
def State.mayFetch (s : State) (vd iq : Nat) : Bool :=
  let q := s.queue vd iq
  q.st == .active && q.prod != q.fetch && decide (q.inFlight < 16) && !(mget 0 (s.vd vd).hqt iq).getLsbD 16
    && ((s.vd vd).st == .active || (s.vd vd).st == .paused)
/-- The slot at FETCH is read; `late` follows where its PSEQ is not the one expected. -/
def State.readSlot (s : State) (vd iq : Nat) (late : State → State) : State :=
  let q := s.queue vd iq
  if !q.ent.ringCap.admits (slotVa q.ent q.fetch) 128 0 1 then s.unreadable vd iq
  else match s.feRead vd iq q.ent.asid (slotVa q.ent q.fetch) 128 with
  | (.waits, s) => s
  | (.refused .., s) => s.unreadable vd iq
  | (.ok bs, s) => if leNat ((bs.drop 4).take 4) = q.nextpseq.toNat then s.fetched vd iq bs else late s
/-- PACKET_FETCH: the front end reads the slot at FETCH; a packet that is not yet visible is read
again until the reread time is over. Kicks and checks that waited for the pager are taken up first. -/
def execPacketFetch (vd iq : Nat) (s : State) : Out :=
  let s := (s.retryKicks vd).flushStatus vd iq
  .next (match s.unchecked vd iq with
    | some idx => s.checkAt vd iq idx
    | none =>
    if !s.mayFetch vd iq then s
    else s.readSlot vd iq fun s => s.updQueue vd iq fun q =>
      { q with rereadDue := match q.rereadDue with | some d => some d | none => some (s.ctime + Config.rereadNs) })
/-- PSEQ_REREAD_EXPIRY: the reread time is over; the slot is read a last time, and where PSEQ still
differs the queue is LATE. -/
def execPseqRereadExpiry (vd iq : Nat) (s : State) : Out :=
  let s := s.flushStatus vd iq
  .next (match (s.queue vd iq).rereadDue with
    | none => s
    | some d =>
      if !s.mayFetch vd iq || (s.unchecked vd iq).isSome || s.ctime < d then s
      else s.readSlot vd iq fun s =>
        ((s.updQueue vd iq fun q => { q with st := .late, late := q.late + 1, rereadDue := none }).postIrq vd 6).writeStatus vd iq)

/-! ## Jobs (R365) -/

/-- The die whose engines perform the jobs of packets. -/
def State.jobDie (s : State) : Nat := if s.dieOk 0 then 0 else 1
/-- A job is handed to its engine. -/
def State.startJob (s : State) (vd iq idx : Nat) (asid : Nat) (pre : Bool) (j : JobEnt) : State :=
  let ext := j.at 24 8
  let d := j.at 32 8
  let src : DWord := BitVec.ofNat 64 (j.at 8 8)
  let dst : DWord := BitVec.ofNat 64 (j.at 16 8)
  let copy (kind : CopyKind) (n opc : Nat) : State :=
    let c : CopyCmd :=
      { id := s.nextId, key := none, job := some (iq, idx, pre), tid := 0, vd := vd, asid := asid, die := s.jobDie, kind := kind, opc := opc,
        src := src, dst := dst, obj := 0, ord := false, region := 0, units := n, left := [(0, n)], moved := 0, stopped := false,
        cancelled := false, scores := [] }
    { s with copies := s.copies ++ [c], nextId := s.nextId + 1 }
  match j.type with
  | 1 => if ext = 0 then s else copy .linear ext 0x180
  | 2 => copy (.strided (fld d 31 0) (fld d 63 32) (fld ext 31 0) (fld ext 63 32)) (fld ext 31 0 * fld ext 63 32) 0x181
  | _ =>
    s.startColl { id := 0, key := none, job := some (iq, idx, pre), vd := vd, asid := asid, die := s.jobDie, desc := BitVec.ofNat 64 d,
                  cnum := collComm d, seq := 0, src := src, dst := dst, count := ext, sig := 0, sys := false, ord := false, region := 0,
                  startNs := 0, cancelled := false }
/-- Jobs of a packet, those with PRE or the others. -/
def State.startJobs (s : State) (vd iq idx : Nat) (pre : Bool) : State :=
  let p := s.packetAt vd iq idx
  let js := splitJobs (p.jobs.length / 48) p.jobs
  (js.filter fun j => (j.pre && p.isBundle) == pre).foldl (fun s j => s.startJob vd iq idx p.ent.asid pre j) s
/-- Whether a job of a packet has yet to retire. -/
def State.jobsLeft (s : State) (vd iq idx : Nat) (f : Bool → Bool) : Bool :=
  let mine (j : Option (Nat × Nat × Bool)) : Bool := match j with | some (a, b, c) => a == iq && b == idx && f c | none => false
  (s.copies.any fun c => c.vd == vd && mine c.job) || (s.colls.any fun c => c.vd == vd && mine c.job)

/-! ## Starting (R369) -/

/-- Teams of a bundle: resident, saved, or ended with engine work left. -/
def State.bundleTeams (s : State) (ident : Nat) : List (Nat × Team) := s.teams.filter fun e => recBundle e.2.record == ident
/-- A team has issued SMSTART once every group that may has issued it or exited (R156). -/
def State.smIssued (s : State) (tid : Nat) : Bool :=
  s.groups.all fun e => e.2.tid != tid || e.2.role == .matrix || e.2.role == .stream || e.2.smstart
/-- Every grid team of a packet has issued SMSTART or exited. -/
def State.gridIssued (s : State) (vd iq : Nat) (p : Packet) : Bool :=
  p.phase == .completing || p.phase == .done ||
    (p.phase == .running && !p.preLeft && p.started.length == p.nteam &&
      (s.bundleTeams (s.identOf vd iq p.pseq)).all fun e => !e.2.grid || s.smIssued e.1)
/-- A queue's packets before `idx` that matter to its start: those that CONS has passed and that are
not Done, whose signal is still to be written, and those from CONS. -/
def PQueue.before (q : PQueue) (idx : Nat) : List Packet :=
  ((q.pkts.filter fun e => e.1 != idx && e.2.recorded && e.2.phase != .done).map fun e => e.2) ++ (List.range ((idx + 2 ^ 19 - q.cons) % 2 ^ 19)).filterMap fun i => mfind q.pkts ((q.cons + i) % 2 ^ 19)
/-- The start conditions of R369. -/
def State.mayStartPacket (s : State) (vd iq idx : Nat) : Bool :=
  let q := s.queue vd iq
  let p := s.packetAt vd iq idx
  let earlier := q.before idx
  p.phase == .fetched && p.checked && (earlier.all fun b => b.phase != .fetched) &&
    (p.skip || (!p.pp && ((!p.bar && p.type != 7) || earlier.all fun b => b.phase == .done) &&
      (!p.early || (match mfind q.pkts ((idx + 2 ^ 19 - 1) % 2 ^ 19) with | some b => s.gridIssued vd iq b | none => true))))
/-- The records of a bundle become runnable as one event, and its other jobs start (R365, R366). -/
def State.releaseGrid (s : State) (vd iq idx : Nat) : State :=
  let s := s.updQueue vd iq fun q =>
    match mfind q.pkts idx with
    | some p => { q with nextOrder := q.nextOrder + 1, pkts := mset q.pkts idx { p with preLeft := false, order := some q.nextOrder } }
    | none => q
  s.startJobs vd iq idx false
/-- A BRANCH marks the packets after it that are skipped (R372). -/
def State.skipNext (s : State) (vd iq idx n : Nat) : State :=
  s.updQueue vd iq fun q =>
    let have' := (q.fetch + 2 ^ 19 - 1 - idx) % 2 ^ 19
    let mark (m : AMap Packet) (i : Nat) : AMap Packet :=
      match mfind m ((idx + 1 + i) % 2 ^ 19) with | some p => mset m ((idx + 1 + i) % 2 ^ 19) { p with skip := true } | none => m
    { q with pkts := (List.range (min n have')).foldl mark q.pkts, skipLeft := max q.skipLeft (n - have') }
def State.setPhase (s : State) (vd iq idx : Nat) (ph : Phase) : State := s.updPacket vd iq idx fun p => { p with phase := ph }
/-- PACKET_START. -/
def execPacketStart (vd iq idx : Nat) (s : State) : Out :=
  .next (if !s.mayStartPacket vd iq idx then s
    else
      let p := s.packetAt vd iq idx
      if p.skip then s.updPacket vd iq idx fun p => { p with phase := .completing, status := 1 }
      else match p.type with
      | 1 | 6 =>
        if p.nteam = 0 then s.setPhase vd iq idx .completing
        else
          let s := (s.setPhase vd iq idx .running).startJobs vd iq idx true
          if (splitJobs (p.jobs.length / 48) p.jobs).any JobEnt.pre then s.updPacket vd iq idx fun p => { p with preLeft := true }
          else s.releaseGrid vd iq idx
      | 2 | 3 => (s.setPhase vd iq idx .running).startJobs vd iq idx false
      | 5 => s.updPacket vd iq idx fun p => { p with phase := .running, startNs := s.ctime }
      | 7 =>
        match s.feRead vd iq p.ent.asid (p.at 16 8) 4 with
        | (.waits, s) => s
        | (.refused .., s) => s.malformed vd iq idx 3
        | (.ok bs, s) =>
          let j := min (leNat bs) (p.at 24 8)
          (s.skipNext vd iq idx (p.at (32 + 2 * j) 2)).setPhase vd iq idx .completing
      | _ => s.setPhase vd iq idx .completing)
/-- PRE_JOBS_DONE: with a failed PRE job no team becomes runnable (R365). -/
def execPreJobsDone (vd iq idx : Nat) (s : State) : Out :=
  let p := s.packetAt vd iq idx
  .next (if p.phase != .running || !p.preLeft || s.jobsLeft vd iq idx id then s
    else if p.status = 0 then s.releaseGrid vd iq idx
    else (s.updPacket vd iq idx fun p => { p with preLeft := false, nteam := 0 }).startJobs vd iq idx false)
/-- WAIT_PACKET_SATISFIED: the word at ADDR meets CMPV. -/
def execWaitPacketSatisfied (vd iq idx : Nat) (s : State) : Out :=
  let p := s.packetAt vd iq idx
  .next (if p.phase != .running || p.type != 5 then s
    else match s.feRead vd iq p.ent.asid (p.at 16 8) 8 with
      | (.waits, s) => s
      | (.refused .., s) => s.malformed vd iq idx 3
      | (.ok bs, s) =>
        let cmp : SigCmp := if p.at 32 4 = 0 then .ge else if p.at 32 4 = 1 then .eq else .ne
        if cmp.holds (BitVec.ofNat 64 (leNat bs)) (BitVec.ofNat 64 (p.at 24 8)) then s.setPhase vd iq idx .completing else s)
/-- WAIT_PACKET_TIMEOUT: STATUS 5. -/
def execWaitPacketTimeout (vd iq idx : Nat) (s : State) : Out :=
  let p := s.packetAt vd iq idx
  .next (if p.phase != .running || p.type != 5 || p.at 36 4 == 0 || decide (s.ctime < p.startNs + 1000 * p.at 36 4) then s
    else s.updPacket vd iq idx fun p => { p with phase := .completing, status := 5 })

/-! ## Retiring and completing (R370, R371, R433) -/

/-- The VD's die-coherent bytes are written back and its die-coherent copies leave both L2s; every
write in flight is performed (R218, R244). -/
def State.writeBackVd (s : State) (vd : Nat) : State :=
  let s := [0, 1].foldl (fun s d => (s.writeBack d vd fun _ => true).flushDie d) s
  s.setMem fun m => { m with l2 := m.l2.filter fun c => !(c.dieCoh && c.vd == vd) }
/-- Whether a record in a continuation queue of a VD carries a bundle identity. -/
def State.bundleRecords (s : State) (vd ident : Nat) : Bool := (s.vd vd).conts.any fun e => e.2.recs.any fun r => recBundle r.record == ident
/-- The retirement conditions of R370. -/
def State.mayRetire (s : State) (vd iq idx : Nat) : Bool :=
  let p := s.packetAt vd iq idx
  let ident := s.identOf vd iq p.pseq
  p.isBundle && p.phase == .running && !p.preLeft && p.started.length == p.nteam && (s.bundleTeams ident).isEmpty
    && !s.bundleRecords vd ident && !s.jobsLeft vd iq idx fun _ => true
/-- BUNDLE_RETIRE: steps 1 and 2 of R371. -/
def execBundleRetire (vd iq idx : Nat) (s : State) : Out :=
  .next (if s.mayRetire vd iq idx then (s.writeBackVd vd).setPhase vd iq idx .completing else s)
/-- The completion record (R371). -/
def State.recordBytes (s : State) (p : Packet) (pfail : Bool) (dseq : Word) : List Byte :=
  leBytes 8 (0xFF + p.status * 2 ^ 8 + b2n pfail * 2 ^ 12 + (if p.status = 2 then p.mreason else 0) * 2 ^ 16 + p.pseq * 2 ^ 32)
    ++ leBytes 8 (dseq.toNat + p.errSeq.toNat * 2 ^ 32) ++ leBytes 8 s.ctime
/-- The new value of a packet's signal word (R365, R371). -/
def Packet.sigValue (p : Packet) (old : Nat) : Nat :=
  if p.type = 4 ∧ p.status = 0 ∧ p.at 24 8 = 1 then p.at 16 8
  else if p.type = 4 ∧ p.status = 0 ∧ p.at 24 8 = 2 then (old + p.at 16 8) % 2 ^ 64
  else
    (fld old 31 0 + 1) % 2 ^ 32 + min (fld old 61 32 + p.poisoned) (2 ^ 30 - 1) * 2 ^ 32
      + b2n (bit old 62 || p.status == 1) * 2 ^ 62 + b2n (bit old 63 || decide (2 ≤ p.status)) * 2 ^ 63
/-- The signal word of a packet is updated, or the failure is recorded (R433). -/
def State.signalPacket (s : State) (vd : Nat) (p : Packet) (sg : FeRes) : State :=
  match sg with
  | .ok ls =>
    let s := ls.foldl (fun s e => s.meetLoc (some vd) none e.1 e.2) (s.flushDie 0)
    if ls.any fun e => s.feBad e.1 e.2 then
      let c := dataPoison 0x3FF 0 4 p.sig
      (s.errRecord { vd := some vd, sev := 1, addr := BitVec.ofNat 64 p.sig, cause := 8, td0 := c.td0, td1 := c.td1, td2 := c.td2 }).1
    else s.feWrite vd ls (leBytes 8 (p.sigValue (leNat (s.feBytes ls))))
  | .refused x a => (s.errRecord (xlateInfo vd x a 2)).1
  | .waits => s
/-- CONS passes packets that are Done, or whose completion record is written (R371, step 3); those it
has passed and that are Done are forgotten, but for the last (R360). -/
def PQueue.passDone (q : PQueue) : PQueue :=
  let past (p : Packet) : Bool := p.phase == .done || p.recorded
  let n := ((List.range (q.pkts.length + 1)).find? fun i => match mfind q.pkts ((q.cons + i) % 2 ^ 19) with | some p => !past p | none => true).getD 0
  let cons := (q.cons + n) % 2 ^ 19
  { q with
    cons := cons
    pkts := q.pkts.filter fun e => e.2.phase != .done || (cons + 2 ^ 19 - 1 - e.1) % 2 ^ 19 == 0
      || decide ((e.1 + 2 ^ 19 - cons) % 2 ^ 19 < (q.fetch + 2 ^ 19 - cons) % 2 ^ 19) }
/-- Step 3 of R371 on a packet whose slot has been translated: the record, the counters, and the
status block, whose write may still wait. -/
def State.recordPacket (s : State) (vd iq idx : Nat) (slot : FeRes) : State :=
  let q := s.queue vd iq
  let p := s.packetAt vd iq idx
  let prev := mfind q.pkts ((idx + 2 ^ 19 - 1) % 2 ^ 19)
  let pfail := p.early && (match prev with | some b => decide (2 ≤ b.status) | none => false)
  let dseq := q.dseq + 1
  let s := match slot with
    | .ok ls => (s.feWrite vd ls (s.recordBytes p pfail dseq)).updQueue vd iq fun q => { q with dseq := dseq }
    | .refused x a => s.haltWrite vd iq x a
    | .waits => s
  let s := s.updQueue vd iq fun q => { q with pkts := mset q.pkts idx { p with phase := .completing, recorded := true }, lcpseq := BitVec.ofNat 32 p.pseq }
  (s.updQueue vd iq PQueue.passDone).writeStatus vd iq
/-- Steps 4 and 5 of R371 on a recorded packet, once the status block is written: the signal, which
may wait for the pager, then the interrupt (R433). -/
def State.signalStep (s : State) (vd iq idx : Nat) : State :=
  let p := s.packetAt vd iq idx
  if (s.queue vd iq).statDue then s
  else match (if p.sig = 0 ∨ p.sig % 8 ≠ 0 then (FeRes.ok [], s) else s.feRange vd iq p.ent.asid p.sig 8 2) with
  | (.waits, s) => s
  | (sg, s) =>
    let s := if p.sig = 0 ∨ p.sig % 8 ≠ 0 then s else s.signalPacket vd p sg
    let s := (s.updPacket vd iq idx fun p => { p with phase := .done }).updQueue vd iq PQueue.passDone
    if bit p.hdr 13 then s.postIrq vd 0 else s
/-- PACKET_COMPLETE: a packet whose work is finished, and for a successor whose predecessor has
completed, takes steps 3 to 5 of R371 as far as the pager lets it. DEDUCED. Log entry 24. -/
def execPacketComplete (vd iq idx : Nat) (s : State) : Out :=
  let s := s.flushStatus vd iq
  let p := s.packetAt vd iq idx
  let q := s.queue vd iq
  let closing := p.phase == .completing || (p.phase == .running && (p.type == 2 || p.type == 3) && !s.jobsLeft vd iq idx fun _ => true)
  let pred := match mfind q.pkts ((idx + 2 ^ 19 - 1) % 2 ^ 19) with | some b => b.phase == .done | none => true
  .next (if p.phase == .completing && p.recorded then s.signalStep vd iq idx
    else if !closing || (p.early && p.status != 2 && !pred) then s
    else
      let s := if p.isBundle && p.phase == .completing && p.status != 2 then s else s.writeBackVd vd
      let va := slotVa p.ent idx
      match (if p.ent.ringCap.admits va 24 1 1 then s.feRange vd iq p.ent.asid va 24 1 else (.refused { kind := 1 } va, s)) with
      | (.waits, s) => s
      | (slot, s) => (s.recordPacket vd iq idx slot).signalStep vd iq idx)

/-! ## BINPATCH (R306, R373) -/

/-- The patch job ends; with a reason, ENGINE is raised in its group (R287). -/
def State.binEnd (s : State) (j : BinJob) (err : Option (Nat × Nat)) : State :=
  let s := ({ s with binjobs := s.binjobs.filter fun x => x.id != j.id } : State).faultDiscard j.vd fun r => r.origin == Origin.engine j.id
  let s := match err with | some (4, _) => s.guestFault j.vd | _ => s
  let s := match err with | some (r, a) => s.engineError (some j.key) j.vd (engineCause r 0x18F (BitVec.ofNat 64 a) j.region) | none => s
  s.teamOver (j.key / 4096)
/-- The packets a patch job takes: from the oldest not yet started, while they are pending. -/
def PQueue.patchList (q : PQueue) (limit : Nat) : List (Nat × Packet) :=
  let idxs := (List.range ((q.fetch + 2 ^ 19 - q.cons) % 2 ^ 19)).map fun i => (q.cons + i) % 2 ^ 19
  let open' := (idxs.filterMap fun i => (mfind q.pkts i).map fun p => (i, p)).dropWhile fun e => e.2.phase != .fetched
  let l := open'.takeWhile fun e => e.2.type == 6 && e.2.pp && e.2.phase == .fetched
  if limit = 0 then l else l.take limit
/-- How the places of a patch job translate. -/
inductive PatchRes where
  | ok (ls : List (Loc × Nat))
  | waits
  | stop (a : Nat)
  deriving DecidableEq, Repr
def State.patchRange (s : State) (j : BinJob) (asid va n acc : Nat) : PatchRes × State :=
  let o := Origin.engine j.id
  match s.jobRange o j.die j.vd asid va n acc with
  | (.ok ls, s) => (.ok ls, s)
  | (.error (.fault x a acc), s) =>
    if x.repl && (s.jobFailed j.vd o).isNone then (.waits, s.jobWaits o j.vd 4 asid x a acc) else (.stop a, s)
  | (.error _, s) => (.waits, s)
/-- The places a packet's patch touches: its bin, LEN, the group count and PP in its slot, which the
ring's capability must admit (R429), and LENADDR. -/
def State.patchPlaces (s : State) (j : BinJob) (idx : Nat) (p : Packet) : Except (Option Nat) (List (List (Loc × Nat))) × State :=
  let slot := slotVa p.ent idx
  let want := [(j.asid, j.ctx.toNat + 4 * (p.at 56 4 % 4096), 2), (p.ent.asid, slot + 60, 1), (p.ent.asid, slot + 32, 1), (p.ent.asid, slot, 1)]
    ++ (if p.at 64 8 = 0 then [] else [(p.ent.asid, p.at 64 8, 1)])
  if !p.ent.ringCap.admits slot 64 1 1 then (.error (some slot), s.capFault j.vd)
  else want.foldl (fun r w =>
    match r with
    | (.error e, s) => (.error e, s)
    | (.ok ls, s) =>
      match s.patchRange j w.1 w.2.1 4 w.2.2 with
      | (.ok l, s) => (.ok (ls ++ [l]), s)
      | (.waits, s) => (.error none, s)
      | (.stop a, s) => (.error (some a), s)) (.ok [], s)
/-- One packet is patched with the count read from its bin; a count in a poisoned sector is a free
value. DESIGN CHOICE. Log entry 24. -/
def State.patchOne (s : State) (j : BinJob) (idx i : Nat) (p : Packet) (ls : List (List (Loc × Nat))) : State :=
  let bin := ls.getD 0 []
  let bad := bin.any fun e => s.feBad e.1 e.2
  let n := if bad then (s.free i).toNat % 2 ^ 32 else leNat (s.feBytes bin)
  let g := (n + 2 ^ j.gsh - 1) / 2 ^ j.gsh
  let s := bin.foldl (fun s e => s.meetLoc (some j.vd) none e.1 e.2) s
  let s := s.feWrite j.vd (ls.getD 1 []) (leBytes 4 n)
  let s := s.feWrite j.vd (ls.getD 2 []) (leBytes 4 g)
  let s := s.feWrite j.vd (ls.getD 3 []) (leBytes 4 (clearPp p.hdr))
  let s := match ls[4]? with | some l => s.feWrite j.vd l (leBytes 4 n) | none => s
  let s := s.updPacket j.vd j.iq idx fun q => if q.checked then q.patched n g else { q with pp := false, patch := some (n, g) }
  if 2 ^ 24 < g then s.malformed j.vd j.iq idx 8 else s
/-- BINPATCH_JOB: the engine patches the packets it takes, then clears the bins it read (R306, R373). -/
def execBinpatchJob (job : Nat) (s : State) : Out :=
  .next (match s.binjobs.find? fun j => j.id == job with
    | none => s
    | some j =>
      let ps := (s.queue j.vd j.iq).patchList j.npkt
      let r := ps.foldl (fun (r : Except (Option Nat) (List (Nat × Packet × List (List (Loc × Nat)))) × State) e =>
        match r with
        | (.error x, s) => (.error x, s)
        | (.ok acc, s) =>
          match s.patchPlaces j e.1 e.2 with
          | (.ok ls, s) => (.ok (acc ++ [(e.1, e.2, ls)]), s)
          | (.error x, s) => (.error x, s)) (.ok [], s)
      match r with
      | (.error none, s) => s
      | (.error (some a), s) => s.binEnd j (some (4, a))
      | (.ok l, s) =>
        let s := (s.flushDie j.die)
        let s := (l.zipIdx.foldl (fun s e => s.patchOne j e.1.1 e.2 e.1.2.1 e.1.2.2) s).bumpFree
        let s := if j.clr then l.foldl (fun s e => s.feWrite j.vd (e.2.2.getD 0 []) (leBytes 4 0)) s else s
        s.binEnd j none)

/-! ## Cancelling a queue (R364, R374) -/

/-- The work of a packet is cancelled: its teams end, its records and the remote stores of its groups
that are on their way are discarded, its jobs stop. -/
def State.cancelPacket (s : State) (vd iq idx : Nat) (p : Packet) : State :=
  let ident := s.identOf vd iq p.pseq
  let tids := (s.bundleTeams ident).map fun e => e.1
  let s := (s.bundleTeams ident).foldl (fun s e => if (s.keysOf e.1).isEmpty then s.cancelTeamWork e.1 else s.killTeam e.1 3) s
  let mine (j : Option (Nat × Nat × Bool)) : Bool := match j with | some (a, b, _) => a == iq && b == idx | none => false
  let work (m : RemoteStore) : Bool := m.work == some ident
  let s := { s with flight := s.flight.filter fun m => !work m
                    transit := s.transit.filter fun m => !work m
                    ports := s.ports.filter fun m => !work m }
  let s := s.cancelCopies fun c => c.vd == vd && mine c.job
  let s := { s with copies := s.copies.map fun (c : CopyCmd) => if c.vd == vd && mine c.job then { c with job := none } else c
                    colls := s.colls.map fun (c : CollJob) => 
                      if (c.vd == vd && mine c.job) || (match c.key with | some k => tids.contains (k / 4096) | none => false)
                      then { c with job := none, cancelled := true, mute := true } else c }
  s.updVd vd fun v => { v with conts := mmap v.conts fun _ c => { c with recs := c.recs.filter fun r => recBundle r.record != ident } }
/-- A queue becomes DISABLED: packets that are not Done are cancelled, the records of a continuation
queue are discarded, and the status block is written once, after every write of the work that is
under way: none follows (R364). -/
def State.disableQueue (s : State) (vd iq : Nat) : State :=
  let q := s.queue vd iq
  let s := (q.pkts.filter fun e => e.2.phase != .done).foldl (fun s e => s.cancelPacket vd iq e.1 e.2) s
  let s := (s.faultDiscard vd fun r => r.origin == .frontEnd iq).flushDie 0 |>.flushDie 1
  let s := s.updVd vd fun v => match mfind v.conts iq with | some c => { v with conts := mset v.conts iq { c with recs := [] } } | none => v
  if q.st = .disabled then s
  else (s.updQueue vd iq fun q => { q with st := .disabled, pkts := [], rereadDue := none, skipLeft := 0 }).writeStatus vd iq

end Sys2Proof.Machine
end

