-- ==== Sys2Proof/Machine/Freor.lean ====
section
/-! DEFINITION. Freor: the command ring: reading the next command, which operation it is, and its completion (R420, R434). -/
namespace Sys2Proof.Machine

/-- Bits [hi:lo] of a command's bytes: byte k holds bits [8k+7:8k]. -/
def cmdFld (e : CmdEntry) (hi lo : Nat) : Nat := fld e.toNat hi lo
/-- The VD a command names. -/
def cmdVd (e : CmdEntry) : Nat := cmdFld e 41 32
def cmdDev (e : CmdEntry) : Bool := e.getLsbD 9
def cmdForce (e : CmdEntry) : Bool := e.getLsbD 8

/-- The operation of SETCFG that SEL names (R434). -/
def setcfgOf (e : CmdEntry) : Option Instr :=
  match cmdFld e 79 64 with
  | 1 => some (.setcfgWeight e) | 2 => some (.setcfgHbmWeir e) | 3 => some (.setcfgBrixayWeir e) | 4 => some (.setcfgPeer e)
  | 5 => some (.setcfgGqtbase e) | 6 => some (.setcfgGroot e) | 7 => some (.setcfgHroot e) | 8 => some (.setcfgRemap e)
  | 9 => some (.setcfgModes e) | 10 => some (.setcfgStackPool e) | 11 => some (.setcfgSavePool e) | 32 => some (.setcfgSlice e)
  | 33 => some (.setcfgPowerLimit e) | _ => none
/-- The operation of a command entry (R422); none for an opcode, SEL or operation that the tables do not name. -/
def commandOf (e : CmdEntry) : Option Instr :=
  match cmdFld e 7 0 with
  | 1 => some (.create e) | 2 => some (.destroy e) | 3 => some (.activate e) | 4 => some (.deactivate e) | 5 => some (.pause e)
  | 6 => some (.resume e) | 7 => some (.kill e) | 8 => some (.partition e) | 9 => setcfgOf e | 10 => some (.gen e)
  | 11 => some (.qbind e)
  | 12 => match cmdFld e 87 80 with
    | 0 => some (.qctlEnable e) | 1 => some (.qctlResume e) | 2 => some (.qctlReset e) | _ => none
  | 13 => some (.grant e) | 14 => some (.comm e) | 15 => some (.podnum e) | _ => none

/-- Completion statuses (R420). -/
inductive CmdStatus where
  | ok | busy | invalid | state | capacity | denied
  deriving DecidableEq, Repr
def CmdStatus.code : CmdStatus → Nat
  | .ok => 0 | .busy => 1 | .invalid => 2 | .state => 3 | .capacity => 4 | .denied => 5

/-! ## The command ring -/

/-- Entries of the ring. -/
def State.cmdSize (s : State) : Nat := 64 * 2 ^ s.cmdLog
/-- The capability of the command ring: it exists while the ring is enabled at a base that is a
multiple of its size, with CMDLOG in range. -/
def State.cmdCap (s : State) : Cap :=
  { ringCap s.cmdEn s.cmdBase (64 * s.cmdSize) 9 with tag := (ringCap s.cmdEn s.cmdBase (64 * s.cmdSize) 9).tag && decide (s.cmdLog ≤ 4) }
/-- The host address of the next entry. -/
def State.cmdAddr (s : State) : Nat := s.cmdBase + 64 * (s.cmdCons.toNat % s.cmdSize)
/-- The completion of the command at CMDCONS, then the interrupt on PF vector 0. Where the ring has
been taken away meanwhile, its capability admits no write, and a record is left instead (R429). -/
def State.cmdComplete (s : State) (st : CmdStatus) : State :=
  let s := if s.cmdCap.admits (s.cmdAddr + 56) 8 1 9 then s.writeHost (s.cmdAddr + 56) (leBytes 8 (1 + st.code * 2 + s.cmdCons.toNat * 2 ^ 32))
    else (s.errRecord { sev := 1 }).1
  { s with cmdCons := s.cmdCons + 1 }.sendMsix none 0
/-- Freor's next command: nothing where the ring is disabled or empty. -/
def State.nextCommand (s : State) : Turned :=
  if s.cmdProd == s.cmdCons || !s.cmdCap.admits s.cmdAddr 64 0 9 then .done s
  else
    let e : CmdEntry := BitVec.ofNat 512 (s.hostNat s.cmdAddr 64)
    match commandOf e with
    | some i => .run i s
    | none => .done (s.cmdComplete .invalid)

end Sys2Proof.Machine
end

