-- ==== Sys2Proof/Machine/Load.lean ====
section
/-! DEFINITION. Load: a minimal machine around one instruction: a VD, page tables that map the first GiB onto itself, a team of one group (or a stream), and the instruction's bytes at its PC. It stands for the host's and the front end's work from reset to a team's first instruction. Log entry 11. -/
namespace Sys2Proof.Machine

/-- Where the bytes of the placed instruction lie, as a VA, a GPA and a physical address. -/
def loadPc : Nat := 0x1000
/-- The host tables from 0x10000 and the guest tables from 0x20000: two pointers and a 1 GiB leaf
each, readable, writable, executable and device-coherent, the host leaf dirty (R322, R323). -/
def loadTables : List (Nat × Byte) :=
  bytesAt 0x10000 (leBytes 8 0x11003) ++ bytesAt 0x11000 (leBytes 8 0x12003) ++ bytesAt 0x12000 (leBytes 8 0xBD)
    ++ bytesAt 0x20000 (leBytes 8 0x21003) ++ bytesAt 0x21000 (leBytes 8 0x22003) ++ bytesAt 0x22000 (leBytes 8 0x9D)
/-- The bytes placed: the tables and 16 bytes of instruction. -/
def loadBytes (w : Nat) : List (Nat × Byte) := bytesAt loadPc (leBytes 16 w) ++ loadTables
/-- The group that issues the instruction: a stream for the matrix-stream opcodes, else general. -/
def loadGroup (stream : Bool) : Group :=
  { role := if stream then .stream else .general, ngen := 640, core := 0,
    pcs := if stream then [some (BitVec.ofNat 64 loadPc)] else List.replicate 32 (some (BitVec.ofNat 64 loadPc)) }
/-- The machine with the instruction of bits `w` placed where the next step fetches. -/
def State.place (s : State) (w : Nat) : State :=
  let stream := decide (0x1C0 ≤ opcOf w)
  let key := if stream then 4095 else 0
  let bs := loadBytes w
  let secs := bs.foldl (fun l e => sins l (sectorOf e.1)) []
  { s with
    stopped := false
    vds := mset s.vds 0 { s.vd 0 with st := .active, hroot := 0x10000, groot := mset (s.vd 0).groot 0 0x20000 }
    teams := mset s.teams 0 { cores := [0], record := BitVec.ofNat 512 (2 ^ 256 + b2n stream * 2 ^ 164), saved := none, asid := 0 }
    groups := mset s.groups key (loadGroup stream)
    tlb := []
    walkCache := []
    mem := { s.mem with hbm := Mem.writeAll s.mem.hbm bs,
                        hbmPoison := s.mem.hbmPoison.filter fun c => !secs.contains c,
                        damaged := s.mem.damaged.filter fun c => !secs.contains c,
                        fwd := s.mem.fwd.filter fun f => !(f.write.bytes.any fun e => secs.contains (sectorOf e.1)),
                        l1 := s.mem.l1.filter fun c => !secs.contains c.sector,
                        l2 := s.mem.l2.filter fun c => !secs.contains c.sector }
    agenda := { clocks := 0, ns := 0, who := .group key } :: s.agenda }

/-! ## The turns of a schedule -/

/-- Whether an operation has no encoding and is not a command: another unit performs it. -/
def Instr.isEvent (i : Instr) : Bool :=
  match i with
  | .create _ | .destroy _ | .activate _ | .deactivate _ | .pause _ | .resume _ | .kill _ | .partition _ | .setcfgWeight _
  | .setcfgHbmWeir _ | .setcfgBrixayWeir _ | .setcfgPeer _ | .setcfgGqtbase _ | .setcfgGroot _ | .setcfgHroot _ | .setcfgRemap _
  | .setcfgModes _ | .setcfgStackPool _ | .setcfgSavePool _ | .setcfgSlice _ | .setcfgPowerLimit _ | .gen _ | .qbind _
  | .qctlEnable _ | .qctlResume _ | .qctlReset _ | .grant _ | .comm _ | .podnum _ => false
  | i => i.row.isNone
end Sys2Proof.Machine
end

