-- ==== Sys2Proof/Machine/Units.lean ====
section
/-! DEFINITION. Units: what the memory system, the pager, the clocks and the registers of the device do by themselves: drains, forwards, acknowledgements, evictions, the fault and dirty-log rings, generation raises, timeouts, pending causes, register writes (R42, R53, R213 to R218, R224, R271, R327 to R334, R394, R417 to R420). -/
namespace Sys2Proof.Machine

/-! ## Memory -/

/-- AGING_ISSUE: the lane of the run that the due aging issue takes (R42). -/
def execAgingIssue (key : Nat) (s : State) : Out :=
  .next (match mfind s.groups key with
    | none => s
    | some g =>
      let t := mget {} s.teams g.tid
      if !g.agingDue || t.saved.isSome || g.moving.isSome then s
      else match g.agingLane fun p => s.atConvergence g t.asid p.toNat with
        | some l => s.setGroup key { g with forced := some l }
        | none => s)
/-- STORE_QUEUE_DRAIN: the oldest queued store of a group (R224). -/
def execStoreQueueDrain (key : Nat) (s : State) : Out := .next (s.drainOne key)
/-- L2_FORWARD: a die's oldest forwarded write reaches the cistern (R222). -/
def execL2Forward (die : Nat) (s : State) : Out := .next (s.forwardOne die)
/-- CISTERN_WRITE_ACK (R214). -/
def execCisternWriteAck (die : Nat) (s : State) : Out := .next (s.ackOne die)
/-- L1_EVICTION: an L1 copy leaves; L1s hold nothing dirty (R215). -/
def execL1Eviction (core sector : Nat) (s : State) : Out :=
  .next (s.setMem fun m => { m with l1 := m.l1.filter fun c => !(c.core == core && c.sector == sector) })
/-- L2_EVICTION: a die's L2 copy leaves; its dirty bytes are written back first (R218). -/
def execL2Eviction (die sector : Nat) (s : State) : Out :=
  .next (match s.mem.l2Find die sector with
    | none => s
    | some c => (s.writeBackCopy c).l2Drop die [sector])

/-! ## The fault ring (R330 to R334) -/

/-- The outcome of a token is remembered while the token is one of the newest 2^20 (R334). -/
def FaultBlock.remember (f : FaultBlock) (tok : Word) (failed : Bool) : FaultBlock :=
  { f with outcomes := ((tok, failed) :: f.outcomes.filter fun e => e.1 != tok).filter fun e => f.recent e.1 }
/-- A write of RTOKEN with RFAIL (R332, R333). -/
def State.resolveToken (s : State) (vd : Nat) (tok : Word) (failed : Bool) : State :=
  s.updVd vd fun v =>
    let f := v.fault
    let mine (r : FaultReq) : Bool := r.token == some tok && !r.failed
    if !f.reqs.any mine then v
    else
      let reqs := if failed then f.reqs.filterMap fun r => if mine r then (if r.deferred then none else some { r with failed := true }) else some r
                  else f.reqs.filter fun r => !mine r
      { v with fault := { f with reqs := reqs }.remember tok failed }
/-- Freor brings pages of host memory into local HBM and writes the table entries that map them. -/
def State.pageIn (s : State) (vd : Nat) (ps : List PageIn) : State :=
  ps.foldl (fun s p =>
    let page := (List.range p.size).map fun i => s.hostByte (p.host + i)
    let put (s : State) (a : Nat) (bs : List Byte) : State :=
      if a + bs.length ≤ Config.hbmBytes then s.ioWrite { space := .hbm, addr := a } vd bs else s
    put (put s p.page page) p.pte (leBytes 8 p.entry.toNat)) s
/-- RESOLVE: a write of the word at 0x20. In hardware mode it is Freor's, which brings pages in first (R426). -/
def execResolve (vd : Nat) (x : Resolution) (s : State) : Out :=
  .next ((if (s.vd vd).modes.getLsbD 1 then s else s.pageIn vd x.pages).resolveToken vd (x.value.setWidth 32) (x.value.getLsbD 32))
/-- A write of FBCONS; spilled requests then enter (R330, R332). -/
def State.setFbcons (s : State) (vd : Nat) (x : Word) : State :=
  let f := (s.vd vd).fault
  if f.fbSize < (f.fbprod - x).toNat then s
  else (s.updVd vd fun v => { v with fault := { v.fault with fbcons := x } }).faultAdmit vd f.reqs
/-- FBCONS_WRITE. -/
def execFbconsWrite (vd : Nat) (value : Word) (s : State) : Out := .next (s.setFbcons vd value)
/-- A write of the word at 0x00 of the fault block; where the buffer is then off, spilled requests fail (R332). -/
def State.setFben (s : State) (vd : Nat) (x : DWord) : State :=
  s.updVd vd fun v =>
    let n := x.toNat
    let v := { v with fault := { v.fault with fben := bit n 0, fblog := fld n 7 4, fbbase := fld n 55 8 * 256 } }
    if v.fbOn then v
    else { v with fault := { v.fault with reqs := v.fault.reqs.map fun r => if r.token.isNone then { r with failed := true } else r } }
/-- FBEN_WRITE. -/
def execFbenWrite (vd : Nat) (value : DWord) (s : State) : Out := .next (s.setFben vd value)

/-! ## The dirty log (R328) -/

/-- D of a leaf, with the cached entries of the VD. -/
def State.setDirty (s : State) (vd leaf : Nat) : State :=
  let s := s.cisternWrite { space := .hbm, dieCoh := false, bytes := [(leaf, s.hbmByte leaf ||| 0x20)], poison := [], clear := [], vd := vd }
  { s with tlb := s.tlb.map fun x => if x.leaf == leaf && x.vd == vd then { x with dirty := true } else x }
/-- Held writes append their entries in arrival order while room lasts; a page that another has
logged meanwhile takes no second entry. -/
def State.dirtyAdmit (s : State) (vd : Nat) : List DirtyHeld → State
  | [] => s
  | h :: hs =>
    if (s.vd vd).fault.dlRoom then
      let s := if bit (s.hbmByte h.leaf).toNat 5 then s else (s.setDirty vd h.leaf).dirtyAppend vd h.gpa h.size
      let s := s.updVd vd fun v => { v with fault := { v.fault with dlheld := v.fault.dlheld.filter fun x => x != h } }
      s.dirtyAdmit vd hs
    else s
/-- A write of DLCONS. -/
def State.setDlcons (s : State) (vd : Nat) (x : Word) : State :=
  let s := s.updVd vd fun v => let f := { v.fault with dlcons := x }; { v with fault := { f with dlfull := !f.dlRoom } }
  s.dirtyAdmit vd (s.vd vd).fault.dlheld
/-- DLCONS_WRITE. -/
def execDlconsWrite (vd : Nat) (value : Word) (s : State) : Out := .next (s.setDlcons vd value)
/-- Bits of the bitmap that a dirty-log entry sets: one for each 64 KiB of the page it names. -/
def dirtyBits (e : Nat) : Nat × Nat :=
  (fld e 55 16, if fld e 1 0 = 0 then 1 else if fld e 1 0 = 1 then 32 else 16384)
/-- Freor sets an entry's bits in the host-supplied bitmap at host address `bitmap`: bit g of it, the
least significant bit of a byte first, stands for the 64 KiB of GPAs from g × 64 KiB; the spec gives no layout.
DESIGN CHOICE. Log entry 33. -/
def State.markBitmap (s : State) (bitmap e : Nat) : State :=
  let (g, n) := dirtyBits e
  (List.range ((g % 8 + n + 7) / 8)).foldl (fun s k =>
    let a := bitmap + g / 8 + k
    let mask := (List.range 8).foldl (fun m i =>
      let b := (g / 8 + k) * 8 + i
      if g ≤ b ∧ b < g + n then m ||| BitVec.ofNat 8 (2 ^ i) else m) (0 : Byte)
    s.writeHost a [s.hostByte a ||| mask]) s
/-- FREOR_DIRTY_LOG_DRAIN: in hardware mode Freor consumes entries into the bitmap and advances
DLCONS (R426). -/
def execFreorDirtyLogDrain (vd : Nat) (x : LogDrain) (s : State) : Out :=
  let v := s.vd vd
  let f := v.fault
  let k := min x.n (f.dlprod - f.dlcons).toNat
  let slot (i : Nat) : Nat := f.dlbase + 8 * ((f.dlcons.toNat + i) % f.dlSize)
  .next (if v.modes.getLsbD 2 then s
    else
      let s := (List.range k).foldl (fun s i =>
        if !f.dirtyCap.admits (slot i) 8 0 7 then s.capFault vd
        else match s.readGpa vd (slot i) 8 with
          | some e => s.markBitmap x.bitmap e
          | none => s) s
      s.setDlcons vd (f.dlcons + BitVec.ofNat 32 k))
/-- A write of the word at 0x30; with the log off, held writes need no entry. -/
def State.setDlen (s : State) (vd : Nat) (x : DWord) : State :=
  let n := x.toNat
  s.updVd vd fun v =>
    let f := { v.fault with dlen := bit n 0, dllog := fld n 7 4, dlbase := fld n 55 8 * 256 }
    { v with fault := if f.dlen then f else { f with dlheld := [] } }

/-! ## Generations (R327, R422) -/

/-- Whether an access of a VD that has been translated is still to be performed: a queued store,
a write on its way to the cistern, one that a full dirty log holds (R328), or a BINADD, which
holds its context's address (R304). -/
def State.unperformed (s : State) (vd : Nat) : Bool :=
  (s.groups.any fun e => e.2.vd == vd && !e.2.sq.isEmpty) || (s.mem.fwd.any fun f => f.write.vd == vd) ||
    (s.binops.any fun b => b.vd == vd) || !(s.vd vd).fault.dlheld.isEmpty
/-- Cached translations and non-leaf entries of a space of a VD are flushed; 31 is the host stage. -/
def State.flushTlb (s : State) (vd space : Nat) : State :=
  { s with
    tlb := s.tlb.filter fun e => !(e.vd == vd && (space == 31 || e.asid == space))
    walkCache := s.walkCache.filter fun e => !(e.vd == vd && (space == 31 || e.asid == space)) }
/-- A generation rises by one. -/
def VD.raise (v : VD) (space : Nat) : VD :=
  if space = 31 then { v with hgen := v.hgen + 1 } else { v with ggen := mset v.ggen space (mget 0 v.ggen space + 1) }
def VD.genOf (v : VD) (space : Nat) : BitVec 24 := if space = 31 then v.hgen else mget 0 v.ggen space
/-- GENERATION_RAISE_COMPLETE: every access translated under an older generation is performed;
a raise that wrapped flushes; the GEN command completes. -/
def execGenerationRaiseComplete (vd space : Nat) (s : State) : Out :=
  let v := s.vd vd
  .next (if !v.raising.contains space || s.unperformed vd then s
    else
      let s := if v.genOf space = 0 then s.flushTlb vd space else s
      (s.updVd vd fun v => { v with raising := v.raising.filter fun x => x != space }).cmdComplete .ok)

/-! ## Timeouts (R53, R134, R143, R251, R271, R278, R300, R303) -/

/-- The timeout of a group's wait of kind `k` falls, when its clock has come; none falls while the
group is saved (R53). -/
def State.expire (s : State) (key : Nat) (k : WaitKind) : State :=
  s.updGroup key fun g =>
    match g.wait.due with
    | some d => if (mget {} s.teams g.tid).saved.isNone && g.wait.kind = k && decide (d ≤ s.clkOf g.core) then { g with wait := { g.wait with expired := true } } else g
    | none => g
def execSigwaitTimeout (key : Nat) (s : State) : Out := .next (s.expire key .sigwait)
def execIbwaitTimeout (key : Nat) (s : State) : Out := .next (s.expire key .inbox)
def execMbwaitTimeout (key : Nat) (s : State) : Out := .next (s.expire key .object)
def execClwaitTimeout (key : Nat) (s : State) : Out := .next (s.expire key .clwait)
def execSleepcExpiry (key : Nat) (s : State) : Out := .next (s.expire key .sleep)
/-- REMOTE_ACCESS_TIMEOUT: the fabric gives up the next remote access of an agent of a VD, which
is then a fault of KIND 5 that is not replayable (R398). -/
def execRemoteAccessTimeout (who : Agent) (s : State) : Out := .next { s with late := s.late ++ [(who.vd, who.origin)] }

/-! ## Pending causes taken at an instruction boundary (R53, R276, R287) -/

/-- The first pending cause is taken when its code is one of `cs` and the group is on its core. -/
def State.takeIf (s : State) (key : Nat) (cs : List Nat) : State :=
  match mfind s.groups key with
  | none => s
  | some g =>
    if (mget {} s.teams g.tid).saved.isSome || g.moving.isSome || g.trapping.isSome then s
    else match g.errs with
      | e :: _ => if cs.contains e.cause then s.takeErr key else s
      | [] => s
/-- ENGINE_ERROR_TAKEN (R287), and the ALIGN of a tile copy (R119). -/
def execEngineErrorTaken (key : Nat) (s : State) : Out := .next (s.takeIf key [13, 9])
/-- DIELOST_TRAP (R23). -/
def execDielostTrap (key : Nat) (s : State) : Out := .next (s.takeIf key [16])
/-- HWERR_TAKEN (R385). -/
def execHwerrTaken (key : Nat) (s : State) : Out := .next (s.takeIf key [15])
/-- REMOTE_NAK_TRAP (R276). -/
def execRemoteNakTrap (key : Nat) (s : State) : Out :=
  .next (match mfind s.groups key with
    | none => s
    | some g => if (mget {} s.teams g.tid).saved.isSome || g.moving.isSome || g.trapping.isSome then s else s.takeNak key)

/-! ## Register writes (R417, R418, R420) -/

/-- A register of 64 bits after a write of 4 or 8 bytes at offset `off`. -/
def mergeWrite (old : DWord) (w : MmioWrite) : DWord :=
  if w.size = 8 then w.value
  else if w.off % 8 = 0 then ((old >>> 32).setWidth 32 ++ w.value.setWidth 32 : DWord) else (w.value.setWidth 32 ++ old.setWidth 32 : DWord)
/-- The bits that a write carries, others 0: for write-one-to-clear fields. -/
def onlyWritten (w : MmioWrite) : DWord := mergeWrite 0 w
/-- Whether a write reaches the low or the high half of its register. -/
def reachesLow (w : MmioWrite) : Bool := w.size = 8 || w.off % 8 = 0
def reachesHigh (w : MmioWrite) : Bool := w.size = 8 || w.off % 8 = 4
/-- A register that enables a ring: its enable, the log of its size, and its base (R330, R394, R420). -/
def ringWord (en : Bool) (log base : Nat) : DWord := BitVec.ofNat 64 (b2n en + log * 16 + base)
/-- Two 32-bit registers in one word. -/
def twoWords (hi lo : Word) : DWord := hi ++ lo
/-- A write to a word of a fault block. -/
def State.writeFault (s : State) (vd reg : Nat) (w : MmioWrite) : State :=
  let f := (s.vd vd).fault
  let hi (x : DWord) : Word := (x >>> 32).setWidth 32
  if reg = 0x00 then s.setFben vd (mergeWrite (ringWord f.fben f.fblog f.fbbase) w)
  else if reg = 0x10 then (if reachesLow w then s.setFbcons vd (w.value.setWidth 32) else s)
  else if reg = 0x18 then s.updVd vd fun v => { v with fault := { v.fault with ovfp := v.fault.ovfp && !(onlyWritten w).getLsbD 0 } }
  else if reg = 0x20 then (if reachesLow w then s.resolveToken vd (w.value.setWidth 32) ((onlyWritten w).getLsbD 32) else s)
  else if reg = 0x30 then s.setDlen vd (mergeWrite (ringWord f.dlen f.dllog f.dlbase) w)
  else if reg = 0x38 then (if reachesHigh w then s.setDlcons vd (hi (onlyWritten w)) else s)
  else if reg = 0x40 then s.updVd vd fun v => { v with fault := { v.fault with dlev := v.fault.dlev && !(onlyWritten w).getLsbD 1 } }
  else s
/-- A write to a word of an error block. -/
def State.writeErrBlock (s : State) (vd : Option Nat) (reg : Nat) (w : MmioWrite) : State :=
  if reg = 0x00 then
    s.updErr vd fun b =>
      let n := (mergeWrite (ringWord b.eren b.erlog b.erbase) w).toNat
      { b with eren := bit n 0, erlog := fld n 7 4, erbase := fld n 55 8 * 256 }
  else if reg = 0x08 then (if reachesHigh w then s.updErr vd fun b => { b with ercons := ((onlyWritten w) >>> 32).setWidth 32 } else s)
  else s
/-- A write to the command ring's registers: CMDPROD is the doorbell (R420). -/
def State.writeCmd (s : State) (reg : Nat) (w : MmioWrite) : State :=
  if reg = 0x00 then
    let n := (mergeWrite (ringWord s.cmdEn s.cmdLog s.cmdBase) w).toNat
    { s with cmdEn := bit n 0, cmdLog := fld n 7 4, cmdBase := fld n 55 8 * 256 }
  else if reg = 0x08 ∧ reachesLow w then { s with cmdProd := w.value.setWidth 32 }
  else s
/-- A write to a control page. -/
def State.writePage (s : State) (vd off : Nat) (w : MmioWrite) : State :=
  let reg := off / 8 * 8
  if (s.vd vd).st = .free then s
  else if off < 0x100 then s.writeFault vd reg w
  else if off < 0x200 then s.writeErrBlock (some vd) (reg - 0x100) w
  else s
/-- REGISTER_WRITE: offsets that no map names, read-only fields and misaligned writes drop it. -/
def execRegisterWrite (w : MmioWrite) (s : State) : Out :=
  .next (if (w.size ≠ 4 ∧ w.size ≠ 8) ∨ w.off % w.size ≠ 0 then s
    else match w.bar with
      | .pfMgmt =>
        let reg := w.off / 8 * 8
        if 0x2000 ≤ w.off ∧ w.off < 0x2100 then s.writeErrBlock none (reg - 0x2000) w
        else if 0x3000 ≤ w.off ∧ w.off < 0x3010 then s.writeCmd (reg - 0x3000) w
        else s
      | .pfPage => if w.off < 0x4000000 then s.writePage (w.off / 65536) (w.off % 65536) w else s
      | .vfPage vd => s.writePage vd w.off w
      | .freorMgmt => if w.off / 8 * 8 = 0x0200 ∧ reachesLow w then { s with kactl := w.value.setWidth 32 &&& 0xF } else s)

end Sys2Proof.Machine
end

