-- ==== Sys2Proof/Machine/Commands.lean ====
section
/-! DEFINITION. Commands: what Freor does for each command of its ring, with the checks in their order (R403, R404, R414, R415, R419 to R425, R427, R430, R432, R434). -/
namespace Sys2Proof.Machine

/-! ## Arguments and checks (R420, R434) -/

/-- `n` bytes of a command from byte `k`. -/
def cmdArg (e : CmdEntry) (k n : Nat) : Nat := cmdFld e (8 * (k + n) - 1) (8 * k)
/-- Whether the reserved header bits are zero and DEV is what the command requires. -/
def cmdHead (e : CmdEntry) (dev : Bool) : Bool :=
  cmdFld e 31 10 == 0 && cmdFld e 63 42 == 0 && cmdDev e == dev && (!dev || cmdVd e == 0)
/-- Whether every argument byte outside the named ones, given by first byte and count, is zero. -/
def cmdResv (e : CmdEntry) (named : List (Nat × Nat)) : Bool :=
  (List.range 48).all fun i => cmdArg e (8 + i) 1 == 0 || named.any fun r => decide (r.1 ≤ 8 + i) && decide (8 + i < r.1 + r.2)
/-- Whether TLOCK reads 1 (R421). -/
def VD.tlock (v : VD) : Bool := v.tdi == .locked || v.tdi == .run
/-- A command on a VD in the order of its checks: INVALID where `good` fails, DENIED under TLOCK
unless exempt, STATE, then `k`. -/
def State.vdCommand (s : State) (e : CmdEntry) (named : List (Nat × Nat)) (good exempt : Bool) (allowed : VD → Bool)
    (k : Nat → VD → State) : State :=
  let v := s.vd (cmdVd e)
  if !(cmdHead e false && cmdResv e named && good) then s.cmdComplete .invalid
  else if v.tlock && !exempt then s.cmdComplete .denied
  else if !allowed v then s.cmdComplete .state
  else k (cmdVd e) v
/-- A command on the device. -/
def State.devCommand (s : State) (e : CmdEntry) (named : List (Nat × Nat)) (good allowed : Bool) (k : State) : State :=
  if !(cmdHead e true && cmdResv e named && good) then s.cmdComplete .invalid
  else if !allowed then s.cmdComplete .state
  else k
def VD.defined (v : VD) : Bool := v.st == .defined
def VD.running (v : VD) : Bool := v.st == .active || v.st == .paused
def VD.notFree (v : VD) : Bool := v.st != .free
/-- A VD has a running context (R423). -/
def State.context (s : State) (vd : Nat) : Bool :=
  (s.teams.any fun e => e.2.vd == vd) || (s.vd vd).queues.any fun e => e.2.pkts.any fun p => p.2.phase != .done

/-! ## Pools (R419) -/

/-- Whether two pools, each its base and bytes, share a byte; an empty one shares none. -/
def poolMeets (a b : Nat × Nat) : Bool := decide (0 < a.2) && decide (0 < b.2) && decide (a.1 < b.1 + b.2) && decide (b.1 < a.1 + a.2)
def VD.stackPool (v : VD) : Nat × Nat := (v.stkpool, v.stkslots * 32 * v.stksz)
def VD.savePool (v : VD) : Nat × Nat := (v.savebase, v.savesize)
/-- Whether a VD's pool may lie where it does: in local HBM, apart from other VDs' pools. -/
def State.poolOk (s : State) (vd : Nat) (p : Nat × Nat) : Bool :=
  decide (p.1 + p.2 ≤ Config.hbmBytes)
    && s.vds.all fun e => e.1 == vd || e.2.st == .free || (!poolMeets p e.2.stackPool && !poolMeets p e.2.savePool)
/-- Whether the bits of a pool base that must be zero are. -/
def baseOk (a : Nat) : Bool := a % 65536 == 0 && decide (a < 2 ^ 56)
def sizeOk (n : Nat) : Bool := n % 65536 == 0 && decide (n < 2 ^ 39)

/-! ## Creating and destroying (R421, R422) -/

/-- CREATE: every field takes its reset value but INC and the TDI. -/
def execCreate (e : CmdEntry) (s : State) : Out :=
  let vd := cmdVd e
  let old := s.vd vd
  let new : VD :=
    { st := .defined, inc := old.inc, tdi := old.tdi, stklog := cmdArg e 8 1, modes := BitVec.ofNat 5 (cmdArg e 9 1), stkslots := cmdArg e 10 2,
      stkpool := cmdArg e 16 8, savebase := cmdArg e 24 8, savesize := cmdArg e 32 8 }
  let good := decide (cmdArg e 8 1 ≤ 6) && decide (cmdArg e 9 1 < 32) && baseOk (cmdArg e 16 8) && baseOk (cmdArg e 24 8)
    && sizeOk (cmdArg e 32 8) && s.poolOk vd new.stackPool && s.poolOk vd new.savePool
  .next (s.vdCommand e [(8, 4), (16, 24)] good false (fun v => v.st == .free) fun vd _ =>
    (({ s with vds := mset s.vds vd new } : State).flushTlb vd 31).cmdComplete .ok)
/-- DESTROY: INC rises; the charges of continuation queues go with the rest (R374). -/
def execDestroy (e : CmdEntry) (s : State) : Out :=
  .next (s.vdCommand e [] true false VD.defined fun vd v =>
    (({ s with vds := mset s.vds vd { inc := v.inc + 1, tdi := v.tdi } } : State).flushTlb vd 31).cmdComplete .ok)

/-! ## Kill and drain (R425) -/

/-- Every write that waits for its acknowledgement is acknowledged. -/
def State.ackAll (s : State) : State := (List.range s.mem.acks.length).foldl (fun s _ => (s.ackOne 0).ackOne 1) s
/-- A remote store that a VD of this device has sent. -/
def State.ownStore (s : State) (vd : Nat) (m : RemoteStore) : Bool := m.sdev == s.devNum && m.svd == vd
/-- R425: kicks that still wait are dropped and counted, what the VD has not performed is
discarded, its work ends, and its state is cleared; its pools, partition and configuration stay. -/
def State.killVd (s : State) (vd : Nat) : State :=
  let s : State := { s with
    groups := mmap s.groups fun _ g => if g.vd = vd then { g with sq := [] } else g
    msgs := s.msgs ++ (s.colls.filter fun c => c.vd == vd).map fun (c : CollJob) => OutMsg.jobEnded vd c.cnum c.seq
    copies := s.copies.filter fun c => c.vd != vd
    colls := s.colls.filter fun c => c.vd != vd
    binops := s.binops.filter fun b => b.vd != vd
    binjobs := s.binjobs.filter fun b => b.vd != vd
    flight := s.flight.filter fun m => !s.ownStore vd m
    transit := s.transit.filter fun m => !s.ownStore vd m
    ports := s.ports.filter fun m => !s.ownStore vd m
    mem := { s.mem with fwd := s.mem.fwd.filter fun f => f.write.vd != vd } }
  let s := s.ackAll
  let s := ((s.teams.filter fun e => e.2.vd == vd).map fun e => e.1).foldl (fun s t => s.killTeam t 2) s
  let s := { s with teams := s.teams.filter fun e => e.2.vd != vd, marks := s.marks.filter fun m => (mget ({} : Team) s.teams m.tid).vd != vd }
  let s := s.updVd vd fun v => { v with fault := { v.fault with reqs := [], dlheld := [] }, kicks := [],
                                        err := v.kicks.foldl (fun b _ => { b with kdrops := satInc b.kdrops }) v.err }
  let s := (s.vd vd).queues.foldl (fun s e => s.disableQueue vd e.1) s
  let s := s.writeBackVd vd
  let s := s.setMem fun m => { m with l1 := [], l2 := m.l2.filter fun c => c.vd != vd }
  let s := s.flushTlb vd 31
  (s.updVd vd fun v =>
    let v := (31 :: List.range 16).foldl VD.raise v
    { v with inc := v.inc + 1, tdi := if v.tlock then .error else v.tdi, conts := mmap v.conts fun _ c => { c with recs := [] },
             stkused := [], hadHead := [], raising := [], pausing := false }).nakDead
/-- KILL: the VD drains, and at Freor's next turn steps 2 to 4 follow. -/
def execKill (e : CmdEntry) (s : State) : Out :=
  .next (s.vdCommand e [] true true (fun v => v.running || v.drainFrom.isSome) fun vd v =>
    match v.drainFrom with
    | none => s.updVd vd fun v => { v with st := .draining, drainFrom := some v.st }
    | some st => ((s.killVd vd).updVd vd fun v => { v with st := st, drainFrom := none }).reviewSaved.cmdComplete .ok)

/-! ## Activity (R422, R423) -/

/-- ACTIVATE. -/
def execActivate (e : CmdEntry) (s : State) : Out :=
  .next (s.vdCommand e [] true false VD.defined fun vd _ =>
    if Config.residentVds ≤ (s.vds.filter fun x => x.2.resident).length then s.cmdComplete .capacity
    else (s.updVd vd fun v => { v with st := .active, resident := true }).cmdComplete .ok)
/-- DEACTIVATE: BUSY with a running context; FORCE kills first (R423). -/
def execDeactivate (e : CmdEntry) (s : State) : Out :=
  .next (s.vdCommand e [] true false VD.running fun vd _ =>
    if s.context vd && !cmdForce e then s.cmdComplete .busy
    else
      let s := if cmdForce e then s.killVd vd else s
      (s.updVd vd fun v => { v with st := .defined, resident := false, pausing := false }).cmdComplete .ok)
/-- Teams that a pre-emption has to take off their cores, and whether one of them still waits (R344). -/
def State.residentOf (s : State) (p : Nat × Team → Bool) : List Nat :=
  (s.teams.filter fun e => e.2.saved.isNone && !(s.keysOf e.1).isEmpty && p e).map fun e => e.1
def State.unready (s : State) (tid : Nat) : Bool := s.copiesTouch tid || s.groups.any fun e => e.2.tid == tid && e.2.moving.isSome
/-- Teams are pre-empted together once none of them waits; until then Freor's turn ends, and the
command runs again at its next. -/
def State.preemptAll (s : State) (tids : List Nat) (k : State → State) : State :=
  if tids.any s.unready then s else k (tids.foldl State.preemptTeam s)
/-- PAUSE: no record starts from then on; the command completes when the VD's teams are saved. A
team whose save does not fit runs on (R419). -/
def execPause (e : CmdEntry) (s : State) : Out :=
  .next (s.vdCommand e [] true true (fun v => v.st == .active || v.pausing) fun vd _ =>
    let s := s.updVd vd fun v => { v with st := .paused, pausing := true }
    s.preemptAll (s.residentOf fun t => t.2.vd == vd) fun s => (s.updVd vd fun v => { v with pausing := false }).cmdComplete .ok)
/-- RESUME. -/
def execResume (e : CmdEntry) (s : State) : Out :=
  .next (s.vdCommand e [] true true (fun v => v.st == .paused) fun vd _ => (s.updVd vd fun v => { v with st := .active }).cmdComplete .ok)

/-! ## PARTITION (R423, R424) -/

structure Part where
  clusters : BitVec 16
  hqBase : Nat
  hqCount : Nat
  hard : Bool
  chgroups : DWord
  coremask : BitVec 256
  deriving DecidableEq, Repr
def partOf (e : CmdEntry) : Part :=
  ⟨BitVec.ofNat 16 (cmdArg e 8 2), cmdArg e 10 2, cmdArg e 12 2, bit (cmdArg e 14 1) 0, BitVec.ofNat 64 (cmdArg e 16 8), BitVec.ofNat 256 (cmdArg e 24 32)⟩
def VD.withPart (v : VD) (p : Part) : VD :=
  { v with clusters := p.clusters, hqBase := p.hqBase, hqCount := p.hqCount, hard := p.hard, chgroups := p.chgroups, coremask := p.coremask }
/-- Whether a hard partition other than `vd` owns a cluster or channel group that a request names. -/
def State.partOwned (s : State) (vd : Nat) (p : Part) : Bool :=
  s.vds.any fun e => e.1 != vd && e.2.st != .free && e.2.hard && (e.2.clusters &&& p.clusters != 0 || e.2.chgroups &&& p.chgroups != 0)
/-- Whether a request takes something from its VD, or changes HARD. -/
def State.partRemoves (s : State) (vd : Nat) (p : Part) : Bool :=
  let v := s.vd vd
  v.hard != p.hard || (v.hard && (v.clusters &&& ~~~p.clusters != 0 || v.chgroups &&& ~~~p.chgroups != 0))
    || !(s.allotment vd).all ((s.updVd vd fun v => v.withPart p).allotment vd).contains
    || (v.hqCount != 0 && !(decide (p.hqBase ≤ v.hqBase) && decide (v.hqBase + v.hqCount ≤ p.hqBase + p.hqCount)))
/-- PARTITION: BUSY where it takes something from a VD with a running context; FORCE kills first
(R423). It takes effect when the teams of other VDs that its clusters displace are saved. -/
def execPartition (e : CmdEntry) (s : State) : Out :=
  let p := partOf e
  let good := decide (p.hqBase < 4096) && decide (p.hqCount ≤ 4096) && decide (p.hqBase + p.hqCount ≤ 4096) && decide (cmdArg e 14 1 < 2)
    && !s.partOwned (cmdVd e) p
  .next (s.vdCommand e [(8, 7), (16, 40)] good false (fun v => v.defined || v.running) fun vd _ =>
    if s.context vd && s.partRemoves vd p && !cmdForce e then s.cmdComplete .busy
    else
      let displaced (t : Nat × Team) : Bool := p.hard && t.2.vd != vd && t.2.cores.any fun c => p.clusters.getLsbD (clusterOf c)
      s.preemptAll (s.residentOf displaced) fun s =>
        ((if cmdForce e then s.killVd vd else s).updVd vd fun v => v.withPart p).reviewSaved.cmdComplete .ok)

/-! ## SETCFG (R434) -/

def cfgIdx (e : CmdEntry) : Nat := cmdArg e 10 2
def cfgVal (e : CmdEntry) : Nat := cmdArg e 16 8
/-- A SETCFG of a VD's item: its index below `n`, its value good, VAL2 zero unless the item takes it. -/
def State.setcfg (s : State) (e : CmdEntry) (n : Nat) (two good : Bool) (allowed : VD → Bool) (f : VD → VD) : State :=
  s.vdCommand e ([(8, 4), (16, 8)] ++ if two then [(24, 8)] else []) (decide (cfgIdx e < n) && good) false allowed fun vd _ =>
    (s.updVd vd f).cmdComplete .ok
/-- Band weight (R376). -/
def execSetcfgWeight (e : CmdEntry) (s : State) : Out :=
  .next (s.setcfg e 4 false (decide (1 ≤ cfgVal e) && decide (cfgVal e ≤ 255)) VD.notFree fun v =>
    { v with weights := mset v.weights (cfgIdx e) (cfgVal e) })
/-- MIN of a weir entry. -/
def weirMin (w : Word) : Nat := fld w.toNat 15 8
def weirSum (w : AMap Word) : Nat := (w.filter fun e => decide (e.1 < 4)).foldl (fun n e => n + weirMin e.2) 0
/-- Whether a weir entry may be set: reserved bits zero, and MIN over the four classes of all
defined VDs at most 256 (R415). -/
def State.weirOk (s : State) (e : CmdEntry) (get : VD → AMap Word) : Bool :=
  let x : Word := BitVec.ofNat 32 (cfgVal e)
  let sum := s.vds.foldl (fun n v => if v.1 = cmdVd e || v.2.st == .free then n else n + weirSum (get v.2)) 0
  decide (cfgVal e < 65536) && decide (sum + weirSum (mset (get (s.vd (cmdVd e))) (cfgIdx e) x) ≤ 256)
/-- HBM weir (R414). -/
def execSetcfgHbmWeir (e : CmdEntry) (s : State) : Out :=
  .next (s.setcfg e 4 false (s.weirOk e VD.hbmWeir) VD.notFree fun v => { v with hbmWeir := mset v.hbmWeir (cfgIdx e) (BitVec.ofNat 32 (cfgVal e)) })
/-- Brixay weir (R414). -/
def execSetcfgBrixayWeir (e : CmdEntry) (s : State) : Out :=
  .next (s.setcfg e 4 false (s.weirOk e VD.brxWeir) VD.notFree fun v => { v with brxWeir := mset v.brxWeir (cfgIdx e) (BitVec.ofNat 32 (cfgVal e)) })
/-- Peer entry (R403). -/
def execSetcfgPeer (e : CmdEntry) (s : State) : Out :=
  .next (s.setcfg e 16 false (decide (cfgVal e < 2 ^ 22)) VD.notFree fun v => { v with peers := mset v.peers (cfgIdx e) (BitVec.ofNat 32 (cfgVal e)) })
/-- GQTBASE (R358): bits [55:8] are used. -/
def execSetcfgGqtbase (e : CmdEntry) (s : State) : Out :=
  .next (s.setcfg e 1 false true VD.notFree fun v => { v with gqtbase := BitVec.ofNat 64 (fld (cfgVal e) 55 8 * 256) })
/-- GROOT (R321). -/
def execSetcfgGroot (e : CmdEntry) (s : State) : Out :=
  .next (s.setcfg e 16 false true VD.notFree fun v => { v with groot := mset v.groot (cfgIdx e) (BitVec.ofNat 64 (cfgVal e)) })
/-- HROOT (R321). -/
def execSetcfgHroot (e : CmdEntry) (s : State) : Out :=
  .next (s.setcfg e 1 false true VD.notFree fun v => { v with hroot := BitVec.ofNat 64 (cfgVal e) })
/-- Whether a remap entry is in range: reserved bits zero, and VEC a vector of its function (R430). -/
def remapOk (x : Nat) : Bool :=
  fld x 7 4 == 0 && decide (x < 2 ^ 14) && (if bit x 3 then decide (1 ≤ fld x 13 8) else decide (fld x 13 8 ≤ 7))
/-- Interrupt remap entry (R430): PEND is the device's own; where MASK is cleared with a posting
waiting, one message is sent. -/
def execSetcfgRemap (e : CmdEntry) (s : State) : Out :=
  let i := cfgIdx e
  .next (s.vdCommand e [(8, 4), (16, 8)] (decide (i < 8) && remapOk (cfgVal e)) false VD.notFree fun vd v =>
    let pend := (mget 0 v.remap i).getLsbD 2
    let x : DWord := BitVec.ofNat 64 (cfgVal e) &&& ~~~4
    let keep := pend && x.getLsbD 0 && x.getLsbD 1
    let s := s.updVd vd fun v => { v with remap := mset v.remap i (if keep then x ||| 4 else x) }
    (if pend && !x.getLsbD 1 then s.postIrq vd i else s).cmdComplete .ok)
/-- MODES, while the VD is DEFINED (R427). -/
def execSetcfgModes (e : CmdEntry) (s : State) : Out :=
  .next (s.setcfg e 1 false (decide (cfgVal e < 32)) VD.defined fun v => { v with modes := BitVec.ofNat 5 (cfgVal e) })
/-- Stack pool, while the VD is DEFINED (R419). -/
def execSetcfgStackPool (e : CmdEntry) (s : State) : Out :=
  let n := cmdArg e 24 8
  let ok := baseOk (cfgVal e) && decide (n < 65536) && s.poolOk (cmdVd e) (cfgVal e, n * 32 * (s.vd (cmdVd e)).stksz)
  .next (s.setcfg e 1 true ok VD.defined fun v => { v with stkpool := cfgVal e, stkslots := n })
/-- Save pool, while the VD is DEFINED (R419). -/
def execSetcfgSavePool (e : CmdEntry) (s : State) : Out :=
  let n := cmdArg e 24 8
  .next (s.setcfg e 1 true (baseOk (cfgVal e) && sizeOk n && s.poolOk (cmdVd e) (cfgVal e, n)) VD.defined fun v =>
    { v with savebase := cfgVal e, savesize := n })
/-- Band slice (R377), held in nanoseconds. -/
def execSetcfgSlice (e : CmdEntry) (s : State) : Out :=
  let good := decide (1 ≤ cfgIdx e) && decide (cfgIdx e ≤ 3) && decide (100 ≤ cfgVal e) && decide (cfgVal e ≤ 1000000)
  .next (s.devCommand e [(8, 4), (16, 8)] good true
    (({ s with slices := mset s.slices (cfgIdx e) (1000 * cfgVal e) } : State).cmdComplete .ok))
/-- Power limit (R432). -/
def execSetcfgPowerLimit (e : CmdEntry) (s : State) : Out :=
  let good := cfgIdx e == 0 && decide (800 ≤ cfgVal e) && decide (cfgVal e ≤ 1600)
  .next (s.devCommand e [(8, 4), (16, 8)] good true (({ s with powerLimit := cfgVal e } : State).cmdComplete .ok))

/-! ## GEN, QBIND, QCTL (R327, R358, R364, R374) -/

/-- GEN: the generation rises; the command completes when the raise does. -/
def execGen (e : CmdEntry) (s : State) : Out :=
  let a := cmdArg e 8 1
  .next (s.vdCommand e [(8, 1)] (decide (a < 16) || a == 31) true VD.running fun vd v =>
    if v.raising.contains a then s else s.updVd vd fun v => { v.raise a with raising := v.raising ++ [a] })
/-- Whether an HQ is bound to another (VD, IQ). -/
def State.hqTaken (s : State) (vd iq hq : Nat) : Bool :=
  s.vds.any fun e => e.2.st != .free && e.2.hqt.any fun x => x.2.getLsbD 0 && fld x.2.toNat 12 1 == hq && !(e.1 == vd && x.1 == iq)
/-- The RLOG for which a binding of an IQ charges slots, and the band requested: of the valid guest
entry that names it, where it is of KIND 1 (R374). -/
def State.chargeOf (s : State) (vd iq : Nat) : Option (Nat × Nat) :=
  match s.entryNaming vd iq 8192 with
  | some (_, g) => if bit g 1 && decide (fld g 23 20 ≤ 10) then some (fld g 23 20, fld g 7 6) else none
  | none => none
/-- An IQ takes an entry, its charge returned and, for `c`, made again. -/
def VD.bindQ (v : VD) (iq x : Nat) (c : Option (Nat × Nat)) : VD :=
  let q : CQueue := mget {} v.conts iq
  { v with hqt := mset v.hqt iq (BitVec.ofNat 64 x)
           conts := match c with
             | some (r, b) => mset v.conts iq { q with charged := some r, band := max b (fld x 15 14) }
             | none => if (mfind v.conts iq).isSome then mset v.conts iq { q with charged := none } else v.conts }
/-- QBIND: the old binding's charge returns before the new one is made. -/
def execQbind (e : CmdEntry) (s : State) : Out :=
  let x := cmdArg e 16 8
  let iq := cmdArg e 8 2
  let v := s.vd (cmdVd e)
  let hq := fld x 12 1
  let good := decide (iq < 4096) && decide (x < 2 ^ 17)
    && (!bit x 0 || (decide (v.hqBase ≤ hq) && decide (hq < v.hqBase + v.hqCount) && !s.hqTaken (cmdVd e) iq hq))
  .next (s.vdCommand e [(8, 2), (16, 8)] good false VD.notFree fun vd _ =>
    let c := if bit x 0 then s.chargeOf vd iq else none
    let room := (s.updVd vd fun v => v.bindQ iq x none).saveRoom vd
    if (match c with | some (r, _) => decide (room < 8192 * 2 ^ r) | none => false) then s.cmdComplete .capacity
    else (s.updVd vd fun v => v.bindQ iq x c).cmdComplete .ok)
/-- The local queue number of the valid guest entry that names a bound IQ. -/
def State.boundLq (s : State) (vd iq : Nat) : Option (Nat × Nat) :=
  if (mget 0 (s.vd vd).hqt iq).getLsbD 0 then s.entryNaming vd iq 8192 else none
/-- A QCTL command on a packet queue whose two entries translate (R359). -/
def State.qctl (s : State) (e : CmdEntry) (f : Nat → QEnt → State) : State :=
  let vd := cmdVd e
  let q := (s.boundLq vd (cmdArg e 8 2)).bind fun b => s.queueOf vd b.1
  let good := decide (cmdArg e 8 2 < 4096) && (match q with | some q => !q.kind | none => false)
  s.vdCommand e [(8, 3)] good true VD.running fun vd _ => match q with | some q => f vd q | none => s
/-- QCTL enable: a DISABLED queue becomes IDLE with every counter at its reset value. A queue in
another state stays as it is. -/
def execQctlEnable (e : CmdEntry) (s : State) : Out :=
  .next (s.qctl e fun vd q =>
    let s := if (s.queue vd q.iq).st = .disabled then (s.updQueue vd q.iq fun _ => { st := .idle, ent := q }).writeStatus vd q.iq else s
    s.cmdComplete .ok)
/-- QCTL resume: a HALTED queue becomes ACTIVE or IDLE. -/
def execQctlResume (e : CmdEntry) (s : State) : Out :=
  .next (s.qctl e fun vd q =>
    let s := if (s.queue vd q.iq).st = .halted then
        (s.updQueue vd q.iq fun p => { p with st := if p.prod = p.fetch then .idle else .active }).writeStatus vd q.iq
      else s
    s.cmdComplete .ok)
/-- QCTL reset, of either kind of queue (R364, R374). -/
def execQctlReset (e : CmdEntry) (s : State) : Out :=
  let iq := cmdArg e 8 2
  .next (s.vdCommand e [(8, 3)] (decide (iq < 4096) && (s.boundLq (cmdVd e) iq).isSome) true VD.running fun vd _ =>
    (s.disableQueue vd iq).cmdComplete .ok)

/-! ## GRANT, COMM, PODNUM (R396, R398, R404) -/

/-- GRANT. -/
def execGrant (e : CmdEntry) (s : State) : Out :=
  let x := cmdArg e 16 16
  let slog := fld x 27 22
  let base := fld x 102 64
  let good := decide (cmdArg e 8 2 < 4096) && fld x 63 28 == 0 && fld x 127 103 == 0 && decide (slog ≤ 23) && base % 2 ^ (16 + slog) == 0
  .next (s.devCommand e [(8, 2), (16, 16)] good true
    (({ s with grants :=
          if bit x 0 then mset s.grants (cmdArg e 8 2) ⟨bit x 1, fld x 11 2, fld x 21 12, slog, base⟩ else mdel s.grants (cmdArg e 8 2) } : State).cmdComplete .ok))
/-- Whether no two of some numbers are equal. -/
def allApart : List Nat → Bool
  | [] => true
  | x :: l => !l.contains x && allApart l
/-- A communicator record's ranks: devices and VDs. -/
def commRanks (bs : List Byte) (n : Nat) : List Nat := (List.range n).map fun r => leNat ((bs.drop (8 + 4 * r)).take 4)
/-- Whether a record may be bound to a VD (R404). -/
def State.commOk (s : State) (vd : Nat) (hd : Nat) (rs : List Nat) : Bool :=
  let me := fld hd 10 1
  fld hd 31 22 == 0 && decide (1 ≤ rs.length) && decide (rs.length ≤ 1024) && decide (me < rs.length) && (rs.all fun r => decide (r < 2 ^ 20))
    && allApart (rs.map fun r => r % 1024) && rs.getD me 0 == s.devNum + vd * 1024
/-- A record binds a communicator, or with V = 0 unbinds it; JSEQ takes its reset value. -/
def VD.bindComm (v : VD) (c hd : Nat) (rs : List Nat) : VD :=
  { v with comms := if bit hd 0 then mset v.comms c ⟨fld hd 10 1, rs.map fun r => (r % 1024, r / 1024), 0⟩ else mdel v.comms c }
/-- COMM: Freor reads the record through a pointer to its length, beyond which NRANK may not lead (R429). -/
def execComm (e : CmdEntry) (s : State) : Out :=
  let a := cmdArg e 16 8
  let n := cmdArg e 12 4
  let hd := s.hostNat a 8
  let nr := fld hd 21 11
  let rs := commRanks ((List.range (8 + 4 * nr)).map fun i => s.hostByte (a + i)) nr
  let good := a % 8 == 0 && n == 8 + 4 * nr && s.commOk (cmdVd e) hd rs
  .next (s.vdCommand e [(8, 2), (12, 12)] good false VD.running fun vd _ =>
    (s.updVd vd fun v => v.bindComm (cmdArg e 8 2) hd rs).cmdComplete .ok)
/-- PODNUM. -/
def execPodnum (e : CmdEntry) (s : State) : Out :=
  .next (s.devCommand e [(8, 2)] (decide (cmdArg e 8 2 < 1024)) (s.vds.all fun v => v.2.st == .free || v.2.st == .defined)
    (({ s with devNum := cmdArg e 8 2 } : State).cmdComplete .ok))

end Sys2Proof.Machine
end

