-- ==== Sys2Proof/Machine/Registers.lean ====
section
/-! DEFINITION. Registers: what a read of a function's BAR returns (R12, R330, R356, R388, R392, R394, R403, R414, R417 to R421, R430). A read changes nothing, so no turn stands for it; a word, and each reserved or write-only field in it, that no line below gives reads as zero (R7, R8, R417, R418). -/
namespace Sys2Proof.Machine

/-- A word of a fault block (R330): RTOKEN and RFAIL, at 0x20, are write-only. -/
def FaultBlock.word (f : FaultBlock) (reg : Nat) : DWord :=
  if reg = 0x00 then ringWord f.fben f.fblog f.fbbase
  else if reg = 0x08 then twoWords f.nextseq f.fbprod
  else if reg = 0x10 then twoWords 0 f.fbcons
  else if reg = 0x18 then twoWords f.ovfcnt (BitVec.ofNat 32 (b2n f.ovfp))
  else if reg = 0x28 then BitVec.ofNat 64 f.heldCount
  else if reg = 0x30 then ringWord f.dlen f.dllog f.dlbase
  else if reg = 0x38 then twoWords f.dlcons f.dlprod
  else if reg = 0x40 then twoWords (BitVec.ofNat 32 f.dlheld.length) (BitVec.ofNat 32 (b2n f.dlfull + b2n f.dlev * 2))
  else 0
/-- A word of an error block (R394). -/
def ErrBlock.word (b : ErrBlock) (reg : Nat) : DWord :=
  if reg = 0x00 then ringWord b.eren b.erlog b.erbase
  else if reg = 0x08 then twoWords b.ercons b.erprod
  else if reg = 0x10 then twoWords 0 b.erlost
  else if reg = 0x18 then twoWords b.rstrdrop b.atomdrop
  else if reg = 0x20 then twoWords b.mbdrop b.kdrops
  else if reg = 0x28 then twoWords 0 b.stale
  else if reg = 0x30 then b.corr
  else 0
/-- The code of a VD's STATE. -/
def VdState.code : VdState → Nat
  | .free => 0 | .defined => 1 | .active => 2 | .paused => 3 | .draining => 4
/-- The VD word (R421). -/
def VD.word (v : VD) : DWord :=
  BitVec.ofNat 64 (v.st.code + b2n v.hard * 8 + v.inc.toNat * 16 + v.stklog * 2 ^ 8 + v.modes.toNat * 2 ^ 12 + b2n v.tlock * 2 ^ 17)
/-- A weir entry: a WEIGHT of 0 reads as 1 (R414). -/
def weirRead (x : Word) : Word := if x.toNat % 256 = 0 then x ||| 1 else x
/-- A word of a VD's control page (R418). -/
def VD.pageWord (v : VD) (reg : Nat) : DWord :=
  let pair (f : Nat → Word) (base : Nat) : DWord := twoWords (f ((reg - base) / 4 + 1)) (f ((reg - base) / 4))
  if reg < 0x100 then v.fault.word reg
  else if reg < 0x200 then v.err.word (reg - 0x100)
  else if reg = 0x200 then v.gqtbase
  else if reg = 0x208 then v.word
  else if 0x300 ≤ reg ∧ reg < 0x340 then pair (mget 0 v.peers) 0x300
  else if 0x340 ≤ reg ∧ reg < 0x350 then pair (fun c => weirRead (mget 16 v.hbmWeir c)) 0x340
  else if 0x350 ≤ reg ∧ reg < 0x360 then pair (fun c => weirRead (mget 16 v.brxWeir c)) 0x350
  else if 0x400 ≤ reg ∧ reg < 0x440 then mget 0 v.remap ((reg - 0x400) / 8)
  else if 0x500 ≤ reg ∧ reg < 0x580 then mget 0 v.groot ((reg - 0x500) / 8)
  else if reg = 0x580 then v.hroot
  else if reg = 0x588 then v.hgen.setWidth 64
  else if 0x590 ≤ reg ∧ reg < 0x5D0 then pair (fun a => (mget 0 v.ggen a).setWidth 32) 0x590
  else if reg = 0x600 then BitVec.ofNat 64 v.stkpool
  else if reg = 0x608 then BitVec.ofNat 64 v.stkslots
  else if reg = 0x610 then BitVec.ofNat 64 v.savebase
  else if reg = 0x618 then BitVec.ofNat 64 v.savesize
  else 0
/-- KASTAT of a core as it is read (R388). -/
def KaStat.word (k : KaStat) : DWord :=
  twoWords k.mism (BitVec.ofNat 32 (k.quad % 4 + k.lane % 32 * 4 + min k.worst 3 * 2 ^ 8 + b2n k.ret * 2 ^ 10))
/-- A word of the management window (R417). -/
def State.mgmtWord (s : State) (reg : Nat) : DWord :=
  if reg = 0x0000 then twoWords 0 s.remapWord
  else if reg = 0x0100 then twoWords 0 (s.inc1 ++ s.inc0 : Word)
  else if reg = 0x0200 then twoWords 0 s.kactl
  else if 0x1000 ≤ reg ∧ reg < 0x1800 then (mget {} s.kastat ((reg - 0x1000) / 8)).word
  else if 0x2000 ≤ reg ∧ reg < 0x2100 then s.err.word (reg - 0x2000)
  else if reg = 0x3000 then ringWord s.cmdEn s.cmdLog s.cmdBase
  else if reg = 0x3008 then twoWords s.cmdCons s.cmdProd
  else if reg = 0x4000 then BitVec.ofNat 64 s.devNum
  else if 0x4100 ≤ reg ∧ reg < 0x4900 then
    let c := (reg - 0x4100) / 8
    BitVec.ofNat 64 (s.usable c 0 + s.usable c 1 * 2 ^ 16 + s.usable c 2 * 2 ^ 32 + s.usable c 3 * 2 ^ 48)
  else 0
/-- The bytes `size` at `off` of the words that `word` gives. -/
def readBytes (word : Nat → DWord) (off size : Nat) : DWord :=
  BitVec.ofNat 64 ((word (off / 8 * 8)).toNat / 2 ^ (8 * (off % 8)) % 2 ^ (8 * size))
/-- What a read of 4 or 8 bytes, aligned to its size, at a BAR offset returns (R417). -/
def State.readRegister (s : State) (bar : Sys2Proof.Bar) (off size : Nat) : DWord :=
  match bar with
  | .pfMgmt => readBytes s.mgmtWord off size
  | .pfPage => readBytes ((s.vd (off / 65536)).pageWord) (off % 65536) size
  | .vfPage vd => readBytes (s.vd vd).pageWord off size
  | .freorMgmt => readBytes s.mgmtWord off size
/-- What a read of a VF's kick page returns (R356). -/
def State.readKickPage (_ : State) (_vd _off _size : Nat) : DWord := 0

end Sys2Proof.Machine
end

