-- ==== Sys2Proof/Machine/Device.lean ====
section
/-! DEFINITION. Device: resets, the loss and replacement of a die, storage errors, known-answer injection, scrubbing, function resets, power, SPDM and TDISP (R12 to R14, R21 to R23, R354, R384 to R392, R416, R426, R430 to R432). -/
namespace Sys2Proof.Machine

/-! ## The remap table and device reset (R12, R14) -/

/-- The shift of a logical die's fields. -/
def dieShift (die : Nat) : Nat := if die = 0 then 0 else 4
/-- The remap word with the OK bit of a die as given. -/
def setOk (w : Word) (die : Nat) (ok : Bool) : Word :=
  let b : Word := BitVec.ofNat 32 (4 * 2 ^ dieShift die)
  if ok then w ||| b else w &&& ~~~b
/-- The table as it loads: the fuses, with OK cleared for the dies on the retirement list. -/
def loadRemap (fuse : Word) (retired : List RetireEntry) : Word :=
  [0, 1].foldl (fun w d => if retired.contains (RetireEntry.die d) then setOk w d false else w) fuse
/-- KASTAT after a reset: RET from the retirement list (R388). -/
def loadKastat (retired : List RetireEntry) : AMap KaStat :=
  retired.foldl (fun m e => match e with | .core c => mset m c { ret := true } | .die _ => m) []
/-- The device after a reset from state `s`: fuses, the retirement list, the device number, Freor's
image and what lies outside the device stay; each die's incarnation rises. DEDUCED. Log entry 26. -/
def State.afterReset (s : State) : State :=
  { State.reset with
    fuse := s.fuse, remapWord := loadRemap s.fuse s.retired, retired := s.retired, kastat := loadKastat s.retired
    inc0 := s.inc0 + 1, inc1 := s.inc1 + 1, devNum := s.devNum, slotsOff := s.slotsOff, remoteGrants := s.remoteGrants
    freorVersion := s.freorVersion, freorDigest := s.freorDigest, rollback := s.rollback, msgs := s.msgs
    mem := { host := s.mem.host, remote := s.mem.remote, remotePoison := s.mem.remotePoison }
    nextTid := s.nextTid, nextId := s.nextId, agenda := s.agenda, freeCtr := s.freeCtr, epoch := s.epoch + 1 }
/-- DEVICE_RESET. -/
def execDeviceReset (s : State) : Out := .next s.afterReset

/-! ## Dies (R14, R21 to R23, R354, R392) -/

/-- INC rises, and the die's clock counts from here (R379). -/
def State.raiseInc (s : State) (die : Nat) : State :=
  let s := if die = 0 then { s with inc0 := s.inc0 + 1 } else { s with inc1 := s.inc1 + 1 }
  { s with dieClk := mset s.dieClk die s.clk, coreClk := s.coreClk.filter fun e => dieOf e.1 != die }
/-- Copy jobs of packets on a die fail, and every engine command of the die is gone. -/
def State.dropEngines (s : State) (die : Nat) : State :=
  let s := (s.copies.filter fun c => c.die == die).foldl (fun s c =>
    let s := s.faultDiscard c.vd fun r => r.origin == Origin.engine c.id
    match c.job with
    | some (iq, idx, _) => s.packetJob c.vd iq idx fun p => p.fail 4 0
    | none => s) s
  let s := (s.binjobs.filter fun b => b.die == die).foldl (fun s b => s.faultDiscard b.vd fun r => r.origin == Origin.engine b.id) s
  { s with copies := s.copies.filter fun c => c.die != die, binjobs := s.binjobs.filter fun b => b.die != die,
           binops := s.binops.filter fun b => b.die != die }
/-- A team with no pending store ends with DIELOST (R354). -/
def State.loseTeam (s : State) (die tid : Nat) : State :=
  let keys := s.keysOf tid
  let s := { s with groups := mmap s.groups fun _ g => if g.tid = tid then { g with sq := [] } else g }
  match keys.head? with
  | none => (s.dropTeamReqs (mget ({} : Team) s.teams tid).vd tid).dropTeam tid
  | some k => s.endTeam k (s.dielost (mget {} s.groups k) die) 0
/-- What a die holds is gone: its caches and translations, writes on their way from its L2, its
engines' commands, and the teams on its cores, with what waits for their names. Writes that have
reached the cistern stand. -/
def State.clearDie (s : State) (die : Nat) : State :=
  let s := s.ackAll
  let s := s.setMem fun m =>
    { m with l1 := m.l1.filter fun c => dieOf c.core != die, l2 := m.l2.filter fun c => c.die != die, fwd := m.fwd.filter fun f => f.die != die }
  let s := { s with tlb := s.tlb.filter fun e => e.die != die }
  let s := ((s.teams.filter fun e => e.2.seated && dieOf (e.2.cores.headD 0) == die).map fun e => e.1).foldl (fun s t => s.loseTeam die t) s
  let s := s.dropEngines die
  s.nakDead
/-- A die's writes that have not reached the cistern are counted as stale: they are discarded (R392). -/
def State.countForwards (s : State) (die : Nat) : State :=
  (s.mem.fwd.filter fun f => f.die == die).foldl (fun s f => s.countStale (some f.write.vd)) s
/-- DIE_RESET: writes that the reset overtakes are discarded and counted (R392). What the die's
teams do is read from R354. DEDUCED. Log entry 26. -/
def execDieReset (die : Nat) (s : State) : Out :=
  .next (if 1 < die then s else ((s.countForwards die).clearDie die).raiseInc die)
/-- Groups of saved teams whose images hold the die take DIELOST as their first event after
restore, and groups on the other die at their next boundary (R354). -/
def State.markLost (s : State) (die : Nat) : State :=
  let holds (g : Group) : Bool := g.tdmask.getLsbD die
  let gone (t : Nat × Team) : Bool := t.2.saved.isSome && s.groups.any fun e => e.2.tid == t.1 && holds e.2
  let tids := (s.teams.filter gone).map fun t => t.1
  let owed := (s.groups.filter fun e => e.2.role != .stream && (mget {} s.teams e.2.tid).saved.isNone && holds e.2).map fun e => e.1
  let s1 := { s with lost := mset s.lost die owed, groups := mmap s.groups fun k g =>
    if (tids.contains g.tid && g.role != .stream) || owed.contains k then { g with errs := s.dielost g die :: g.errs } else g }
  tids.foldl (fun s t => s.reseal (4096 * t)) s1
/-- DIE_LOSS (R14, R354): OK falls, the die joins the retirement list, its teams end. -/
def execDieLoss (die : Nat) (s : State) : Out :=
  .next (if 1 < die || !s.dieOk die then s
    else
      let s := { s with remapWord := setOk s.remapWord die false, retired := if s.retired.contains (RetireEntry.die die) then s.retired else s.retired ++ [RetireEntry.die die] }
      let s := (s.errRecord { die := die, sev := 1, cause := 16, td0 := BitVec.ofNat 32 (4 * 2 ^ die + (s.incOf die).toNat * 16) }).1
      (((s.countForwards die).clearDie die).markLost die).reviewSaved)
/-- The fuses and the table once the spare is burned into a die. -/
def burnSpare (w : Word) (die : Nat) : Word :=
  let spr := fld w.toNat 9 8
  let sh := dieShift die
  BitVec.ofNat 32 (w.toNat - fld w.toNat (sh + 1) sh * 2 ^ sh + spr * 2 ^ sh) &&& ~~~0x400 ||| 0x800
/-- Whether promotion of a die waits no more: every group that owed a DIELOST trap has taken it,
has ended, or has been saved with it. -/
def State.lossSettled (s : State) (die : Nat) : Bool :=
  (mget [] s.lost die).all fun k => match mfind s.groups k with
    | some g => (mget {} s.teams g.tid).saved.isSome || !g.errs.any fun c => c.cause == 16
    | none => true
/-- Whether a die is lost: it is on the retirement list, also after a device reset, or its loss is still being settled. -/
def State.isLost (s : State) (die : Nat) : Bool := s.retired.contains (RetireEntry.die die) || (mfind s.lost die).isSome
/-- SPARE_PROMOTION (R14). -/
def execSparePromotion (die : Nat) (s : State) : Out :=
  .next (if 1 < die || s.dieOk die || !s.isLost die || !s.remapWord.getLsbD 10 || !s.lossSettled die then s
    else
      let s := { s with fuse := burnSpare s.fuse die, remapWord := burnSpare s.remapWord die }.raiseInc die
      let s := { s with retired := s.retired.filter fun e => e != RetireEntry.die die, remapWord := setOk s.remapWord die true, lost := mdel s.lost die }
      (s.errRecord { die := die, sev := 1 }).1.reviewSaved)
/-- STALE_RESPONSE (R392). -/
def execStaleResponse (r : StaleMsg) (s : State) : Out := .next (if r.inc = s.incOf r.die then s else s.countStale r.vd)

/-! ## Storage errors (R384, R385) -/

/-- A record of an uncorrectable error: severity 1. -/
def State.storeError (s : State) (cls : Nat) (vd : Option Nat) (die addr : Nat) : State :=
  (s.errRecord { cls := cls, sev := 1, die := die, vd := vd, addr := BitVec.ofNat 64 addr }).1
/-- A record of an error in a register of a group. -/
def State.groupError (s : State) (cls : Nat) (g : Group) : State :=
  (s.errRecord { cls := cls, sev := 1, die := dieOf g.core, vd := some g.vd, gname := g.gname, core := g.core }).1
/-- A group that is on its core; an error in registers strikes no other. -/
def State.onCoreGroup (s : State) (key : Nat) : Option Group :=
  match mfind s.groups key with
  | some g => if (mget {} s.teams g.tid).saved.isNone then some g else none
  | none => none
/-- The words of an uncorrectable register error: tag 0b01 and a free value in each lane hit; in a
compressed register, in every lane. -/
def Group.strikeV (g : Group) (reg : Nat) (lanes : Word) (free : Nat → DWord) : Group :=
  let r := g.vreg reg
  let hit : Word := match r.val with | .general _ => if reg < g.ngen then lanes else 0xFFFFFFFF | _ => 0xFFFFFFFF
  let ws := (List.range 32).map fun l => if hit.getLsbD l then (free l).setWidth 32 else r.val.words.getD l 0
  let val : Shape := if reg < g.ngen then .general ws else .uniform ((free 0).setWidth 32)
  { g with v := mset g.v reg { val := val, dp := r.dp ||| hit, fp := r.fp &&& ~~~hit } }
/-- HWERR in a group: of an error in its own state, pending until its next boundary; of one in a
structure that several VDs share, the end of its team. -/
def State.hwerr (s : State) (cls : Nat) (shared : Bool) (seq : Word) (key : Nat) : State :=
  match mfind s.groups key with
  | none => s
  | some g =>
    let c : Pending := { cause := 15, td0 := seq, td1 := BitVec.ofNat 32 cls, td2 := 0 }
    if shared then (s.endTeam key c 0).nakDead else (s.setGroup key { g with errs := g.errs ++ [c] }).reseal key
/-- A sector of local HBM in which an uncorrectable error has been found. -/
def State.markSector (s : State) (sector : Nat) : State := s.setMem fun m => { m with hbmPoison := sins m.hbmPoison sector }
/-- UNCORRECTABLE_ERROR: the mark of the store that is hit, and its record; or a corrected error, which is counted. -/
def execUncorrectableError (site : ErrSite) (s : State) : Out :=
  .next (match site with
    | .vreg key reg lanes =>
      match s.onCoreGroup key with
      | some g => if g.ngen + g.ncmp ≤ reg then s else ((s.setGroup key (g.strikeV reg lanes s.free)).bumpFree).groupError 1 g
      | none => s
    | .sreg key reg =>
      match s.onCoreGroup key with
      | some g => if 64 ≤ reg then s else (s.setGroup key { g with s := mset g.s reg ⟨s.free 0, .poison⟩ }).bumpFree.groupError 2 g
      | none => s
    | .preg key reg =>
      match s.onCoreGroup key with
      | some g => if 16 ≤ reg then s else (s.setGroup key { g with p := mset g.p reg ⟨(s.free 0).setWidth 32, 0xFFFFFFFF, 0⟩ }).bumpFree.groupError 2 g
      | none => s
    | .tileRow tid core row =>
      match mfind s.teams tid with
      | some t => if 512 ≤ row then s else (s.setPb (tileRow tid core row) true).storeError 5 (some t.vd) (dieOf (t.cores.headD 0)) 0
      | none => s
    | .scratch tid core sector =>
      match mfind s.teams tid with
      | some t =>
        if 1024 ≤ sector then s
        else (s.setMem fun m => { m with scratchPoison := sins m.scratchPoison (sectorOf (scratchAddr tid core (256 * sector))) }).storeError
          6 (some t.vd) (dieOf (t.cores.headD 0)) 0
      | none => s
    | .laneTags key reg =>
      match s.onCoreGroup key with
      | some g =>
        if g.ngen + g.ncmp ≤ reg then s
        else (s.setGroup key { g with v := mset g.v reg { g.vreg reg with dp := 0xFFFFFFFF, fp := 0 } }).groupError 2 g
      | none => s
    | .sector c vd => if 2 ^ 31 ≤ c then s else (s.markSector c).storeError 10 vd 3 (256 * c)
    | .latent c => if 2 ^ 31 ≤ c then s else s.setMem fun m => { m with damaged := sins m.damaged c }
    | .cistern c vd => if 2 ^ 31 ≤ c then s else (s.markSector c).storeError 9 vd 3 (256 * c)
    | .l2Copy die c =>
      match s.mem.l2Find die c with
      | some x =>
        (s.setMem fun m => { m with l2 := m.l2.map fun y => if y.die == die && y.sector == c then { y with poison := true, pdirty := y.pdirty || y.dirty != [] } else y }).storeError
          8 (some x.vd) die (256 * c)
      | none => s
    | .l1Copy core c =>
      match s.mem.l1.find? fun y => y.core == core && y.sector == c with
      | some x =>
        (s.setMem fun m => { m with l1 := m.l1.filter fun y => !(y.core == core && y.sector == c) }).storeError 7 (some x.vd) (dieOf core) (256 * c)
      | none => s
    | .saveImage tid =>
      match mfind s.teams tid with
      | some t =>
        match t.saved with
        | some v => (s.updTeam tid fun t => { t with saved := some { v with sealOk := false } }).storeError 10 (some t.vd) 3 v.addr
        | none => s
      | none => s
    | .untagged keys cls vd =>
      let (s, seq) := s.errRecord { cls := cls, sev := 1, vd := vd, die := match keys.head? with | some k => dieOf (mget {} s.groups k).core | none => 3 }
      keys.foldl (fun s k => s.hwerr cls vd.isNone seq k) s
    | .corrected vd => s.updErr vd fun b => { b with corr := if b.corr = 0xFFFFFFFFFFFFFFFF then b.corr else b.corr + 1 })

/-! ## Known-answer injection (R388, R389) -/

/-- A mismatch in KASTAT. -/
def KaStat.mismatch (k : KaStat) (quad lane : Nat) : KaStat :=
  let n := mget 0 k.counts (32 * quad + lane) + 1
  { k with quad := quad, lane := lane, mism := satInc k.mism, worst := min 3 (max k.worst n), counts := mset k.counts (32 * quad + lane) n }
/-- Freor retires a core (R389): its teams are pre-empted, those that still wait by a later PREEMPT. -/
def State.retireCore (s : State) (core : Nat) : State :=
  let s := { s with retired := s.retired ++ [RetireEntry.core core], kastat := mupd {} s.kastat core fun k => { k with ret := true } }
  let s := (s.errRecord { cls := 17, sev := 1, die := dieOf core, core := core }).1
  let s := s.stopMoves core
  ((s.residentOf fun t => t.2.cores.contains core).foldl State.preemptTeam s).reviewSaved
/-- KA_INJECTION. -/
def execKaInjection (k : KaResult) (s : State) : Out :=
  .next (if !s.kactl.getLsbD 0 || !k.mismatch || 256 ≤ k.core || 4 ≤ k.quad || 32 ≤ k.lane then s
    else
      let s := { s with kastat := mupd {} s.kastat k.core fun x => x.mismatch k.quad k.lane }
      let s := (s.errRecord { cls := 17, sev := 1, die := dieOf k.core, core := k.core }).1
      let x := mget {} s.kastat k.core
      if x.worst = 3 && !x.ret then s.retireCore k.core else s)

/-! ## Scrubbing (R390, R391) -/

/-- SCRUB_SECTOR: the scrubber's read, which also finds the damage of a sector that nothing has
found; what it has to write waits for SCRUB_WRITE. -/
def execScrubSector (sector : Nat) (found : ScrubFound) (s : State) : Out :=
  .next (if 2 ^ 31 ≤ sector then s
    else match (if s.mem.damaged.contains sector then .uncorrectable else found) with
      | .clean => s
      | .correctable =>
        (s.setMem fun m => { m with scrubRead := mset m.scrubRead sector false }).updErr none fun b =>
          { b with corr := if b.corr = 0xFFFFFFFFFFFFFFFF then b.corr else b.corr + 1 }
      | .uncorrectable => (s.setMem fun m => { m with scrubRead := mset m.scrubRead sector true, damaged := sins m.damaged sector }).storeError 18 none 3 (256 * sector))
/-- SCRUB_WRITE: dropped where a write has been performed since the read. -/
def execScrubWrite (sector : Nat) (s : State) : Out :=
  .next (match mfind s.mem.scrubRead sector with
    | none => s
    | some bad =>
      let s := s.setMem fun m => { m with scrubRead := mdel m.scrubRead sector }
      if bad then (s.setMem fun m => { m with damaged := sdel m.damaged sector }).markSector sector else s)

/-! ## Function resets and power (R416, R426, R432) -/

/-- A KILL of a VD that has no command behind it; the state returns to the one before (R425). -/
def State.flr (s : State) (vd : Nat) : State :=
  if (s.vd vd).running then s.killVd vd
  else if (s.vd vd).st = .draining then
    let st := ((s.vd vd).drainFrom).getD .active
    (s.killVd vd).updVd vd fun v => { v with st := st, drainFrom := none }
  else s
/-- VF_FLR: KILL, or source 7 where the host assists. -/
def execVfFlr (vd : Nat) (s : State) : Out :=
  .next (if (s.vd vd).modes.getLsbD 3 then s.postIrq vd 7 else (s.flr vd).reviewSaved)
/-- PF_FLR: every VD is killed and the command ring disabled. -/
def execPfFlr (s : State) : Out :=
  let s := ((s.vds.map fun e => e.1).foldl State.flr s).reviewSaved
  .next { s with cmdEn := false, cmdLog := 0, cmdBase := 0, cmdProd := 0, cmdCons := 0 }
/-- D3HOT_ENTRY: every ACTIVE VD is paused; teams that still wait are saved by a later PREEMPT. -/
def execD3hotEntry (s : State) : Out :=
  .next (match s.d3Paused with
    | some _ => s
    | none =>
      let vs := s.activeVds
      let s := { s with d3Paused := some vs, vds := mmap s.vds fun _ (v : VD) => if v.st = VdState.active then { v with st := VdState.paused } else v }
      (s.residentOf fun t => vs.contains t.2.vd).foldl State.preemptTeam s)
/-- D0_RETURN: the VDs that D3hot paused run again. -/
def execD0Return (s : State) : Out :=
  .next (match s.d3Paused with
    | none => s
    | some vs =>
      { s with d3Paused := none, vds := mmap s.vds fun n (v : VD) => if vs.contains n && v.st == VdState.paused && !v.pausing then { v with st := VdState.active } else v })
/-- THERMAL_THROTTLE: one step of 25 MHz down from 1.9 GHz, at 105 °C or above the power limit. -/
def execThermalThrottle (junction watts : Nat) (s : State) : Out :=
  .next (if (105 ≤ junction ∨ s.powerLimit < watts) ∧ s.clockSteps < 75 then { s with clockSteps := s.clockSteps + 1 } else s)
/-- THERMAL_STOP: at 115 °C. -/
def execThermalStop (junction : Nat) (s : State) : Out :=
  .next (if 115 ≤ junction then { s with stopped := true, msgs := s.msgs ++ [.aer] } else s)

/-! ## SPDM (R431)

The order of requests, their codes and the bytes of responses are SPDM 1.3's. PRESUMED. Log entry 15. -/

/-- A response, and an ERROR response. -/
def State.spdmAnswer (s : State) (code : Nat) (q : SpdmReq) (given : List Byte) : State :=
  ({ s with msgs := s.msgs ++ [.spdm (Config.spdmResponse code q.session q.param (q.body ++ given) s.freeCtr)] } : State).bumpFree
def State.spdmError (s : State) (q : SpdmReq) : State := s.spdmAnswer 0x7F q []
/-- A request that needs the algorithms negotiated. -/
def State.spdmReady (s : State) (code : Nat) (q : SpdmReq) (given : List Byte) : State :=
  if s.spdm.algs then s.spdmAnswer code q given else s.spdmError q
/-- A request inside the session. -/
def State.spdmIn (s : State) (q : SpdmReq) (finished : Bool) (k : State) : State :=
  if s.spdm.session = some q.session && s.spdm.finished == finished then k else s.spdmError q
/-- GET_VERSION starts the connection anew. -/
def execGetVersion (q : SpdmReq) (s : State) : Out := .next ({ s with spdm := { version := true } }.spdmAnswer 0x04 q [])
def execGetCapabilities (q : SpdmReq) (s : State) : Out :=
  .next (if s.spdm.version then { s with spdm := { s.spdm with caps := true } }.spdmAnswer 0x61 q [] else s.spdmError q)
def execNegotiateAlgorithms (q : SpdmReq) (s : State) : Out :=
  .next (if s.spdm.caps then { s with spdm := { s.spdm with algs := true } }.spdmAnswer 0x63 q [] else s.spdmError q)
def execGetDigests (q : SpdmReq) (s : State) : Out := .next (s.spdmReady 0x01 q [])
/-- GET_CERTIFICATE: slot 0 holds the identity key's certificate. -/
def execGetCertificate (q : SpdmReq) (s : State) : Out := .next (if q.param = 0 then s.spdmReady 0x02 q [] else s.spdmError q)
/-- CHALLENGE: signed with Ed448 by the key of slot 0. -/
def execChallenge (q : SpdmReq) (s : State) : Out := .next (if q.param = 0 then s.spdmReady 0x03 q [] else s.spdmError q)
/-- The bytes that a measurement digests (R431), but for the Freor image, whose digest is kept. -/
def State.measured (s : State) (i : Nat) : List Byte :=
  if i = 1 then Config.bootRom
  else if i = 3 then leBytes 4 s.remapWord.toNat ++ s.retired.flatMap fun e => match e with | .die d => leBytes 4 d | .core c => leBytes 4 (256 + c)
  else if i = 4 then
    leBytes 4 s.devNum ++ s.vds.flatMap fun e =>
      leBytes 4 e.1 ++ leBytes 4 (b2n e.2.hard) ++ leBytes 4 e.2.clusters.toNat ++ leBytes 32 e.2.coremask.toNat ++ leBytes 8 e.2.chgroups.toNat
        ++ leBytes 4 e.2.hqBase ++ leBytes 4 e.2.hqCount
  else if 16 ≤ i then
    let v := s.vd (i - 16)
    leBytes 8 v.word.toNat ++ leBytes 8 v.hroot.toNat ++ ((List.range 16).flatMap fun a => leBytes 8 (mget 0 v.groot a).toNat)
      ++ (List.range 16).flatMap fun k => leBytes 4 (mget 0 v.peers k).toNat
  else []
/-- The measurement of an index: a 64-byte SHAKE256 digest. -/
def State.measurement (s : State) (i : Nat) : List Byte :=
  if i = 2 then s.freorDigest.getD Config.freorDigest else Config.shake256 (s.measured i)
/-- GET_MEASUREMENTS: the measurement of one index. -/
def execGetMeasurements (q : SpdmReq) (s : State) : Out := .next (s.spdmReady 0x60 q (s.measurement q.param))
def execKeyExchange (q : SpdmReq) (s : State) : Out :=
  .next (if s.spdm.algs && s.spdm.session.isNone then { s with spdm := { s.spdm with session := some q.session, finished := false, keyUpdates := 0 } }.spdmAnswer 0x64 q []
    else s.spdmError q)
def execFinish (q : SpdmReq) (s : State) : Out :=
  .next (s.spdmIn q false ({ s with spdm := { s.spdm with finished := true } }.spdmAnswer 0x65 q []))
def execKeyUpdate (q : SpdmReq) (s : State) : Out :=
  .next (s.spdmIn q true ({ s with spdm := { s.spdm with keyUpdates := s.spdm.keyUpdates + 1 } }.spdmAnswer 0x69 q []))
def execEndSession (q : SpdmReq) (s : State) : Out :=
  .next (s.spdmIn q true ({ s with spdm := { s.spdm with session := none, finished := false } }.spdmAnswer 0x6C q []))
/-- IDE_KM_KEY_PROGRAMMING: stream 0 is the link stream, 1 to 8 are selective (R416). -/
def execIdeKmKeyProgramming (session stream : Nat) (key : BitVec 256) (s : State) : Out :=
  .next (if s.spdm.session = some session ∧ s.spdm.finished ∧ stream ≤ 8 then
      { s with ide := s.ide.filter (fun e => e.2.1 != stream) ++ [(session, stream, key)] } else s)

/-! ## TDISP (R416, R421, R422, R431) -/

/-- LOCK_INTERFACE_REQUEST: TLOCK is set. -/
def execLockInterfaceRequest (vd : Nat) (s : State) : Out :=
  .next (if vd < 1024 ∧ (s.vd vd).tdi = .unlocked then s.updVd vd fun v => { v with tdi := .locked } else s)
/-- START_INTERFACE_REQUEST: from CONFIG_LOCKED to RUN. -/
def execStartInterfaceRequest (vd : Nat) (s : State) : Out :=
  .next (if (s.vd vd).tdi = .locked then s.updVd vd fun v => { v with tdi := .run } else s)
/-- STOP_INTERFACE_REQUEST performs KILL; the TDI is then unlocked. PRESUMED. Log entry 15. -/
def execStopInterfaceRequest (vd : Nat) (s : State) : Out :=
  .next (if vd < 1024 then ((s.flr vd).updVd vd fun v => { v with tdi := .unlocked }).reviewSaved else s)
/-- INTERFACE_REPORT_REQUEST: the report lists VF BAR0 and BAR2. -/
def execInterfaceReportRequest (vd : Nat) (s : State) : Out :=
  .next (if (s.vd vd).tlock then { s with msgs := s.msgs ++ [.tdiReport vd [0, 2]] } else s)

/-! ## Freor's own acts (R389, R426, R430, R431) -/

/-- FREOR_IMAGE_LOAD: a valid signature and a version not below the rollback counter. -/
def execFreorImageLoad (img : FreorImage) (s : State) : Out :=
  .next (if Config.signatureOk img.digest img.signature && decide (s.rollback ≤ img.version) then
      { s with freorVersion := img.version, freorDigest := some img.digest } else s)
/-- RETIREMENT_LIST_CLEAR: what the entry retired is in service from the next device reset. -/
def execRetirementListClear (x : RetireEntry) (s : State) : Out := .next { s with retired := s.retired.filter fun e => e != x }
/-- FREOR_COLLECTIVE_SETUP: in hardware mode, a communicator that COMM would bind. -/
def execFreorCollectiveSetup (vd cnum : Nat) (cr : CommRec) (s : State) : Out :=
  let rs := cr.ranks.map fun r => r.1 % 1024 + r.2 % 1024 * 1024
  .next (if (s.vd vd).running && !(s.vd vd).modes.getLsbD 4 && decide (cnum < 65536) && decide (cr.myRank < 1024) && s.commOk vd (1 + cr.myRank * 2) rs then
      s.updVd vd fun v => v.bindComm cnum (1 + cr.myRank * 2) rs else s)
/-- MSIX_VECTOR_UNMASK: `func` 0 is the PF, n + 1 the VF of VD n. -/
def execMsixVectorUnmask (func vec : Nat) (s : State) : Out :=
  let vf := if func = 0 then none else some (func - 1)
  let v := s.vector vf vec
  .next (if 1024 < func ∨ (if func = 0 then 64 else 8) ≤ vec then s
    else
      let s := s.setVector { v with mask := false, pend := false }
      if v.mask && v.pend then s.sendMsix vf vec else s)

end Sys2Proof.Machine
end

