-- ==== Sys2Proof/Machine/Lane.lean ====
section
/-! DEFINITION. Lane: predicate logic, votes and exchanges between lanes (R169 to R175). -/
namespace Sys2Proof.Machine

/-- The bit mask of a predicate source: bit 0 of each lane. -/
def Src.mask (x : Src) : Word := maskOf fun l => (x.lo.lane l).getLsbD 0
/-- A predicate operation on whole masks (R170). -/
def State.predOp (s : State) (o : Ops) (f : Word → Word → Word) : State :=
  let a := s.srcA o false
  let b := s.srcB o false
  s.putP o.d (f a.mask b.mask) (a.dp ||| b.dp) (a.fp ||| b.fp)
def execPand (o : Ops) (s : State) : Out := .next (s.predOp o fun x y => x &&& y)
def execPor (o : Ops) (s : State) : Out := .next (s.predOp o fun x y => x ||| y)
def execPxor (o : Ops) (s : State) : Out := .next (s.predOp o fun x y => x ^^^ y)
def execPnot (o : Ops) (s : State) : Out :=
  let a := s.srcA o false
  .next (s.putP o.d (~~~a.mask) a.dp a.fp)
/-- PMOVS reads all 32 lanes (R171). -/
def execPmovs (o : Ops) (s : State) : Out :=
  let a := s.srcA o false
  .next (s.putS o.d (a.mask.setWidth 64) (tagOver a.dp a.fp 0xFFFFFFFF))
def execPmovp (o : Ops) (s : State) : Out :=
  let a := s.uniA o
  .next (s.putP o.d (a.val.setWidth 32) (allLanes (a.tag = .poison)) (allLanes (a.tag = .pending)))
/-- VOTE over the active lanes (R172). -/
def execVote (vm : VoteMode) (o : Ops) (s : State) : Out :=
  let a := s.srcA o false
  let act := s.iss.act
  let m := a.mask &&& act
  let t := tagOver a.dp a.fp act
  let put (v : Bool) : State := s.putP o.d (allLanes v) (allLanes (t = .poison)) (allLanes (t = .pending))
  .next (match vm with
    | .ballot => s.putS o.d (m.setWidth 64) t
    | .any => put (m != 0)
    | .all => put (m == act)
    | .uni => put (m == 0 || m == act))

/-- The lane that LXCH reads for a lane (R173). -/
def lxchLane (xm : XchMode) (w : Nat) (wrp : Bool) (lane k : Nat) : Nat :=
  let base := lane - lane % w
  let i := lane % w
  let j : Int := match xm with
    | .abs => k
    | .sub => (i : Int) - k
    | .add => i + k
    | .xor => (Nat.xor i (k % w) : Nat)
  if 0 ≤ j ∧ j < w then base + j.toNat else if wrp then base + (j % (w : Int)).toNat else lane
/-- A 32-bit or 64-bit result, lane by lane, with its tags: one register or a pair. -/
def State.putLanes (s : State) (o : Ops) (is64 : Bool) (uniform : Bool) (val : Nat → Nat) (dp fp : Word) : State :=
  let sh (k : Nat) : Shape :=
    if uniform then .uniform (BitVec.ofNat 32 (val 0 / 2 ^ (32 * k)))
    else .general ((List.range 32).map fun l => BitVec.ofNat 32 (val l / 2 ^ (32 * k)))
  s.putV is64 (if is64 then [s.destW o.d 0 (sh 0) dp fp, s.destW o.d 1 (sh 1) dp fp] else [s.destW o.d 0 (sh 0) dp fp])
/-- LXCH (R173). -/
def execLxch (ty : Ty) (xm : XchMode) (wid : BitVec 3) (wrap : Bool) (o : Ops) (s : State) : Out :=
  let a := s.srcA o ty.is64
  let b := s.srcB o false
  let from' (l : Nat) : Nat := lxchLane xm (2 ^ wid.toNat) wrap l (b.w l)
  .next (s.putLanes o ty.is64 false (fun l => a.at ty.is64 (from' l))
    (maskOf fun l => a.dp.getLsbD (from' l) || b.dp.getLsbD l) (maskOf fun l => a.fp.getLsbD (from' l) || b.fp.getLsbD l))
/-- RDLANE (R174). -/
def execRdlane (ty : Ty) (o : Ops) (s : State) : Out :=
  let a := s.srcA o ty.is64
  let b := s.uniB o
  let j := b.val.toNat % 32
  .next (s.putS o.d (BitVec.ofNat 64 (a.at ty.is64 j)) ((a.tag j).join b.tag))
/-- WRLANE: only lane j executes, and the result is general (R174). -/
def execWrlane (ty : Ty) (o : Ops) (s : State) : Out :=
  let a := s.uniA o
  let b := s.uniB o
  let one : Word := BitVec.ofNat 32 (2 ^ (b.val.toNat % 32))
  let t := a.tag.join b.tag
  .next (if s.iss.act &&& one = 0 then s.finish
    else { s with iss := { s.iss with act := one } }.putLanes o ty.is64 false (fun _ => a.val.toNat)
      (allLanes (t = Tag.poison)) (allLanes (t = Tag.pending)))
/-- MATCH over the active lanes (R175). -/
def execMtch (ty : Ty) (all : Bool) (o : Ops) (s : State) : Out :=
  let a := s.srcA o ty.is64
  let act := s.iss.act
  let t := tagOver a.dp a.fp act
  let same (l : Nat) : Word := act &&& maskOf fun j => a.at ty.is64 j == a.at ty.is64 l
  let dp := allLanes (t = .poison)
  let fp := allLanes (t = .pending)
  .next (if all then s.putP o.d (maskOf fun l => same l == act) dp fp
    else s.putLanes o false (a.lo.isUniform && (!ty.is64 || a.hi.isUniform)) (fun l => (same l).toNat) dp fp)

end Sys2Proof.Machine
end

