-- ==== Sys2Proof/Machine/Tile.lean ====
section
/-! DEFINITION. Tile: transfers between vector registers and tile rows, and the barrier-object instructions (R241, R242, R280 to R283, R295 to R300). -/
namespace Sys2Proof.Machine

/-! ## Tile transfers (R295, R296) -/

/-- Where word `j` of a lane lies: the row of the reservation and the word in it. -/
def tileAt (w : Nat) (col : Bool) (j lane : Nat) : Nat × Nat :=
  if col then (tileRow' w + lane, tileCol w + j) else (tileRow' w, tileCol w + 32 * j + lane)
/-- The check of R296 on a tile address word: its reserved bits, then the rows and words of the
active lanes. -/
def State.tileRefused (s : State) (w cnt : Nat) (col : Bool) : Option Pending :=
  let act := s.iss.act
  let rows := s.team.tile / 1024
  if tileBad w then some (permCause w (lowLane act) 5)
  else
    ((lanesOf act).find? fun l => let x := tileAt w col (cnt - 1) l; decide (rows ≤ x.1) || decide (255 < x.2)).map fun l => permCause w l 5
/-- Whether a row lies in the accumulator region of a step whose B windows are not released (R241). -/
def Team.windowRow (t : Team) (row : Nat) : Option Nat := (t.windows.find? fun m => fld m.cw.toNat 8 0 / 128 == row / 128).map fun m => fld m.cw.toNat 8 0
/-- Rows of a core's reservation take undefined words from word `lo` to word `hi`. -/
def State.spoilRows (s : State) (tid tcore first n lo hi : Nat) : State :=
  ((List.range n).foldl (fun (s : State) i =>
    let row := tileRow tid tcore (first + i)
    s.writeTile row (4 * lo) ((List.range (hi - lo)).flatMap fun k => leBytes 4 (s.free (row * 256 + lo + k)).toNat)) s).bumpFree
/-- Group `key` reads tile rows of its core: releases that it makes later carry what it finds there (R233). -/
def State.readRows (s : State) (tid tcore key : Nat) (rows : List Nat) : State :=
  { s with marks := s.marks.map fun m =>
      match m.what with
      | .tile c r _ _ => if m.tid == tid && c == tcore && rows.contains r then { m with seen := addCarrier m.seen (.agent key) } else m
      | _ => m }
/-- TLD. -/
def execTld (_ty : Ty) (cnt1 : BitVec 3) (col : Bool) (o : Ops) (s : State) : Out :=
  let cnt := cnt1.toNat + 1
  let a := s.uniA o
  let w := a.val.toNat
  .next (s.ifActive fun s =>
    let act := s.iss.act
    let g := s.grp
    let general : Shape := .general []
    match g.refusedReg act false ((destRegs o cnt).map fun r => ⟨r, general, 0, 0⟩) with
    | some r => s.trap (shapeCause r (!g.whole act) false act) .fresh
    | none =>
      s.consume 0 0 [a.consumed o.a act] fun s =>
        match s.tileRefused w cnt col with
        | some c => s.trap c .fresh
        | none =>
          let t := s.team
          let word (j l : Nat) : Word :=
            let x := tileAt w col j l
            if (t.windowRow x.1).isSome then (s.free (32 * j + l)).setWidth 32 else s.tileWord (tileRow g.tid g.tcore x.1) x.2
          let poison (j : Nat) : Word := maskOf fun l => s.pb (tileRow g.tid g.tcore (tileAt w col j l).1)
          let ws := (List.range cnt).map fun j => s.destW o.d j (.general ((List.range 32).map (word j))) (poison j) 0
          let s := s.readRows g.tid g.tcore s.iss.key ((lanesOf act).flatMap fun l => (List.range cnt).map fun j => (tileAt w col j l).1)
          ((s.updGrp fun g => ws.foldl (fun g x => g.writeV act x) g).bumpFree).finish)
/-- TST. A write into an accumulator region between the step's issue and its MWAIT leaves the region undefined (R241). -/
def execTst (_ty : Ty) (cnt1 : BitVec 3) (col : Bool) (o : Ops) (s : State) : Out :=
  let cnt := cnt1.toNat + 1
  let a := s.uniA o
  let w := a.val.toNat
  let xs := (List.range cnt).map fun j => s.srcBfield o false j
  .next (s.ifActive fun s =>
    let act := s.iss.act
    let g := s.grp
    s.consume 0 0 [a.consumed o.a act] fun s =>
      match s.tileRefused w cnt col with
      | some c => s.trap c .fresh
      | none =>
        s.consume 0 0 (xs.zipIdx.map fun e => ⟨o.b.code + e.2, 0, e.1.fp ||| s.iss.gfp, act⟩) fun s =>
          let cells := (lanesOf act).flatMap fun l => xs.zipIdx.map fun e => (tileAt w col e.2 l, e.1.w l, (e.1.dp ||| s.iss.gdp).getLsbD l)
          let at' (r : Nat) : Nat := tileRow g.tid g.tcore r
          let s := cells.foldl (fun s c =>
            let s := s.writeTile (at' c.1.1) (4 * c.1.2) (leBytes 4 c.2.1)
            if c.2.2 then s.setPb (at' c.1.1) true else s) s
          let s := if !col && tileCol w == 0 && cnt == 8 && act == s.iss.xm && !(cells.any fun c => c.2.2) then s.setPb (at' (tileRow' w)) false else s
          let rows := cells.foldl (fun l c => sins l c.1.1) []
          let s := s.markDirty g.tid (some (.agent s.iss.key)) (cells.map fun c => .tile g.tcore c.1.1 (4 * c.1.2) 4)
          let regions := (rows.filterMap s.team.windowRow).foldl sins []
          (regions.foldl (fun s r => s.spoilRows g.tid g.tcore r 128 0 256) s).finish)

/-! ## Barrier objects (R297 to R300) -/

/-- The detail of a BARRIER trap on an object (R336). -/
def State.mbCause (s : State) (ea : Nat) (at' reason : Nat) : Pending :=
  let o := s.mbRead at'
  let o := if s.mbInit at' then o else { o with acnt := 0, arr := 0, ph := false }
  { cause := 11, td0 := BitVec.ofNat 32 (2 * 16 + b2n o.ph * 128 + o.arr * 65536), td1 := BitVec.ofNat 32 (o.acnt + reason * 65536), td2 := lo32 ea }
/-- An MB instruction checks its object address under steps 2 to 6 of R248, with scratchpad as
the only window; other operands are consumed as barrier-object operands (R383). -/
def State.onObject (s : State) (o : Ops) (acc : Nat) (others : List Consumed) (k : State → Nat → State) : State :=
  let a := s.uniA o
  let ea := a.val.toNat
  let act := s.iss.act
  s.ifActive fun s =>
    s.consume 0 0 [a.consumed o.a act] fun s =>
      s.consume 5 0 others fun s =>
        let m : Access := { n := 16, acc := acc, sc := .core, acq := false, rel := false, win := .scratchOnly }
        match s.checkEas m [(lowLane act, ea)] with
        | some c => s.trap c .fresh
        | none => k (s.drain s.iss.key) (objAddr s.grp.tid a.val)
/-- The scope an object records. -/
def MbObj.scope (x : MbObj) : Scope := if x.scp then .clu else .core
/-- What arrivals at an object have left there. -/
def Carrier.isObject (at' : Nat) (c : Carrier) : Bool := match c with | .object a _ _ => a == at' | _ => false
/-- The group acquires from the phase that an object has completed, at the object's scope (R239). -/
def State.acquireObject (s : State) (at' : Nat) (x : MbObj) : State :=
  let here := s.grp.core
  (s.acquireFrom s.iss.key fun c => match c with | .object a ph core => a == at' && ph != x.ph && (x.scp || core == here) | _ => false).acquire here x.scope
/-- MBINIT. -/
def execMbinit (sc : Scope) (o : Ops) (s : State) : Out :=
  let a := s.uniA o
  let b := s.uniB o
  .next (s.onObject o 2 [b.consumed o.b s.iss.act] fun s at' =>
    let x := s.mbRead at'
    if s.mbInit at' && (x.arr != 0 || x.expb != 0 || x.arrb != 0) then s.trap (s.mbCause a.val.toNat at' 6) .fresh
    else if b.val.toNat = 0 ∨ 65535 < b.val.toNat then s.trap (s.mbCause a.val.toNat at' 5) .fresh
    else
      ((s.uncarry (Carrier.isObject at')).mbWrite at' { expb := 0, arrb := 0, acnt := b.val.toNat, arr := 0, ph := false, scp := sc = .clu, err := false, lerr := false }).finish)
/-- MBEXP: with .arv an arrival follows, in the next phase where the bytes alone complete this one; where either would overflow, nothing changes. -/
def execMbexp (arv : Bool) (o : Ops) (s : State) : Out :=
  let a := s.uniA o
  let b := s.uniB o
  let key := s.iss.key
  .next (s.onObject o 2 [b.consumed o.b s.iss.act] fun s at' =>
    let n := fld b.val.toNat 31 0
    let x := s.mbRead at'
    if !s.mbInit at' then s.trap (s.mbCause a.val.toNat at' 1) .fresh
    else if 2 ^ 32 ≤ x.expb + n ∨ (arv ∧ x.acnt < (MbObj.settle { x with expb := x.expb + n }).arr + 1) then s.trap (s.mbCause a.val.toNat at' 7) .fresh
    else
      let y := MbObj.settle { x with expb := x.expb + n }
      let s := if arv then (s.release key x.scope).releaseTo key (.object at' y.ph s.grp.core) else s
      (s.mbWrite at' (if arv then MbObj.settle { y with arr := y.arr + 1 } else y)).finish)
/-- MBARV. -/
def execMbarv (o : Ops) (s : State) : Out :=
  let a := s.uniA o
  let b := s.uniB o
  let key := s.iss.key
  let k := if o.b = .zero then 1 else b.val.toNat
  .next (s.onObject o 2 [b.consumed o.b s.iss.act] fun s at' =>
    let x := s.mbRead at'
    if !s.mbInit at' then s.trap (s.mbCause a.val.toNat at' 1) .fresh
    else if x.acnt < x.arr + k then s.trap (s.mbCause a.val.toNat at' 7) .fresh
    else
      let s := (s.release key x.scope).releaseTo key (.object at' x.ph s.grp.core)
      (s.mbWrite at' { x with arr := x.arr + k }.settle).putS o.d (BitVec.ofNat 64 (b2n x.ph)) .clean)
/-- MBWAIT (R300). -/
def execMbwait (o : Ops) (s : State) : Out :=
  let a := s.uniA o
  let b := s.uniB o
  .next (s.onObject o 0 [b.consumed o.b s.iss.act] fun s at' =>
    let x := s.mbRead at'
    if !s.mbInit at' then s.trap (s.mbCause a.val.toNat at' 1) .fresh
    else if x.ph != b.val.getLsbD 0 then (s.acquireObject at' x).putS o.d (BitVec.ofNat 64 (b2n x.lerr)) .clean
    else if s.timedOut .object then s.putS o.d 2 .clean
    else s.waitFor .object at' (fld b.val.toNat 63 32))
/-- MBTEST (R300). -/
def execMbtest (o : Ops) (s : State) : Out :=
  let a := s.uniA o
  let b := s.uniB o
  .next (s.onObject o 0 [b.consumed o.b s.iss.act] fun s at' =>
    let x := s.mbRead at'
    if !s.mbInit at' then s.trap (s.mbCause a.val.toNat at' 1) .fresh
    else if x.ph != b.val.getLsbD 0 then (s.acquireObject at' x).putS o.d (BitVec.ofNat 64 (b2n x.lerr)) .clean
    else s.putS o.d 3 .clean)

end Sys2Proof.Machine
end

