-- ==== Sys2Proof/Machine/Matrix.lean ====
section
/-! DEFINITION. Matrix: the matrix stream's instructions, the arithmetic of a step, and the drain of a step with its checks (R120 to R124, R240, R241, R307 to R320, R386, R387). -/
namespace Sys2Proof.Machine

/-! ## The control word (R308, R309) -/

/-- Bits of an element of a format code. -/
def mWidth (f : Nat) : Nat := if f ≤ 1 then 16 else if f ≤ 4 then 8 else 4
/-- The floating-point format of a code. -/
def mFp (f : Nat) : Fp.FFmt := if f = 0 then Fp.bf16 else if f = 1 then Fp.f16 else if f = 2 then Fp.e4m3 else Fp.e5m2
def mA (mcw : Nat) : Nat := fld mcw 3 0
def mB (mcw : Nat) : Nat := fld mcw 7 4
def mSp (mcw : Nat) : Bool := bit mcw 10
def mSeq (mcw : Nat) : Bool := bit mcw 11
def mAq (mcw : Nat) : Bool := bit mcw 14
def mBq (mcw : Nat) : Bool := bit mcw 15
/-- Kb of the wider input (R120). -/
def mKb (mcw : Nat) : Nat := 512 / max (mWidth (mA mcw)) (mWidth (mB mcw))
/-- The group length of MMAQ. -/
def mLen (mcw : Nat) : Nat := 16 * 2 ^ fld mcw 13 12
/-- Kstep (R309). -/
def mKstep (quant : Bool) (mcw : Nat) : Nat := if quant then max (mKb mcw) (mLen mcw) else mKb mcw
/-- Groups of a step of MMAQ. -/
def mGroups (mcw : Nat) : Nat := mKstep true mcw / mLen mcw
/-- 4-byte words of an A row. -/
def mAWords (quant : Bool) (mcw : Nat) : Nat := mKstep quant mcw * mWidth (mA mcw) / 32
/-- Registers of a B window, and of a B metadata window. -/
def mBRegs (quant : Bool) (mcw : Nat) : Nat := mKstep quant mcw * mWidth (mB mcw) / 16
def mMetaRegs (quant : Bool) (mcw : Nat) : Nat := if quant && mBq mcw then 2 * mGroups mcw else 0
def mRbase (cw : DWord) : Nat := fld cw.toNat 8 0
def mWbase (bw : DWord) : Nat := fld bw.toNat 9 0
def mMbase (bw : DWord) : Nat := fld bw.toNat 25 16

/-! ## Refusals at issue (R310, R311, R319) -/

/-- A C word that R319 refuses. -/
def cwordBad (t : Team) (cw : DWord) : Bool := fld cw.toNat 31 9 != 0 || mRbase cw % 128 != 0 || decide (t.tile / 1024 < mRbase cw + 128)
/-- The sub-code that refuses an MMA or MMAQ. -/
def mmaSub (t : Team) (quant : Bool) (mcw : Nat) (aw bw cw : DWord) : Option Nat :=
  let a := aw.toNat
  let words := mAWords quant mcw
  let off := (a - scratchBase) % 2 ^ 18
  let n := recNgen t.record 2
  let aBad := if mSp mcw then a % 16 != 0 || windowOf a != .scratch
              else tileBad a || decide (t.tile / 1024 < tileRow' a + 128) || decide (256 < tileCol a + words)
  let span := mLen mcw * mWidth (mA mcw)
  if cwordBad t cw || aBad then some 1
  else if (mSp mcw && decide (t.scratch < off + 127 * t.astride + 4 * words)) || decide (n < mWbase bw + mBRegs quant mcw)
    || (decide (0 < mMetaRegs quant mcw) && decide (n < mMbase bw + mMetaRegs quant mcw)) then some 2
  else if fld bw.toNat 15 10 ≠ 0 ∨ fld bw.toNat 63 26 ≠ 0 then some 3
  else if quant && mAq mcw && (32 * tileCol a % span != 0 || decide (8 < 32 * tileCol a / span + mGroups mcw)) then some 6
  else none
/-- The detail of MATRIX (R336). -/
def matrixCause (sub tcore opc : Nat) (pc : DWord) : Pending :=
  { cause := 14, td0 := BitVec.ofNat 32 (sub + tcore * 8 + opc * 128), td1 := pc.setWidth 32, td2 := (pc >>> 32).setWidth 32 }

/-! ## Issue -/

/-- An s register or zero of a stream instruction. -/
def State.matSrc (s : State) (o : MatOps) : SReg × SReg × SReg :=
  (s.uni o.a (s.iss.slots.map fun t => t.1), s.uni o.b (s.iss.slots.map fun t => t.2.1), s.uni o.c (s.iss.slots.map fun t => t.2.2))
/-- A fifth step stalls issue (R307). -/
def State.queueFull (s : State) : Bool := decide (4 ≤ s.team.queue.length)
/-- MMA and MMAQ enter the queue; the B windows are closed to their groups until the matching
MWAIT, and the operands written since the last MFENCE are noted (R240, R241). -/
def State.queueStep (s : State) (m : MStep) : State :=
  let tid := s.grp.tid
  let keys := s.roleKeys tid .matrix
  let late := keys.flatMap fun k => let g := mget {} s.groups k; g.vdirty.map fun e => Dirty.window g.grpid e.1 e.2
  let m := { m with dirty := ((s.marks.filter fun d => d.tid == tid).map fun d => d.what) ++ late, win := s.freeCtr, wins := 2 * keys.length }
  let close (g : Group) (n : Nat) : Group :=
    { g with win := g.win ++ ([(mWbase m.bw, mBRegs m.quant m.mcw, n), (mMbase m.bw, mMetaRegs m.quant m.mcw, n + 1)].filter fun w => w.2.1 != 0) }
  let s := keys.zipIdx.foldl (fun (s : State) e => s.updGroup e.1 fun g => close g (m.win + 2 * e.2)) s
  ({ s with freeCtr := s.freeCtr + 2 * keys.length } : State).updTeam tid fun t => { t with queue := t.queue ++ [m], windows := t.windows ++ [m] }
/-- The issue of MMA and MMAQ. -/
def State.mma (s : State) (quant : Bool) (opc : Nat) (ty : Ty) (mcw : Nat) (o : MatOps) : State :=
  let (a, b, c) := s.matSrc o
  let act := s.iss.act
  if s.queueFull then s.hold { kind := .resource } act 0
  else
    s.consumeAny 0 0 [a.consumed o.a act, b.consumed o.b act, c.consumed o.c act] fun s =>
      match mmaSub s.team quant mcw a.val b.val c.val with
      | some sub => s.fail (matrixCause sub 0 opc s.iss.pc)
      | none =>
        (s.queueStep { zero := false, quant := quant, ty := ty, mcw := mcw, aw := a.val, bw := b.val, cw := c.val, quar := s.team.quar,
                       astride := s.team.astride, pc := s.iss.pc, dirty := [] }).finish
/-- MMA (R308). -/
def execMma (ty : Ty) (af bf : MFmt) (asgn bsgn asrc sq : Bool) (grp : BitVec 2) (aq bq : Bool) (o : MatOps) (s : State) : Out :=
  .next (s.mma false 0x1C0 ty (mcwOf af bf asgn bsgn asrc sq grp aq bq) o)
/-- MMAQ (R308). -/
def execMmaq (ty : Ty) (af bf : MFmt) (asgn bsgn asrc sq : Bool) (grp : BitVec 2) (aq bq : Bool) (o : MatOps) (s : State) : Out :=
  .next (s.mma true 0x1C1 ty (mcwOf af bf asgn bsgn asrc sq grp aq bq) o)
/-- MZERO (R317): its completion is a restart point, which names the instruction after it (R320). -/
def execMzero (o : Ops) (s : State) : Out :=
  let a := s.uniA o
  let act := s.iss.act
  .next (if s.queueFull then s.hold { kind := .resource } act 0
    else
      s.consumeAny 0 0 [a.consumed o.a act] fun s =>
        if cwordBad s.team a.val then s.fail (matrixCause 1 0 0x1C2 s.iss.pc)
        else
          let m : MStep := { zero := true, quant := false, ty := .f32, mcw := 0, aw := 0, bw := 0, cw := a.val, quar := false, astride := 0, pc := s.iss.pc,
                             dirty := [], npc := s.iss.npc, regs := s.grp.s, mark := s.team.nextRestart }
          (s.updTeam s.grp.tid fun t => { t with queue := t.queue ++ [m] }).finish)
/-- The matrix groups of a team, those that have exited among them. -/
def State.matGroups (s : State) (tid : Nat) : AMap Group :=
  (mget {} s.teams tid).gone ++ s.groups.filter fun e => e.2.tid == tid && e.2.role == .matrix
/-- The columns of the accumulator quarters whose B windows were written while closed become
undefined (R241). -/
def State.spoilHits (s : State) (tid : Nat) (m : MStep) : State :=
  (s.matGroups tid).foldl (fun (s : State) e =>
    let g := e.2
    if g.winHit.any fun n => decide (m.win ≤ n) && decide (n < m.win + m.wins) then
      s.spoilRows tid g.tcore (mRbase m.cw) 128 (64 * g.quad) (64 * g.quad + 64)
    else s) s
/-- The windows of a group are released: every register of one that it wrote while it was closed
stays undefined (R87, R241). -/
def Group.openWindows (g : Group) : Group :=
  let hit := g.win.filter fun w => g.winHit.contains w.2.2
  { g with v := hit.foldl (fun v w => (List.range w.2.1).foldl (fun v i => mset v (w.1 + i) (g.windowReg (w.1 + i))) v) g.v, win := [], winHit := [] }
/-- The B windows of a team are released. -/
def State.releaseWindows (s : State) (tid : Nat) : State :=
  let s := (mget {} s.teams tid).windows.foldl (fun s m => s.spoilHits tid m) s
  let s := (s.roleKeys tid .matrix).foldl (fun (s : State) k => s.updGroup k Group.openWindows) s
  s.updTeam tid fun t => { t with windows := [], gone := mmap t.gone fun _ g => g.openWindows }
/-- MWAIT (R317). -/
def execMwait (_o : Ops) (s : State) : Out :=
  .next (if !s.team.queue.isEmpty then s.hold { kind := .resource } s.iss.act 0
    else (s.releaseWindows s.grp.tid).finish.markRestart)
/-- MFENCE (R240, R242): no later step reads an operand before every earlier instruction of the
stream has completed; the writes that the stream has acquired are then read as they stand. -/
def execMfence (_o : Ops) (s : State) : Out :=
  let tid := s.grp.tid
  .next ({ s with marks := s.marks.filter fun d => !(d.tid == tid && d.seen.contains (.agent s.iss.key)) } : State).finish
/-- MCFG (R317). -/
def execMcfg (quar : Bool) (astride : BitVec 16) (s : State) : Out :=
  .next (s.updTeam s.grp.tid fun t => { t with quar := quar, astride := astride.toNat }).finish.markRestart
/-- The step counter of a region on a core (R282). -/
def State.stepCounter (s : State) (tid tcore rbase : Nat) : Nat := s.sideSlot (tileRow tid tcore rbase) 0
/-- MSTEP (R317). -/
def execMstep (o : Ops) (s : State) : Out :=
  let a := s.uniA o
  let act := s.iss.act
  .next (s.consumeAny 0 0 [a.consumed o.a act] fun s =>
    let t := s.team
    let rb := mRbase a.val
    if cwordBad t a.val then s.fail (matrixCause 1 0 0x1C6 s.iss.pc)
    else if t.queue.any fun m => mRbase m.cw == rb then s.hold { kind := .resource } act 0
    else
      let cs := (List.range t.cores.length).map fun k => s.stepCounter s.grp.tid k rb
      (s.updGrp fun g => g.writeS o.d.reg (BitVec.ofNat 64 (cs.foldl min (cs.headD 0))) .clean).finish)
/-- MSTAT (R318). -/
def execMstat (o : Ops) (s : State) : Out :=
  .next ((s.updGrp fun g => g.writeS o.d.reg s.team.mstat .clean).finish)

/-! ## Arithmetic of a step (R120 to R124, R312) -/

/-- The block result of R120, in FP32 bits. -/
def blockResult (ts : List Fp.FVal) : Nat :=
  let nan := ts.any Fp.isNan
  let pos := ts.contains (.inf false)
  let neg := ts.contains (.inf true)
  let exps := ts.filterMap fun t => match t with | .fin _ m e => some ((Nat.log2 m : Int) + e) | _ => none
  if nan || (pos && neg) then Fp.f32.qnan
  else if pos then Fp.enc Fp.f32 .rn (.inf false)
  else if neg then Fp.enc Fp.f32 .rn (.inf true)
  else match exps with
    | [] => if ts.all Fp.negZero then Fp.f32.signBit else 0
    | e :: es =>
      let q := es.foldl max e - 50
      let sum := ts.foldl (fun acc t =>
        match t with
        | .fin s m e => let n : Int := (Fp.quantize .rz s m e q : Nat); if s then acc - n else acc + n
        | _ => acc) (0 : Int)
      Fp.enc Fp.f32 .rn (Fp.ofInt sum q false)
/-- An element of an integer operand. -/
def mInt (sgn : Bool) (w x : Nat) : Int := if sgn then sext x w else (zext x w : Nat)
/-- Scale and zero point of a metadata entry, or 1.0 and 0 for an operand without one (R116, R123). -/
def mScale (quant : Bool) (w : Nat) (e : Nat) : Fp.FVal × Int :=
  if quant then (Fp.val Fp.f16 (e % 2 ^ 16), ((if w = 4 then fld e 19 16 else fld e 23 16 : Nat) : Int)) else (.fin false 1 0, 0)
/-- A group's term: a zero is +0 (R123). -/
def groupTerm (isum : Int) (sa sb : Fp.FVal) : Fp.FVal :=
  match Fp.mul (Fp.mul (Fp.ofInt isum 0 false) sa) sb with
  | .zero _ => .zero false
  | x => x
/-- Codes and metadata of an A row or a B column, and whether an operand element is undefined. -/
structure MVec where
  codes : List Nat
  metas : List Nat
  poison : Bool
  undef : Bool
  deriving DecidableEq, Repr
/-- Whether a step is of a float form, MMAQ among them (R308, R386). -/
def MStep.isFloat (m : MStep) : Bool := m.quant || m.ty = .f32
/-- The terms of an element's block in a float form (R120, R124, R312). -/
def stepTerms (m : MStep) (x y : MVec) (acc : Nat) : List Fp.FVal :=
  let mcw := m.mcw
  let wa := mWidth (mA mcw)
  let wb := mWidth (mB mcw)
  let pairs := x.codes.zip y.codes
  if m.quant then
    let len := mLen mcw
    let term (j : Nat) : Fp.FVal :=
      let (sa, za) := mScale (mAq mcw) wa (x.metas.getD j 0)
      let (sb, zb) := mScale (mBq mcw) wb (y.metas.getD j 0)
      let va (c : Nat) : Int := mInt (bit mcw 8 && !mAq mcw) wa c - za
      let vb (c : Nat) : Int := mInt (bit mcw 9 && !mBq mcw) wb c - zb
      groupTerm (((pairs.drop (j * len)).take len).foldl (fun n p => n + va p.1 * vb p.2) 0) sa sb
    (List.range (mGroups mcw)).map term ++ [Fp.val Fp.f32 acc]
  else pairs.map (fun p => Fp.mul (Fp.val (mFp (mA mcw)) p.1) (Fp.val (mFp (mB mcw)) p.2)) ++ [Fp.val Fp.f32 acc]
/-- The new value of an accumulator word (R312). -/
def stepWord (m : MStep) (x y : MVec) (acc : Nat) : Nat :=
  let mcw := m.mcw
  if m.isFloat then blockResult (stepTerms m x y acc)
  else wrap ((x.codes.zip y.codes).foldl (fun n p => n + mInt (bit mcw 8) (mWidth (mA mcw)) p.1 * mInt (bit mcw 9) (mWidth (mB mcw)) p.2) (sext acc 32)) 32

/-! ## Operands of a step (R310, R311, R313) -/

/-- Elements of width `w` of a number, from its low end. -/
def splitCodes (w n x : Nat) : List Nat := (List.range n).map fun k => fld x (k * w + w - 1) (k * w)
/-- Whether two ranges, by first place and length, share a place. -/
def meets (a n b k : Nat) : Bool := decide (a < b + k) && decide (b < a + n)
/-- A row `i` on a core (R310, R311). -/
def State.stepRow (s : State) (tid tc : Nat) (m : MStep) (i : Nat) : MVec :=
  let mcw := m.mcw
  let w := mWidth (mA mcw)
  let ks := mKstep m.quant mcw
  let bytes := 4 * mAWords m.quant mcw
  let a := m.aw.toNat
  if mSp mcw then
    let off := (a - scratchBase) % 2 ^ 18 + i * m.astride
    let at' := scratchAddr tid tc off
    { codes := splitCodes w ks (leNat ((List.range bytes).map fun k => s.scratchByte (at' + k))), metas := [],
      poison := (sectorsOf at' bytes).any s.mem.scratchPoison.contains,
      undef := m.dirty.any fun d => match d with | .scratch c lo n => c == tc && meets lo n off bytes | _ => false }
  else
    let row := tileRow tid tc (tileRow' a + i)
    let col := tileCol a
    let slot0 := 32 * col / (mLen mcw * w)
    { codes := splitCodes w ks (leNat ((List.range bytes).map fun k => s.tileByte row (4 * col + k))),
      metas := if m.quant && mAq mcw then (List.range (mGroups mcw)).map fun j => s.sideSlot row (slot0 + j) else [],
      poison := s.pb row,
      undef := m.dirty.any fun d =>
        match d with
        | .tile c r lo n => c == tc && r == tileRow' a + i && meets lo n (4 * col) bytes
        | .side c r k n => c == tc && r == tileRow' a + i && m.quant && mAq mcw && meets k n slot0 (mGroups mcw)
        | _ => false }
/-- The key of the matrix group on quadrant `q` of a team core (R27, R28). -/
def Team.matrixKey (t : Team) (tid tc q : Nat) : Nat := tid * 4096 + recGcount t.record 0 + recGcount t.record 1 + 4 * tc + q
/-- Registers of the windows that a step reads in each matrix group. -/
def MStep.regsRead (m : MStep) : List Nat :=
  ((List.range (mBRegs m.quant m.mcw)).map fun i => mWbase m.bw + i) ++ (List.range (mMetaRegs m.quant m.mcw)).map fun i => mMbase m.bw + i
/-- B column `c` of quarter `q` on a core (R311). -/
def State.stepCol (s : State) (tid tc : Nat) (m : MStep) (q c : Nat) : MVec :=
  let mcw := m.mcw
  let w := mWidth (mB mcw)
  let e := 16 / w
  let t := mget {} s.teams tid
  match mfind (s.matGroups tid) (t.matrixKey tid tc q) with
  | none => ⟨[], [], false, true⟩
  | some g =>
    let word (r : Nat) : Nat := ((g.windowReg r).val.lane (c / 2)).toNat
    let code (k : Nat) : Nat := let lo := 16 * (c % 2) + w * (k % e); fld (word (mWbase m.bw + k / e)) (lo + w - 1) lo
    { codes := (List.range (mKstep m.quant mcw)).map code,
      metas := if m.quant && mBq mcw then (List.range (mGroups mcw)).map fun j => word (mMbase m.bw + 2 * j + c % 2) else [],
      poison := false,
      undef := m.dirty.any fun d =>
        match d with
        | .window k r ls => k == g.grpid && ls.getLsbD (c / 2)
            && (meets r 1 (mWbase m.bw) (mBRegs m.quant mcw) || (meets r 1 (mMbase m.bw) (mMetaRegs m.quant mcw) && (r - mMbase m.bw) % 2 == c % 2))
        | _ => false }
/-- The tags of the windows that a step reads on the team cores `run`: fault-pending first, then
data-poison (R313). DEDUCED. Log entry 20. -/
def State.windowTags (s : State) (tid : Nat) (m : MStep) (run : List Nat) : Option Pending :=
  let gs := (s.matGroups tid).filter fun e => run.contains e.2.tcore
  let find (f : VReg → Word) : Option (Nat × Nat × Word) :=
    (gs.flatMap fun k => m.regsRead.map fun r => (k.1, r, f (k.2.vreg r))).find? fun e => e.2.2 != 0
  match find fun r => r.fp with
  | some (k, r, m) =>
    let l := lowLane m
    some { cause := 7, td0 := BitVec.ofNat 32 (r + l * 1024), td1 := mget 0 (mget {} gs k).dftok l, td2 := 0 }
  | none =>
    match find fun r => r.dp with
    | some (_, r, m) => some (dataPoison r (lowLane m) 3 0)
    | none => none

/-! ## The drain of a step (R312 to R316) -/

/-- FP32 bits of an infinity or NaN. -/
def nonFinite (x : Nat) : Bool := fld x 30 23 == 255
/-- An element of a step without an error: the word staged, the incoming word, and the exponent E
of its block (R120), where it has one. -/
structure MElem where
  word : Nat := 0
  acc : Nat := 0
  exp : Option Int := none
  deriving DecidableEq, Repr
/-- A row of a step, and whether poison of its A row reaches it (R313). -/
structure MRow where
  elems : List MElem
  poison : Bool
  deriving DecidableEq, Repr
/-- floor(log2 |x|) of a finite nonzero value. -/
def floorLog (x : Fp.FVal) : Option Int := match x with | .fin _ m e => some ((Nat.log2 m : Int) + e) | _ => none
/-- The largest of some exponents. -/
def maxExp (l : List Int) : Option Int := match l with | [] => none | e :: es => some (es.foldl max e)
/-- Row `i` of a step on a core, from its operands (R312). -/
def State.stepElems (s : State) (tid tc : Nat) (m : MStep) (cols : List MVec) (i : Nat) : MRow :=
  let row := tileRow tid tc (mRbase m.cw + i)
  let x := s.stepRow tid tc m i
  { elems := cols.zipIdx.map fun e =>
      let acc := (s.tileWord row e.2).toNat
      if x.undef || e.1.undef then { word := (s.free (2 ^ 20 * tc + 256 * i + e.2)).toNat % 2 ^ 32, acc := acc }
      else { word := stepWord m x e.1 acc, acc := acc, exp := if m.isFloat then maxExp ((stepTerms m x e.1 acc).filterMap floorLog) else none }
    poison := x.poison }
/-- A step on one core: every operand is read before any row is written. -/
def State.stepRows (s : State) (tid tc : Nat) (m : MStep) : List MRow :=
  let cols := (List.range 256).map fun j => s.stepCol tid tc m (j / 64) (j % 64)
  (List.range 128).map (s.stepElems tid tc m cols)

/-! ## The checksums (R314, R386, R387) -/

/-- The element in row `i` and column `j`. -/
def elemOf (rows : List MRow) (i j : Nat) : MElem := match rows[i]? with | some r => r.elems.getD j {} | none => {}
/-- The word that the array stages for an element, the first time or in a recomputation. -/
def ArrayErr.staged (errs : List ArrayErr) (again : Bool) (i j word : Nat) : Nat :=
  match errs.findSome? fun e => match e with | .element _ r c w a => if r = i ∧ c = j then some (w, a) else none | _ => none with
  | some (w, a) => if again then (match a with | some x => x.toNat | none => word) else w.toNat
  | none => word
/-- A check line of a core: the quadrant of its sub-array, whether it runs along a row, and which. -/
structure CheckLine where
  quad : Nat
  isRow : Bool
  index : Nat
  deriving DecidableEq, Repr
/-- The 64 column lines of 128 elements and 128 row lines of 64 elements of each sub-array. -/
def checkLines : List CheckLine :=
  (List.range 4).flatMap fun q => ((List.range 64).map fun c => ⟨q, false, c⟩) ++ (List.range 128).map fun r => ⟨q, true, r⟩
/-- The elements of a line. -/
def CheckLine.cells (l : CheckLine) : List (Nat × Nat) :=
  if l.isRow then (List.range 64).map fun c => (l.index, 64 * l.quad + c) else (List.range 128).map fun r => (r, 64 * l.quad + l.index)
/-- A finite value in units of 2^-320. -/
def fixedVal (x : Fp.FVal) : Int :=
  match x with | .fin s m e => let n : Int := m * 2 ^ (e + 320).toNat; if s then -n else n | _ => 0
/-- M of R386 for a line that stages `got`. -/
def CheckLine.scale (l : CheckLine) (rows : List MRow) (got : Nat → Nat → Nat) : Option Int :=
  maxExp (l.cells.flatMap fun c =>
    let e := elemOf rows c.1 c.2
    [floorLog (Fp.val Fp.f32 (got c.1 c.2)), floorLog (Fp.val Fp.f32 e.acc), e.exp].filterMap id)
/-- 2^(M - k) in units of 2^-320; 0 where a line has no M. -/
def tolerance (m : Option Int) (k : Int) : Int := match m with | some e => 2 ^ (e - k + 320).toNat | none => 0
/-- Whether a line mismatches (R386): S, the exact sum of what is staged, against the check line's
K, which lies within 2^(M - 16) of the sum without an error; elements staged as a NaN or an
infinity are left out, and a line whose other elements should hold one mismatches. -/
def CheckLine.mismatch (l : CheckLine) (isFloat : Bool) (rows : List MRow) (got : Nat → Nat → Nat) (delta slack : Int) : Bool :=
  let truth (c : Nat × Nat) : Nat := (elemOf rows c.1 c.2).word
  if isFloat then
    let cells := l.cells.filter fun c => !nonFinite (got c.1 c.2)
    let b := tolerance (l.scale rows fun i j => (elemOf rows i j).word) 16
    let S := cells.foldl (fun n c => n + fixedVal (Fp.val Fp.f32 (got c.1 c.2))) (0 : Int)
    let K := cells.foldl (fun n c => n + fixedVal (Fp.val Fp.f32 (truth c))) (0 : Int) + max (-b) (min b slack) + delta
    (cells.any fun c => nonFinite (truth c)) || decide (tolerance (l.scale rows got) 14 < ((S - K).natAbs : Int))
  else (l.cells.foldl (fun n c => n + sext (got c.1 c.2) 32 - sext (truth c) 32) (0 : Int) - delta) % 2 ^ 32 != 0
/-- How far the array's errors put a check line off, the first time or in a recomputation. -/
def CheckLine.delta (l : CheckLine) (errs : List ArrayErr) (again : Bool) : Int :=
  errs.foldl (fun n e => match e with | .line _ q r k d a => if (⟨q, r, k⟩ : CheckLine) = l ∧ (!again || a) then n + d else n | _ => n) 0
/-- What a core writes for a step, the elements it corrected alone, whether it recomputed the step
whole, and whether a mismatch survived. -/
structure CoreStep where
  tcore : Nat
  rows : List MRow
  fixed : Nat := 0
  whole : Bool := false
  failed : Bool := false
  deriving DecidableEq, Repr
/-- The staged step of a core under its checksums (R314, R387). Without an error no line
mismatches (R386). Non-finite elements are recomputed alone; one row line and one column line of
one sub-array, the element where they meet; any other pattern, the step. -/
def State.checkCore (s : State) (m : MStep) (all : List ArrayErr) (tc : Nat) (rows : List MRow) : CoreStep :=
  let errs := all.filter fun e => e.tcore == tc
  if errs.isEmpty then { tcore := tc, rows := rows }
  else
    let word (i j : Nat) : Nat := (elemOf rows i j).word
    let first (i j : Nat) : Nat := ArrayErr.staged errs false i j (word i j)
    let second (i j : Nat) : Nat := ArrayErr.staged errs true i j (word i j)
    let bad (again : Bool) (got : Nat → Nat → Nat) : List CheckLine :=
      (checkLines.zipIdx.filter fun e =>
        e.1.mismatch m.isFloat rows got (e.1.delta errs again) (Config.checkSlack s.freeCtr (4096 * tc + 2 * e.2 + b2n again))).map fun e => e.1
    let odd (i j : Nat) : Bool := m.isFloat && nonFinite (first i j)
    let alone := (List.range 128).foldl (fun n i => n + ((List.range 256).filter fun j => odd i j && second i j != first i j).length) 0
    let fill (i j : Nat) : Nat := if odd i j then second i j else first i j
    let (got, fixed, whole) : (Nat → Nat → Nat) × Nat × Bool :=
      match bad false first with
      | [] => (fill, alone, false)
      | [c, r] =>
        if c.quad = r.quad ∧ !c.isRow ∧ r.isRow then
          ((fun i j => if i = r.index ∧ j = 64 * c.quad + c.index then second i j else fill i j), alone + 1, false)
        else (second, alone, true)
      | _ => (second, alone, true)
    { tcore := tc, fixed := fixed, whole := whole, failed := (fixed != 0 || whole) && !(bad true got).isEmpty,
      rows := rows.zipIdx.map fun e => { e.1 with elems := e.1.elems.zipIdx.map fun x => { x.1 with word := got e.2 x.2 } } }
/-- A step's results are written on a core, with the rows' PB (R312, R313, R315). -/
def State.writeStep (s : State) (tid : Nat) (m : MStep) (c : CoreStep) : State :=
  let row0 := tileRow tid c.tcore (mRbase m.cw)
  let n := s.sideSlot row0 0
  let s := c.rows.zipIdx.foldl (fun (s : State) e =>
    let row := tileRow tid c.tcore (mRbase m.cw + e.2)
    let s := s.writeTile row 0 (e.1.elems.flatMap fun x => leBytes 4 x.word)
    if e.1.poison || (m.quar && m.isFloat && e.1.elems.any fun x => nonFinite x.word) then s.setPb row true else s) s
  s.writeSide row0 0 (leBytes 4 ((n + 1) % 2 ^ 32))
/-- MZERO on one core (R317). -/
def State.zeroCore (s : State) (tid tc : Nat) (m : MStep) : State :=
  let s := (List.range 128).foldl (fun (s : State) i =>
    let row := tileRow tid tc (mRbase m.cw + i)
    (s.writeTile row 0 (List.replicate 1024 0)).setPb row false) s
  s.writeSide (tileRow tid tc (mRbase m.cw)) 0 (leBytes 4 0)
/-- u of R316 on a core. -/
def State.seqLag (s : State) (tid tc : Nat) (m : MStep) : Nat :=
  (s.stepCounter tid tc (mRbase m.cw) + 2 ^ 32 - fld m.cw.toNat 63 32) % 2 ^ 32
/-- The corrections of a step are counted in CORR of the VD, and in MSTAT, each summed over the
sequencers (R318, R387). -/
def State.corrected (s : State) (tid : Nat) (cs : List CoreStep) : State :=
  let f := cs.foldl (fun n c => n + c.fixed) 0
  let w := (cs.filter fun c => c.whole).length
  if f + w = 0 then s
  else
    (s.updTeam tid fun t => { t with fixed := satCount 16 (t.fixed + f), recomp := satCount 16 (t.recomp + w) }).updErr (some (mget {} s.teams tid).vd)
      fun b => { b with corr := BitVec.ofNat 64 (satCount 64 (b.corr.toNat + f + w)) }
/-- The record of a mismatch that survives (R387), of class 14, for the core it is on. -/
def State.stepRecord (s : State) (tid : Nat) (m : MStep) (opc tc : Nat) : State :=
  let t := mget {} s.teams tid
  let c := matrixCause 5 tc opc m.pc
  (s.errRecord { cls := 14, sev := 1, die := dieOf (t.cores.getD tc 0), vd := some t.vd, cause := 14, core := t.cores.getD tc 0,
                 td0 := c.td0, td1 := c.td1, td2 := c.td2 }).1
/-- A step of the array: .seq first, which decides the cores that perform it (R316); then the tags
of their windows (R313), the checksums of each (R314), and the effect. -/
def State.drainStep (s : State) (tid : Nat) (m : MStep) (errs : List ArrayErr) : State :=
  let t := mget {} s.teams tid
  let key := tid * 4096 + 4095
  let opc := if m.quant then 0x1C1 else 0x1C0
  let cores := List.range t.cores.length
  let lag (tc : Nat) : Nat := if mSeq m.mcw then s.seqLag tid tc m else 0
  match cores.find? fun tc => decide (2 ^ 31 ≤ lag tc) with
  | some tc => s.streamError key (matrixCause 4 tc opc m.pc)
  | none =>
    let run := cores.filter fun tc => lag tc == 0
    match s.windowTags tid m run with
    | some c => s.streamError key c
    | none =>
      let cs := run.map fun tc => s.checkCore m errs tc (s.stepRows tid tc m)
      match (cs.filter fun c => c.failed).map fun c => c.tcore with
      | tc :: rest => ((tc :: rest).foldl (fun s k => s.stepRecord tid m opc k) s.bumpFree).streamError key (matrixCause 5 tc opc m.pc)
      | [] =>
        let s := (cs.foldl (fun s c => s.writeStep tid m c) s).bumpFree
        (s.corrected tid cs).updTeam tid fun t => { t with skips := satCount 16 (t.skips + (cores.length - run.length)) }
/-- MATRIX_STEP_DRAIN: the oldest queued step of a team leaves the array (R312 to R316). -/
def execMatrixStepDrain (team : Nat) (errs : List ArrayErr) (s : State) : Out :=
  .next (match (mget {} s.teams team).queue with
    | [] => s
    | m :: rest =>
      let t := mget {} s.teams team
      let s := s.updTeam team fun t => { t with queue := rest }
      let s :=
        if m.zero then
          let s := (List.range t.cores.length).foldl (fun s tc => s.zeroCore team tc m) s
          if t.restarts < m.mark then s.updTeam team fun t => { t with restartPc := m.npc, restartS := m.regs, restarts := m.mark } else s
        else s.drainStep team m errs
      s.checkQuiet team)

end Sys2Proof.Machine
end

