-- ==== Sys2Proof/Machine/Uniform.lean ====
section
/-! DEFINITION. Uniform: the uniform scalar instructions, the special registers and the system registers (R58, R164 to R168, R176, R177). -/
namespace Sys2Proof.Machine

/-! ## Uniform ALU (R164, R165) -/

/-- An ALU source of `n` bits at a type (R165). -/
def SReg.int (r : SReg) (ty : Ty) : Int := ty.int r.val.toNat
/-- The source fields of an ALU instruction; IMM stands for the last of `n` in F128I (R77, R164). -/
def State.uniSrc (s : State) (o : Ops) (n k : Nat) : SReg :=
  if o.fmt = .f128i && k + 1 == n then ⟨o.imm, .clean⟩
  else if k = 0 then s.uni o.a (s.iss.slots.map fun t => t.1)
  else if k = 1 then s.uni o.b (s.iss.slots.map fun t => t.2.1)
  else s.uni o.c (s.iss.slots.map fun t => t.2.2)
/-- The result of R165: wrapped to n bits, then extended to 64 by the type. -/
def uniResult (ty : Ty) (x : Int) : DWord := BitVec.ofNat 64 (wrap (ty.int (wrap x ty.width)) 64)
/-- A uniform ALU instruction of one, two or three sources writes its result. -/
def State.uniOp1 (s : State) (ty : Ty) (o : Ops) (f : SReg → Int) : State :=
  let a := s.uniSrc o 1 0
  s.putS o.d (uniResult ty (f a)) a.tag
def State.uniOp2 (s : State) (ty : Ty) (o : Ops) (f : SReg → SReg → Int) : State :=
  let a := s.uniSrc o 2 0
  let b := s.uniSrc o 2 1
  s.putS o.d (uniResult ty (f a b)) (a.tag.join b.tag)
def State.uniOp3 (s : State) (ty : Ty) (o : Ops) (f : SReg → SReg → SReg → Int) : State :=
  let a := s.uniSrc o 3 0
  let b := s.uniSrc o 3 1
  let c := s.uniSrc o 3 2
  s.putS o.d (uniResult ty (f a b c)) ((a.tag.join b.tag).join c.tag)

/-- A logical operation on the unsigned values. -/
def bitOp (f : Nat → Nat → Nat) (x y : Int) : Int := (f x.toNat y.toNat : Nat)
/-- SHL of R164 and R188: 0 from a count of n on. -/
def shlInt (n : Nat) (a : Int) (b : Nat) : Int := if b < n then a * 2 ^ b else 0
/-- Logical right shift. -/
def shrInt (n : Nat) (a : Int) (b : Nat) : Int := if b < n then a / 2 ^ b else 0
/-- Arithmetic right shift; a count of n or more leaves the sign. -/
def sraInt (n : Nat) (a : Int) (b : Nat) : Int := a / 2 ^ min b n

def execSadd (ty : Ty) (o : Ops) (s : State) : Out := .next (s.uniOp2 ty o fun a b => a.int ty + b.int ty)
def execSsub (ty : Ty) (o : Ops) (s : State) : Out := .next (s.uniOp2 ty o fun a b => a.int ty - b.int ty)
def execSmul (ty : Ty) (o : Ops) (s : State) : Out := .next (s.uniOp2 ty o fun a b => a.int ty * b.int ty)
def execSmulh (ty : Ty) (o : Ops) (s : State) : Out := .next (s.uniOp2 ty o fun a b => a.int ty * b.int ty / 2 ^ ty.width)
def execSmad (ty : Ty) (o : Ops) (s : State) : Out := .next (s.uniOp3 ty o fun a b c => a.int ty * b.int ty + c.int ty)
def execSand (ty : Ty) (o : Ops) (s : State) : Out := .next (s.uniOp2 ty o fun a b => bitOp Nat.land (a.int ty) (b.int ty))
def execSor (ty : Ty) (o : Ops) (s : State) : Out := .next (s.uniOp2 ty o fun a b => bitOp Nat.lor (a.int ty) (b.int ty))
def execSxor (ty : Ty) (o : Ops) (s : State) : Out := .next (s.uniOp2 ty o fun a b => bitOp Nat.xor (a.int ty) (b.int ty))
/-- The shift count is read whole (R165). -/
def execSshl (ty : Ty) (o : Ops) (s : State) : Out := .next (s.uniOp2 ty o fun a b => shlInt ty.width (a.int ty) b.val.toNat)
def execSshr (ty : Ty) (o : Ops) (s : State) : Out := .next (s.uniOp2 ty o fun a b => shrInt ty.width (a.int ty) b.val.toNat)
def execSsra (ty : Ty) (o : Ops) (s : State) : Out := .next (s.uniOp2 ty o fun a b => sraInt ty.width (a.int ty) b.val.toNat)
def execSmin (ty : Ty) (o : Ops) (s : State) : Out := .next (s.uniOp2 ty o fun a b => min (a.int ty) (b.int ty))
def execSmax (ty : Ty) (o : Ops) (s : State) : Out := .next (s.uniOp2 ty o fun a b => max (a.int ty) (b.int ty))
def execScmp (ty : Ty) (cm : Cmp) (o : Ops) (s : State) : Out :=
  .next (s.uniOp2 ty o fun a b => if cm.holds (a.int ty) (b.int ty) then 1 else 0)
/-- The selector is read whole (R165). -/
def execSsel (ty : Ty) (o : Ops) (s : State) : Out := .next (s.uniOp3 ty o fun a b c => if c.val ≠ 0 then a.int ty else b.int ty)
def execSpopc (ty : Ty) (o : Ops) (s : State) : Out := .next (s.uniOp1 ty o fun a => (popCount ty.width a.val.toNat : Nat))
def execSclz (ty : Ty) (o : Ops) (s : State) : Out :=
  .next (s.uniOp1 ty o fun a => ((ty.width - bitLen ty.width a.val.toNat : Nat) : Int))

/-! ## Moves (R166) -/

def execSmov (o : Ops) (s : State) : Out := .next (s.putS o.d (s.uniA o).val (s.uniA o).tag)
def execSli (o : Ops) (s : State) : Out := .next (s.putS o.d o.imm .clean)
/-- SLIH keeps the low half and joins the old tag. -/
def execSlih (o : Ops) (s : State) : Out :=
  let old := s.grp.sreg o.d.reg
  .next (s.putS o.d ((o.imm.setWidth 32 : Word) ++ (old.val.setWidth 32 : Word)) old.tag)

/-! ## Special registers (R58, R168) -/

/-- Compute clocks of the group's core since its die's last reset (R379). -/
def State.cyc (s : State) : DWord := BitVec.ofNat 64 (s.clkOf s.grp.core - mget 0 s.dieClk (dieOf s.grp.core))
/-- The value of a special register; lane l adds l to laneid alone. -/
def State.special (s : State) (idx : Nat) : DWord :=
  let g := s.grp
  match idx with
  | 1 => BitVec.ofNat 64 g.grpid
  | 2 => s.team.teamid.setWidth 64
  | 3 => BitVec.ofNat 64 g.core
  | 4 => BitVec.ofNat 64 (dieOf g.core)
  | 5 => g.gname
  | 6 => s.cyc
  | 7 => s.iss.xm.setWidth 64
  | 8 => g.tc.setWidth 64
  | 9 => g.td0.setWidth 64
  | 10 => g.td1.setWidth 64
  | 11 => g.td2.setWidth 64
  | 12 => g.pi.setWidth 64
  | _ => 0
/-- SRD to an s register or to a vector register or pair. The guard tags join in under R130. DEDUCED. Log entry 14. -/
def execSrd (idx : BitVec 6) (o : Ops) (s : State) : Out :=
  let x := s.special idx.toNat
  .next (if (13 ≤ idx.toNat || (idx == 0 && !o.d.isV)) && s.iss.act != 0 then s.trap (s.illegal 2) .fresh
    else match o.d with
    | .v _ =>
      if idx = 0 then s.putV false [s.destW o.d 0 (.affine 0 1) 0 0]
      else if idx = 5 ∨ idx = 6 then
        s.putV true [s.destW o.d 0 (.uniform (x.setWidth 32)) 0 0, s.destW o.d 1 (.uniform ((x >>> 32).setWidth 32)) 0 0]
      else s.putV false [s.destW o.d 0 (.uniform (x.setWidth 32)) 0 0]
    | _ => s.putS o.d x .clean)
/-- SWR to tc, td0, td1 or td2; tc[31:5] is ignored. -/
def execSwr (idx : BitVec 6) (o : Ops) (s : State) : Out :=
  let x := (s.uniA o).val
  let w : Word := x.setWidth 32
  .next (s.ifActive fun s =>
    if idx.toNat < 8 ∨ 11 < idx.toNat then s.trap (s.illegal 2) .fresh
    else (s.updGrp fun g =>
      if idx = 8 then { g with tc := x.setWidth 5 } else if idx = 9 then { g with td0 := w } else if idx = 10 then { g with td1 := w }
      else { g with td2 := w }).finish)

/-! ## System registers (R176, R177) -/

/-- The value of a CSR. -/
def State.csr (s : State) (idx : Nat) : DWord :=
  let g := s.grp
  match idx with
  | 0 => g.tvec
  | 1 => g.tarea
  | 2 => g.spq
  | 3 => BitVec.ofNat 64 (b2n g.inhdl)
  | 4 => (s.vd g.vd).jdrop
  | 5 => g.tdmask.setWidth 64
  | _ => 0
def execCsrrd (idx : BitVec 12) (o : Ops) (s : State) : Out :=
  .next (s.ifActive fun s => if 5 < idx.toNat then s.trap (s.illegal 2) .fresh else s.putS o.d (s.csr idx.toNat) .clean)
/-- CSRWR: a misaligned TVEC or TAREA traps with ALIGN; reserved bits of SPQ are ignored (R7). -/
def execCsrwr (idx : BitVec 12) (o : Ops) (s : State) : Out :=
  let x := (s.uniA o).val
  .next (s.ifActive fun s =>
    if 2 < idx.toNat then s.trap (s.illegal 2) .fresh
    else if idx = 0 ∧ x.toNat % 32 ≠ 0 then s.trap (alignCause x.toNat (lowLane s.iss.act) 5) .fresh
    else if idx = 1 ∧ x.toNat % 256 ≠ 0 then s.trap (alignCause x.toNat (lowLane s.iss.act) 8) .fresh
    else
      (s.updGrp fun g =>
        if idx = 0 then { g with tvec := x } else if idx = 1 then { g with tarea := x }
        else { g with spq := (x.setWidth 16).setWidth 64 }).finish)

end Sys2Proof.Machine
end

