-- ==== Sys2Proof/Machine/Transc.lean ====
section
/-! DEFINITION. Transc: the five transcendental functions of R202, each evaluated in fixed point far beyond the precision that decides its FP32 rounding, with the cases of R197. Log entry 7. -/
namespace Sys2Proof.Fp

/-- Fraction bits of the fixed-point values. -/
def fixBits : Nat := 512
/-- 1 in fixed point. -/
def fixOne : Nat := 2 ^ 512

/-- The sum of t^(2k+1)/(2k+1) with signs `alt`: atanh t, or atan t. -/
def oddSeries (alt : Bool) (t2 : Nat) : Nat → Nat → Nat → Int → Int
  | 0, _, _, acc => acc
  | n + 1, k, term, acc =>
    let c : Int := (term / (2 * k + 1) : Nat)
    oddSeries alt t2 n (k + 1) (term * t2 / fixOne) (if alt && k % 2 == 1 then acc - c else acc + c)
/-- atanh t for a fixed-point t up to 1/3. -/
def atanhFix (t : Nat) : Nat := (oddSeries false (t * t / fixOne) 180 0 t 0).toNat
/-- atan (1/n). -/
def atanInv (n : Nat) : Nat := (oddSeries true (fixOne / (n * n)) 130 0 (fixOne / n) 0).toNat
/-- π by Machin's formula. -/
def piFix : Nat := 4 * (4 * atanInv 5 - atanInv 239)
/-- ln 2 = 2 atanh (1/3). -/
def ln2Fix : Nat := 2 * atanhFix (fixOne / 3)

/-- e^x for 0 ≤ x < 1: the terms x^k / k!. -/
def expSeries (x : Nat) : Nat → Nat → Nat → Nat → Nat
  | 0, _, _, acc => acc
  | n + 1, k, term, acc => expSeries x n (k + 1) (term * x / fixOne / (k + 1)) (acc + term)
def expFix (x : Nat) : Nat := expSeries x 110 0 fixOne 0
/-- The terms of sin (first term x, k = 1) and cos (first term 1, k = 0). -/
def trigSeries (x2 : Nat) : Nat → Nat → Nat → Bool → Int → Int
  | 0, _, _, _, acc => acc
  | n + 1, k, term, neg, acc =>
    trigSeries x2 n (k + 2) (term * x2 / fixOne / ((k + 1) * (k + 2))) (!neg) (if neg then acc - (term : Int) else acc + (term : Int))
def sinFix (x : Nat) : Int := trigSeries (x * x / fixOne) 60 1 x false 0
def cosFix (x : Nat) : Int := trigSeries (x * x / fixOne) 60 0 fixOne false 0

/-- |x| as a fixed-point number. -/
def toFix (m : Nat) (e : Int) : Nat := quantize .rz false m e (-512)
/-- A fixed-point integer as a value; zero is +0. -/
def ofFix (x : Int) : FVal := ofInt x (-512) false

/-- 2^x (R202). An integral x is exact; beyond ±200 every result overflows or rounds as 2^±200 does.
UNVERIFIED rounding. Log entry 7. -/
def exp2 : FVal → FVal
  | .nan => .nan
  | .inf s => if s then .zero false else .inf false
  | .zero _ => .fin false 1 0
  | .fin s m e =>
    if 8 < Nat.log2 m + e then .fin false 1 (if s then -400 else 400)
    else
      let x : Int := if s then -(toFix m e : Int) else toFix m e
      let n := x / fixOne
      let r := (x % fixOne).toNat
      if 0 ≤ e ∨ r = 0 then .fin false 1 n
      else scale (ofFix (expFix (r * ln2Fix / fixOne))) n
/-- log2 x (R202). -/
def log2 : FVal → FVal
  | .nan => .nan
  | .zero _ => .inf true
  | .inf s => if s then .nan else .inf false
  | .fin true _ _ => .nan
  | .fin false m e =>
    let k := Nat.log2 m
    let n : Int := k + e
    let t := (m - 2 ^ k) * fixOne / (m + 2 ^ k)
    let l := 2 * atanhFix t * fixOne / ln2Fix
    ofFix (n * fixOne + (l : Int))

/-- The quadrant and the remainder of |x| mod π/2. -/
def reduce (m : Nat) (e : Int) : Nat × Nat :=
  let x := toFix m e
  let h := piFix / 2
  (x / h % 4, x % h)
/-- Below 2^-13 the exact value rounds to x itself. -/
def tiny (m : Nat) (e : Int) : Bool := decide ((Nat.log2 m : Int) + e < -13)
/-- sin x (R202). -/
def sin : FVal → FVal
  | .fin s m e =>
    if tiny m e then .fin s m e
    else
      let (q, r) := reduce m e
      let y := match q with
        | 0 => sinFix r | 1 => cosFix r | 2 => -sinFix r | _ => -cosFix r
      ofFix (if s then -y else y)
  | .zero s => .zero s
  | .inf _ | .nan => .nan
/-- cos x (R202). -/
def cos : FVal → FVal
  | .fin _ m e =>
    if tiny m e then .fin false 1 0
    else
      let (q, r) := reduce m e
      ofFix (match q with
        | 0 => cosFix r | 1 => -sinFix r | 2 => -cosFix r | _ => sinFix r)
  | .zero _ => .fin false 1 0
  | .inf _ | .nan => .nan
/-- tanh x = 1 − 2 / (e^2x + 1) (R202). Beyond 16 the exact value rounds to ±1. -/
def tanh : FVal → FVal
  | .fin s m e =>
    if tiny m e then .fin s m e
    else if 4 ≤ (Nat.log2 m : Int) + e then .fin s 1 0
    else
      let y := 2 * toFix m e * fixOne / ln2Fix
      let ex := expFix (y % fixOne * ln2Fix / fixOne) * 2 ^ (y / fixOne)
      let t : Int := (fixOne : Int) - (2 * fixOne * fixOne / (ex + fixOne) : Nat)
      ofFix (if s then -t else t)
  | .zero s => .zero s
  | .inf s => .fin s 1 0
  | .nan => .nan

end Sys2Proof.Fp
end

