-- ==== Sys2Proof/Machine/VInt.lean ====
section
/-! DEFINITION. VInt: the vector integer instructions and moves (R178 to R194). -/
namespace Sys2Proof.Machine

/-! ## Lane-wise results (R68, R182, R187) -/

/-- A source with the width at which the instruction reads it. -/
structure WSrc where
  src : Src
  is64 : Bool
  deriving DecidableEq, Repr
/-- Whether a source is uniform; a pair only where both registers are (R63). -/
def WSrc.uniform (x : WSrc) : Bool := x.src.lo.isUniform && (!x.is64 || x.src.hi.isUniform)
def WSrc.at (x : WSrc) (l : Nat) : Nat := x.src.at x.is64 l
/-- The joined tag masks of sources. -/
def joinDp (xs : List WSrc) : Word := xs.foldl (fun m x => m ||| x.src.dp) 0
def joinFp (xs : List WSrc) : Word := xs.foldl (fun m x => m ||| x.src.fp) 0
/-- The shapes of a result: one register, or the two of a pair (R63, R68). -/
def vecShapes (cls : ShapeClass) (d64 : Bool) (xs : List WSrc) (f : List Nat → Nat) : List Shape :=
  if !d64 && xs.all (fun x => !x.is64) then [resultShape cls (xs.map fun x => x.src.lo) f]
  else
    let val (l : Nat) : Nat := f (xs.map fun x => x.at l)
    let one (k : Nat) : Shape :=
      if xs.all WSrc.uniform then .uniform (BitVec.ofNat 32 (val 0 / 2 ^ (32 * k)))
      else .general ((List.range 32).map fun l => BitVec.ofNat 32 (val l / 2 ^ (32 * k)))
    if d64 then [one 0, one 1] else [one 0]
/-- A lane instruction computes `f` of its sources' lane values, with R68's shape and R182's tags. -/
def State.vecOp (s : State) (o : Ops) (cls : ShapeClass) (d64 : Bool) (xs : List WSrc) (f : List Nat → Nat) : State :=
  s.putV d64 ((vecShapes cls d64 xs f).zipIdx.map fun e => s.destW o.d e.2 e.1 (joinDp xs) (joinFp xs))

/-- The sources of an instruction at one width (R179). -/
def State.vA (s : State) (o : Ops) (is64 : Bool) : WSrc := ⟨s.srcA o is64, is64⟩
def State.vB (s : State) (o : Ops) (is64 : Bool) : WSrc := ⟨s.srcB o is64, is64⟩
def State.vBfield (s : State) (o : Ops) (is64 : Bool) : WSrc := ⟨s.srcBfield o is64, is64⟩
def State.vC (s : State) (o : Ops) (is64 : Bool) : WSrc := ⟨s.srcC o is64, is64⟩
/-- One, two or three integer sources read at a type, and a result wrapped to its width (R187). -/
def State.int1 (s : State) (ty : Ty) (o : Ops) (cls : ShapeClass) (f : Int → Int) : State :=
  s.vecOp o cls ty.is64 [s.vA o ty.is64] fun v => wrap (f (ty.int (v.getD 0 0))) ty.width
def State.int2 (s : State) (ty : Ty) (o : Ops) (cls : ShapeClass) (f : Int → Int → Int) : State :=
  s.vecOp o cls ty.is64 [s.vA o ty.is64, s.vB o ty.is64] fun v => wrap (f (ty.int (v.getD 0 0)) (ty.int (v.getD 1 0))) ty.width
def State.int3 (s : State) (ty : Ty) (o : Ops) (cls : ShapeClass) (f : Int → Int → Int → Int) : State :=
  s.vecOp o cls ty.is64 [s.vA o ty.is64, s.vBfield o ty.is64, s.vC o ty.is64] fun v =>
    wrap (f (ty.int (v.getD 0 0)) (ty.int (v.getD 1 0)) (ty.int (v.getD 2 0))) ty.width
/-- A shift, whose count is always one 32-bit register read unsigned (R179, R187). -/
def State.shift (s : State) (ty : Ty) (o : Ops) (cls : ShapeClass) (f : Int → Nat → Int) : State :=
  s.vecOp o cls ty.is64 [s.vA o ty.is64, s.vB o false] fun v => wrap (f (ty.int (v.getD 0 0)) (v.getD 1 0)) ty.width
/-- Saturation at a type (R187). -/
def Ty.sat (t : Ty) (x : Int) : Int := if t.isS then satS x t.width else satU x t.width
/-- The class of an additive instruction: R68 excludes saturation. -/
def addClass (sat : Bool) : ShapeClass := if sat then .other else .additive

/-! ## Arithmetic (R187 to R192) -/

def execIadd (ty : Ty) (sat : Bool) (o : Ops) (s : State) : Out :=
  .next (s.int2 ty o (addClass sat) fun a b => if sat then Ty.sat ty (a + b) else a + b)
def execIadd3 (ty : Ty) (o : Ops) (s : State) : Out := .next (s.int3 ty o .additive fun a b c => a + b + c)
def execIsub (ty : Ty) (sat : Bool) (o : Ops) (s : State) : Out :=
  .next (s.int2 ty o (addClass sat) fun a b => if sat then Ty.sat ty (a - b) else a - b)
def execImul (ty : Ty) (o : Ops) (s : State) : Out := .next (s.int2 ty o .scaleMul fun a b => a * b)
def execImulh (ty : Ty) (o : Ops) (s : State) : Out := .next (s.int2 ty o .other fun a b => a * b / 2 ^ ty.width)
def execImad (ty : Ty) (o : Ops) (s : State) : Out := .next (s.int3 ty o .other fun a b c => a * b + c)
/-- IMADW: 32-bit a and b, pairs c and d (R188). -/
def execImadw (ty : Ty) (o : Ops) (s : State) : Out :=
  .next (s.vecOp o .other true [s.vA o false, s.vBfield o false, s.vC o true] fun v =>
    let c : Int := if ty.isS then sext (v.getD 2 0) 64 else (v.getD 2 0 : Nat)
    wrap (ty.int (v.getD 0 0) * ty.int (v.getD 1 0) + c) 64)
def execIabs (ty : Ty) (sat : Bool) (o : Ops) (s : State) : Out :=
  .next (s.int1 ty o .other fun a => if sat then Ty.sat ty a.natAbs else a.natAbs)
def execImin (ty : Ty) (o : Ops) (s : State) : Out := .next (s.int2 ty o .other fun a b => min a b)
def execImax (ty : Ty) (o : Ops) (s : State) : Out := .next (s.int2 ty o .other fun a b => max a b)
/-- One byte of a word, signed or not (R192). -/
def byteInt (sg : Bool) (x i : Nat) : Int := if sg then sext (x / 256 ^ i) 8 else zext (x / 256 ^ i) 8
def execIdot4 (_ty : Ty) (asg bsg sat : Bool) (o : Ops) (s : State) : Out :=
  .next (s.vecOp o .other false [s.vA o false, s.vBfield o false, s.vC o false] fun v =>
    let x := (List.range 4).foldl (fun n i => n + byteInt asg (v.getD 0 0) i * byteInt bsg (v.getD 1 0) i) (sext (v.getD 2 0) 32)
    if sat then satS x 32 else wrap x 32)

/-! ## Logic, shifts and counts (R187, R189) -/

def execAnd (ty : Ty) (o : Ops) (s : State) : Out := .next (s.int2 ty o .other (bitOp Nat.land))
def execOr (ty : Ty) (o : Ops) (s : State) : Out := .next (s.int2 ty o .other (bitOp Nat.lor))
def execXor (ty : Ty) (o : Ops) (s : State) : Out := .next (s.int2 ty o .other (bitOp Nat.xor))
def execNot (ty : Ty) (o : Ops) (s : State) : Out := .next (s.int1 ty o .other fun a => 2 ^ ty.width - 1 - a)
def execShl (ty : Ty) (o : Ops) (s : State) : Out := .next (s.shift ty o .scaleShl (shlInt ty.width))
def execShr (ty : Ty) (o : Ops) (s : State) : Out := .next (s.shift ty o .other (shrInt ty.width))
def execSra (ty : Ty) (o : Ops) (s : State) : Out := .next (s.shift ty o .other (sraInt ty.width))
/-- The funnel shift of R189. -/
def funnel (right wrp : Bool) (lo hi c : Nat) : Nat :=
  let k := if wrp then c % 32 else min c 32
  let v := hi * 2 ^ 32 + lo
  (if right then v / 2 ^ k else v * 2 ^ k / 2 ^ 32) % 2 ^ 32
def execShf (_ty : Ty) (right wrap : Bool) (o : Ops) (s : State) : Out :=
  .next (s.vecOp o .other false [s.vA o false, s.vBfield o false, s.vC o false] fun v => funnel right wrap (v.getD 0 0) (v.getD 1 0) (v.getD 2 0))
/-- POPC and CLZ write one register at either width. -/
def execPopc (ty : Ty) (o : Ops) (s : State) : Out := .next (s.vecOp o .other false [s.vA o ty.is64] fun v => popCount ty.width (v.getD 0 0))
def execClz (ty : Ty) (o : Ops) (s : State) : Out :=
  .next (s.vecOp o .other false [s.vA o ty.is64] fun v => ty.width - bitLen ty.width (v.getD 0 0))
def execBrev (ty : Ty) (o : Ops) (s : State) : Out := .next (s.vecOp o .other ty.is64 [s.vA o ty.is64] fun v => bitRev ty.width (v.getD 0 0))

/-! ## Bit fields and bytes (R190, R191) -/

/-- Position and length of a field, clamped to n bits. -/
def fieldOf (w n : Nat) : Nat × Nat := let p := min (fld w 7 0) n; (p, min (fld w 15 8) (n - p))
def bfe (ty : Ty) (a w : Nat) : Nat :=
  let (p, len) := fieldOf w ty.width
  let f := a / 2 ^ p % 2 ^ len
  if len = 0 then 0 else if ty.isS then wrap (sext f len) ty.width else f
def bfi (n a b w : Nat) : Nat :=
  let (p, len) := fieldOf w n
  b % 2 ^ p + a % 2 ^ len * 2 ^ p + b / 2 ^ (p + len) * 2 ^ (p + len)
def execBfe (ty : Ty) (o : Ops) (s : State) : Out :=
  .next (s.vecOp o .other ty.is64 [s.vA o ty.is64, s.vB o false] fun v => bfe ty (v.getD 0 0) (v.getD 1 0))
def execBfi (ty : Ty) (o : Ops) (s : State) : Out :=
  .next (s.vecOp o .other ty.is64 [s.vA o ty.is64, s.vBfield o ty.is64, s.vC o false] fun v => bfi ty.width (v.getD 0 0) (v.getD 1 0) (v.getD 2 0))
/-- PRMT on one lane (R191). -/
def prmt (a b c : Nat) : Nat :=
  let v := a + b * 2 ^ 32
  (List.range 4).foldl (fun n j =>
    let nib := c / 16 ^ j % 16
    let x := v / 256 ^ (nib % 8) % 256
    n + (if nib < 8 then x else if x < 128 then 0 else 255) * 256 ^ j) 0
def execPrmt (_ty : Ty) (o : Ops) (s : State) : Out :=
  .next (s.vecOp o .other false [s.vA o false, s.vBfield o false, s.vC o false] fun v => prmt (v.getD 0 0) (v.getD 1 0) (v.getD 2 0))

/-! ## LEA, ICMP, SEL and moves (R193, R194) -/

/-- LEA: at .b64 the index a is one 32-bit register. -/
def execLea (ty : Ty) (k : BitVec 6) (sx : Bool) (o : Ops) (s : State) : Out :=
  .next (s.vecOp o .additive ty.is64 [s.vA o false, s.vB o ty.is64] fun v =>
    let a : Int := if sx then sext (v.getD 0 0) 32 else (v.getD 0 0 : Nat)
    wrap ((v.getD 1 0 : Nat) + a * 2 ^ k.toNat) ty.width)
def execIcmp (ty : Ty) (cm : Cmp) (o : Ops) (s : State) : Out :=
  let a := s.vA o ty.is64
  let b := s.vB o ty.is64
  .next (s.putP o.d (maskOf fun l => cm.holds (ty.int (a.at l)) (ty.int (b.at l))) (joinDp [a, b]) (joinFp [a, b]))
/-- SEL: the source not chosen contributes no tag. -/
def execSel (ty : Ty) (o : Ops) (s : State) : Out :=
  let a := s.srcA o ty.is64
  let b := s.srcBfield o ty.is64
  let c := s.srcC o false
  let m : Word := maskOf fun l => (c.lo.lane l).getLsbD 0
  let dp := mergeMask m a.dp b.dp ||| c.dp
  let fp := mergeMask m a.fp b.fp ||| c.fp
  let one (x y : Shape) : Shape := .general ((List.range 32).map fun l => if m.getLsbD l then x.lane l else y.lane l)
  .next (s.putV ty.is64 (if ty.is64 then [s.destW o.d 0 (one a.lo b.lo) dp fp, s.destW o.d 1 (one a.hi b.hi) dp fp]
    else [s.destW o.d 0 (one a.lo b.lo) dp fp]))
def execMov (ty : Ty) (o : Ops) (s : State) : Out := .next (s.vecOp o .additive ty.is64 [s.vA o ty.is64] fun v => v.getD 0 0)
def execMovi (ty : Ty) (o : Ops) (s : State) : Out :=
  .next (s.putV ty.is64 (if ty.is64 then [s.destW o.d 0 (.uniform (o.imm.setWidth 32)) 0 0, s.destW o.d 1 (.uniform ((o.imm >>> 32).setWidth 32)) 0 0]
    else [s.destW o.d 0 (.uniform (o.imm.setWidth 32)) 0 0]))
/-- MOVA: base a, stride IMM. -/
def execMova (_ty : Ty) (o : Ops) (s : State) : Out :=
  let a := s.srcA o false
  .next (s.putV false [s.destW o.d 0 (.affine (a.lo.lane 0) (o.imm.setWidth 32)) a.dp a.fp])

end Sys2Proof.Machine
end

