-- ==== Sys2Proof/Machine/VFloat.lean ====
section
/-! DEFINITION. VFloat: the floating-point, packed, conversion, reduction and random-number instructions (R195 to R207). -/
namespace Sys2Proof.Machine

/-! ## Arithmetic (R196 to R202) -/

/-- One, two or three float sources at a type, rounded once (R196). -/
def State.fp1 (s : State) (ty : Ty) (m : Rnd) (o : Ops) (f : Fp.FVal → Fp.FVal) : State :=
  let fm := Fp.ofTy ty
  s.vecOp o .other ty.is64 [s.vA o ty.is64] fun v => Fp.enc fm m (f (Fp.val fm (v.getD 0 0)))
def State.fp2 (s : State) (ty : Ty) (m : Rnd) (o : Ops) (f : Fp.FVal → Fp.FVal → Fp.FVal) : State :=
  let fm := Fp.ofTy ty
  s.vecOp o .other ty.is64 [s.vA o ty.is64, s.vB o ty.is64] fun v => Fp.enc fm m (f (Fp.val fm (v.getD 0 0)) (Fp.val fm (v.getD 1 0)))
/-- FMA on values: the product exact, then one sum (R196, R197). -/
def fmaVal (m : Rnd) (x y z : Fp.FVal) : Fp.FVal := Fp.add m (Fp.mul x y) z

def execFadd (ty : Ty) (m : Rnd) (o : Ops) (s : State) : Out := .next (s.fp2 ty m o (Fp.add m))
/-- FSUB: x - y is the sum of x and -y, also in the sign of its zero: of R107 the model takes the
clauses on a sum, as IEEE 754 does, since its clause on a difference would make (-0) - (+0) a +0
and gives (+0) - (+0) no sign. DESIGN CHOICE. Log entry 35. -/
def execFsub (ty : Ty) (m : Rnd) (o : Ops) (s : State) : Out := .next (s.fp2 ty m o fun x y => Fp.add m x y.neg)
def execFmul (ty : Ty) (m : Rnd) (o : Ops) (s : State) : Out := .next (s.fp2 ty m o Fp.mul)
def execFma (ty : Ty) (m : Rnd) (o : Ops) (s : State) : Out :=
  let fm := Fp.ofTy ty
  .next (s.vecOp o .other ty.is64 [s.vA o ty.is64, s.vBfield o ty.is64, s.vC o ty.is64] fun v =>
    Fp.enc fm m (fmaVal m (Fp.val fm (v.getD 0 0)) (Fp.val fm (v.getD 1 0)) (Fp.val fm (v.getD 2 0))))
def execFmin (ty : Ty) (o : Ops) (s : State) : Out :=
  .next (s.vecOp o .other ty.is64 [s.vA o ty.is64, s.vB o ty.is64] fun v => Fp.fmin (Fp.ofTy ty) (v.getD 0 0) (v.getD 1 0))
def execFmax (ty : Ty) (o : Ops) (s : State) : Out :=
  .next (s.vecOp o .other ty.is64 [s.vA o ty.is64, s.vB o ty.is64] fun v => Fp.fmax (Fp.ofTy ty) (v.getD 0 0) (v.getD 1 0))
def execFcmp (ty : Ty) (cm : FCmp) (o : Ops) (s : State) : Out :=
  let fm := Fp.ofTy ty
  let a := s.vA o ty.is64
  let b := s.vB o ty.is64
  .next (s.putP o.d (maskOf fun l => cm.holds (Fp.val fm (a.at l)) (Fp.val fm (b.at l))) (joinDp [a, b]) (joinFp [a, b]))
/-- FCLASS writes one register at either type. -/
def execFclass (ty : Ty) (o : Ops) (s : State) : Out :=
  .next (s.vecOp o .other false [s.vA o ty.is64] fun v => 2 ^ Fp.fclass (Fp.ofTy ty) (v.getD 0 0))
def execFrnd (ty : Ty) (m : Rnd) (o : Ops) (s : State) : Out := .next (s.fp1 ty m o (Fp.rndInt m))
def execFrcp (ty : Ty) (m : Rnd) (o : Ops) (s : State) : Out := .next (s.fp1 ty m o Fp.rcp)
def execFrsq (ty : Ty) (m : Rnd) (o : Ops) (s : State) : Out := .next (s.fp1 ty m o Fp.rsqrt)
def execFsqrt (ty : Ty) (m : Rnd) (o : Ops) (s : State) : Out := .next (s.fp1 ty m o Fp.sqrt)
def execFdiv (ty : Ty) (m : Rnd) (o : Ops) (s : State) : Out := .next (s.fp2 ty m o Fp.div)
def execFexp2 (ty : Ty) (o : Ops) (s : State) : Out := .next (s.fp1 ty .rn o Fp.exp2)
def execFlog2 (ty : Ty) (o : Ops) (s : State) : Out := .next (s.fp1 ty .rn o Fp.log2)
def execFsin (ty : Ty) (o : Ops) (s : State) : Out := .next (s.fp1 ty .rn o Fp.sin)
def execFcos (ty : Ty) (o : Ops) (s : State) : Out := .next (s.fp1 ty .rn o Fp.cos)
def execFtanh (ty : Ty) (o : Ops) (s : State) : Out := .next (s.fp1 ty .rn o Fp.tanh)
/-- FSCALE: the exponent is one 32-bit register (R201). -/
def execFscale (ty : Ty) (m : Rnd) (o : Ops) (s : State) : Out :=
  let fm := Fp.ofTy ty
  .next (s.vecOp o .other ty.is64 [s.vA o ty.is64, s.vB o false] fun v =>
    Fp.enc fm m (Fp.scale (Fp.val fm (v.getD 0 0)) (sext (v.getD 1 0) 32)))
def execFfrac (ty : Ty) (o : Ops) (s : State) : Out := .next (s.fp1 ty .rn o Fp.frac)

/-! ## Packed halves (R203) -/

/-- Both halves of a lane. -/
def halves (f : Nat → Nat) : Nat := f 0 + f 1 * 2 ^ 16
def half (x h : Nat) : Nat := x / 2 ^ (16 * h) % 2 ^ 16
def State.pk2 (s : State) (ty : Ty) (m : Rnd) (o : Ops) (f : Fp.FVal → Fp.FVal → Fp.FVal) : State :=
  let fm := Fp.ofTy ty
  s.vecOp o .other false [s.vA o false, s.vB o false] fun v =>
    halves fun h => Fp.enc fm m (f (Fp.val fm (half (v.getD 0 0) h)) (Fp.val fm (half (v.getD 1 0) h)))
def execPkadd (ty : Ty) (m : Rnd) (o : Ops) (s : State) : Out := .next (s.pk2 ty m o (Fp.add m))
def execPkmul (ty : Ty) (m : Rnd) (o : Ops) (s : State) : Out := .next (s.pk2 ty m o Fp.mul)
def execPkfma (ty : Ty) (m : Rnd) (o : Ops) (s : State) : Out :=
  let fm := Fp.ofTy ty
  .next (s.vecOp o .other false [s.vA o false, s.vBfield o false, s.vC o false] fun v =>
    halves fun h => Fp.enc fm m (fmaVal m (Fp.val fm (half (v.getD 0 0) h)) (Fp.val fm (half (v.getD 1 0) h)) (Fp.val fm (half (v.getD 2 0) h))))

/-! ## Conversion (R112, R204, R205) -/

/-- The low bits of a source as an integer of its type. -/
def Ty.narrow (t : Ty) (x : Nat) : Int := if t.isS then sext x t.width else (zext x t.width : Nat)
/-- A conversion under R112, as the bits of the destination's width. -/
def convert (sty ty : Ty) (m : Rnd) (sat : Bool) (x : Nat) : Nat :=
  let bits := x % 2 ^ sty.width
  if sty.isFloat then
    let v := Fp.val (Fp.ofTy sty) bits
    if ty.isFloat then Fp.enc (Fp.ofTy ty) m v else Fp.toIntClamped m ty.isS ty.width v
  else
    let v := Ty.narrow sty bits
    if ty.isFloat then Fp.ofIntEnc (Fp.ofTy ty) m v
    else if sat then (if ty.isS then satS v ty.width else satU v ty.width) else wrap v ty.width
/-- A result narrower than a register: sign-extended at .s types (R204). -/
def widen (ty : Ty) (r : Nat) : Nat := if ty.isS && !ty.is64 then wrap (sext r ty.width) 32 else r
def execCvt (ty : Ty) (m : Rnd) (sty : Ty) (sat : Bool) (o : Ops) (s : State) : Out :=
  .next (s.vecOp o .other ty.is64 [s.vA o sty.is64] fun v => widen ty (convert sty ty m sat (v.getD 0 0)))
/-- CVT.f32.b32.unit (R127, R205); exact in every mode. -/
def execCvtUnit (_m : Rnd) (o : Ops) (s : State) : Out :=
  .next (s.vecOp o .other false [s.vA o false] fun v => Fp.enc Fp.f32 .rn (Fp.ofInt (v.getD 0 0 / 256 : Nat) (-24) false))

/-! ## Lane reduction (R125, R206) -/

/-- The combining operation of REDL. -/
def redStep (ty : Ty) (m : Rnd) (rop : RedOp) (x y : Nat) : Nat :=
  let fm := Fp.ofTy ty
  match rop with
  | .add => if ty.isF then Fp.enc fm m (Fp.add m (Fp.val fm x) (Fp.val fm y)) else wrap (ty.int x + ty.int y) ty.width
  | .min => if ty.isF then Fp.fmin fm x y else wrap (min (ty.int x) (ty.int y)) ty.width
  | .max => if ty.isF then Fp.fmax fm x y else wrap (max (ty.int x) (ty.int y)) ty.width
/-- The identity of an operation (R125). -/
def redIdentity (ty : Ty) (rop : RedOp) : Nat :=
  let fm := Fp.ofTy ty
  match rop with
  | .add => if ty.isF then fm.signBit else 0
  | .min => if ty.isF then fm.infBits else if ty.isS then 2 ^ (ty.width - 1) - 1 else 2 ^ ty.width - 1
  | .max => if ty.isF then fm.signBit + fm.infBits else if ty.isS then 2 ^ (ty.width - 1) else 0
/-- One level of the tree: lane i combines with lane i + h. -/
def redLevel (f : Nat → Nat → Nat) (h : Nat) (xs : List Nat) : List Nat := (List.range h).map fun i => f (xs.getD i 0) (xs.getD (i + h) 0)
/-- The levels of the tree from level `i` up to level `j` of 5 (R125). -/
def redLevels (f : Nat → Nat → Nat) (i j : Nat) (xs : List Nat) : List Nat :=
  (([16, 8, 4, 2, 1].take j).drop i).foldl (fun xs h => redLevel f h xs) xs
/-- The tree of R125. -/
def redTree (f : Nat → Nat → Nat) (xs : List Nat) : Nat := (redLevels f 0 5 xs).getD 0 0
/-- A word per lane as a slot of partial state (R208, R339). -/
def midSlot (f : Nat → Nat) : Slot := { ws := (List.range 32).map fun l => BitVec.ofNat 32 (f l), dp := 0, fp := 0 }
/-- The word of a lane in a slot of partial state. -/
def State.midWord (s : State) (k l : Nat) : Nat := ((slotAt s.iss.mid k).ws.getD l 0).toNat
/-- How far an instruction of `n` levels or rounds goes in this turn: to its end, or to where the
turn stops it, at least one further (R208). -/
def State.upTo (s : State) (n : Nat) : Nat := match s.iss.stop with | some k => min n (s.iss.pi.toNat + max 1 k) | none => n
/-- The instruction stops after level or round `j`, with its partial state (R208). -/
def State.stopAfter (s : State) (j : Nat) (mid : List Slot) : State :=
  ({ s with iss := { s.iss with mid := mid } } : State).hold { kind := .resource } s.iss.act (BitVec.ofNat 32 j)
/-- REDL (R206): once per run, over the active lanes; the turn may stop it after a level of its tree (R208). -/
def execRedl (ty : Ty) (m : Rnd) (rop : RedOp) (o : Ops) (s : State) : Out :=
  let a := s.vA o ty.is64
  let act := s.iss.act
  let i := s.iss.pi.toNat
  let xs := (List.range 32).map fun l =>
    if i = 0 then (if act.getLsbD l then a.at l else redIdentity ty rop) else s.midWord 0 l + 2 ^ 32 * s.midWord 1 l
  let ys := redLevels (redStep ty m rop) i (s.upTo 5) xs
  if act ≠ 0 ∧ s.upTo 5 < 5 then
    .next (s.stopAfter (s.upTo 5) (midSlot (ys.getD · 0) :: if ty.is64 then [midSlot fun l => ys.getD l 0 / 2 ^ 32] else []))
  else
    let x := ys.getD 0 0
    let v : Nat := if ty.isS then wrap (sext x ty.width) 64 else x
    .next (s.putS o.d (BitVec.ofNat 64 v) (tagOver a.src.dp a.src.fp act))

/-! ## Random numbers (R126, R207) -/

/-- The six words of a ZCG-10 round. -/
structure Zcg where
  x0 : Word
  x1 : Word
  x2 : Word
  x3 : Word
  k0 : Word
  k1 : Word
  deriving DecidableEq, Repr
/-- One round of ZCG-10. -/
def Zcg.round (z : Zcg) : Zcg :=
  let x0 := z.x0 + z.x1
  let x3 := (z.x3 ^^^ x0).rotateLeft 16
  let x2 := z.x2 + x3
  let x1 := (z.x1 ^^^ x2).rotateLeft 12
  let x0 := x0 + (x1 ^^^ z.k0)
  let x3 := (x3 ^^^ x0).rotateLeft 8
  let x2 := x2 + (x3 ^^^ z.k1)
  let x1 := (x1 ^^^ x2).rotateLeft 7
  ⟨x0, x1, x2, x3, z.k0 + 0x6C078965, z.k1 + 0x2F9BD317⟩
/-- Some rounds. -/
def Zcg.rounds (z : Zcg) (n : Nat) : Zcg := (List.range n).foldl (fun z _ => z.round) z
/-- The four words of a draw from the words `z` that it starts with and those `r` of its last round. -/
def Zcg.sum (z r : Zcg) : List Word := [r.x0 + z.x0, r.x1 + z.x1, r.x2 + z.x2, r.x3 + z.x3]
/-- The six words, x0 first. -/
def Zcg.words (z : Zcg) : List Word := [z.x0, z.x1, z.x2, z.x3, z.k0, z.k1]
/-- The four words of a draw. -/
def zcg10 (z : Zcg) : List Word := z.sum (z.rounds 10)
/-- RNGK (R207): y0 and y1, and without .w2 also y2 and y3; the turn may stop it after a round (R208). -/
def execRngk (_ty : Ty) (w2 : Bool) (o : Ops) (s : State) : Out :=
  let a := s.vA o true
  let b := s.vBfield o true
  let c := s.vC o true
  let lo (n : Nat) : Word := BitVec.ofNat 32 n
  let hi (n : Nat) : Word := BitVec.ofNat 32 (n / 2 ^ 32)
  let start (l : Nat) : Zcg := ⟨lo (a.at l), hi (a.at l), lo (b.at l), hi (b.at l), lo (c.at l), hi (c.at l)⟩
  let i := s.iss.pi.toNat
  let upto := s.upTo 10
  let after (l : Nat) : Zcg :=
    (if i = 0 then start l
     else ⟨lo (s.midWord 0 l), lo (s.midWord 1 l), lo (s.midWord 2 l), lo (s.midWord 3 l), lo (s.midWord 4 l), lo (s.midWord 5 l)⟩).rounds (upto - i)
  let draw (l : Nat) : List Word := (start l).sum (after l)
  if s.iss.act ≠ 0 ∧ upto < 10 then
    .next (s.stopAfter upto ((List.range 6).map fun k => midSlot fun l => ((after l).words.getD k 0).toNat))
  else
  let sh (k : Nat) : Shape := if a.uniform then .uniform ((draw 0).getD k 0) else .general ((List.range 32).map fun l => (draw l).getD k 0)
  .next (s.putV true ((List.range (if w2 then 2 else 4)).map fun k => s.destW o.d k (sh k) (joinDp [a, b, c]) (joinFp [a, b, c])))

end Sys2Proof.Machine
end

