-- ==== Sys2Proof/Machine/Dispatch.lean ====
section
/-! DEFINITION. Dispatch: one arm per constructor of `Instr`, each one call of its meaning. -/
namespace Sys2Proof.Machine

/-- The effect of an instruction or operation. -/
def exec (i : Instr) (s : State) : Host.Outcome State Fault Refusal :=
  match i with
  | .nop => Sys2Proof.Machine.execNop s
  | .bra cond o => Sys2Proof.Machine.execBra cond o s
  | .brc ty cm o => Sys2Proof.Machine.execBrc ty cm o s
  | .brx o => Sys2Proof.Machine.execBrx o s
  | .call o => Sys2Proof.Machine.execCall o s
  | .ret o => Sys2Proof.Machine.execRet o s
  | .exit o => Sys2Proof.Machine.execExit o s
  | .yield o => Sys2Proof.Machine.execYield o s
  | .sleepc o => Sys2Proof.Machine.execSleepc o s
  | .trap o => Sys2Proof.Machine.execTrap o s
  | .bkpt code o => Sys2Proof.Machine.execBkpt code o s
  | .rtt o => Sys2Proof.Machine.execRtt o s
  | .waitfault o => Sys2Proof.Machine.execWaitfault o s
  | .cropen pmask o => Sys2Proof.Machine.execCropen pmask o s
  | .crclose o => Sys2Proof.Machine.execCrclose o s
  | .crstat clr o => Sys2Proof.Machine.execCrstat clr o s
  | .spawn o => Sys2Proof.Machine.execSpawn o s
  | .join o => Sys2Proof.Machine.execJoin o s
  | .smstart o => Sys2Proof.Machine.execSmstart o s
  | .waitpred o => Sys2Proof.Machine.execWaitpred o s
  | .barinit bar mask o => Sys2Proof.Machine.execBarinit bar mask o s
  | .bara bar o => Sys2Proof.Machine.execBara bar o s
  | .barw bar o => Sys2Proof.Machine.execBarw bar o s
  | .bars bar o => Sys2Proof.Machine.execBars bar o s
  | .rninit rn s1 o => Sys2Proof.Machine.execRninit rn s1 o s
  | .rnpost rn empty o => Sys2Proof.Machine.execRnpost rn empty o s
  | .rnwait rn empty o => Sys2Proof.Machine.execRnwait rn empty o s
  | .smov o => Sys2Proof.Machine.execSmov o s
  | .sli o => Sys2Proof.Machine.execSli o s
  | .slih o => Sys2Proof.Machine.execSlih o s
  | .sadd ty o => Sys2Proof.Machine.execSadd ty o s
  | .ssub ty o => Sys2Proof.Machine.execSsub ty o s
  | .smul ty o => Sys2Proof.Machine.execSmul ty o s
  | .smulh ty o => Sys2Proof.Machine.execSmulh ty o s
  | .smad ty o => Sys2Proof.Machine.execSmad ty o s
  | .sand ty o => Sys2Proof.Machine.execSand ty o s
  | .sor ty o => Sys2Proof.Machine.execSor ty o s
  | .sxor ty o => Sys2Proof.Machine.execSxor ty o s
  | .sshl ty o => Sys2Proof.Machine.execSshl ty o s
  | .sshr ty o => Sys2Proof.Machine.execSshr ty o s
  | .ssra ty o => Sys2Proof.Machine.execSsra ty o s
  | .smin ty o => Sys2Proof.Machine.execSmin ty o s
  | .smax ty o => Sys2Proof.Machine.execSmax ty o s
  | .scmp ty cm o => Sys2Proof.Machine.execScmp ty cm o s
  | .ssel ty o => Sys2Proof.Machine.execSsel ty o s
  | .spopc ty o => Sys2Proof.Machine.execSpopc ty o s
  | .sclz ty o => Sys2Proof.Machine.execSclz ty o s
  | .sld ty sc od o => Sys2Proof.Machine.execSld ty sc od o s
  | .sst ty sc od o => Sys2Proof.Machine.execSst ty sc od o s
  | .srd idx o => Sys2Proof.Machine.execSrd idx o s
  | .swr idx o => Sys2Proof.Machine.execSwr idx o s
  | .pand o => Sys2Proof.Machine.execPand o s
  | .por o => Sys2Proof.Machine.execPor o s
  | .pxor o => Sys2Proof.Machine.execPxor o s
  | .pnot o => Sys2Proof.Machine.execPnot o s
  | .pmovs o => Sys2Proof.Machine.execPmovs o s
  | .pmovp o => Sys2Proof.Machine.execPmovp o s
  | .vote vm o => Sys2Proof.Machine.execVote vm o s
  | .lxch ty xm wid wrap o => Sys2Proof.Machine.execLxch ty xm wid wrap o s
  | .rdlane ty o => Sys2Proof.Machine.execRdlane ty o s
  | .wrlane ty o => Sys2Proof.Machine.execWrlane ty o s
  | .mtch ty all o => Sys2Proof.Machine.execMtch ty all o s
  | .csrrd idx o => Sys2Proof.Machine.execCsrrd idx o s
  | .csrwr idx o => Sys2Proof.Machine.execCsrwr idx o s
  | .iadd ty sat o => Sys2Proof.Machine.execIadd ty sat o s
  | .iadd3 ty o => Sys2Proof.Machine.execIadd3 ty o s
  | .isub ty sat o => Sys2Proof.Machine.execIsub ty sat o s
  | .imul ty o => Sys2Proof.Machine.execImul ty o s
  | .imulh ty o => Sys2Proof.Machine.execImulh ty o s
  | .imad ty o => Sys2Proof.Machine.execImad ty o s
  | .imadw ty o => Sys2Proof.Machine.execImadw ty o s
  | .iabs ty sat o => Sys2Proof.Machine.execIabs ty sat o s
  | .imin ty o => Sys2Proof.Machine.execImin ty o s
  | .imax ty o => Sys2Proof.Machine.execImax ty o s
  | .idot4 ty asg bsg sat o => Sys2Proof.Machine.execIdot4 ty asg bsg sat o s
  | .and ty o => Sys2Proof.Machine.execAnd ty o s
  | .or ty o => Sys2Proof.Machine.execOr ty o s
  | .xor ty o => Sys2Proof.Machine.execXor ty o s
  | .not ty o => Sys2Proof.Machine.execNot ty o s
  | .shl ty o => Sys2Proof.Machine.execShl ty o s
  | .shr ty o => Sys2Proof.Machine.execShr ty o s
  | .sra ty o => Sys2Proof.Machine.execSra ty o s
  | .shf ty right wrap o => Sys2Proof.Machine.execShf ty right wrap o s
  | .popc ty o => Sys2Proof.Machine.execPopc ty o s
  | .clz ty o => Sys2Proof.Machine.execClz ty o s
  | .brev ty o => Sys2Proof.Machine.execBrev ty o s
  | .bfe ty o => Sys2Proof.Machine.execBfe ty o s
  | .bfi ty o => Sys2Proof.Machine.execBfi ty o s
  | .prmt ty o => Sys2Proof.Machine.execPrmt ty o s
  | .lea ty k sx o => Sys2Proof.Machine.execLea ty k sx o s
  | .icmp ty cm o => Sys2Proof.Machine.execIcmp ty cm o s
  | .sel ty o => Sys2Proof.Machine.execSel ty o s
  | .mov ty o => Sys2Proof.Machine.execMov ty o s
  | .movi ty o => Sys2Proof.Machine.execMovi ty o s
  | .mova ty o => Sys2Proof.Machine.execMova ty o s
  | .fadd ty m o => Sys2Proof.Machine.execFadd ty m o s
  | .fsub ty m o => Sys2Proof.Machine.execFsub ty m o s
  | .fmul ty m o => Sys2Proof.Machine.execFmul ty m o s
  | .fma ty m o => Sys2Proof.Machine.execFma ty m o s
  | .fmin ty o => Sys2Proof.Machine.execFmin ty o s
  | .fmax ty o => Sys2Proof.Machine.execFmax ty o s
  | .fcmp ty cm o => Sys2Proof.Machine.execFcmp ty cm o s
  | .fclass ty o => Sys2Proof.Machine.execFclass ty o s
  | .frnd ty m o => Sys2Proof.Machine.execFrnd ty m o s
  | .frcp ty m o => Sys2Proof.Machine.execFrcp ty m o s
  | .frsq ty m o => Sys2Proof.Machine.execFrsq ty m o s
  | .fsqrt ty m o => Sys2Proof.Machine.execFsqrt ty m o s
  | .fdiv ty m o => Sys2Proof.Machine.execFdiv ty m o s
  | .fexp2 ty o => Sys2Proof.Machine.execFexp2 ty o s
  | .flog2 ty o => Sys2Proof.Machine.execFlog2 ty o s
  | .fsin ty o => Sys2Proof.Machine.execFsin ty o s
  | .fcos ty o => Sys2Proof.Machine.execFcos ty o s
  | .ftanh ty o => Sys2Proof.Machine.execFtanh ty o s
  | .fscale ty m o => Sys2Proof.Machine.execFscale ty m o s
  | .ffrac ty o => Sys2Proof.Machine.execFfrac ty o s
  | .pkadd ty m o => Sys2Proof.Machine.execPkadd ty m o s
  | .pkmul ty m o => Sys2Proof.Machine.execPkmul ty m o s
  | .pkfma ty m o => Sys2Proof.Machine.execPkfma ty m o s
  | .cvt ty m sty sat o => Sys2Proof.Machine.execCvt ty m sty sat o s
  | .cvtUnit m o => Sys2Proof.Machine.execCvtUnit m o s
  | .redl ty m rop o => Sys2Proof.Machine.execRedl ty m rop o s
  | .rngk ty w2 o => Sys2Proof.Machine.execRngk ty w2 o s
  | .ld ty hint sc od sx nodfr o => Sys2Proof.Machine.execLd ty hint sc od sx nodfr o s
  | .st ty hint sc od sx o => Sys2Proof.Machine.execSt ty hint sc od sx o s
  | .ldt ty m sc od e2 nodfr o => Sys2Proof.Machine.execLdt ty m sc od e2 nodfr o s
  | .stt ty m sc od e2 sat o => Sys2Proof.Machine.execStt ty m sc od e2 sat o s
  | .pref ty ph sx o => Sys2Proof.Machine.execPref ty ph sx o s
  | .atom ty op sc od o => Sys2Proof.Machine.execAtom ty op sc od o s
  | .atomcas ty sc od fo o => Sys2Proof.Machine.execAtomcas ty sc od fo o s
  | .atomf ty op sc od o => Sys2Proof.Machine.execAtomf ty op sc od o s
  | .red ty op sc od o => Sys2Proof.Machine.execRed ty op sc od o s
  | .fence sc od o => Sys2Proof.Machine.execFence sc od o s
  | .cmntL1 o => Sys2Proof.Machine.execCmntL1 o s
  | .cmntWb o => Sys2Proof.Machine.execCmntWb o s
  | .cmntInv o => Sys2Proof.Machine.execCmntInv o s
  | .tagrd sc od o => Sys2Proof.Machine.execTagrd sc od o s
  | .tagwr sc od clr o => Sys2Proof.Machine.execTagwr sc od clr o s
  | .sigst add irq sc od o => Sys2Proof.Machine.execSigst add irq sc od o s
  | .sigwait sg sc od o => Sys2Proof.Machine.execSigwait sg sc od o s
  | .rstr cnt1 trapnak od o => Sys2Proof.Machine.execRstr cnt1 trapnak od o s
  | .ibarm ctr o => Sys2Proof.Machine.execIbarm ctr o s
  | .ibarmDis ctr o => Sys2Proof.Machine.execIbarmDis ctr o s
  | .ibwait ctr o => Sys2Proof.Machine.execIbwait ctr o s
  | .ibstatSend clr o => Sys2Proof.Machine.execIbstatSend clr o s
  | .ibstatIbox ctr o => Sys2Proof.Machine.execIbstatIbox ctr o s
  | .cpy ord o => Sys2Proof.Machine.execCpy ord o s
  | .cpy2d ord sp dp o => Sys2Proof.Machine.execCpy2d ord sp dp o s
  | .cpyg ord cnt e16 sx o => Sys2Proof.Machine.execCpyg ord cnt e16 sx o s
  | .cpyt ord pclr o => Sys2Proof.Machine.execCpyt ord pclr o s
  | .cpyto ord tf o => Sys2Proof.Machine.execCpyto ord tf o s
  | .tld ty cnt1 col o => Sys2Proof.Machine.execTld ty cnt1 col o s
  | .tst ty cnt1 col o => Sys2Proof.Machine.execTst ty cnt1 col o s
  | .mbinit sc o => Sys2Proof.Machine.execMbinit sc o s
  | .mbexp arv o => Sys2Proof.Machine.execMbexp arv o s
  | .mbarv o => Sys2Proof.Machine.execMbarv o s
  | .mbwait o => Sys2Proof.Machine.execMbwait o s
  | .mbtest o => Sys2Proof.Machine.execMbtest o s
  | .coll ord sys op alg ety rop cnum root chunk o => Sys2Proof.Machine.execColl ord sys op alg ety rop cnum root chunk o s
  | .clwait o => Sys2Proof.Machine.execClwait o s
  | .binadd ty o => Sys2Proof.Machine.execBinadd ty o s
  | .binrd sc od clr o => Sys2Proof.Machine.execBinrd sc od clr o s
  | .binpatch clr npkt gsh o => Sys2Proof.Machine.execBinpatch clr npkt gsh o s
  | .mma ty af bf asgn bsgn asrc sq grp aq bq o => Sys2Proof.Machine.execMma ty af bf asgn bsgn asrc sq grp aq bq o s
  | .mmaq ty af bf asgn bsgn asrc sq grp aq bq o => Sys2Proof.Machine.execMmaq ty af bf asgn bsgn asrc sq grp aq bq o s
  | .mzero o => Sys2Proof.Machine.execMzero o s
  | .mwait o => Sys2Proof.Machine.execMwait o s
  | .mfence o => Sys2Proof.Machine.execMfence o s
  | .mcfg quar astride => Sys2Proof.Machine.execMcfg quar astride s
  | .mstep o => Sys2Proof.Machine.execMstep o s
  | .mstat o => Sys2Proof.Machine.execMstat o s
  | .agingIssue key => Sys2Proof.Machine.execAgingIssue key s
  | .storeQueueDrain key => Sys2Proof.Machine.execStoreQueueDrain key s
  | .l2Forward die => Sys2Proof.Machine.execL2Forward die s
  | .cisternWriteAck die => Sys2Proof.Machine.execCisternWriteAck die s
  | .l1Eviction core sector => Sys2Proof.Machine.execL1Eviction core sector s
  | .resolve vd x => Sys2Proof.Machine.execResolve vd x s
  | .fbconsWrite vd value => Sys2Proof.Machine.execFbconsWrite vd value s
  | .dlconsWrite vd value => Sys2Proof.Machine.execDlconsWrite vd value s
  | .registerWrite w => Sys2Proof.Machine.execRegisterWrite w s
  | .generationRaiseComplete vd space => Sys2Proof.Machine.execGenerationRaiseComplete vd space s
  | .engineReport cmd off len => Sys2Proof.Machine.execEngineReport cmd off len s
  | .copyRetire cmd => Sys2Proof.Machine.execCopyRetire cmd s
  | .engineFault cmd => Sys2Proof.Machine.execEngineFault cmd s
  | .engineErrorTaken key => Sys2Proof.Machine.execEngineErrorTaken key s
  | .collJobComplete job ranks => Sys2Proof.Machine.execCollJobComplete job ranks s
  | .collJobFailNotice job => Sys2Proof.Machine.execCollJobFailNotice job s
  | .commTimeout job => Sys2Proof.Machine.execCommTimeout job s
  | .binpatchJob job => Sys2Proof.Machine.execBinpatchJob job s
  | .binaddPerform op => Sys2Proof.Machine.execBinaddPerform op s
  | .matrixStepDrain team errs => Sys2Proof.Machine.execMatrixStepDrain team errs s
  | .remoteStoreArrival m => Sys2Proof.Machine.execRemoteStoreArrival m s
  | .rstrOutcome o => Sys2Proof.Machine.execRstrOutcome o s
  | .remoteNakTrap key => Sys2Proof.Machine.execRemoteNakTrap key s
  | .remoteAccess r => Sys2Proof.Machine.execRemoteAccess r s
  | .remoteAccessTimeout who => Sys2Proof.Machine.execRemoteAccessTimeout who s
  | .sigwaitTimeout key => Sys2Proof.Machine.execSigwaitTimeout key s
  | .ibwaitTimeout key => Sys2Proof.Machine.execIbwaitTimeout key s
  | .mbwaitTimeout key => Sys2Proof.Machine.execMbwaitTimeout key s
  | .clwaitTimeout key => Sys2Proof.Machine.execClwaitTimeout key s
  | .sleepcExpiry key => Sys2Proof.Machine.execSleepcExpiry key s
  | .teamStart p => Sys2Proof.Machine.execTeamStart p s
  | .sliceExpiry team => Sys2Proof.Machine.execSliceExpiry team s
  | .preempt team => Sys2Proof.Machine.execPreempt team s
  | .teamRestore team p => Sys2Proof.Machine.execTeamRestore team p s
  | .kick vd off size word => Sys2Proof.Machine.execKick vd off size word s
  | .packetFetch vd iq => Sys2Proof.Machine.execPacketFetch vd iq s
  | .pseqRereadExpiry vd iq => Sys2Proof.Machine.execPseqRereadExpiry vd iq s
  | .packetStart vd iq idx => Sys2Proof.Machine.execPacketStart vd iq idx s
  | .preJobsDone vd iq idx => Sys2Proof.Machine.execPreJobsDone vd iq idx s
  | .waitPacketSatisfied vd iq idx => Sys2Proof.Machine.execWaitPacketSatisfied vd iq idx s
  | .waitPacketTimeout vd iq idx => Sys2Proof.Machine.execWaitPacketTimeout vd iq idx s
  | .bundleRetire vd iq idx => Sys2Proof.Machine.execBundleRetire vd iq idx s
  | .packetComplete vd iq idx => Sys2Proof.Machine.execPacketComplete vd iq idx s
  | .create e => Sys2Proof.Machine.execCreate e s
  | .destroy e => Sys2Proof.Machine.execDestroy e s
  | .activate e => Sys2Proof.Machine.execActivate e s
  | .deactivate e => Sys2Proof.Machine.execDeactivate e s
  | .pause e => Sys2Proof.Machine.execPause e s
  | .resume e => Sys2Proof.Machine.execResume e s
  | .kill e => Sys2Proof.Machine.execKill e s
  | .partition e => Sys2Proof.Machine.execPartition e s
  | .setcfgWeight e => Sys2Proof.Machine.execSetcfgWeight e s
  | .setcfgHbmWeir e => Sys2Proof.Machine.execSetcfgHbmWeir e s
  | .setcfgBrixayWeir e => Sys2Proof.Machine.execSetcfgBrixayWeir e s
  | .setcfgPeer e => Sys2Proof.Machine.execSetcfgPeer e s
  | .setcfgGqtbase e => Sys2Proof.Machine.execSetcfgGqtbase e s
  | .setcfgGroot e => Sys2Proof.Machine.execSetcfgGroot e s
  | .setcfgHroot e => Sys2Proof.Machine.execSetcfgHroot e s
  | .setcfgRemap e => Sys2Proof.Machine.execSetcfgRemap e s
  | .setcfgModes e => Sys2Proof.Machine.execSetcfgModes e s
  | .setcfgStackPool e => Sys2Proof.Machine.execSetcfgStackPool e s
  | .setcfgSavePool e => Sys2Proof.Machine.execSetcfgSavePool e s
  | .setcfgSlice e => Sys2Proof.Machine.execSetcfgSlice e s
  | .setcfgPowerLimit e => Sys2Proof.Machine.execSetcfgPowerLimit e s
  | .gen e => Sys2Proof.Machine.execGen e s
  | .qbind e => Sys2Proof.Machine.execQbind e s
  | .qctlEnable e => Sys2Proof.Machine.execQctlEnable e s
  | .qctlResume e => Sys2Proof.Machine.execQctlResume e s
  | .qctlReset e => Sys2Proof.Machine.execQctlReset e s
  | .grant e => Sys2Proof.Machine.execGrant e s
  | .comm e => Sys2Proof.Machine.execComm e s
  | .podnum e => Sys2Proof.Machine.execPodnum e s
  | .deviceReset => Sys2Proof.Machine.execDeviceReset s
  | .dieReset die => Sys2Proof.Machine.execDieReset die s
  | .dieLoss die => Sys2Proof.Machine.execDieLoss die s
  | .dielostTrap key => Sys2Proof.Machine.execDielostTrap key s
  | .sparePromotion die => Sys2Proof.Machine.execSparePromotion die s
  | .staleResponse r => Sys2Proof.Machine.execStaleResponse r s
  | .uncorrectableError site => Sys2Proof.Machine.execUncorrectableError site s
  | .hwerrTaken key => Sys2Proof.Machine.execHwerrTaken key s
  | .kaInjection k => Sys2Proof.Machine.execKaInjection k s
  | .scrubSector sector found => Sys2Proof.Machine.execScrubSector sector found s
  | .scrubWrite sector => Sys2Proof.Machine.execScrubWrite sector s
  | .vfFlr vd => Sys2Proof.Machine.execVfFlr vd s
  | .pfFlr => Sys2Proof.Machine.execPfFlr s
  | .d3hotEntry => Sys2Proof.Machine.execD3hotEntry s
  | .d0Return => Sys2Proof.Machine.execD0Return s
  | .thermalThrottle junction watts => Sys2Proof.Machine.execThermalThrottle junction watts s
  | .thermalStop junction => Sys2Proof.Machine.execThermalStop junction s
  | .getVersion q => Sys2Proof.Machine.execGetVersion q s
  | .getCapabilities q => Sys2Proof.Machine.execGetCapabilities q s
  | .negotiateAlgorithms q => Sys2Proof.Machine.execNegotiateAlgorithms q s
  | .getDigests q => Sys2Proof.Machine.execGetDigests q s
  | .getCertificate q => Sys2Proof.Machine.execGetCertificate q s
  | .challenge q => Sys2Proof.Machine.execChallenge q s
  | .getMeasurements q => Sys2Proof.Machine.execGetMeasurements q s
  | .keyExchange q => Sys2Proof.Machine.execKeyExchange q s
  | .finish q => Sys2Proof.Machine.execFinish q s
  | .keyUpdate q => Sys2Proof.Machine.execKeyUpdate q s
  | .endSession q => Sys2Proof.Machine.execEndSession q s
  | .lockInterfaceRequest vd => Sys2Proof.Machine.execLockInterfaceRequest vd s
  | .stopInterfaceRequest vd => Sys2Proof.Machine.execStopInterfaceRequest vd s
  | .freorImageLoad img => Sys2Proof.Machine.execFreorImageLoad img s
  | .freorDirtyLogDrain vd x => Sys2Proof.Machine.execFreorDirtyLogDrain vd x s
  | .retirementListClear x => Sys2Proof.Machine.execRetirementListClear x s
  | .fabricError job => Sys2Proof.Machine.execFabricError job s
  | .fbenWrite vd value => Sys2Proof.Machine.execFbenWrite vd value s
  | .l2Eviction die sector => Sys2Proof.Machine.execL2Eviction die sector s
  | .migration key core quad => Sys2Proof.Machine.execMigration key core quad s
  | .freorCollectiveSetup vd cnum rec => Sys2Proof.Machine.execFreorCollectiveSetup vd cnum rec s
  | .ideKmKeyProgramming session stream key => Sys2Proof.Machine.execIdeKmKeyProgramming session stream key s
  | .startInterfaceRequest vd => Sys2Proof.Machine.execStartInterfaceRequest vd s
  | .interfaceReportRequest vd => Sys2Proof.Machine.execInterfaceReportRequest vd s
  | .msixVectorUnmask func vec => Sys2Proof.Machine.execMsixVectorUnmask func vec s

end Sys2Proof.Machine
end

