-- ==== Sys2Proof/Machine/Step.lean ====
section
/-! DEFINITION. Step: one turn of the schedule. -/
namespace Sys2Proof.Machine

/-- The result of a turn: over, or the effect of the instruction it issues. -/
def runTurn (t : Turned) : Host.Outcome State Fault Refusal :=
  match t with
  | .done s => .next s
  | .run i s => exec i s

/-- The instruction that a turn runs stops part-way, where it has a stop point that soon (R208, R251). -/
def Turned.stopAt (t : Turned) (n : Nat) : Turned :=
  match t with
  | .done s => .done s
  | .run i s => .run i { s with iss := { s.iss with stop := some n } }

/-- One step: the next turn of the schedule (log entry 1). With nothing scheduled, one clock
passes. A stopped device (R432) faults on every turn but a device reset. -/
def step (s : State) : Host.Outcome State Fault Refusal :=
  match s.agenda with
  | [] => .next (s.tick 1 0)
  | t :: rest =>
    let s' := { s with agenda := rest }.tick t.clocks t.ns t.skew
    match t.who with
    | .event .deviceReset => exec .deviceReset s'
    | who =>
      if s.stopped then .fault .stopped
      else
        match who with
        | .group k => runTurn (s'.issue k)
        | .part k n => runTurn ((s'.issue k).stopAt n)
        | .freor => runTurn s'.nextCommand
        | .event i => if Instr.isEvent i then exec i s' else .refused .notAnEvent

/-- The machine with an instruction of `nbits` bits placed where the next step fetches it. Log entry 11. -/
def State.withFetchWord (s : State) (nbits w : Nat) : State := s.place (w % 2 ^ nbits)

end Sys2Proof.Machine
end

