-- ==== Sys2Proof/Safety.lean ====
section
/-! DEFINITION. Safety: what a safe state and a safe run are (every store of memory in its canonical form), and the terms in which claims speak of an instruction's effect: what a group's instruction leaves unchanged, and what a lane, uniform or predicate result is. -/
namespace Sys2Proof.Machine

/-! ## Safe states and runs -/

/-- Every store of the device is in canonical form. -/
def MemSys.wf (m : MemSys) : Bool :=
  Mem.wf m.hbm && Mem.wf m.host && Mem.wf m.remote && Mem.wf m.scratch && Mem.wf m.tile && Mem.wf m.side
/-- The invariant of claims about steps. -/
def State.safe (s : State) : Prop := s.mem.wf = true
/-- A run of `n` steps that stays safe. -/
def safeRun : Nat → State → Prop
  | 0, s => s.safe
  | n + 1, s => s.safe ∧ ∀ t, step s = .next t → safeRun n t

/-! ## What an instruction leaves unchanged -/

/-- Group `h` is group `g` after an instruction issued as `i` that may write the vector registers
`vs`, the s registers `ss` and the predicates `ps`, and that sends the lanes of its run to the PCs
`to`: every other register keeps value and tags (in a replay the frame has set every PC), the
group waits for nothing, and nothing else of the group has changed. -/
structure Group.Moved (i : Issue) (g h : Group) (vs ss ps : List Nat) (to' : Nat → Option DWord) : Prop where
  rest : h = { g with v := h.v, s := h.s, p := h.p, pcs := h.pcs, wait := {}, part := none, pi := 0, replay := h.replay,
                      winHit := h.winHit, vdirty := h.vdirty }
  vregs : ∀ k, k ∉ vs → h.vreg k = g.vreg k
  sregs : ∀ k, k ∉ ss → h.sreg k = g.sreg k
  pregs : ∀ k, k ∉ ps → h.preg k = g.preg k
  pcs : ∀ l < 32, h.pcs.getD l none = if !i.replay && i.xm.getLsbD l then to' l else g.pcs.getD l none
  replay : h.replay = if i.replay then g.replay.tail else g.replay
  noted : vs = [] → h.winHit = g.winHit ∧ h.vdirty = g.vdirty

/-- State `t` is state `s` after the issuing group's instruction, which may write the registers
`vs`, `ss`, `ps` of that group and sends its lanes to `to`: every other group, every team, every VD
and every byte of memory is as it was. -/
structure State.RanTo (s t : State) (vs ss ps : List Nat) (to' : Nat → Option DWord) : Prop where
  rest : t = { s with groups := t.groups }
  others : ∀ k, k ≠ s.iss.key → mfind t.groups k = mfind s.groups k
  self : Group.Moved s.iss s.grp t.grp vs ss ps to'
/-- The same, where the lanes go on to the next instruction. -/
abbrev State.Ran (s t : State) (vs ss ps : List Nat) : Prop := s.RanTo t vs ss ps fun _ => some s.iss.npc

/-- Every byte of every store reads in `t` as it does in `s`. -/
structure State.SameBytes (s t : State) : Prop where
  hbm : ∀ a, t.hbmByte a = s.hbmByte a
  host : ∀ a, t.hostByte a = s.hostByte a
  remote : ∀ a, t.remoteByte a = s.remoteByte a
  scratch : ∀ a, t.scratchByte a = s.scratchByte a
  tile : ∀ r c, t.tileByte r c = s.tileByte r c
  side : ∀ r c, t.sideByte r c = s.sideByte r c

/-- No line of an L2 has to be given up by the next few fills: the copies are fewer than its lines by 1,024. -/
def State.Roomy (s : State) : Prop := s.mem.l2.length + 1024 ≤ Config.l2Lines
/-- A byte of local HBM is in the cistern what it was, or, where a full L2 gave up a line, what a
copy had dirty (R213, R218). -/
def State.HbmKept (s t : State) (a : Nat) : Prop :=
  t.hbmByte a = s.hbmByte a ∨ (¬s.Roomy ∧ ∃ c ∈ s.mem.l2, a ∈ c.dirty ∧ (a, t.hbmByte a) ∈ c.data)
/-- Every byte of every store reads in `t` as it does in `s`, but for lines that a full L2 has written back. -/
structure State.CopiedBytes (s t : State) : Prop where
  hbm : ∀ a, s.HbmKept t a
  host : ∀ a, t.hostByte a = s.hostByte a
  remote : ∀ a, t.remoteByte a = s.remoteByte a
  scratch : ∀ a, t.scratchByte a = s.scratchByte a
  tile : ∀ r c, t.tileByte r c = s.tileByte r c
  side : ∀ r c, t.sideByte r c = s.sideByte r c

/-! ## Results -/

/-- The tag that lane `l` of a vector register bears. -/
def VReg.tag (r : VReg) (l : Nat) : Tag := tagAt r.dp r.fp l
/-- The guard's tag in lane `l` (R182). -/
def Issue.guardTag (i : Issue) (l : Nat) : Tag := tagAt i.gdp i.gfp l
/-- The join of the tags of the sources and the guard in lane `l` (R89, R182). -/
def joinTags (i : Issue) (xs : List WSrc) (l : Nat) : Tag := xs.foldl (fun t x => t.join (x.src.tag l)) (i.guardTag l)

/-- Register `k` after a lane instruction: the active lanes hold `val` with tag `tag`, the other
live lanes what they held (R69). A register of an unreleased B window holds an undefined value (R241),
so nothing is said of its value. -/
def State.HoldsV (s t : State) (k : Nat) (val : Nat → Nat) (tag : Nat → Tag) : Prop :=
  ∀ l < 32,
    (t.grp.vreg k).tag l = (if s.iss.act.getLsbD l then tag l else (s.grp.vreg k).tag l) ∧
    (s.grp.winOf k = none →
      (s.iss.act.getLsbD l = true → (t.grp.vreg k).val.lane l = BitVec.ofNat 32 (val l)) ∧
      (s.iss.act.getLsbD l = false → s.grp.live.getLsbD l = true → (t.grp.vreg k).val.lane l = (s.grp.vreg k).val.lane l))

/-- Whether R65 lets a write of one register, or of a pair, go ahead whatever the values: general
registers, or a write of every live lane from uniform sources. -/
def State.Fits (s : State) (d : Nat) (d64 : Bool) (xs : List WSrc) : Prop :=
  d + (if d64 then 2 else 1) ≤ s.grp.ngen ∨ (s.grp.whole s.iss.act = true ∧ ∀ x ∈ xs, x.uniform = true)

/-- The registers of a result. -/
def resultRegs (d : Nat) (d64 : Bool) : List Nat := if d64 then [d, d + 1] else [d]

/-- `t` is `s` after a lane instruction that writes `val` with tags `tag` to register `d`, or to the
pair from `d`, in its active lanes, and changes nothing else (R69). -/
def State.LaneDone (s t : State) (d : Nat) (d64 : Bool) (val : Nat → Nat) (tag : Nat → Tag) : Prop :=
  s.Ran t (resultRegs d d64) [] [] ∧ s.HoldsV t d val tag ∧ (d64 = true → s.HoldsV t (d + 1) (fun l => val l / 2 ^ 32) tag)
/-- A lane instruction completes: its destination register, or pair, holds `f` of the sources' lane
values in every active lane, with the joined tags, and nothing else changes (R69, R182, R187). -/
def State.LaneOp (s : State) (o : Ops) (d64 : Bool) (xs : List WSrc) (f : List Nat → Nat) (r : Out) : Prop :=
  s.iss.act ≠ 0 → s.Fits o.d.reg d64 xs →
    ∃ t, r = .next t ∧ s.LaneDone t o.d.reg d64 (fun l => f (xs.map fun x => x.at l)) (joinTags s.iss xs)

/-- The tag a uniform result bears: that of the sources and of the guard in the executing lanes (R130). -/
def State.uniTag (s : State) (t : Tag) : Tag := t.join (tagOver s.iss.gdp s.iss.gfp s.iss.act)
/-- A uniform instruction completes: its destination s register holds `x` with the tag `tag` joined
with the guard's, and nothing else changes. -/
def State.UniOp (s : State) (o : Ops) (x : DWord) (tag : Tag) (r : Out) : Prop :=
  s.iss.act ≠ 0 → ∃ t, r = .next t ∧ s.Ran t [] [o.d.reg] [] ∧ t.grp.sreg o.d.reg = ⟨x, s.uniTag tag⟩
/-- A predicate instruction completes: in the active lanes the destination holds `val` with tag
`tag` joined with the guard's, the other lanes keep theirs, and nothing else changes (R61). -/
def State.PredOp (s : State) (o : Ops) (val : Nat → Bool) (tag : Nat → Tag) (r : Out) : Prop :=
  s.iss.act ≠ 0 →
    ∃ t, r = .next t ∧ s.Ran t [] [] [o.d.reg] ∧ ∀ l < 32,
      (t.grp.preg o.d.reg).val.getLsbD l = (if s.iss.act.getLsbD l then val l else (s.grp.preg o.d.reg).val.getLsbD l) ∧
      tagAt (t.grp.preg o.d.reg).dp (t.grp.preg o.d.reg).fp l =
        if s.iss.act.getLsbD l then (tag l).join (s.iss.guardTag l) else tagAt (s.grp.preg o.d.reg).dp (s.grp.preg o.d.reg).fp l

/-! ## Reading a source at a type (R165, R187) -/

/-- A 64-bit source read at a type: its low bits in two's complement at .s types, unsigned otherwise. -/
def readAs (ty : Ty) (x : DWord) : Int := if ty.isS then (x.setWidth ty.width).toInt else ((x.setWidth ty.width).toNat : Int)
/-- An exact result wrapped to a type's width and extended to 64 bits as the type says. -/
def extendAs (ty : Ty) (x : Int) : DWord := if ty.isS then (BitVec.ofInt ty.width x).signExtend 64 else (BitVec.ofInt ty.width x).setWidth 64

/-- The join of the tags of the lanes of a mask (R172, R175). -/
def tagsOver (m : Word) (tag : Nat → Tag) : Tag := (List.range 32).foldl (fun t l => if m.getLsbD l then t.join (tag l) else t) .clean
/-- Bit 0 of a predicate operand in a lane. -/
def Src.bit0 (x : Src) (l : Nat) : Bool := (x.lo.lane l).getLsbD 0

/-- The special registers in the order of their indices (R58). -/
def State.specials (s : State) : List DWord :=
  let g := s.grp
  [0, BitVec.ofNat 64 g.grpid, s.team.teamid.setWidth 64, BitVec.ofNat 64 g.core, BitVec.ofNat 64 (dieOf g.core), g.gname, s.cyc,
   s.iss.xm.setWidth 64, g.tc.setWidth 64, g.td0.setWidth 64, g.td1.setWidth 64, g.td2.setWidth 64, g.pi.setWidth 64]
/-- The system registers in the order of their indices (R177). -/
def State.csrs (s : State) : List DWord :=
  let g := s.grp
  [g.tvec, g.tarea, g.spq, if g.inhdl then 1 else 0, (s.vd g.vd).jdrop, g.tdmask.setWidth 64]
/-- An instruction with an active lane changes its group by `f` and finishes (`BranchTargets` says what finishing does). -/
def State.Does (s : State) (f : Group → Group) (r : Out) : Prop := s.iss.act ≠ 0 → r = .next (s.updGrp f).finish

/-! ## Conditions of control instructions -/

/-- A branch's guard carries no poison in any lane of the run (R130). -/
def State.GuardClean (s : State) (g : Option Guard) : Prop := g.isSome = true → (s.iss.gdp ||| s.iss.gfp) &&& s.iss.xm = 0
/-- A source carries no poison in the lanes `m`. -/
def Src.CleanIn (x : Src) (m : Word) : Prop := (x.dp ||| x.fp) &&& m = 0
/-- The issuing group is in the table and its team resident in the table of teams. -/
def State.Present (s : State) : Prop := mfind s.groups s.iss.key = some s.grp ∧ mfind s.teams s.grp.tid = some s.team
/-- A group waits on neither a numbered barrier nor a runnel. -/
def Group.notWaiting (g : Group) : Prop := g.wait.kind ≠ .barrier ∧ g.wait.kind ≠ .runnel
/-- No other group of the issuing group's team waits on a numbered barrier or a runnel. -/
def State.NobodyWaits (s : State) : Prop :=
  ∀ e ∈ s.groups, e.1 ≠ s.iss.key → e.2.tid = s.grp.tid → e.2.notWaiting ∧ (mget {} s.groups e.1).notWaiting
/-- Team `tid` has a group, and none of its groups waits on a numbered barrier or a runnel: no event starves it. -/
def State.Awake (s : State) (tid : Nat) : Prop :=
  (∃ e ∈ s.groups, e.2.tid = tid) ∧ ∀ e ∈ s.groups, e.2.tid = tid → e.2.notWaiting ∧ (mget {} s.groups e.1).notWaiting
/-- Group `g`, which is group `k` of the table, has a trap handler that it may enter, and a trap area in its scratchpad (R144, R341). -/
structure State.CanTrap (s : State) (k : Nat) (g : Group) : Prop where
  here : mfind s.groups k = some g
  vector : g.role ≠ .stream ∧ g.tvec ≠ 0 ∧ g.inhdl = false
  area : windowOf g.tarea.toNat = .scratch ∧ g.tareaOk (mget {} s.teams g.tid) = true
  noRequest : s.groupReqs k = []
/-- The issuing group may enter its handler. -/
def State.HasHandler (s : State) : Prop := s.Present ∧ s.CanTrap s.iss.key s.grp
/-- Group `g` is on its core, in no move, with no trap of its own under way. -/
def State.OnCore (s : State) (g : Group) : Prop := (mget {} s.teams g.tid).saved = none ∧ g.moving = none ∧ g.trapping = none
/-- A group has entered its handler for cause `c`: the detail registers, INHDL, one run of the live
lanes at TVEC, nothing left to wait for, and every register of the group kept (R144, R337). -/
structure Group.Entered (g h : Group) (c : Pending) : Prop where
  cause : h.tc = BitVec.ofNat 5 c.cause
  detail : h.td0 = c.td0 ∧ h.td1 = c.td1 ∧ h.td2 = c.td2
  inhdl : h.inhdl = true
  pcs : ∀ l < 32, h.pcs.getD l none = if (g.pcs.getD l none).isSome then some g.tvec else none
  idle : h.wait = {} ∧ h.part = none ∧ h.pi = 0 ∧ h.replay = []
  regs : h.v = g.v ∧ h.s = g.s ∧ h.p = g.p ∧ h.regions = g.regions ∧ h.tvec = g.tvec ∧ h.tarea = g.tarea

/-! ## Accesses to memory -/

/-- An address passes the checks of an access: aligned, in a window that the instruction takes,
inside the stack or the reservation (R210, R211, R248). -/
structure State.Admits (s : State) (m : Access) (ea : Nat) : Prop where
  aligned : m.aligned = true → ea % m.n = 0
  window : m.win.takes (windowOfN ea m.n) = true
  bounds : s.boundCode ea m.n = none
/-- Lanes with their addresses, taken in order, all reach memory: `ls` gives each lane's location
and `t` is the state that their translations leave (R248, R249). -/
def Reached (m : Access) (refuse : Nat → Nat → Loc → Option Pending) : List (Nat × Nat) → State → List (Nat × Loc) → State → Prop
  | [], s, ls, t => ls = [] ∧ t = s
  | (l, ea) :: xs, s, ls, t => ∃ loc r rest, s.locate l ea m.acc (spanOf m.n) = (.ok loc, r) ∧ refuse l ea loc = none ∧
      ls = (l, loc) :: rest ∧ Reached m refuse xs r rest t
/-- A lane access goes ahead in every active lane: it is fresh, its destination takes a general
write, its operands carry no poison, every address passes the checks, and every lane reaches
memory without waiting; `ls` are the locations and `t` the state after translation. -/
structure State.Ready (s : State) (m : Access) (srcs : List Consumed) (eas : List Nat) (refuse : Nat → Nat → Loc → Option Pending)
    (ls : List (Nat × Loc)) (t : State) : Prop where
  lanes : s.iss.act ≠ 0
  fresh : s.iss.act &&& ~~~s.iss.pend = 0 ∧ s.iss.pi = 0
  whole : s.iss.stop = none
  dst : ∀ d ∈ m.dst, d < s.grp.ngen ∨ (m.general = false ∧ s.grp.whole s.iss.act = true)
  clean : ∀ x ∈ srcs, (x.dp ||| x.fp) &&& x.lanes = 0
  admits : ∀ l < 32, s.iss.act.getLsbD l = true → s.Admits m (eas.getD l 0)
  still : s.stalled m ((lanesOf s.iss.act).map fun l => (l, eas.getD l 0)) = false
  idle : s.groupReqs s.iss.key = []
  reached : Reached m refuse ((lanesOf s.iss.act).map fun l => (l, eas.getD l 0)) s ls t
/-- The same of a uniform access, made once at the lowest active lane. -/
structure State.OnceReady (s : State) (m : Access) (ea : Nat) (loc : Loc) (t : State) : Prop where
  lanes : s.iss.act ≠ 0
  admits : s.Admits m ea
  still : s.stalled m [(lowLane s.iss.act, ea)] = false
  idle : s.groupReqs s.iss.key = []
  reached : s.locate (lowLane s.iss.act) ea m.acc (spanOf m.n) = (.ok loc, t)
/-- Where a lane's access went. -/
def locAt (ls : List (Nat × Loc)) (l : Nat) : Loc := ((ls.find? fun e => e.1 == l).map fun e => e.2).getD { space := .hbm, addr := 0 }

/-- `t` is `s` after a load by the issuing group into the registers named: besides them only
translations, copies in caches, the counter of free values and what the noted writes to matrix
operands have reached may differ, and no byte of memory. -/
structure State.Loaded (s t : State) (vs ss : List Nat) : Prop where
  rest : t = { s with groups := t.groups, vds := t.vds, mem := t.mem, tlb := t.tlb, walkCache := t.walkCache, marks := t.marks, freeCtr := t.freeCtr }
  vds : ∀ k, t.vd k = s.vd k
  others : ∀ k, k ≠ s.iss.key → mfind t.groups k = mfind s.groups k
  self : Group.Moved s.iss s.grp t.grp vs ss [] fun _ => some s.iss.npc
  bytes : s.CopiedBytes t
/-- `t` is `s` after an instruction of the issuing group whose release, if it makes one, leaves `b`,
and that may also change its store queue and memory, but of the groups nothing else than the
registers named; a release takes the noted writes of its registers along (R242). -/
structure State.WroteFrom (s b t : State) (vs ss : List Nat) : Prop where
  others : ∀ k, k ≠ s.iss.key → mfind t.groups k = mfind s.groups k
  self : Group.Moved s.iss { b.grp with sq := t.grp.sq, vdirty := t.grp.vdirty } t.grp vs ss [] fun _ => some s.iss.npc
  marks : vs = [] → t.grp.vdirty = b.grp.vdirty ∨ t.grp.vdirty = []
/-- The same where no release has to wait for anything of the group's own but its stores. -/
abbrev State.Wrote (s t : State) (vs ss : List Nat) : Prop := s.WroteFrom s t vs ss

/-- What a load by the group finds of a queue of its stores after the stores `ls` have joined it:
the bytes of the highest lane that stores to an address, and elsewhere what it found before (R223, R224). -/
def Joins (q q' : List QStore) (ls : List (Nat × Loc × List Byte)) : Prop :=
  (∀ e ∈ ls, ∀ i < e.2.2.length,
    (∀ e' ∈ ls, e.1 < e'.1 → e'.2.1.space = e.2.1.space → ∀ j < e'.2.2.length, e'.2.1.byteAt j ≠ e.2.1.byteAt i) →
      forwarded q' e.2.1.space (e.2.1.byteAt i) = some (e.2.2.getD i 0)) ∧
  ∀ sp a, (∀ e ∈ ls, e.2.1.space = sp → ∀ i < e.2.2.length, e.2.1.byteAt i ≠ a) → forwarded q' sp a = forwarded q sp a
/-- The poison that a queue of stores gives each sector once the stores `ls` have joined it: set
where a lane that `bad` names touches the sector, cleared where the clean lanes cover it, else as before (R252). -/
def Marks (q q' : List QStore) (ls : List (Nat × Loc × List Byte)) (bad : Nat → Bool) : Prop :=
  ∀ sp sec x, queuedPoison q' sp sec x = true ↔
    (∃ e ∈ ls, e.2.1.space = sp ∧ bad e.1 = true ∧ ∃ i < e.2.2.length, sectorOf (e.2.1.byteAt i) = sec) ∨
    (queuedPoison q sp sec x = true ∧
      ∃ a, sectorOf a = sec ∧ ∀ e ∈ ls, e.2.1.space = sp → bad e.1 = false → ∀ i < e.2.2.length, e.2.1.byteAt i ≠ a)
/-- Lanes that store to one byte reach it through pages of one class (R218). -/
def OneClass (ls : List (Nat × Loc)) : Prop := ∀ e ∈ ls, ∀ e' ∈ ls, e.2.space = e'.2.space → e.2.dieCoh = e'.2.dieCoh
/-- The group has no unfinished BINADD. -/
def State.NoBinops (s : State) : Prop := ∀ b ∈ s.binops, b.key ≠ s.iss.key

/-! ## Commands -/

/-- `t` is `s` after the command at CMDCONS has completed: CMDCONS has passed it, and its completion
word in host memory, where the ring's capability still admits the write, bears DONE, the status and
its place in the ring (R420, R429). -/
structure State.Completed (s t : State) (st : CmdStatus) : Prop where
  cons : t.cmdCons = s.cmdCons + 1
  word : s.cmdCap.admits (s.cmdAddr + 56) 8 1 9 = true → t.hostNat (s.cmdAddr + 56) 8 = 1 + st.code * 2 + s.cmdCons.toNat * 2 ^ 32
/-- A command completes with a status and does nothing else than that and its interrupt. -/
def State.Turned (s : State) (st : CmdStatus) (r : Out) : Prop :=
  ∃ t, r = .next t ∧ s.Completed t st ∧ t.vds = s.vds ∧ t.teams = s.teams ∧ t.groups = s.groups ∧ t.grants = s.grants ∧ t.devNum = s.devNum
/-- A command completes with OK and changes a VD alone, by `f`. -/
def State.Sets (s : State) (vd : Nat) (f : VD → VD) (r : Out) : Prop :=
  ∃ t, r = .next t ∧ s.Completed t .ok ∧ t.vd vd = f (s.vd vd) ∧ (∀ k, k ≠ vd → t.vd k = s.vd k) ∧ t.teams = s.teams ∧ t.groups = s.groups

end Sys2Proof.Machine
end

