-- ==== Sys2Proof/Certificates/Slice0/Obligations.lean ====
section
/-! DEFINITION. Obligations: the statements about the model, each with the rules of the spec it comes from. -/

open Sys2Proof Sys2Proof.Machine

/-! ## Uniform instructions -/

/-- R164, R165: each uniform ALU instruction writes its row's exact expression over its sources, read at the type, wrapped and extended, with the joined tags; nothing else changes.
R166: the uniform moves. -/
def Obligations.UniformResults : Prop :=
  (∀ (ty : Ty) (o : Ops) (cm : Cmp) (s : State),
      let n := ty.width
      let a1 := s.uniSrc o 1 0
      let a := s.uniSrc o 2 0
      let b := s.uniSrc o 2 1
      let a3 := s.uniSrc o 3 0
      let b3 := s.uniSrc o 3 1
      let c3 := s.uniSrc o 3 2
      let x := readAs ty a.val
      let y := readAs ty b.val
      let two (v : Int) : Out → Prop := s.UniOp o (extendAs ty v) (a.tag.join b.tag)
      let three (v : Int) : Out → Prop := s.UniOp o (extendAs ty v) ((a3.tag.join b3.tag).join c3.tag)
      two (x + y) (exec (.sadd ty o) s) ∧
      two (x - y) (exec (.ssub ty o) s) ∧
      two (x * y) (exec (.smul ty o) s) ∧
      two (x * y / 2 ^ n) (exec (.smulh ty o) s) ∧
      three (readAs ty a3.val * readAs ty b3.val + readAs ty c3.val) (exec (.smad ty o) s) ∧
      (ty.isS = false → s.UniOp o (extendAs ty ((a.val &&& b.val).setWidth n).toNat) (a.tag.join b.tag) (exec (.sand ty o) s)) ∧
      (ty.isS = false → s.UniOp o (extendAs ty ((a.val ||| b.val).setWidth n).toNat) (a.tag.join b.tag) (exec (.sor ty o) s)) ∧
      (ty.isS = false → s.UniOp o (extendAs ty ((a.val ^^^ b.val).setWidth n).toNat) (a.tag.join b.tag) (exec (.sxor ty o) s)) ∧
      two (if b.val.toNat < n then x * 2 ^ b.val.toNat else 0) (exec (.sshl ty o) s) ∧
      two (if b.val.toNat < n then x / 2 ^ b.val.toNat else 0) (exec (.sshr ty o) s) ∧
      two (x / 2 ^ min b.val.toNat n) (exec (.ssra ty o) s) ∧
      two (if x ≤ y then x else y) (exec (.smin ty o) s) ∧
      two (if x ≤ y then y else x) (exec (.smax ty o) s) ∧
      two (if cm.holds x y then 1 else 0) (exec (.scmp ty cm o) s) ∧
      three (if c3.val = 0 then readAs ty b3.val else readAs ty a3.val) (exec (.ssel ty o) s) ∧
      s.UniOp o (extendAs ty ((List.range n).countP fun k => a1.val.getLsbD k)) a1.tag (exec (.spopc ty o) s) ∧
      s.UniOp o (extendAs ty (n - Nat.size (a1.val.toNat % 2 ^ n))) a1.tag (exec (.sclz ty o) s)) ∧
  (∀ (o : Ops) (s : State),
      s.UniOp o (s.uniA o).val (s.uniA o).tag (exec (.smov o) s) ∧
      s.UniOp o o.imm .clean (exec (.sli o) s) ∧
      (s.iss.act ≠ 0 → ∃ t, exec (.slih o) s = .next t ∧ s.Ran t [] [o.d.reg] [] ∧
        (t.grp.sreg o.d.reg).val.extractLsb' 32 32 = o.imm.setWidth 32 ∧
        (t.grp.sreg o.d.reg).val.setWidth 32 = (s.grp.sreg o.d.reg).val.setWidth 32 ∧
        (t.grp.sreg o.d.reg).tag = s.uniTag (s.grp.sreg o.d.reg).tag))

/-- R130, R136, R137, R140: NOP does nothing; a branch sends the active lanes whose condition holds to PC + OFF and the other lanes of the run to the next instruction.
An instruction that ends so changes nothing else (R40, R44): no register, no other group, no byte of memory.
R128, R284, R298, R303, R305: an instruction that is executed once for a run, and that no active lane reaches, only sends the run on.
The model's own choices: log entries 14 and 28. -/
def Obligations.BranchTargets : Prop :=
  (∀ (s : State) (f : Nat → DWord),
      s.RanTo (s.jump f) [] [] [] (fun l => some (f l)) ∧ s.SameBytes (s.jump f) ∧ s.Ran s.finish [] [] [] ∧ s.SameBytes s.finish) ∧
  (∀ (ty : Ty) (cm : Cmp) (o : BrOps) (s : State), ty.width = 32 ∨ ty.width = 64 →
      let u := s.uni o.a (s.iss.slots.map fun t => t.1)
      let a := s.brSrc o.a (s.iss.slots.map fun t => t.1) ty.is64
      let b := s.brSrc o.b (s.iss.slots.map fun t => t.2.1) ty.is64
      let int (x : Nat) : Int := if ty.isS then (BitVec.ofNat ty.width x).toInt else ((BitVec.ofNat ty.width x).toNat : Int)
      let goes (take : Nat → Bool) (r : Out) : Prop :=
        ∃ t, r = .next t ∧ s.RanTo t [] [] [] fun l =>
          some (if s.iss.act.getLsbD l && take l then s.iss.pc + o.off.signExtend 64 else s.iss.npc)
      exec .nop s = .next s.finish ∧
      (s.GuardClean o.g → goes (fun _ => true) (exec (.bra .always o) s)) ∧
      (s.GuardClean o.g → u.tag = .clean → goes (fun _ => u.val != 0) (exec (.bra .nz o) s)) ∧
      (s.GuardClean o.g → u.tag = .clean → goes (fun _ => u.val == 0) (exec (.bra .z o) s)) ∧
      (s.grp.role ≠ .stream → s.GuardClean o.g → a.CleanIn s.iss.act → b.CleanIn s.iss.act →
        goes (fun l => cm.holds (int (a.at ty.is64 l)) (int (b.at ty.is64 l))) (exec (.brc ty cm o) s))) ∧
  (∀ (ty : Ty) (cm : Cmp) (sc : Scope) (od : MemOrd) (idx : BitVec 6) (csr : BitVec 12) (code : BitVec 15) (clr irq : Bool) (sg : SigCmp)
      (n : BitVec 3) (ctr : BitVec 2) (w x : BitVec 32) (c : BitVec 12) (tf : TileFmt) (k : BitVec 16) (gsh : BitVec 5) (m : Rnd) (rop : RedOp) (op : CollOp) (alg : CollAlg)
      (ety : CollTy) (root : BitVec 10) (ch : BitVec 4) (o : Ops) (e : EngOps) (s : State),
    s.iss.act = 0 →
      ∀ i ∈ [Instr.nop, .yield o, .sleepc o, .trap o, .bkpt code o, .rtt o, .waitfault o, .crstat clr o, .smov o, .sli o, .slih o, .sadd ty o,
          .ssub ty o, .smul ty o, .smulh ty o, .smad ty o, .sand ty o, .sor ty o, .sxor ty o, .sshl ty o, .sshr ty o, .ssra ty o, .smin ty o, .smax ty o,
          .scmp ty cm o, .ssel ty o, .spopc ty o, .sclz ty o, .sld ty sc od o, .sst ty sc od o, .srd idx o, .swr idx o, .pmovs o, .rdlane ty o,
          .csrrd csr o, .csrwr csr o, .fence sc od o, .cmntL1 o, .cmntWb o, .cmntInv o, .sigst clr irq sc od o, .sigwait sg sc od o,
          .rstr n clr od o, .ibarm ctr o, .ibarmDis ctr o, .ibwait ctr o, .ibstatSend clr o, .ibstatIbox ctr o, .cpy clr e, .cpy2d clr w x e, .cpyg clr w c irq e, .cpyt clr irq e,
          .cpyto clr tf e, .binpatch clr k gsh e, .coll clr irq op alg ety rop k root ch e, .redl ty m rop o, .mbinit sc o, .mbexp clr o, .mbarv o, .mbwait o, .mbtest o, .clwait o,
          .binrd sc od clr o],
        exec i s = .next s.finish)

/-- R58, R168, R176, R177: SRD reads the special register of its index, into an s register or
into every active lane, SWR writes tc, td0, td1 and td2, CSRRD reads and CSRWR writes a system register.
R130: the tags of the guard join what SRD and CSRRD read.
The model's own choices: log entries 14 and 28. -/
def Obligations.SystemRegisterAccess : Prop :=
  ∀ (o : Ops) (s : State),
    (∀ idx : BitVec 6, o.d.isV = false → 1 ≤ idx.toNat → idx.toNat ≤ 12 →
      s.UniOp o (s.specials.getD idx.toNat 0) .clean (exec (.srd idx o) s)) ∧
    (∀ idx : BitVec 6, o.d.isV = true → idx.toNat ≤ 12 → s.iss.act ≠ 0 → s.Fits o.d.reg (idx == 5 || idx == 6) [] →
      ∃ t, exec (.srd idx o) s = .next t ∧
        s.LaneDone t o.d.reg (idx == 5 || idx == 6) (fun l => if idx = 0 then l else (s.specials.getD idx.toNat 0).toNat) s.iss.guardTag) ∧
    s.Does (fun g => { g with tc := (s.uniA o).val.setWidth 5 }) (exec (.swr 8 o) s) ∧
    s.Does (fun g => { g with td0 := (s.uniA o).val.setWidth 32 }) (exec (.swr 9 o) s) ∧
    s.Does (fun g => { g with td1 := (s.uniA o).val.setWidth 32 }) (exec (.swr 10 o) s) ∧
    s.Does (fun g => { g with td2 := (s.uniA o).val.setWidth 32 }) (exec (.swr 11 o) s) ∧
    (∀ idx : BitVec 12, idx.toNat ≤ 5 → s.UniOp o (s.csrs.getD idx.toNat 0) .clean (exec (.csrrd idx o) s)) ∧
    ((s.uniA o).val.extractLsb' 0 5 = 0 → s.Does (fun g => { g with tvec := (s.uniA o).val }) (exec (.csrwr 0 o) s)) ∧
    ((s.uniA o).val.extractLsb' 0 8 = 0 → s.Does (fun g => { g with tarea := (s.uniA o).val }) (exec (.csrwr 1 o) s)) ∧
    s.Does (fun g => { g with spq := (s.uniA o).val &&& 0xFFFF }) (exec (.csrwr 2 o) s)

/-! ## Predicates and lanes -/

/-- R170, R171: the predicate operations in each active lane, and the moves between a predicate and an s register. -/
def Obligations.PredicateResults : Prop :=
  ∀ (o : Ops) (s : State),
    let a := s.srcA o false
    let b := s.srcB o false
    let r := s.uniA o
    s.PredOp o (fun l => a.bit0 l && b.bit0 l) (fun l => (a.tag l).join (b.tag l)) (exec (.pand o) s) ∧
    s.PredOp o (fun l => a.bit0 l || b.bit0 l) (fun l => (a.tag l).join (b.tag l)) (exec (.por o) s) ∧
    s.PredOp o (fun l => a.bit0 l != b.bit0 l) (fun l => (a.tag l).join (b.tag l)) (exec (.pxor o) s) ∧
    s.PredOp o (fun l => !a.bit0 l) a.tag (exec (.pnot o) s) ∧
    s.UniOp o ((maskOf a.bit0).setWidth 64) (tagsOver 0xFFFFFFFF a.tag) (exec (.pmovs o) s) ∧
    s.PredOp o (fun l => r.val.getLsbD l) (fun _ => r.tag) (exec (.pmovp o) s)

/-- R172: VOTE over the active lanes: the ballot as a mask in an s register, and .any, .all and .uni as
a predicate in each active lane, with the joined tags of those lanes; the other lanes neither
contribute nor are written. -/
def Obligations.VoteResults : Prop :=
  ∀ (o : Ops) (s : State),
    let a := s.srcA o false
    let active : List Nat := (List.range 32).filter fun l => s.iss.act.getLsbD l
    let t := tagsOver s.iss.act a.tag
    s.UniOp o (BitVec.ofNat 64 ((active.map fun l => if a.bit0 l then 2 ^ l else 0).sum)) t (exec (.vote .ballot o) s) ∧
    s.PredOp o (fun _ => active.any a.bit0) (fun _ => t) (exec (.vote .any o) s) ∧
    s.PredOp o (fun _ => active.all a.bit0) (fun _ => t) (exec (.vote .all o) s) ∧
    s.PredOp o (fun _ => active.all a.bit0 || active.all fun l => !a.bit0 l) (fun _ => t) (exec (.vote .uni o) s)

/-- R173: LXCH reads, for each active lane, the lane that its mode, width and count choose.
The model's own choices: log entry 35. -/
def Obligations.LaneExchange : Prop :=
  ∀ (ty : Ty) (xm : XchMode) (wid : BitVec 3) (wrp : Bool) (o : Ops) (s : State), wid.toNat ≤ 5 → s.iss.act ≠ 0 →
    o.d.reg + (if ty.is64 then 2 else 1) ≤ s.grp.ngen →
    let a := s.srcA o ty.is64
    let b := s.srcB o false
    let w := 2 ^ wid.toNat
    let j (l : Nat) : Int := match xm with
      | .abs => b.w l
      | .sub => ((l % w : Nat) : Int) - b.w l
      | .add => ((l % w : Nat) : Int) + b.w l
      | .xor => (((l % w) ^^^ (b.w l % w) : Nat) : Int)
    let src (l : Nat) : Nat :=
      if 0 ≤ j l ∧ j l < w then l - l % w + (j l).toNat else if wrp then l - l % w + (j l % w).toNat else l
    ∃ t, exec (.lxch ty xm wid wrp o) s = .next t ∧
      s.LaneDone t o.d.reg ty.is64 (fun l => a.at ty.is64 (src l)) (fun l => ((a.tag (src l)).join (b.tag l)).join (s.iss.guardTag l))

/-- R174, R175: RDLANE, WRLANE and MATCH. WRLANE writes only the lane its index names, or nothing. -/
def Obligations.LaneSelect : Prop :=
  ∀ (ty : Ty) (o : Ops) (s : State),
    let a := s.srcA o ty.is64
    let b := s.uniB o
    let r := s.uniA o
    let j := b.val.toNat % 32
    let one : State := { s with iss := { s.iss with act := BitVec.ofNat 32 (2 ^ j) } }
    let t := tagsOver s.iss.act a.tag
    let same (l : Nat) : Word := maskOf fun k => s.iss.act.getLsbD k && a.at ty.is64 k == a.at ty.is64 l
    s.UniOp o (BitVec.ofNat 64 (a.at ty.is64 j)) ((a.tag j).join b.tag) (exec (.rdlane ty o) s) ∧
    (s.iss.act.getLsbD j = true → o.d.reg + (if ty.is64 then 2 else 1) ≤ s.grp.ngen →
      ∃ t, exec (.wrlane ty o) s = .next t ∧
        one.LaneDone t o.d.reg ty.is64 (fun _ => r.val.toNat) (fun l => (r.tag.join b.tag).join (s.iss.guardTag l))) ∧
    (s.iss.act.getLsbD j = false → exec (.wrlane ty o) s = .next s.finish) ∧
    (s.iss.act ≠ 0 → s.Fits o.d.reg false [⟨a, ty.is64⟩] →
      ∃ u, exec (.mtch ty false o) s = .next u ∧ s.LaneDone u o.d.reg false (fun l => (same l).toNat) (fun l => t.join (s.iss.guardTag l))) ∧
    s.PredOp o (fun l => same l == s.iss.act) (fun _ => t) (exec (.mtch ty true o) s)

/-! ## Vector integers -/

/-- R187: the sums, products and comparisons of values, at both widths, wrap to the type's width. -/
def Obligations.IntegerArithmetic : Prop :=
  ∀ (ty : Ty) (o : Ops) (s : State), ty.width = 32 ∨ ty.width = 64 →
    let n := ty.width
    let x (v : List Nat) (k : Nat) : BitVec n := BitVec.ofNat n (v.getD k 0)
    let int (v : List Nat) (k : Nat) : Int := if ty.isS then (x v k).toInt else ((x v k).toNat : Int)
    let one (f : List Nat → BitVec n) : Out → Prop := s.LaneOp o ty.is64 [s.vA o ty.is64] fun v => (f v).toNat
    let two (f : List Nat → BitVec n) : Out → Prop := s.LaneOp o ty.is64 [s.vA o ty.is64, s.vB o ty.is64] fun v => (f v).toNat
    let three (f : List Nat → BitVec n) : Out → Prop :=
      s.LaneOp o ty.is64 [s.vA o ty.is64, s.vBfield o ty.is64, s.vC o ty.is64] fun v => (f v).toNat
    two (fun v => x v 0 + x v 1) (exec (.iadd ty false o) s) ∧
    three (fun v => x v 0 + x v 1 + x v 2) (exec (.iadd3 ty o) s) ∧
    two (fun v => x v 0 - x v 1) (exec (.isub ty false o) s) ∧
    two (fun v => x v 0 * x v 1) (exec (.imul ty o) s) ∧
    two (fun v => BitVec.ofInt n (int v 0 * int v 1 / 2 ^ n)) (exec (.imulh ty o) s) ∧
    three (fun v => x v 0 * x v 1 + x v 2) (exec (.imad ty o) s) ∧
    (ty.isS = true → one (fun v => (x v 0).abs) (exec (.iabs ty false o) s)) ∧
    two (fun v => if int v 0 ≤ int v 1 then x v 0 else x v 1) (exec (.imin ty o) s) ∧
    two (fun v => if int v 0 ≤ int v 1 then x v 1 else x v 0) (exec (.imax ty o) s)

/-- R187, R188, R192: saturation at the type, the widening multiply-add, and the byte dot product. -/
def Obligations.IntegerWideAndSaturating : Prop :=
  ∀ (ty : Ty) (o : Ops) (s : State) (asg bsg : Bool), ty.width = 32 ∨ ty.width = 64 →
    let n := ty.width
    let x (v : List Nat) (k : Nat) : BitVec n := BitVec.ofNat n (v.getD k 0)
    let int (v : List Nat) (k : Nat) : Int := if ty.isS then (x v k).toInt else ((x v k).toNat : Int)
    let lo : Int := if ty.isS then -2 ^ (n - 1) else 0
    let hi : Int := if ty.isS then 2 ^ (n - 1) - 1 else 2 ^ n - 1
    let clamp (z : Int) : BitVec n := BitVec.ofInt n (max lo (min z hi))
    let two (f : List Nat → BitVec n) : Out → Prop := s.LaneOp o ty.is64 [s.vA o ty.is64, s.vB o ty.is64] fun v => (f v).toNat
    let byte (sg : Bool) (w i : Nat) : Int :=
      if sg then ((BitVec.ofNat 32 w).extractLsb' (8 * i) 8).toInt else (((BitVec.ofNat 32 w).extractLsb' (8 * i) 8).toNat : Int)
    let dot (v : List Nat) : Int := (BitVec.ofNat 32 (v.getD 2 0)).toInt + byte asg (v.getD 0 0) 0 * byte bsg (v.getD 1 0) 0
      + byte asg (v.getD 0 0) 1 * byte bsg (v.getD 1 0) 1 + byte asg (v.getD 0 0) 2 * byte bsg (v.getD 1 0) 2 + byte asg (v.getD 0 0) 3 * byte bsg (v.getD 1 0) 3
    let words : List WSrc := [s.vA o false, s.vBfield o false, s.vC o false]
    two (fun v => clamp (int v 0 + int v 1)) (exec (.iadd ty true o) s) ∧
    two (fun v => clamp (int v 0 - int v 1)) (exec (.isub ty true o) s) ∧
    s.LaneOp o ty.is64 [s.vA o ty.is64] (fun v => (clamp (int v 0).natAbs).toNat) (exec (.iabs ty true o) s) ∧
    s.LaneOp o true [s.vA o false, s.vBfield o false, s.vC o true]
      (fun v => ((BitVec.ofNat 32 (v.getD 0 0)).signExtend 64 * (BitVec.ofNat 32 (v.getD 1 0)).signExtend 64 + BitVec.ofNat 64 (v.getD 2 0)).toNat)
      (exec (.imadw .s32 o) s) ∧
    s.LaneOp o true [s.vA o false, s.vBfield o false, s.vC o true]
      (fun v => ((BitVec.ofNat 32 (v.getD 0 0)).setWidth 64 * (BitVec.ofNat 32 (v.getD 1 0)).setWidth 64 + BitVec.ofNat 64 (v.getD 2 0)).toNat)
      (exec (.imadw .z32 o) s) ∧
    s.LaneOp o false words (fun v => (BitVec.ofInt 32 (dot v)).toNat) (exec (.idot4 ty asg bsg false o) s) ∧
    s.LaneOp o false words (fun v => (BitVec.ofInt 32 (max (-2 ^ 31) (min (dot v) (2 ^ 31 - 1)))).toNat) (exec (.idot4 ty asg bsg true o) s)

/-- R187, R189: each logic, shift and count instruction writes its table's expression, at the type's
width, in the active lanes. -/
def Obligations.LogicAndShifts : Prop :=
  ∀ (ty : Ty) (o : Ops) (s : State) (wrp : Bool), ty.width = 32 ∨ ty.width = 64 →
    let n := ty.width
    let x (v : List Nat) (k : Nat) : BitVec n := BitVec.ofNat n (v.getD k 0)
    let one (f : List Nat → BitVec n) : Out → Prop := s.LaneOp o ty.is64 [s.vA o ty.is64] fun v => (f v).toNat
    let two (f : List Nat → BitVec n) : Out → Prop := s.LaneOp o ty.is64 [s.vA o ty.is64, s.vB o ty.is64] fun v => (f v).toNat
    let shift (f : List Nat → BitVec n) : Out → Prop := s.LaneOp o ty.is64 [s.vA o ty.is64, s.vB o false] fun v => (f v).toNat
    let words : List WSrc := [s.vA o false, s.vBfield o false, s.vC o false]
    let pair (v : List Nat) : BitVec 64 := BitVec.ofNat 32 (v.getD 1 0) ++ BitVec.ofNat 32 (v.getD 0 0)
    let k (v : List Nat) : Nat := if wrp then v.getD 2 0 % 32 else min (v.getD 2 0) 32
    (ty.isS = false → two (fun v => x v 0 &&& x v 1) (exec (.and ty o) s)) ∧
    (ty.isS = false → two (fun v => x v 0 ||| x v 1) (exec (.or ty o) s)) ∧
    (ty.isS = false → two (fun v => x v 0 ^^^ x v 1) (exec (.xor ty o) s)) ∧
    (ty.isS = false → one (fun v => ~~~(x v 0)) (exec (.not ty o) s)) ∧
    shift (fun v => x v 0 <<< v.getD 1 0) (exec (.shl ty o) s) ∧
    (ty.isS = false → shift (fun v => x v 0 >>> v.getD 1 0) (exec (.shr ty o) s)) ∧
    (ty.isS = true → shift (fun v => (x v 0).sshiftRight (v.getD 1 0)) (exec (.sra ty o) s)) ∧
    s.LaneOp o false words (fun v => ((pair v >>> k v).setWidth 32).toNat) (exec (.shf ty true wrp o) s) ∧
    s.LaneOp o false words (fun v => ((pair v <<< k v).extractLsb' 32 32).toNat) (exec (.shf ty false wrp o) s) ∧
    s.LaneOp o false [s.vA o ty.is64] (fun v => (List.range n).countP fun i => (v.getD 0 0).testBit i) (exec (.popc ty o) s) ∧
    s.LaneOp o false [s.vA o ty.is64] (fun v => n - Nat.size (v.getD 0 0 % 2 ^ n)) (exec (.clz ty o) s) ∧
    one (fun v => (x v 0).reverse) (exec (.brev ty o) s)

/-- R190, R191: the bit-field and byte-permute instructions write, in the active lanes, the fields and
bytes that their tables choose. -/
def Obligations.FieldsAndBytes : Prop :=
  ∀ (ty : Ty) (o : Ops) (s : State), ty.width = 32 ∨ ty.width = 64 →
    let n := ty.width
    let p (w : Nat) : Nat := min (w % 256) n
    let len (w : Nat) : Nat := min (w / 256 % 256) (n - p w)
    let words : List WSrc := [s.vA o false, s.vBfield o false, s.vC o false]
    let byte (v : List Nat) (j : Nat) : BitVec 8 :=
      let nib : BitVec 4 := (BitVec.ofNat 32 (v.getD 2 0)).extractLsb' (4 * j) 4
      let src : BitVec 64 := BitVec.ofNat 32 (v.getD 1 0) ++ BitVec.ofNat 32 (v.getD 0 0)
      let c : BitVec 8 := src.extractLsb' (8 * (nib.toNat % 8)) 8
      if nib.getLsbD 3 then (if c.getLsbD 7 then 0xFF else 0) else c
    (ty.isS = false → s.LaneOp o ty.is64 [s.vA o ty.is64, s.vB o false]
      (fun v => v.getD 0 0 / 2 ^ p (v.getD 1 0) % 2 ^ len (v.getD 1 0)) (exec (.bfe ty o) s)) ∧
    (ty.isS = true → s.LaneOp o ty.is64 [s.vA o ty.is64, s.vB o false]
      (fun v => (((BitVec.ofNat n (v.getD 0 0)).extractLsb' (p (v.getD 1 0)) (len (v.getD 1 0))).signExtend n).toNat) (exec (.bfe ty o) s)) ∧
    s.LaneOp o ty.is64 [s.vA o ty.is64, s.vBfield o ty.is64, s.vC o false]
      (fun v =>
        let m : BitVec n := ((1 : BitVec n) <<< len (v.getD 2 0) - 1) <<< p (v.getD 2 0)
        ((BitVec.ofNat n (v.getD 1 0) &&& ~~~m) ||| (BitVec.ofNat n (v.getD 0 0) <<< p (v.getD 2 0) &&& m)).toNat) (exec (.bfi ty o) s) ∧
    s.LaneOp o false words (fun v => (byte v 3 ++ byte v 2 ++ byte v 1 ++ byte v 0).toNat) (exec (.prmt ty o) s)

/-- R193, R194: comparison, selection, moves and address arithmetic. -/
def Obligations.MovesAndSelects : Prop :=
  ∀ (ty : Ty) (cm : Cmp) (k : BitVec 6) (sx : Bool) (o : Ops) (s : State), ty.width = 32 ∨ ty.width = 64 →
    let n := ty.width
    let a := s.vA o ty.is64
    let b := s.vB o ty.is64
    let bf := s.vBfield o ty.is64
    let c := s.srcC o false
    let int (x : Nat) : Int := if ty.isS then (BitVec.ofNat n x).toInt else ((BitVec.ofNat n x).toNat : Int)
    s.PredOp o (fun l => cm.holds (int (a.at l)) (int (b.at l))) (fun l => (a.src.tag l).join (b.src.tag l)) (exec (.icmp ty cm o) s) ∧
    (s.iss.act ≠ 0 → o.d.reg + (if ty.is64 then 2 else 1) ≤ s.grp.ngen →
      ∃ t, exec (.sel ty o) s = .next t ∧
        s.LaneDone t o.d.reg ty.is64 (fun l => if c.bit0 l then a.at l else bf.at l)
          (fun l => ((if c.bit0 l then a.src.tag l else bf.src.tag l).join (c.tag l)).join (s.iss.guardTag l))) ∧
    s.LaneOp o ty.is64 [a] (fun v => v.getD 0 0) (exec (.mov ty o) s) ∧
    s.LaneOp o ty.is64 [] (fun _ => (o.imm.setWidth n).toNat) (exec (.movi ty o) s) ∧
    (s.iss.act ≠ 0 → s.Fits o.d.reg false [] →
      ∃ t, exec (.mova ty o) s = .next t ∧
        s.LaneDone t o.d.reg false (fun l => (s.srcA o false).w 0 + l * (o.imm.setWidth 32).toNat)
          (fun l => ((s.srcA o false).tag l).join (s.iss.guardTag l))) ∧
    s.LaneOp o ty.is64 [s.vA o false, b]
      (fun v => (BitVec.ofNat n (v.getD 1 0) + BitVec.ofInt n (if sx then (BitVec.ofNat 32 (v.getD 0 0)).toInt else (v.getD 0 0 : Nat)) <<< k.toNat).toNat)
      (exec (.lea ty k sx o) s)

/-! ## Floating point -/

/-- R196, R201, R202: each arithmetic instruction encodes, in its mode, the exact result of its
operation on the values of its operands. The transcendentals are the model's own evaluation (log entry 7).
The model's own choices: log entries 7 and 35. -/
def Obligations.FloatArithmetic : Prop :=
  ∀ (ty : Ty) (m : Rnd) (o : Ops) (s : State),
    let f := Fp.ofTy ty
    let x (v : List Nat) (k : Nat) : Fp.FVal := Fp.val f (v.getD k 0)
    let one (r : Rnd) (g : Fp.FVal → Fp.FVal) : Out → Prop := s.LaneOp o ty.is64 [s.vA o ty.is64] fun v => Fp.enc f r (g (x v 0))
    let two (g : Fp.FVal → Fp.FVal → Fp.FVal) : Out → Prop :=
      s.LaneOp o ty.is64 [s.vA o ty.is64, s.vB o ty.is64] fun v => Fp.enc f m (g (x v 0) (x v 1))
    two (Fp.add m) (exec (.fadd ty m o) s) ∧
    two (fun a b => Fp.add m a b.neg) (exec (.fsub ty m o) s) ∧
    two Fp.mul (exec (.fmul ty m o) s) ∧
    s.LaneOp o ty.is64 [s.vA o ty.is64, s.vBfield o ty.is64, s.vC o ty.is64]
      (fun v => Fp.enc f m (Fp.add m (Fp.mul (x v 0) (x v 1)) (x v 2))) (exec (.fma ty m o) s) ∧
    two Fp.div (exec (.fdiv ty m o) s) ∧
    one m (fun a => Fp.div (.fin false 1 0) a) (exec (.frcp ty m o) s) ∧
    one m Fp.sqrt (exec (.fsqrt ty m o) s) ∧
    one m Fp.rsqrt (exec (.frsq ty m o) s) ∧
    one m (Fp.rndInt m) (exec (.frnd ty m o) s) ∧
    one .rn Fp.frac (exec (.ffrac ty o) s) ∧
    s.LaneOp o ty.is64 [s.vA o ty.is64, s.vB o false] (fun v => Fp.enc f m (Fp.scale (x v 0) (BitVec.ofNat 32 (v.getD 1 0)).toInt))
      (exec (.fscale ty m o) s) ∧
    one .rn Fp.exp2 (exec (.fexp2 ty o) s) ∧
    one .rn Fp.log2 (exec (.flog2 ty o) s) ∧
    one .rn Fp.sin (exec (.fsin ty o) s) ∧
    one .rn Fp.cos (exec (.fcos ty o) s) ∧
    one .rn Fp.tanh (exec (.ftanh ty o) s)

/-- R199: FCMP by relation code; the pair is unordered when either operand is NaN, and −0 equals +0.
R198: FMIN and FMAX return one operand's bits, −0 below +0, or the other operand beside a NaN. -/
def Obligations.FloatCompareAndMinMax : Prop :=
  (∀ (ty : Ty) (cm : FCmp) (o : Ops) (s : State), ty = .f32 ∨ ty = .f64 →
      let f := Fp.ofTy ty
      let half := 2 ^ (ty.width - 1)
      let nan (x : Nat) : Bool := decide (f.infBits < x % half)
      let key (x : Nat) : Int := if half ≤ x then -((x - half : Nat) : Int) else x
      let a := s.vA o ty.is64
      let b := s.vB o ty.is64
      let holds (x y : Nat) : Bool :=
        let ordered := !nan x && !nan y
        match cm with
        | .eq => ordered && decide (key x = key y)
        | .ne => !ordered || decide (key x ≠ key y)
        | .lt => ordered && decide (key x < key y)
        | .le => ordered && decide (key x ≤ key y)
        | .gt => ordered && decide (key y < key x)
        | .ge => ordered && decide (key y ≤ key x)
        | .num => ordered
        | .nan => !ordered
      s.PredOp o (fun l => holds (a.at l) (b.at l)) (fun l => (a.src.tag l).join (b.src.tag l)) (exec (.fcmp ty cm o) s)) ∧
  (∀ (ty : Ty) (o : Ops) (s : State), ty = .f32 ∨ ty = .f64 →
      let f := Fp.ofTy ty
      let half := 2 ^ (ty.width - 1)
      let nan (x : Nat) : Bool := decide (f.infBits < x % half)
      let key (x : Nat) : Int := if half ≤ x then -((x - half : Nat) : Int) - 1 else x
      let pick (lower : Bool) (v : List Nat) : Nat :=
        let x := v.getD 0 0
        let y := v.getD 1 0
        if nan x && nan y then f.qnan else if nan x then y else if nan y then x
        else if (if lower then key x ≤ key y else key y ≤ key x) then x else y
      s.LaneOp o ty.is64 [s.vA o ty.is64, s.vB o ty.is64] (pick true) (exec (.fmin ty o) s) ∧
      s.LaneOp o ty.is64 [s.vA o ty.is64, s.vB o ty.is64] (pick false) (exec (.fmax ty o) s))

/-- R200: FCLASS sets the one bit of its table's class, from the sign, exponent and fraction of its operand. -/
def Obligations.FloatClass : Prop :=
  ∀ (ty : Ty) (o : Ops) (s : State), ty = .f32 ∨ ty = .f64 →
    let f := Fp.ofTy ty
    let cls (x : Nat) : Nat :=
      let neg := decide (2 ^ (ty.width - 1) ≤ x)
      let e := x / 2 ^ f.fw % 2 ^ f.ew
      let frac := x % 2 ^ f.fw
      if e = 2 ^ f.ew - 1 then (if frac ≠ 0 then 8 else if neg then 0 else 7)
      else if e = 0 then (if frac = 0 then (if neg then 3 else 4) else if neg then 2 else 5)
      else if neg then 1 else 6
    s.LaneOp o false [s.vA o ty.is64] (fun v => 2 ^ cls (v.getD 0 0)) (exec (.fclass ty o) s)

/-- R197: the special operands of sums, products, quotients, roots and roundings.
R103, R104: in FP32 and FP64 a pattern that is no NaN is read and encoded back unchanged in every mode, and every NaN is encoded as the one canonical NaN.
R105, R106: of the exact value of a result, between the magnitudes of two neighbouring patterns, or beyond the largest, each mode takes its own, subnormals among them; ties go to the even pattern.
R107, R197: sums and products of finite values are exact, an exact zero sum is +0, or −0 in .rd, and a quotient is rounded once. -/
def Obligations.FloatSpecialOperands : Prop :=
  let real (sg : Bool) (k : Nat) (e : Int) : ℚ := (if sg then -1 else 1) * k * 2 ^ e
  let mag (f : Fp.FFmt) (k : Nat) : ℚ :=
    if k < 2 ^ f.fw then k * 2 ^ (1 - f.bias - f.fw : Int) else (2 ^ f.fw + k % 2 ^ f.fw : Nat) * 2 ^ ((k / 2 ^ f.fw : Nat) - f.bias - f.fw : Int)
  let huge (f : Fp.FFmt) (m : Rnd) (neg : Bool) : Nat :=
    if f.e4m3 then f.maxFin
    else match m with | .rn => f.infBits | .rz => f.maxFin | .ru => if neg then f.maxFin else f.infBits | .rd => if neg then f.infBits else f.maxFin
  let rounds (f : Fp.FFmt) (m : Rnd) (neg : Bool) (against : ℚ → Ordering) (b : Nat) : Prop :=
    let sign := if neg then 2 ^ (f.ew + f.fw) else 0
    (against (mag f (f.maxFin + 1)) ≠ .gt → b = sign + huge f m neg) ∧
    ∀ k ≤ f.maxFin, against (mag f k) ≠ .gt → against (mag f (k + 1)) = .gt →
      let mid := against ((mag f k + mag f (k + 1)) / 2)
      let up : Bool := match m with
        | .rn => mid == .lt || (mid == .eq && k % 2 == 1) | .rz => false
        | .ru => !neg && against (mag f k) != .eq | .rd => neg && against (mag f k) != .eq
      b = sign + if up then (if k = f.maxFin then huge f m neg else k + 1) else k
  let formats : List Fp.FFmt := [Fp.f64, Fp.f32, Fp.f16, Fp.bf16, Fp.e4m3, Fp.e5m2]
  (∀ f ∈ formats, ∀ (m : Rnd) (sg : Bool) (k : Nat) (e : Int), k ≠ 0 →
      rounds f m sg (fun c => compare c (real false k e)) (Fp.enc f m (.fin sg k e))) ∧
  (∀ f ∈ formats, ∀ (m : Rnd) (sg tg : Bool) (k n : Nat) (e d : Int), k ≠ 0 → n ≠ 0 →
      rounds f m (sg != tg) (fun c => compare (c * real false n d) (real false k e)) (Fp.enc f m (Fp.div (.fin sg k e) (.fin tg n d)))) ∧
  (∀ (m : Rnd) (sg tg : Bool) (k n : Nat) (e d : Int),
      let sum := real sg k e + real tg n d
      (sum = 0 → Fp.add m (.fin sg k e) (.fin tg n d) = .zero (m = .rd)) ∧
      (sum ≠ 0 → ∃ ug q x, Fp.add m (.fin sg k e) (.fin tg n d) = .fin ug q x ∧ q ≠ 0 ∧ real ug q x = sum) ∧
      (∃ q x, Fp.mul (.fin sg k e) (.fin tg n d) = .fin (sg != tg) q x ∧ real (sg != tg) q x = real sg k e * real tg n d) ∧
      Fp.add m (.zero sg) (.fin tg n d) = .fin tg n d ∧ Fp.add m (.fin sg k e) (.zero tg) = .fin sg k e ∧
      Fp.add m (.zero sg) (.zero tg) = .zero (if sg = tg then sg else m = .rd) ∧ Fp.mul (.zero sg) (.fin tg n d) = .zero (sg != tg) ∧
      Fp.mul (.fin sg k e) (.zero tg) = .zero (sg != tg) ∧ Fp.mul (.zero sg) (.zero tg) = .zero (sg != tg)) ∧
  (∀ (f : Fp.FFmt) (m : Rnd) (x : Nat), f = Fp.f32 ∨ f = Fp.f64 → x < 2 ^ (1 + f.ew + f.fw) →
      Fp.enc f m (Fp.val f x) = if f.infBits < x % 2 ^ (f.ew + f.fw) then f.infBits + 2 ^ (f.fw - 1) else x) ∧
  (∀ (m : Rnd) (x : Fp.FVal) (sg tg : Bool) (k : Nat) (e : Int),
      Fp.add m .nan x = .nan ∧ Fp.add m x .nan = .nan ∧ Fp.mul .nan x = .nan ∧ Fp.mul x .nan = .nan ∧ Fp.div .nan x = .nan ∧ Fp.div x .nan = .nan ∧
      Fp.sqrt .nan = .nan ∧ Fp.rsqrt .nan = .nan ∧ Fp.rndInt m .nan = .nan ∧ Fp.frac .nan = .nan ∧
      Fp.add m (.inf sg) (.inf (!sg)) = .nan ∧ Fp.add m (.inf sg) (.inf sg) = .inf sg ∧ Fp.add m (.inf sg) (.fin tg k e) = .inf sg ∧
      Fp.mul (.zero sg) (.inf tg) = .nan ∧ Fp.mul (.inf sg) (.inf tg) = .inf (sg != tg) ∧ Fp.mul (.inf sg) (.fin tg k e) = .inf (sg != tg) ∧
      Fp.div (.zero sg) (.zero tg) = .nan ∧ Fp.div (.inf sg) (.inf tg) = .nan ∧ Fp.div (.fin sg k e) (.zero tg) = .inf (sg != tg) ∧
      Fp.div (.fin sg k e) (.inf tg) = .zero (sg != tg) ∧ Fp.div (.inf sg) (.fin tg k e) = .inf (sg != tg) ∧
      Fp.sqrt (.zero true) = .zero true ∧ Fp.sqrt (.fin true k e) = .nan ∧ Fp.sqrt (.inf true) = .nan ∧ Fp.sqrt (.inf false) = .inf false ∧
      Fp.rsqrt (.zero sg) = .inf sg ∧ Fp.rsqrt (.fin true k e) = .nan ∧ Fp.rsqrt (.inf false) = .zero false ∧
      Fp.rndInt m (.inf sg) = .inf sg ∧ Fp.rndInt m (.zero sg) = .zero sg ∧ Fp.frac (.inf sg) = .nan)

/-- R203: the packed instructions compute each half of a lane by itself. -/
def Obligations.PackedHalves : Prop :=
  ∀ (ty : Ty) (m : Rnd) (o : Ops) (s : State),
    let f := Fp.ofTy ty
    let h0 (v : List Nat) (k : Nat) : Fp.FVal := Fp.val f (v.getD k 0 % 2 ^ 16)
    let h1 (v : List Nat) (k : Nat) : Fp.FVal := Fp.val f (v.getD k 0 / 2 ^ 16 % 2 ^ 16)
    let both (lo hi : Fp.FVal) : Nat := Fp.enc f m hi * 2 ^ 16 + Fp.enc f m lo
    s.LaneOp o false [s.vA o false, s.vB o false]
      (fun v => both (Fp.add m (h0 v 0) (h0 v 1)) (Fp.add m (h1 v 0) (h1 v 1))) (exec (.pkadd ty m o) s) ∧
    s.LaneOp o false [s.vA o false, s.vB o false]
      (fun v => both (Fp.mul (h0 v 0) (h0 v 1)) (Fp.mul (h1 v 0) (h1 v 1))) (exec (.pkmul ty m o) s) ∧
    s.LaneOp o false [s.vA o false, s.vBfield o false, s.vC o false]
      (fun v => both (Fp.add m (Fp.mul (h0 v 0) (h0 v 1)) (h0 v 2)) (Fp.add m (Fp.mul (h1 v 0) (h1 v 1)) (h1 v 2))) (exec (.pkfma ty m o) s)

/-- R112, R204, R205: conversions between integers wrap or saturate at the destination, conversions
between a float and anything go through the exact value, and the unit form scales 24 bits by 2^−24. To an integer a finite value is rounded in the mode and clamped, an infinity is clamped, and a NaN gives 0. -/
def Obligations.Conversions : Prop :=
  (∀ (m : Rnd) (sgn sg : Bool) (n k : Nat) (e : Int), 0 < n →
    let v : ℚ := (if sg then -1 else 1) * k * 2 ^ e
    let z : Int := match m with
      | .rd => ⌊v⌋ | .ru => ⌈v⌉ | .rz => if sg then ⌈v⌉ else ⌊v⌋
      | .rn => if v - ⌊v⌋ < 1 / 2 ∨ (v - ⌊v⌋ = 1 / 2 ∧ ⌊v⌋ % 2 = 0) then ⌊v⌋ else ⌊v⌋ + 1
    let lo : Int := if sgn then -2 ^ (n - 1) else 0
    let hi : Int := if sgn then 2 ^ (n - 1) - 1 else 2 ^ n - 1
    let bits (x : Int) : Nat := (BitVec.ofInt n x).toNat
    Fp.toIntClamped m sgn n (.fin sg k e) = bits (max lo (min z hi)) ∧ Fp.toIntClamped m sgn n (.inf sg) = bits (if sg then lo else hi) ∧
    Fp.toIntClamped m sgn n (.zero sg) = 0 ∧ Fp.toIntClamped m sgn n .nan = 0) ∧
  ∀ (ty sty : Ty) (m : Rnd) (sat : Bool) (o : Ops) (s : State),
    let n := ty.width
    let src (v : List Nat) : BitVec sty.width := BitVec.ofNat sty.width (v.getD 0 0)
    let int (v : List Nat) : Int := if sty.isS then (src v).toInt else ((src v).toNat : Int)
    let lo : Int := if ty.isS then -2 ^ (n - 1) else 0
    let hi : Int := if ty.isS then 2 ^ (n - 1) - 1 else 2 ^ n - 1
    let ext (r : BitVec n) : Nat := if ty.isS then (r.signExtend (max n 32)).toNat else r.toNat
    (ty.isFloat = false → sty.isFloat = false → s.LaneOp o ty.is64 [s.vA o sty.is64]
      (fun v => ext (BitVec.ofInt n (if sat then max lo (min (int v) hi) else int v))) (exec (.cvt ty m sty sat o) s)) ∧
    (ty.isFloat = true → sty.isFloat = false → s.LaneOp o ty.is64 [s.vA o sty.is64]
      (fun v => Fp.enc (Fp.ofTy ty) m (Fp.ofInt (int v) 0 false)) (exec (.cvt ty m sty sat o) s)) ∧
    (ty.isFloat = true → sty.isFloat = true → s.LaneOp o ty.is64 [s.vA o sty.is64]
      (fun v => Fp.enc (Fp.ofTy ty) m (Fp.val (Fp.ofTy sty) (src v).toNat)) (exec (.cvt ty m sty sat o) s)) ∧
    (ty.isFloat = false → sty.isFloat = true → s.LaneOp o ty.is64 [s.vA o sty.is64]
      (fun v => ext (BitVec.ofNat n (Fp.toIntClamped m ty.isS n (Fp.val (Fp.ofTy sty) (src v).toNat)))) (exec (.cvt ty m sty sat o) s)) ∧
    s.LaneOp o false [s.vA o false] (fun v => Fp.enc Fp.f32 .rn (Fp.ofInt ((v.getD 0 0 / 2 ^ 8 : Nat) : Int) (-24) false)) (exec (.cvtUnit m o) s)

/-- R125, R206: REDL combines the active lanes in the tree's order, the lower lane first, with the
identity for the others, and writes its result as the type says. -/
def Obligations.LaneReduction : Prop :=
  ∀ (ty : Ty) (m : Rnd) (rop : RedOp) (o : Ops) (s : State), ty ∈ [Ty.s32, .z32, .s64, .z64, .f32, .f64] → s.iss.pi = 0 → s.iss.stop = none →
    let f := Fp.ofTy ty
    let n := ty.width
    let a := s.vA o ty.is64
    let int (x : Nat) : Int := if ty.isS then (BitVec.ofNat n x).toInt else (x : Int)
    let op (x y : Nat) : Nat :=
      match rop with
      | .add => if ty.isF then Fp.enc f m (Fp.add m (Fp.val f x) (Fp.val f y)) else (x + y) % 2 ^ n
      | .min => if ty.isF then Fp.fmin f x y else if int x ≤ int y then x else y
      | .max => if ty.isF then Fp.fmax f x y else if int x ≤ int y then y else x
    let unit : Nat :=
      match rop with
      | .add => if ty.isF then 2 ^ (n - 1) else 0
      | .min => if ty.isF then f.infBits else if ty.isS then 2 ^ (n - 1) - 1 else 2 ^ n - 1
      | .max => if ty.isF then 2 ^ (n - 1) + f.infBits else if ty.isS then 2 ^ (n - 1) else 0
    let t0 (i : Nat) : Nat := if s.iss.act.getLsbD i then a.at i else unit
    let t1 (i : Nat) : Nat := op (t0 i) (t0 (i + 16))
    let t2 (i : Nat) : Nat := op (t1 i) (t1 (i + 8))
    let t3 (i : Nat) : Nat := op (t2 i) (t2 (i + 4))
    let t4 (i : Nat) : Nat := op (t3 i) (t3 (i + 2))
    let r := op (t4 0) (t4 1)
    s.UniOp o (if ty.isS then (BitVec.ofNat n r).signExtend 64 else BitVec.ofNat 64 r) (tagsOver s.iss.act a.src.tag) (exec (.redl ty m rop o) s)

/-- R126, R207: RNGK writes the words of ZCG-10 at its counter and key to two or four registers. -/
def Obligations.RandomNumbers : Prop :=
  ∀ (ty : Ty) (w2 : Bool) (o : Ops) (s : State), s.iss.act ≠ 0 → s.iss.pi = 0 → s.iss.stop = none →
    let n := if w2 then 2 else 4
    let a := s.vA o true
    let b := s.vBfield o true
    let c := s.vC o true
    let word (x k : Nat) : Word := BitVec.ofNat 32 (x / 2 ^ (32 * k))
    let mix (r : Nat) (x : Word × Word × Word × Word) (l : Nat) : Word × Word × Word × Word :=
      let k0 := word (c.at l) 0 + BitVec.ofNat 32 r * 0x6C078965
      let k1 := word (c.at l) 1 + BitVec.ofNat 32 r * 0x2F9BD317
      let (x0, x1, x2, x3) := x
      let y0 := x0 + x1
      let y3 := (x3 ^^^ y0).rotateLeft 16
      let y2 := x2 + y3
      let y1 := (x1 ^^^ y2).rotateLeft 12
      let z0 := y0 + (y1 ^^^ k0)
      let z3 := (y3 ^^^ z0).rotateLeft 8
      let z2 := y2 + (z3 ^^^ k1)
      (z0, (y1 ^^^ z2).rotateLeft 7, z2, z3)
    let x (l : Nat) : Word × Word × Word × Word := (word (a.at l) 0, word (a.at l) 1, word (b.at l) 0, word (b.at l) 1)
    let y (l : Nat) : Word × Word × Word × Word := (List.range 10).foldl (fun z r => mix r z l) (x l)
    let out (l k : Nat) : Word := [(y l).1 + (x l).1, (y l).2.1 + (x l).2.1, (y l).2.2.1 + (x l).2.2.1, (y l).2.2.2 + (x l).2.2.2].getD k 0
    (o.d.reg + n ≤ s.grp.ngen ∨ (s.grp.whole s.iss.act = true ∧ a.uniform = true ∧ b.uniform = true ∧ c.uniform = true)) →
    ∃ t, exec (.rngk ty w2 o) s = .next t ∧ s.Ran t ((List.range n).map fun k => o.d.reg + k) [] [] ∧
      ∀ k < n, s.HoldsV t (o.d.reg + k) (fun l => (out l k).toNat) (joinTags s.iss [a, b, c])

/-! ## Control -/

/-- R130, R138, R139: BRX and RET send each active lane to its own target; CALL writes the address after it to its link register, or pair, and branches.
R138: a BRX or RET whose lowest misaligned active lane is `l` traps with ALIGN, and no lane moves.
The model's own choices: log entries 14 and 35. -/
def Obligations.CallsAndIndirectBranches : Prop :=
  (∀ (o : Ops) (q : BrOps) (s : State),
      let a := s.srcA o true
      let goes (r : Out) : Prop :=
        ∃ t, r = .next t ∧ s.RanTo t [] [] [] fun l => some (if s.iss.act.getLsbD l then BitVec.ofNat 64 (a.d l) else s.iss.npc)
      let aligned : Prop := ∀ l < 32, s.iss.act.getLsbD l = true → a.d l % 4 = 0
      let target (l : Nat) : Option DWord := some (if s.iss.act.getLsbD l then s.iss.pc + q.off.signExtend 64 else s.iss.npc)
      (s.GuardClean o.g → a.CleanIn s.iss.act → aligned → goes (exec (.brx o) s)) ∧
      (s.GuardClean o.g → a.CleanIn s.iss.act → aligned → goes (exec (.ret o) s)) ∧
      (∀ k, q.a = .s k → s.iss.act ≠ 0 → s.GuardClean q.g →
        ∃ t, exec (.call q) s = .next t ∧ s.RanTo t [] [k.val] [] target ∧ t.grp.sreg k.val = ⟨s.iss.pc + 16, s.uniTag .clean⟩) ∧
      (∀ k, q.a = .v k → s.iss.act ≠ 0 → s.GuardClean q.g → s.Fits k.val true [] →
        ∃ t, exec (.call q) s = .next t ∧ s.RanTo t [k.val, k.val + 1] [] [] target ∧
          s.HoldsV t k.val (fun _ => (s.iss.pc + 16).toNat) s.iss.guardTag ∧
          s.HoldsV t (k.val + 1) (fun _ => (s.iss.pc + 16).toNat / 2 ^ 32) s.iss.guardTag)) ∧
  (∀ (o : Ops) (s : State) (l : Nat),
      let a := s.srcA o true
      s.GuardClean o.g → a.CleanIn s.iss.act → l < 32 → s.iss.act.getLsbD l = true → a.d l % 4 ≠ 0 →
      (∀ k < l, s.iss.act.getLsbD k = true → a.d k % 4 = 0) →
      exec (.brx o) s = .next (s.trap (alignCause (a.d l) l 2) .fresh) ∧ exec (.ret o) s = .next (s.trap (alignCause (a.d l) l 2) .fresh))

/-- R141 to R143, R156: EXIT removes the active lanes from the PC table, and the group when the table
becomes empty; YIELD asks for an aging issue; SLEEPC waits its clocks and finishes when they have
passed; SMSTART marks the group.
R48, R141: a group that exits while others of its team live, none of them waiting, raises EXITD of every barrier it takes part in, once however it had arrived there, and
completes the phase where ARR + EXITD reaches the expected count. R307: the stream's EXIT waits for its queued steps. -/
def Obligations.ExitAndPauses : Prop :=
  ∀ (o : Ops) (s : State), s.Present → s.iss.act ≠ 0 → s.iss.act &&& ~~~s.iss.xm = 0 → s.iss.xm &&& ~~~s.grp.live = 0 → s.iss.replay = false →
    let n := if o.fmt = .f128i then fld o.imm.toNat 31 0 else fld (s.uniA o).val.toNat 31 0
    ((s.grp.role = .stream → s.team.queue = []) → s.grp.live &&& ~~~s.iss.act ≠ 0 →
      ∃ t, exec (.exit o) s = .next t ∧ s.RanTo t [] [] [] fun l => if s.iss.act.getLsbD l then none else some s.iss.npc) ∧
    ((s.grp.role = .stream → s.team.queue = []) → s.grp.live &&& ~~~s.iss.act = 0 →
      ∃ t, exec (.exit o) s = .next t ∧ mfind t.groups s.iss.key = none) ∧
    ((s.grp.role = .stream → s.team.queue = []) → s.grp.live &&& ~~~s.iss.act = 0 → s.NobodyWaits → (∃ e ∈ s.groups, e.1 ≠ s.iss.key ∧ e.2.tid = s.grp.tid) →
      ∃ t, exec (.exit o) s = .next t ∧ ∀ b < 16,
        let x := s.team.bar b
        let y := (mget {} t.teams s.grp.tid).bar b
        let arr := if x.arrived s.grp.member then x.arr - 1 else x.arr
        (x.init = false ∨ s.grp.inMask x.mask = false → y = x) ∧
        (x.init = true → s.grp.inMask x.mask = true → y.exp = x.exp ∧ y.exitd = x.exitd + 1 ∧
          (x.exp ≤ arr + (x.exitd + 1) → y.ph = !x.ph ∧ y.arr = 0 ∧ y.nph = x.nph + 1) ∧
          (arr + (x.exitd + 1) < x.exp → y.ph = x.ph ∧ y.arr = arr ∧ y.nph = x.nph))) ∧
    (s.grp.role = .stream → s.team.queue ≠ [] → ∃ t, exec (.exit o) s = .next t ∧ t.grp.wait = { kind := .resource } ∧ t.grp.pcs = s.grp.pcs ∧
      t.grp.s = s.grp.s ∧ t.teams = s.teams ∧ s.SameBytes t) ∧
    s.Does (fun g => { g with yielded := true }) (exec (.yield o) s) ∧
    s.Does (fun g => { g with smstart := true }) (exec (.smstart o) s) ∧
    (s.iss.pi = 0 → s.grp.wait.kind ≠ .sleep → n = 0 → exec (.sleepc o) s = .next s.finish) ∧
    (s.iss.pi = 0 → s.grp.wait.kind ≠ .sleep → n ≠ 0 → ∃ t, exec (.sleepc o) s = .next t ∧
      t.grp.wait = { kind := .sleep, due := some (s.clkOf s.grp.core + n) } ∧ t.grp.pi = BitVec.ofNat 32 n ∧ t.grp.pcs = s.grp.pcs ∧ t.grp.v = s.grp.v ∧ t.grp.s = s.grp.s ∧ s.SameBytes t) ∧
    (∀ d, s.grp.wait.kind = .sleep → s.grp.wait.due = some d → d ≤ s.clkOf s.grp.core ∨ s.grp.wait.expired = true → exec (.sleepc o) s = .next s.finish)

/-- R144, R146, R337, R341: TRAP and BKPT enter the handler with cause groups 18 and 19, their code in
the detail, and every register of the group kept; the frame waits in the store queue. -/
def Obligations.SoftwareTraps : Prop :=
  ∀ (o : Ops) (code : BitVec 15) (s : State), s.HasHandler → s.iss.act ≠ 0 → s.iss.replay = false →
    (∃ t, exec (.trap o) s = .next t ∧ s.grp.Entered t.grp ⟨18, o.imm.setWidth 32, o.imm.extractLsb' 32 32, 0, 0⟩ ∧
      t.grp.sq.length = s.grp.sq.length + 1 ∧ t.mem = s.mem) ∧
    (∃ t, exec (.bkpt code o) s = .next t ∧ s.grp.Entered t.grp ⟨19, code.setWidth 32, 0, 0, 0⟩ ∧
      t.grp.sq.length = s.grp.sq.length + 1 ∧ t.mem = s.mem)

/-- R144, R337, R341: a trap of any cause enters the handler when there is one, the group is not already in it, and the frame can be stored.
R144, R342, R393: a trap of a group that has no handler, or is in it, ends its team: no group of the team is left, the VD's error block counts a
record, and where its ring has room (here in host memory) the record holds its sequence number, the gname, the PC, tc and the detail.
R130, R248, R383: where an operand that an instruction consumes as an address, a handle or a branch target, or the guard of a branch, bears fault-pending, it traps FAULTPOISON with
the operand, its lowest such lane and that lane's token; where one bears data-poison the group unwinds to its innermost region, or without one traps DATAPOISON. Here of LD, ST, the atomics, JOIN and BRX.
R65: a load, or an integer sum that does not cover the live lanes, whose destination is compressed-only traps SHAPE.
The model's own choices: log entries 8 and 35. -/
def Obligations.TrapEntry : Prop :=
  (∀ (key : Nat) (x : Trapping) (s : State),
      let g := mget {} s.groups key
      let tm := mget {} s.teams g.tid
      mfind s.groups key = some g → g.tvec ≠ 0 → g.inhdl = false → g.tareaOk tm = true → s.groupReqs key = [] →
      (s.storeFrame key g tm (frameBytes g x)).1 = none →
      g.Entered (mget {} (s.tryTrap key x).groups key) x.cause) ∧
  (∀ (key : Nat) (x : Trapping) (s : State),
      let g := mget {} s.groups key
      let b := (s.vd g.vd).err
      let t := s.tryTrap key x
      mfind s.groups key = some g → g.tvec = 0 ∨ g.inhdl = true →
      (∀ e ∈ t.groups, e.2.tid ≠ g.tid) ∧ (t.vd g.vd).err.seq = nextSeq b.seq ∧
      (b.room = false → (t.vd g.vd).err.erlost = satInc b.erlost ∧ (t.vd g.vd).err.erprod = b.erprod) ∧
      ∀ l, b.room = true → hostWalk s g.vd b.slot 1 = .ok l → 2 ≤ fld l.e 57 56 → s.err.eren = false →
        (∀ e ∈ s.groups, e.2.tid = g.tid → (mget {} s.groups e.1).sq = []) →
        (t.vd g.vd).err.erprod = b.erprod + 1 ∧
        let a := l.place b.slot
        t.hostNat a 4 = b.seq.toNat ∧ t.hostNat (a + 16) 8 = g.gname.toNat ∧ t.hostNat (a + 24) 8 = x.pc.toNat ∧
        (x.cause.cause < 32 → t.hostNat (a + 32) 4 % 32 = x.cause.cause) ∧ t.hostNat (a + 36) 4 = x.cause.td0.toNat ∧ t.hostNat (a + 40) 4 = x.cause.td1.toNat ∧
        t.hostNat (a + 44) 4 = x.cause.td2.toNat) ∧
  (∀ (ty : Ty) (hint : LdHint) (op : AtomOp) (sc : Scope) (od : MemOrd) (sx nodfr : Bool) (o : Ops) (s : State),
      let act := s.iss.act
      let dst := destRegs o (if ty.is64 then 2 else 1)
      let b := s.srcBfield o ty.is64
      let lowest (m : Word) (l : Nat) : Prop := l < 32 ∧ m.getLsbD l = true ∧ ∀ k < l, m.getLsbD k = false
      let consumes (xs : List Consumed) (consumer : Nat) (r : Out) : Prop :=
        (∀ x l, (xs.find? fun x => x.fp &&& x.lanes != 0) = some x → lowest (x.fp &&& x.lanes) l →
          r = .next (s.trap ⟨7, BitVec.ofNat 32 (x.field + l * 1024), mget 0 s.grp.dftok l, 0, 0⟩ .fresh)) ∧
        ((∀ x ∈ xs, x.fp &&& x.lanes = 0) → ∀ x l, (xs.find? fun x => x.dp &&& x.lanes != 0) = some x → lowest (x.dp &&& x.lanes) l →
          let c : Pending := ⟨8, BitVec.ofNat 32 (x.field + l * 1024 + consumer * 32768), 0, 0, 0⟩
          (s.grp.regions = [] → r = .next (s.trap c .fresh)) ∧
          (∀ rg rs, s.grp.regions = rg :: rs → ∃ t, r = .next t ∧ t.grp.regions = rs ∧ t.grp.unw = true ∧ t.grp.tc = 8 ∧ t.grp.td0 = c.td0 ∧ t.grp.wait = {} ∧
            ∀ k < 32, t.grp.pcs.getD k none = if (s.grp.pcs.getD k none).isSome then some rg.handler else none))
      s.Present → act ≠ 0 → act &&& ~~~s.iss.pend = 0 → s.iss.pi = 0 →
      ((∀ d ∈ dst, d < s.grp.ngen) →
        consumes (s.addrConsumed o true act) 0 (exec (.ld ty hint sc od sx nodfr o) s) ∧
        consumes (s.addrConsumed o false act ++ [⟨o.b.code, 0, b.fp, act⟩]) 0 (exec (.atom ty op sc od o) s)) ∧
      consumes (s.addrConsumed o true act ++ [s.dataConsumed b o.b act]) 0 (exec (.st ty hint sc od sx o) s) ∧
      consumes [(s.uniA o).consumed o.a act] 0 (exec (.join o) s) ∧
      consumes (s.guardConsumed o.g ++ [(s.srcA o true).consumed o.a act]) 1 (exec (.brx o) s) ∧
      ((∃ d ∈ dst, s.grp.ngen ≤ d) → (ty.is64 = true → o.d.reg % 2 = 0) →
        let shape : Out := .next (s.trap ⟨3, BitVec.ofNat 32 (o.d.reg + if s.grp.whole act then 0 else 1024), act, 0, 0⟩ .fresh)
        exec (.ld ty hint sc od sx nodfr o) s = shape ∧ exec (.atom ty op sc od o) s = shape ∧
        (s.grp.whole act = false → exec (.iadd ty sx o) s = shape)))

/-- R147, R339, R340: RTT ends the handler, sends every live lane to the PC its frame holds, and leaves the
frame's entries to be replayed, each as its 2,240 bytes give it: the PC, the bits, the lanes, and the values and tags of its captured sources; outside a handler it is illegal.
The model's own choices: log entry 34. -/
def Obligations.ReturnFromTrap : Prop :=
  ∀ (o : Ops) (hd bs : List Byte) (s s1 s2 : State), s.iss.act ≠ 0 →
    let n := min 16 (leNat ((hd.drop 276).take 4))
    (s.grp.inhdl = true → s.readFrame s.iss.key 512 = .ok (hd, s1) → s1.readFrame s.iss.key (512 + 2240 * n) = .ok (bs, s2) →
      ∃ t, exec (.rtt o) s = .next t ∧ t.grp.inhdl = false ∧ t.grp.tc = 0 ∧ t.grp.replay.length = n ∧
        (∀ l < 32, (t.grp.pcs.getD l none) = (s2.grp.pcs.getD l none).map fun _ => BitVec.ofNat 64 (leNat ((bs.drop (8 * l)).take 8))) ∧
        t.grp.v = s2.grp.v ∧ t.grp.s = s2.grp.s ∧ t.grp.p = s2.grp.p ∧ t.mem = s2.mem ∧
        ∀ i < n, ∃ e, t.grp.replay[i]? = some e ∧
          let x (off k : Nat) : Nat := leNat ((((bs.drop (512 + 2240 * i)).take 2240).drop off).take k)
          e.pc = BitVec.ofNat 64 (x 0 8) ∧ e.bits = BitVec.ofNat 128 (x 8 16) ∧ e.pend = BitVec.ofNat 32 (x 24 4) ∧ e.act = BitVec.ofNat 32 (x 28 4) ∧
          e.pi = BitVec.ofNat 32 (x 32 4) ∧ e.valid = (x 37 1).testBit 0 ∧ e.trapped = (x 37 1).testBit 1 ∧ e.slots.length = x 36 1 ∧
          ∀ l < 32, e.dp.getLsbD l = decide (x 40 8 / 4 ^ l % 2 = 1) ∧ e.fp.getLsbD l = decide (x 40 8 / 4 ^ l % 4 = 2) ∧
            ∀ j < x 36 1, ∃ z, e.slots[j]? = some z ∧ z.ws.getD l 0 = BitVec.ofNat 32 (x (64 + 136 * j + 4 * l) 4) ∧
              z.dp.getLsbD l = decide (x (192 + 136 * j) 8 / 4 ^ l % 2 = 1) ∧ z.fp.getLsbD l = decide (x (192 + 136 * j) 8 / 4 ^ l % 4 = 2)) ∧
    (s.grp.inhdl = false → exec (.rtt o) s = .next (s.trap (s.illegal 1) .fresh))

/-- R148 to R152, R157, R334: containment regions open, close and report their status; WAITFAULT
reports the outcome of a token that is one of the 2^20 newest; WAITPRED finishes when the predecessor's writes are visible. -/
def Obligations.RegionsAndWaits : Prop :=
  ∀ (pm : BitVec 16) (o : Ops) (q : BrOps) (s : State), s.iss.act ≠ 0 →
    let tok : Word := (s.uniA o).val.setWidth 32
    let f := (s.vd s.grp.vd).fault
    let pending : Prop := ∃ r ∈ f.reqs, r.token = some tok ∧ r.failed = false
    (s.grp.regions.length ≠ 4 → s.Does (fun g => { g with
      regions := ⟨s.iss.pc + q.off.signExtend 64, pm, q.aux, g.nextRegion⟩ :: g.regions, nextRegion := g.nextRegion + 1 }) (exec (.cropen pm q) s)) ∧
    (s.grp.regions.length = 4 → exec (.cropen pm q) s = .next (s.trap (capacityCause 1) .fresh)) ∧
    (∀ r rs, s.grp.regions = r :: rs → ∃ t, exec (.crclose o) s = .next t ∧ t.grp.regions = rs ∧ t.grp.v = s.grp.v ∧ t.grp.s = s.grp.s ∧
      t.grp.p = s.grp.p ∧ s.SameBytes t ∧ t.copies.length = s.copies.length) ∧
    (s.grp.regions = [] → exec (.crclose o) s = .next (s.trap (s.illegal 1) .fresh)) ∧
    s.UniOp o s.grp.crWord .clean (exec (.crstat false o) s) ∧
    (∃ t, exec (.crstat true o) s = .next t ∧ t.grp.sreg o.d.reg = ⟨s.grp.crWord, s.uniTag .clean⟩ ∧ t.grp.lcause = 0 ∧ t.grp.unw = false) ∧
    (¬pending → f.recent tok = true → f.outcomes.find? (fun e => e.1 == tok) = some (tok, true) → s.UniOp o 1 .clean (exec (.waitfault o) s)) ∧
    (¬pending → f.outcomes.find? (fun e => e.1 == tok) = none ∨ f.recent tok = false → s.UniOp o 2 .clean (exec (.waitfault o) s)) ∧
    (¬pending → f.recent tok = true → f.outcomes.find? (fun e => e.1 == tok) = some (tok, false) →
      ∃ t, exec (.waitfault o) s = .next t ∧ t.grp.sreg o.d.reg = ⟨0, s.uniTag .clean⟩) ∧
    (s.grp.predDone = true → exec (.waitpred o) s = .next s.finish) ∧
    (s.grp.predDone = false → (s.predReached (recBundle s.team.record)).1 = true →
      ∃ t, exec (.waitpred o) s = .next t ∧ t.grp.predDone = true)

/-! ## Memory (R167, R209 to R271) -/

/-- R211, R247 to R254, R257: LD and LDT, where every active lane reaches memory, put into each the value its bytes give, extended as the type says, with data-poison where a sector is poisoned; they change no byte of memory and nothing else of the group.
R256: PREF changes no register and no byte of memory, whatever its lanes meet.
The model's own choices: log entries 5, 16 and 18. -/
def Obligations.LaneLoads : Prop :=
  (∀ (ty : Ty) (hint : LdHint) (sc : Scope) (od : MemOrd) (rnd : Rnd) (sx e2 nodfr : Bool) (o : Ops) (s u : State) (ls : List (Nat × Loc)),
      let n := ty.width / 8
      let srcs := s.addrConsumed o true s.iss.act
      let tag (bad : Nat → Bool) (l : Nat) : Tag := (if bad l then Tag.poison else .clean).join (s.iss.guardTag l)
      let ld : Access := { n := n, acc := 0, sc := sc, acq := od.isAcq, rel := false, defer := !nodfr, score := true,
                           dst := destRegs o (if ty.is64 then 2 else 1), pair := ty.is64 }
      let ldt : Access := { n := 1, acc := 0, sc := sc, acq := od.isAcq, rel := false, win := .globalOnly, aligned := false, defer := !nodfr,
                            dst := destRegs o (if ty.is64 || e2 then 2 else 1), pair := ty.is64 }
      let x (l : Nat) := s.loadN s.grp sc (locAt ls l) n
      let y (l : Nat) := s.typedRead sc ty rnd e2 (locAt ls l)
      (s.Ready ld srcs (s.lanesEa o sx fun _ => n) (fun _ _ _ => none) ls u →
        ∃ (t : State) (free : Nat → Nat), exec (.ld ty hint sc od sx nodfr o) s = .next t ∧ s.Loaded t ld.dst [] ∧
          ∀ j < ld.dst.length, s.HoldsV t (o.d.reg + j)
            (fun l => (if (x l).2 then free l else (extendAs ty (readAs ty (BitVec.ofNat 64 (x l).1))).toNat) / 2 ^ (32 * j))
            (tag fun l => (x l).2)) ∧
      (s.Ready ldt srcs (s.lanesEa o false fun l => s.typedUnit ((s.srcA o true).d l)) (s.typedRefused ty e2 true false 0) ls u →
        ∃ (t : State) (free : Nat → Nat → Nat), exec (.ldt ty rnd sc od e2 nodfr o) s = .next t ∧ s.Loaded t ldt.dst [] ∧
          ∀ j < ldt.dst.length, s.HoldsV t (o.d.reg + j)
            (fun l => if (y l).2 then free j l else if e2 then (y l).1.getD j 0 else (y l).1.getD 0 0 / 2 ^ (32 * j))
            (tag fun l => (y l).2))) ∧
  (∀ (ty : Ty) (ph : PrefHint) (sx : Bool) (o : Ops) (s : State), ∃ t, exec (.pref ty ph sx o) s = .next t ∧ s.Loaded t [] [])

/-- R167: SLD puts the value at its one address, extended as the type says, into its s register, with data-poison where a sector is poisoned.
SST, with a release or without, puts the low bytes of its source behind the stores that its group still has queued, and the source's data-poison with them (R252); a release is over before that.
The model's own choices: log entries 5 and 9. -/
def Obligations.UniformLoadsAndStores : Prop :=
  ∀ (ty : Ty) (sc : Scope) (od : MemOrd) (o : Ops) (s u : State) (loc : Loc),
    let n := ty.width / 8
    let a := s.onceEa o
    let b := s.uni o.b (s.iss.slots.map fun t => t.2.1)
    let ld : Access := { n := n, acc := 0, sc := sc, acq := od.isAcq, rel := false, win := .noStack, score := true }
    let st : Access := { n := n, acc := 1, sc := sc, acq := false, rel := od.isRel, win := .noStack, score := true }
    let x := s.loadN s.grp sc loc n
    let r := u.ordered st [(lowLane s.iss.act, loc)]
    (a.1.tag = .clean → s.OnceReady ld a.2 loc u →
      ∃ t, exec (.sld ty sc od o) s = .next t ∧ s.Loaded t [] [o.d.reg] ∧
        (t.grp.sreg o.d.reg).tag = s.uniTag (if x.2 then .poison else .clean) ∧
        (x.2 = false → (t.grp.sreg o.d.reg).val = extendAs ty (readAs ty (BitVec.ofNat 64 x.1)))) ∧
    (a.1.tag = .clean → b.tag ≠ .pending → s.OnceReady st a.2 loc u →
      ∃ t, exec (.sst ty sc od o) s = .next t ∧ s.WroteFrom r t [] [] ∧ t = { r with groups := t.groups } ∧
        Joins r.grp.sq t.grp.sq [(0, loc, leBytes n b.val.toNat)] ∧
        Marks r.grp.sq t.grp.sq [(0, loc, leBytes n b.val.toNat)] fun _ => b.tag == .poison)

/-- R223, R224, R252, R255, R258: ST and STT, with a release or without, put their lanes' bytes behind the stores that their group still has queued, the higher lane's where two meet, with the data-poison of the lanes that bear it; they change no register.
A release is over before any lane is performed.
The model's own choices: log entries 9 and 18. -/
def Obligations.LaneStores : Prop :=
  ∀ (ty : Ty) (hint : LdHint) (sc : Scope) (od : MemOrd) (rnd : Rnd) (sx e2 sat : Bool) (o : Ops) (s u : State) (ls : List (Nat × Loc)),
    let n := ty.width / 8
    let b := s.srcBfield o ty.is64
    let b1 := if e2 then s.srcBfield o false 1 else Src.const 0
    let act := s.iss.act
    let st : Access := { n := n, acc := 1, sc := sc, acq := false, rel := od.isRel, score := true }
    let stt : Access := { n := 1, acc := 1, sc := sc, acq := false, rel := od.isRel, win := .globalOnly, aligned := false }
    let code (e : Nat × Loc) := typedStore e.2.fmt ty rnd sat (b.at ty.is64 e.1) + if e2 then typedStore e.2.fmt ty rnd sat (b1.w e.1) * 16 else 0
    let done (m : Access) (bs : List (Nat × Loc × List Byte)) (dp : Word) (x : Out) : Prop :=
      let r := u.ordered m ls
      ∃ t, x = .next t ∧ s.WroteFrom r t [] [] ∧ t = { r with groups := t.groups } ∧
        (OneClass ls → Joins r.grp.sq t.grp.sq bs ∧ Marks r.grp.sq t.grp.sq bs fun l => dp.getLsbD l || s.iss.gdp.getLsbD l)
    (s.Ready st (s.addrConsumed o true act ++ [s.dataConsumed b o.b act]) (s.lanesEa o sx fun _ => n) (fun _ _ _ => none) ls u →
      done st (ls.map fun e => (e.1, e.2, leBytes n (b.at ty.is64 e.1))) b.dp (exec (.st ty hint sc od sx o) s)) ∧
    (s.Ready stt (s.addrConsumed o true act ++ [s.dataConsumed { b with fp := b.fp ||| b1.fp } o.b act])
        (s.lanesEa o false fun l => s.typedUnit ((s.srcA o true).d l)) (s.typedRefused ty e2 false sat 1) ls u →
      done stt (ls.map fun e => (e.1, e.2, leBytes (elemUnit (fmtElem e.2.fmt)) (code e))) (b.dp ||| b1.dp) (exec (.stt ty rnd sc od e2 sat o) s))

/-- R260 to R262: the atomics perform their lanes' read-modify-writes in ascending lane order, return the old values with data-poison where a lane was dropped, and write no register but the destination.
R235, R260, R263: the read-modify-write of one lane returns the value at its point, leaves there the new value, and touches no other byte; where the sector or the operand is poisoned the lane is dropped, writes nothing and is counted.
R260, R261: the new value of each operation, at the width and signedness of its type; of two lanes on one location the higher finds what the lower has left.
The model's own choices: log entry 9. -/
def Obligations.Atomics : Prop :=
  (∀ (ty : Ty) (op : AtomOp) (sc : Scope) (od : MemOrd) (fo : Bool) (o : Ops) (s u : State) (ls : List (Nat × Loc)),
      let n := ty.width / 8
      let eas := s.lanesEa { o with fmt := if o.fmt = .f96 then .f64 else o.fmt } false fun _ => n
      let dst := destRegs o (if ty.is64 then 2 else 1)
      let b := s.srcBfield o ty.is64
      let new := s.srcBfield o ty.is64 1
      let srcs (fp : Word) := s.addrConsumed o false s.iss.act ++ [⟨o.b.code, 0, fp, s.iss.act⟩]
      let w := u.ordered (atomAccess ty sc od dst) ls
      let r := w.rmwLanes n b.dp (fun l old => some (atomNew ty op old (b.at ty.is64 l))) ls
      let c := w.rmwLanes n (b.dp ||| new.dp) (fun l old => if old = b.at ty.is64 l then some (new.at ty.is64 l) else none) ls
      let lands (r : List Rmw × State) (t : State) : Prop := s.Wrote t dst [] ∧ r.2.SameBytes t ∧
        ∀ j < dst.length, s.HoldsV t (o.d.reg + j) (fun l => laneVal (r.1.map fun e => (e.lane, e.old)) l / 2 ^ (32 * j))
          fun l => (if r.1.any fun e => e.lane == l && e.dropped then Tag.poison else .clean).join (s.iss.guardTag l)
      (od.isRel = true → s.NoBinops) →
      (s.Ready (atomAccess ty sc od dst) (srcs b.fp) eas (s.hostRefuses (op = .add || op = .exch)) ls u →
        ∃ t, exec (.atom ty op sc od o) s = .next t ∧ lands r t) ∧
      (s.Ready (atomAccess ty sc od dst) (srcs b.fp) eas (s.hostRefuses false) ls u → ∃ t, exec (.atomf ty op sc od o) s = .next t ∧ lands r t) ∧
      (s.Ready (atomAccess ty sc od []) (srcs b.fp) eas (s.hostRefuses (op = .add && !ty.isF)) ls u →
        ∃ t, exec (.red ty op sc od o) s = .next t ∧ s.Wrote t [] [] ∧ r.2.SameBytes t) ∧
      (s.Ready { atomAccess ty sc od dst with acq := false } (srcs (b.fp ||| new.fp)) eas (s.hostRefuses true) ls u →
        ∃ t, exec (.atomcas ty sc od fo o) s = .next t ∧ lands c t)) ∧
  (∀ (n l : Nat) (bad : Word) (f : Nat → Nat → Option Nat) (loc : Loc) (s : State), 0 < n →
      let v := (s.beforeRmw s.iss.key loc).meetAt loc
      let old := v.pointRead v.grp loc n
      let drop := old.2 || bad.getLsbD l
      let r := s.rmwLanes n bad f [(l, loc)]
      let mine (a : Nat) : Prop := ∃ i < n, loc.byteAt i = a
      (drop = true → (∃ x, r.1 = [⟨l, x, true, false⟩]) ∧ v.SameBytes r.2 ∧ (r.2.vd v.grp.vd).err.atomdrop = satInc (v.vd v.grp.vd).err.atomdrop) ∧
      (drop = false → f l old.1 = none → r = ([⟨l, old.1, false, false⟩], v)) ∧
      (∀ x, drop = false → f l old.1 = some x →
        r.1 = [⟨l, old.1, false, true⟩] ∧ (r.2.pointRead v.grp loc n).1 = x % 2 ^ (8 * n) ∧
        (∀ a, loc.space ≠ .hbm ∧ loc.space ≠ .stack ∨ ¬mine a → v.HbmKept r.2 a) ∧
        (∀ a, loc.space ≠ .host ∨ ¬mine a → r.2.hostByte a = v.hostByte a) ∧
        (∀ a, loc.space ≠ .remote ∨ ¬mine a → r.2.remoteByte a = v.remoteByte a) ∧
        (∀ a, loc.space ≠ .scratch ∨ ¬mine a → r.2.scratchByte a = v.scratchByte a) ∧
        (∀ i k, r.2.tileByte i k = v.tileByte i k ∧ r.2.sideByte i k = v.sideByte i k))) ∧
  (∀ (n l m : Nat) (f : Nat → Nat → Option Nat) (loc : Loc) (x y : Nat) (s : State), 0 < n →
      let v := (s.beforeRmw s.iss.key loc).meetAt loc
      let old := v.pointRead v.grp loc n
      let r := s.rmwLanes n 0 f [(l, loc), (m, loc)]
      old.2 = false → f l old.1 = some x → f m (x % 2 ^ (8 * n)) = some y →
      r.1 = [⟨l, old.1, false, true⟩, ⟨m, x % 2 ^ (8 * n), false, true⟩] ∧ (r.2.pointRead v.grp loc n).1 = y % 2 ^ (8 * n)) ∧
  (∀ (ty : Ty) (x y : Nat), x < 2 ^ ty.width → y < 2 ^ ty.width →
      let n := ty.width
      let f := Fp.ofTy ty
      let int (a : Nat) : Int := if ty.isS then (BitVec.ofNat n a).toInt else (a : Int)
      let bits (p : Nat) (op : Bool → Bool → Bool) : Prop := ∀ j < n, p.testBit j = op (x.testBit j) (y.testBit j)
      (ty.isF = false → atomNew ty .add x y = (x + y) % 2 ^ n ∧ atomNew ty .min x y = (if int x ≤ int y then x else y) ∧
        atomNew ty .max x y = (if int x ≤ int y then y else x)) ∧
      (ty.isF = true → atomNew ty .add x y = Fp.enc f .rn (Fp.add .rn (Fp.val f x) (Fp.val f y)) ∧ atomNew ty .min x y = Fp.fmin f x y ∧
        atomNew ty .max x y = Fp.fmax f x y) ∧
      bits (atomNew ty .and x y) (· && ·) ∧ bits (atomNew ty .or x y) (· || ·) ∧ bits (atomNew ty .xor x y) (· != ·) ∧ atomNew ty .exch x y = y ∧
      atomNew ty .inc x y = (if y ≤ x then 0 else x + 1) ∧ atomNew ty .dec x y = if x = 0 ∨ y < x then y else x - 1)

/-- R248: where the first address of an access that is not a multiple of its size is lane `l`'s, LD,
ST and an atomic trap with ALIGN naming it, and no lane is performed. -/
def Obligations.MisalignedAccessTraps : Prop :=
  ∀ (ty : Ty) (hint : LdHint) (op : AtomOp) (sc : Scope) (od : MemOrd) (sx nodfr : Bool) (o : Ops) (s : State) (l : Nat),
    let n := ty.width / 8
    let act := s.iss.act
    let b := s.srcBfield o ty.is64
    let first (eas : List Nat) : Prop := l < 32 ∧ act.getLsbD l = true ∧ eas.getD l 0 % n ≠ 0 ∧
      ∀ k < l, act.getLsbD k = true → eas.getD k 0 % n = 0
    let clean (xs : List Consumed) : Prop := ∀ x ∈ xs, (x.dp ||| x.fp) &&& x.lanes = 0
    let traps (eas : List Nat) (r : Out) : Prop := r = .next (s.trap (alignCause (eas.getD l 0) l (Nat.log2 n)) .fresh)
    let ea := s.lanesEa o sx fun _ => n
    let ea' := s.lanesEa { o with fmt := if o.fmt = .f96 then .f64 else o.fmt } false fun _ => n
    let regs : Prop := ∀ d ∈ destRegs o (if ty.is64 then 2 else 1), d < s.grp.ngen
    act &&& ~~~s.iss.pend = 0 → s.iss.pi = 0 →
    (first ea → clean (s.addrConsumed o true act) → regs → traps ea (exec (.ld ty hint sc od sx nodfr o) s)) ∧
    (first ea → clean (s.addrConsumed o true act ++ [s.dataConsumed b o.b act]) → traps ea (exec (.st ty hint sc od sx o) s)) ∧
    (first ea' → clean (s.addrConsumed o false act ++ [⟨o.b.code, 0, b.fp, act⟩]) → regs → traps ea' (exec (.atom ty op sc od o) s))

/-- R222, R266: FENCE ends with the group's store queue empty; a release at .dev or wider leaves no write of its die unacknowledged, and an acquire wider than .core no copy in its L1; it writes no register and changes no byte beyond what its queue held. An .ar that its turn stops may leave that wait to the group's next write, which makes it first.
R216, R267: CMNT.l1, once the group's stores have drained, drops the core's L1 and nothing else. CMNT.wb, after the same wait, writes the dirty bytes of its VD's die-coherent copies in the range back to the cistern and leaves them clean, and CMNT.inv leaves no copy of its VD there either, in the die's L2 or the core's L1; copies of other dies and outside the range stay, and so does every byte that no such copy holds dirty. A length of 0 does nothing; a range that is too long, or leaves the global window, traps with XLATE.
R251: a CMNT that is stopped after `k` more lines waits with their count in pi.
The model's own choices: log entry 9. -/
def Obligations.FencesAndMaintenance : Prop :=
  ∀ (sc : Scope) (od : MemOrd) (o : Ops) (s : State), s.Present → s.iss.act ≠ 0 →
    let g := s.grp
    let key := s.iss.key
    let a := s.uniA o
    let b := s.uniB o
    let lo := a.val.toNat
    let n := b.val.toNat
    let clean : Prop := a.tag = .clean ∧ b.tag = .clean
    let late : Bool := s.iss.lateFence sc od
    let w := if od.isRel then (if late then (s.settleStores key).publish key else s.release key sc) else s.drain key
    let flushed (t : State) : Prop := ∀ f ∈ t.mem.fwd ++ t.mem.acks, f.die ≠ dieOf g.core
    let r := s.settleStores key
    let total := (lo + n - 1) / 1024 - lo / 1024 + 1
    let lo' := max lo ((lo / 1024 + s.iss.pi.toNat) * 1024)
    let inRange (c : Nat) : Prop := ∃ e ∈ r.rangeSectors lo' (lo + n - lo'), e.1 ≤ c ∧ c ≤ e.2
    let mine (c : L2Copy) : Prop := c.die = dieOf g.core ∧ c.vd = g.vd ∧ c.dieCoh = true ∧ inRange c.sector
    let written (t : State) : Prop :=
      (∀ x, (∀ c ∈ r.mem.l2, mine c → x ∉ c.dirty) → t.hbmByte x = r.hbmByte x) ∧
      (∀ c ∈ r.mem.l2, mine c → ∀ x v, x ∈ c.dirty → Mem.wf c.data = true → Mem.read c.data x = some v → (∀ d ∈ r.mem.l2, x ∈ d.dirty → d = c) → t.hbmByte x = v) ∧
      (∀ c, ¬(c.die = dieOf g.core ∧ inRange c.sector) → (c ∈ t.mem.l2 ↔ c ∈ r.mem.l2)) ∧
      (∀ c, ¬inRange c.sector → (c ∈ t.mem.l1 ↔ c ∈ r.mem.l1))
    let traps (x : Out) : Prop := x = .next (s.trap (xlateCause lo (lowLane s.iss.act) 1 0 false) .fresh)
    (∃ t, exec (.fence sc od o) s = .next t ∧ s.WroteFrom w t [] [] ∧ w.SameBytes t ∧ t.grp.sq = [] ∧
      (od.isRel = true → 3 ≤ sc.code → if late then flushed (t.drain key) else flushed t) ∧ (od.isAcq = true → sc ≠ .core → ∀ c ∈ t.mem.l1, c.core ≠ g.core)) ∧
    (∃ t, exec (.cmntL1 o) s = .next t ∧ s.WroteFrom r t [] [] ∧ r.SameBytes t ∧ t.grp.sq = [] ∧ t.mem.l2 = r.mem.l2 ∧
      ∀ c, c ∈ t.mem.l1 ↔ c ∈ r.mem.l1 ∧ c.core ≠ g.core) ∧
    (clean → n = 0 → exec (.cmntWb o) s = .next s.finish ∧ exec (.cmntInv o) s = .next s.finish) ∧
    (clean → 2 ^ 36 < n ∨ (n ≠ 0 ∧ 2 ^ 56 < lo + n) → traps (exec (.cmntWb o) s) ∧ traps (exec (.cmntInv o) s)) ∧
    (clean → n ≠ 0 → n ≤ 2 ^ 36 → lo + n ≤ 2 ^ 56 → s.iss.stop = none →
      (∃ t, exec (.cmntWb o) s = .next t ∧ s.WroteFrom r t [] [] ∧ written t ∧ t.mem.l1 = r.mem.l1 ∧ ∀ c ∈ t.mem.l2, mine c → c.dirty = [] ∧ c.pdirty = false) ∧
      (∃ t, exec (.cmntInv o) s = .next t ∧ s.WroteFrom r t [] [] ∧ written t ∧
        (∀ c ∈ t.mem.l2, c.die = dieOf g.core → c.vd = g.vd → ¬inRange c.sector) ∧ ∀ c ∈ t.mem.l1, c.core = g.core → c.vd = g.vd → ¬inRange c.sector)) ∧
    (∀ k, clean → n ≠ 0 → n ≤ 2 ^ 36 → lo + n ≤ 2 ^ 56 → s.iss.stop = some k → s.iss.pi.toNat + k < total → s.iss.replay = false →
      (∃ t, exec (.cmntWb o) s = .next t ∧ t.grp.pi = BitVec.ofNat 32 (s.iss.pi.toNat + k) ∧ t.grp.pcs = r.grp.pcs) ∧
      ∃ t, exec (.cmntInv o) s = .next t ∧ t.grp.pi = BitVec.ofNat 32 (s.iss.pi.toNat + k) ∧ t.grp.pcs = r.grp.pcs)

/-- R268: TAGRD puts into each active lane whether the sector of its address is poisoned, 0 on a host
page; TAGWR marks the sectors, or clears them, and writes no register.
The model's own choices: log entry 9. -/
def Obligations.PoisonTags : Prop :=
  ∀ (sc : Scope) (od : MemOrd) (clr : Bool) (o : Ops) (s u : State) (ls : List (Nat × Loc)),
    let a := s.srcA o true
    let eas := (List.range 32).map a.d
    let srcs := s.addrConsumed o false s.iss.act
    let rd := { tagAccess 0 sc od (destRegs o 1) with general := !(a.lo.isUniform && a.hi.isUniform) }
    let w (acc : Access) := ls.foldl (fun s e => s.beforeRmw s.iss.key e.2) (u.ordered acc ls)
    let host (lane ea : Nat) (l : Loc) : Option Pending := if l.space = .host then some (permCause ea lane 6) else none
    (od.isRel = true → s.NoBinops) →
    (s.Ready rd srcs eas (fun _ _ _ => none) ls u →
      ∃ t, exec (.tagrd sc od o) s = .next t ∧ s.Wrote t [o.d.reg] [] ∧
        s.HoldsV t o.d.reg (fun l => let p := locAt ls l; if p.space = .host then 0 else if ((w rd).pointRead (w rd).grp p 1).2 then 1 else 0) s.iss.guardTag) ∧
    (s.Ready (tagAccess 2 sc od []) srcs eas host ls u → (clr = true → ∀ e ∈ ls, sectorOf e.2.addr ∉ s.mem.damaged) →
      ∃ t, exec (.tagwr sc od clr o) s = .next t ∧ s.Wrote t [] [] ∧ ∀ e ∈ ls, (t.pointRead t.grp e.2 1).2 = !clr)

/-- R269, R270: SIGST, after its release, stores to its 64-bit word or adds to it in one indivisible step, and touches no other byte; .irq posts source 0 of its VD; a poisoned word traps and is not written.
R271: SIGWAIT completes with the word once the comparison holds, with .acq as an acquire, or when its time has passed; it completes at once, data-poisoned, on a poisoned word, and waits otherwise, its timeout counted from the first wait.
The model's own choices: log entries 9, 19 and 29. -/
def Obligations.Signals : Prop :=
  ∀ (add irq : Bool) (sg : SigCmp) (sc : Scope) (od : MemOrd) (o : Ops) (s u : State) (loc : Loc),
    let a := s.onceEa o
    let b := s.uni o.b (s.iss.slots.map fun t => t.2.1)
    let c := s.uniB o 0
    let lim := s.uniB o 1
    let v := ((u.ordered (sigAccess 2 sc od) [(lowLane s.iss.act, loc)]).beforeRmw s.iss.key loc).meetAt loc
    let old := v.pointRead v.grp loc 8
    let x := s.loadN s.grp sc loc 8
    let word : DWord := BitVec.ofNat 64 x.1
    let now := s.clkOf s.grp.core
    let fell : Prop := s.grp.wait.kind = .sigwait ∧ ∃ d, s.grp.wait.due = some d ∧ d ≤ now
    let mine (p : Nat) : Prop := ∃ i < 8, loc.byteAt i = p
    let st : Prop := a.1.tag = .clean ∧ b.tag = .clean ∧ s.OnceReady (sigAccess 2 sc od) a.2 loc u
    let wt : Prop := a.1.tag = .clean ∧ s.OnceReady (sigAccess 0 sc .rlx) a.2 loc u
    let gets (t : State) (w : SReg) : Prop := exec (.sigwait sg sc od o) s = .next t ∧ s.Loaded t [] [o.d.reg] ∧ t.grp.sreg o.d.reg = w
    (st → old.2 = false →
      ∃ t, exec (.sigst add irq sc od o) s = .next t ∧ s.WroteFrom v t [] [] ∧
        (t.pointRead t.grp loc 8).1 = (if add then (old.1 + b.val.toNat) % 2 ^ 64 else b.val.toNat) ∧
        (∀ p, loc.space ≠ .hbm ∨ ¬mine p → v.HbmKept t p) ∧ (∀ p, loc.space ≠ .host ∨ ¬mine p → t.hostByte p = v.hostByte p) ∧
        (∀ p, loc.space ≠ .remote ∨ ¬mine p → t.remoteByte p = v.remoteByte p) ∧ (∀ p, t.scratchByte p = v.scratchByte p) ∧
        (irq = false → t.msgs = v.msgs ∧ t.vds = v.vds) ∧
        (irq = true → (mget 0 (v.vd v.grp.vd).remap 0).getLsbD 0 = true → (mget 0 (v.vd v.grp.vd).remap 0).getLsbD 1 = true →
          mget 0 (t.vd v.grp.vd).remap 0 = mget 0 (v.vd v.grp.vd).remap 0 ||| 4)) ∧
    (st → old.2 = true → exec (.sigst add irq sc od o) s = .next (v.trap (poisonedWord (lowLane s.iss.act) a.2) .fresh)) ∧
    (wt → x.2 = false → sg.holds word c.val = true →
      ∃ t, gets t ⟨word, s.uniTag (c.tag.join lim.tag)⟩ ∧ (od.isAcq = true → loc.scope sc ≠ some .core → ∀ y ∈ t.mem.l1, y.core ≠ s.grp.core)) ∧
    (wt → x.2 = false → sg.holds word c.val = false → fell → ∃ t, gets t ⟨word, s.uniTag (c.tag.join lim.tag)⟩ ∧ t.mem.l1 = s.mem.l1) ∧
    (wt → x.2 = true → ∃ t w, gets t ⟨w, s.uniTag .poison⟩) ∧
    (wt → x.2 = false → sg.holds word c.val = false → s.grp.wait = {} → s.iss.pi = 0 → s.iss.replay = false →
      ∃ t, exec (.sigwait sg sc od o) s = .next t ∧ s.CopiedBytes t ∧ t.grp.pcs = s.grp.pcs ∧ t.grp.v = s.grp.v ∧ t.grp.s = s.grp.s ∧
        t.grp.wait.kind = .sigwait ∧ t.grp.wait.due = if fld lim.val.toNat 31 0 = 0 then none else some (now + fld lim.val.toNat 31 0)) ∧
    (wt → x.2 = false → sg.holds word c.val = false → s.grp.wait.kind = .sigwait → s.grp.wait.expired = false → s.iss.resumed = true → s.iss.replay = false →
      (∀ d, s.grp.wait.due = some d → now < d) →
      ∃ t, exec (.sigwait sg sc od o) s = .next t ∧ t.grp.pcs = s.grp.pcs ∧ t.grp.wait.kind = .sigwait ∧ t.grp.wait.due = s.grp.wait.due)

/-! ## Barriers, runnels, continuations (R46 to R52, R153 to R163) -/

/-- R46, R48, R51, R52, R160 to R163: BARINIT and RNINIT set up; an arrival is counted and completes the
phase when ARR + EXITD reaches the expected count; a post changes its stage when its count is
reached; a wait finishes when its phase has passed. No other group of the team waits here.
R48, R52: while its phase lasts, or its stage is in the other state, a group waits, an arrival of BARS counted once. R49, R50: where a group that has to wait is the last of its team, and nothing of the team is in flight,
it traps BARRIER, naming the barrier or stage and why.
The model's own choices: log entries 9, 10, 29 and 35. -/
def Obligations.BarriersAndRunnels : Prop :=
  ∀ (b : BitVec 4) (mask : BitVec 5) (rn : BitVec 3) (s1 : BitVec 4) (empty : Bool) (o : Ops) (s : State),
    s.Present → s.NobodyWaits → s.NoBinops → s.iss.act ≠ 0 →
    let a := (s.uniA o).val.toNat
    let g := s.grp
    let x := s.team.bar b.toNat
    let e := fld a 11 0
    let full : Prop := x.exp ≤ x.arr + 1 + x.exitd
    let counted (t : State) : Prop := let y := t.team.bar b.toNat
      y.exp = x.exp ∧ y.exitd = x.exitd ∧ (full → y.ph = !x.ph ∧ y.arr = 0 ∧ y.nph = x.nph + 1) ∧ (¬full → y.ph = x.ph ∧ y.arr = x.arr + 1 ∧ y.nph = x.nph)
    let mine : Prop := x.init = true ∧ g.inMask x.mask = true
    let fresh : Prop := x.arrived g.member = false ∧ s.iss.pi ≠ 1
    let r := s.team.rn rn.toNat
    let st := r.stageOf a
    let h : Stage := mget {} r.st st
    let waits (kind : WaitKind) (num : Nat) (pi : Word) (out : Out) (P : State → Prop) : Prop :=
      (∃ e ∈ s.groups, e.1 ≠ s.iss.key ∧ e.2.tid = g.tid ∧ (kind = .barrier → e.2.inMask x.mask = true)) → s.iss.replay = false →
        ∃ t, out = .next t ∧ t.grp.wait = { kind := kind, num := num } ∧ t.grp.pi = pi ∧ t.grp.pcs = g.pcs ∧ t.grp.v = g.v ∧ t.grp.s = g.s ∧ t.grp.p = g.p ∧ P t
    let starves (c : Pending) (out : Out) : Prop :=
      (s.groups.filter fun e => e.2.tid == g.tid) = [(s.iss.key, g)] → s.HasHandler → s.iss.replay = false → ∃ t, out = .next t ∧ g.Entered t.grp c
    let there (t : State) : Prop := t.team = s.team
    let quiet : Prop := s.teamBusy g.tid = false ∧ s.team.saved = none
    (fld a 63 12 = 0 → e ≠ 0 → e ≤ 2048 → mask ≠ 0 → (mask.getLsbD 4 = true → s.team.record.getLsbD 164 = true) → x.arr = 0 →
      ∃ ms, exec (.barinit b mask o) s = .next ({ s with marks := ms }.setBar g.tid b.toNat
        { exp := e, arr := 0, part := s.team.parties mask, exitd := s.team.parties mask - (s.liveParties g.tid mask).length, ph := false,
          init := true, mask := mask }).finish) ∧
    (mine → x.arrived g.member = false → ∃ t, exec (.bara b o) s = .next t ∧ s.Wrote t [] [] ∧ counted t) ∧
    (mine → fresh → full → ∃ t, exec (.bars b o) s = .next t ∧ s.Wrote t [] [] ∧ counted t) ∧
    (mine → s.iss.pi = 1 → x.arrived g.member = false → ∃ t, exec (.bars b o) s = .next t ∧ s.Loaded t [] []) ∧
    (mine → fresh → ¬full → waits .barrier b.toNat 1 (exec (.bars b o) s) counted) ∧
    (mine → x.arrived g.member = true → s.iss.pi = 1 → waits .barrier b.toNat 1 (exec (.bars b o) s) there) ∧
    (mine → x.arrived g.member = true → g.wait.woken = false → s.iss.pi ≠ 1 →
      waits .barrier b.toNat 0 (exec (.bara b o) s) there ∧ waits .barrier b.toNat 0 (exec (.bars b o) s) there ∧
      starves ⟨11, BitVec.ofNat 32 (b.toNat + (if x.ph then 128 else 0) + x.arr * 256 + x.exitd * 2 ^ 20), BitVec.ofNat 32 (x.exp + 3 * 4096), 0, 0⟩ (exec (.bara b o) s)) ∧
    (mine → g.wait.kind ≠ .barrier → mfind x.last g.member = none ∨ (∃ k, mfind x.last g.member = some k ∧ decide (k % 2 = 1) = x.ph) →
      waits .barrier b.toNat 0 (exec (.barw b o) s) there) ∧
    (mine → g.wait.kind = .barrier → (g.wait.woken = true → ∃ t, exec (.barw b o) s = .next t ∧ s.Loaded t [] []) ∧
      (g.wait.woken = false → waits .barrier b.toNat 0 (exec (.barw b o) s) there)) ∧
    (r.init = true → h.full = !empty → waits .runnel (rn.toNat + 8 * st) 0 (exec (.rnpost rn empty o) s) there) ∧
    (r.init = true → ¬(h.full = !empty ∧ h.ph = r.phaseOf a) → waits .runnel (rn.toNat + 8 * st) 0 (exec (.rnwait rn empty o) s) there ∧
      (quiet → starves ⟨11, BitVec.ofNat 32 (rn.toNat + 16 + (if h.ph then 128 else 0)), BitVec.ofNat 32 (4 * 4096 + st * 65536), 0, 0⟩ (exec (.rnwait rn empty o) s))) ∧
    (mine → g.wait.kind ≠ .barrier → ∀ k, mfind x.last g.member = some k → decide (k % 2 = 1) ≠ x.ph →
      ∃ t, exec (.barw b o) s = .next t ∧ s.Loaded t [] []) ∧
    (x.init = false → exec (.bara b o) s = .next (s.fail (barCause b.toNat x 1))) ∧
    (x.init = true → g.inMask x.mask = false → exec (.bara b o) s = .next (s.fail (barCause b.toNat x 2))) ∧
    (e ≠ 0 → e ≤ 2048 → fld a 27 16 ≠ 0 → fld a 27 16 ≤ 2048 → fld a 15 12 = 0 → fld a 63 28 = 0 →
      (∀ y ∈ r.st, y.2 = ({} : Stage)) →
      ∃ ms, exec (.rninit rn s1 o) s =
        .next ({ s with marks := ms }.setRn g.tid rn.toNat { init := true, stages := s1.toNat + 1, pc := e, cc := fld a 27 16 }).finish) ∧
    (r.init = true → h.full = empty → ∃ t, exec (.rnpost rn empty o) s = .next t ∧ s.Wrote t [] [] ∧
      mget {} (t.team.rn rn.toNat).st st =
        (if empty then (if h.freeC + 1 = r.cc then { h with full := false, ph := !h.ph, freeC := 0 } else { h with freeC := h.freeC + 1 })
         else if h.fullC + 1 = r.pc then { h with full := true, fullC := 0 } else { h with fullC := h.fullC + 1 })) ∧
    (r.init = true → h.full = !empty → h.ph = r.phaseOf a → ∃ t, exec (.rnwait rn empty o) s = .next t ∧ s.Loaded t [] [])

/-- R35, R36, R38, R154, R155: SPAWN pushes its record, with the bundle identity in place of the fourth
doubleword and the spawner's ASID and reservations beside it, and returns its handle, or a status that says why it did not; JOIN counts one join down in
the record its handle names, which becomes runnable with the last, or is dropped and counted.
Where the guest's queue table has to be paged in first, SPAWN waits instead, with a request of its group before the pager, and writes no register (R367).
The model's own choices: log entries 9 and 35. -/
def Obligations.SpawnAndJoin : Prop :=
  ∀ (o : Ops) (s : State), s.iss.act ≠ 0 → s.NoBinops →
    let rs := (List.range 8).map fun j => s.uni o.a (s.iss.slots.map fun t => t.1) j
    let b := s.uniB o
    let t := s.team
    let vd := s.grp.vd
    let rec0 : BitVec 512 := BitVec.ofNat 512 (rs.zipIdx.foldl (fun n e => n + (if e.2 = 3 then recBundle t.record else e.1.val.toNat) * 2 ^ (64 * e.2)) 0)
    let lq := if o.b = .zero then fld s.grp.spq.toNat 15 0 else b.val.toNat
    let w0 := s.release s.iss.key .dev
    let w := w0.tableDone (.group s.iss.key) vd
    let clean : Prop := (∀ r ∈ rs, r.tag = .clean) ∧ b.tag = .clean
    let here : Prop := clean ∧ lq < 65536 ∧ w0.awaitTable (.group s.iss.key) vd lq = none
    let answers (v : State) (st : Nat) : Prop := ∃ u, exec (.spawn o) s = .next u ∧ s.Wrote u [] [o.d.reg] ∧ u.vds = v.vds ∧
      u.grp.sreg o.d.reg = ⟨BitVec.ofNat 64 (0xFFF0000000000000 + st), s.uniTag .clean⟩
    let h := (s.uniA o).val.toNat
    let x := w0.vd vd
    let names (r : CRecord) : Prop := r.lq = fld h 15 0 ∧ r.seq = fld h 47 16
    let named : Prop := fld h 63 52 = 0 ∧ fld h 51 48 = x.inc.toNat
    let dropped : Prop := ∃ u, exec (.join o) s = .next u ∧ s.Wrote u [] [] ∧ (u.vd vd).jdrop = x.jdrop + 1 ∧ (u.vd vd).conts = x.conts
    (clean → 65536 ≤ lq → answers w0 3) ∧
    (∀ z, clean → lq < 65536 → w0.awaitTable (.group s.iss.key) vd lq = some z →
      ∃ u, exec (.spawn o) s = .next u ∧ u.grp.wait = { kind := .held } ∧ u.grp.pcs = s.grp.pcs ∧ u.grp.v = s.grp.v ∧ u.grp.s = s.grp.s ∧ u.grp.p = s.grp.p ∧
        ∃ r ∈ (u.vd vd).fault.reqs, r.origin = .group s.iss.key ∧ r.failed = false) ∧
    (here → w.queueOf vd lq = none → answers w 3) ∧
    (∀ q, here → w.queueOf vd lq = some q → q.kind = false → answers w 3) ∧
    (∀ q, here → w.queueOf vd lq = some q → q.kind = true →
      let c : CQueue := mget {} (w.vd vd).conts q.iq
      (w.recValid vd rec0 t.scratch t.tile = false → answers w 2) ∧
      (w.recValid vd rec0 t.scratch t.tile = true → (w.vd vd).contCap.admits ((w.vd vd).savebase + 128 * (c.nextSeq % q.entries)) 128 1 3 = true →
        (q.entries ≤ c.recs.length → answers w 1) ∧
        (c.recs.length < q.entries →
          ∃ u r, exec (.spawn o) s = .next u ∧ s.Wrote u [] [o.d.reg] ∧
            u.grp.sreg o.d.reg = ⟨BitVec.ofNat 64 (lq + c.nextSeq * 2 ^ 16 + (w.vd vd).inc.toNat * 2 ^ 48), s.uniTag .clean⟩ ∧
            (mget {} (u.vd vd).conts q.iq).recs = c.recs ++ [r] ∧ r.seq = c.nextSeq ∧ r.lq = lq ∧ r.record = rec0 ∧ r.asid = t.asid ∧
            r.scratch = t.scratch ∧ r.tile = t.tile ∧ (r.order.isSome = true ↔ recFld rec0 159 128 = 0)))) ∧
    ((s.uniA o).tag = .clean → (¬named ∨ (∀ e ∈ x.conts, ∀ r ∈ e.2.recs, ¬names r)) → dropped) ∧
    (∀ iq c r, (s.uniA o).tag = .clean → named → (iq, c) ∈ x.conts → mfind x.conts iq = some c → r ∈ c.recs → names r →
      (∀ e ∈ x.conts, ∀ r' ∈ e.2.recs, names r' → e = (iq, c) ∧ r' = r) → recFld r.record 159 128 = 0 → dropped) ∧
    (∀ iq c r, (s.uniA o).tag = .clean → named → (iq, c) ∈ x.conts → mfind x.conts iq = some c → r ∈ c.recs → names r →
      (∀ e ∈ x.conts, ∀ r' ∈ e.2.recs, names r' → e = (iq, c) ∧ r' = r) → recFld r.record 159 128 ≠ 0 →
      ∃ u j, exec (.join o) s = .next u ∧ s.Wrote u [] [] ∧ (u.vd vd).jdrop = x.jdrop ∧ recFld j.record 159 128 = recFld r.record 159 128 - 1 ∧
        (∀ k, k < 128 ∨ 160 ≤ k → j.record.getLsbD k = r.record.getLsbD k) ∧ j.seq = r.seq ∧ j.lq = r.lq ∧
        j.order = (if recFld r.record 159 128 = 1 then some c.nextOrder else none) ∧
        (mget {} (u.vd vd).conts iq).recs = c.recs.map fun y => if y.seq = r.seq then j else y)

/-! ## Remote stores and inboxes (R272 to R279) -/

/-- R22, R273 to R278, R355: RSTR sends all lanes of its registers to the named group, its sequence number
taken and one more outcome awaited; the die of this device that serves the name joins the touched-dies mask, and where it is out of service the request traps DIELOST; IBARM arms a counter over a window whose registers keep their
values, IBARM.dis cancels it, IBWAIT reports how it ended, and IBSTAT reads the status words.
The model's own choices: log entries 9, 19 and 29. -/
def Obligations.InboxesAndRemoteSends : Prop :=
  ∀ (ctr : BitVec 2) (cnt1 : BitVec 3) (trapnak clr : Bool) (od : MemOrd) (o : Ops) (s : State), s.iss.act ≠ 0 →
    let g := s.grp
    let a := s.uniA o
    let b := s.uniB o
    let c := s.uni o.c (s.iss.slots.map fun t => t.2.2)
    let regs := (List.range (cnt1.toNat + 1)).map fun j => s.grp.read32 (s.iss.slots.map fun t => t.2.1) o.b o.pb j
    let k := ctr.toNat
    let e := a.val.toNat
    let base := fld b.val.toNat 9 0
    let n := fld b.val.toNat 16 10
    let x := g.inbox k
    let m : RemoteStore := { gname := a.val, sdev := s.devNum, svd := g.vd, sender := g.gname, seq := g.send.next, first := c.val.toNat,
                             regs := regs.map fun r => r.lo.words, trapnak := trapnak, die := dieOf g.core, inc := s.incOf (dieOf g.core),
                             work := some (recBundle s.team.record) }
    let w := if od.isRel then s.release s.iss.key .pod else s.settleFence s.iss.key
    let far := if nameDev a.val = s.devNum then w.serviceDie a.val else none
    let touched : BitVec 2 := match far with | some d => g.tdmask ||| BitVec.ofNat 2 (2 ^ d) | none => g.tdmask
    let sendable : Prop := a.tag = .clean ∧ c.tag = .clean ∧ (∀ r ∈ regs, r.dp = 0 ∧ r.fp = 0)
    (sendable → fld c.val.toNat 63 10 = 0 → g.send.pend < 64 → (od.isRel = true → s.NoBinops) → (∀ d, far = some d → s.dieOk d = true) →
      ∃ t, exec (.rstr cnt1 trapnak od o) s = .next t ∧ t.flight = s.flight ++ [m] ∧ t.grp.tdmask = touched ∧
        t.grp.send = { g.send with pend := g.send.pend + 1, next := (g.send.next + 1) % 2 ^ 20 } ∧
        t.grp.v = g.v ∧ t.grp.s = g.s ∧ t.grp.p = g.p ∧ (∀ j, j ≠ s.iss.key → mfind t.groups j = mfind s.groups j) ∧ (od.isRel = false → w.SameBytes t)) ∧
    (∀ d, sendable → fld c.val.toNat 63 10 = 0 → g.send.pend < 64 → od.isRel = false → far = some d → s.dieOk d = false →
      let s' := w.updGrp fun g => { g with tdmask := touched }
      exec (.rstr cnt1 trapnak od o) s = .next (s'.trap (s'.dielost s'.grp d) .fresh)) ∧
    (sendable → fld c.val.toNat 63 10 ≠ 0 → exec (.rstr cnt1 trapnak od o) s = .next (s.trap (remoteCause 10 0 0 a.val) .fresh)) ∧
    (a.tag = .clean → b.tag = .clean → x.armed = false → e % 128 = 0 → 128 ≤ e → e ≤ 2 ^ 24 → n ≠ 0 → n ≤ 64 → fld b.val.toNat 63 17 = 0 →
      base + n ≤ g.ngen → (∀ y ∈ g.ibc, y.1 ≠ k → y.2.armed = true → windowsMeet base n y.2.wbase y.2.wcnt = false) →
      ∃ t, exec (.ibarm ctr o) s = .next t ∧ t.grp.inbox k = { rem := e, armed := true, canc := false, done := false, wbase := base, wcnt := n } ∧
        (∀ j, j ≠ k → t.grp.inbox j = g.inbox j) ∧ (∀ j l, l < 32 → (t.grp.vreg j).val.lane l = (g.vreg j).val.lane l) ∧
        t.grp.s = g.s ∧ t.grp.p = g.p ∧ s.SameBytes t) ∧
    (∃ t, exec (.ibarmDis ctr o) s = .next t ∧ t.grp.inbox k = (if x.armed then { x with armed := false, rem := 0, canc := true } else x) ∧
      t.grp.v = g.v ∧ t.grp.s = g.s ∧ t.grp.p = g.p ∧ s.SameBytes t) ∧
    (x.armed = false → ∃ t, exec (.ibwait ctr o) s = .next t ∧ s.Loaded t [] [o.d.reg] ∧
      t.grp.sreg o.d.reg = ⟨if x.done then 0 else if x.canc then 2 else 3, s.uniTag a.tag⟩) ∧
    (x.armed = true → g.wait = {} → s.iss.pi = 0 → s.iss.replay = false → ∃ t, exec (.ibwait ctr o) s = .next t ∧ t.mem = s.mem ∧ t.grp.s = g.s ∧
      t.grp.wait = { kind := .inbox, num := k, due := if fld a.val.toNat 31 0 = 0 then none else some (s.clkOf g.core + fld a.val.toNat 31 0) }) ∧
    (∀ d, x.armed = true → g.wait.kind = .inbox → g.wait.due = some d → d ≤ s.clkOf g.core → ∃ t, exec (.ibwait ctr o) s = .next t ∧
      s.Loaded t [] [o.d.reg] ∧ t.grp.sreg o.d.reg = ⟨1, s.uniTag a.tag⟩) ∧
    (∃ t, exec (.ibstatSend clr o) s = .next t ∧ t.grp.sreg o.d.reg = ⟨g.send.word, s.uniTag .clean⟩ ∧
      t.grp.send = (if clr then { g.send with naks := 0, lreason := 0, lseq := 0 } else g.send) ∧
      (∀ j, j ≠ o.d.reg → t.grp.sreg j = g.sreg j) ∧ t.grp.v = g.v ∧ t.grp.p = g.p ∧ s.SameBytes t) ∧
    s.UniOp o x.word .clean (exec (.ibstatIbox ctr o) s)

/-! ## Engine commands (R284 to R306) -/

/-- R284 to R294, R301, R302, R306: an engine command that nothing refuses or delays hands its engine
the work its operands name, attributed to the group and its region, and goes on; it writes no register.
The model's own choices: log entry 9. -/
def Obligations.EngineCommands : Prop :=
  ∀ (ord sx pclr sys clr : Bool) (sp dp cnt : BitVec 32) (e16 : BitVec 12) (tf : TileFmt) (op : CollOp) (alg : CollAlg) (ety : CollTy) (rop : RedOp)
    (cnum : BitVec 16) (root : BitVec 10) (chunk : BitVec 4) (npkt : BitVec 16) (gsh : BitVec 5) (o : EngOps) (s : State),
    s.iss.act ≠ 0 → s.NoBinops →
    let x := s.engSrc o
    let a := x.a.val.toNat
    let b := x.b.val.toNat
    let n := x.c.val.toNat
    let m := x.m.val.toNat
    let g := s.grp
    let key := s.iss.key
    let clean : Prop := x.a.tag = .clean ∧ x.b.tag = .clean ∧ x.c.tag = .clean ∧ x.m.tag = .clean
    let hands (opc : Nat) (k : CopyKind) (units : Nat) (sc : List ScoreEnt) (r : Out) : Prop :=
      s.outstanding key < 32 → s.scoresFree sc = true → ∃ t c, r = .next t ∧ s.Wrote t [] [] ∧ t.copies = s.copies ++ [c] ∧
        c.opc = opc ∧ c.kind = k ∧ c.units = units ∧ c.left = [(0, units)] ∧ c.key = some key ∧ c.tid = g.tid ∧ c.vd = g.vd ∧ c.asid = s.team.asid ∧
        c.src = x.a.val ∧ c.dst = x.b.val ∧ c.obj = x.m.val ∧ c.ord = ord ∧ c.region = g.regionId ∧ c.scores = sc ∧ c.stopped = false
    let wd := fld n 31 0
    let h := fld n 63 32
    let sn := (h - 1) * sp.toNat + wd
    let dn := (h - 1) * dp.toNat + wd
    let es := 16 * e16.toNat
    let rows := fld n 15 0
    let elems := fld n 31 16
    let pitch := fld n 63 32
    let tile (w page : Nat) (words : Bool) (opc acc : Nat) : Prop :=
      s.engineRefused opc (s.tileReason w rows elems words) o.m m [⟨page, 1, acc, true⟩] none = none ∧ fld w 23 20 < s.team.cores.length
    let d := op.code + alg.code * 16 + ety.code * 64 + rop.code * 1024 + cnum.toNat * 2 ^ 12 + root.toNat * 2 ^ 28 + chunk.toNat * 2 ^ 38
    (clean → n = 0 → s.engineRefused 0x180 none o.m m [⟨a, 0, 0, false⟩, ⟨b, 0, 1, false⟩] none = none → exec (.cpy ord o) s = .next s.finish) ∧
    (clean → n ≠ 0 → n ≤ 2 ^ 31 → s.engineRefused 0x180 none o.m m [⟨a, n, 0, false⟩, ⟨b, n, 1, false⟩] none = none →
      hands 0x180 .linear n (s.scoreOf a n false ++ s.scoreOf b n true) (exec (.cpy ord o) s)) ∧
    (clean → wd ≠ 0 → h ≠ 0 → h ≤ 65536 → wd * h ≤ 2 ^ 31 → wd ≤ dp.toNat → s.engineRefused 0x181 none o.m m [⟨a, sn, 0, false⟩, ⟨b, dn, 1, false⟩] none = none →
      hands 0x181 (.strided sp.toNat dp.toNat wd h) (wd * h) (s.scoreOf a sn false ++ s.scoreOf b dn true) (exec (.cpy2d ord sp dp o) s)) ∧
    (clean → cnt.toNat ≠ 0 → cnt.toNat ≤ 65536 → cnt.toNat * es ≤ 2 ^ 31 → e16 ≠ 0 → e16.toNat ≤ 4096 →
      s.engineRefused 0x182 none o.m m [⟨b, cnt.toNat * es, 1, false⟩, ⟨n, 4 * cnt.toNat, 0, false⟩] none = none →
      hands 0x182 (.gather n cnt.toNat es sx) (cnt.toNat * es) (s.scoreWhole a ++ s.scoreOf b (cnt.toNat * es) true ++ s.scoreOf n (4 * cnt.toNat) false)
        (exec (.cpyg ord cnt e16 sx o) s)) ∧
    (clean → tile b a false 0x183 0 → hands 0x183 (.tileIn pclr rows elems pitch) rows [] (exec (.cpyt ord pclr o) s)) ∧
    (clean → tile a b (tf != .same) 0x184 1 → hands 0x184 (.tileOut tf rows elems pitch) rows [] (exec (.cpyto ord tf o) s)) ∧
    (∀ c, clean → mfind (s.vd g.vd).comms cnum.toNat = some c → collReason (some c) d n = none → m % 8 = 0 →
      globalRange a (collSrcBytes c d n) = true → globalRange b (collDstBytes c d n) = true → globalRange m 8 = true → s.outstanding key < 32 →
      ∃ t j, exec (.coll ord sys op alg ety rop cnum root chunk o) s = .next t ∧ s.Wrote t [] [] ∧ t.colls = s.colls ++ [j] ∧
        j.desc = BitVec.ofNat 64 d ∧ j.cnum = cnum.toNat ∧ j.seq = c.jseq ∧ j.src = x.a.val ∧ j.dst = x.b.val ∧ j.count = n ∧ j.sig = x.m.val ∧
        j.key = some key ∧ j.vd = g.vd ∧ j.ord = ord ∧ j.sys = sys ∧ j.region = g.regionId ∧
        (t.vd g.vd).comms = mset (s.vd g.vd).comms cnum.toNat { c with jseq := c.jseq + 1 }) ∧
    (∀ q, clean → s.awaitTable (.group key) g.vd b = none → (s.tableDone (.group key) g.vd).queueOf g.vd b = some q → q.kind = false → b < 65536 → a % 16384 = 0 → windowOf a = .global →
      ∃ t j, exec (.binpatch clr npkt gsh o) s = .next t ∧ s.Wrote t [] [] ∧ t.binjobs = s.binjobs ++ [j] ∧ j.key = key ∧ j.vd = g.vd ∧ j.iq = q.iq ∧
        j.ctx = x.a.val ∧ j.clr = clr ∧ j.npkt = npkt.toNat ∧ j.gsh = gsh.toNat ∧ j.region = g.regionId)

/-- R303 to R305: BINADD hands its lanes' indices and counts to the die's binning engine; BINRD reads a
count of the context, or reads it and writes 0; CLWAIT finishes when the completion count has
reached its target, and waits otherwise.
The model's own choices: log entry 21. -/
def Obligations.ContextsAndCompletions : Prop :=
  ∀ (ty : Ty) (sc : Scope) (od : MemOrd) (o : Ops) (s u : State) (loc : Loc), s.iss.act ≠ 0 → s.groupReqs s.iss.key = [] →
    let act := s.iss.act
    let a := s.srcA o false
    let c := s.srcC o false
    let ua := s.uniA o
    let b := s.uniB o
    let ctx := b.val.toNat
    let base := ua.val.toNat
    let x := s.loadN s.grp sc loc 4
    let w := s.onceEa o
    let y := s.loadN s.grp .dev loc 8
    let target := fld b.val.toNat 31 0
    let reached : Prop := (fld y.1 31 0 + 2 ^ 32 - target) % 2 ^ 32 < 2 ^ 31
    let v := u.beforeRmw s.iss.key loc
    (o.d.reg < s.grp.ngen → (a.dp ||| a.fp) &&& act = 0 → c.fp &&& act = 0 → b.tag = .clean → ctx % 16384 = 0 → windowOf ctx = .global →
      s.locate (lowLane act) ctx 2 (fun p => (p, 4)) = (.ok loc, u) → loc.space = .hbm → loc.dieCoh = false →
      (∀ l < 32, act.getLsbD l = true → a.w l ≤ 4095) →
      ∃ t p, exec (.binadd ty o) s = .next t ∧ s.Wrote t [] [] ∧ t.mem = u.mem ∧ t.binops = s.binops ++ [p] ∧ p.key = s.iss.key ∧ p.reg = o.d.reg ∧
        p.ctx = loc.addr ∧ p.vd = s.grp.vd ∧ p.die = dieOf s.grp.core ∧ p.idx = (List.range 32).map a.w ∧ p.cnt = (List.range 32).map c.w ∧
        p.entry.pend = act) ∧
    (ua.tag = .clean → b.tag = .clean → ctx ≤ 4095 → base % 16384 = 0 → windowOf base = .global → loc.space = .hbm → loc.dieCoh = false →
      (s.locate (lowLane act) (base + 4 * ctx) 0 (fun p => (p, 4)) = (.ok loc, u) → x.2 = false →
        ∃ t, exec (.binrd sc od false o) s = .next t ∧ s.Loaded t [] [o.d.reg] ∧ t.grp.sreg o.d.reg = ⟨BitVec.ofNat 64 x.1, s.uniTag .clean⟩) ∧
      (s.locate (lowLane act) (base + 4 * ctx) 2 (fun p => (p, 4)) = (.ok loc, u) → (v.pointRead v.grp loc 4).2 = false →
        ∃ t, exec (.binrd sc od true o) s = .next t ∧ s.Wrote t [] [o.d.reg] ∧
          t.grp.sreg o.d.reg = ⟨BitVec.ofNat 64 (v.pointRead v.grp loc 4).1, s.uniTag .clean⟩ ∧ (t.pointRead t.grp loc 4).1 = 0)) ∧
    (w.1.tag = .clean → b.tag = .clean → s.OnceReady (sigAccess 0 .dev .rlx) w.2 loc u → y.2 = false →
      (reached → ∃ t, exec (.clwait o) s = .next t ∧ s.Loaded t [] [o.d.reg] ∧ t.grp.sreg o.d.reg = ⟨BitVec.ofNat 64 y.1, s.uniTag .clean⟩) ∧
      (¬reached → s.grp.wait = {} → s.iss.pi = 0 → s.iss.replay = false → ∃ t, exec (.clwait o) s = .next t ∧ s.CopiedBytes t ∧ t.grp.s = s.grp.s ∧
        t.grp.wait.kind = .clwait ∧
        t.grp.wait.due = if fld b.val.toNat 63 32 = 0 then none else some (s.clkOf s.grp.core + fld b.val.toNat 63 32)) ∧
      (∀ d, ¬reached → s.grp.wait.kind = .clwait → s.grp.wait.due = some d → d ≤ s.clkOf s.grp.core → ∃ t, exec (.clwait o) s = .next t ∧
        s.Loaded t [] [o.d.reg] ∧ t.grp.sreg o.d.reg = ⟨BitVec.ofNat 64 y.1, s.uniTag .clean⟩))

/-! ## Tile memory and barrier objects (R280, R295 to R300) -/

/-- R280, R295, R296: TLD puts the tile words its address word names into its registers, with
data-poison where the row's PB is set; TST writes its registers' words there and no other byte. -/
def Obligations.TileTransfers : Prop :=
  ∀ (ty : Ty) (cnt1 : BitVec 3) (col : Bool) (o : Ops) (s : State), s.Present → s.iss.act ≠ 0 → (s.uniA o).tag = .clean →
    let cnt := cnt1.toNat + 1
    let g := s.grp
    let w := (s.uniA o).val.toNat
    let row (l : Nat) : Nat := tileRow g.tid g.tcore (fld w 8 0 + if col then l else 0)
    let word (j l : Nat) : Nat := fld w 17 10 + if col then j else 32 * j + l
    let src (j : Nat) : Src := s.srcBfield o false j
    s.tileRefused w cnt col = none → s.team.windows = [] →
    (o.d.reg + cnt ≤ g.ngen → ∃ t, exec (.tld ty cnt1 col o) s = .next t ∧ s.Loaded t (destRegs o cnt) [] ∧
      ∀ j < cnt, s.HoldsV t (o.d.reg + j) (fun l => (s.tileWord (row l) (word j l)).toNat)
        fun l => (if s.pb (row l) then Tag.poison else .clean).join (s.iss.guardTag l)) ∧
    ((∀ j < cnt, ((src j).fp ||| s.iss.gfp) &&& s.iss.act = 0) →
      ∃ t, exec (.tst ty cnt1 col o) s = .next t ∧ s.Wrote t [] [] ∧ t.grp.sq = g.sq ∧
        (∀ l < 32, s.iss.act.getLsbD l = true → ∀ j < cnt, t.tileWord (row l) (word j l) = BitVec.ofNat 32 ((src j).w l)) ∧
        (∀ r c, c < 1024 → (∀ l < 32, s.iss.act.getLsbD l = true → ∀ j < cnt, row l = r → c / 4 ≠ word j l) → t.tileByte r c = s.tileByte r c) ∧
        (∀ a, t.hbmByte a = s.hbmByte a ∧ t.hostByte a = s.hostByte a ∧ t.remoteByte a = s.remoteByte a ∧ t.scratchByte a = s.scratchByte a) ∧
        ∀ r c, t.sideByte r c = s.sideByte r c)

/-- R297 to R300: MBINIT sets an object up; MBEXP expects bytes, MBEXP.arv expects bytes and then arrives, and MBARV arrives, and each such event completes the phase
when both counts are met; MBWAIT and MBTEST report a phase that has completed, with its error bit; of one that has not, MBTEST reports that, and MBWAIT waits, or ends with 2 once its time has passed.
The model's own choices: log entry 9. -/
def Obligations.BarrierObjects : Prop :=
  ∀ (sc : Scope) (o : Ops) (s : State), s.iss.act ≠ 0 → s.NoBinops → (s.uniA o).tag = .clean → (s.uniB o).tag = .clean →
    let ea := (s.uniA o).val
    let b := (s.uniB o).val
    s.Admits { n := 16, acc := 2, sc := .core, acq := false, rel := false, win := .scratchOnly } ea.toNat →
    let v := s.drain s.iss.key
    let at' := objAddr s.grp.tid ea
    let x := v.mbRead at'
    let ready : Prop := v.mbInit at' = true
    let n := fld b.toNat 31 0
    let k := if o.b = .zero then 1 else b.toNat
    let event (y : MbObj) : MbObj := if y.arr = y.acnt ∧ y.arrb = y.expb then ⟨0, 0, y.acnt, 0, !y.ph, y.scp, false, y.err⟩ else y
    let over' (t : State) (y : MbObj) : Prop := t.mbInit at' = true ∧ t.mbRead at' = y
    let y := event { x with expb := x.expb + n }
    let bitOf (p : Bool) : DWord := if p then 1 else 0
    (v.mbInit at' = false ∨ (x.arr = 0 ∧ x.expb = 0 ∧ x.arrb = 0) → b.toNat ≠ 0 → b.toNat ≤ 65535 →
      ∃ t, exec (.mbinit sc o) s = .next t ∧ s.Wrote t [] [] ∧ t.mbInit at' = true ∧
        t.mbRead at' = ⟨0, 0, b.toNat, 0, false, decide (sc = .clu), false, false⟩) ∧
    (ready → x.expb + n < 2 ^ 32 →
      (∃ t, exec (.mbexp false o) s = .next t ∧ s.Wrote t [] [] ∧ over' t y) ∧
      (y.arr + 1 ≤ y.acnt → ∃ t, exec (.mbexp true o) s = .next t ∧ s.Wrote t [] [] ∧ over' t (event { y with arr := y.arr + 1 })) ∧
      (y.acnt < y.arr + 1 → exec (.mbexp true o) s = .next (v.trap (v.mbCause ea.toNat at' 7) .fresh))) ∧
    (ready → x.arr + k ≤ x.acnt →
      ∃ t, exec (.mbarv o) s = .next t ∧ s.Wrote t [] [o.d.reg] ∧ over' t (event { x with arr := x.arr + k }) ∧ t.grp.sreg o.d.reg = ⟨bitOf x.ph, s.uniTag .clean⟩) ∧
    (ready → x.ph ≠ b.getLsbD 0 →
      (∃ t, exec (.mbwait o) s = .next t ∧ s.Wrote t [] [o.d.reg] ∧ t.grp.sreg o.d.reg = ⟨bitOf x.lerr, s.uniTag .clean⟩) ∧
      (∃ t, exec (.mbtest o) s = .next t ∧ s.Wrote t [] [o.d.reg] ∧ t.grp.sreg o.d.reg = ⟨bitOf x.lerr, s.uniTag .clean⟩)) ∧
    (ready → x.ph = b.getLsbD 0 →
      ∃ t, exec (.mbtest o) s = .next t ∧ s.Wrote t [] [o.d.reg] ∧ t.grp.sreg o.d.reg = ⟨3, s.uniTag .clean⟩) ∧
    (ready → x.ph = b.getLsbD 0 → s.grp.wait = {} → s.iss.pi = 0 → s.iss.replay = false →
      ∃ t, exec (.mbwait o) s = .next t ∧ t.grp.pcs = s.grp.pcs ∧ t.grp.v = s.grp.v ∧ t.grp.s = s.grp.s ∧ t.grp.wait.kind = .object ∧ t.grp.wait.num = at' ∧
        t.grp.wait.due = if fld b.toNat 63 32 = 0 then none else some (s.clkOf s.grp.core + fld b.toNat 63 32)) ∧
    (∀ d, ready → x.ph = b.getLsbD 0 → s.grp.wait.kind = .object → s.grp.wait.due = some d → d ≤ s.clkOf s.grp.core →
      ∃ t, exec (.mbwait o) s = .next t ∧ s.Wrote t [] [o.d.reg] ∧ t.grp.sreg o.d.reg = ⟨2, s.uniTag .clean⟩) ∧
    (v.mbInit at' = false → exec (.mbarv o) s = .next (v.trap (v.mbCause ea.toNat at' 1) .fresh))

/-! ## The matrix stream (R240, R307 to R320) -/

/-- R240, R307, R308, R310, R317, R318: MMA, MMAQ and MZERO that nothing refuses join the queue of steps;
MWAIT, with the queue empty, releases the B windows, and waits otherwise; MFENCE forgets the operand writes that the stream has acquired, and no others;
MCFG sets the stream's configuration; MSTEP and MSTAT read the step count and the status.
The model's own choices: log entry 20. -/
def Obligations.MatrixStream : Prop :=
  ∀ (ty : Ty) (af bf : MFmt) (asgn bsgn asrc sq : Bool) (grp : BitVec 2) (aq bq quar : Bool) (astride : BitVec 16) (o : MatOps) (q : Ops) (s : State),
    s.Present →
    let x := s.matSrc o
    let tid := s.grp.tid
    let mcw := mcwOf af bf asgn bsgn asrc sq grp aq bq
    let room : Prop := s.team.queue.length < 4
    let clean : Prop := x.1.tag = .clean ∧ x.2.1.tag = .clean ∧ x.2.2.tag = .clean
    let c := (s.uniA q).val
    let regs (t : State) : Prop := ∀ k, k ≠ s.iss.key → (mget {} t.groups k).v = (mget {} s.groups k).v ∧
      (mget {} t.groups k).s = (mget {} s.groups k).s ∧ (mget {} t.groups k).p = (mget {} s.groups k).p ∧ (mget {} t.groups k).pcs = (mget {} s.groups k).pcs
    let joins (quant : Bool) (r : Out) : Prop := ∃ t m, r = .next t ∧ t.team.queue = s.team.queue ++ [m] ∧ m.zero = false ∧ m.quant = quant ∧ m.ty = ty ∧
      m.mcw = mcw ∧ m.aw = x.1.val ∧ m.bw = x.2.1.val ∧ m.cw = x.2.2.val ∧ m.quar = s.team.quar ∧ m.astride = s.team.astride ∧ m.pc = s.iss.pc ∧
      t.team.windows = s.team.windows ++ [m] ∧ regs t ∧ t.grp.s = s.grp.s ∧ s.SameBytes t
    let counts := (List.range s.team.cores.length).map fun k => s.sideSlot (tileRow tid k (fld c.toNat 8 0)) 0
    (room → clean → mmaSub s.team false mcw x.1.val x.2.1.val x.2.2.val = none → joins false (exec (.mma ty af bf asgn bsgn asrc sq grp aq bq o) s)) ∧
    (room → clean → mmaSub s.team true mcw x.1.val x.2.1.val x.2.2.val = none → joins true (exec (.mmaq ty af bf asgn bsgn asrc sq grp aq bq o) s)) ∧
    (∀ sub, room → clean → mmaSub s.team false mcw x.1.val x.2.1.val x.2.2.val = some sub →
      exec (.mma ty af bf asgn bsgn asrc sq grp aq bq o) s = .next (s.fail (matrixCause sub 0 0x1C0 s.iss.pc))) ∧
    (room → (s.uniA q).tag = .clean → cwordBad s.team c = false →
      ∃ t m, exec (.mzero q) s = .next t ∧ t.team.queue = s.team.queue ++ [m] ∧ m.zero = true ∧ m.cw = c ∧ regs t ∧ t.grp.s = s.grp.s ∧ s.SameBytes t) ∧
    (s.team.queue = [] → s.team.windows = [] → ∃ t, exec (.mwait q) s = .next t ∧ t.team.windows = [] ∧ regs t ∧ t.grp.s = s.grp.s ∧ s.SameBytes t) ∧
    (s.team.queue = [] → ∃ t, exec (.mwait q) s = .next t ∧ t.team.windows = [] ∧ t.grp.s = s.grp.s ∧ ∀ e ∈ s.groups, e.1 ≠ s.iss.key → mfind s.groups e.1 = some e.2 →
      let h := mget {} t.groups e.1
      h.s = e.2.s ∧ h.p = e.2.p ∧ h.pcs = e.2.pcs ∧ (∀ k, e.2.winsOf k = [] → h.vreg k = e.2.vreg k) ∧ (e.2.tid = tid → e.2.role = .matrix → h.win = [])) ∧
    (s.team.queue ≠ [] → s.iss.replay = false → ∃ t, exec (.mwait q) s = .next t ∧ t.grp.wait = { kind := .resource } ∧ t.grp.pcs = s.grp.pcs ∧ t.grp.s = s.grp.s ∧ t.teams = s.teams ∧ regs t ∧ s.SameBytes t) ∧
    (∃ t, exec (.mfence q) s = .next t ∧ (t.marks = s.marks.filter fun d => !(d.tid == s.grp.tid && d.seen.contains (.agent s.iss.key))) ∧ regs t ∧ t.grp.s = s.grp.s ∧ s.SameBytes t) ∧
    (∃ t, exec (.mcfg quar astride) s = .next t ∧ t.team.quar = quar ∧ t.team.astride = astride.toNat ∧ regs t ∧ t.grp.s = s.grp.s ∧ s.SameBytes t) ∧
    ((s.uniA q).tag = .clean → cwordBad s.team c = false → (∀ m ∈ s.team.queue, mRbase m.cw ≠ fld c.toNat 8 0) →
      ∃ t n, exec (.mstep q) s = .next t ∧ s.Ran t [] [q.d.reg] [] ∧ t.grp.sreg q.d.reg = ⟨BitVec.ofNat 64 n, .clean⟩ ∧
        (counts = [] → n = 0) ∧ (counts ≠ [] → n ∈ counts ∧ ∀ k ∈ counts, n ≤ k)) ∧
    (∃ t, exec (.mstat q) s = .next t ∧ s.Ran t [] [q.d.reg] [] ∧ t.grp.sreg q.d.reg = ⟨s.team.mstat, .clean⟩)

/-! ## What units do by themselves -/

/-- R42, R213 to R218, R222, R224, R390, R391: an aging issue takes the first lane after the aging
pointer whose PC is neither the lowest nor held, and none where there is none; a queued store enters its group's view, a die's L2
passes its oldest write to the cistern, an acknowledgement ends the other die's copies, an evicted
copy leaves its dirty bytes behind, and the scrubber's write falls where a write overtook its read.
The model's own choices: log entries 1, 9 and 35. -/
def Obligations.MemoryTraffic : Prop :=
  ∀ (key k die core sector : Nat) (g : Group) (w : QStore) (q : List QStore) (f : Forward) (c : L2Copy) (p : DWord) (bad : Bool) (s : State),
    let new (bs : List (Nat × Byte)) (a : Nat) (old : Byte) : Byte := (mfind bs.reverse a).getD old
    let meets' (a : Nat) : Prop := ∃ e ∈ w.bytes, e.1 / 16 = a / 16
    let lane (j : Nat) : Nat := (g.agingPtr + 1 + j) % 32
    let passed (x : DWord) : Prop := minPc g.livePcs = some x ∨ s.atConvergence g (mget {} s.teams g.tid).asid x.toNat = true
    (mfind s.groups key = some g → s.OnCore g → g.agingDue = true → k < 32 → g.pcs.getD (lane k) none = some p → ¬ passed p →
      (∀ j < k, ∀ x, g.pcs.getD (lane j) none = some x → passed x) →
      exec (.agingIssue key) s = .next (s.setGroup key { g with forced := some (lane k) })) ∧
    (mfind s.groups key = some g → (∀ j < 32, ∀ x, g.pcs.getD (lane j) none = some x → passed x) → exec (.agingIssue key) s = .next s) ∧
    (mfind s.groups key = some g → g.sq = w :: q → mfind s.fenced key = none →
      ∃ t, exec (.storeQueueDrain key) s = .next t ∧ mfind t.groups key = some { g with sq := q } ∧
        (∀ j, j ≠ key → mfind t.groups j = mfind s.groups j) ∧
        (w.space = .hbm → t.mem.fwd = s.mem.fwd ++ if w.dieCoh then [] else [⟨dieOf g.core, w⟩]) ∧
        ∀ a,
          (w.space = .scratch → (s.mbInit a = false ∨ ¬meets' a → t.scratchByte a = new w.bytes a (s.scratchByte a)) ∧
            (t.mbInit a = true ↔ s.mbInit a = true ∧ ¬meets' a)) ∧
          (w.space = .host → t.hostByte a = new w.bytes a (s.hostByte a)) ∧
          (w.space = .remote → t.remoteByte a = new w.bytes a (s.remoteByte a)) ∧
          (w.space = .hbm ∨ w.space = .stack → s.mem.l2.length + w.sectors.length ≤ Config.l2Lines →
            t.l2Byte (dieOf g.core) a = new w.bytes a (s.l2Byte (dieOf g.core) a) ∧ t.hbmByte a = s.hbmByte a)) ∧
    ((s.mem.fwd.find? fun x => x.die == die) = some f →
      ∃ t, exec (.l2Forward die) s = .next t ∧ t = { s with mem := t.mem } ∧ t.mem.fwd = s.mem.fwd.erase f ∧ t.mem.acks = s.mem.acks ++ [f] ∧
        ∀ a, t.hbmByte a = new f.write.bytes a (s.hbmByte a)) ∧
    ((s.mem.acks.find? fun x => x.die == die) = some f →
      ∃ t, exec (.cisternWriteAck die) s = .next t ∧ t = { s with mem := { s.mem with acks := s.mem.acks.erase f, l2 := t.mem.l2 } } ∧
        ∀ d x, t.mem.l2Find d x = if d = 1 - die ∧ x ∈ f.write.sectors then none else s.mem.l2Find d x) ∧
    (∃ t, exec (.l1Eviction core sector) s = .next t ∧ t = { s with mem := { s.mem with l1 := t.mem.l1 } } ∧
      ∀ d x, t.mem.l1Find d x = if d = core ∧ x = sector then none else s.mem.l1Find d x) ∧
    (s.mem.l2Find die sector = some c →
      ∃ t, exec (.l2Eviction die sector) s = .next t ∧ t = { s with mem := t.mem } ∧
        (∀ a, t.hbmByte a = if a ∈ c.dirty then new c.data a (s.hbmByte a) else s.hbmByte a) ∧
        (∀ d, t.mem.l2Find d sector = if d = die then none else s.mem.l2Find d sector)) ∧
    (sector < 2 ^ 31 →
      (sector ∉ s.mem.damaged → exec (.scrubSector sector .clean) s = .next s) ∧
      (sector ∉ s.mem.damaged → ∃ t, exec (.scrubSector sector .correctable) s = .next t ∧ mfind t.mem.scrubRead sector = some false ∧ s.SameBytes t ∧
        t.err.corr = if s.err.corr = 0xFFFFFFFFFFFFFFFF then s.err.corr else s.err.corr + 1) ∧
      (∀ found, sector ∈ s.mem.damaged ∨ found = .uncorrectable → ∃ t, exec (.scrubSector sector found) s = .next t ∧ mfind t.mem.scrubRead sector = some true ∧
        t.mem.hbmPoison = s.mem.hbmPoison ∧ t.mem.cisternPoison sector = true)) ∧
    (mfind s.mem.scrubRead sector = some bad →
      ∃ t, exec (.scrubWrite sector) s = .next t ∧ mfind t.mem.scrubRead sector = none ∧ s.SameBytes t ∧
        ∀ x, x ∈ t.mem.hbmPoison ↔ x ∈ s.mem.hbmPoison ∨ (bad = true ∧ x = sector)) ∧
    (mfind s.mem.scrubRead sector = none → exec (.scrubWrite sector) s = .next s)

/-- R249, R250, R329 to R332: of an access of one lane whose translation meets a replayable fault, a request enters the fault buffer with the next token, or spills where it is full; the lane
waits, or, of a load without .nodfr, is deferred with that token and goes on. One that is not replayable traps.
R330, R332 to R334: a RTOKEN write resolves or fails the requests of its token and the outcome
is remembered; FBCONS moves only past entries that exist. R328, R426: a write of DLCONS, and Freor's
drain, free room in the dirty log; in hardware mode Freor brings a page into local HBM before it resolves. R356, R388, R417, R418, R420: a register write reaches its register, and a
misaligned one none; a read gives the last value of CMDPROD, and zero of RTOKEN and of a kick page. R327, R422: a generation raise completes once no older access is unperformed.
The model's own choices: log entries 16, 17 and 33. -/
def Obligations.PagerAndRegisters : Prop :=
  (∀ (ty : Ty) (hint : LdHint) (sc : Scope) (od : MemOrd) (sx : Bool) (o : Ops) (s u : State) (l : Nat),
    let n := ty.width / 8
    let g := s.grp
    let key := s.iss.key
    let act := s.iss.act
    let b := s.srcBfield o ty.is64
    let eas := s.lanesEa o sx fun _ => n
    let ea := eas.getD l 0
    let ld (defer : Bool) : Access := { n := n, acc := 0, sc := sc, acq := od.isAcq, rel := false, defer := defer, score := true,
                                        dst := destRegs o (if ty.is64 then 2 else 1), pair := ty.is64 }
    let st : Access := { n := n, acc := 1, sc := sc, acq := false, rel := od.isRel, score := true }
    let clean (xs : List Consumed) : Prop := ∀ x ∈ xs, (x.fp ||| x.dp) &&& x.lanes = 0
    let f := (u.vd g.vd).fault
    let only (m : Access) (xs : List Consumed) (x : LaneAt) : Prop :=
      s.Present ∧ l < 32 ∧ act = BitVec.ofNat 32 (2 ^ l) ∧ s.iss.pend = act ∧ s.iss.pi = 0 ∧ s.iss.stop = none ∧ s.iss.replay = false ∧ clean xs ∧ (∀ d ∈ m.dst, d < g.ngen) ∧
        s.Admits m ea ∧ s.stalled m [(l, ea)] = false ∧ s.groupReqs key = [] ∧ s.locate l ea m.acc (spanOf m.n) = (x, u)
    let ldX := s.addrConsumed o true act
    let stX := s.addrConsumed o true act ++ [s.dataConsumed b o.b act]
    let asks (t : State) (x : XFault) (acc : Nat) (tok : Option Word) (deferred : Bool) : Prop :=
      ∃ r, (t.vd g.vd).fault.reqs = f.reqs ++ [r] ∧ r.origin = .group key ∧ r.token = tok ∧ r.failed = false ∧ r.deferred = deferred ∧ r.kind = x.kind ∧
        r.acc = acc ∧ r.src = 0 ∧ r.asid = s.team.asid ∧ r.va = BitVec.ofNat 64 ea ∧ r.lanes = act
    let waits (t : State) : Prop := t.grp.wait.kind = .held ∧ t.grp.pcs = g.pcs ∧ t.grp.v = g.v ∧ t.grp.s = g.s ∧ t.grp.p = g.p ∧ t.grp.pi = 0
    let room : Prop := f.fbRoom = true ∧ ∀ r ∈ f.reqs, r.token.isSome = true
    let entered (t : State) : Prop := (t.vd g.vd).fault.fbprod = f.fbprod + 1 ∧ (t.vd g.vd).fault.nextseq = nextSeq f.nextseq
    (∀ x, only st stX (.repl x) → ∃ t, exec (.st ty hint sc od sx o) s = .next t ∧ waits t ∧
      (room → entered t ∧ asks t x 1 (some f.nextseq) false) ∧ (f.fbRoom = false → asks t x 1 none false ∧ (t.vd g.vd).fault.fbprod = f.fbprod)) ∧
    (∀ x, only (ld false) ldX (.repl x) → ∃ t, exec (.ld ty hint sc od sx true o) s = .next t ∧ waits t ∧
      (room → entered t ∧ asks t x 0 (some f.nextseq) false) ∧ (f.fbRoom = false → asks t x 0 none false ∧ (t.vd g.vd).fault.fbprod = f.fbprod)) ∧
    (∀ x, only (ld true) ldX (.repl x) → (∀ r ∈ f.reqs, r.origin ≠ .group key) →
      (room → ∃ t, exec (.ld ty hint sc od sx false o) s = .next t ∧ entered t ∧ asks t x 0 (some f.nextseq) true ∧ t.grp.wait = {} ∧ mget 0 t.grp.dftok l = f.nextseq ∧
        (∀ d ∈ (ld true).dst, (t.grp.vreg d).tag l = .pending ∧ (g.winOf d = none → (t.grp.vreg d).val.lane l = f.nextseq)) ∧
        ∀ k < 32, t.grp.pcs.getD k none = if s.iss.xm.getLsbD k then some s.iss.npc else g.pcs.getD k none) ∧
      (f.fbRoom = false → ∃ t, exec (.ld ty hint sc od sx false o) s = .next t ∧ waits t ∧ asks t x 0 none false)) ∧
    (∀ c, s.HasHandler → u.HasHandler →
      (only st stX (.refused c) → ∃ t, exec (.st ty hint sc od sx o) s = .next t ∧ g.Entered t.grp c) ∧
      (∀ nodfr, only (ld !nodfr) ldX (.refused c) → ∃ t, exec (.ld ty hint sc od sx nodfr o) s = .next t ∧ g.Entered t.grp c))) ∧
  ∀ (vd off space n size bitmap : Nat) (x : Word) (value : DWord) (pages : List PageIn) (s : State),
    let v := s.vd vd
    let told : Prop := v.modes.getLsbD 1 = true ∨ pages = []
    let f := v.fault
    let tok : Word := value.setWidth 32
    let failed : Bool := value.getLsbD 32
    let mine (r : FaultReq) : Prop := r.token = some tok ∧ r.failed = false
    (told → vd < 1024 → (∃ r ∈ f.reqs, mine r) →
      ∃ t, exec (.resolve vd ⟨value, pages⟩) s = .next t ∧ t = { s with vds := t.vds } ∧ (∀ k, k ≠ vd → t.vd k = s.vd k) ∧
        (f.recent tok = true → (t.vd vd).fault.outcomes.head? = some (tok, failed)) ∧
        (failed = false → (t.vd vd).fault.reqs = f.reqs.filter fun r => !(r.token == some tok && !r.failed)) ∧
        (failed = true → (∀ r ∈ (t.vd vd).fault.reqs, r.token = some tok → r.failed = true ∧ (r.deferred = false ∨ r ∈ f.reqs)) ∧
          ∀ r ∈ f.reqs, mine r → r.deferred = false → { r with failed := true } ∈ (t.vd vd).fault.reqs)) ∧
    (told → (∀ r ∈ f.reqs, ¬ mine r) → ∃ t, exec (.resolve vd ⟨value, pages⟩) s = .next t ∧ ∀ k, t.vd k = s.vd k) ∧
    (f.fbSize < (f.fbprod - x).toNat → exec (.fbconsWrite vd x) s = .next s) ∧
    (¬ f.fbSize < (f.fbprod - x).toNat → vd < 1024 → (∀ r ∈ f.reqs, r.token.isSome = true) →
      ∃ t, exec (.fbconsWrite vd x) s = .next t ∧ (t.vd vd).fault.fbcons = x ∧ (t.vd vd).fault.fbprod = f.fbprod) ∧
    (vd < 1024 → ∃ t, exec (.fbenWrite vd value) s = .next t ∧ t = { s with vds := t.vds } ∧
      (t.vd vd).fault.fben = value.getLsbD 0 ∧ (t.vd vd).fault.fblog = (value.extractLsb' 4 4).toNat ∧
      (t.vd vd).fault.fbbase = (value.extractLsb' 8 48).toNat * 256) ∧
    (f.dlheld = [] → ∃ t, exec (.dlconsWrite vd x) s = .next t ∧ t = { s with vds := t.vds } ∧ (t.vd vd).fault.dlcons = x ∧
      (t.vd vd).fault.dlprod = f.dlprod) ∧
    (f.dlheld = [] → v.modes.getLsbD 2 = false → ∃ t, exec (.freorDirtyLogDrain vd ⟨n, bitmap⟩) s = .next t ∧
      (t.vd vd).fault.dlcons = f.dlcons + BitVec.ofNat 32 (min n (f.dlprod - f.dlcons).toNat)) ∧
    (v.modes.getLsbD 2 = true → exec (.freorDirtyLogDrain vd ⟨n, bitmap⟩) s = .next s) ∧
    (∀ p, v.modes.getLsbD 1 = false → pages = [p] → p.page + p.size ≤ Config.hbmBytes → p.pte + 8 ≤ Config.hbmBytes → p.page + p.size ≤ p.pte ∨ p.pte + 8 ≤ p.page →
      ∃ t, exec (.resolve vd ⟨value, pages⟩) s = .next t ∧ t.hbmNat p.pte 8 = p.entry.toNat ∧ ∀ i < p.size, t.hbmByte (p.page + i) = s.hostByte (p.host + i)) ∧
    exec (.registerWrite ⟨.freorMgmt, 0x200, 4, value⟩) s = .next { s with kactl := value.setWidth 32 &&& 0xF } ∧
    s.readRegister (.vfPage vd) 0x20 8 = 0 ∧ s.readKickPage vd off size = 0 ∧
    (∀ t, exec (.registerWrite ⟨.pfMgmt, 0x3008, 4, value⟩) s = .next t → t.readRegister .pfMgmt 0x3008 4 = (value.setWidth 32 : Word).setWidth 64) ∧
    exec (.registerWrite ⟨.pfMgmt, 0x3008, 4, value⟩) s = .next { s with cmdProd := value.setWidth 32 } ∧
    (v.st ≠ .free → exec (.registerWrite ⟨.vfPage vd, 0x10, 4, value⟩) s = exec (.fbconsWrite vd (value.setWidth 32)) s) ∧
    (v.st ≠ .free → exec (.registerWrite ⟨.vfPage vd, 0x20, 8, value⟩) s = exec (.resolve vd ⟨value, []⟩) s) ∧
    (∀ bar, (size ≠ 4 ∧ size ≠ 8) ∨ off % size ≠ 0 → exec (.registerWrite ⟨bar, off, size, value⟩) s = .next s) ∧
    (space ∈ v.raising → s.unperformed vd = false →
      ∃ t, exec (.generationRaiseComplete vd space) s = .next t ∧ (t.vd vd).raising = v.raising.filter (fun y => y != space) ∧
        s.Completed t .ok) ∧
    (s.unperformed vd = true → exec (.generationRaiseComplete vd space) s = .next s)

/-- R134, R251, R271, R278, R300, R303: a timeout falls when its clock has come, and not before. R398: the
fabric gives up an agent's next remote access. R53, R276, R287, R354, R385: a pending cause is taken
at an instruction boundary: the group enters its handler, or unwinds to the region that the cause names.
The model's own choices: log entries 1 and 35. -/
def Obligations.TimeoutsAndPendingCauses : Prop :=
  ∀ (key d vd : Nat) (who : Origin) (g : Group) (s : State), mfind s.groups key = some g →
    let falls (k : WaitKind) (r : Out) : Prop :=
      g.wait.due = some d → ∃ t, r = .next t ∧ t = { s with groups := t.groups } ∧ (∀ j, j ≠ key → mfind t.groups j = mfind s.groups j) ∧
        mfind t.groups key = some (if (mget {} s.teams g.tid).saved = none ∧ g.wait.kind = k ∧ d ≤ s.clkOf g.core then { g with wait := { g.wait with expired := true } } else g)
    let same (r : Out) : Prop := ∃ t, r = .next t ∧ ∀ k, mfind t.groups k = mfind s.groups k
    falls .sigwait (exec (.sigwaitTimeout key) s) ∧ falls .inbox (exec (.ibwaitTimeout key) s) ∧ falls .object (exec (.mbwaitTimeout key) s) ∧
    falls .clwait (exec (.clwaitTimeout key) s) ∧ falls .sleep (exec (.sleepcExpiry key) s) ∧
    (g.wait.due = none → same (exec (.sigwaitTimeout key) s)) ∧
    exec (.remoteAccessTimeout ⟨vd, who⟩) s = .next { s with late := s.late ++ [(vd, who)] } ∧
    (s.CanTrap key g → s.OnCore g → ∀ c cs,
      let enters (r : Out) : Prop := ∃ t, r = .next t ∧ g.Entered (mget {} t.groups key) c
      (g.errs = c :: cs →
        (c.cause = 13 → (∀ x ∈ g.regions, x.ident ≠ c.region) → enters (exec (.engineErrorTaken key) s)) ∧
        (c.cause = 16 → enters (exec (.dielostTrap key) s)) ∧
        (c.cause = 15 → g.regions = [] → enters (exec (.hwerrTaken key) s)) ∧
        (c.cause = 9 → enters (exec (.engineErrorTaken key) s)) ∧
        (c.cause ≠ 13 → c.cause ≠ 9 → exec (.engineErrorTaken key) s = .next s)) ∧
      (g.naks = c :: cs → enters (exec (.remoteNakTrap key) s))) ∧
    (s.OnCore g → g.role ≠ .stream → ∀ c cs x rs, g.errs = c :: cs → g.regions = x :: rs → (c.cause = 13 ∧ c.region = x.ident ∧ c.region ≠ 0) ∨ c.cause = 15 →
      ∃ t, (if c.cause = 13 then exec (.engineErrorTaken key) s else exec (.hwerrTaken key) s) = .next t ∧
        let h := mget {} t.groups key
        h.regions = rs ∧ h.unw = true ∧ h.tc = BitVec.ofNat 5 c.cause ∧ h.td0 = c.td0 ∧ h.td1 = c.td1 ∧ h.td2 = c.td2 ∧ h.wait = {} ∧
        ∀ l < 32, h.pcs.getD l none = if (g.pcs.getD l none).isSome then some x.handler else none)

/-! ## Engines, jobs and other devices -/

/-- R286, R290: a copy engine moves a piece of a linear scratchpad copy and counts it, and a command
with nothing left to report retires. R287, R332: a command whose fault the pager has failed stops, discards its requests
and raises ENGINE. R304: the binning engine performs a BINADD's lanes in ascending order at the cistern and returns
what each lane found. R306, R373: a patch job writes the count and the group count of the packet it takes, and clears its PP. R405 to R408:
a broadcast reaches its destination, and a job that fails ends with reason 7, after the earlier jobs of its communicator; one that a team issued raises ENGINE and counts in its signal word.
The model's own choices: log entries 21 and 24. -/
def Obligations.EngineAndJobEvents : Prop :=
  ∀ (cmd off len job op k : Nat) (ranks : List RankData) (s : State),
    (∀ c, s.copyOf cmd = some c → c.kind = .linear → c.key = some k → c.obj = 0 → c.stopped = false → s.mayStart c = true → s.copyFailed c = none →
      len ≠ 0 → (∃ r ∈ c.left, r.1 ≤ off ∧ off + len ≤ r.1 + r.2) →
      let a := c.src.toNat + off
      let b := c.dst.toNat + off
      let inPart (x : Nat) : Prop := windowOf x = .scratch ∧ (x - scratchBase) / 2 ^ 18 < (mget {} s.teams c.tid).cores.length ∧
        (x - scratchBase) % 2 ^ 18 + len ≤ (mget {} s.teams c.tid).scratch ∧ x / 65536 = (x + len - 1) / 65536
      let to' := objAddr c.tid (BitVec.ofNat 64 b)
      inPart a → inPart b → (∀ i < len, ¬ (c.src.toNat ≤ b + i ∧ b + i < c.src.toNat + c.units)) → (∀ i < len, s.mbInit (to' + i) = false) →
      ∃ t, exec (.engineReport cmd off len) s = .next t ∧ t.groups = s.groups ∧
        (∀ i < len, t.scratchByte (to' + i) = s.scratchByte (objAddr c.tid (BitVec.ofNat 64 a) + i)) ∧
        (∀ x, (∀ i < len, x ≠ to' + i) → t.scratchByte x = s.scratchByte x) ∧
        t.copyOf cmd = some { c with left := takeRange off len c.left, moved := c.moved + len } ∧ ∀ j, j ≠ cmd → t.copyOf j = s.copyOf j) ∧
    (∀ c, s.copyOf cmd = some c → c.left = [] → c.key = none ∨ s.Awake c.tid →
      ∃ t, exec (.copyRetire cmd) s = .next t ∧ t.copies = (s.copies.filter fun d => d.id != cmd) ∧ t.groups = s.groups) ∧
    (∀ c r g, s.copyOf cmd = some c → c.stopped = false → s.mayStart c = true → s.copyFailed c = some r → c.obj = 0 → c.job = none →
      ∃ t, exec (.engineFault cmd) s = .next t ∧ t.copyOf cmd = some { c with stopped := true, left := [] } ∧ (∀ x ∈ (t.vd c.vd).fault.reqs, x.origin ≠ .engine cmd) ∧
        (c.key = some k → c.cancelled = false → mfind s.groups k = some g →
          mfind t.groups k = some { g with errs := g.errs ++ [engineCause 4 c.opc r.va c.region] })) ∧
    (∀ b g, (s.binops.find? fun x => x.id == op) = some b → mfind s.groups b.key = some g → b.cdp = 0 →
      b.reg < g.ngen → g.winOf b.reg = none → s.Awake (b.key / 4096) →
      let v := (s.drain b.key).flushDie b.die
      let lanes := lanesOf b.entry.pend
      let bin (l : Nat) : Nat := b.ctx + 4 * b.idx.getD l 0
      let sum (a : Nat) (ls : List Nat) : Nat := ((ls.filter fun l => bin l == a).map fun l => b.cnt.getD l 0).sum
      (∀ l ∈ lanes, ∀ i < 4, v.mem.cisternPoison (sectorOf (bin l + i)) = false) →
      ∃ t, exec (.binaddPerform op) s = .next t ∧ t.binops = (s.binops.filter fun x => x.id != op) ∧
        (∀ l ∈ lanes, t.hbmNat (bin l) 4 = (v.hbmNat (bin l) 4 + sum (bin l) lanes) % 2 ^ 32 ∧
          ((mget {} t.groups b.key).vreg b.reg).val.lane l = BitVec.ofNat 32 (v.hbmNat (bin l) 4 + sum (bin l) (lanes.filter (· < l)))) ∧
        (∀ x, (∀ l ∈ lanes, x < bin l ∨ bin l + 4 ≤ x) → t.hbmByte x = v.hbmByte x) ∧
        (∀ l < 32, l ∉ lanes → ((mget {} t.groups b.key).vreg b.reg).val.lane l = (g.vreg b.reg).val.lane l) ∧ ∀ j, j ≠ b.key → mfind t.groups j = mfind s.groups j) ∧
    (∀ j idx p ls u, (s.binjobs.find? fun x => x.id == job) = some j → (s.queue j.vd j.iq).patchList j.npkt = [(idx, p)] →
      s.patchPlaces j idx p = (.ok ls, u) → mfind (u.queue j.vd j.iq).pkts idx = some p → p.checked = true → p.bytes.length = 128 → u.Awake (j.key / 4096) →
      let v := u.flushDie j.die
      (∀ e ∈ ls.getD 0 [], v.feBad e.1 e.2 = false) →
      let n := leNat (v.feBytes (ls.getD 0 []))
      let gs := (n + 2 ^ j.gsh - 1) / 2 ^ j.gsh
      gs ≤ 2 ^ 24 →
      ∃ t q, exec (.binpatchJob job) s = .next t ∧ (∀ x ∈ t.binjobs, x.id ≠ job) ∧ mfind (t.queue j.vd j.iq).pkts idx = some q ∧
        q.pp = false ∧ bit (q.at 0 4) 9 = false ∧ q.at 60 4 = n % 2 ^ 32 ∧ q.at 32 4 = gs ∧ q.nteam = if n = 0 then 0 else gs) ∧
    (∀ j, (s.colls.find? fun x => x.id == job) = some j →
      let d := j.desc.toNat
      let c : Comm := mget ⟨0, [], 0⟩ (s.vd j.vd).comms j.cnum
      let failed : List CollJob := s.colls.map fun x => if x.id == job then { j with reason := 7 } else x
      (j.key = none → j.reason = 0 → j.cancelled = false → s.collWaits j = false → s.jobFailed j.vd (.engine j.id) = none → collOp d = 3 → collRoot d ≠ c.myRank →
        (∀ r < c.ranks.length, r ≠ c.myRank → ∃ x ∈ ranks, x.rank = r) → (∀ x ∈ ranks, collAgrees d j.count x = true) → collRoot d < c.ranks.length →
        ∀ x l u, (ranks.find? fun y => y.rank == collRoot d) = some x → x.poisoned = [] → x.bytes.length = j.count → 0 < j.count → j.count ≤ collChunk d →
        s.jobRange (.engine j.id) j.die j.vd j.asid j.dst.toNat j.count 1 = (.ok [(l, j.count)], u) → l.space = .hbm → l.dieCoh = false →
        ∃ t, exec (.collJobComplete job ranks) s = .next t ∧ (∀ y ∈ t.colls, y.id ≠ job) ∧ ∀ i < j.count, t.hbmByte (l.addr + i) = x.bytes.getD i 0) ∧
      (j.reason = 0 →
        let told (tell : Bool) : List OutMsg := s.msgs ++ if tell then [.jobEnded j.vd j.cnum j.seq] else []
        let ends (tell : Bool) (r : Out) : Prop :=
          (s.collBehind j = true → r = .next { s with msgs := told tell, colls := failed }) ∧
          (s.collBehind j = false → j.key = none →
            ∃ t, r = .next t ∧ (∀ y ∈ t.colls, y.id ≠ job) ∧ t.msgs = told tell ∧
              ∀ iq idx b p, j.job = some (iq, idx, b) → mfind (s.queue j.vd iq).pkts idx = some p → p.status = 0 →
                ∃ q, mfind (t.queue j.vd iq).pkts idx = some q ∧ q.status = 4) ∧
          (∀ g l u, s.collBehind j = false → j.key = some k → j.cancelled = false → j.mute = false →
            ({ s with msgs := told tell, colls := failed } : State).sigAt { j with reason := 7 } = (.at l, u) → mfind u.groups k = some g →
            u.Awake (k / 4096) → (mget {} u.teams (k / 4096)).saved = none → l.space = .hbm → l.dieCoh = false →
            ∃ t, r = .next t ∧ (∀ y ∈ t.colls, y.id ≠ job) ∧ mfind t.groups k = some { g with errs := g.errs ++ [engineCause 7 0x18C j.src j.region] } ∧
              t.hbmNat l.addr 8 = sigNew ((u.flushDie j.die).hbmNat l.addr 8) 0 true % 2 ^ 64)
        ends false (exec (.collJobFailNotice job) s) ∧ ends true (exec (.fabricError job) s) ∧
        (j.startNs + Config.commTimeoutNs ≤ s.ctime → s.jobPaged j.vd (.engine job) = false → ends true (exec (.commTimeout job) s)) ∧
        (s.ctime < j.startNs + Config.commTimeoutNs ∨ s.jobPaged j.vd (.engine job) = true → exec (.commTimeout job) s = .next s)))

/-- R274, R276, R392, R396 to R403: a remote store to a name that is resident or saved lands in the
armed window, counts down and is acknowledged; one to a name in transit is held, or waits at its port while the queue is full; one to a
name that is unknown, dead or closed to its sender is refused with its reason. An outcome ends a
pending send, and a request whose die has been reset is discarded and counted. A home admits or refuses another device's access by its grants and performs it; a
response of another incarnation is counted. R404, R426: Freor binds a communicator in hardware mode.
The model's own choices: log entry 35. -/
def Obligations.RemoteEvents : Prop :=
  ∀ (m : RemoteStore) (o : RstrOutcome) (r : RemoteReq) (x : StaleMsg) (vd cnum : Nat) (cr : CommRec) (s : State),
    let n := m.regs.length
    let home := s.vd (nameVd m.gname)
    let out (reason : Nat) : RstrOutcome := { sender := m.sender, seq := m.seq, reason := reason, die := m.die, inc := m.inc }
    let arrives (reason : Nat) (P : State → Prop) : Prop :=
      ∃ t, exec (.remoteStoreArrival m) s = .next t ∧ t.msgs = s.msgs ++ [.outcome m.sdev (out reason)] ∧ P t
    let lands (reason : Nat) (P : State → Prop) : Prop :=
      ∃ t, exec (.remoteStoreArrival m) s = .next t ∧ t.msgs.getLast? = some (.outcome m.sdev (out reason)) ∧ P t
    let refused (reason : Nat) : Prop := arrives reason fun t => t.groups = s.groups ∧ t.transit = s.transit
    let live : Prop := home.st ≠ .free ∧ nameInc m.gname = home.inc.toNat ∧ (s.serialsWrapped = true ∨ nameSerial m.gname < s.nextSerial.toNat)
    (nameDev m.gname = s.devNum → m.sdev ≠ s.devNum → s.ports = [] →
      (home.st = .free → refused 4) ∧
      (home.st ≠ .free → nameInc m.gname ≠ home.inc.toNat → refused (if nameInc m.gname = (home.inc.toNat + 15) % 16 ∧
          (s.serialsWrapped = true ∨ nameSerial m.gname < s.nextSerial.toNat) then 1 else 4)) ∧
      (home.st ≠ .free → s.serialsWrapped = false → s.nextSerial.toNat ≤ nameSerial m.gname → refused 4) ∧
      (live → s.nameState m.gname = none → refused 1) ∧
      (live → s.nameState m.gname ≠ none → s.peerOk (nameVd m.gname) m = false → refused 3) ∧
      (live → s.peerOk (nameVd m.gname) m = true → s.nameState m.gname = some .transit →
        let q := s.transit.filter fun y => s.placementDie y.gname == s.placementDie m.gname
        exec (.remoteStoreArrival m) s = .next (if q.length < 256 then { s with transit := s.transit ++ [m] } else { s with ports := [m] })) ∧
      (∀ k g, live → s.peerOk (nameVd m.gname) m = true → s.nameState m.gname = some .resident ∨ s.nameState m.gname = some .saved → s.named m.gname = some (k, g) →
        let mine (e : Nat × Inbox) : Bool := e.2.armed && decide (e.2.wbase ≤ m.first) && decide (m.first + n ≤ e.2.wbase + e.2.wcnt)
        let others (t : State) : Prop := ∀ j, j ≠ k → mfind t.groups j = mfind s.groups j
        (g.ibc.find? mine = none → lands 2 fun t => others t ∧ mget {} t.groups k = g) ∧
        (∀ c y, g.ibc.find? mine = some (c, y) →
          (y.rem < 128 * n → lands 5 fun t => others t ∧ mget {} t.groups k = g) ∧
          (128 * n ≤ y.rem → lands 0 fun t => others t ∧
            let h := mget {} t.groups k
            mfind h.ibc c = some { y with rem := y.rem - 128 * n, armed := y.rem != 128 * n, done := y.rem == 128 * n } ∧
            h.s = g.s ∧ h.p = g.p ∧ h.pcs = g.pcs ∧
            (∀ i < n, m.first + i < g.ngen → g.winOf (m.first + i) = none → ∀ l < 32,
              (h.vreg (m.first + i)).val.lane l = (m.regs.getD i []).getD l 0 ∧ (h.vreg (m.first + i)).tag l = .clean) ∧
            (∀ j, j < m.first ∨ m.first + n ≤ j → h.vreg j = g.vreg j))))) ∧
    (nameDev m.gname = s.devNum → m.sdev ≠ s.devNum → (∃ y ∈ s.drainPorts.ports, y.sdev = m.sdev) →
      exec (.remoteStoreArrival m) s = .next { s.drainPorts with ports := s.drainPorts.ports ++ [m] }) ∧
    (nameDev m.gname = s.devNum → m.sdev = s.devNum → (s.flight.find? fun y => nameDev y.gname == s.devNum) = some m →
      (m.inc ≠ s.incOf m.die → ∃ t, exec (.remoteStoreArrival m) s = .next t ∧ t.flight = s.flight.erase m ∧ t.groups = s.groups ∧
        (t.vd m.svd).err.stale = satInc (s.vd m.svd).err.stale) ∧
      (m.inc = s.incOf m.die → live → s.nameState m.gname = none → ∃ t, exec (.remoteStoreArrival m) s = .next t ∧ t.flight = s.flight.erase m ∧
        t.outcomes = s.outcomes ++ [out 1])) ∧
    (nameDev m.gname ≠ s.devNum → exec (.remoteStoreArrival m) s = .next s) ∧
    (o ∈ s.outcomes → o.inc ≠ s.incOf o.die → ∃ t, exec (.rstrOutcome o) s = .next t ∧ t.outcomes = s.outcomes.erase o ∧ t.groups = s.groups ∧
      (t.vd (nameVd o.sender)).err.stale = satInc (s.vd (nameVd o.sender)).err.stale) ∧
    (∀ k g, s.named o.sender = some (k, g) → mfind s.groups k = some g → s.Awake g.tid →
      let ends (t : State) : Prop :=
        let h := mget {} t.groups k
        (∀ j, j ≠ k → mfind t.groups j = mfind s.groups j) ∧ h.v = g.v ∧ h.s = g.s ∧ h.p = g.p ∧ h.pcs = g.pcs ∧ h.send.pend = g.send.pend - 1 ∧
        (o.reason = 0 → h.naks = g.naks ∧ h.send.naks = g.send.naks) ∧
        (o.reason ≠ 0 → h.send.naks = satCount 20 (g.send.naks + 1) ∧ h.send.lreason = o.reason ∧ h.send.lseq = o.seq ∧
          ∀ e, (g.sent.find? fun e => e.1 == o.seq) = some e → h.naks = g.naks ++ if e.2.2 then [remoteCause o.reason o.seq 0 e.2.1] else [])
      (o ∈ s.outcomes → o.inc = s.incOf o.die → ∃ t, exec (.rstrOutcome o) s = .next t ∧ t.outcomes = s.outcomes.erase o ∧ ends t) ∧
      (∀ y, o ∉ s.outcomes → (s.flight.find? fun m => m.sender == o.sender && m.seq == o.seq && nameDev m.gname != s.devNum) = some y → y.inc = s.incOf y.die →
        ∃ t, exec (.rstrOutcome o) s = .next t ∧ t.flight = s.flight.erase y ∧ ends t)) ∧
    (let lo := r.span.1
     let w := r.span.2
     let answer (ok : Bool) (bs : List Byte) (p : Bool) : OutMsg := .answer r.sdev r.svd ok bs p
     let granted : Prop := lo + w ≤ Config.hbmBytes ∧ ∃ e ∈ s.grants, e.2.sdev = r.sdev ∧ e.2.svd = r.svd ∧ e.2.base ≤ lo ∧
       lo + w ≤ e.2.base + 2 ^ (16 + e.2.slog) ∧ (r.writes = true → e.2.w = true)
     let bad : Prop := ∃ c ∈ sectorsOf lo w, s.mem.cisternPoison c = true
     let old := s.hbmNat r.addr w
     let kept (t : State) : Prop := t.groups = s.groups ∧ ∀ a, a < lo ∨ lo + w ≤ a → t.hbmByte a = s.hbmByte a
     let rmw (new : Nat) : Prop :=
       (¬ bad → ∃ t, exec (.remoteAccess r) s = .next t ∧ t.msgs = s.msgs ++ [answer true (leBytes w old) false] ∧ kept t ∧ t.hbmNat r.addr w = new % 256 ^ w) ∧
       (bad → ∃ t b, exec (.remoteAccess r) s = .next t ∧ t.msgs = s.msgs ++ [answer true b true] ∧ t.groups = s.groups ∧ ∀ a, t.hbmByte a = s.hbmByte a)
     (¬ granted → exec (.remoteAccess r) s = .next { s with msgs := s.msgs ++ [answer false [] false] }) ∧
     (granted →
       (∀ k, r.op = .read k → ∃ t p, exec (.remoteAccess r) s = .next t ∧ t.msgs = s.msgs ++ [answer true (leBytes k old) p] ∧ (p = true ↔ bad) ∧ t.groups = s.groups ∧ ∀ a, t.hbmByte a = s.hbmByte a) ∧
       (∀ bs p, r.op = .write bs p → ∃ t, exec (.remoteAccess r) s = .next t ∧ t.msgs = s.msgs ++ [answer true [] false] ∧ kept t ∧
         (∀ i < bs.length, t.hbmByte (r.addr + i) = bs.getD i 0) ∧ (p = true → ∀ i < bs.length, t.mem.cisternPoison (sectorOf (r.addr + i)) = true)) ∧
       (∀ ty f v, r.op = .rmw ty f v → rmw (atomNew ty f old (v.toNat % 2 ^ ty.width))) ∧
       (∀ ty c y, r.op = .cas ty c y → rmw (if old = c.toNat % 2 ^ ty.width then y.toNat % 2 ^ ty.width else old)) ∧
       (r.op = .tagRead → ∃ p, exec (.remoteAccess r) s = .next { s with msgs := s.msgs ++ [answer true [p] false] } ∧ (p = 1 ↔ bad) ∧ (p = 0 ↔ ¬ bad)) ∧
       (∀ clr, r.op = .tagWrite clr → (clr = true → sectorOf r.addr ∉ s.mem.damaged) → ∃ t, exec (.remoteAccess r) s = .next t ∧ t.msgs = s.msgs ++ [answer true [] false] ∧ t.groups = s.groups ∧
         (∀ a, t.hbmByte a = s.hbmByte a) ∧ t.mem.cisternPoison (sectorOf r.addr) = !clr))) ∧
    (x.inc = s.incOf x.die → exec (.staleResponse x) s = .next s) ∧
    (x.inc ≠ s.incOf x.die → x.vd = none → exec (.staleResponse x) s = .next { s with err := { s.err with stale := satInc s.err.stale } }) ∧
    (∀ k, x.inc ≠ s.incOf x.die → x.vd = some k →
      ∃ t, exec (.staleResponse x) s = .next t ∧ t = { s with vds := t.vds } ∧ t.vd k = { s.vd k with err := { (s.vd k).err with stale := satInc (s.vd k).err.stale } } ∧
        ∀ j, j ≠ k → t.vd j = s.vd j) ∧
    (let rs := cr.ranks.map fun e => e.1 % 1024 + e.2 % 1024 * 1024
     let good : Prop := ((s.vd vd).st = .active ∨ (s.vd vd).st = .paused) ∧ (s.vd vd).modes.getLsbD 4 = false ∧ cnum < 65536 ∧ cr.myRank < 1024 ∧
       s.commOk vd (1 + cr.myRank * 2) rs = true
     (good → ∃ t, exec (.freorCollectiveSetup vd cnum cr) s = .next t ∧ t = { s with vds := t.vds } ∧ (∀ j, j ≠ vd → t.vd j = s.vd j) ∧
       t.vd vd = { s.vd vd with comms := mset (s.vd vd).comms cnum ⟨cr.myRank, cr.ranks.map fun e => (e.1 % 1024, e.2 % 1024), 0⟩ }) ∧
     (¬ good → exec (.freorCollectiveSetup vd cnum cr) s = .next s))

/-- R312 to R317, R320, R386, R387: the oldest queued step of a team leaves the array. MZERO clears 128 rows, their PB and
the counter, and its completion is the team's newest restart point; a step whose windows are clean and in sequence adds to every accumulator word the
block result of its A row and B column, raises the counter, marks the rows of poisoned A rows, and
touches no other row; with QUAR a float step marks also the rows that hold an infinity or NaN; where the array stages a wrong word for one element of an integer step, the lines that cross there find it, and the step writes the right one and counts the correction.
R316: a step that every core is ahead of is skipped and counted, with no other effect, whatever its windows hold.
R120 to R124: the block result of its terms, the terms of MMA's products and of MMAQ's groups, and the integer sum. R310, R311: where the elements of an A row and a B column stand.
The model's own choices: log entry 20. -/
def Obligations.MatrixStepDrain : Prop :=
  let real (t : Fp.FVal) : ℚ := match t with | .fin sg k e => (if sg then -1 else 1) * k * 2 ^ e | _ => 0
  let finite (t : Fp.FVal) : Prop := (∃ sg, t = .zero sg) ∨ ∃ sg k e, t = .fin sg k e ∧ k ≠ 0
  (∀ ts : List Fp.FVal, (∀ sg e, Fp.FVal.fin sg 0 e ∉ ts) →
    let bad : Prop := .nan ∈ ts ∨ (.inf false ∈ ts ∧ .inf true ∈ ts)
    (bad → blockResult ts = 0x7FC00000) ∧ (∀ sg, ¬bad → .inf sg ∈ ts → blockResult ts = 0x7F800000 + if sg then 2 ^ 31 else 0) ∧
    ((∀ t ∈ ts, t = .zero true) → blockResult ts = 2 ^ 31) ∧ ((∀ t ∈ ts, ∃ sg, t = .zero sg) → .zero false ∈ ts → blockResult ts = 0) ∧
    ∀ E : Int, (∀ t ∈ ts, finite t) → (∃ sg k e, .fin sg k e ∈ ts ∧ Nat.log2 k + e = E) → (∀ sg k e, .fin sg k e ∈ ts → Nat.log2 k + e ≤ E) →
      let sum : Int := (ts.map fun t => if 0 ≤ real t then ⌊real t / 2 ^ (E - 50)⌋ else ⌈real t / 2 ^ (E - 50)⌉).sum
      blockResult ts = if sum = 0 then 0 else Fp.enc Fp.f32 .rn (.fin (decide (sum < 0)) sum.natAbs (E - 50))) ∧
  (∀ (n : Int) (sa sb : Fp.FVal) (sg : Bool),
    (finite sa → finite sb → real sa = 0 ∨ real sb = 0 ∨ n = 0 → groupTerm n sa sb = .zero false) ∧
    (finite sa → finite sb → real sa ≠ 0 → real sb ≠ 0 → n ≠ 0 → finite (groupTerm n sa sb) ∧ real (groupTerm n sa sb) = n * real sa * real sb) ∧
    groupTerm n .nan sb = .nan ∧ groupTerm n sa .nan = .nan ∧ groupTerm 0 (.inf sg) sb = .nan ∧ groupTerm 0 sa (.inf sg) = .nan ∧
    (finite sb → real sb = 0 → groupTerm n (.inf sg) sb = .nan) ∧ (finite sa → real sa = 0 → groupTerm n sa (.inf sg) = .nan) ∧
    (n ≠ 0 → finite sb → real sb ≠ 0 → groupTerm n (.inf sg) sb = .inf ((decide (n < 0) != sg) != decide (real sb < 0))) ∧
    (n ≠ 0 → finite sa → real sa ≠ 0 → groupTerm n sa (.inf sg) = .inf ((decide (n < 0) != decide (real sa < 0)) != sg))) ∧
  (∀ (m : MStep) (x y : MVec) (acc : Nat),
    let wa := mWidth (mA m.mcw)
    let wb := mWidth (mB m.mcw)
    let int (sgn : Bool) (w c : Nat) : Int := if sgn then (BitVec.ofNat w c).toInt else (c % 2 ^ w : Nat)
    let pairs := x.codes.zip y.codes
    let scale (quant : Bool) (w e : Nat) : Fp.FVal × Nat :=
      if quant then (Fp.val Fp.f16 (e % 2 ^ 16), if w = 4 then e / 2 ^ 16 % 2 ^ 4 else e / 2 ^ 16 % 2 ^ 8) else (.fin false 1 0, 0)
    let term (j : Nat) : Fp.FVal :=
      let a := scale (mAq m.mcw) wa (x.metas.getD j 0)
      let b := scale (mBq m.mcw) wb (y.metas.getD j 0)
      groupTerm (((pairs.drop (j * mLen m.mcw)).take (mLen m.mcw)).map fun p =>
        (int (m.mcw.testBit 8 && !mAq m.mcw) wa p.1 - a.2) * (int (m.mcw.testBit 9 && !mBq m.mcw) wb p.2 - b.2)).sum a.1 b.1
    (m.isFloat = false → stepWord m x y acc = (BitVec.ofInt 32 ((BitVec.ofNat 32 acc).toInt +
      (pairs.map fun p => int (m.mcw.testBit 8) wa p.1 * int (m.mcw.testBit 9) wb p.2).sum)).toNat) ∧
    (m.quant = false → m.ty = .f32 → stepWord m x y acc =
      blockResult ((pairs.map fun p => Fp.mul (Fp.val (mFp (mA m.mcw)) p.1) (Fp.val (mFp (mB m.mcw)) p.2)) ++ [Fp.val Fp.f32 acc])) ∧
    (m.quant = true → stepWord m x y acc = blockResult ((List.range (mGroups m.mcw)).map term ++ [Fp.val Fp.f32 acc]))) ∧
  (∀ (team tc q c i k : Nat) (m : MStep) (g : Group) (s : State), k < mKstep m.quant m.mcw →
    let wa := mWidth (mA m.mcw)
    let wb := mWidth (mB m.mcw)
    let r := tileRow team tc (tileRow' m.aw.toNat + i)
    (mSp m.mcw = false → tileCol m.aw.toNat + mAWords m.quant m.mcw ≤ 256 →
      (s.stepRow team tc m i).codes.getD k 0 = leNat ((List.range 1024).map (s.tileByte r)) / 2 ^ (32 * tileCol m.aw.toNat + k * wa) % 2 ^ wa) ∧
    (mfind (s.matGroups team) ((mget {} s.teams team).matrixKey team tc q) = some g → g.winHit = [] →
      (s.stepCol team tc m q c).codes.getD k 0 =
        ((g.vreg (mWbase m.bw + k / (16 / wb))).val.lane (c / 2)).toNat / 2 ^ (16 * (c % 2) + wb * (k % (16 / wb))) % 2 ^ wb)) ∧
  ∀ (team : Nat) (errs : List ArrayErr) (m : MStep) (rest : List MStep) (s : State), (mget {} s.teams team).queue = m :: rest → s.Awake team →
    mRbase m.cw + 128 ≤ 512 →
    let tm := mget {} s.teams team
    let cores := tm.cores.length
    let row (tc i : Nat) : Nat := tileRow team tc (mRbase m.cw + i)
    let kept (t : State) : Prop := t.groups = s.groups ∧ ∀ r c, c < 1024 → (∀ tc < cores, ∀ i < 128, r ≠ row tc i) → t.tileByte r c = s.tileByte r c
    let right (t : State) : Prop := (mget {} t.teams team).queue = rest ∧ kept t ∧ ∀ tc < cores,
      t.stepCounter team tc (mRbase m.cw) = (s.stepCounter team tc (mRbase m.cw) + 1) % 2 ^ 32 ∧ ∀ i < 128,
        let x := s.stepRow team tc m i
        (m.quar = false ∨ m.isFloat = false → t.pb (row tc i) = (s.pb (row tc i) || x.poison)) ∧
        (m.quar = true → m.isFloat = true → (t.pb (row tc i) = true ↔ (s.pb (row tc i) || x.poison) = true ∨
          ∃ j < 256, ((t.tileWord (row tc i) j).toNat / 2 ^ 23) % 256 = 255)) ∧ ∀ j < 256,
          let y := s.stepCol team tc m (j / 64) (j % 64)
          x.undef = false → y.undef = false → t.tileWord (row tc i) j = BitVec.ofNat 32 (stepWord m x y (s.tileWord (row tc i) j).toNat)
    let performs : Prop := m.zero = false ∧ s.windowTags team m (List.range cores) = none ∧ (mSp m.mcw = true ∨ tileRow' m.aw.toNat + 128 ≤ 512) ∧
      ∀ tc < cores, mSeq m.mcw = true → s.seqLag team tc m = 0
    (m.zero = true →
      ∃ t, exec (.matrixStepDrain team errs) s = .next t ∧ (mget {} t.teams team).queue = rest ∧ kept t ∧
        (tm.restarts < m.mark → (mget {} t.teams team).restartPc = m.npc ∧ (mget {} t.teams team).restartS = m.regs) ∧ ∀ tc < cores,
        t.stepCounter team tc (mRbase m.cw) = 0 ∧ ∀ i < 128, t.pb (row tc i) = false ∧ ∀ c < 1024, t.tileByte (row tc i) c = 0) ∧
    (performs → ∃ t, exec (.matrixStepDrain team []) s = .next t ∧ right t ∧ (mget {} t.teams team).fixed = tm.fixed) ∧
    (∀ tc i j w, performs → m.isFloat = false → tc < cores → i < 128 → j < 256 → (s.stepRow team tc m i).undef = false →
      (s.stepCol team tc m (j / 64) (j % 64)).undef = false →
      w ≠ BitVec.ofNat 32 (stepWord m (s.stepRow team tc m i) (s.stepCol team tc m (j / 64) (j % 64)) (s.tileWord (row tc i) j).toNat) → tm.fixed < 65535 →
      ∃ t, exec (.matrixStepDrain team [.element tc i j w none]) s = .next t ∧ right t ∧ (mget {} t.teams team).fixed = tm.fixed + 1) ∧
    (m.zero = false → mSeq m.mcw = true → (∀ tc < cores, 0 < s.seqLag team tc m ∧ s.seqLag team tc m < 2 ^ 31) →
      ∃ t, exec (.matrixStepDrain team errs) s = .next t ∧ (mget {} t.teams team).queue = rest ∧ t.groups = s.groups ∧ s.SameBytes t ∧ t.mem.pb = s.mem.pb ∧
        (mget {} t.teams team).skips = min (tm.skips + cores) 65535)

/-- R37, R54, R59, R375: a decision starts its head's team: the team is resident with its record, and each
member is at its role's entry point with FRAME in s1 and a Resident name. R344, R348, R353, R419: a
team that is pre-empted, by PREEMPT or where its slice has run out, is saved where its pool has room for its save, apart from the other saves, with every
PC and every register that the save keeps, which is every one where the team has no liveness map; where the pool has no room it runs on. A restore that
begins moves the team to its placement, and one that completes makes it resident with every
register kept. R377: a slice that has not run out takes nothing. R55: a migration.
The model's own choices: log entries 22 and 23. -/
def Obligations.Scheduling : Prop :=
  ∀ (p : Placement) (team key core quad : Nat) (s : State),
    let u := s.reviewSaved.refreshHeads
    let saves (s : State) (tm : Team) (r : Out) : Prop :=
      (s.copiesTouch team = true → r = .next s) ∧
      (s.copiesTouch team = false → s.keysOf team ≠ [] → (∀ e ∈ s.groups, e.2.tid = team → e.2.moving = none) →
        let z := s.stopTeam team
        (z.saveSpot team = none → ∃ t, r = .next t ∧ t.teams = s.teams ∧ t.groups = s.groups ∧ t.names = s.names) ∧
        (∀ a, z.saveSpot team = some a → ∃ t sv, r = .next t ∧ (mget {} t.teams team).saved = some sv ∧ sv.target = none ∧ sv.addr = a ∧
          (s.vd tm.vd).savebase + (s.vd tm.vd).charged ≤ sv.addr ∧ sv.addr + sv.bytes ≤ (s.vd tm.vd).savebase + (s.vd tm.vd).savesize ∧
          (∀ x ∈ s.savesOf tm.vd, sv.addr + sv.bytes ≤ x.1 ∨ x.1 + x.2 ≤ sv.addr) ∧
          ((s.keysOf team).Nodup → ∀ k g, mfind s.groups k = some g → g.tid = team → g.role ≠ .stream → (∀ b ∈ s.binops, b.key ≠ k) →
            ∃ h, mfind t.groups k = some h ∧ h.s = g.s ∧ h.p = g.p ∧ h.pcs = g.pcs ∧ h.ibc = g.ibc ∧ h.regions = g.regions ∧
              (∀ r ∈ h.kept, r < g.ngen + g.ncmp → h.vreg r = g.vreg r) ∧ (tm.live = 0 → ∀ r < g.ngen + g.ncmp, r ∈ h.kept))))
    (u.decision p = none → exec (.teamStart p) s = .next u) ∧
    (∀ b v h x, u.decision p = some (b, v, h) → u.launchOf v h p = some x → u.shortOf v h = false →
      (u.needOf v h).members = recMembers x.record → ((recMembers x.record).map fun m => m.grpid).Nodup → (∀ m ∈ recMembers x.record, m.grpid < 4095) →
      ∃ t, exec (.teamStart p) s = .next t ∧ t.nextTid = u.nextTid + 1 ∧
        (∃ tm, mfind t.teams u.nextTid = some tm ∧ tm.vd = v ∧ tm.band = b ∧ tm.record = x.record ∧ tm.asid = x.asid ∧ tm.cores = p.cores ∧
          tm.scratch = x.scratch ∧ tm.tile = x.tile ∧ tm.teamid = x.teamid ∧ tm.saved = none ∧ tm.queue = []) ∧
        (∀ m ∈ recMembers x.record, ∃ g, mfind t.groups (u.nextTid * 4096 + m.grpid) = some g ∧ g.role = m.role ∧ g.grpid = m.grpid ∧ g.vd = v ∧
          g.ngen = m.n ∧ g.ncmp = m.m ∧ g.core = p.cores.getD (p.homes.getD m.grpid (0, 0)).1 0 ∧ g.quad = (p.homes.getD m.grpid (0, 0)).2 ∧
          g.sreg 1 = ⟨BitVec.ofNat 64 (recFld x.record 127 64), .clean⟩ ∧
          (∀ l < 32, g.pcs.getD l none = some (BitVec.ofNat 64 (recCode x.record + 32 * recEntry x.record m.role.code))) ∧
          (g.gname, NameState.resident) ∈ t.names)) ∧
    (∀ b v tid tm sv, u.decision p = some (b, v, .saved tid) → mfind u.teams tid = some tm → tm.saved = some sv →
      (u.sealHolds tid = true → ∃ t, exec (.teamStart p) s = .next t ∧ (mget {} t.teams tid).saved = some { sv with target := some p } ∧
        (mget {} t.teams tid).cores = p.cores ∧ ∀ k g, mfind u.groups k = some g → g.tid = tid → g.role ≠ .stream →
          ∃ h, mfind t.groups k = some h ∧ h.core = p.cores.getD (p.homes.getD g.grpid (0, 0)).1 0 ∧ h.quad = (p.homes.getD g.grpid (0, 0)).2 ∧
            h.v = g.v ∧ h.s = g.s ∧ h.p = g.p ∧ h.pcs = g.pcs) ∧
      (u.sealHolds tid = false → (∀ e ∈ u.groups, e.2.tid = tid → mfind u.groups e.1 = some e.2) → ∃ t, exec (.teamStart p) s = .next t ∧ ∀ e ∈ t.groups, e.2.tid ≠ tid) ∧
      (∀ tm', mfind s.teams tid = some tm' → tm'.saved.isSome = true → (∀ w, tm'.saved = some w → w.target = none) →
        exec (.teamRestore tid p) s = exec (.teamStart p) s)) ∧
    (∀ tm sv, mfind s.teams team = some tm → tm.saved = some sv → sv.target = some p → p.cores.all s.inService = true → s.transit = [] → s.ports = [] → s.Awake team →
      ∃ t, exec (.teamRestore team p) s = .next t ∧ (mget {} t.teams team).saved = none ∧
        ∀ k g, mfind s.groups k = some g → g.tid = team →
          ∃ h, mfind t.groups k = some h ∧ h.v = g.v ∧ h.s = g.s ∧ h.p = g.p ∧ h.pcs = g.pcs ∧ h.part = g.part ∧ h.wait.kind ≠ .held) ∧
    ((mget {} s.teams team).saved = none → exec (.teamRestore team p) s = .next s) ∧
    (∀ tm, mfind s.teams team = some tm → tm.saved = none → (s.vd tm.vd).st = .paused ∨ (∃ c ∈ tm.cores, c ∉ s.allotment tm.vd) →
      saves s tm (exec (.preempt team) s)) ∧
    (∀ tm n, mfind u.teams team = some tm → mfind u.slices tm.band = some n → u.ctime < tm.startNs + n → exec (.sliceExpiry team) s = .next u) ∧
    (∀ tm, mfind u.teams team = some tm → (u.vd tm.vd).modes.getLsbD 0 = true → exec (.sliceExpiry team) s = .next u) ∧
    (∀ tm n h, mfind u.teams team = some tm → tm.saved = none → mfind u.slices tm.band = some n → tm.startNs + n ≤ u.ctime → (u.vd tm.vd).modes.getLsbD 0 = false →
      h ∈ u.heldHeads → h.1 = tm.band → (u.vd h.2.1).vtOf tm.band < (u.vd tm.vd).vtOf tm.band → clusterOf (tm.cores.headD 0) ∈ h.2.2.2 →
      saves u tm (exec (.sliceExpiry team) s)) ∧
    (∀ g, mfind s.groups key = some g → g.moving = none →
      (s.mayMove g core quad = false → exec (.migration key core quad) s = .next s) ∧
      (s.mayMove g core quad = true → ∃ t h, exec (.migration key core quad) s = .next t ∧ mfind t.groups key = some h ∧ h.moving = some (core, quad) ∧
        h.sq = [] ∧ h.s = g.s ∧ h.p = g.p ∧ h.pcs = g.pcs ∧ t.nameState g.gname = (s.nameState g.gname).map fun _ => .transit)) ∧
    (∀ g, mfind s.groups key = some g → g.moving = some (core, quad) → s.inService core = true → s.transit = [] → s.ports = [] →
      ∃ t h, exec (.migration key core quad) s = .next t ∧ mfind t.groups key = some h ∧ h.moving = none ∧ h.core = core ∧ h.quad = quad ∧
        h.v = g.v ∧ h.s = g.s ∧ h.p = g.p ∧ h.pcs = g.pcs ∧ t.nameState g.gname = (s.nameState g.gname).map fun _ => .resident)

/-- R356, R357: a kick is accepted, or dropped and counted. R361, R362, R364, R367: the packet at FETCH is
fetched when it bears the PSEQ expected, is read again or makes the queue LATE when it does not, and
a malformed one halts its queue. R365, R369 to R372: a packet starts as its type says, or is skipped; PRE
jobs, WAIT packets and bundles complete; R371: a packet that completes raises DSEQ and LCPSEQ.
The model's own choices: log entries 24, 32 and 35. -/
def Obligations.FrontEnd : Prop :=
  ∀ (vd iq idx off size : Nat) (word : BitVec 64) (s : State),
    let v := s.vd vd
    let q := s.queue vd iq
    let slot := off / 8
    let kicked := exec (.kick vd off size word) s
    let dropped (P : State → Prop) : Prop := ∃ t, kicked = .next t ∧ (t.vd vd).err.kdrops = satInc v.err.kdrops ∧ P t
    let kept (t : State) : Prop := (t.vd vd).queues = v.queues
    let read (x : State) : Prop := (x.retryKicks vd).awaitTable kickOrigin vd slot = none
    (v.st = .free → kicked = .next s) ∧
    (v.st ≠ .free → off < 65536 → size ≠ 8 ∨ off % 8 ≠ 0 → dropped kept) ∧
    (v.st ≠ .free → off < 65536 → size = 8 → off % 8 = 0 → v.kicks = [] →
      (v.st = .draining → dropped kept) ∧
      (v.st ≠ .draining → ¬ read s → ∃ t, kicked = .next t ∧ (t.vd vd).kicks = [(slot, word.toNat)] ∧ kept t ∧ (t.vd vd).err.kdrops = v.err.kdrops) ∧
      (v.st ≠ .draining → read s → ((s.retryKicks vd).tableDone kickOrigin vd).queueOf vd slot = none → dropped kept) ∧
      (∀ e, v.st ≠ .draining → read s → ((s.retryKicks vd).tableDone kickOrigin vd).queueOf vd slot = some e →
        let r := s.queue vd e.iq
        let kseq : Word := word.extractLsb' 32 32
        let prod := (word.extractLsb' 13 19).toNat
        let ahead (x : Nat) : Nat := (x + 2 ^ 19 - r.cons) % 2 ^ 19
        let good : Prop := word.toNat % 8192 = slot ∧ 0 < (kseq - r.kseq).toNat ∧ (kseq - r.kseq).toNat < 2 ^ 31 ∧ ahead prod ≤ e.entries ∧ ahead r.fetch ≤ ahead prod
        (e.kind = true ∨ r.st = .disabled → dropped kept) ∧
        (e.kind = false → r.st ≠ .disabled →
          (good → ∃ t, kicked = .next t ∧ (t.queue vd e.iq).kseq = kseq ∧
            (t.queue vd e.iq).prod = (if ahead r.prod < ahead prod then prod else r.prod) ∧ (t.queue vd e.iq).cons = r.cons) ∧
          (¬ good → dropped fun t => (t.queue vd e.iq).kdrop = r.kdrop + 1 ∧ (t.queue vd e.iq).kseq = r.kseq ∧ (t.queue vd e.iq).prod = r.prod)))) ∧
    (s.mayFetch vd iq = true → q.statDue = false → s.unchecked vd iq = none → q.ent.ringCap.admits (slotVa q.ent q.fetch) 128 0 1 = true →
      (∀ d bs u, q.rereadDue = some d → d ≤ s.ctime → s.feRead vd iq q.ent.asid (slotVa q.ent q.fetch) 128 = (.ok bs, u) → u.queue vd iq = q →
        leNat ((bs.drop 4).take 4) ≠ q.nextpseq.toNat →
        ∃ t, exec (.pseqRereadExpiry vd iq) s = .next t ∧ (t.queue vd iq).late = q.late + 1 ∧
          (t.queue vd iq).rereadDue = none ∧ ((t.queue vd iq).st = .late ∨ (t.queue vd iq).st = .halted)) ∧
      (∀ bs u, v.kicks = [] → (s.retryKicks vd).feRead vd iq q.ent.asid (slotVa q.ent q.fetch) 128 = (.ok bs, u) → u.queue vd iq = q →
        let pseq := leNat ((bs.drop 4).take 4)
        (pseq ≠ q.nextpseq.toNat → ∃ t, exec (.packetFetch vd iq) s = .next t ∧ (t.queue vd iq).fetch = q.fetch ∧ (t.queue vd iq).pkts = q.pkts ∧
          (t.queue vd iq).rereadDue = some (q.rereadDue.getD (u.ctime + Config.rereadNs))) ∧
        (pseq = q.nextpseq.toNat →
          let p : Packet := { bytes := bs, phase := .fetched, pp := bit (leNat (bs.take 8)) 9, ent := q.ent, checked := false, skip := decide (0 < q.skipLeft) }
          let z := u.updQueue vd iq fun x => { x with fetch := (q.fetch + 1) % 2 ^ 19, nextpseq := nextSeq q.nextpseq, rereadDue := none,
                                                      skipLeft := q.skipLeft - 1, pkts := mset q.pkts q.fetch p }
          ∀ r w, z.checkPacket vd iq p (mfind (z.queue vd iq).pkts ((q.fetch + 2 ^ 19 - 1) % 2 ^ 19)) = (r, w) → w.queue vd iq = z.queue vd iq →
          ∃ t, exec (.packetFetch vd iq) s = .next t ∧ (t.queue vd iq).fetch = (q.fetch + 1) % 2 ^ 19 ∧ (t.queue vd iq).nextpseq = nextSeq q.nextpseq ∧
            (r = none → mfind (t.queue vd iq).pkts q.fetch = some p) ∧
            (∀ p', r = some p' → p'.mreason = 0 → mfind (t.queue vd iq).pkts q.fetch = some { p' with checked := true }) ∧
            (∀ p', r = some p' → p'.mreason ≠ 0 → (t.queue vd iq).st = .halted ∧ (t.queue vd iq).malcnt = q.malcnt + 1 ∧
              ∃ x, mfind (t.queue vd iq).pkts q.fetch = some x ∧ x.phase = .completing ∧ x.status = 2)))) ∧
    (∀ p, mfind q.pkts idx = some p →
      let at' (t : State) : Packet := t.packetAt vd iq idx
      (s.mayStartPacket vd iq idx = false → exec (.packetStart vd iq idx) s = .next s) ∧
      (s.mayStartPacket vd iq idx = true →
        ∃ t, exec (.packetStart vd iq idx) s = .next t ∧
          (p.skip = true → at' t = { p with phase := .completing, status := 1 }) ∧
          (p.skip = false → (p.type = 0 ∨ p.type = 4 ∨ ((p.type = 1 ∨ p.type = 6) ∧ p.nteam = 0)) → at' t = { p with phase := .completing }) ∧
          (p.skip = false → p.type = 5 → at' t = { p with phase := .running, startNs := s.ctime }) ∧
          (p.skip = false → p.type = 2 ∨ p.type = 3 → (at' t).phase = .running) ∧
          (p.skip = false → p.type = 1 ∨ p.type = 6 → p.nteam ≠ 0 → (at' t).phase = .running ∧
            ((at' t).preLeft = true ∨ (at' t).order = some q.nextOrder)) ∧
          (p.skip = false → p.type = 7 → ∀ bs u, s.feRead vd iq p.ent.asid (p.at 16 8) 4 = (.ok bs, u) → u.queue vd iq = q → (at' t).phase = .completing)) ∧
      (p.phase = .running → p.preLeft = true → s.jobsLeft vd iq idx id = false →
        ∃ t, exec (.preJobsDone vd iq idx) s = .next t ∧ (at' t).preLeft = false ∧
          (p.status = 0 → (at' t).order = some q.nextOrder) ∧ (p.status ≠ 0 → (at' t).nteam = 0)) ∧
      (s.jobsLeft vd iq idx id = true → exec (.preJobsDone vd iq idx) s = .next s) ∧
      (p.phase = .running → p.type = 5 → ∀ bs u, s.feRead vd iq p.ent.asid (p.at 16 8) 8 = (.ok bs, u) → u.queue vd iq = q →
        let x := leNat bs % 2 ^ 64
        let y := p.at 24 8 % 2 ^ 64
        let meets : Prop := if p.at 32 4 = 0 then y ≤ x else if p.at 32 4 = 1 then x = y else x ≠ y
        ∃ t, exec (.waitPacketSatisfied vd iq idx) s = .next t ∧ (meets → (at' t).phase = .completing) ∧ (¬ meets → at' t = p)) ∧
      (p.phase = .running → p.type = 5 → p.at 36 4 ≠ 0 → p.startNs + 1000 * p.at 36 4 ≤ s.ctime →
        ∃ t, exec (.waitPacketTimeout vd iq idx) s = .next t ∧ at' t = { p with phase := .completing, status := 5 }) ∧
      (p.at 36 4 = 0 → exec (.waitPacketTimeout vd iq idx) s = .next s) ∧
      (s.mayRetire vd iq idx = true → ∃ t, exec (.bundleRetire vd iq idx) s = .next t ∧ at' t = { p with phase := .completing } ∧
        ∀ c ∈ t.mem.l2, c.dieCoh = true → c.vd ≠ vd) ∧
      (s.mayRetire vd iq idx = false → exec (.bundleRetire vd iq idx) s = .next s) ∧
      (p.phase = .completing → p.recorded = false → q.statDue = false → p.early = false → p.sig = 0 → p.ent.ringCap.admits (slotVa p.ent idx) 24 1 1 = true →
        let w := if p.isBundle && p.status != 2 then s else s.writeBackVd vd
        ∀ ls u, w.feRange vd iq p.ent.asid (slotVa p.ent idx) 24 1 = (.ok ls, u) → u.queue vd iq = q →
        ∃ t, exec (.packetComplete vd iq idx) s = .next t ∧ (t.queue vd iq).dseq = q.dseq + 1 ∧ (t.queue vd iq).lcpseq = BitVec.ofNat 32 p.pseq ∧
          ∀ x, mfind (t.queue vd iq).pkts idx = some x → x.recorded = true ∧ x.status = p.status))

/-! ## Freor's commands -/

/-- R420: a command with a reserved bit set, or of the wrong scope, completes with INVALID and does
nothing; on a VD whose TLOCK reads 1 one that is not exempt completes with DENIED, and in another
state than R422 allows with STATE. R422, R423, R425, R434: what each command on a VD does.
The model's own choices: log entries 25 and 33. -/
def Obligations.VdCommands : Prop :=
  ∀ (e : CmdEntry) (s : State),
    let vd := cmdVd e
    let v := s.vd vd
    let well (named : List (Nat × Nat)) : Prop := cmdHead e false = true ∧ cmdResv e named = true
    let cfg : Prop := well [(8, 4), (16, 8)]
    let cfg2 : Prop := well [(8, 4), (16, 8), (24, 8)]
    let free : Prop := v.tlock = false
    let active : Prop := v.st = .active ∨ v.st = .paused
    let i := cfgIdx e
    let x := cfgVal e
    let apart (p : Nat × Nat) : Prop := s.poolOk vd p = true
    (cmdHead e false = false → ∀ c ∈ [Instr.create, .destroy, .activate, .deactivate, .pause, .resume, .kill, .partition, .setcfgWeight, .setcfgHbmWeir,
        .setcfgBrixayWeir, .setcfgPeer, .setcfgGqtbase, .setcfgGroot, .setcfgHroot, .setcfgRemap, .setcfgModes, .setcfgStackPool, .setcfgSavePool, .gen,
        .qbind, .qctlEnable, .qctlResume, .qctlReset, .comm], s.Turned .invalid (exec (c e) s)) ∧
    (v.tlock = true → ∀ c ∈ [Instr.create, .destroy, .activate, .deactivate, .partition, .setcfgWeight, .setcfgHbmWeir, .setcfgBrixayWeir, .setcfgPeer,
        .setcfgGqtbase, .setcfgGroot, .setcfgHroot, .setcfgRemap, .setcfgModes, .setcfgStackPool, .setcfgSavePool, .qbind, .comm],
      s.Turned .denied (exec (c e) s) ∨ s.Turned .invalid (exec (c e) s)) ∧
    (well [] → free → v.st ≠ .defined → s.Turned .state (exec (.destroy e) s) ∧ s.Turned .state (exec (.activate e) s)) ∧
    (well [] → free → ¬ active → s.Turned .state (exec (.deactivate e) s)) ∧
    (well [] → v.st ≠ .paused → s.Turned .state (exec (.resume e) s)) ∧
    (well [(8, 4), (16, 24)] → free → v.st = .free →
      let modes := cmdArg e 9 1
      let save := (cmdArg e 24 8, cmdArg e 32 8)
      let stack := (cmdArg e 16 8, cmdArg e 10 2 * 32 * 2 ^ (10 + cmdArg e 8 1))
      cmdArg e 8 1 ≤ 6 → modes < 32 → baseOk save.1 = true → sizeOk save.2 = true → baseOk stack.1 = true → apart save → apart stack →
      s.Sets vd (fun w => { st := .defined, inc := w.inc, tdi := w.tdi, stklog := cmdArg e 8 1, modes := BitVec.ofNat 5 modes, stkslots := cmdArg e 10 2,
                            stkpool := stack.1, savebase := save.1, savesize := save.2 }) (exec (.create e) s)) ∧
    (well [] → free → v.st = .defined → s.Sets vd (fun w => { inc := w.inc + 1, tdi := w.tdi }) (exec (.destroy e) s)) ∧
    (well [] → free → v.st = .defined →
      ((s.vds.filter fun y => y.2.resident).length < Config.residentVds →
        s.Sets vd (fun w => { w with st := .active, resident := true }) (exec (.activate e) s)) ∧
      (Config.residentVds ≤ (s.vds.filter fun y => y.2.resident).length → s.Turned .capacity (exec (.activate e) s))) ∧
    (well [] → free → active →
      (s.context vd = false → cmdForce e = false → s.Sets vd (fun w => { w with st := .defined, resident := false, pausing := false }) (exec (.deactivate e) s)) ∧
      (cmdForce e = true → ∃ (u : State), exec (.deactivate e) s = .next (u.cmdComplete .ok) ∧ (u.vd vd).st = .defined ∧ (u.vd vd).inc = v.inc + 1 ∧
        ∀ y ∈ u.teams, y.2.vd ≠ vd) ∧
      (s.context vd = true → cmdForce e = false → s.Turned .busy (exec (.deactivate e) s))) ∧
    (well [] → v.st = .active ∨ v.pausing = true →
      let mine (y : Nat × Team) : Prop := y.2.vd = vd ∧ y.2.saved = none ∧ s.keysOf y.1 ≠ []
      ((∀ y ∈ s.teams, ¬ mine y) → s.Sets vd (fun w => { w with st := .paused, pausing := false }) (exec (.pause e) s)) ∧
      ((∃ y ∈ s.teams, mine y ∧ s.copiesTouch y.1 = true) →
        ∃ t, exec (.pause e) s = .next t ∧ t.cmdCons = s.cmdCons ∧ (t.vd vd).st = .paused ∧ t.teams = s.teams)) ∧
    (well [] → v.st = .paused → s.Sets vd (fun w => { w with st := .active }) (exec (.resume e) s)) ∧
    (well [] → active → v.drainFrom = none →
      ∃ t, exec (.kill e) s = .next t ∧ t.cmdCons = s.cmdCons ∧ t.vd vd = { v with st := .draining, drainFrom := some v.st } ∧ t.teams = s.teams) ∧
    (∀ st, well [] → v.drainFrom = some st →
      ∃ (u : State), exec (.kill e) s = .next (u.cmdComplete .ok) ∧ (u.vd vd).st = st ∧ (u.vd vd).drainFrom = none ∧ (∀ y ∈ u.teams, y.2.vd ≠ vd) ∧
        ∀ c ∈ u.copies, c.vd ≠ vd) ∧
    (let p := partOf e
     well [(8, 7), (16, 40)] → free → v.st = .defined ∨ active → p.hqBase < 4096 → p.hqCount ≤ 4096 → p.hqBase + p.hqCount ≤ 4096 → cmdArg e 14 1 < 2 →
     s.partOwned vd p = false → s.context vd = false → cmdForce e = false → p.hard = false → s.teams = [] →
     s.Sets vd (fun w => { w with clusters := p.clusters, hqBase := p.hqBase, hqCount := p.hqCount, hard := false, chgroups := p.chgroups,
                                  coremask := p.coremask }) (exec (.partition e) s)) ∧
    (cfg → free → v.st ≠ .free →
      (i < 4 → 1 ≤ x → x ≤ 255 → s.Sets vd (fun w => { w with weights := mset w.weights i x }) (exec (.setcfgWeight e) s)) ∧
      (i < 4 → s.weirOk e VD.hbmWeir = true → s.Sets vd (fun w => { w with hbmWeir := mset w.hbmWeir i (BitVec.ofNat 32 x) }) (exec (.setcfgHbmWeir e) s)) ∧
      (i < 4 → s.weirOk e VD.brxWeir = true → s.Sets vd (fun w => { w with brxWeir := mset w.brxWeir i (BitVec.ofNat 32 x) }) (exec (.setcfgBrixayWeir e) s)) ∧
      (i < 16 → x < 2 ^ 22 → s.Sets vd (fun w => { w with peers := mset w.peers i (BitVec.ofNat 32 x) }) (exec (.setcfgPeer e) s)) ∧
      (i = 0 → s.Sets vd (fun w => { w with gqtbase := BitVec.ofNat 64 (x / 256 % 2 ^ 48 * 256) }) (exec (.setcfgGqtbase e) s)) ∧
      (i < 16 → s.Sets vd (fun w => { w with groot := mset w.groot i (BitVec.ofNat 64 x) }) (exec (.setcfgGroot e) s)) ∧
      (i = 0 → s.Sets vd (fun w => { w with hroot := BitVec.ofNat 64 x }) (exec (.setcfgHroot e) s)) ∧
      (i < 8 → remapOk x = true → (mget 0 v.remap i).getLsbD 2 = false →
        s.Sets vd (fun w => { w with remap := mset w.remap i (BitVec.ofNat 64 x &&& ~~~4) }) (exec (.setcfgRemap e) s)) ∧
      (4 ≤ i → s.Turned .invalid (exec (.setcfgWeight e) s))) ∧
    (cfg → free → v.st = .defined → i = 0 → x < 32 → s.Sets vd (fun w => { w with modes := BitVec.ofNat 5 x }) (exec (.setcfgModes e) s)) ∧
    (cfg2 → free → v.st = .defined → i = 0 → baseOk x = true →
      let n := cmdArg e 24 8
      (n < 65536 → apart (x, n * 32 * v.stksz) → s.Sets vd (fun w => { w with stkpool := x, stkslots := n }) (exec (.setcfgStackPool e) s)) ∧
      (sizeOk n = true → apart (x, n) → s.Sets vd (fun w => { w with savebase := x, savesize := n }) (exec (.setcfgSavePool e) s)))

/-- R327, R358, R364, R374, R377, R396, R398, R404, R432: generations, the binding of hardware queues,
enabling, resuming and resetting a queue, grants, communicators, the device number, the band
slices and the power limit.
The model's own choices: log entries 25 and 33. -/
def Obligations.QueueAndDeviceCommands : Prop :=
  ∀ (e : CmdEntry) (s : State),
    let vd := cmdVd e
    let v := s.vd vd
    let well (named : List (Nat × Nat)) : Prop := cmdHead e false = true ∧ cmdResv e named = true
    let wellDev (named : List (Nat × Nat)) : Prop := cmdHead e true = true ∧ cmdResv e named = true
    let active : Prop := v.st = .active ∨ v.st = .paused
    let a := cmdArg e 8 1
    let iq := cmdArg e 8 2
    let x := cmdArg e 16 8
    let i := cfgIdx e
    let done (r : Out) (P : State → Prop) : Prop := ∃ t, r = .next t ∧ s.Completed t .ok ∧ P t
    (cmdHead e true = false → ∀ c ∈ [Instr.setcfgSlice, .setcfgPowerLimit, .grant, .podnum], s.Turned .invalid (exec (c e) s)) ∧
    (well [(8, 1)] → active → a < 16 ∨ a = 31 →
      (a ∈ v.raising → exec (.gen e) s = .next s) ∧
      (a ∉ v.raising → ∃ t, exec (.gen e) s = .next t ∧ t.cmdCons = s.cmdCons ∧ a ∈ (t.vd vd).raising ∧
        (a = 31 → (t.vd vd).hgen = v.hgen + 1 ∧ (t.vd vd).ggen = v.ggen) ∧
        (a < 16 → mget 0 (t.vd vd).ggen a = mget 0 v.ggen a + 1 ∧ (t.vd vd).hgen = v.hgen ∧ ∀ k, k ≠ a → mget 0 (t.vd vd).ggen k = mget 0 v.ggen k))) ∧
    (let hq := fld x 12 1
     well [(8, 2), (16, 8)] → v.tlock = false → v.st ≠ .free → iq < 4096 → x < 2 ^ 17 →
     (bit x 0 = false → mfind v.conts iq = none → s.Sets vd (fun w => { w with hqt := mset w.hqt iq (BitVec.ofNat 64 x) }) (exec (.qbind e) s)) ∧
     (bit x 0 = true → v.hqBase ≤ hq → hq < v.hqBase + v.hqCount → s.hqTaken vd iq hq = false → s.chargeOf vd iq = none → mfind v.conts iq = none →
       s.Sets vd (fun w => { w with hqt := mset w.hqt iq (BitVec.ofNat 64 x) }) (exec (.qbind e) s)) ∧
     (bit x 0 = true → ¬ (v.hqBase ≤ hq ∧ hq < v.hqBase + v.hqCount) → s.Turned .invalid (exec (.qbind e) s))) ∧
    (well [(8, 3)] → active → iq < 4096 → ∀ b q, s.boundLq vd iq = some b → s.queueOf vd b.1 = some q → q.kind = false →
      let r := s.queue vd q.iq
      (r.st ≠ .disabled → done (exec (.qctlEnable e) s) fun t => t.vds = s.vds) ∧
      (r.st = .disabled → ∃ (u : State), exec (.qctlEnable e) s = .next (u.cmdComplete .ok) ∧
        ((u.queue vd q.iq).st = .idle ∨ (u.queue vd q.iq).st = .halted) ∧ (u.queue vd q.iq).ent = q ∧ (u.queue vd q.iq).prod = 0 ∧
        (u.queue vd q.iq).cons = 0 ∧ (u.queue vd q.iq).fetch = 0 ∧ (u.queue vd q.iq).nextpseq = 1 ∧ (u.queue vd q.iq).kseq = 0 ∧ (u.queue vd q.iq).pkts = []) ∧
      (r.st ≠ .halted → done (exec (.qctlResume e) s) fun t => t.vds = s.vds) ∧
      (r.st = .halted → ∃ (u : State), exec (.qctlResume e) s = .next (u.cmdComplete .ok) ∧ (u.queue vd q.iq).prod = r.prod ∧ (u.queue vd q.iq).fetch = r.fetch ∧
        ((u.queue vd q.iq).st = (if r.prod = r.fetch then .idle else .active) ∨ (u.queue vd q.iq).st = .halted))) ∧
    (well [(8, 3)] → active → iq < 4096 → (s.boundLq vd iq).isSome = true → (∀ p ∈ (s.queue vd iq).pkts, p.2.phase = .done) →
      ∃ (u : State), exec (.qctlReset e) s = .next (u.cmdComplete .ok) ∧ (u.queue vd iq).st = .disabled) ∧
    (let w := cmdArg e 16 16
     let slog := fld w 27 22
     let base := fld w 102 64
     wellDev [(8, 2), (16, 16)] → iq < 4096 → fld w 63 28 = 0 → fld w 127 103 = 0 →
     (slog ≤ 23 → base % 2 ^ (16 + slog) = 0 →
       done (exec (.grant e) s) fun t => mfind t.grants iq = (if bit w 0 then some ⟨bit w 1, fld w 11 2, fld w 21 12, slog, base⟩ else none) ∧
         ∀ k, k ≠ iq → mfind t.grants k = mfind s.grants k) ∧
     (23 < slog → s.Turned .invalid (exec (.grant e) s))) ∧
    (let hd := s.hostNat x 8
     let n := fld hd 21 11
     let rs := commRanks ((List.range (8 + 4 * n)).map fun k => s.hostByte (x + k)) n
     well [(8, 2), (12, 12)] → v.tlock = false → active → x % 8 = 0 → cmdArg e 12 4 = 8 + 4 * n → s.commOk vd hd rs = true →
     done (exec (.comm e) s) fun t => mfind (t.vd vd).comms iq = if bit hd 0 then some ⟨fld hd 10 1, rs.map fun r => (r % 1024, r / 1024), 0⟩ else none) ∧
    (wellDev [(8, 2)] → cmdArg e 8 2 < 1024 →
      ((∀ y ∈ s.vds, y.2.st = .free ∨ y.2.st = .defined) → done (exec (.podnum e) s) fun t => t.devNum = cmdArg e 8 2 ∧ t.vds = s.vds) ∧
      ((∃ y ∈ s.vds, y.2.st = .active ∨ y.2.st = .paused ∨ y.2.st = .draining) → s.Turned .state (exec (.podnum e) s))) ∧
    (wellDev [(8, 4), (16, 8)] →
      (1 ≤ i → i ≤ 3 → 100 ≤ x → x ≤ 1000000 → done (exec (.setcfgSlice e) s) fun t => mfind t.slices i = some (1000 * x) ∧ t.vds = s.vds) ∧
      (i = 0 → 800 ≤ x → x ≤ 1600 → done (exec (.setcfgPowerLimit e) s) fun t => t.powerLimit = x ∧ t.vds = s.vds) ∧
      (i = 0 → x < 800 ∨ 1600 < x → s.Turned .invalid (exec (.setcfgPowerLimit e) s)))

/-! ## The device -/

/-- R12, R14, R21 to R23, R354, R388 to R390, R416, R425, R426, R432: resets, the loss of a die and the
promotion of the spare, function resets, power and temperature, the retirement list and known-answer
injection.
The model's own choices: log entries 3 and 26. -/
def Obligations.DeviceEvents : Prop :=
  ∀ (die vd j watts : Nat) (k : KaResult) (x : RetireEntry) (s : State),
    (∃ t, exec .deviceReset s = .next t ∧ t.vds = [] ∧ t.teams = [] ∧ t.groups = [] ∧ t.copies = [] ∧ t.colls = [] ∧ t.tlb = [] ∧ t.names = [] ∧
      t.kactl = 7 ∧ t.cmdEn = false ∧ t.cmdProd = 0 ∧ t.cmdCons = 0 ∧ t.powerLimit = 1600 ∧ t.stopped = false ∧ t.mem.hbm = [] ∧
      t.inc0 = s.inc0 + 1 ∧ t.inc1 = s.inc1 + 1 ∧ t.fuse = s.fuse ∧ t.retired = s.retired ∧ t.devNum = s.devNum ∧
      (∀ d < 2, RetireEntry.die d ∈ s.retired → t.dieOk d = false) ∧ (s.retired = [] → t.remapWord = s.fuse) ∧ ∀ a, t.hostByte a = s.hostByte a) ∧
    (die < 2 → s.ports = [] → (∀ e ∈ s.teams, e.2.seated = true → dieOf (e.2.cores.headD 0) ≠ die) →
      ∃ t, exec (.dieReset die) s = .next t ∧ t.incOf die = s.incOf die + 1 ∧ t.incOf (1 - die) = s.incOf (1 - die) ∧ mfind t.dieClk die = some s.clk ∧
        (∀ c ∈ t.mem.l1, dieOf c.core ≠ die) ∧ (∀ c ∈ t.mem.l2, c.die ≠ die) ∧ (∀ f ∈ t.mem.fwd, f.die ≠ die) ∧ (∀ e ∈ t.tlb, e.die ≠ die) ∧
        (∀ c ∈ t.copies, c.die ≠ die) ∧ t.groups = s.groups ∧
        ∀ f, (s.mem.fwd.filter fun x => x.die == die) = [f] → (t.vd f.write.vd).err.stale = satInc (s.vd f.write.vd).err.stale) ∧
    (2 ≤ die → exec (.dieReset die) s = .next s) ∧
    (die < 2 → s.dieOk die = true → (∀ e ∈ s.teams, (e.2.seated = true → dieOf (e.2.cores.headD 0) ≠ die) ∧ e.2.saved = none) →
      ∃ t, exec (.dieLoss die) s = .next t ∧ t.dieOk die = false ∧ t.dieOk (1 - die) = s.dieOk (1 - die) ∧ RetireEntry.die die ∈ t.retired ∧ (mfind t.lost die).isSome = true) ∧
    (s.dieOk die = false → exec (.dieLoss die) s = .next s) ∧
    (die < 2 → s.dieOk die = false → s.isLost die = true → s.remapWord.getLsbD 10 = true → s.lossSettled die = true →
      ∃ t, exec (.sparePromotion die) s = .next t ∧ t.dieOk die = true ∧ t.dieOk (1 - die) = s.dieOk (1 - die) ∧ t.physDie die = fld s.remapWord.toNat 9 8 ∧
        t.remapWord.getLsbD 10 = false ∧ t.remapWord.getLsbD 11 = true ∧ t.incOf die = s.incOf die + 1 ∧ RetireEntry.die die ∉ t.retired ∧
        mfind t.lost die = none) ∧
    (s.remapWord.getLsbD 10 = false → exec (.sparePromotion die) s = .next s) ∧
    ((s.vd vd).modes.getLsbD 3 = true → exec (.vfFlr vd) s = .next (s.postIrq vd 7)) ∧
    ((s.vd vd).modes.getLsbD 3 = false →
      ((s.vd vd).running = true → exec (.vfFlr vd) s = .next (s.killVd vd).reviewSaved) ∧
      ((s.vd vd).st = .free → s.teams = [] → exec (.vfFlr vd) s = .next s)) ∧
    (∃ t, exec .pfFlr s = .next t ∧ t.cmdEn = false ∧ t.cmdLog = 0 ∧ t.cmdBase = 0 ∧ t.cmdProd = 0 ∧ t.cmdCons = 0 ∧
      (s.vds = [] → s.teams = [] → t.vds = [] ∧ t.groups = s.groups)) ∧
    (s.d3Paused = none → (∀ e ∈ s.teams, e.2.saved = none → s.keysOf e.1 ≠ [] → (s.vd e.2.vd).st ≠ .active) → (s.vds.map fun e => e.1).Nodup →
      ∃ t, exec .d3hotEntry s = .next t ∧ t.d3Paused = some s.activeVds ∧
        (∀ n, (t.vd n).st = if (s.vd n).st = .active then .paused else (s.vd n).st) ∧
        ∀ u, u.d3Paused = t.d3Paused → u.vds = t.vds → (∀ n, (s.vd n).pausing = false) →
          ∃ w, exec .d0Return u = .next w ∧ w.d3Paused = none ∧ ∀ n, (w.vd n).st = (s.vd n).st) ∧
    (s.d3Paused ≠ none → exec .d3hotEntry s = .next s) ∧
    (s.d3Paused = none → exec .d0Return s = .next s) ∧
    ((105 ≤ j ∨ s.powerLimit < watts) → s.clockSteps < 75 → exec (.thermalThrottle j watts) s = .next { s with clockSteps := s.clockSteps + 1 }) ∧
    (j < 105 → watts ≤ s.powerLimit → exec (.thermalThrottle j watts) s = .next s) ∧
    (115 ≤ j → exec (.thermalStop j) s = .next { s with stopped := true, msgs := s.msgs ++ [.aer] }) ∧
    (j < 115 → exec (.thermalStop j) s = .next s) ∧
    (s.kactl.getLsbD 0 = false ∨ k.mismatch = false → exec (.kaInjection k) s = .next s) ∧
    (s.kactl.getLsbD 0 = true → k.mismatch = true → k.core < 256 → k.quad < 4 → k.lane < 32 → (mget {} s.kastat k.core).worst < 2 →
      mget 0 (mget {} s.kastat k.core).counts (32 * k.quad + k.lane) < 2 →
      ∃ t, exec (.kaInjection k) s = .next t ∧ (mget {} t.kastat k.core).mism = satInc (mget {} s.kastat k.core).mism ∧
        (mget {} t.kastat k.core).quad = k.quad ∧ (mget {} t.kastat k.core).lane = k.lane ∧ t.retired = s.retired ∧ t.err.seq = nextSeq s.err.seq) ∧
    (∃ t, exec (.retirementListClear x) s = .next t ∧ t = { s with retired := t.retired } ∧ ∀ y, y ∈ t.retired ↔ y ∈ s.retired ∧ y ≠ x)

/-- R384, R385: an uncorrectable error marks what it strikes, and a corrected one is counted. R416,
R421, R426, R430, R431: SPDM requests in their order, keys of the IDE streams, TDISP, Freor's image,
and a vector that is unmasked with a message pending.
The model's own choices: log entries 15, 27 and 35. -/
def Obligations.ErrorAndSecurityEvents : Prop :=
  ∀ (key reg vd sector die core row tid : Nat) (lanes : Word) (g : Group) (q : SpdmReq) (img : FreorImage) (sess stream func vec : Nat)
      (k : BitVec 256) (s : State),
    let strikes (x : ErrSite) (P : State → Prop) : Prop := ∃ t, exec (.uncorrectableError x) s = .next t ∧ P t
    let answers (code : Nat) (t : State) : Prop := t.msgs = s.msgs ++ [.spdm (Config.spdmResponse code q.session q.param q.body s.freeCtr)]
    let refuses (r : Out) : Prop := ∃ t, r = .next t ∧ answers 0x7F t ∧ t.spdm = s.spdm
    let takes (r : Out) (code : Nat) (sp : Spdm) : Prop := ∃ t, r = .next t ∧ answers code t ∧ t.spdm = sp
    (mfind s.groups key = some g → (mget {} s.teams g.tid).saved = none →
      (reg < g.ngen → g.winOf reg = none → strikes (.vreg key reg lanes) fun t => ∀ l < 32,
        ((mget {} t.groups key).vreg reg).tag l = if ((g.vreg reg).val.isGeneral && !lanes.getLsbD l) then (g.vreg reg).tag l else .poison) ∧
      (reg < g.ngen + g.ncmp → strikes (.laneTags key reg) fun t => let h := mget {} t.groups key
        (h.vreg reg).val = (g.vreg reg).val ∧ (∀ l < 32, (h.vreg reg).tag l = .poison) ∧ ∀ k, k ≠ reg → h.vreg k = g.vreg k) ∧
      (reg < 64 → strikes (.sreg key reg) fun t => mfind (mget {} t.groups key).s reg = some ⟨s.free 0, .poison⟩) ∧
      (reg < 16 → strikes (.preg key reg) fun t => ∀ l < 32, tagAt ((mget {} t.groups key).preg reg).dp ((mget {} t.groups key).preg reg).fp l = .poison)) ∧
    (∀ tm, mfind s.teams tid = some tm →
      (row < 512 → strikes (.tileRow tid core row) fun t => t.pb (tileRow tid core row) = true) ∧
      (sector < 1024 → strikes (.scratch tid core sector) fun t => sectorOf (scratchAddr tid core (256 * sector)) ∈ t.mem.scratchPoison) ∧
      (∀ sv, tm.saved = some sv → strikes (.saveImage tid) fun t => (mget {} t.teams tid).saved = some { sv with sealOk := false })) ∧
    (sector < 2 ^ 31 → (∀ x ∈ [ErrSite.sector sector none, .cistern sector none], strikes x fun t => sector ∈ t.mem.hbmPoison ∧ t.err.seq = nextSeq s.err.seq) ∧
      ((s.vd vd).err.eren = false → ∀ x ∈ [ErrSite.sector sector (some vd), .cistern sector (some vd)], strikes x fun t =>
        sector ∈ t.mem.hbmPoison ∧ (t.vd vd).err.seq = nextSeq (s.vd vd).err.seq) ∧
      strikes (.latent sector) fun t => t.mem.cisternPoison sector = true ∧ t.err = s.err ∧ t.vds = s.vds) ∧
    (∀ c, s.mem.l2Find die sector = some c → (s.vd c.vd).err.eren = false → strikes (.l2Copy die sector) fun t => t.l2Poison die sector = true) ∧
    (strikes (.l1Copy core sector) fun t => t.mem.l1Find core sector = none) ∧
    (s.mem.l1Find core sector = none → exec (.uncorrectableError (.l1Copy core sector)) s = .next s) ∧
    (strikes (.corrected none) fun t => t.err.corr = if s.err.corr = 0xFFFFFFFFFFFFFFFF then s.err.corr else s.err.corr + 1) ∧
    takes (exec (.getVersion q) s) 0x04 { version := true } ∧
    (s.spdm.version = true → takes (exec (.getCapabilities q) s) 0x61 { s.spdm with caps := true }) ∧
    (s.spdm.version = false → refuses (exec (.getCapabilities q) s)) ∧
    (s.spdm.caps = true → takes (exec (.negotiateAlgorithms q) s) 0x63 { s.spdm with algs := true }) ∧
    (s.spdm.algs = true →
      takes (exec (.getDigests q) s) 0x01 s.spdm ∧ (q.param = 0 → takes (exec (.getCertificate q) s) 0x02 s.spdm ∧ takes (exec (.challenge q) s) 0x03 s.spdm) ∧
      s.measurement 1 = Config.shake256 Config.bootRom ∧ (∀ d, s.freorDigest = some d → s.measurement 2 = d) ∧
      (∃ t, exec (.getMeasurements q) s = .next t ∧ t.spdm = s.spdm ∧
        t.msgs = s.msgs ++ [.spdm (Config.spdmResponse 0x60 q.session q.param (q.body ++ s.measurement q.param) s.freeCtr)]) ∧
      (s.spdm.session = none → takes (exec (.keyExchange q) s) 0x64 { s.spdm with session := some q.session, finished := false, keyUpdates := 0 })) ∧
    (s.spdm.algs = false → refuses (exec (.getDigests q) s) ∧ refuses (exec (.getMeasurements q) s) ∧ refuses (exec (.keyExchange q) s)) ∧
    (s.spdm.session = some q.session →
      (s.spdm.finished = false → takes (exec (.finish q) s) 0x65 { s.spdm with finished := true }) ∧
      (s.spdm.finished = true → takes (exec (.keyUpdate q) s) 0x69 { s.spdm with keyUpdates := s.spdm.keyUpdates + 1 } ∧
        takes (exec (.endSession q) s) 0x6C { s.spdm with session := none, finished := false })) ∧
    (s.spdm.session ≠ some q.session → refuses (exec (.finish q) s) ∧ refuses (exec (.keyUpdate q) s) ∧ refuses (exec (.endSession q) s)) ∧
    (s.spdm.session = some sess → s.spdm.finished = true → stream ≤ 8 →
      ∃ t, exec (.ideKmKeyProgramming sess stream k) s = .next t ∧ t = { s with ide := t.ide } ∧ (sess, stream, k) ∈ t.ide ∧
        ∀ e, e.2.1 ≠ stream → (e ∈ t.ide ↔ e ∈ s.ide)) ∧
    (s.spdm.session ≠ some sess → exec (.ideKmKeyProgramming sess stream k) s = .next s) ∧
    (vd < 1024 → (s.vd vd).tdi = .unlocked → ∃ t, exec (.lockInterfaceRequest vd) s = .next t ∧ t.vd vd = { s.vd vd with tdi := .locked } ∧ (t.vd vd).tlock = true) ∧
    ((s.vd vd).tdi = .locked → ∃ t, exec (.startInterfaceRequest vd) s = .next t ∧ t.vd vd = { s.vd vd with tdi := .run } ∧ (t.vd vd).tlock = true) ∧
    (vd < 1024 → (s.vd vd).st = .defined → s.teams = [] → ∃ t, exec (.stopInterfaceRequest vd) s = .next t ∧ t.vd vd = { s.vd vd with tdi := .unlocked } ∧ (t.vd vd).tlock = false) ∧
    ((s.vd vd).tlock = true → exec (.interfaceReportRequest vd) s = .next { s with msgs := s.msgs ++ [.tdiReport vd [0, 2]] }) ∧
    ((s.vd vd).tlock = false → exec (.interfaceReportRequest vd) s = .next s) ∧
    (Config.signatureOk img.digest img.signature = true → s.rollback ≤ img.version → exec (.freorImageLoad img) s = .next { s with freorVersion := img.version, freorDigest := some img.digest }) ∧
    (Config.signatureOk img.digest img.signature = false ∨ img.version < s.rollback → exec (.freorImageLoad img) s = .next s) ∧
    (let vf := if func = 0 then none else some (func - 1)
     func ≤ 1024 → vec < (if func = 0 then 64 else 8) → ∃ t, exec (.msixVectorUnmask func vec) s = .next t ∧ t.vector vf vec = ⟨vf, vec, false, false⟩ ∧
       t.msgs = s.msgs ++ if (s.vector vf vec).mask && (s.vector vf vec).pend then [.msix vf vec] else [])

/-! ## Encodings, steps and reset -/

/-- R70 to R81: decoding the bits of a well-formed instruction gives that instruction, with every
operand at every value its encoding admits, and its length. -/
def Obligations.EncodeDecode : Prop :=
  ∀ (i : Instr) (r : Row), i.row = some r → i.wf = true → decode (encodeBits i) = .ok i r.bytes

/-- R70 to R81: what the decoder accepts is a well-formed instruction whose encoding is the word it
read, so that no two instructions share a word and no bit of a word is without meaning. -/
def Obligations.DecodeEncode : Prop :=
  ∀ (w n : Nat) (i : Instr), decode w = .ok i n → i.wf = true ∧ encodeBits i = w % 2 ^ (8 * n)

/-- R73 to R80, R82, R83: words written out from the layouts decode to what they stand for, and
a reserved bit, a reserved length and an opcode that no row gives are refused. -/
def Obligations.DecodesWords : Prop :=
  let none' : Ops := { fmt := .f64, g := none, d := .v 0, a := .v 0, b := .v 0, c := .v 0, pa := .none, pb := .none, pc := .none, imm := 0 }
  decode 0x00080032000000C0200B1A01 =
    .ok (.iadd .s32 false { none' with fmt := .f96, g := some ⟨1, true⟩, d := .v 5, a := .v 4, b := .v 6, pb := .rot 3 }) 12 ∧
  decode 0x00000000FFFFFFF90002000020100202 = .ok (.iadd .s32 false { none' with fmt := .f128i, d := .v 8, a := .v 4, imm := 0xFFFFFFF9 }) 16 ∧
  decode 0x00000000FFFFFFC0000008943008280A = .ok (.brc .s32 .lt ⟨some ⟨2, false⟩, .v 4, .s 6, 0xFFFFFFC0, 0⟩) 16 ∧
  decode 0x00000000BF801000000601004018030E = .ok (.fma .f32 .rn { none' with fmt := .f128i, d := .v 12, a := .v 8, b := .v 8, imm := 0xBF801000 }) 16 ∧
  decode 0x0B0000000014001410140501 =
    .ok (.ld .b32 .none .dev .acq false false { none' with fmt := .f96, d := .v 10, a := .s 2, c := .v 40 }) 12 ∧
  decode 0x06445074D8181D14 = .ok (.atom .z32 .add .clu .ar { none' with g := some ⟨1, false⟩, d := .v 12, a := .s 27, b := .s 3 }) 8 ∧
  decode 0x02C08014C52200D0 = .ok (.sld .b64 .dev .acq { none' with d := .s 17, a := .s 24 }) 8 ∧
  decode 0x00000080000050000147D0D425080632 = .ok (.coll false false .allReduce .ring .f32 .add 5 0 2 ⟨none, .s 4, .s 4, .s 6, .s 15⟩) 16 ∧
  decode 0x0000000000000800000650F42D080702 = .ok (.mma .f32 .bf16 .bf16 false false false true 0 false false ⟨.s 4, .s 5, .s 7⟩) 16 ∧
  decode 3 = .illegalInstr ∧ decode 0x3FC = .illegalInstr ∧ decode 0x20044 = .illegalInstr

/-- R40 to R44, R72, R83: when the bytes at the PC of a group's chosen run decode to an instruction
that the group may issue, a step is exec of it, issued with that PC and the lanes of that run; a turn
may stop it part-way; an operation of another unit, and Freor's next command, run as the schedule and the ring say.
R83, R84: where a check refuses what stands there, the step takes a group that may trap to its handler, with the cause group of the first check that fails and the instruction in the detail.
The model's own choices: log entries 1, 2, 12 and 34. -/
def Obligations.StepRunsDecoded : Prop :=
  ∀ (s : State) (c ns : Nat) (skew : List (Nat × Nat)) (rest : List Turn),
    let s' : State := ({ s with agenda := rest } : State).tick c ns skew
    (∀ who key g pc ptr e u i r n, s.agenda = ⟨c, ns, who, skew⟩ :: rest → s.stopped = false → mfind s'.groups key = some g → s'.OnCore g → g.errs = [] →
      (g.naks = [] ∨ g.inhdl = true) → dropInvalid g.replay = [] → g.part = none → g.forced = none → g.role ≠ .stream →
      let t := mget {} s'.teams g.tid
      let h : Group := { g with replay := [] }
      let a := pc.toNat
      h.choose h.agingDue (fun p => s'.atConvergence h t.asid p.toNat) = some (pc, ptr) → a % 4 = 0 → windowOf a = .global →
      translate (s'.unpark g.vd key pc) (dieOf g.core) (some g.core) g.vd t.asid a 3 = .ok (e, u) →
      ((e.loc a).space = .remote → (g.vd, .group key) ∉ u.late) → u.admits g.vd (e.loc a) ((e.loc a).addr, 1) false = true →
      u.engineBad (dieOf g.core) (e.loc a) (e.loc a).addr 1 = false →
      let w := u.peekCode h t.asid a (min (blockLeft a) 16)
      (∀ k, who = .group key ∨ who = .part key k → (u.setGroup key h).CanTrap key h →
        let len := lenBytes (BitVec.ofNat 128 w)
        let traps (cause b : Nat) : Prop := ∃ t, step s = .next t ∧
          h.Entered (mget {} t.groups key) ⟨cause, BitVec.ofNat 32 b, BitVec.ofNat 32 (b / 2 ^ 32), BitVec.ofNat 32 (b / 2 ^ 64), 0⟩
        let beyond (r : Row) : Prop := ∃ x ∈ r.groups, g.ngen + g.ncmp < x.1 + x.2
        (w % 4 = 3 ∨ blockLeft a < len → traps 1 (u.peekCode h t.asid a 12 % 2 ^ 96)) ∧
        (w % 4 ≠ 3 → len ≤ blockLeft a →
          (formOf w = none → traps 1 (w % 2 ^ (8 * len))) ∧
          (formOf w ≠ none → g.role.permits (opcOf w) = false → traps 4 (w % 2 ^ (8 * len))) ∧
          (formOf w ≠ none → g.role.permits (opcOf w) = true →
            (decode w = .illegalInstr → traps 1 (w % 2 ^ (8 * len))) ∧ (decode w = .illegalOperand → traps 2 (w % 2 ^ (8 * len))) ∧
            (decode w = .ok i n → i.row = some r → beyond r ∨ keepsBeyond h i = true → traps 2 (w % 2 ^ (8 * len)))))) ∧
      (decode w = .ok i n → i.row = some r → w % 4 ≠ 3 → n ≤ blockLeft a → g.role.permits (opcOf w) = true →
      (∀ x ∈ r.groups, x.1 + x.2 ≤ g.ngen + g.ncmp) → keepsBeyond h i = false → h.inWindow r = none → u.binPending key r = false →
      let h' : Group := { h.issued ptr with wait := {} }
      let q := (u.setGroup key h').startIssue key h' pc w n (h.runAt pc) r
      (who = .group key → step s = exec i q) ∧ ∀ k, who = .part key k → step s = exec i { q with iss := { q.iss with stop := some k } })) ∧
    (∀ i, s.agenda = ⟨c, ns, .event i, skew⟩ :: rest → s.stopped = false → Instr.isEvent i = true → step s = exec i s') ∧
    (s.agenda = ⟨c, ns, .event .deviceReset, skew⟩ :: rest → step s = exec .deviceReset s') ∧
    (∀ i, s.agenda = ⟨c, ns, .freor, skew⟩ :: rest → s.stopped = false → s.cmdEn = true → s.cmdLog ≤ 4 → s.cmdBase % (64 * s.cmdSize) = 0 → s.cmdProd ≠ s.cmdCons →
      commandOf (BitVec.ofNat 512 (s.hostNat s.cmdAddr 64)) = some i → step s = exec i s') ∧
    (∀ w, s.agenda = ⟨c, ns, w, skew⟩ :: rest → s.stopped = true → w ≠ .event .deviceReset → step s = .fault .stopped) ∧
    (s.agenda = [] → step s = .next (s.tick 1 0))

/-- R213, R228: every step keeps every store of the device in canonical form.
The model's own choices: log entry 5. -/
def Obligations.StepKeepsSafe : Prop := ∀ s t : State, s.safe → step s = .next t → t.safe

/-- R12, R386, R388, R394, R414, R420, R421: what reset leaves: no VD, team or group, every store empty and
in canonical form, no poison, the command and error rings disabled, and a VD's fields at their
reset values.
The model's own choices: log entry 4. -/
def Obligations.ResetValues : Prop :=
  State.reset.safe ∧ State.reset.teams = [] ∧ State.reset.groups = [] ∧ State.reset.mem.hbmPoison = [] ∧ State.reset.mem.pb = [] ∧
  State.reset.cmdEn = false ∧ State.reset.cmdProd = 0 ∧ State.reset.cmdCons = 0 ∧ State.reset.err.eren = false ∧ State.reset.err.seq = 1 ∧
  State.reset.kactl = 7 ∧ State.reset.stopped = false ∧
  ∀ k, (State.reset.vd k).st = .free ∧ (State.reset.vd k).inc = 0 ∧ (State.reset.vd k).hard = false ∧ (State.reset.vd k).modes = 0 ∧
    (State.reset.vd k).tlock = false ∧ (State.reset.vd k).fault.fben = false ∧ (State.reset.vd k).err.eren = false ∧
    ∀ i < 4, mget 0 (State.reset.vd k).hbmWeir i = 16 ∧ mget 0 (State.reset.vd k).brxWeir i = 16
end

