-- ==== Sys2Proof/Laws/Bits.lean ====
section
/-! SUPPORT. Laws of Bits: lane masks, fields, wrapping and the byte order. -/
namespace Sys2Proof

/-- One more lane of a mask being built. -/
theorem getLsbD_maskStep (f : Nat → Bool) (m : Word) (i l : Nat) (hi : i < 32) :
    (if f i then m ||| BitVec.ofNat 32 (2 ^ i) else m).getLsbD l = (m.getLsbD l || (f i && decide (l = i))) := by
  have h : (BitVec.ofNat 32 (2 ^ i)).getLsbD l = decide (l = i) := by
    simp only [BitVec.getLsbD_ofNat, Nat.testBit_two_pow]
    by_cases h : l = i
    · subst h; simp [hi]
    · simp [Ne.symm h, h]
  by_cases hf : f i
  · simp only [hf, if_true, BitVec.getLsbD_or, h, Bool.true_and]
  · simp [hf]

theorem getLsbD_maskFold (f : Nat → Bool) (ns : List Nat) (m : Word) (l : Nat) (h : ∀ i ∈ ns, i < 32) :
    (ns.foldl (fun m i => if f i then m ||| BitVec.ofNat 32 (2 ^ i) else m) m).getLsbD l = (m.getLsbD l || (f l && decide (l ∈ ns))) := by
  induction ns generalizing m with
  | nil => simp
  | cons i ns ih =>
    rw [List.foldl_cons, ih _ fun j hj => h j (List.mem_cons_of_mem _ hj), getLsbD_maskStep f m i l (h i (by simp))]
    by_cases hl : l = i
    · subst hl; cases m.getLsbD l <;> cases f l <;> simp
    · simp [hl]

/-- Lane `l` of a mask is what the mask was made from. -/
@[simp] theorem getLsbD_maskOf (f : Nat → Bool) (l : Nat) : (maskOf f).getLsbD l = (decide (l < 32) && f l) := by
  rw [maskOf, getLsbD_maskFold f _ _ l (by simp)]
  simp [Bool.and_comm]

/-- A wrapped integer, as a bit pattern of `n` bits, is the integer's own. -/
theorem ofNat_wrap (x : Int) (n : Nat) : BitVec.ofNat n (wrap x n) = BitVec.ofInt n x := by
  apply BitVec.eq_of_toNat_eq
  simp only [wrap, BitVec.toNat_ofNat, BitVec.toNat_ofInt]
  have h : (0 : Int) ≤ x % 2 ^ n := Int.emod_nonneg _ (by positivity)
  have h2 : x % 2 ^ n < 2 ^ n := Int.emod_lt_of_pos _ (by positivity)
  rw [Nat.mod_eq_of_lt]
  · norm_cast
  · have : ((x % 2 ^ n).toNat : Int) < (2 ^ n : Nat) := by rw [Int.toNat_of_nonneg h]; push_cast; exact h2
    exact_mod_cast this

/-- `sext` is the two's complement reading of a bit vector. -/
theorem sext_eq_toInt (x : Nat) {n : Nat} (h : 0 < n) : sext x n = (BitVec.ofNat n x).toInt := by
  obtain ⟨k, rfl⟩ : ∃ k, n = k + 1 := ⟨n - 1, by omega⟩
  simp only [sext, BitVec.toInt_eq_toNat_cond, BitVec.toNat_ofNat, Nat.add_sub_cancel, pow_succ, Nat.succ_ne_zero, if_false]
  have : x % (2 ^ k * 2) < 2 ^ k ↔ 2 * (x % (2 ^ k * 2)) < 2 ^ k * 2 := by omega
  by_cases hx : x % (2 ^ k * 2) < 2 ^ k
  · rw [if_pos hx, if_pos (this.1 hx)]
  · rw [if_neg hx, if_neg (fun h => hx (this.2 h))]; push_cast; ring_nf
theorem zext_eq_toNat (x n : Nat) : zext x n = (BitVec.ofNat n x).toNat := by simp [zext]
/-- Wrapping a number is taking its low bits. -/
theorem wrap_natCast (x n : Nat) : wrap (x : Int) n = x % 2 ^ n := by
  unfold wrap
  have : ((x : Int) % 2 ^ n) = ((x % 2 ^ n : Nat) : Int) := by push_cast; rfl
  rw [this, Int.toNat_natCast]
theorem wrap_lt (x : Int) (n : Nat) : wrap x n < 2 ^ n := by
  have h : (0 : Int) ≤ x % 2 ^ n := Int.emod_nonneg _ (by positivity)
  have h2 : x % 2 ^ n < 2 ^ n := Int.emod_lt_of_pos _ (by positivity)
  have : (wrap x n : Int) < (2 ^ n : Nat) := by unfold wrap; rw [Int.toNat_of_nonneg h]; push_cast; exact h2
  exact_mod_cast this

theorem leBytes_length (n x : Nat) : (leBytes n x).length = n := by
  induction n generalizing x with
  | zero => rfl
  | succ n ih => simp [leBytes, ih]

/-- The bytes of a number, read back in the byte order of R3. -/
theorem leNat_leBytes (n x : Nat) : leNat (leBytes n x) = x % 256 ^ n := by
  induction n generalizing x with
  | zero => simp [leBytes, leNat, Nat.mod_one]
  | succ n ih =>
    rw [leBytes, leNat, ih, BitVec.toNat_ofNat]
    rw [show 256 ^ (n + 1) = 256 * 256 ^ n by ring, Nat.mod_mul]

theorem leNat_lt (bs : List Byte) : leNat bs < 256 ^ bs.length := by
  induction bs with
  | nil => simp [leNat]
  | cons b bs ih =>
    simp only [leNat, List.length_cons, pow_succ]
    have := b.isLt
    omega

end Sys2Proof
end

