-- ==== Sys2Proof/Laws/PerInstr.lean ====
section
/-! SUPPORT. PerInstr: per instruction, the control field of its row names the instruction again (R73 to R82). -/
namespace Sys2Proof

/-! ## The codes of the sub-fields -/

theorem b2n_lt (x : Bool) : b2n x < 2 := by cases x <;> decide
theorem bit_eq {n k : Nat} {x : Bool} (h : n / 2 ^ k % 2 = b2n x) : bit n k = x := by
  unfold bit; rw [h]; cases x <;> rfl
theorem BrCond.code_lt (x : BrCond) : x.code < 2 ^ 2 := by cases x <;> decide
@[simp] theorem BrCond.ofCode_code (x : BrCond) : BrCond.ofCode x.code = some x := by cases x <;> rfl
theorem Cmp.code_lt (x : Cmp) : x.code < 2 ^ 3 := by cases x <;> decide
@[simp] theorem Cmp.ofCode_code (x : Cmp) : Cmp.ofCode x.code = some x := by cases x <;> rfl
theorem CollAlg.code_lt (x : CollAlg) : x.code < 2 ^ 2 := by cases x <;> decide
@[simp] theorem CollAlg.ofCode_code (x : CollAlg) : CollAlg.ofCode x.code = some x := by cases x <;> rfl
theorem CollOp.code_lt (x : CollOp) : x.code < 2 ^ 4 := by cases x <;> decide
@[simp] theorem CollOp.ofCode_code (x : CollOp) : CollOp.ofCode x.code = some x := by cases x <;> rfl
theorem CollTy.code_lt (x : CollTy) : x.code < 2 ^ 4 := by cases x <;> decide
@[simp] theorem CollTy.ofCode_code (x : CollTy) : CollTy.ofCode x.code = some x := by cases x <;> rfl
theorem FCmp.code_lt (x : FCmp) : x.code < 2 ^ 3 := by cases x <;> decide
@[simp] theorem FCmp.ofCode_code (x : FCmp) : FCmp.ofCode x.code = some x := by cases x <;> rfl
theorem LdHint.code_lt (x : LdHint) : x.code < 2 ^ 2 := by cases x <;> decide
@[simp] theorem LdHint.ofCode_code (x : LdHint) : LdHint.ofCode x.code = some x := by cases x <;> rfl
theorem MFmt.code_lt (x : MFmt) : x.code < 2 ^ 4 := by cases x <;> decide
@[simp] theorem MFmt.ofCode_code (x : MFmt) : MFmt.ofCode x.code = some x := by cases x <;> rfl
theorem MemOrd.code_lt (x : MemOrd) : x.code < 2 ^ 3 := by cases x <;> decide
@[simp] theorem MemOrd.ofCode_code (x : MemOrd) : MemOrd.ofCode x.code = some x := by cases x <;> rfl
theorem PrefHint.code_lt (x : PrefHint) : x.code < 2 ^ 2 := by cases x <;> decide
@[simp] theorem PrefHint.ofCode_code (x : PrefHint) : PrefHint.ofCode x.code = some x := by cases x <;> rfl
theorem RedOp.code_lt (x : RedOp) : x.code < 2 ^ 2 := by cases x <;> decide
@[simp] theorem RedOp.ofCode_code (x : RedOp) : RedOp.ofCode x.code = some x := by cases x <;> rfl
theorem Rnd.code_lt (x : Rnd) : x.code < 2 ^ 2 := by cases x <;> decide
@[simp] theorem Rnd.ofCode_code (x : Rnd) : Rnd.ofCode x.code = x := by cases x <;> rfl
theorem Scope.code_lt (x : Scope) : x.code < 2 ^ 3 := by cases x <;> decide
@[simp] theorem Scope.ofCode_code (x : Scope) : Scope.ofCode x.code = some x := by cases x <;> rfl
theorem SigCmp.code_lt (x : SigCmp) : x.code < 2 ^ 2 := by cases x <;> decide
@[simp] theorem SigCmp.ofCode_code (x : SigCmp) : SigCmp.ofCode x.code = some x := by cases x <;> rfl
theorem TileFmt.code_lt (x : TileFmt) : x.code < 2 ^ 2 := by cases x <;> decide
@[simp] theorem TileFmt.ofCode_code (x : TileFmt) : TileFmt.ofCode x.code = some x := by cases x <;> rfl
theorem Ty.code_lt (x : Ty) : x.code < 2 ^ 5 := by cases x <;> decide
@[simp] theorem Ty.ofCode_code (x : Ty) : Ty.ofCode x.code = some x := by cases x <;> rfl
theorem VoteMode.code_lt (x : VoteMode) : x.code < 2 ^ 2 := by cases x <;> decide
@[simp] theorem VoteMode.ofCode_code (x : VoteMode) : VoteMode.ofCode x.code = x := by cases x <;> rfl
theorem XchMode.code_lt (x : XchMode) : x.code < 2 ^ 2 := by cases x <;> decide
@[simp] theorem XchMode.ofCode_code (x : XchMode) : XchMode.ofCode x.code = x := by cases x <;> rfl
theorem AtomOp.ctl_parts (x : AtomOp) : ∃ q r, q < 4 ∧ r < 4 ∧ x.code / 4 = q ∧ x.code % 4 = r ∧ x.ctl = r * 32 + q * 8192 :=
  ⟨_, _, by cases x <;> decide, by cases x <;> decide, rfl, rfl, rfl⟩
theorem AtomOp.ofCtl_of {n : Nat} {x : AtomOp} (h : fld n 14 13 = x.code / 4) (k : fld n 6 5 = x.code % 4) : AtomOp.ofCtl n = some x := by
  unfold AtomOp.ofCtl; rw [h, k]; cases x <;> rfl

/-! ## The family -/

/-- The instruction that a row's opcode and control field name. -/
def Row.names : Row → Option Instr
  | .ops opc o ctl _ _ _ => buildOps opc ctl o
  | .br opc o ctl _ _ _ _ => buildBr opc ctl o
  | .eng opc o ctl desc _ _ => buildEng opc ctl desc o
  | .mat opc o ctl mcw _ _ => buildMat opc ctl mcw o
/-- The control field fits its place in the layout (R75 to R80). -/
def Row.narrow : Row → Prop
  | .ops _ _ ctl _ _ _ => ctl < 2 ^ 15
  | .br _ _ ctl _ _ _ _ => ctl < 2 ^ 27
  | .eng _ _ ctl desc _ _ => ctl < 2 ^ 7 ∧ desc < 2 ^ 64
  | .mat _ _ ctl mcw _ _ => ctl < 2 ^ 17 ∧ mcw < 2 ^ 64

namespace Laws

/-- The row of an instruction, if it has one, names the instruction, and its control field fits. -/
def ControlField.Statement (i : Instr) : Prop := ∀ r, i.row = some r → r.names = some i ∧ r.narrow

theorem Row.names_none {i : Instr} (h : i.row = none) : ControlField.Statement i := fun r hr => by rw [h] at hr; exact absurd hr (by simp)
theorem Row.names_some {i : Instr} {r : Row} (h : i.row = some r) (hn : r.names = some i) (hw : r.narrow) : ControlField.Statement i :=
  fun q hq => by rw [h] at hq; cases hq; exact ⟨hn, hw⟩

theorem ControlField.nop : ControlField.Statement (.nop ) := by
  refine Row.names_some rfl ?_ (show (0) < 2 ^ 15 by omega)
  rfl
theorem ControlField.bra (cond : BrCond) (o : BrOps) : ControlField.Statement (.bra cond o) := by
  have := cond.code_lt
  have f1 : fld (cond.code) 1 0 = cond.code := by unfold fld; omega
  refine Row.names_some rfl ?_ (show (cond.code) < 2 ^ 27 by omega)
  simp [Row.names, buildBr, f1]
theorem ControlField.brc (ty : Ty) (cm : Cmp) (o : BrOps) : ControlField.Statement (.brc ty cm o) := by
  have := cm.code_lt
  have := ty.code_lt
  have f1 : fld (ty.code + cm.code * 32) 4 0 = ty.code := by unfold fld; omega
  have f2 : fld (ty.code + cm.code * 32) 8 5 = cm.code := by unfold fld; omega
  refine Row.names_some rfl ?_ (show (ty.code + cm.code * 32) < 2 ^ 27 by omega)
  simp [Row.names, buildBr, f1, f2]
theorem ControlField.brx (o : Ops) : ControlField.Statement (.brx o) := by
  refine Row.names_some rfl ?_ (show (0) < 2 ^ 15 by omega)
  rfl
theorem ControlField.call (o : BrOps) : ControlField.Statement (.call o) := by
  refine Row.names_some rfl ?_ (show (0) < 2 ^ 27 by omega)
  rfl
theorem ControlField.ret (o : Ops) : ControlField.Statement (.ret o) := by
  refine Row.names_some rfl ?_ (show (0) < 2 ^ 15 by omega)
  rfl
theorem ControlField.exit (o : Ops) : ControlField.Statement (.exit o) := by
  refine Row.names_some rfl ?_ (show (0) < 2 ^ 15 by omega)
  rfl
theorem ControlField.yield (o : Ops) : ControlField.Statement (.yield o) := by
  refine Row.names_some rfl ?_ (show (0) < 2 ^ 15 by omega)
  rfl
theorem ControlField.sleepc (o : Ops) : ControlField.Statement (.sleepc o) := by
  refine Row.names_some rfl ?_ (show (0) < 2 ^ 15 by omega)
  rfl
theorem ControlField.trap (o : Ops) : ControlField.Statement (.trap o) := by
  refine Row.names_some rfl ?_ (show (0) < 2 ^ 15 by omega)
  rfl
theorem ControlField.bkpt (code : BitVec 15) (o : Ops) : ControlField.Statement (.bkpt code o) := by
  have := code.isLt
  have f1 : fld (code.toNat) 14 0 = code.toNat := by unfold fld; omega
  refine Row.names_some rfl ?_ (show (code.toNat) < 2 ^ 15 by omega)
  simp [Row.names, buildOps, buildControl, f1]
theorem ControlField.rtt (o : Ops) : ControlField.Statement (.rtt o) := by
  refine Row.names_some rfl ?_ (show (0) < 2 ^ 15 by omega)
  rfl
theorem ControlField.waitfault (o : Ops) : ControlField.Statement (.waitfault o) := by
  refine Row.names_some rfl ?_ (show (0) < 2 ^ 15 by omega)
  rfl
theorem ControlField.cropen (pmask : BitVec 16) (o : BrOps) : ControlField.Statement (.cropen pmask o) := by
  have := pmask.isLt
  have f1 : fld (pmask.toNat) 15 0 = pmask.toNat := by unfold fld; omega
  refine Row.names_some rfl ?_ (show (pmask.toNat) < 2 ^ 27 by omega)
  simp [Row.names, buildBr, f1]
theorem ControlField.crclose (o : Ops) : ControlField.Statement (.crclose o) := by
  refine Row.names_some rfl ?_ (show (0) < 2 ^ 15 by omega)
  rfl
theorem ControlField.crstat (clr : Bool) (o : Ops) : ControlField.Statement (.crstat clr o) := by
  have := b2n_lt clr
  have f1 : bit (b2n clr) 0 = clr := bit_eq (by omega)
  refine Row.names_some rfl ?_ (show (b2n clr) < 2 ^ 15 by omega)
  simp [Row.names, buildOps, buildControl, f1]
theorem ControlField.spawn (o : Ops) : ControlField.Statement (.spawn o) := by
  refine Row.names_some rfl ?_ (show (0) < 2 ^ 15 by omega)
  rfl
theorem ControlField.join (o : Ops) : ControlField.Statement (.join o) := by
  refine Row.names_some rfl ?_ (show (0) < 2 ^ 15 by omega)
  rfl
theorem ControlField.smstart (o : Ops) : ControlField.Statement (.smstart o) := by
  refine Row.names_some rfl ?_ (show (0) < 2 ^ 15 by omega)
  rfl
theorem ControlField.waitpred (o : Ops) : ControlField.Statement (.waitpred o) := by
  refine Row.names_some rfl ?_ (show (0) < 2 ^ 15 by omega)
  rfl
theorem ControlField.barinit (bar : BitVec 4) (mask : BitVec 5) (o : Ops) : ControlField.Statement (.barinit bar mask o) := by
  have := bar.isLt
  have := mask.isLt
  have f1 : fld (bar.toNat + mask.toNat * 16) 3 0 = bar.toNat := by unfold fld; omega
  have f2 : fld (bar.toNat + mask.toNat * 16) 8 4 = mask.toNat := by unfold fld; omega
  refine Row.names_some rfl ?_ (show (bar.toNat + mask.toNat * 16) < 2 ^ 15 by omega)
  simp [Row.names, buildOps, buildControl, f1, f2]
theorem ControlField.bara (bar : BitVec 4) (o : Ops) : ControlField.Statement (.bara bar o) := by
  have := bar.isLt
  have f1 : fld (bar.toNat) 3 0 = bar.toNat := by unfold fld; omega
  refine Row.names_some rfl ?_ (show (bar.toNat) < 2 ^ 15 by omega)
  simp [Row.names, buildOps, buildControl, f1]
theorem ControlField.barw (bar : BitVec 4) (o : Ops) : ControlField.Statement (.barw bar o) := by
  have := bar.isLt
  have f1 : fld (bar.toNat) 3 0 = bar.toNat := by unfold fld; omega
  refine Row.names_some rfl ?_ (show (bar.toNat) < 2 ^ 15 by omega)
  simp [Row.names, buildOps, buildControl, f1]
theorem ControlField.bars (bar : BitVec 4) (o : Ops) : ControlField.Statement (.bars bar o) := by
  have := bar.isLt
  have f1 : fld (bar.toNat) 3 0 = bar.toNat := by unfold fld; omega
  refine Row.names_some rfl ?_ (show (bar.toNat) < 2 ^ 15 by omega)
  simp [Row.names, buildOps, buildControl, f1]
theorem ControlField.rninit (rn : BitVec 3) (s1 : BitVec 4) (o : Ops) : ControlField.Statement (.rninit rn s1 o) := by
  have := rn.isLt
  have := s1.isLt
  have f1 : fld (rn.toNat + s1.toNat * 8) 2 0 = rn.toNat := by unfold fld; omega
  have f2 : fld (rn.toNat + s1.toNat * 8) 6 3 = s1.toNat := by unfold fld; omega
  refine Row.names_some rfl ?_ (show (rn.toNat + s1.toNat * 8) < 2 ^ 15 by omega)
  simp [Row.names, buildOps, buildControl, f1, f2]
theorem ControlField.rnpost (rn : BitVec 3) (empty : Bool) (o : Ops) : ControlField.Statement (.rnpost rn empty o) := by
  have := b2n_lt empty
  have := rn.isLt
  have f1 : fld (rn.toNat + b2n empty * 8) 2 0 = rn.toNat := by unfold fld; omega
  have f2 : bit (rn.toNat + b2n empty * 8) 3 = empty := bit_eq (by omega)
  refine Row.names_some rfl ?_ (show (rn.toNat + b2n empty * 8) < 2 ^ 15 by omega)
  simp [Row.names, buildOps, buildControl, f1, f2]
theorem ControlField.rnwait (rn : BitVec 3) (empty : Bool) (o : Ops) : ControlField.Statement (.rnwait rn empty o) := by
  have := b2n_lt empty
  have := rn.isLt
  have f1 : fld (rn.toNat + b2n empty * 8) 2 0 = rn.toNat := by unfold fld; omega
  have f2 : bit (rn.toNat + b2n empty * 8) 3 = empty := bit_eq (by omega)
  refine Row.names_some rfl ?_ (show (rn.toNat + b2n empty * 8) < 2 ^ 15 by omega)
  simp [Row.names, buildOps, buildControl, f1, f2]
theorem ControlField.smov (o : Ops) : ControlField.Statement (.smov o) := by
  refine Row.names_some rfl ?_ (show (0) < 2 ^ 15 by omega)
  rfl
theorem ControlField.sli (o : Ops) : ControlField.Statement (.sli o) := by
  refine Row.names_some rfl ?_ (show (0) < 2 ^ 15 by omega)
  rfl
theorem ControlField.slih (o : Ops) : ControlField.Statement (.slih o) := by
  refine Row.names_some rfl ?_ (show (0) < 2 ^ 15 by omega)
  rfl
theorem ControlField.sadd (ty : Ty) (o : Ops) : ControlField.Statement (.sadd ty o) := by
  have := ty.code_lt
  have f1 : fld (ty.code) 4 0 = ty.code := by unfold fld; omega
  refine Row.names_some rfl ?_ (show (ty.code) < 2 ^ 15 by omega)
  simp [Row.names, buildOps, buildUniform, f1]
theorem ControlField.ssub (ty : Ty) (o : Ops) : ControlField.Statement (.ssub ty o) := by
  have := ty.code_lt
  have f1 : fld (ty.code) 4 0 = ty.code := by unfold fld; omega
  refine Row.names_some rfl ?_ (show (ty.code) < 2 ^ 15 by omega)
  simp [Row.names, buildOps, buildUniform, f1]
theorem ControlField.smul (ty : Ty) (o : Ops) : ControlField.Statement (.smul ty o) := by
  have := ty.code_lt
  have f1 : fld (ty.code) 4 0 = ty.code := by unfold fld; omega
  refine Row.names_some rfl ?_ (show (ty.code) < 2 ^ 15 by omega)
  simp [Row.names, buildOps, buildUniform, f1]
theorem ControlField.smulh (ty : Ty) (o : Ops) : ControlField.Statement (.smulh ty o) := by
  have := ty.code_lt
  have f1 : fld (ty.code) 4 0 = ty.code := by unfold fld; omega
  refine Row.names_some rfl ?_ (show (ty.code) < 2 ^ 15 by omega)
  simp [Row.names, buildOps, buildUniform, f1]
theorem ControlField.smad (ty : Ty) (o : Ops) : ControlField.Statement (.smad ty o) := by
  have := ty.code_lt
  have f1 : fld (ty.code) 4 0 = ty.code := by unfold fld; omega
  refine Row.names_some rfl ?_ (show (ty.code) < 2 ^ 15 by omega)
  simp [Row.names, buildOps, buildUniform, f1]
theorem ControlField.sand (ty : Ty) (o : Ops) : ControlField.Statement (.sand ty o) := by
  have := ty.code_lt
  have f1 : fld (ty.code) 4 0 = ty.code := by unfold fld; omega
  refine Row.names_some rfl ?_ (show (ty.code) < 2 ^ 15 by omega)
  simp [Row.names, buildOps, buildUniform, f1]
theorem ControlField.sor (ty : Ty) (o : Ops) : ControlField.Statement (.sor ty o) := by
  have := ty.code_lt
  have f1 : fld (ty.code) 4 0 = ty.code := by unfold fld; omega
  refine Row.names_some rfl ?_ (show (ty.code) < 2 ^ 15 by omega)
  simp [Row.names, buildOps, buildUniform, f1]
theorem ControlField.sxor (ty : Ty) (o : Ops) : ControlField.Statement (.sxor ty o) := by
  have := ty.code_lt
  have f1 : fld (ty.code) 4 0 = ty.code := by unfold fld; omega
  refine Row.names_some rfl ?_ (show (ty.code) < 2 ^ 15 by omega)
  simp [Row.names, buildOps, buildUniform, f1]
theorem ControlField.sshl (ty : Ty) (o : Ops) : ControlField.Statement (.sshl ty o) := by
  have := ty.code_lt
  have f1 : fld (ty.code) 4 0 = ty.code := by unfold fld; omega
  refine Row.names_some rfl ?_ (show (ty.code) < 2 ^ 15 by omega)
  simp [Row.names, buildOps, buildUniform, f1]
theorem ControlField.sshr (ty : Ty) (o : Ops) : ControlField.Statement (.sshr ty o) := by
  have := ty.code_lt
  have f1 : fld (ty.code) 4 0 = ty.code := by unfold fld; omega
  refine Row.names_some rfl ?_ (show (ty.code) < 2 ^ 15 by omega)
  simp [Row.names, buildOps, buildUniform, f1]
theorem ControlField.ssra (ty : Ty) (o : Ops) : ControlField.Statement (.ssra ty o) := by
  have := ty.code_lt
  have f1 : fld (ty.code) 4 0 = ty.code := by unfold fld; omega
  refine Row.names_some rfl ?_ (show (ty.code) < 2 ^ 15 by omega)
  simp [Row.names, buildOps, buildUniform, f1]
theorem ControlField.smin (ty : Ty) (o : Ops) : ControlField.Statement (.smin ty o) := by
  have := ty.code_lt
  have f1 : fld (ty.code) 4 0 = ty.code := by unfold fld; omega
  refine Row.names_some rfl ?_ (show (ty.code) < 2 ^ 15 by omega)
  simp [Row.names, buildOps, buildUniform, f1]
theorem ControlField.smax (ty : Ty) (o : Ops) : ControlField.Statement (.smax ty o) := by
  have := ty.code_lt
  have f1 : fld (ty.code) 4 0 = ty.code := by unfold fld; omega
  refine Row.names_some rfl ?_ (show (ty.code) < 2 ^ 15 by omega)
  simp [Row.names, buildOps, buildUniform, f1]
theorem ControlField.scmp (ty : Ty) (cm : Cmp) (o : Ops) : ControlField.Statement (.scmp ty cm o) := by
  have := cm.code_lt
  have := ty.code_lt
  have f1 : fld (ty.code + cm.code * 32) 4 0 = ty.code := by unfold fld; omega
  have f2 : fld (ty.code + cm.code * 32) 8 5 = cm.code := by unfold fld; omega
  refine Row.names_some rfl ?_ (show (ty.code + cm.code * 32) < 2 ^ 15 by omega)
  simp [Row.names, buildOps, buildUniform, f1, f2]
theorem ControlField.ssel (ty : Ty) (o : Ops) : ControlField.Statement (.ssel ty o) := by
  have := ty.code_lt
  have f1 : fld (ty.code) 4 0 = ty.code := by unfold fld; omega
  refine Row.names_some rfl ?_ (show (ty.code) < 2 ^ 15 by omega)
  simp [Row.names, buildOps, buildUniform, f1]
theorem ControlField.spopc (ty : Ty) (o : Ops) : ControlField.Statement (.spopc ty o) := by
  have := ty.code_lt
  have f1 : fld (ty.code) 4 0 = ty.code := by unfold fld; omega
  refine Row.names_some rfl ?_ (show (ty.code) < 2 ^ 15 by omega)
  simp [Row.names, buildOps, buildUniform, f1]
theorem ControlField.sclz (ty : Ty) (o : Ops) : ControlField.Statement (.sclz ty o) := by
  have := ty.code_lt
  have f1 : fld (ty.code) 4 0 = ty.code := by unfold fld; omega
  refine Row.names_some rfl ?_ (show (ty.code) < 2 ^ 15 by omega)
  simp [Row.names, buildOps, buildUniform, f1]
theorem ControlField.sld (ty : Ty) (sc : Scope) (od : MemOrd) (o : Ops) : ControlField.Statement (.sld ty sc od o) := by
  have := od.code_lt
  have := sc.code_lt
  have := ty.code_lt
  have f1 : fld (ty.code + sc.code * 128 + od.code * 1024) 4 0 = ty.code := by unfold fld; omega
  have f2 : fld (ty.code + sc.code * 128 + od.code * 1024) 9 7 = sc.code := by unfold fld; omega
  have f3 : fld (ty.code + sc.code * 128 + od.code * 1024) 12 10 = od.code := by unfold fld; omega
  refine Row.names_some rfl ?_ (show (ty.code + sc.code * 128 + od.code * 1024) < 2 ^ 15 by omega)
  simp [Row.names, buildOps, buildUniform, f1, f2, f3]
theorem ControlField.sst (ty : Ty) (sc : Scope) (od : MemOrd) (o : Ops) : ControlField.Statement (.sst ty sc od o) := by
  have := od.code_lt
  have := sc.code_lt
  have := ty.code_lt
  have f1 : fld (ty.code + sc.code * 128 + od.code * 1024) 4 0 = ty.code := by unfold fld; omega
  have f2 : fld (ty.code + sc.code * 128 + od.code * 1024) 9 7 = sc.code := by unfold fld; omega
  have f3 : fld (ty.code + sc.code * 128 + od.code * 1024) 12 10 = od.code := by unfold fld; omega
  refine Row.names_some rfl ?_ (show (ty.code + sc.code * 128 + od.code * 1024) < 2 ^ 15 by omega)
  simp [Row.names, buildOps, buildUniform, f1, f2, f3]
theorem ControlField.srd (idx : BitVec 6) (o : Ops) : ControlField.Statement (.srd idx o) := by
  have := idx.isLt
  have f1 : fld (idx.toNat) 5 0 = idx.toNat := by unfold fld; omega
  refine Row.names_some rfl ?_ (show (idx.toNat) < 2 ^ 15 by omega)
  simp [Row.names, buildOps, buildUniform, f1]
theorem ControlField.swr (idx : BitVec 6) (o : Ops) : ControlField.Statement (.swr idx o) := by
  have := idx.isLt
  have f1 : fld (idx.toNat) 5 0 = idx.toNat := by unfold fld; omega
  refine Row.names_some rfl ?_ (show (idx.toNat) < 2 ^ 15 by omega)
  simp [Row.names, buildOps, buildUniform, f1]
theorem ControlField.pand (o : Ops) : ControlField.Statement (.pand o) := by
  refine Row.names_some rfl ?_ (show (0) < 2 ^ 15 by omega)
  rfl
theorem ControlField.por (o : Ops) : ControlField.Statement (.por o) := by
  refine Row.names_some rfl ?_ (show (0) < 2 ^ 15 by omega)
  rfl
theorem ControlField.pxor (o : Ops) : ControlField.Statement (.pxor o) := by
  refine Row.names_some rfl ?_ (show (0) < 2 ^ 15 by omega)
  rfl
theorem ControlField.pnot (o : Ops) : ControlField.Statement (.pnot o) := by
  refine Row.names_some rfl ?_ (show (0) < 2 ^ 15 by omega)
  rfl
theorem ControlField.pmovs (o : Ops) : ControlField.Statement (.pmovs o) := by
  refine Row.names_some rfl ?_ (show (0) < 2 ^ 15 by omega)
  rfl
theorem ControlField.pmovp (o : Ops) : ControlField.Statement (.pmovp o) := by
  refine Row.names_some rfl ?_ (show (0) < 2 ^ 15 by omega)
  rfl
theorem ControlField.vote (vm : VoteMode) (o : Ops) : ControlField.Statement (.vote vm o) := by
  have := vm.code_lt
  have f1 : fld (vm.code * 32) 6 5 = vm.code := by unfold fld; omega
  refine Row.names_some rfl ?_ (show (vm.code * 32) < 2 ^ 15 by omega)
  simp [Row.names, buildOps, buildLane, f1]
theorem ControlField.lxch (ty : Ty) (xm : XchMode) (wid : BitVec 3) (wrap : Bool) (o : Ops) : ControlField.Statement (.lxch ty xm wid wrap o) := by
  have := b2n_lt wrap
  have := ty.code_lt
  have := wid.isLt
  have := xm.code_lt
  have f1 : fld (ty.code + xm.code * 32 + wid.toNat * 128 + b2n wrap * 1024) 4 0 = ty.code := by unfold fld; omega
  have f2 : fld (ty.code + xm.code * 32 + wid.toNat * 128 + b2n wrap * 1024) 6 5 = xm.code := by unfold fld; omega
  have f3 : fld (ty.code + xm.code * 32 + wid.toNat * 128 + b2n wrap * 1024) 9 7 = wid.toNat := by unfold fld; omega
  have f4 : bit (ty.code + xm.code * 32 + wid.toNat * 128 + b2n wrap * 1024) 10 = wrap := bit_eq (by omega)
  refine Row.names_some rfl ?_ (show (ty.code + xm.code * 32 + wid.toNat * 128 + b2n wrap * 1024) < 2 ^ 15 by omega)
  simp [Row.names, buildOps, buildLane, f1, f2, f3, f4]
theorem ControlField.rdlane (ty : Ty) (o : Ops) : ControlField.Statement (.rdlane ty o) := by
  have := ty.code_lt
  have f1 : fld (ty.code) 4 0 = ty.code := by unfold fld; omega
  refine Row.names_some rfl ?_ (show (ty.code) < 2 ^ 15 by omega)
  simp [Row.names, buildOps, buildLane, f1]
theorem ControlField.wrlane (ty : Ty) (o : Ops) : ControlField.Statement (.wrlane ty o) := by
  have := ty.code_lt
  have f1 : fld (ty.code) 4 0 = ty.code := by unfold fld; omega
  refine Row.names_some rfl ?_ (show (ty.code) < 2 ^ 15 by omega)
  simp [Row.names, buildOps, buildLane, f1]
theorem ControlField.mtch (ty : Ty) (all : Bool) (o : Ops) : ControlField.Statement (.mtch ty all o) := by
  have := b2n_lt all
  have := ty.code_lt
  have f1 : fld (ty.code + b2n all * 32) 4 0 = ty.code := by unfold fld; omega
  have f2 : bit (ty.code + b2n all * 32) 5 = all := bit_eq (by omega)
  refine Row.names_some rfl ?_ (show (ty.code + b2n all * 32) < 2 ^ 15 by omega)
  simp [Row.names, buildOps, buildLane, f1, f2]
theorem ControlField.csrrd (idx : BitVec 12) (o : Ops) : ControlField.Statement (.csrrd idx o) := by
  have := idx.isLt
  have f1 : fld (idx.toNat) 11 0 = idx.toNat := by unfold fld; omega
  refine Row.names_some rfl ?_ (show (idx.toNat) < 2 ^ 15 by omega)
  simp [Row.names, buildOps, buildLane, f1]
theorem ControlField.csrwr (idx : BitVec 12) (o : Ops) : ControlField.Statement (.csrwr idx o) := by
  have := idx.isLt
  have f1 : fld (idx.toNat) 11 0 = idx.toNat := by unfold fld; omega
  refine Row.names_some rfl ?_ (show (idx.toNat) < 2 ^ 15 by omega)
  simp [Row.names, buildOps, buildLane, f1]
theorem ControlField.iadd (ty : Ty) (sat : Bool) (o : Ops) : ControlField.Statement (.iadd ty sat o) := by
  have := b2n_lt sat
  have := ty.code_lt
  have f1 : fld (ty.code + b2n sat * 128) 4 0 = ty.code := by unfold fld; omega
  have f2 : bit (ty.code + b2n sat * 128) 7 = sat := bit_eq (by omega)
  refine Row.names_some rfl ?_ (show (ty.code + b2n sat * 128) < 2 ^ 15 by omega)
  simp [Row.names, buildOps, buildInt, f1, f2]
theorem ControlField.iadd3 (ty : Ty) (o : Ops) : ControlField.Statement (.iadd3 ty o) := by
  have := ty.code_lt
  have f1 : fld (ty.code) 4 0 = ty.code := by unfold fld; omega
  refine Row.names_some rfl ?_ (show (ty.code) < 2 ^ 15 by omega)
  simp [Row.names, buildOps, buildInt, f1]
theorem ControlField.isub (ty : Ty) (sat : Bool) (o : Ops) : ControlField.Statement (.isub ty sat o) := by
  have := b2n_lt sat
  have := ty.code_lt
  have f1 : fld (ty.code + b2n sat * 128) 4 0 = ty.code := by unfold fld; omega
  have f2 : bit (ty.code + b2n sat * 128) 7 = sat := bit_eq (by omega)
  refine Row.names_some rfl ?_ (show (ty.code + b2n sat * 128) < 2 ^ 15 by omega)
  simp [Row.names, buildOps, buildInt, f1, f2]
theorem ControlField.imul (ty : Ty) (o : Ops) : ControlField.Statement (.imul ty o) := by
  have := ty.code_lt
  have f1 : fld (ty.code) 4 0 = ty.code := by unfold fld; omega
  refine Row.names_some rfl ?_ (show (ty.code) < 2 ^ 15 by omega)
  simp [Row.names, buildOps, buildInt, f1]
theorem ControlField.imulh (ty : Ty) (o : Ops) : ControlField.Statement (.imulh ty o) := by
  have := ty.code_lt
  have f1 : fld (ty.code) 4 0 = ty.code := by unfold fld; omega
  refine Row.names_some rfl ?_ (show (ty.code) < 2 ^ 15 by omega)
  simp [Row.names, buildOps, buildInt, f1]
theorem ControlField.imad (ty : Ty) (o : Ops) : ControlField.Statement (.imad ty o) := by
  have := ty.code_lt
  have f1 : fld (ty.code) 4 0 = ty.code := by unfold fld; omega
  refine Row.names_some rfl ?_ (show (ty.code) < 2 ^ 15 by omega)
  simp [Row.names, buildOps, buildInt, f1]
theorem ControlField.imadw (ty : Ty) (o : Ops) : ControlField.Statement (.imadw ty o) := by
  have := ty.code_lt
  have f1 : fld (ty.code) 4 0 = ty.code := by unfold fld; omega
  refine Row.names_some rfl ?_ (show (ty.code) < 2 ^ 15 by omega)
  simp [Row.names, buildOps, buildInt, f1]
theorem ControlField.iabs (ty : Ty) (sat : Bool) (o : Ops) : ControlField.Statement (.iabs ty sat o) := by
  have := b2n_lt sat
  have := ty.code_lt
  have f1 : fld (ty.code + b2n sat * 128) 4 0 = ty.code := by unfold fld; omega
  have f2 : bit (ty.code + b2n sat * 128) 7 = sat := bit_eq (by omega)
  refine Row.names_some rfl ?_ (show (ty.code + b2n sat * 128) < 2 ^ 15 by omega)
  simp [Row.names, buildOps, buildInt, f1, f2]
theorem ControlField.imin (ty : Ty) (o : Ops) : ControlField.Statement (.imin ty o) := by
  have := ty.code_lt
  have f1 : fld (ty.code) 4 0 = ty.code := by unfold fld; omega
  refine Row.names_some rfl ?_ (show (ty.code) < 2 ^ 15 by omega)
  simp [Row.names, buildOps, buildInt, f1]
theorem ControlField.imax (ty : Ty) (o : Ops) : ControlField.Statement (.imax ty o) := by
  have := ty.code_lt
  have f1 : fld (ty.code) 4 0 = ty.code := by unfold fld; omega
  refine Row.names_some rfl ?_ (show (ty.code) < 2 ^ 15 by omega)
  simp [Row.names, buildOps, buildInt, f1]
theorem ControlField.idot4 (ty : Ty) (asg : Bool) (bsg : Bool) (sat : Bool) (o : Ops) : ControlField.Statement (.idot4 ty asg bsg sat o) := by
  have := b2n_lt asg
  have := b2n_lt bsg
  have := b2n_lt sat
  have := ty.code_lt
  have f1 : fld (ty.code + b2n asg * 128 + b2n bsg * 256 + b2n sat * 512) 4 0 = ty.code := by unfold fld; omega
  have f2 : bit (ty.code + b2n asg * 128 + b2n bsg * 256 + b2n sat * 512) 7 = asg := bit_eq (by omega)
  have f3 : bit (ty.code + b2n asg * 128 + b2n bsg * 256 + b2n sat * 512) 8 = bsg := bit_eq (by omega)
  have f4 : bit (ty.code + b2n asg * 128 + b2n bsg * 256 + b2n sat * 512) 9 = sat := bit_eq (by omega)
  refine Row.names_some rfl ?_ (show (ty.code + b2n asg * 128 + b2n bsg * 256 + b2n sat * 512) < 2 ^ 15 by omega)
  simp [Row.names, buildOps, buildInt, f1, f2, f3, f4]
theorem ControlField.and (ty : Ty) (o : Ops) : ControlField.Statement (.and ty o) := by
  have := ty.code_lt
  have f1 : fld (ty.code) 4 0 = ty.code := by unfold fld; omega
  refine Row.names_some rfl ?_ (show (ty.code) < 2 ^ 15 by omega)
  simp [Row.names, buildOps, buildInt, f1]
theorem ControlField.or (ty : Ty) (o : Ops) : ControlField.Statement (.or ty o) := by
  have := ty.code_lt
  have f1 : fld (ty.code) 4 0 = ty.code := by unfold fld; omega
  refine Row.names_some rfl ?_ (show (ty.code) < 2 ^ 15 by omega)
  simp [Row.names, buildOps, buildInt, f1]
theorem ControlField.xor (ty : Ty) (o : Ops) : ControlField.Statement (.xor ty o) := by
  have := ty.code_lt
  have f1 : fld (ty.code) 4 0 = ty.code := by unfold fld; omega
  refine Row.names_some rfl ?_ (show (ty.code) < 2 ^ 15 by omega)
  simp [Row.names, buildOps, buildInt, f1]
theorem ControlField.not (ty : Ty) (o : Ops) : ControlField.Statement (.not ty o) := by
  have := ty.code_lt
  have f1 : fld (ty.code) 4 0 = ty.code := by unfold fld; omega
  refine Row.names_some rfl ?_ (show (ty.code) < 2 ^ 15 by omega)
  simp [Row.names, buildOps, buildInt, f1]
theorem ControlField.shl (ty : Ty) (o : Ops) : ControlField.Statement (.shl ty o) := by
  have := ty.code_lt
  have f1 : fld (ty.code) 4 0 = ty.code := by unfold fld; omega
  refine Row.names_some rfl ?_ (show (ty.code) < 2 ^ 15 by omega)
  simp [Row.names, buildOps, buildInt, f1]
theorem ControlField.shr (ty : Ty) (o : Ops) : ControlField.Statement (.shr ty o) := by
  have := ty.code_lt
  have f1 : fld (ty.code) 4 0 = ty.code := by unfold fld; omega
  refine Row.names_some rfl ?_ (show (ty.code) < 2 ^ 15 by omega)
  simp [Row.names, buildOps, buildInt, f1]
theorem ControlField.sra (ty : Ty) (o : Ops) : ControlField.Statement (.sra ty o) := by
  have := ty.code_lt
  have f1 : fld (ty.code) 4 0 = ty.code := by unfold fld; omega
  refine Row.names_some rfl ?_ (show (ty.code) < 2 ^ 15 by omega)
  simp [Row.names, buildOps, buildInt, f1]
theorem ControlField.shf (ty : Ty) (right : Bool) (wrap : Bool) (o : Ops) : ControlField.Statement (.shf ty right wrap o) := by
  have := b2n_lt right
  have := b2n_lt wrap
  have := ty.code_lt
  have f1 : fld (ty.code + b2n right * 128 + b2n wrap * 256) 4 0 = ty.code := by unfold fld; omega
  have f2 : bit (ty.code + b2n right * 128 + b2n wrap * 256) 7 = right := bit_eq (by omega)
  have f3 : bit (ty.code + b2n right * 128 + b2n wrap * 256) 8 = wrap := bit_eq (by omega)
  refine Row.names_some rfl ?_ (show (ty.code + b2n right * 128 + b2n wrap * 256) < 2 ^ 15 by omega)
  simp [Row.names, buildOps, buildInt, f1, f2, f3]
theorem ControlField.popc (ty : Ty) (o : Ops) : ControlField.Statement (.popc ty o) := by
  have := ty.code_lt
  have f1 : fld (ty.code) 4 0 = ty.code := by unfold fld; omega
  refine Row.names_some rfl ?_ (show (ty.code) < 2 ^ 15 by omega)
  simp [Row.names, buildOps, buildInt, f1]
theorem ControlField.clz (ty : Ty) (o : Ops) : ControlField.Statement (.clz ty o) := by
  have := ty.code_lt
  have f1 : fld (ty.code) 4 0 = ty.code := by unfold fld; omega
  refine Row.names_some rfl ?_ (show (ty.code) < 2 ^ 15 by omega)
  simp [Row.names, buildOps, buildInt, f1]
theorem ControlField.brev (ty : Ty) (o : Ops) : ControlField.Statement (.brev ty o) := by
  have := ty.code_lt
  have f1 : fld (ty.code) 4 0 = ty.code := by unfold fld; omega
  refine Row.names_some rfl ?_ (show (ty.code) < 2 ^ 15 by omega)
  simp [Row.names, buildOps, buildInt, f1]
theorem ControlField.bfe (ty : Ty) (o : Ops) : ControlField.Statement (.bfe ty o) := by
  have := ty.code_lt
  have f1 : fld (ty.code) 4 0 = ty.code := by unfold fld; omega
  refine Row.names_some rfl ?_ (show (ty.code) < 2 ^ 15 by omega)
  simp [Row.names, buildOps, buildInt, f1]
theorem ControlField.bfi (ty : Ty) (o : Ops) : ControlField.Statement (.bfi ty o) := by
  have := ty.code_lt
  have f1 : fld (ty.code) 4 0 = ty.code := by unfold fld; omega
  refine Row.names_some rfl ?_ (show (ty.code) < 2 ^ 15 by omega)
  simp [Row.names, buildOps, buildInt, f1]
theorem ControlField.prmt (ty : Ty) (o : Ops) : ControlField.Statement (.prmt ty o) := by
  have := ty.code_lt
  have f1 : fld (ty.code) 4 0 = ty.code := by unfold fld; omega
  refine Row.names_some rfl ?_ (show (ty.code) < 2 ^ 15 by omega)
  simp [Row.names, buildOps, buildInt, f1]
theorem ControlField.lea (ty : Ty) (k : BitVec 6) (sx : Bool) (o : Ops) : ControlField.Statement (.lea ty k sx o) := by
  have := b2n_lt sx
  have := k.isLt
  have := ty.code_lt
  have f1 : fld (ty.code + k.toNat * 128 + b2n sx * 8192) 4 0 = ty.code := by unfold fld; omega
  have f2 : fld (ty.code + k.toNat * 128 + b2n sx * 8192) 12 7 = k.toNat := by unfold fld; omega
  have f3 : bit (ty.code + k.toNat * 128 + b2n sx * 8192) 13 = sx := bit_eq (by omega)
  refine Row.names_some rfl ?_ (show (ty.code + k.toNat * 128 + b2n sx * 8192) < 2 ^ 15 by omega)
  simp [Row.names, buildOps, buildInt, f1, f2, f3]
theorem ControlField.icmp (ty : Ty) (cm : Cmp) (o : Ops) : ControlField.Statement (.icmp ty cm o) := by
  have := cm.code_lt
  have := ty.code_lt
  have f1 : fld (ty.code + cm.code * 32) 4 0 = ty.code := by unfold fld; omega
  have f2 : fld (ty.code + cm.code * 32) 8 5 = cm.code := by unfold fld; omega
  refine Row.names_some rfl ?_ (show (ty.code + cm.code * 32) < 2 ^ 15 by omega)
  simp [Row.names, buildOps, buildInt, f1, f2]
theorem ControlField.sel (ty : Ty) (o : Ops) : ControlField.Statement (.sel ty o) := by
  have := ty.code_lt
  have f1 : fld (ty.code) 4 0 = ty.code := by unfold fld; omega
  refine Row.names_some rfl ?_ (show (ty.code) < 2 ^ 15 by omega)
  simp [Row.names, buildOps, buildInt, f1]
theorem ControlField.mov (ty : Ty) (o : Ops) : ControlField.Statement (.mov ty o) := by
  have := ty.code_lt
  have f1 : fld (ty.code) 4 0 = ty.code := by unfold fld; omega
  refine Row.names_some rfl ?_ (show (ty.code) < 2 ^ 15 by omega)
  simp [Row.names, buildOps, buildInt, f1]
theorem ControlField.movi (ty : Ty) (o : Ops) : ControlField.Statement (.movi ty o) := by
  have := ty.code_lt
  have f1 : fld (ty.code) 4 0 = ty.code := by unfold fld; omega
  refine Row.names_some rfl ?_ (show (ty.code) < 2 ^ 15 by omega)
  simp [Row.names, buildOps, buildInt, f1]
theorem ControlField.mova (ty : Ty) (o : Ops) : ControlField.Statement (.mova ty o) := by
  have := ty.code_lt
  have f1 : fld (ty.code) 4 0 = ty.code := by unfold fld; omega
  refine Row.names_some rfl ?_ (show (ty.code) < 2 ^ 15 by omega)
  simp [Row.names, buildOps, buildInt, f1]
theorem ControlField.fadd (ty : Ty) (m : Rnd) (o : Ops) : ControlField.Statement (.fadd ty m o) := by
  have := m.code_lt
  have := ty.code_lt
  have f1 : fld (ty.code + m.code * 32) 4 0 = ty.code := by unfold fld; omega
  have f2 : fld (ty.code + m.code * 32) 6 5 = m.code := by unfold fld; omega
  refine Row.names_some rfl ?_ (show (ty.code + m.code * 32) < 2 ^ 15 by omega)
  simp [Row.names, buildOps, buildFloat, f1, f2]
theorem ControlField.fsub (ty : Ty) (m : Rnd) (o : Ops) : ControlField.Statement (.fsub ty m o) := by
  have := m.code_lt
  have := ty.code_lt
  have f1 : fld (ty.code + m.code * 32) 4 0 = ty.code := by unfold fld; omega
  have f2 : fld (ty.code + m.code * 32) 6 5 = m.code := by unfold fld; omega
  refine Row.names_some rfl ?_ (show (ty.code + m.code * 32) < 2 ^ 15 by omega)
  simp [Row.names, buildOps, buildFloat, f1, f2]
theorem ControlField.fmul (ty : Ty) (m : Rnd) (o : Ops) : ControlField.Statement (.fmul ty m o) := by
  have := m.code_lt
  have := ty.code_lt
  have f1 : fld (ty.code + m.code * 32) 4 0 = ty.code := by unfold fld; omega
  have f2 : fld (ty.code + m.code * 32) 6 5 = m.code := by unfold fld; omega
  refine Row.names_some rfl ?_ (show (ty.code + m.code * 32) < 2 ^ 15 by omega)
  simp [Row.names, buildOps, buildFloat, f1, f2]
theorem ControlField.fma (ty : Ty) (m : Rnd) (o : Ops) : ControlField.Statement (.fma ty m o) := by
  have := m.code_lt
  have := ty.code_lt
  have f1 : fld (ty.code + m.code * 32) 4 0 = ty.code := by unfold fld; omega
  have f2 : fld (ty.code + m.code * 32) 6 5 = m.code := by unfold fld; omega
  refine Row.names_some rfl ?_ (show (ty.code + m.code * 32) < 2 ^ 15 by omega)
  simp [Row.names, buildOps, buildFloat, f1, f2]
theorem ControlField.fmin (ty : Ty) (o : Ops) : ControlField.Statement (.fmin ty o) := by
  have := ty.code_lt
  have f1 : fld (ty.code) 4 0 = ty.code := by unfold fld; omega
  refine Row.names_some rfl ?_ (show (ty.code) < 2 ^ 15 by omega)
  simp [Row.names, buildOps, buildFloat, f1]
theorem ControlField.fmax (ty : Ty) (o : Ops) : ControlField.Statement (.fmax ty o) := by
  have := ty.code_lt
  have f1 : fld (ty.code) 4 0 = ty.code := by unfold fld; omega
  refine Row.names_some rfl ?_ (show (ty.code) < 2 ^ 15 by omega)
  simp [Row.names, buildOps, buildFloat, f1]
theorem ControlField.fcmp (ty : Ty) (cm : FCmp) (o : Ops) : ControlField.Statement (.fcmp ty cm o) := by
  have := cm.code_lt
  have := ty.code_lt
  have f1 : fld (ty.code + cm.code * 32) 4 0 = ty.code := by unfold fld; omega
  have f2 : fld (ty.code + cm.code * 32) 8 5 = cm.code := by unfold fld; omega
  refine Row.names_some rfl ?_ (show (ty.code + cm.code * 32) < 2 ^ 15 by omega)
  simp [Row.names, buildOps, buildFloat, f1, f2]
theorem ControlField.fclass (ty : Ty) (o : Ops) : ControlField.Statement (.fclass ty o) := by
  have := ty.code_lt
  have f1 : fld (ty.code) 4 0 = ty.code := by unfold fld; omega
  refine Row.names_some rfl ?_ (show (ty.code) < 2 ^ 15 by omega)
  simp [Row.names, buildOps, buildFloat, f1]
theorem ControlField.frnd (ty : Ty) (m : Rnd) (o : Ops) : ControlField.Statement (.frnd ty m o) := by
  have := m.code_lt
  have := ty.code_lt
  have f1 : fld (ty.code + m.code * 32) 4 0 = ty.code := by unfold fld; omega
  have f2 : fld (ty.code + m.code * 32) 6 5 = m.code := by unfold fld; omega
  refine Row.names_some rfl ?_ (show (ty.code + m.code * 32) < 2 ^ 15 by omega)
  simp [Row.names, buildOps, buildFloat, f1, f2]
theorem ControlField.frcp (ty : Ty) (m : Rnd) (o : Ops) : ControlField.Statement (.frcp ty m o) := by
  have := m.code_lt
  have := ty.code_lt
  have f1 : fld (ty.code + m.code * 32) 4 0 = ty.code := by unfold fld; omega
  have f2 : fld (ty.code + m.code * 32) 6 5 = m.code := by unfold fld; omega
  refine Row.names_some rfl ?_ (show (ty.code + m.code * 32) < 2 ^ 15 by omega)
  simp [Row.names, buildOps, buildFloat, f1, f2]
theorem ControlField.frsq (ty : Ty) (m : Rnd) (o : Ops) : ControlField.Statement (.frsq ty m o) := by
  have := m.code_lt
  have := ty.code_lt
  have f1 : fld (ty.code + m.code * 32) 4 0 = ty.code := by unfold fld; omega
  have f2 : fld (ty.code + m.code * 32) 6 5 = m.code := by unfold fld; omega
  refine Row.names_some rfl ?_ (show (ty.code + m.code * 32) < 2 ^ 15 by omega)
  simp [Row.names, buildOps, buildFloat, f1, f2]
theorem ControlField.fsqrt (ty : Ty) (m : Rnd) (o : Ops) : ControlField.Statement (.fsqrt ty m o) := by
  have := m.code_lt
  have := ty.code_lt
  have f1 : fld (ty.code + m.code * 32) 4 0 = ty.code := by unfold fld; omega
  have f2 : fld (ty.code + m.code * 32) 6 5 = m.code := by unfold fld; omega
  refine Row.names_some rfl ?_ (show (ty.code + m.code * 32) < 2 ^ 15 by omega)
  simp [Row.names, buildOps, buildFloat, f1, f2]
theorem ControlField.fdiv (ty : Ty) (m : Rnd) (o : Ops) : ControlField.Statement (.fdiv ty m o) := by
  have := m.code_lt
  have := ty.code_lt
  have f1 : fld (ty.code + m.code * 32) 4 0 = ty.code := by unfold fld; omega
  have f2 : fld (ty.code + m.code * 32) 6 5 = m.code := by unfold fld; omega
  refine Row.names_some rfl ?_ (show (ty.code + m.code * 32) < 2 ^ 15 by omega)
  simp [Row.names, buildOps, buildFloat, f1, f2]
theorem ControlField.fexp2 (ty : Ty) (o : Ops) : ControlField.Statement (.fexp2 ty o) := by
  have := ty.code_lt
  have f1 : fld (ty.code) 4 0 = ty.code := by unfold fld; omega
  refine Row.names_some rfl ?_ (show (ty.code) < 2 ^ 15 by omega)
  simp [Row.names, buildOps, buildFloat, f1]
theorem ControlField.flog2 (ty : Ty) (o : Ops) : ControlField.Statement (.flog2 ty o) := by
  have := ty.code_lt
  have f1 : fld (ty.code) 4 0 = ty.code := by unfold fld; omega
  refine Row.names_some rfl ?_ (show (ty.code) < 2 ^ 15 by omega)
  simp [Row.names, buildOps, buildFloat, f1]
theorem ControlField.fsin (ty : Ty) (o : Ops) : ControlField.Statement (.fsin ty o) := by
  have := ty.code_lt
  have f1 : fld (ty.code) 4 0 = ty.code := by unfold fld; omega
  refine Row.names_some rfl ?_ (show (ty.code) < 2 ^ 15 by omega)
  simp [Row.names, buildOps, buildFloat, f1]
theorem ControlField.fcos (ty : Ty) (o : Ops) : ControlField.Statement (.fcos ty o) := by
  have := ty.code_lt
  have f1 : fld (ty.code) 4 0 = ty.code := by unfold fld; omega
  refine Row.names_some rfl ?_ (show (ty.code) < 2 ^ 15 by omega)
  simp [Row.names, buildOps, buildFloat, f1]
theorem ControlField.ftanh (ty : Ty) (o : Ops) : ControlField.Statement (.ftanh ty o) := by
  have := ty.code_lt
  have f1 : fld (ty.code) 4 0 = ty.code := by unfold fld; omega
  refine Row.names_some rfl ?_ (show (ty.code) < 2 ^ 15 by omega)
  simp [Row.names, buildOps, buildFloat, f1]
theorem ControlField.fscale (ty : Ty) (m : Rnd) (o : Ops) : ControlField.Statement (.fscale ty m o) := by
  have := m.code_lt
  have := ty.code_lt
  have f1 : fld (ty.code + m.code * 32) 4 0 = ty.code := by unfold fld; omega
  have f2 : fld (ty.code + m.code * 32) 6 5 = m.code := by unfold fld; omega
  refine Row.names_some rfl ?_ (show (ty.code + m.code * 32) < 2 ^ 15 by omega)
  simp [Row.names, buildOps, buildFloat, f1, f2]
theorem ControlField.ffrac (ty : Ty) (o : Ops) : ControlField.Statement (.ffrac ty o) := by
  have := ty.code_lt
  have f1 : fld (ty.code) 4 0 = ty.code := by unfold fld; omega
  refine Row.names_some rfl ?_ (show (ty.code) < 2 ^ 15 by omega)
  simp [Row.names, buildOps, buildFloat, f1]
theorem ControlField.pkadd (ty : Ty) (m : Rnd) (o : Ops) : ControlField.Statement (.pkadd ty m o) := by
  have := m.code_lt
  have := ty.code_lt
  have f1 : fld (ty.code + m.code * 32) 4 0 = ty.code := by unfold fld; omega
  have f2 : fld (ty.code + m.code * 32) 6 5 = m.code := by unfold fld; omega
  refine Row.names_some rfl ?_ (show (ty.code + m.code * 32) < 2 ^ 15 by omega)
  simp [Row.names, buildOps, buildFloat, f1, f2]
theorem ControlField.pkmul (ty : Ty) (m : Rnd) (o : Ops) : ControlField.Statement (.pkmul ty m o) := by
  have := m.code_lt
  have := ty.code_lt
  have f1 : fld (ty.code + m.code * 32) 4 0 = ty.code := by unfold fld; omega
  have f2 : fld (ty.code + m.code * 32) 6 5 = m.code := by unfold fld; omega
  refine Row.names_some rfl ?_ (show (ty.code + m.code * 32) < 2 ^ 15 by omega)
  simp [Row.names, buildOps, buildFloat, f1, f2]
theorem ControlField.pkfma (ty : Ty) (m : Rnd) (o : Ops) : ControlField.Statement (.pkfma ty m o) := by
  have := m.code_lt
  have := ty.code_lt
  have f1 : fld (ty.code + m.code * 32) 4 0 = ty.code := by unfold fld; omega
  have f2 : fld (ty.code + m.code * 32) 6 5 = m.code := by unfold fld; omega
  refine Row.names_some rfl ?_ (show (ty.code + m.code * 32) < 2 ^ 15 by omega)
  simp [Row.names, buildOps, buildFloat, f1, f2]
theorem ControlField.cvt (ty : Ty) (m : Rnd) (sty : Ty) (sat : Bool) (o : Ops) : ControlField.Statement (.cvt ty m sty sat o) := by
  have := b2n_lt sat
  have := m.code_lt
  have := sty.code_lt
  have := ty.code_lt
  have f1 : fld (ty.code + m.code * 32 + sty.code * 128 + b2n sat * 4096) 4 0 = ty.code := by unfold fld; omega
  have f2 : fld (ty.code + m.code * 32 + sty.code * 128 + b2n sat * 4096) 6 5 = m.code := by unfold fld; omega
  have f3 : fld (ty.code + m.code * 32 + sty.code * 128 + b2n sat * 4096) 11 7 = sty.code := by unfold fld; omega
  have f4 : bit (ty.code + m.code * 32 + sty.code * 128 + b2n sat * 4096) 12 = sat := bit_eq (by omega)
  have f5 : bit (ty.code + m.code * 32 + sty.code * 128 + b2n sat * 4096) 13 = false := bit_eq (show _ = 0 by omega)
  refine Row.names_some rfl ?_ (show (ty.code + m.code * 32 + sty.code * 128 + b2n sat * 4096) < 2 ^ 15 by omega)
  simp [Row.names, buildOps, buildFloat, f1, f2, f3, f4, f5]
theorem ControlField.cvtUnit (m : Rnd) (o : Ops) : ControlField.Statement (.cvtUnit m o) := by
  have := m.code_lt
  have f2 : fld (m.code * 32 + 8204) 6 5 = m.code := by unfold fld; omega
  have f4 : bit (m.code * 32 + 8204) 12 = false := bit_eq (show _ = 0 by omega)
  have f5 : bit (m.code * 32 + 8204) 13 = true := bit_eq (show _ = 1 by omega)
  refine Row.names_some rfl ?_ (show (m.code * 32 + 8204) < 2 ^ 15 by omega)
  simp [Row.names, buildOps, buildFloat, f2, f5]
theorem ControlField.redl (ty : Ty) (m : Rnd) (rop : RedOp) (o : Ops) : ControlField.Statement (.redl ty m rop o) := by
  have := m.code_lt
  have := rop.code_lt
  have := ty.code_lt
  have f1 : fld (ty.code + m.code * 32 + rop.code * 128) 4 0 = ty.code := by unfold fld; omega
  have f2 : fld (ty.code + m.code * 32 + rop.code * 128) 6 5 = m.code := by unfold fld; omega
  have f3 : fld (ty.code + m.code * 32 + rop.code * 128) 8 7 = rop.code := by unfold fld; omega
  refine Row.names_some rfl ?_ (show (ty.code + m.code * 32 + rop.code * 128) < 2 ^ 15 by omega)
  simp [Row.names, buildOps, buildFloat, f1, f2, f3]
theorem ControlField.rngk (ty : Ty) (w2 : Bool) (o : Ops) : ControlField.Statement (.rngk ty w2 o) := by
  have := b2n_lt w2
  have := ty.code_lt
  have f1 : fld (ty.code + b2n w2 * 128) 4 0 = ty.code := by unfold fld; omega
  have f2 : bit (ty.code + b2n w2 * 128) 7 = w2 := bit_eq (by omega)
  refine Row.names_some rfl ?_ (show (ty.code + b2n w2 * 128) < 2 ^ 15 by omega)
  simp [Row.names, buildOps, buildFloat, f1, f2]
theorem ControlField.ld (ty : Ty) (hint : LdHint) (sc : Scope) (od : MemOrd) (sx : Bool) (nodfr : Bool) (o : Ops) : ControlField.Statement (.ld ty hint sc od sx nodfr o) := by
  have := b2n_lt nodfr
  have := b2n_lt sx
  have := hint.code_lt
  have := od.code_lt
  have := sc.code_lt
  have := ty.code_lt
  have f1 : fld (ty.code + hint.code * 32 + sc.code * 128 + od.code * 1024 + b2n sx * 8192 + b2n nodfr * 16384) 4 0 = ty.code := by unfold fld; omega
  have f2 : fld (ty.code + hint.code * 32 + sc.code * 128 + od.code * 1024 + b2n sx * 8192 + b2n nodfr * 16384) 6 5 = hint.code := by unfold fld; omega
  have f3 : fld (ty.code + hint.code * 32 + sc.code * 128 + od.code * 1024 + b2n sx * 8192 + b2n nodfr * 16384) 9 7 = sc.code := by unfold fld; omega
  have f4 : fld (ty.code + hint.code * 32 + sc.code * 128 + od.code * 1024 + b2n sx * 8192 + b2n nodfr * 16384) 12 10 = od.code := by unfold fld; omega
  have f5 : bit (ty.code + hint.code * 32 + sc.code * 128 + od.code * 1024 + b2n sx * 8192 + b2n nodfr * 16384) 13 = sx := bit_eq (by omega)
  have f6 : bit (ty.code + hint.code * 32 + sc.code * 128 + od.code * 1024 + b2n sx * 8192 + b2n nodfr * 16384) 14 = nodfr := bit_eq (by omega)
  refine Row.names_some rfl ?_ (show (ty.code + hint.code * 32 + sc.code * 128 + od.code * 1024 + b2n sx * 8192 + b2n nodfr * 16384) < 2 ^ 15 by omega)
  simp [Row.names, buildOps, buildMem, f1, f2, f3, f4, f5, f6]
theorem ControlField.st (ty : Ty) (hint : LdHint) (sc : Scope) (od : MemOrd) (sx : Bool) (o : Ops) : ControlField.Statement (.st ty hint sc od sx o) := by
  have := b2n_lt sx
  have := hint.code_lt
  have := od.code_lt
  have := sc.code_lt
  have := ty.code_lt
  have f1 : fld (ty.code + hint.code * 32 + sc.code * 128 + od.code * 1024 + b2n sx * 8192) 4 0 = ty.code := by unfold fld; omega
  have f2 : fld (ty.code + hint.code * 32 + sc.code * 128 + od.code * 1024 + b2n sx * 8192) 6 5 = hint.code := by unfold fld; omega
  have f3 : fld (ty.code + hint.code * 32 + sc.code * 128 + od.code * 1024 + b2n sx * 8192) 9 7 = sc.code := by unfold fld; omega
  have f4 : fld (ty.code + hint.code * 32 + sc.code * 128 + od.code * 1024 + b2n sx * 8192) 12 10 = od.code := by unfold fld; omega
  have f5 : bit (ty.code + hint.code * 32 + sc.code * 128 + od.code * 1024 + b2n sx * 8192) 13 = sx := bit_eq (by omega)
  refine Row.names_some rfl ?_ (show (ty.code + hint.code * 32 + sc.code * 128 + od.code * 1024 + b2n sx * 8192) < 2 ^ 15 by omega)
  simp [Row.names, buildOps, buildMem, f1, f2, f3, f4, f5]
theorem ControlField.ldt (ty : Ty) (m : Rnd) (sc : Scope) (od : MemOrd) (e2 : Bool) (nodfr : Bool) (o : Ops) : ControlField.Statement (.ldt ty m sc od e2 nodfr o) := by
  have := b2n_lt e2
  have := b2n_lt nodfr
  have := m.code_lt
  have := od.code_lt
  have := sc.code_lt
  have := ty.code_lt
  have f1 : fld (ty.code + m.code * 32 + sc.code * 128 + od.code * 1024 + b2n e2 * 8192 + b2n nodfr * 16384) 4 0 = ty.code := by unfold fld; omega
  have f2 : fld (ty.code + m.code * 32 + sc.code * 128 + od.code * 1024 + b2n e2 * 8192 + b2n nodfr * 16384) 6 5 = m.code := by unfold fld; omega
  have f3 : fld (ty.code + m.code * 32 + sc.code * 128 + od.code * 1024 + b2n e2 * 8192 + b2n nodfr * 16384) 9 7 = sc.code := by unfold fld; omega
  have f4 : fld (ty.code + m.code * 32 + sc.code * 128 + od.code * 1024 + b2n e2 * 8192 + b2n nodfr * 16384) 12 10 = od.code := by unfold fld; omega
  have f5 : bit (ty.code + m.code * 32 + sc.code * 128 + od.code * 1024 + b2n e2 * 8192 + b2n nodfr * 16384) 13 = e2 := bit_eq (by omega)
  have f6 : bit (ty.code + m.code * 32 + sc.code * 128 + od.code * 1024 + b2n e2 * 8192 + b2n nodfr * 16384) 14 = nodfr := bit_eq (by omega)
  refine Row.names_some rfl ?_ (show (ty.code + m.code * 32 + sc.code * 128 + od.code * 1024 + b2n e2 * 8192 + b2n nodfr * 16384) < 2 ^ 15 by omega)
  simp [Row.names, buildOps, buildMem, f1, f2, f3, f4, f5, f6]
theorem ControlField.stt (ty : Ty) (m : Rnd) (sc : Scope) (od : MemOrd) (e2 : Bool) (sat : Bool) (o : Ops) : ControlField.Statement (.stt ty m sc od e2 sat o) := by
  have := b2n_lt e2
  have := b2n_lt sat
  have := m.code_lt
  have := od.code_lt
  have := sc.code_lt
  have := ty.code_lt
  have f1 : fld (ty.code + m.code * 32 + sc.code * 128 + od.code * 1024 + b2n e2 * 8192 + b2n sat * 16384) 4 0 = ty.code := by unfold fld; omega
  have f2 : fld (ty.code + m.code * 32 + sc.code * 128 + od.code * 1024 + b2n e2 * 8192 + b2n sat * 16384) 6 5 = m.code := by unfold fld; omega
  have f3 : fld (ty.code + m.code * 32 + sc.code * 128 + od.code * 1024 + b2n e2 * 8192 + b2n sat * 16384) 9 7 = sc.code := by unfold fld; omega
  have f4 : fld (ty.code + m.code * 32 + sc.code * 128 + od.code * 1024 + b2n e2 * 8192 + b2n sat * 16384) 12 10 = od.code := by unfold fld; omega
  have f5 : bit (ty.code + m.code * 32 + sc.code * 128 + od.code * 1024 + b2n e2 * 8192 + b2n sat * 16384) 13 = e2 := bit_eq (by omega)
  have f6 : bit (ty.code + m.code * 32 + sc.code * 128 + od.code * 1024 + b2n e2 * 8192 + b2n sat * 16384) 14 = sat := bit_eq (by omega)
  refine Row.names_some rfl ?_ (show (ty.code + m.code * 32 + sc.code * 128 + od.code * 1024 + b2n e2 * 8192 + b2n sat * 16384) < 2 ^ 15 by omega)
  simp [Row.names, buildOps, buildMem, f1, f2, f3, f4, f5, f6]
theorem ControlField.pref (ty : Ty) (ph : PrefHint) (sx : Bool) (o : Ops) : ControlField.Statement (.pref ty ph sx o) := by
  have := b2n_lt sx
  have := ph.code_lt
  have := ty.code_lt
  have f1 : fld (ty.code + ph.code * 32 + b2n sx * 8192) 4 0 = ty.code := by unfold fld; omega
  have f2 : fld (ty.code + ph.code * 32 + b2n sx * 8192) 6 5 = ph.code := by unfold fld; omega
  have f3 : bit (ty.code + ph.code * 32 + b2n sx * 8192) 13 = sx := bit_eq (by omega)
  refine Row.names_some rfl ?_ (show (ty.code + ph.code * 32 + b2n sx * 8192) < 2 ^ 15 by omega)
  simp [Row.names, buildOps, buildMem, f1, f2, f3]
theorem ControlField.atom (ty : Ty) (op : AtomOp) (sc : Scope) (od : MemOrd) (o : Ops) : ControlField.Statement (.atom ty op sc od o) := by
  have := od.code_lt
  have := sc.code_lt
  have := ty.code_lt
  obtain ⟨q, r, hq, hr, h1, h2, h3⟩ := op.ctl_parts
  have f1 : fld (ty.code + op.ctl + sc.code * 128 + od.code * 1024) 4 0 = ty.code := by unfold fld; omega
  have f2 : fld (ty.code + op.ctl + sc.code * 128 + od.code * 1024) 9 7 = sc.code := by unfold fld; omega
  have f3 : fld (ty.code + op.ctl + sc.code * 128 + od.code * 1024) 12 10 = od.code := by unfold fld; omega
  have f0 : AtomOp.ofCtl (ty.code + op.ctl + sc.code * 128 + od.code * 1024) = some op := AtomOp.ofCtl_of (by unfold fld; omega) (by unfold fld; omega)
  refine Row.names_some rfl ?_ (show (ty.code + op.ctl + sc.code * 128 + od.code * 1024) < 2 ^ 15 by omega)
  simp [Row.names, buildOps, buildMem, f0, f1, f2, f3]
theorem ControlField.atomcas (ty : Ty) (sc : Scope) (od : MemOrd) (fo : Bool) (o : Ops) : ControlField.Statement (.atomcas ty sc od fo o) := by
  have := b2n_lt fo
  have := od.code_lt
  have := sc.code_lt
  have := ty.code_lt
  have f1 : fld (ty.code + sc.code * 128 + od.code * 1024 + b2n fo * 8192) 4 0 = ty.code := by unfold fld; omega
  have f2 : fld (ty.code + sc.code * 128 + od.code * 1024 + b2n fo * 8192) 9 7 = sc.code := by unfold fld; omega
  have f3 : fld (ty.code + sc.code * 128 + od.code * 1024 + b2n fo * 8192) 12 10 = od.code := by unfold fld; omega
  have f4 : bit (ty.code + sc.code * 128 + od.code * 1024 + b2n fo * 8192) 13 = fo := bit_eq (by omega)
  refine Row.names_some rfl ?_ (show (ty.code + sc.code * 128 + od.code * 1024 + b2n fo * 8192) < 2 ^ 15 by omega)
  simp [Row.names, buildOps, buildMem, f1, f2, f3, f4]
theorem ControlField.atomf (ty : Ty) (op : AtomOp) (sc : Scope) (od : MemOrd) (o : Ops) : ControlField.Statement (.atomf ty op sc od o) := by
  have := od.code_lt
  have := sc.code_lt
  have := ty.code_lt
  obtain ⟨q, r, hq, hr, h1, h2, h3⟩ := op.ctl_parts
  have f1 : fld (ty.code + op.ctl + sc.code * 128 + od.code * 1024) 4 0 = ty.code := by unfold fld; omega
  have f2 : fld (ty.code + op.ctl + sc.code * 128 + od.code * 1024) 9 7 = sc.code := by unfold fld; omega
  have f3 : fld (ty.code + op.ctl + sc.code * 128 + od.code * 1024) 12 10 = od.code := by unfold fld; omega
  have f0 : AtomOp.ofCtl (ty.code + op.ctl + sc.code * 128 + od.code * 1024) = some op := AtomOp.ofCtl_of (by unfold fld; omega) (by unfold fld; omega)
  refine Row.names_some rfl ?_ (show (ty.code + op.ctl + sc.code * 128 + od.code * 1024) < 2 ^ 15 by omega)
  simp [Row.names, buildOps, buildMem, f0, f1, f2, f3]
theorem ControlField.red (ty : Ty) (op : AtomOp) (sc : Scope) (od : MemOrd) (o : Ops) : ControlField.Statement (.red ty op sc od o) := by
  have := od.code_lt
  have := sc.code_lt
  have := ty.code_lt
  obtain ⟨q, r, hq, hr, h1, h2, h3⟩ := op.ctl_parts
  have f1 : fld (ty.code + op.ctl + sc.code * 128 + od.code * 1024) 4 0 = ty.code := by unfold fld; omega
  have f2 : fld (ty.code + op.ctl + sc.code * 128 + od.code * 1024) 9 7 = sc.code := by unfold fld; omega
  have f3 : fld (ty.code + op.ctl + sc.code * 128 + od.code * 1024) 12 10 = od.code := by unfold fld; omega
  have f0 : AtomOp.ofCtl (ty.code + op.ctl + sc.code * 128 + od.code * 1024) = some op := AtomOp.ofCtl_of (by unfold fld; omega) (by unfold fld; omega)
  refine Row.names_some rfl ?_ (show (ty.code + op.ctl + sc.code * 128 + od.code * 1024) < 2 ^ 15 by omega)
  simp [Row.names, buildOps, buildMem, f0, f1, f2, f3]
theorem ControlField.fence (sc : Scope) (od : MemOrd) (o : Ops) : ControlField.Statement (.fence sc od o) := by
  have := od.code_lt
  have := sc.code_lt
  have f1 : fld (sc.code * 128 + od.code * 1024) 9 7 = sc.code := by unfold fld; omega
  have f2 : fld (sc.code * 128 + od.code * 1024) 12 10 = od.code := by unfold fld; omega
  refine Row.names_some rfl ?_ (show (sc.code * 128 + od.code * 1024) < 2 ^ 15 by omega)
  simp [Row.names, buildOps, buildMem, f1, f2]
theorem ControlField.cmntL1 (o : Ops) : ControlField.Statement (.cmntL1 o) := by
  have f1 : bit (0) 13 = false := bit_eq (show _ = 0 by omega)
  have f2 : bit (0) 14 = false := bit_eq (show _ = 0 by omega)
  refine Row.names_some rfl ?_ (show (0) < 2 ^ 15 by omega)
  simp [Row.names, buildOps, buildMem, f1, f2]
theorem ControlField.cmntWb (o : Ops) : ControlField.Statement (.cmntWb o) := by
  have f1 : bit (8192) 13 = true := bit_eq (show _ = 1 by omega)
  have f2 : bit (8192) 14 = false := bit_eq (show _ = 0 by omega)
  refine Row.names_some rfl ?_ (show (8192) < 2 ^ 15 by omega)
  simp [Row.names, buildOps, buildMem, f1, f2]
theorem ControlField.cmntInv (o : Ops) : ControlField.Statement (.cmntInv o) := by
  have f1 : bit (16384) 13 = false := bit_eq (show _ = 0 by omega)
  have f2 : bit (16384) 14 = true := bit_eq (show _ = 1 by omega)
  refine Row.names_some rfl ?_ (show (16384) < 2 ^ 15 by omega)
  simp [Row.names, buildOps, buildMem, f2]
theorem ControlField.tagrd (sc : Scope) (od : MemOrd) (o : Ops) : ControlField.Statement (.tagrd sc od o) := by
  have := od.code_lt
  have := sc.code_lt
  have f1 : fld (sc.code * 128 + od.code * 1024) 9 7 = sc.code := by unfold fld; omega
  have f2 : fld (sc.code * 128 + od.code * 1024) 12 10 = od.code := by unfold fld; omega
  refine Row.names_some rfl ?_ (show (sc.code * 128 + od.code * 1024) < 2 ^ 15 by omega)
  simp [Row.names, buildOps, buildMem, f1, f2]
theorem ControlField.tagwr (sc : Scope) (od : MemOrd) (clr : Bool) (o : Ops) : ControlField.Statement (.tagwr sc od clr o) := by
  have := b2n_lt clr
  have := od.code_lt
  have := sc.code_lt
  have f1 : fld (sc.code * 128 + od.code * 1024 + b2n clr * 8192) 9 7 = sc.code := by unfold fld; omega
  have f2 : fld (sc.code * 128 + od.code * 1024 + b2n clr * 8192) 12 10 = od.code := by unfold fld; omega
  have f3 : bit (sc.code * 128 + od.code * 1024 + b2n clr * 8192) 13 = clr := bit_eq (by omega)
  refine Row.names_some rfl ?_ (show (sc.code * 128 + od.code * 1024 + b2n clr * 8192) < 2 ^ 15 by omega)
  simp [Row.names, buildOps, buildMem, f1, f2, f3]
theorem ControlField.sigst (add : Bool) (irq : Bool) (sc : Scope) (od : MemOrd) (o : Ops) : ControlField.Statement (.sigst add irq sc od o) := by
  have := b2n_lt add
  have := b2n_lt irq
  have := od.code_lt
  have := sc.code_lt
  have f1 : fld (b2n add * 8192 + b2n irq * 32 + sc.code * 128 + od.code * 1024) 9 7 = sc.code := by unfold fld; omega
  have f2 : fld (b2n add * 8192 + b2n irq * 32 + sc.code * 128 + od.code * 1024) 12 10 = od.code := by unfold fld; omega
  have f3 : bit (b2n add * 8192 + b2n irq * 32 + sc.code * 128 + od.code * 1024) 5 = irq := bit_eq (by omega)
  have f4 : bit (b2n add * 8192 + b2n irq * 32 + sc.code * 128 + od.code * 1024) 13 = add := bit_eq (by omega)
  refine Row.names_some rfl ?_ (show (b2n add * 8192 + b2n irq * 32 + sc.code * 128 + od.code * 1024) < 2 ^ 15 by omega)
  simp [Row.names, buildOps, buildMem, f1, f2, f3, f4]
theorem ControlField.sigwait (sg : SigCmp) (sc : Scope) (od : MemOrd) (o : Ops) : ControlField.Statement (.sigwait sg sc od o) := by
  have := od.code_lt
  have := sc.code_lt
  have := sg.code_lt
  have f1 : fld (sg.code * 8192 + sc.code * 128 + od.code * 1024) 9 7 = sc.code := by unfold fld; omega
  have f2 : fld (sg.code * 8192 + sc.code * 128 + od.code * 1024) 12 10 = od.code := by unfold fld; omega
  have f3 : fld (sg.code * 8192 + sc.code * 128 + od.code * 1024) 14 13 = sg.code := by unfold fld; omega
  refine Row.names_some rfl ?_ (show (sg.code * 8192 + sc.code * 128 + od.code * 1024) < 2 ^ 15 by omega)
  simp [Row.names, buildOps, buildMem, f1, f2, f3]
theorem ControlField.rstr (cnt1 : BitVec 3) (trapnak : Bool) (od : MemOrd) (o : Ops) : ControlField.Statement (.rstr cnt1 trapnak od o) := by
  have := b2n_lt trapnak
  have := cnt1.isLt
  have := od.code_lt
  have f1 : fld (cnt1.toNat + b2n trapnak * 32 + od.code * 1024) 2 0 = cnt1.toNat := by unfold fld; omega
  have f2 : fld (cnt1.toNat + b2n trapnak * 32 + od.code * 1024) 12 10 = od.code := by unfold fld; omega
  have f3 : bit (cnt1.toNat + b2n trapnak * 32 + od.code * 1024) 5 = trapnak := bit_eq (by omega)
  refine Row.names_some rfl ?_ (show (cnt1.toNat + b2n trapnak * 32 + od.code * 1024) < 2 ^ 15 by omega)
  simp [Row.names, buildOps, buildMem, f1, f2, f3]
theorem ControlField.ibarm (ctr : BitVec 2) (o : Ops) : ControlField.Statement (.ibarm ctr o) := by
  have := ctr.isLt
  have f1 : fld (ctr.toNat) 1 0 = ctr.toNat := by unfold fld; omega
  have f2 : bit (ctr.toNat) 2 = false := bit_eq (show _ = 0 by omega)
  refine Row.names_some rfl ?_ (show (ctr.toNat) < 2 ^ 15 by omega)
  simp [Row.names, buildOps, buildMem, f1, f2]
theorem ControlField.ibarmDis (ctr : BitVec 2) (o : Ops) : ControlField.Statement (.ibarmDis ctr o) := by
  have := ctr.isLt
  have f1 : fld (ctr.toNat + 4) 1 0 = ctr.toNat := by unfold fld; omega
  have f2 : bit (ctr.toNat + 4) 2 = true := bit_eq (show _ = 1 by omega)
  refine Row.names_some rfl ?_ (show (ctr.toNat + 4) < 2 ^ 15 by omega)
  simp [Row.names, buildOps, buildMem, f1, f2]
theorem ControlField.ibwait (ctr : BitVec 2) (o : Ops) : ControlField.Statement (.ibwait ctr o) := by
  have := ctr.isLt
  have f1 : fld (ctr.toNat) 1 0 = ctr.toNat := by unfold fld; omega
  refine Row.names_some rfl ?_ (show (ctr.toNat) < 2 ^ 15 by omega)
  simp [Row.names, buildOps, buildMem, f1]
theorem ControlField.ibstatSend (clr : Bool) (o : Ops) : ControlField.Statement (.ibstatSend clr o) := by
  have := b2n_lt clr
  have f2 : bit (b2n clr * 16) 0 = false := bit_eq (show _ = 0 by omega)
  have f3 : bit (b2n clr * 16) 4 = clr := bit_eq (by omega)
  refine Row.names_some rfl ?_ (show (b2n clr * 16) < 2 ^ 15 by omega)
  simp [Row.names, buildOps, buildMem, f2, f3]
theorem ControlField.ibstatIbox (ctr : BitVec 2) (o : Ops) : ControlField.Statement (.ibstatIbox ctr o) := by
  have := ctr.isLt
  have f1 : fld (ctr.toNat * 4 + 1) 3 2 = ctr.toNat := by unfold fld; omega
  have f2 : bit (ctr.toNat * 4 + 1) 0 = true := bit_eq (show _ = 1 by omega)
  have f3 : bit (ctr.toNat * 4 + 1) 4 = false := bit_eq (show _ = 0 by omega)
  refine Row.names_some rfl ?_ (show (ctr.toNat * 4 + 1) < 2 ^ 15 by omega)
  simp [Row.names, buildOps, buildMem, f1, f2]
theorem ControlField.cpy (ord : Bool) (o : EngOps) : ControlField.Statement (.cpy ord o) := by
  have := b2n_lt ord
  have f1 : bit (b2n ord) 0 = ord := bit_eq (by omega)
  refine Row.names_some rfl ?_ (show (b2n ord) < 2 ^ 7 ∧ (0) < 2 ^ 64 from ⟨by omega, by omega⟩)
  simp [Row.names, buildEng, f1]
theorem ControlField.cpy2d (ord : Bool) (sp : BitVec 32) (dp : BitVec 32) (o : EngOps) : ControlField.Statement (.cpy2d ord sp dp o) := by
  have := b2n_lt ord
  have := dp.isLt
  have := sp.isLt
  have f1 : bit (b2n ord) 0 = ord := bit_eq (by omega)
  have f2 : fld (sp.toNat + dp.toNat * 4294967296) 31 0 = sp.toNat := by unfold fld; omega
  have f3 : fld (sp.toNat + dp.toNat * 4294967296) 63 32 = dp.toNat := by unfold fld; omega
  refine Row.names_some rfl ?_ (show (b2n ord) < 2 ^ 7 ∧ (sp.toNat + dp.toNat * 4294967296) < 2 ^ 64 from ⟨by omega, by omega⟩)
  simp [Row.names, buildEng, f1, f2, f3]
theorem ControlField.cpyg (ord : Bool) (cnt : BitVec 32) (e16 : BitVec 12) (sx : Bool) (o : EngOps) : ControlField.Statement (.cpyg ord cnt e16 sx o) := by
  have := b2n_lt ord
  have := b2n_lt sx
  have := cnt.isLt
  have := e16.isLt
  have f1 : bit (b2n ord) 0 = ord := bit_eq (by omega)
  have f2 : fld (cnt.toNat + e16.toNat * 4294967296 + b2n sx * 281474976710656) 31 0 = cnt.toNat := by unfold fld; omega
  have f3 : fld (cnt.toNat + e16.toNat * 4294967296 + b2n sx * 281474976710656) 43 32 = e16.toNat := by unfold fld; omega
  have f4 : bit (cnt.toNat + e16.toNat * 4294967296 + b2n sx * 281474976710656) 48 = sx := bit_eq (by omega)
  refine Row.names_some rfl ?_ (show (b2n ord) < 2 ^ 7 ∧ (cnt.toNat + e16.toNat * 4294967296 + b2n sx * 281474976710656) < 2 ^ 64 from ⟨by omega, by omega⟩)
  simp [Row.names, buildEng, f1, f2, f3, f4]
theorem ControlField.cpyt (ord : Bool) (pclr : Bool) (o : EngOps) : ControlField.Statement (.cpyt ord pclr o) := by
  have := b2n_lt ord
  have := b2n_lt pclr
  have f1 : bit (b2n ord + b2n pclr * 2) 0 = ord := bit_eq (by omega)
  have f2 : bit (b2n ord + b2n pclr * 2) 1 = pclr := bit_eq (by omega)
  refine Row.names_some rfl ?_ (show (b2n ord + b2n pclr * 2) < 2 ^ 7 ∧ (0) < 2 ^ 64 from ⟨by omega, by omega⟩)
  simp [Row.names, buildEng, f1, f2]
theorem ControlField.cpyto (ord : Bool) (tf : TileFmt) (o : EngOps) : ControlField.Statement (.cpyto ord tf o) := by
  have := b2n_lt ord
  have := tf.code_lt
  have f1 : bit (b2n ord) 0 = ord := bit_eq (by omega)
  have f2 : fld (tf.code) 1 0 = tf.code := by unfold fld; omega
  refine Row.names_some rfl ?_ (show (b2n ord) < 2 ^ 7 ∧ (tf.code) < 2 ^ 64 from ⟨by omega, by omega⟩)
  simp [Row.names, buildEng, f1, f2]
theorem ControlField.tld (ty : Ty) (cnt1 : BitVec 3) (col : Bool) (o : Ops) : ControlField.Statement (.tld ty cnt1 col o) := by
  have := b2n_lt col
  have := cnt1.isLt
  have := ty.code_lt
  have f1 : fld (ty.code + cnt1.toNat * 128 + b2n col * 1024) 4 0 = ty.code := by unfold fld; omega
  have f2 : fld (ty.code + cnt1.toNat * 128 + b2n col * 1024) 9 7 = cnt1.toNat := by unfold fld; omega
  have f3 : bit (ty.code + cnt1.toNat * 128 + b2n col * 1024) 10 = col := bit_eq (by omega)
  refine Row.names_some rfl ?_ (show (ty.code + cnt1.toNat * 128 + b2n col * 1024) < 2 ^ 15 by omega)
  simp [Row.names, buildOps, buildEngLane, f1, f2, f3]
theorem ControlField.tst (ty : Ty) (cnt1 : BitVec 3) (col : Bool) (o : Ops) : ControlField.Statement (.tst ty cnt1 col o) := by
  have := b2n_lt col
  have := cnt1.isLt
  have := ty.code_lt
  have f1 : fld (ty.code + cnt1.toNat * 128 + b2n col * 1024) 4 0 = ty.code := by unfold fld; omega
  have f2 : fld (ty.code + cnt1.toNat * 128 + b2n col * 1024) 9 7 = cnt1.toNat := by unfold fld; omega
  have f3 : bit (ty.code + cnt1.toNat * 128 + b2n col * 1024) 10 = col := bit_eq (by omega)
  refine Row.names_some rfl ?_ (show (ty.code + cnt1.toNat * 128 + b2n col * 1024) < 2 ^ 15 by omega)
  simp [Row.names, buildOps, buildEngLane, f1, f2, f3]
theorem ControlField.mbinit (sc : Scope) (o : Ops) : ControlField.Statement (.mbinit sc o) := by
  have := sc.code_lt
  have f1 : fld (sc.code * 128) 9 7 = sc.code := by unfold fld; omega
  refine Row.names_some rfl ?_ (show (sc.code * 128) < 2 ^ 15 by omega)
  simp [Row.names, buildOps, buildEngLane, f1]
theorem ControlField.mbexp (arv : Bool) (o : Ops) : ControlField.Statement (.mbexp arv o) := by
  have := b2n_lt arv
  have f1 : bit (b2n arv * 8192) 13 = arv := bit_eq (by omega)
  refine Row.names_some rfl ?_ (show (b2n arv * 8192) < 2 ^ 15 by omega)
  simp [Row.names, buildOps, buildEngLane, f1]
theorem ControlField.mbarv (o : Ops) : ControlField.Statement (.mbarv o) := by
  refine Row.names_some rfl ?_ (show (0) < 2 ^ 15 by omega)
  rfl
theorem ControlField.mbwait (o : Ops) : ControlField.Statement (.mbwait o) := by
  refine Row.names_some rfl ?_ (show (0) < 2 ^ 15 by omega)
  rfl
theorem ControlField.mbtest (o : Ops) : ControlField.Statement (.mbtest o) := by
  refine Row.names_some rfl ?_ (show (0) < 2 ^ 15 by omega)
  rfl
theorem ControlField.coll (ord : Bool) (sys : Bool) (op : CollOp) (alg : CollAlg) (ety : CollTy) (rop : RedOp) (cnum : BitVec 16) (root : BitVec 10) (chunk : BitVec 4) (o : EngOps) : ControlField.Statement (.coll ord sys op alg ety rop cnum root chunk o) := by
  have := alg.code_lt
  have := b2n_lt ord
  have := b2n_lt sys
  have := chunk.isLt
  have := cnum.isLt
  have := ety.code_lt
  have := op.code_lt
  have := root.isLt
  have := rop.code_lt
  have f1 : bit (b2n ord + b2n sys * 2) 0 = ord := bit_eq (by omega)
  have f2 : bit (b2n ord + b2n sys * 2) 1 = sys := bit_eq (by omega)
  have f3 : fld (op.code + alg.code * 16 + ety.code * 64 + rop.code * 1024 + cnum.toNat * 4096 + root.toNat * 268435456 + chunk.toNat * 274877906944) 3 0 = op.code := by unfold fld; omega
  have f4 : fld (op.code + alg.code * 16 + ety.code * 64 + rop.code * 1024 + cnum.toNat * 4096 + root.toNat * 268435456 + chunk.toNat * 274877906944) 5 4 = alg.code := by unfold fld; omega
  have f5 : fld (op.code + alg.code * 16 + ety.code * 64 + rop.code * 1024 + cnum.toNat * 4096 + root.toNat * 268435456 + chunk.toNat * 274877906944) 9 6 = ety.code := by unfold fld; omega
  have f6 : fld (op.code + alg.code * 16 + ety.code * 64 + rop.code * 1024 + cnum.toNat * 4096 + root.toNat * 268435456 + chunk.toNat * 274877906944) 11 10 = rop.code := by unfold fld; omega
  have f7 : fld (op.code + alg.code * 16 + ety.code * 64 + rop.code * 1024 + cnum.toNat * 4096 + root.toNat * 268435456 + chunk.toNat * 274877906944) 27 12 = cnum.toNat := by unfold fld; omega
  have f8 : fld (op.code + alg.code * 16 + ety.code * 64 + rop.code * 1024 + cnum.toNat * 4096 + root.toNat * 268435456 + chunk.toNat * 274877906944) 37 28 = root.toNat := by unfold fld; omega
  have f9 : fld (op.code + alg.code * 16 + ety.code * 64 + rop.code * 1024 + cnum.toNat * 4096 + root.toNat * 268435456 + chunk.toNat * 274877906944) 41 38 = chunk.toNat := by unfold fld; omega
  refine Row.names_some rfl ?_ (show (b2n ord + b2n sys * 2) < 2 ^ 7 ∧ (op.code + alg.code * 16 + ety.code * 64 + rop.code * 1024 + cnum.toNat * 4096 + root.toNat * 268435456 + chunk.toNat * 274877906944) < 2 ^ 64 from ⟨by omega, by omega⟩)
  simp [Row.names, buildEng, f1, f2, f3, f4, f5, f6, f7, f8, f9]
theorem ControlField.clwait (o : Ops) : ControlField.Statement (.clwait o) := by
  refine Row.names_some rfl ?_ (show (0) < 2 ^ 15 by omega)
  rfl
theorem ControlField.binadd (ty : Ty) (o : Ops) : ControlField.Statement (.binadd ty o) := by
  have := ty.code_lt
  have f1 : fld (ty.code) 4 0 = ty.code := by unfold fld; omega
  refine Row.names_some rfl ?_ (show (ty.code) < 2 ^ 15 by omega)
  simp [Row.names, buildOps, buildEngLane, f1]
theorem ControlField.binrd (sc : Scope) (od : MemOrd) (clr : Bool) (o : Ops) : ControlField.Statement (.binrd sc od clr o) := by
  have := b2n_lt clr
  have := od.code_lt
  have := sc.code_lt
  have f1 : fld (sc.code * 128 + od.code * 1024 + b2n clr * 8192) 9 7 = sc.code := by unfold fld; omega
  have f2 : fld (sc.code * 128 + od.code * 1024 + b2n clr * 8192) 12 10 = od.code := by unfold fld; omega
  have f3 : bit (sc.code * 128 + od.code * 1024 + b2n clr * 8192) 13 = clr := bit_eq (by omega)
  refine Row.names_some rfl ?_ (show (sc.code * 128 + od.code * 1024 + b2n clr * 8192) < 2 ^ 15 by omega)
  simp [Row.names, buildOps, buildEngLane, f1, f2, f3]
theorem ControlField.binpatch (clr : Bool) (npkt : BitVec 16) (gsh : BitVec 5) (o : EngOps) : ControlField.Statement (.binpatch clr npkt gsh o) := by
  have := b2n_lt clr
  have := gsh.isLt
  have := npkt.isLt
  have f1 : bit (b2n clr) 0 = clr := bit_eq (by omega)
  have f2 : fld (npkt.toNat + gsh.toNat * 65536) 15 0 = npkt.toNat := by unfold fld; omega
  have f3 : fld (npkt.toNat + gsh.toNat * 65536) 20 16 = gsh.toNat := by unfold fld; omega
  refine Row.names_some rfl ?_ (show (b2n clr) < 2 ^ 7 ∧ (npkt.toNat + gsh.toNat * 65536) < 2 ^ 64 from ⟨by omega, by omega⟩)
  simp [Row.names, buildEng, f1, f2, f3]
theorem ControlField.mma (ty : Ty) (af : MFmt) (bf : MFmt) (asgn : Bool) (bsgn : Bool) (asrc : Bool) (sq : Bool) (grp : BitVec 2) (aq : Bool) (bq : Bool) (o : MatOps) : ControlField.Statement (.mma ty af bf asgn bsgn asrc sq grp aq bq o) := by
  have := af.code_lt
  have := b2n_lt aq
  have := b2n_lt asgn
  have := b2n_lt asrc
  have := b2n_lt bq
  have := b2n_lt bsgn
  have := b2n_lt sq
  have := bf.code_lt
  have := grp.isLt
  have := ty.code_lt
  have f1 : fld (af.code + bf.code * 16 + b2n asgn * 256 + b2n bsgn * 512 + b2n asrc * 1024 + b2n sq * 2048 + grp.toNat * 4096 + b2n aq * 16384 + b2n bq * 32768) 3 0 = af.code := by unfold fld; omega
  have f2 : fld (af.code + bf.code * 16 + b2n asgn * 256 + b2n bsgn * 512 + b2n asrc * 1024 + b2n sq * 2048 + grp.toNat * 4096 + b2n aq * 16384 + b2n bq * 32768) 7 4 = bf.code := by unfold fld; omega
  have f3 : fld (af.code + bf.code * 16 + b2n asgn * 256 + b2n bsgn * 512 + b2n asrc * 1024 + b2n sq * 2048 + grp.toNat * 4096 + b2n aq * 16384 + b2n bq * 32768) 13 12 = grp.toNat := by unfold fld; omega
  have f4 : bit (af.code + bf.code * 16 + b2n asgn * 256 + b2n bsgn * 512 + b2n asrc * 1024 + b2n sq * 2048 + grp.toNat * 4096 + b2n aq * 16384 + b2n bq * 32768) 8 = asgn := bit_eq (by omega)
  have f5 : bit (af.code + bf.code * 16 + b2n asgn * 256 + b2n bsgn * 512 + b2n asrc * 1024 + b2n sq * 2048 + grp.toNat * 4096 + b2n aq * 16384 + b2n bq * 32768) 9 = bsgn := bit_eq (by omega)
  have f6 : bit (af.code + bf.code * 16 + b2n asgn * 256 + b2n bsgn * 512 + b2n asrc * 1024 + b2n sq * 2048 + grp.toNat * 4096 + b2n aq * 16384 + b2n bq * 32768) 10 = asrc := bit_eq (by omega)
  have f7 : bit (af.code + bf.code * 16 + b2n asgn * 256 + b2n bsgn * 512 + b2n asrc * 1024 + b2n sq * 2048 + grp.toNat * 4096 + b2n aq * 16384 + b2n bq * 32768) 11 = sq := bit_eq (by omega)
  have f8 : bit (af.code + bf.code * 16 + b2n asgn * 256 + b2n bsgn * 512 + b2n asrc * 1024 + b2n sq * 2048 + grp.toNat * 4096 + b2n aq * 16384 + b2n bq * 32768) 14 = aq := bit_eq (by omega)
  have f9 : bit (af.code + bf.code * 16 + b2n asgn * 256 + b2n bsgn * 512 + b2n asrc * 1024 + b2n sq * 2048 + grp.toNat * 4096 + b2n aq * 16384 + b2n bq * 32768) 15 = bq := bit_eq (by omega)
  refine Row.names_some rfl ?_ (show (ty.code) < 2 ^ 17 ∧ (af.code + bf.code * 16 + b2n asgn * 256 + b2n bsgn * 512 + b2n asrc * 1024 + b2n sq * 2048 + grp.toNat * 4096 + b2n aq * 16384 + b2n bq * 32768) < 2 ^ 64 from ⟨by omega, by omega⟩)
  simp [Row.names, buildMat, mcwOf, f1, f2, f3, f4, f5, f6, f7, f8, f9]
theorem ControlField.mmaq (ty : Ty) (af : MFmt) (bf : MFmt) (asgn : Bool) (bsgn : Bool) (asrc : Bool) (sq : Bool) (grp : BitVec 2) (aq : Bool) (bq : Bool) (o : MatOps) : ControlField.Statement (.mmaq ty af bf asgn bsgn asrc sq grp aq bq o) := by
  have := af.code_lt
  have := b2n_lt aq
  have := b2n_lt asgn
  have := b2n_lt asrc
  have := b2n_lt bq
  have := b2n_lt bsgn
  have := b2n_lt sq
  have := bf.code_lt
  have := grp.isLt
  have := ty.code_lt
  have f1 : fld (af.code + bf.code * 16 + b2n asgn * 256 + b2n bsgn * 512 + b2n asrc * 1024 + b2n sq * 2048 + grp.toNat * 4096 + b2n aq * 16384 + b2n bq * 32768) 3 0 = af.code := by unfold fld; omega
  have f2 : fld (af.code + bf.code * 16 + b2n asgn * 256 + b2n bsgn * 512 + b2n asrc * 1024 + b2n sq * 2048 + grp.toNat * 4096 + b2n aq * 16384 + b2n bq * 32768) 7 4 = bf.code := by unfold fld; omega
  have f3 : fld (af.code + bf.code * 16 + b2n asgn * 256 + b2n bsgn * 512 + b2n asrc * 1024 + b2n sq * 2048 + grp.toNat * 4096 + b2n aq * 16384 + b2n bq * 32768) 13 12 = grp.toNat := by unfold fld; omega
  have f4 : bit (af.code + bf.code * 16 + b2n asgn * 256 + b2n bsgn * 512 + b2n asrc * 1024 + b2n sq * 2048 + grp.toNat * 4096 + b2n aq * 16384 + b2n bq * 32768) 8 = asgn := bit_eq (by omega)
  have f5 : bit (af.code + bf.code * 16 + b2n asgn * 256 + b2n bsgn * 512 + b2n asrc * 1024 + b2n sq * 2048 + grp.toNat * 4096 + b2n aq * 16384 + b2n bq * 32768) 9 = bsgn := bit_eq (by omega)
  have f6 : bit (af.code + bf.code * 16 + b2n asgn * 256 + b2n bsgn * 512 + b2n asrc * 1024 + b2n sq * 2048 + grp.toNat * 4096 + b2n aq * 16384 + b2n bq * 32768) 10 = asrc := bit_eq (by omega)
  have f7 : bit (af.code + bf.code * 16 + b2n asgn * 256 + b2n bsgn * 512 + b2n asrc * 1024 + b2n sq * 2048 + grp.toNat * 4096 + b2n aq * 16384 + b2n bq * 32768) 11 = sq := bit_eq (by omega)
  have f8 : bit (af.code + bf.code * 16 + b2n asgn * 256 + b2n bsgn * 512 + b2n asrc * 1024 + b2n sq * 2048 + grp.toNat * 4096 + b2n aq * 16384 + b2n bq * 32768) 14 = aq := bit_eq (by omega)
  have f9 : bit (af.code + bf.code * 16 + b2n asgn * 256 + b2n bsgn * 512 + b2n asrc * 1024 + b2n sq * 2048 + grp.toNat * 4096 + b2n aq * 16384 + b2n bq * 32768) 15 = bq := bit_eq (by omega)
  refine Row.names_some rfl ?_ (show (ty.code) < 2 ^ 17 ∧ (af.code + bf.code * 16 + b2n asgn * 256 + b2n bsgn * 512 + b2n asrc * 1024 + b2n sq * 2048 + grp.toNat * 4096 + b2n aq * 16384 + b2n bq * 32768) < 2 ^ 64 from ⟨by omega, by omega⟩)
  simp [Row.names, buildMat, mcwOf, f1, f2, f3, f4, f5, f6, f7, f8, f9]
theorem ControlField.mzero (o : Ops) : ControlField.Statement (.mzero o) := by
  refine Row.names_some rfl ?_ (show (0) < 2 ^ 15 by omega)
  rfl
theorem ControlField.mwait (o : Ops) : ControlField.Statement (.mwait o) := by
  refine Row.names_some rfl ?_ (show (0) < 2 ^ 15 by omega)
  rfl
theorem ControlField.mfence (o : Ops) : ControlField.Statement (.mfence o) := by
  refine Row.names_some rfl ?_ (show (0) < 2 ^ 15 by omega)
  rfl
theorem ControlField.mcfg (quar : Bool) (astride : BitVec 16) : ControlField.Statement (.mcfg quar astride) := by
  have := astride.isLt
  have := b2n_lt quar
  have f1 : fld (b2n quar + astride.toNat * 4294967296) 47 32 = astride.toNat := by unfold fld; omega
  have f2 : bit (b2n quar + astride.toNat * 4294967296) 0 = quar := bit_eq (by omega)
  refine Row.names_some rfl ?_ (show (0) < 2 ^ 17 ∧ (b2n quar + astride.toNat * 4294967296) < 2 ^ 64 from ⟨by omega, by omega⟩)
  simp [Row.names, buildMat, f1, f2]
theorem ControlField.mstep (o : Ops) : ControlField.Statement (.mstep o) := by
  refine Row.names_some rfl ?_ (show (0) < 2 ^ 15 by omega)
  rfl
theorem ControlField.mstat (o : Ops) : ControlField.Statement (.mstat o) := by
  refine Row.names_some rfl ?_ (show (0) < 2 ^ 15 by omega)
  rfl
theorem ControlField.agingIssue (key : Nat) : ControlField.Statement (.agingIssue key) := Row.names_none rfl
theorem ControlField.storeQueueDrain (key : Nat) : ControlField.Statement (.storeQueueDrain key) := Row.names_none rfl
theorem ControlField.l2Forward (die : Nat) : ControlField.Statement (.l2Forward die) := Row.names_none rfl
theorem ControlField.cisternWriteAck (die : Nat) : ControlField.Statement (.cisternWriteAck die) := Row.names_none rfl
theorem ControlField.l1Eviction (core : Nat) (sector : Nat) : ControlField.Statement (.l1Eviction core sector) := Row.names_none rfl
theorem ControlField.resolve (vd : Nat) (x : Resolution) : ControlField.Statement (.resolve vd x) := Row.names_none rfl
theorem ControlField.fbconsWrite (vd : Nat) (value : BitVec 32) : ControlField.Statement (.fbconsWrite vd value) := Row.names_none rfl
theorem ControlField.dlconsWrite (vd : Nat) (value : BitVec 32) : ControlField.Statement (.dlconsWrite vd value) := Row.names_none rfl
theorem ControlField.registerWrite (w : MmioWrite) : ControlField.Statement (.registerWrite w) := Row.names_none rfl
theorem ControlField.generationRaiseComplete (vd : Nat) (space : Nat) : ControlField.Statement (.generationRaiseComplete vd space) := Row.names_none rfl
theorem ControlField.engineReport (cmd : Nat) (off : Nat) (len : Nat) : ControlField.Statement (.engineReport cmd off len) := Row.names_none rfl
theorem ControlField.copyRetire (cmd : Nat) : ControlField.Statement (.copyRetire cmd) := Row.names_none rfl
theorem ControlField.engineFault (cmd : Nat) : ControlField.Statement (.engineFault cmd) := Row.names_none rfl
theorem ControlField.engineErrorTaken (key : Nat) : ControlField.Statement (.engineErrorTaken key) := Row.names_none rfl
theorem ControlField.collJobComplete (job : Nat) (ranks : List RankData) : ControlField.Statement (.collJobComplete job ranks) := Row.names_none rfl
theorem ControlField.collJobFailNotice (job : Nat) : ControlField.Statement (.collJobFailNotice job) := Row.names_none rfl
theorem ControlField.commTimeout (job : Nat) : ControlField.Statement (.commTimeout job) := Row.names_none rfl
theorem ControlField.binpatchJob (job : Nat) : ControlField.Statement (.binpatchJob job) := Row.names_none rfl
theorem ControlField.binaddPerform (op : Nat) : ControlField.Statement (.binaddPerform op) := Row.names_none rfl
theorem ControlField.matrixStepDrain (team : Nat) (errs : List ArrayErr) : ControlField.Statement (.matrixStepDrain team errs) := Row.names_none rfl
theorem ControlField.remoteStoreArrival (m : RemoteStore) : ControlField.Statement (.remoteStoreArrival m) := Row.names_none rfl
theorem ControlField.rstrOutcome (o : RstrOutcome) : ControlField.Statement (.rstrOutcome o) := Row.names_none rfl
theorem ControlField.remoteNakTrap (key : Nat) : ControlField.Statement (.remoteNakTrap key) := Row.names_none rfl
theorem ControlField.remoteAccess (r : RemoteReq) : ControlField.Statement (.remoteAccess r) := Row.names_none rfl
theorem ControlField.remoteAccessTimeout (who : Agent) : ControlField.Statement (.remoteAccessTimeout who) := Row.names_none rfl
theorem ControlField.sigwaitTimeout (key : Nat) : ControlField.Statement (.sigwaitTimeout key) := Row.names_none rfl
theorem ControlField.ibwaitTimeout (key : Nat) : ControlField.Statement (.ibwaitTimeout key) := Row.names_none rfl
theorem ControlField.mbwaitTimeout (key : Nat) : ControlField.Statement (.mbwaitTimeout key) := Row.names_none rfl
theorem ControlField.clwaitTimeout (key : Nat) : ControlField.Statement (.clwaitTimeout key) := Row.names_none rfl
theorem ControlField.sleepcExpiry (key : Nat) : ControlField.Statement (.sleepcExpiry key) := Row.names_none rfl
theorem ControlField.teamStart (p : Placement) : ControlField.Statement (.teamStart p) := Row.names_none rfl
theorem ControlField.sliceExpiry (team : Nat) : ControlField.Statement (.sliceExpiry team) := Row.names_none rfl
theorem ControlField.preempt (team : Nat) : ControlField.Statement (.preempt team) := Row.names_none rfl
theorem ControlField.teamRestore (team : Nat) (p : Placement) : ControlField.Statement (.teamRestore team p) := Row.names_none rfl
theorem ControlField.kick (vd : Nat) (off : Nat) (size : Nat) (word : BitVec 64) : ControlField.Statement (.kick vd off size word) := Row.names_none rfl
theorem ControlField.packetFetch (vd : Nat) (iq : Nat) : ControlField.Statement (.packetFetch vd iq) := Row.names_none rfl
theorem ControlField.pseqRereadExpiry (vd : Nat) (iq : Nat) : ControlField.Statement (.pseqRereadExpiry vd iq) := Row.names_none rfl
theorem ControlField.packetStart (vd : Nat) (iq : Nat) (idx : Nat) : ControlField.Statement (.packetStart vd iq idx) := Row.names_none rfl
theorem ControlField.preJobsDone (vd : Nat) (iq : Nat) (idx : Nat) : ControlField.Statement (.preJobsDone vd iq idx) := Row.names_none rfl
theorem ControlField.waitPacketSatisfied (vd : Nat) (iq : Nat) (idx : Nat) : ControlField.Statement (.waitPacketSatisfied vd iq idx) := Row.names_none rfl
theorem ControlField.waitPacketTimeout (vd : Nat) (iq : Nat) (idx : Nat) : ControlField.Statement (.waitPacketTimeout vd iq idx) := Row.names_none rfl
theorem ControlField.bundleRetire (vd : Nat) (iq : Nat) (idx : Nat) : ControlField.Statement (.bundleRetire vd iq idx) := Row.names_none rfl
theorem ControlField.packetComplete (vd : Nat) (iq : Nat) (idx : Nat) : ControlField.Statement (.packetComplete vd iq idx) := Row.names_none rfl
theorem ControlField.create (e : CmdEntry) : ControlField.Statement (.create e) := Row.names_none rfl
theorem ControlField.destroy (e : CmdEntry) : ControlField.Statement (.destroy e) := Row.names_none rfl
theorem ControlField.activate (e : CmdEntry) : ControlField.Statement (.activate e) := Row.names_none rfl
theorem ControlField.deactivate (e : CmdEntry) : ControlField.Statement (.deactivate e) := Row.names_none rfl
theorem ControlField.pause (e : CmdEntry) : ControlField.Statement (.pause e) := Row.names_none rfl
theorem ControlField.resume (e : CmdEntry) : ControlField.Statement (.resume e) := Row.names_none rfl
theorem ControlField.kill (e : CmdEntry) : ControlField.Statement (.kill e) := Row.names_none rfl
theorem ControlField.partition (e : CmdEntry) : ControlField.Statement (.partition e) := Row.names_none rfl
theorem ControlField.setcfgWeight (e : CmdEntry) : ControlField.Statement (.setcfgWeight e) := Row.names_none rfl
theorem ControlField.setcfgHbmWeir (e : CmdEntry) : ControlField.Statement (.setcfgHbmWeir e) := Row.names_none rfl
theorem ControlField.setcfgBrixayWeir (e : CmdEntry) : ControlField.Statement (.setcfgBrixayWeir e) := Row.names_none rfl
theorem ControlField.setcfgPeer (e : CmdEntry) : ControlField.Statement (.setcfgPeer e) := Row.names_none rfl
theorem ControlField.setcfgGqtbase (e : CmdEntry) : ControlField.Statement (.setcfgGqtbase e) := Row.names_none rfl
theorem ControlField.setcfgGroot (e : CmdEntry) : ControlField.Statement (.setcfgGroot e) := Row.names_none rfl
theorem ControlField.setcfgHroot (e : CmdEntry) : ControlField.Statement (.setcfgHroot e) := Row.names_none rfl
theorem ControlField.setcfgRemap (e : CmdEntry) : ControlField.Statement (.setcfgRemap e) := Row.names_none rfl
theorem ControlField.setcfgModes (e : CmdEntry) : ControlField.Statement (.setcfgModes e) := Row.names_none rfl
theorem ControlField.setcfgStackPool (e : CmdEntry) : ControlField.Statement (.setcfgStackPool e) := Row.names_none rfl
theorem ControlField.setcfgSavePool (e : CmdEntry) : ControlField.Statement (.setcfgSavePool e) := Row.names_none rfl
theorem ControlField.setcfgSlice (e : CmdEntry) : ControlField.Statement (.setcfgSlice e) := Row.names_none rfl
theorem ControlField.setcfgPowerLimit (e : CmdEntry) : ControlField.Statement (.setcfgPowerLimit e) := Row.names_none rfl
theorem ControlField.gen (e : CmdEntry) : ControlField.Statement (.gen e) := Row.names_none rfl
theorem ControlField.qbind (e : CmdEntry) : ControlField.Statement (.qbind e) := Row.names_none rfl
theorem ControlField.qctlEnable (e : CmdEntry) : ControlField.Statement (.qctlEnable e) := Row.names_none rfl
theorem ControlField.qctlResume (e : CmdEntry) : ControlField.Statement (.qctlResume e) := Row.names_none rfl
theorem ControlField.qctlReset (e : CmdEntry) : ControlField.Statement (.qctlReset e) := Row.names_none rfl
theorem ControlField.grant (e : CmdEntry) : ControlField.Statement (.grant e) := Row.names_none rfl
theorem ControlField.comm (e : CmdEntry) : ControlField.Statement (.comm e) := Row.names_none rfl
theorem ControlField.podnum (e : CmdEntry) : ControlField.Statement (.podnum e) := Row.names_none rfl
theorem ControlField.deviceReset  : ControlField.Statement (.deviceReset ) := Row.names_none rfl
theorem ControlField.dieReset (die : Nat) : ControlField.Statement (.dieReset die) := Row.names_none rfl
theorem ControlField.dieLoss (die : Nat) : ControlField.Statement (.dieLoss die) := Row.names_none rfl
theorem ControlField.dielostTrap (key : Nat) : ControlField.Statement (.dielostTrap key) := Row.names_none rfl
theorem ControlField.sparePromotion (die : Nat) : ControlField.Statement (.sparePromotion die) := Row.names_none rfl
theorem ControlField.staleResponse (r : StaleMsg) : ControlField.Statement (.staleResponse r) := Row.names_none rfl
theorem ControlField.uncorrectableError (site : ErrSite) : ControlField.Statement (.uncorrectableError site) := Row.names_none rfl
theorem ControlField.hwerrTaken (key : Nat) : ControlField.Statement (.hwerrTaken key) := Row.names_none rfl
theorem ControlField.kaInjection (k : KaResult) : ControlField.Statement (.kaInjection k) := Row.names_none rfl
theorem ControlField.scrubSector (sector : Nat) (found : ScrubFound) : ControlField.Statement (.scrubSector sector found) := Row.names_none rfl
theorem ControlField.scrubWrite (sector : Nat) : ControlField.Statement (.scrubWrite sector) := Row.names_none rfl
theorem ControlField.vfFlr (vd : Nat) : ControlField.Statement (.vfFlr vd) := Row.names_none rfl
theorem ControlField.pfFlr  : ControlField.Statement (.pfFlr ) := Row.names_none rfl
theorem ControlField.d3hotEntry  : ControlField.Statement (.d3hotEntry ) := Row.names_none rfl
theorem ControlField.d0Return  : ControlField.Statement (.d0Return ) := Row.names_none rfl
theorem ControlField.thermalThrottle (junction : Nat) (watts : Nat) : ControlField.Statement (.thermalThrottle junction watts) := Row.names_none rfl
theorem ControlField.thermalStop (junction : Nat) : ControlField.Statement (.thermalStop junction) := Row.names_none rfl
theorem ControlField.getVersion (q : SpdmReq) : ControlField.Statement (.getVersion q) := Row.names_none rfl
theorem ControlField.getCapabilities (q : SpdmReq) : ControlField.Statement (.getCapabilities q) := Row.names_none rfl
theorem ControlField.negotiateAlgorithms (q : SpdmReq) : ControlField.Statement (.negotiateAlgorithms q) := Row.names_none rfl
theorem ControlField.getDigests (q : SpdmReq) : ControlField.Statement (.getDigests q) := Row.names_none rfl
theorem ControlField.getCertificate (q : SpdmReq) : ControlField.Statement (.getCertificate q) := Row.names_none rfl
theorem ControlField.challenge (q : SpdmReq) : ControlField.Statement (.challenge q) := Row.names_none rfl
theorem ControlField.getMeasurements (q : SpdmReq) : ControlField.Statement (.getMeasurements q) := Row.names_none rfl
theorem ControlField.keyExchange (q : SpdmReq) : ControlField.Statement (.keyExchange q) := Row.names_none rfl
theorem ControlField.finish (q : SpdmReq) : ControlField.Statement (.finish q) := Row.names_none rfl
theorem ControlField.keyUpdate (q : SpdmReq) : ControlField.Statement (.keyUpdate q) := Row.names_none rfl
theorem ControlField.endSession (q : SpdmReq) : ControlField.Statement (.endSession q) := Row.names_none rfl
theorem ControlField.lockInterfaceRequest (vd : Nat) : ControlField.Statement (.lockInterfaceRequest vd) := Row.names_none rfl
theorem ControlField.stopInterfaceRequest (vd : Nat) : ControlField.Statement (.stopInterfaceRequest vd) := Row.names_none rfl
theorem ControlField.freorImageLoad (img : FreorImage) : ControlField.Statement (.freorImageLoad img) := Row.names_none rfl
theorem ControlField.freorDirtyLogDrain (vd : Nat) (x : LogDrain) : ControlField.Statement (.freorDirtyLogDrain vd x) := Row.names_none rfl
theorem ControlField.retirementListClear (x : RetireEntry) : ControlField.Statement (.retirementListClear x) := Row.names_none rfl
theorem ControlField.fabricError (job : Nat) : ControlField.Statement (.fabricError job) := Row.names_none rfl
theorem ControlField.fbenWrite (vd : Nat) (value : BitVec 64) : ControlField.Statement (.fbenWrite vd value) := Row.names_none rfl
theorem ControlField.l2Eviction (die : Nat) (sector : Nat) : ControlField.Statement (.l2Eviction die sector) := Row.names_none rfl
theorem ControlField.migration (key : Nat) (core : Nat) (quad : Nat) : ControlField.Statement (.migration key core quad) := Row.names_none rfl
theorem ControlField.freorCollectiveSetup (vd : Nat) (cnum : Nat) (cr : CommRec) : ControlField.Statement (.freorCollectiveSetup vd cnum cr) := Row.names_none rfl
theorem ControlField.ideKmKeyProgramming (session : Nat) (stream : Nat) (key : BitVec 256) : ControlField.Statement (.ideKmKeyProgramming session stream key) := Row.names_none rfl
theorem ControlField.startInterfaceRequest (vd : Nat) : ControlField.Statement (.startInterfaceRequest vd) := Row.names_none rfl
theorem ControlField.interfaceReportRequest (vd : Nat) : ControlField.Statement (.interfaceReportRequest vd) := Row.names_none rfl
theorem ControlField.msixVectorUnmask (func : Nat) (vec : Nat) : ControlField.Statement (.msixVectorUnmask func vec) := Row.names_none rfl

end Laws
end Sys2Proof
end

