-- ==== Sys2Proof/Laws/Encoding.lean ====
section
/-! SUPPORT. Encoding: the fields of an encoded row are the fields it was made of, and they pass the checks of the decoder (R73 to R83). -/
namespace Sys2Proof

/-! ## One field -/

theorem Opnd.code_lt (x : Opnd) : x.code < 1024 := by cases x <;> simp only [Opnd.code] <;> omega
@[simp] theorem Opnd.ofCode_code (x : Opnd) : Opnd.ofCode x.code = some x := by
  cases x with
  | v k => have := k.isLt; simp [Opnd.code, Opnd.ofCode, this]
  | s k =>
    have := k.isLt
    show Opnd.ofCode (640 + k.val) = _
    unfold Opnd.ofCode
    rw [dif_neg (by omega), dif_pos (by omega)]
    simp only [Nat.add_sub_cancel_left]
  | p k =>
    have := k.isLt
    show Opnd.ofCode (704 + k.val) = _
    unfold Opnd.ofCode
    rw [dif_neg (by omega), dif_neg (by omega), dif_pos (by omega)]
    simp only [Nat.add_sub_cancel_left]
  | zero => rfl
  | laneid => rfl
theorem Perm.code_lt (x : Perm) : x.code < 256 := by cases x <;> simp only [Perm.code] <;> omega
@[simp] theorem Perm.ofCode_code (x : Perm) : Perm.ofCode x.code = some x := by
  cases x with
  | none => rfl
  | mir => rfl
  | rot m => have := m.isLt; simp [Perm.code, Perm.ofCode, show (m.val * 8 + 1) % 8 = 1 by omega, show (m.val * 8 + 1) / 8 = m.val by omega]
  | bcast m => have := m.isLt; simp [Perm.code, Perm.ofCode, show (m.val * 8 + 2) % 8 = 2 by omega, show (m.val * 8 + 2) / 8 = m.val by omega]
  | bfly m => have := m.isLt; simp [Perm.code, Perm.ofCode, show (m.val * 8 + 3) % 8 = 3 by omega, show (m.val * 8 + 3) / 8 = m.val by omega]
  | rot8 m => have := m.isLt; simp [Perm.code, Perm.ofCode, show (m.val * 8 + 5) % 8 = 5 by omega, show (m.val * 8 + 5) / 8 = m.val by omega]
@[simp] theorem opndOf_code (x : Opnd) : opndOf x.code = x := by simp [opndOf]
@[simp] theorem permOf_code (x : Perm) : permOf x.code = x := by simp [permOf]
/-- What a field accepts passes check 6. -/
theorem Use.check6_of_ok {u : Use} {x : Opnd} {p : Perm} (h : u.okFor x p = true) : u.check6 x.code p.code = true := by
  simp [Use.check6, h]
/-- What a field accepts passes check 5. -/
theorem Use.check5_of_ok {u : Use} {x : Opnd} {p : Perm} (h : u.okFor x p = true) : u.check5 x.code p.code = true := by
  unfold Use.okFor at h
  unfold Use.check5
  split at h
  · simp only [Bool.and_eq_true, Bool.or_eq_true, beq_iff_eq] at h
    rcases h.2 with rfl | hp
    · simp [*, Perm.code]
    · obtain ⟨k, rfl⟩ : ∃ k, x = .v k := by cases x <;> simp_all [Opnd.isV]
      have : ¬ 640 ≤ k.val := Nat.not_le.2 k.isLt
      rw [if_pos ‹_›]; rcases hp.1 with hp | hp <;> simp [hp, Opnd.code, this]
  · simp only [Bool.and_eq_true, beq_iff_eq] at h
    obtain ⟨rfl, rfl⟩ := h
    simp [*, Opnd.code, Perm.code]
/-- The guard bits of a guard, as a number below 64 in place. -/
theorem guardBits_eq (g : Option Guard) : ∃ n < 64, guardBits g = n * 2 ^ 11 ∧ ∀ w, fld w 16 11 = n → guardOf w = g ∧ guardOk w = true := by
  cases g with
  | none =>
    refine ⟨0, by decide, rfl, fun w h => ?_⟩
    have h0 : fld w 16 12 = 0 := by unfold fld at *; omega
    have hb : bit w 11 = false := bit_eq (by unfold fld at h; show _ = 0; omega)
    simp [guardOf, guardOk, hb, h0]
  | some g =>
    obtain ⟨p, n⟩ := g
    have hp := p.isLt
    have hn := b2n_lt n
    refine ⟨1 + p.val * 2 + b2n n * 32, by omega, by simp only [guardBits]; omega, fun w h => ?_⟩
    have h0 : fld w 15 12 = p.val := by unfold fld at *; omega
    have hb : bit w 11 = true := bit_eq (by unfold fld at h; show _ = 1; omega)
    have hc : bit w 16 = n := bit_eq (by unfold fld at h; omega)
    refine ⟨?_, by simp [guardOk, hb]⟩
    simp only [guardOf, hb, if_true, h0, hc]
    congr 2
    ext; simp


/-! ## Whole words -/

/-- An opcode with a layout has nine bits. -/
theorem formsOf_big {opc : Nat} {f : Form} (h : (formsOf opc).contains f = true) : opc < 512 := by
  by_contra hc
  have hm : ∀ r ∈ opcodeMap, r.2.1 < 512 := by decide
  have : formsOf opc = [] := by
    unfold formsOf
    rw [List.find?_eq_none.2]
    intro r hr; have := hm r hr; simp; omega
  rw [this] at h; simp at h
/-- LEN picks a layout among those of an opcode (R71, R82). -/
theorem formsOf_find {opc : Nat} {f : Form} (h : (formsOf opc).contains f = true) : (formsOf opc).find? (fun g => g.len == f.len) = some f := by
  have hm : ∀ r ∈ opcodeMap, ∀ f ∈ r.2.2, r.2.2.find? (fun g => g.len == f.len) = some f := by decide
  unfold formsOf at *
  split at h
  · rename_i r hr
    exact hm r (List.mem_of_find?_eq_some hr) f (by simpa using h)
  · simp at h
/-- The layout is found, and the word has no bits above it. -/
theorem decode_of {w : Nat} {f : Form} (h : (formsOf (opcOf w)).contains f = true) (hl : fld w 1 0 = f.len) (hw : w < 2 ^ (8 * f.bytes)) :
    decode w = decodeBody f w := by
  unfold decode formOf
  rw [hl, formsOf_find h]
  simp only []
  rw [Nat.mod_eq_of_lt hw]
/-- The fields of an encoded three-operand row. -/
theorem rawOps_bits {opc : Nat} {o : Ops} {ctl : Nat} {u ok ok6} (hopc : opc < 512) (hs : o.shapeOk = true) (hn : ctl < 2^15) :
    let w := (Row.ops opc o ctl u ok ok6).bits
    fld w 1 0 = (Form.ofFmt o.fmt).len ∧ opcOf w = opc ∧ guardOk w = true ∧ w < 2 ^ (8 * (Form.ofFmt o.fmt).bytes) ∧
    rawOps o.fmt w = ⟨o, ctl, o.d.code, o.a.code, o.b.code, o.c.code, o.pa.code, o.pb.code, o.pc.code⟩ := by
  obtain ⟨fmt, g, d, a, b, c, pa, pb, pc, imm⟩ := o
  obtain ⟨G, hG, hg, hw⟩ := guardBits_eq g
  have hd := d.code_lt
  have ha := a.code_lt
  have hb := b.code_lt
  have hc := c.code_lt
  have hpa := pa.code_lt
  have hpb := pb.code_lt
  have hpc := pc.code_lt
  have him := imm.isLt
  intro w
  cases fmt with
  | f64 =>
    simp [Ops.shapeOk] at hs
    obtain ⟨⟨⟨⟨rfl, rfl⟩, rfl⟩, rfl⟩, rfl⟩ := hs
    have hwe : w = 0 + opc * 4 + G * 2^11 + d.code * 2 ^ 17 + a.code * 2 ^ 27 + b.code * 2 ^ 37 + ctl * 2 ^ 47 := by
      simp only [w, Row.bits, hg]; rfl
    clear_value w
    have e1 : fld w 26 17 = d.code := by unfold fld; omega
    have e2 : fld w 36 27 = a.code := by unfold fld; omega
    have e3 : fld w 46 37 = b.code := by unfold fld; omega
    have e4 : fld w 63 47 = ctl := by unfold fld; omega
    have e5 := hw w (by unfold fld; omega)
    refine ⟨by unfold fld; simp only [Form.ofFmt, Form.len]; omega, by unfold opcOf fld; omega, e5.2, by simp only [Form.ofFmt, Form.bytes]; omega, ?_⟩
    simp [rawOps, e1, e2, e3, e4, e5.1, show (Opnd.v 0).code = 0 from rfl, show Perm.none.code = 0 from rfl]
  | f96 =>
    simp [Ops.shapeOk] at hs
    subst hs
    have hwe : w = 1 + opc * 4 + G * 2^11 + d.code * 2 ^ 17 + a.code * 2 ^ 27 + b.code * 2 ^ 37 + c.code * 2 ^ 47 + pa.code * 2 ^ 57 + pb.code * 2 ^ 65 + pc.code * 2 ^ 73 + ctl * 2 ^ 81 := by
      simp only [w, Row.bits, hg]; rfl
    clear_value w
    have e1 : fld w 26 17 = d.code := by unfold fld; omega
    have e2 : fld w 36 27 = a.code := by unfold fld; omega
    have e3 : fld w 46 37 = b.code := by unfold fld; omega
    have e4 : fld w 56 47 = c.code := by unfold fld; omega
    have e6 : fld w 64 57 = pa.code := by unfold fld; omega
    have e7 : fld w 72 65 = pb.code := by unfold fld; omega
    have e8 : fld w 80 73 = pc.code := by unfold fld; omega
    have e9 : fld w 95 81 = ctl := by unfold fld; omega
    have e5 := hw w (by unfold fld; omega)
    refine ⟨by unfold fld; simp only [Form.ofFmt, Form.len]; omega, by unfold opcOf fld; omega, e5.2, by simp only [Form.ofFmt, Form.bytes]; omega, ?_⟩
    simp [rawOps, e1, e2, e3, e4, e5.1, e6, e7, e8, e9]
  | f128i =>
    simp [Ops.shapeOk] at hs
    obtain ⟨⟨⟨rfl, rfl⟩, rfl⟩, rfl⟩ := hs
    have hwe : w = 2 + opc * 4 + G * 2^11 + d.code * 2 ^ 17 + a.code * 2 ^ 27 + b.code * 2 ^ 37 + ctl * 2 ^ 47 + imm.toNat * 2 ^ 64 := by
      simp only [w, Row.bits, hg]; rfl
    clear_value w
    have e1 : fld w 26 17 = d.code := by unfold fld; omega
    have e2 : fld w 36 27 = a.code := by unfold fld; omega
    have e3 : fld w 46 37 = b.code := by unfold fld; omega
    have e4 : fld w 63 47 = ctl := by unfold fld; omega
    have e6 : fld w 127 64 = imm.toNat := by unfold fld; omega
    have e5 := hw w (by unfold fld; omega)
    refine ⟨by unfold fld; simp only [Form.ofFmt, Form.len]; omega, by unfold opcOf fld; omega, e5.2, by simp only [Form.ofFmt, Form.bytes]; omega, ?_⟩
    simp [rawOps, e1, e2, e3, e4, e5.1, e6, show (Opnd.v 0).code = 0 from rfl, show Perm.none.code = 0 from rfl]

end Sys2Proof
end

