-- ==== Sys2Proof/Laws/Maps.lean ====
section
/-! SUPPORT. Laws of Maps: what lookup finds after each update, and that updates keep keys strictly rising. -/
namespace Sys2Proof

/-- Keys strictly rise. -/
def AMap.sorted {α : Type} : AMap α → Prop
  | [] => True
  | [_] => True
  | (a, _) :: (b, y) :: m => a < b ∧ AMap.sorted ((b, y) :: m)

variable {α : Type}

@[simp] theorem mfind_nil (k : Nat) : mfind ([] : AMap α) k = none := rfl
@[simp] theorem mget_nil (d : α) (k : Nat) : mget d ([] : AMap α) k = d := rfl

@[simp] theorem mfind_mset_self (m : AMap α) (k : Nat) (x : α) : mfind (mset m k x) k = some x := by
  induction m with
  | nil => simp [mset, mfind]
  | cons e m ih =>
    obtain ⟨j, y⟩ := e
    simp only [mset]
    split
    · simp [mfind]
    · split
      · simp [mfind]
      · rename_i h1 h2
        simp only [mfind, ih]
        split
        · omega
        · rfl

theorem mfind_mset_ne (m : AMap α) {j k : Nat} (x : α) (h : j ≠ k) : mfind (mset m k x) j = mfind m j := by
  induction m with
  | nil => simp [mset, mfind, Ne.symm h]
  | cons e m ih =>
    obtain ⟨i, y⟩ := e
    simp only [mset]
    split
    · simp [mfind, Ne.symm h]
    · split
      · rename_i _ h2
        subst h2
        simp [mfind, Ne.symm h]
      · simp only [mfind, ih]

theorem mfind_mset (m : AMap α) (j k : Nat) (x : α) : mfind (mset m k x) j = if j = k then some x else mfind m j := by
  split
  · subst_vars; simp
  · exact mfind_mset_ne m x ‹_›

@[simp] theorem mget_mset_self (d : α) (m : AMap α) (k : Nat) (x : α) : mget d (mset m k x) k = x := by simp [mget]
theorem mget_mset_ne (d : α) (m : AMap α) {j k : Nat} (x : α) (h : j ≠ k) : mget d (mset m k x) j = mget d m j := by
  simp [mget, mfind_mset_ne m x h]
theorem mget_mset (d : α) (m : AMap α) (j k : Nat) (x : α) : mget d (mset m k x) j = if j = k then x else mget d m j := by
  simp only [mget, mfind_mset]; split <;> rfl

@[simp] theorem mset_mset (m : AMap α) (k : Nat) (x y : α) : mset (mset m k x) k y = mset m k y := by
  induction m with
  | nil => simp [mset]
  | cons e m ih =>
    obtain ⟨j, z⟩ := e
    simp only [mset]
    split
    · simp [mset]
    · split
      · simp [mset]
      · simp [mset, *]

@[simp] theorem mfind_mdel_self (m : AMap α) (k : Nat) : mfind (mdel m k) k = none := by
  induction m with
  | nil => rfl
  | cons e m ih =>
    obtain ⟨i, y⟩ := e
    simp only [mdel]
    split
    · exact ih
    · simp [mfind, *]

theorem mfind_mdel_ne (m : AMap α) {j k : Nat} (h : j ≠ k) : mfind (mdel m k) j = mfind m j := by
  induction m with
  | nil => rfl
  | cons e m ih =>
    obtain ⟨i, y⟩ := e
    simp only [mdel]
    split
    · rename_i h'; subst h'; simp [mfind, Ne.symm h, ih]
    · simp only [mfind, ih]

theorem mfind_eq_none_of_lt (m : AMap α) {j : Nat} (y : α) {k : Nat} (h : k < j) (hs : AMap.sorted ((j, y) :: m)) : mfind m k = none := by
  induction m generalizing j y with
  | nil => rfl
  | cons e m ih =>
    obtain ⟨i, z⟩ := e
    obtain ⟨h1, h2⟩ := hs
    have : i ≠ k := by omega
    simp [mfind, this, ih z (by omega) h2]

/-- A map whose keys rise is known by what lookup finds in it. -/
theorem AMap.tail_sorted {e : Nat × α} {m : AMap α} (h : AMap.sorted (e :: m)) : AMap.sorted m := by
  cases m with
  | nil => trivial
  | cons f m => exact h.2

theorem AMap.sorted_mset (m : AMap α) (k : Nat) (x : α) (h : AMap.sorted m) : AMap.sorted (mset m k x) := by
  induction m with
  | nil => simp [mset, AMap.sorted]
  | cons e m ih =>
    obtain ⟨i, y⟩ := e
    simp only [mset]
    split
    · exact ⟨‹_›, h⟩
    · split
      · rename_i _ h2
        subst h2
        cases m with
        | nil => simp [AMap.sorted]
        | cons f m => exact h
      · have hm := ih (AMap.tail_sorted h)
        cases m with
        | nil => simp only [mset]; exact ⟨by omega, trivial⟩
        | cons f m =>
          obtain ⟨j, z⟩ := f
          simp only [mset] at hm ⊢
          have hij := h.1
          split
          · rename_i h1; simp only [h1, if_true] at hm; exact ⟨by omega, hm⟩
          · split
            · rename_i h1 h2; simp only [h2, Nat.lt_irrefl, if_false, if_true] at hm hij ⊢; exact ⟨by omega, hm⟩
            · rename_i h1 h2; simp only [h1, h2, if_false] at hm; exact ⟨hij, hm⟩

/-- Keys rise when every key lies below all later ones. -/
theorem AMap.sorted_iff_pairwise (m : AMap α) : AMap.sorted m ↔ m.Pairwise (fun e f => e.1 < f.1) := by
  induction m with
  | nil => simp [AMap.sorted]
  | cons e m ih =>
    cases m with
    | nil => simp [AMap.sorted]
    | cons f m =>
      simp only [AMap.sorted]
      rw [ih, List.pairwise_cons (a := e)]
      constructor
      · rintro ⟨h, hp⟩
        refine ⟨?_, hp⟩
        intro x hx
        rcases List.mem_cons.1 hx with rfl | hx
        · exact h
        · exact Nat.lt_trans h ((List.pairwise_cons.1 hp).1 x hx)
      · rintro ⟨h, hp⟩
        exact ⟨h f (by simp), hp⟩

end Sys2Proof
end

