-- ==== Sys2Proof/Laws/Mem.lean ====
section
/-! SUPPORT. Mem: reads after writes, and every operation on a store keeps its canonical form (R213). -/
namespace Sys2Proof.Machine

/-! ## One store -/

/-- The canonical form is that the addresses rise. -/
theorem Mem.wf_iff (m : Mem) : Mem.wf m = true ↔ AMap.sorted m := by
  induction m with
  | nil => simp [Mem.wf, AMap.sorted]
  | cons e m ih => cases m with
    | nil => simp [Mem.wf, AMap.sorted]
    | cons f m => simp [Mem.wf, AMap.sorted, ih]

theorem Mem.wf_write {m : Mem} (a : Nat) (b : Byte) (h : Mem.wf m = true) : Mem.wf (Mem.write m a b) = true := by
  rw [Mem.wf_iff] at h ⊢; exact AMap.sorted_mset m a b h
theorem Mem.wf_writeAll {m : Mem} (bs : List (Nat × Byte)) (h : Mem.wf m = true) : Mem.wf (Mem.writeAll m bs) = true := by
  induction bs generalizing m with
  | nil => exact h
  | cons e bs ih => exact ih (Mem.wf_write e.1 e.2 h)
theorem Mem.wf_filter {m : Mem} (f : Nat × Byte → Bool) (h : Mem.wf m = true) : Mem.wf (m.filter f) = true := by
  rw [Mem.wf_iff, AMap.sorted_iff_pairwise] at *
  exact h.filter f
theorem Mem.wf_slice {m : Mem} (lo hi : Nat) (h : Mem.wf m = true) : Mem.wf (Mem.slice m lo hi) = true := Mem.wf_filter _ h
theorem Mem.wf_erase {m : Mem} (lo hi : Nat) (h : Mem.wf m = true) : Mem.wf (Mem.erase m lo hi) = true := Mem.wf_filter _ h

/-- A read after a write of the same address. -/
@[simp] theorem Mem.read_write_self (m : Mem) (a : Nat) (b : Byte) : Mem.read (Mem.write m a b) a = some b := mfind_mset_self m a b
/-- A write leaves every other address alone. -/
theorem Mem.read_write_ne (m : Mem) {a c : Nat} (b : Byte) (h : c ≠ a) : Mem.read (Mem.write m a b) c = Mem.read m c := mfind_mset_ne m b h
/-- Several writes leave every address they do not name alone. -/
theorem Mem.read_writeAll_ne (m : Mem) (bs : List (Nat × Byte)) {c : Nat} (h : ∀ e ∈ bs, e.1 ≠ c) : Mem.read (Mem.writeAll m bs) c = Mem.read m c := by
  induction bs generalizing m with
  | nil => rfl
  | cons e bs ih =>
    have h1 := h e (by simp)
    exact (ih (Mem.write m e.1 e.2) fun x hx => h x (by simp [hx])).trans (Mem.read_write_ne m e.2 (Ne.symm h1))
/-- The bytes of a run of addresses read as they were written. -/
theorem Mem.read_writeAll_bytesAt (m : Mem) (a : Nat) (bs : List Byte) {i : Nat} (h : i < bs.length) :
    Mem.read (Mem.writeAll m (bytesAt a bs)) (a + i) = bs[i]? := by
  suffices H : ∀ (bs : List Byte) (k i : Nat) (m : Mem), i < bs.length →
      Mem.read (Mem.writeAll m ((bs.zipIdx k).map fun e => (a + e.2, e.1))) (a + (k + i)) = bs[i]? by
    simpa [bytesAt] using H bs 0 i m h
  intro bs
  induction bs with
  | nil => intro k i m h; simp at h
  | cons b bs ih =>
    intro k i m h
    cases i with
    | zero =>
      simp only [List.zipIdx_cons, List.map_cons, Mem.writeAll, List.foldl_cons, Nat.add_zero, List.getElem?_cons_zero]
      refine (Mem.read_writeAll_ne _ _ ?_).trans (Mem.read_write_self _ _ _)
      intro e he
      simp only [List.mem_map] at he
      obtain ⟨x, hx, rfl⟩ := he
      have := List.le_snd_of_mem_zipIdx hx
      simp only; omega
    | succ i =>
      have := ih (k + 1) i (Mem.write m (a + k) b) (by simpa using h)
      simpa [List.zipIdx_cons, Mem.writeAll, Nat.add_assoc, Nat.add_comm 1 i] using this
/-- Outside a run of addresses nothing changes. -/
theorem Mem.read_writeAll_bytesAt_ne (m : Mem) (a : Nat) (bs : List Byte) {c : Nat} (h : c < a ∨ a + bs.length ≤ c) :
    Mem.read (Mem.writeAll m (bytesAt a bs)) c = Mem.read m c := by
  refine Mem.read_writeAll_ne m _ ?_
  intro e he
  simp only [bytesAt, List.mem_map] at he
  obtain ⟨x, hx, rfl⟩ := he
  have := List.snd_lt_of_mem_zipIdx hx
  simp only; omega

/-! ## All stores -/

/-- A step from `s` to `t` keeps every store canonical. -/
def State.KeepsWf (s t : State) : Prop := s.safe → t.safe

theorem State.KeepsWf.rfl' (s : State) : s.KeepsWf s := id
theorem State.KeepsWf.trans {s t u : State} (h : s.KeepsWf t) (k : t.KeepsWf u) : s.KeepsWf u := fun x => k (h x)
/-- Whatever leaves the memory system alone keeps it. -/
theorem State.KeepsWf.of_mem {s t : State} (h : t.mem = s.mem) : s.KeepsWf t := fun x => by unfold State.safe at *; rw [h]; exact x
theorem State.KeepsWf.foldl {α : Type} (f : State → α → State) (xs : List α) (h : ∀ (s : State) (x : α), s.KeepsWf (f s x)) (s : State) :
    s.KeepsWf (xs.foldl f s) := by
  induction xs generalizing s with
  | nil => exact id
  | cons x xs ih => exact (h s x).trans (ih _)

theorem MemSys.wf_iff (m : MemSys) : m.wf = true ↔
    Mem.wf m.hbm = true ∧ Mem.wf m.host = true ∧ Mem.wf m.remote = true ∧ Mem.wf m.scratch = true ∧ Mem.wf m.tile = true ∧ Mem.wf m.side = true := by
  simp [MemSys.wf, and_assoc]
/-- A change of the memory system keeps the form if it keeps each store's. -/
theorem State.keepsWf_setMem (s : State) (f : MemSys → MemSys) (h : ∀ m : MemSys, m.wf = true → (f m).wf = true) : s.KeepsWf (s.setMem f) := h s.mem
/-- A change of the memory system that writes no store. -/
theorem State.keepsWf_setMem_same (s : State) (f : MemSys → MemSys)
    (h : ∀ m : MemSys, ((f m).hbm, (f m).host, (f m).remote, (f m).scratch, (f m).tile, (f m).side) = (m.hbm, m.host, m.remote, m.scratch, m.tile, m.side)) :
    s.KeepsWf (s.setMem f) := s.keepsWf_setMem f fun m hm => by
  have := h m
  simp only [Prod.mk.injEq] at this
  rw [MemSys.wf_iff] at hm ⊢
  obtain ⟨a, b, c, d, e, g⟩ := this
  rw [a, b, c, d, e, g]; exact hm

theorem State.reset_safe : State.reset.safe := by unfold State.safe; decide
theorem State.keepsWf_writeTile (s : State) (row col : Nat) (bs : List Byte) : s.KeepsWf (s.writeTile row col bs) :=
  s.keepsWf_setMem _ fun m h => by rw [MemSys.wf_iff] at h ⊢; exact ⟨h.1, h.2.1, h.2.2.1, h.2.2.2.1, Mem.wf_writeAll _ h.2.2.2.2.1, h.2.2.2.2.2⟩
theorem State.keepsWf_writeSide (s : State) (row col : Nat) (bs : List Byte) : s.KeepsWf (s.writeSide row col bs) :=
  s.keepsWf_setMem _ fun m h => by rw [MemSys.wf_iff] at h ⊢; exact ⟨h.1, h.2.1, h.2.2.1, h.2.2.2.1, h.2.2.2.2.1, Mem.wf_writeAll _ h.2.2.2.2.2⟩
theorem State.keepsWf_cisternWrite (s : State) (w : QStore) : s.KeepsWf (s.cisternWrite w) :=
  s.keepsWf_setMem _ fun m h => by rw [MemSys.wf_iff] at h ⊢; exact ⟨Mem.wf_writeAll _ h.1, h.2⟩
theorem State.keepsWf_mbWrite (s : State) (a : Nat) (o : MbObj) : s.KeepsWf (s.mbWrite a o) := by
  unfold State.mbWrite
  refine s.keepsWf_setMem _ fun m h => ?_
  have hb : ∃ bs, bytesAt a o.bytes = bs := ⟨_, rfl⟩
  obtain ⟨bs, hb⟩ := hb
  rw [hb]
  rw [MemSys.wf_iff] at h ⊢
  exact ⟨h.1, h.2.1, h.2.2.1, Mem.wf_writeAll bs h.2.2.2.1, h.2.2.2.2⟩
theorem State.keepsWf_l1Drop (s : State) (core : Nat) : s.KeepsWf (s.l1Drop core) := s.keepsWf_setMem_same _ fun _ => rfl
theorem State.keepsWf_l1Update (s : State) (core : Nat) (w : QStore) : s.KeepsWf (s.l1Update core w) := s.keepsWf_setMem_same _ fun _ => rfl
theorem State.keepsWf_l1Fill (s : State) (core sec vd : Nat) : s.KeepsWf (s.l1Fill core sec vd) := by
  unfold State.l1Fill
  split
  · exact id
  · exact s.keepsWf_setMem_same _ fun _ => rfl
theorem State.keepsWf_writeBackCopy (s : State) (c : L2Copy) : s.KeepsWf (s.writeBackCopy c) := by
  unfold State.writeBackCopy
  simp only []
  split
  · exact id
  · exact (s.keepsWf_cisternWrite _).trans (State.keepsWf_setMem_same _ _ fun _ => rfl)
theorem State.keepsWf_l2Evict (s : State) (f : L2Copy → Bool) : s.KeepsWf (s.l2Evict f) :=
  (State.KeepsWf.foldl _ _ (fun s c => s.keepsWf_writeBackCopy c) s).trans (State.keepsWf_setMem_same _ _ fun _ => rfl)
theorem State.keepsWf_meet (s : State) (vd : Option Nat) (secs : List Nat) : s.KeepsWf (s.meet vd secs) := by
  unfold State.meet
  split
  · exact id
  · exact s.keepsWf_setMem_same _ fun _ => rfl
theorem State.keepsWf_l2Fill (s : State) (die sec : Nat) (c : Bool) (vd : Nat) : s.KeepsWf (s.l2Fill die sec c vd) := by
  unfold State.l2Fill
  split
  · exact id
  · have met := s.keepsWf_meet (some vd) [sec]
    generalize s.meet (some vd) [sec] = u at met ⊢
    simp only []
    split
    · exact (met.trans (u.keepsWf_l2Evict _)).trans (State.keepsWf_setMem_same _ _ fun _ => rfl)
    · exact met.trans (u.keepsWf_setMem_same _ fun _ => rfl)
theorem State.keepsWf_l2Drop (s : State) (die : Nat) (secs : List Nat) : s.KeepsWf (s.l2Drop die secs) := s.keepsWf_setMem_same _ fun _ => rfl
theorem State.keepsWf_l2Put (s : State) (die : Nat) (w : QStore) (dirty : Bool) (sec : Nat) : s.KeepsWf (s.l2Put die w dirty sec) :=
  (s.keepsWf_l2Fill die sec w.dieCoh w.vd).trans (State.keepsWf_setMem_same _ _ fun _ => rfl)
theorem State.keepsWf_l2Apply (s : State) (die : Nat) (w : QStore) (dirty : Bool) : s.KeepsWf (s.l2Apply die w dirty) :=
  State.KeepsWf.foldl _ _ (fun s c => s.keepsWf_l2Put die w dirty c) s
theorem State.keepsWf_l2Accept (s : State) (die : Nat) (w : QStore) : s.KeepsWf (s.l2Accept die w) := by
  unfold State.l2Accept
  simp only []
  split
  · exact s.keepsWf_l2Apply die w _
  · exact (s.keepsWf_l2Apply die w _).trans (State.keepsWf_setMem_same _ _ fun _ => rfl)
theorem State.keepsWf_forwardOne (s : State) (die : Nat) : s.KeepsWf (s.forwardOne die) := by
  unfold State.forwardOne
  split
  · exact id
  · rename_i f _
    refine State.KeepsWf.trans (State.KeepsWf.trans (t := s.setMem fun m => { m with fwd := m.fwd.erase f }) ?_ (State.keepsWf_cisternWrite _ f.write)) ?_
    · exact s.keepsWf_setMem_same _ fun _ => rfl
    · exact State.keepsWf_setMem_same _ _ fun _ => rfl
theorem State.keepsWf_ackOne (s : State) (die : Nat) : s.KeepsWf (s.ackOne die) := by
  unfold State.ackOne
  split
  · exact id
  · rename_i f _
    refine State.KeepsWf.trans (t := s.setMem fun m => { m with acks := m.acks.erase f }) ?_ (State.keepsWf_l2Drop _ (1 - die) f.write.sectors)
    exact s.keepsWf_setMem_same _ fun _ => rfl
theorem State.keepsWf_flushDie (s : State) (die : Nat) : s.KeepsWf (s.flushDie die) := by
  unfold State.flushDie
  exact (State.KeepsWf.foldl (fun s (_ : Nat) => s.forwardOne die) _ (fun s _ => s.keepsWf_forwardOne die) s).trans
    (State.KeepsWf.foldl (fun s (_ : Nat) => s.ackOne die) _ (fun s _ => s.keepsWf_ackOne die) _)
theorem State.keepsWf_writeBack (s : State) (die vd : Nat) (f : Nat → Bool) : s.KeepsWf (s.writeBack die vd f) :=
  State.KeepsWf.foldl _ _ (fun s c => s.keepsWf_writeBackCopy c) s
theorem State.keepsWf_updTeam (s : State) (k : Nat) (f : Team → Team) : s.KeepsWf (s.updTeam k f) := State.KeepsWf.of_mem (by
  unfold State.updTeam; split <;> rfl)
theorem State.keepsWf_updVd (s : State) (k : Nat) (f : VD → VD) : s.KeepsWf (s.updVd k f) := State.KeepsWf.of_mem rfl
theorem State.keepsWf_mark (s : State) (tid : Nat) (w : Option Carrier) (d : List Dirty) : s.KeepsWf (s.mark tid w d) :=
  State.KeepsWf.of_mem (by unfold State.mark; split <;> rfl)
theorem State.keepsWf_markDirty (s : State) (tid : Nat) (w : Option Carrier) (d : List Dirty) : s.KeepsWf (s.markDirty tid w d) :=
  (s.keepsWf_mark tid w d).trans (State.keepsWf_updTeam _ _ _)
theorem State.keepsWf_bumpFree (s : State) : s.KeepsWf s.bumpFree := State.KeepsWf.of_mem rfl
theorem State.keepsWf_dropInit (s : State) (bs : List (Nat × Byte)) : s.KeepsWf (s.dropInit bs) := by
  unfold State.dropInit
  split
  · exact id
  · refine State.KeepsWf.trans ?_ (State.keepsWf_bumpFree _)
    exact s.keepsWf_setMem _ fun m h => by rw [MemSys.wf_iff] at h ⊢; exact ⟨h.1, h.2.1, h.2.2.1, Mem.wf_writeAll _ h.2.2.2.1, h.2.2.2.2⟩
theorem State.keepsWf_markScratch (s : State) (w : Option Carrier) (bs : List (Nat × Byte)) : s.KeepsWf (s.markScratch w bs) :=
  State.KeepsWf.foldl _ _ (fun s _ => s.keepsWf_markDirty _ _ _) s
theorem State.keepsWf_enterView (s : State) (core : Nat) (writer : Option Carrier) (w : QStore) : s.KeepsWf (s.enterView core writer w) := by
  unfold State.enterView
  split
  · exact (s.keepsWf_l1Update core w).trans (State.keepsWf_l2Accept _ _ _)
  · exact (s.keepsWf_l1Update core w).trans (State.keepsWf_l2Apply _ _ _ _)
  · refine State.KeepsWf.trans (State.KeepsWf.trans ?_ (State.keepsWf_dropInit _ _)) (State.keepsWf_markScratch _ _ _)
    exact s.keepsWf_setMem _ fun m h => by rw [MemSys.wf_iff] at h ⊢; exact ⟨h.1, h.2.1, h.2.2.1, Mem.wf_writeAll _ h.2.2.2.1, h.2.2.2.2⟩
  · have host : s.KeepsWf (s.setMem fun m => { m with host := Mem.writeAll m.host w.bytes }) :=
      s.keepsWf_setMem _ fun m h => by rw [MemSys.wf_iff] at h ⊢; exact ⟨h.1, Mem.wf_writeAll _ h.2.1, h.2.2⟩
    simp only []
    split
    · exact host
    · exact host.trans (State.KeepsWf.of_mem rfl)
  · exact s.keepsWf_setMem _ fun m h => by rw [MemSys.wf_iff] at h ⊢; exact ⟨h.1, h.2.1, Mem.wf_writeAll _ h.2.2.1, h.2.2.2⟩
theorem State.keepsWf_wrote (s : State) (k : Option Nat) (r : Bool) (w : QStore) : s.KeepsWf (s.wrote k r w) := State.KeepsWf.of_mem rfl
theorem State.keepsWf_settleFence (s : State) (key : Nat) : s.KeepsWf (s.settleFence key) := by
  unfold State.settleFence
  split
  · rename_i die _
    exact State.KeepsWf.trans (t := { s with fenced := mdel s.fenced key }) (State.KeepsWf.of_mem rfl) (State.keepsWf_flushDie _ die)
  · exact id
theorem State.keepsWf_drainOne (s : State) (key : Nat) : s.KeepsWf (s.drainOne key) := by
  unfold State.drainOne
  split
  · exact id
  · split
    · exact id
    · rename_i g _ _ w q _
      have settled := s.keepsWf_settleFence key
      generalize s.settleFence key = u at settled ⊢
      have first : s.KeepsWf (u.setGroup key { g with sq := q }) := settled.trans (State.KeepsWf.of_mem rfl)
      exact (first.trans (State.keepsWf_enterView _ g.core _ w)).trans (State.keepsWf_wrote _ _ _ w)
theorem State.keepsWf_drain (s : State) (key : Nat) : s.KeepsWf (s.drain key) :=
  (s.keepsWf_settleFence key).trans (State.KeepsWf.foldl (fun s (_ : Nat) => s.drainOne key) _ (fun s _ => s.keepsWf_drainOne key) _)

end Sys2Proof.Machine
end

