-- ==== Sys2Proof/Laws/State.lean ====
section
/-! SUPPORT. Laws of State: one lemma per field per update of the state and of a group. -/
namespace Sys2Proof.Machine

/-! ## Updates of the state -/

@[simp] theorem State.setGroup_fuse (s : State) (k : Nat) (g : Group) : (s.setGroup k g).fuse = s.fuse := rfl
@[simp] theorem State.setGroup_remapWord (s : State) (k : Nat) (g : Group) : (s.setGroup k g).remapWord = s.remapWord := rfl
@[simp] theorem State.setGroup_retired (s : State) (k : Nat) (g : Group) : (s.setGroup k g).retired = s.retired := rfl
@[simp] theorem State.setGroup_lost (s : State) (k : Nat) (g : Group) : (s.setGroup k g).lost = s.lost := rfl
@[simp] theorem State.setGroup_inc0 (s : State) (k : Nat) (g : Group) : (s.setGroup k g).inc0 = s.inc0 := rfl
@[simp] theorem State.setGroup_inc1 (s : State) (k : Nat) (g : Group) : (s.setGroup k g).inc1 = s.inc1 := rfl
@[simp] theorem State.setGroup_kactl (s : State) (k : Nat) (g : Group) : (s.setGroup k g).kactl = s.kactl := rfl
@[simp] theorem State.setGroup_kastat (s : State) (k : Nat) (g : Group) : (s.setGroup k g).kastat = s.kastat := rfl
@[simp] theorem State.setGroup_err (s : State) (k : Nat) (g : Group) : (s.setGroup k g).err = s.err := rfl
@[simp] theorem State.setGroup_cmdEn (s : State) (k : Nat) (g : Group) : (s.setGroup k g).cmdEn = s.cmdEn := rfl
@[simp] theorem State.setGroup_cmdLog (s : State) (k : Nat) (g : Group) : (s.setGroup k g).cmdLog = s.cmdLog := rfl
@[simp] theorem State.setGroup_cmdBase (s : State) (k : Nat) (g : Group) : (s.setGroup k g).cmdBase = s.cmdBase := rfl
@[simp] theorem State.setGroup_cmdProd (s : State) (k : Nat) (g : Group) : (s.setGroup k g).cmdProd = s.cmdProd := rfl
@[simp] theorem State.setGroup_cmdCons (s : State) (k : Nat) (g : Group) : (s.setGroup k g).cmdCons = s.cmdCons := rfl
@[simp] theorem State.setGroup_devNum (s : State) (k : Nat) (g : Group) : (s.setGroup k g).devNum = s.devNum := rfl
@[simp] theorem State.setGroup_slotsOff (s : State) (k : Nat) (g : Group) : (s.setGroup k g).slotsOff = s.slotsOff := rfl
@[simp] theorem State.setGroup_grants (s : State) (k : Nat) (g : Group) : (s.setGroup k g).grants = s.grants := rfl
@[simp] theorem State.setGroup_remoteGrants (s : State) (k : Nat) (g : Group) : (s.setGroup k g).remoteGrants = s.remoteGrants := rfl
@[simp] theorem State.setGroup_slices (s : State) (k : Nat) (g : Group) : (s.setGroup k g).slices = s.slices := rfl
@[simp] theorem State.setGroup_powerLimit (s : State) (k : Nat) (g : Group) : (s.setGroup k g).powerLimit = s.powerLimit := rfl
@[simp] theorem State.setGroup_clockSteps (s : State) (k : Nat) (g : Group) : (s.setGroup k g).clockSteps = s.clockSteps := rfl
@[simp] theorem State.setGroup_stopped (s : State) (k : Nat) (g : Group) : (s.setGroup k g).stopped = s.stopped := rfl
@[simp] theorem State.setGroup_d3Paused (s : State) (k : Nat) (g : Group) : (s.setGroup k g).d3Paused = s.d3Paused := rfl
@[simp] theorem State.setGroup_nextSerial (s : State) (k : Nat) (g : Group) : (s.setGroup k g).nextSerial = s.nextSerial := rfl
@[simp] theorem State.setGroup_serialsWrapped (s : State) (k : Nat) (g : Group) : (s.setGroup k g).serialsWrapped = s.serialsWrapped := rfl
@[simp] theorem State.setGroup_names (s : State) (k : Nat) (g : Group) : (s.setGroup k g).names = s.names := rfl
@[simp] theorem State.setGroup_ctime (s : State) (k : Nat) (g : Group) : (s.setGroup k g).ctime = s.ctime := rfl
@[simp] theorem State.setGroup_clk (s : State) (k : Nat) (g : Group) : (s.setGroup k g).clk = s.clk := rfl
@[simp] theorem State.setGroup_dieClk (s : State) (k : Nat) (g : Group) : (s.setGroup k g).dieClk = s.dieClk := rfl
@[simp] theorem State.setGroup_coreClk (s : State) (k : Nat) (g : Group) : (s.setGroup k g).coreClk = s.coreClk := rfl
@[simp] theorem State.setGroup_msix (s : State) (k : Nat) (g : Group) : (s.setGroup k g).msix = s.msix := rfl
@[simp] theorem State.setGroup_msgs (s : State) (k : Nat) (g : Group) : (s.setGroup k g).msgs = s.msgs := rfl
@[simp] theorem State.setGroup_ide (s : State) (k : Nat) (g : Group) : (s.setGroup k g).ide = s.ide := rfl
@[simp] theorem State.setGroup_spdm (s : State) (k : Nat) (g : Group) : (s.setGroup k g).spdm = s.spdm := rfl
@[simp] theorem State.setGroup_freorVersion (s : State) (k : Nat) (g : Group) : (s.setGroup k g).freorVersion = s.freorVersion := rfl
@[simp] theorem State.setGroup_freorDigest (s : State) (k : Nat) (g : Group) : (s.setGroup k g).freorDigest = s.freorDigest := rfl
@[simp] theorem State.setGroup_rollback (s : State) (k : Nat) (g : Group) : (s.setGroup k g).rollback = s.rollback := rfl
@[simp] theorem State.setGroup_vds (s : State) (k : Nat) (g : Group) : (s.setGroup k g).vds = s.vds := rfl
@[simp] theorem State.setGroup_teams (s : State) (k : Nat) (g : Group) : (s.setGroup k g).teams = s.teams := rfl
@[simp] theorem State.setGroup_mem (s : State) (k : Nat) (g : Group) : (s.setGroup k g).mem = s.mem := rfl
@[simp] theorem State.setGroup_tlb (s : State) (k : Nat) (g : Group) : (s.setGroup k g).tlb = s.tlb := rfl
@[simp] theorem State.setGroup_walkCache (s : State) (k : Nat) (g : Group) : (s.setGroup k g).walkCache = s.walkCache := rfl
@[simp] theorem State.setGroup_late (s : State) (k : Nat) (g : Group) : (s.setGroup k g).late = s.late := rfl
@[simp] theorem State.setGroup_copies (s : State) (k : Nat) (g : Group) : (s.setGroup k g).copies = s.copies := rfl
@[simp] theorem State.setGroup_colls (s : State) (k : Nat) (g : Group) : (s.setGroup k g).colls = s.colls := rfl
@[simp] theorem State.setGroup_binops (s : State) (k : Nat) (g : Group) : (s.setGroup k g).binops = s.binops := rfl
@[simp] theorem State.setGroup_binjobs (s : State) (k : Nat) (g : Group) : (s.setGroup k g).binjobs = s.binjobs := rfl
@[simp] theorem State.setGroup_flight (s : State) (k : Nat) (g : Group) : (s.setGroup k g).flight = s.flight := rfl
@[simp] theorem State.setGroup_outcomes (s : State) (k : Nat) (g : Group) : (s.setGroup k g).outcomes = s.outcomes := rfl
@[simp] theorem State.setGroup_transit (s : State) (k : Nat) (g : Group) : (s.setGroup k g).transit = s.transit := rfl
@[simp] theorem State.setGroup_ports (s : State) (k : Nat) (g : Group) : (s.setGroup k g).ports = s.ports := rfl
@[simp] theorem State.setGroup_nextTid (s : State) (k : Nat) (g : Group) : (s.setGroup k g).nextTid = s.nextTid := rfl
@[simp] theorem State.setGroup_nextId (s : State) (k : Nat) (g : Group) : (s.setGroup k g).nextId = s.nextId := rfl
@[simp] theorem State.setGroup_nextSave (s : State) (k : Nat) (g : Group) : (s.setGroup k g).nextSave = s.nextSave := rfl
@[simp] theorem State.setGroup_agenda (s : State) (k : Nat) (g : Group) : (s.setGroup k g).agenda = s.agenda := rfl
@[simp] theorem State.setGroup_iss (s : State) (k : Nat) (g : Group) : (s.setGroup k g).iss = s.iss := rfl
@[simp] theorem State.setGroup_marks (s : State) (k : Nat) (g : Group) : (s.setGroup k g).marks = s.marks := rfl
@[simp] theorem State.setGroup_fenced (s : State) (k : Nat) (g : Group) : (s.setGroup k g).fenced = s.fenced := rfl
@[simp] theorem State.setGroup_freeCtr (s : State) (k : Nat) (g : Group) : (s.setGroup k g).freeCtr = s.freeCtr := rfl
@[simp] theorem State.setGroup_epoch (s : State) (k : Nat) (g : Group) : (s.setGroup k g).epoch = s.epoch := rfl

@[simp] theorem State.setGrp_fuse (s : State) (g : Group) : (s.setGrp g).fuse = s.fuse := rfl
@[simp] theorem State.setGrp_remapWord (s : State) (g : Group) : (s.setGrp g).remapWord = s.remapWord := rfl
@[simp] theorem State.setGrp_retired (s : State) (g : Group) : (s.setGrp g).retired = s.retired := rfl
@[simp] theorem State.setGrp_lost (s : State) (g : Group) : (s.setGrp g).lost = s.lost := rfl
@[simp] theorem State.setGrp_inc0 (s : State) (g : Group) : (s.setGrp g).inc0 = s.inc0 := rfl
@[simp] theorem State.setGrp_inc1 (s : State) (g : Group) : (s.setGrp g).inc1 = s.inc1 := rfl
@[simp] theorem State.setGrp_kactl (s : State) (g : Group) : (s.setGrp g).kactl = s.kactl := rfl
@[simp] theorem State.setGrp_kastat (s : State) (g : Group) : (s.setGrp g).kastat = s.kastat := rfl
@[simp] theorem State.setGrp_err (s : State) (g : Group) : (s.setGrp g).err = s.err := rfl
@[simp] theorem State.setGrp_cmdEn (s : State) (g : Group) : (s.setGrp g).cmdEn = s.cmdEn := rfl
@[simp] theorem State.setGrp_cmdLog (s : State) (g : Group) : (s.setGrp g).cmdLog = s.cmdLog := rfl
@[simp] theorem State.setGrp_cmdBase (s : State) (g : Group) : (s.setGrp g).cmdBase = s.cmdBase := rfl
@[simp] theorem State.setGrp_cmdProd (s : State) (g : Group) : (s.setGrp g).cmdProd = s.cmdProd := rfl
@[simp] theorem State.setGrp_cmdCons (s : State) (g : Group) : (s.setGrp g).cmdCons = s.cmdCons := rfl
@[simp] theorem State.setGrp_devNum (s : State) (g : Group) : (s.setGrp g).devNum = s.devNum := rfl
@[simp] theorem State.setGrp_slotsOff (s : State) (g : Group) : (s.setGrp g).slotsOff = s.slotsOff := rfl
@[simp] theorem State.setGrp_grants (s : State) (g : Group) : (s.setGrp g).grants = s.grants := rfl
@[simp] theorem State.setGrp_remoteGrants (s : State) (g : Group) : (s.setGrp g).remoteGrants = s.remoteGrants := rfl
@[simp] theorem State.setGrp_slices (s : State) (g : Group) : (s.setGrp g).slices = s.slices := rfl
@[simp] theorem State.setGrp_powerLimit (s : State) (g : Group) : (s.setGrp g).powerLimit = s.powerLimit := rfl
@[simp] theorem State.setGrp_clockSteps (s : State) (g : Group) : (s.setGrp g).clockSteps = s.clockSteps := rfl
@[simp] theorem State.setGrp_stopped (s : State) (g : Group) : (s.setGrp g).stopped = s.stopped := rfl
@[simp] theorem State.setGrp_d3Paused (s : State) (g : Group) : (s.setGrp g).d3Paused = s.d3Paused := rfl
@[simp] theorem State.setGrp_nextSerial (s : State) (g : Group) : (s.setGrp g).nextSerial = s.nextSerial := rfl
@[simp] theorem State.setGrp_serialsWrapped (s : State) (g : Group) : (s.setGrp g).serialsWrapped = s.serialsWrapped := rfl
@[simp] theorem State.setGrp_names (s : State) (g : Group) : (s.setGrp g).names = s.names := rfl
@[simp] theorem State.setGrp_ctime (s : State) (g : Group) : (s.setGrp g).ctime = s.ctime := rfl
@[simp] theorem State.setGrp_clk (s : State) (g : Group) : (s.setGrp g).clk = s.clk := rfl
@[simp] theorem State.setGrp_dieClk (s : State) (g : Group) : (s.setGrp g).dieClk = s.dieClk := rfl
@[simp] theorem State.setGrp_coreClk (s : State) (g : Group) : (s.setGrp g).coreClk = s.coreClk := rfl
@[simp] theorem State.setGrp_msix (s : State) (g : Group) : (s.setGrp g).msix = s.msix := rfl
@[simp] theorem State.setGrp_msgs (s : State) (g : Group) : (s.setGrp g).msgs = s.msgs := rfl
@[simp] theorem State.setGrp_ide (s : State) (g : Group) : (s.setGrp g).ide = s.ide := rfl
@[simp] theorem State.setGrp_spdm (s : State) (g : Group) : (s.setGrp g).spdm = s.spdm := rfl
@[simp] theorem State.setGrp_freorVersion (s : State) (g : Group) : (s.setGrp g).freorVersion = s.freorVersion := rfl
@[simp] theorem State.setGrp_freorDigest (s : State) (g : Group) : (s.setGrp g).freorDigest = s.freorDigest := rfl
@[simp] theorem State.setGrp_rollback (s : State) (g : Group) : (s.setGrp g).rollback = s.rollback := rfl
@[simp] theorem State.setGrp_vds (s : State) (g : Group) : (s.setGrp g).vds = s.vds := rfl
@[simp] theorem State.setGrp_teams (s : State) (g : Group) : (s.setGrp g).teams = s.teams := rfl
@[simp] theorem State.setGrp_mem (s : State) (g : Group) : (s.setGrp g).mem = s.mem := rfl
@[simp] theorem State.setGrp_tlb (s : State) (g : Group) : (s.setGrp g).tlb = s.tlb := rfl
@[simp] theorem State.setGrp_walkCache (s : State) (g : Group) : (s.setGrp g).walkCache = s.walkCache := rfl
@[simp] theorem State.setGrp_late (s : State) (g : Group) : (s.setGrp g).late = s.late := rfl
@[simp] theorem State.setGrp_copies (s : State) (g : Group) : (s.setGrp g).copies = s.copies := rfl
@[simp] theorem State.setGrp_colls (s : State) (g : Group) : (s.setGrp g).colls = s.colls := rfl
@[simp] theorem State.setGrp_binops (s : State) (g : Group) : (s.setGrp g).binops = s.binops := rfl
@[simp] theorem State.setGrp_binjobs (s : State) (g : Group) : (s.setGrp g).binjobs = s.binjobs := rfl
@[simp] theorem State.setGrp_flight (s : State) (g : Group) : (s.setGrp g).flight = s.flight := rfl
@[simp] theorem State.setGrp_outcomes (s : State) (g : Group) : (s.setGrp g).outcomes = s.outcomes := rfl
@[simp] theorem State.setGrp_transit (s : State) (g : Group) : (s.setGrp g).transit = s.transit := rfl
@[simp] theorem State.setGrp_ports (s : State) (g : Group) : (s.setGrp g).ports = s.ports := rfl
@[simp] theorem State.setGrp_nextTid (s : State) (g : Group) : (s.setGrp g).nextTid = s.nextTid := rfl
@[simp] theorem State.setGrp_nextId (s : State) (g : Group) : (s.setGrp g).nextId = s.nextId := rfl
@[simp] theorem State.setGrp_nextSave (s : State) (g : Group) : (s.setGrp g).nextSave = s.nextSave := rfl
@[simp] theorem State.setGrp_agenda (s : State) (g : Group) : (s.setGrp g).agenda = s.agenda := rfl
@[simp] theorem State.setGrp_iss (s : State) (g : Group) : (s.setGrp g).iss = s.iss := rfl
@[simp] theorem State.setGrp_marks (s : State) (g : Group) : (s.setGrp g).marks = s.marks := rfl
@[simp] theorem State.setGrp_fenced (s : State) (g : Group) : (s.setGrp g).fenced = s.fenced := rfl
@[simp] theorem State.setGrp_freeCtr (s : State) (g : Group) : (s.setGrp g).freeCtr = s.freeCtr := rfl
@[simp] theorem State.setGrp_epoch (s : State) (g : Group) : (s.setGrp g).epoch = s.epoch := rfl

@[simp] theorem State.updGrp_fuse (s : State) (f : Group → Group) : (s.updGrp f).fuse = s.fuse := rfl
@[simp] theorem State.updGrp_remapWord (s : State) (f : Group → Group) : (s.updGrp f).remapWord = s.remapWord := rfl
@[simp] theorem State.updGrp_retired (s : State) (f : Group → Group) : (s.updGrp f).retired = s.retired := rfl
@[simp] theorem State.updGrp_lost (s : State) (f : Group → Group) : (s.updGrp f).lost = s.lost := rfl
@[simp] theorem State.updGrp_inc0 (s : State) (f : Group → Group) : (s.updGrp f).inc0 = s.inc0 := rfl
@[simp] theorem State.updGrp_inc1 (s : State) (f : Group → Group) : (s.updGrp f).inc1 = s.inc1 := rfl
@[simp] theorem State.updGrp_kactl (s : State) (f : Group → Group) : (s.updGrp f).kactl = s.kactl := rfl
@[simp] theorem State.updGrp_kastat (s : State) (f : Group → Group) : (s.updGrp f).kastat = s.kastat := rfl
@[simp] theorem State.updGrp_err (s : State) (f : Group → Group) : (s.updGrp f).err = s.err := rfl
@[simp] theorem State.updGrp_cmdEn (s : State) (f : Group → Group) : (s.updGrp f).cmdEn = s.cmdEn := rfl
@[simp] theorem State.updGrp_cmdLog (s : State) (f : Group → Group) : (s.updGrp f).cmdLog = s.cmdLog := rfl
@[simp] theorem State.updGrp_cmdBase (s : State) (f : Group → Group) : (s.updGrp f).cmdBase = s.cmdBase := rfl
@[simp] theorem State.updGrp_cmdProd (s : State) (f : Group → Group) : (s.updGrp f).cmdProd = s.cmdProd := rfl
@[simp] theorem State.updGrp_cmdCons (s : State) (f : Group → Group) : (s.updGrp f).cmdCons = s.cmdCons := rfl
@[simp] theorem State.updGrp_devNum (s : State) (f : Group → Group) : (s.updGrp f).devNum = s.devNum := rfl
@[simp] theorem State.updGrp_slotsOff (s : State) (f : Group → Group) : (s.updGrp f).slotsOff = s.slotsOff := rfl
@[simp] theorem State.updGrp_grants (s : State) (f : Group → Group) : (s.updGrp f).grants = s.grants := rfl
@[simp] theorem State.updGrp_remoteGrants (s : State) (f : Group → Group) : (s.updGrp f).remoteGrants = s.remoteGrants := rfl
@[simp] theorem State.updGrp_slices (s : State) (f : Group → Group) : (s.updGrp f).slices = s.slices := rfl
@[simp] theorem State.updGrp_powerLimit (s : State) (f : Group → Group) : (s.updGrp f).powerLimit = s.powerLimit := rfl
@[simp] theorem State.updGrp_clockSteps (s : State) (f : Group → Group) : (s.updGrp f).clockSteps = s.clockSteps := rfl
@[simp] theorem State.updGrp_stopped (s : State) (f : Group → Group) : (s.updGrp f).stopped = s.stopped := rfl
@[simp] theorem State.updGrp_d3Paused (s : State) (f : Group → Group) : (s.updGrp f).d3Paused = s.d3Paused := rfl
@[simp] theorem State.updGrp_nextSerial (s : State) (f : Group → Group) : (s.updGrp f).nextSerial = s.nextSerial := rfl
@[simp] theorem State.updGrp_serialsWrapped (s : State) (f : Group → Group) : (s.updGrp f).serialsWrapped = s.serialsWrapped := rfl
@[simp] theorem State.updGrp_names (s : State) (f : Group → Group) : (s.updGrp f).names = s.names := rfl
@[simp] theorem State.updGrp_ctime (s : State) (f : Group → Group) : (s.updGrp f).ctime = s.ctime := rfl
@[simp] theorem State.updGrp_clk (s : State) (f : Group → Group) : (s.updGrp f).clk = s.clk := rfl
@[simp] theorem State.updGrp_dieClk (s : State) (f : Group → Group) : (s.updGrp f).dieClk = s.dieClk := rfl
@[simp] theorem State.updGrp_coreClk (s : State) (f : Group → Group) : (s.updGrp f).coreClk = s.coreClk := rfl
@[simp] theorem State.updGrp_msix (s : State) (f : Group → Group) : (s.updGrp f).msix = s.msix := rfl
@[simp] theorem State.updGrp_msgs (s : State) (f : Group → Group) : (s.updGrp f).msgs = s.msgs := rfl
@[simp] theorem State.updGrp_ide (s : State) (f : Group → Group) : (s.updGrp f).ide = s.ide := rfl
@[simp] theorem State.updGrp_spdm (s : State) (f : Group → Group) : (s.updGrp f).spdm = s.spdm := rfl
@[simp] theorem State.updGrp_freorVersion (s : State) (f : Group → Group) : (s.updGrp f).freorVersion = s.freorVersion := rfl
@[simp] theorem State.updGrp_freorDigest (s : State) (f : Group → Group) : (s.updGrp f).freorDigest = s.freorDigest := rfl
@[simp] theorem State.updGrp_rollback (s : State) (f : Group → Group) : (s.updGrp f).rollback = s.rollback := rfl
@[simp] theorem State.updGrp_vds (s : State) (f : Group → Group) : (s.updGrp f).vds = s.vds := rfl
@[simp] theorem State.updGrp_teams (s : State) (f : Group → Group) : (s.updGrp f).teams = s.teams := rfl
@[simp] theorem State.updGrp_mem (s : State) (f : Group → Group) : (s.updGrp f).mem = s.mem := rfl
@[simp] theorem State.updGrp_tlb (s : State) (f : Group → Group) : (s.updGrp f).tlb = s.tlb := rfl
@[simp] theorem State.updGrp_walkCache (s : State) (f : Group → Group) : (s.updGrp f).walkCache = s.walkCache := rfl
@[simp] theorem State.updGrp_late (s : State) (f : Group → Group) : (s.updGrp f).late = s.late := rfl
@[simp] theorem State.updGrp_copies (s : State) (f : Group → Group) : (s.updGrp f).copies = s.copies := rfl
@[simp] theorem State.updGrp_colls (s : State) (f : Group → Group) : (s.updGrp f).colls = s.colls := rfl
@[simp] theorem State.updGrp_binops (s : State) (f : Group → Group) : (s.updGrp f).binops = s.binops := rfl
@[simp] theorem State.updGrp_binjobs (s : State) (f : Group → Group) : (s.updGrp f).binjobs = s.binjobs := rfl
@[simp] theorem State.updGrp_flight (s : State) (f : Group → Group) : (s.updGrp f).flight = s.flight := rfl
@[simp] theorem State.updGrp_outcomes (s : State) (f : Group → Group) : (s.updGrp f).outcomes = s.outcomes := rfl
@[simp] theorem State.updGrp_transit (s : State) (f : Group → Group) : (s.updGrp f).transit = s.transit := rfl
@[simp] theorem State.updGrp_ports (s : State) (f : Group → Group) : (s.updGrp f).ports = s.ports := rfl
@[simp] theorem State.updGrp_nextTid (s : State) (f : Group → Group) : (s.updGrp f).nextTid = s.nextTid := rfl
@[simp] theorem State.updGrp_nextId (s : State) (f : Group → Group) : (s.updGrp f).nextId = s.nextId := rfl
@[simp] theorem State.updGrp_nextSave (s : State) (f : Group → Group) : (s.updGrp f).nextSave = s.nextSave := rfl
@[simp] theorem State.updGrp_agenda (s : State) (f : Group → Group) : (s.updGrp f).agenda = s.agenda := rfl
@[simp] theorem State.updGrp_iss (s : State) (f : Group → Group) : (s.updGrp f).iss = s.iss := rfl
@[simp] theorem State.updGrp_marks (s : State) (f : Group → Group) : (s.updGrp f).marks = s.marks := rfl
@[simp] theorem State.updGrp_fenced (s : State) (f : Group → Group) : (s.updGrp f).fenced = s.fenced := rfl
@[simp] theorem State.updGrp_freeCtr (s : State) (f : Group → Group) : (s.updGrp f).freeCtr = s.freeCtr := rfl
@[simp] theorem State.updGrp_epoch (s : State) (f : Group → Group) : (s.updGrp f).epoch = s.epoch := rfl

@[simp] theorem State.updVd_fuse (s : State) (n : Nat) (f : VD → VD) : (s.updVd n f).fuse = s.fuse := rfl
@[simp] theorem State.updVd_remapWord (s : State) (n : Nat) (f : VD → VD) : (s.updVd n f).remapWord = s.remapWord := rfl
@[simp] theorem State.updVd_retired (s : State) (n : Nat) (f : VD → VD) : (s.updVd n f).retired = s.retired := rfl
@[simp] theorem State.updVd_lost (s : State) (n : Nat) (f : VD → VD) : (s.updVd n f).lost = s.lost := rfl
@[simp] theorem State.updVd_inc0 (s : State) (n : Nat) (f : VD → VD) : (s.updVd n f).inc0 = s.inc0 := rfl
@[simp] theorem State.updVd_inc1 (s : State) (n : Nat) (f : VD → VD) : (s.updVd n f).inc1 = s.inc1 := rfl
@[simp] theorem State.updVd_kactl (s : State) (n : Nat) (f : VD → VD) : (s.updVd n f).kactl = s.kactl := rfl
@[simp] theorem State.updVd_kastat (s : State) (n : Nat) (f : VD → VD) : (s.updVd n f).kastat = s.kastat := rfl
@[simp] theorem State.updVd_err (s : State) (n : Nat) (f : VD → VD) : (s.updVd n f).err = s.err := rfl
@[simp] theorem State.updVd_cmdEn (s : State) (n : Nat) (f : VD → VD) : (s.updVd n f).cmdEn = s.cmdEn := rfl
@[simp] theorem State.updVd_cmdLog (s : State) (n : Nat) (f : VD → VD) : (s.updVd n f).cmdLog = s.cmdLog := rfl
@[simp] theorem State.updVd_cmdBase (s : State) (n : Nat) (f : VD → VD) : (s.updVd n f).cmdBase = s.cmdBase := rfl
@[simp] theorem State.updVd_cmdProd (s : State) (n : Nat) (f : VD → VD) : (s.updVd n f).cmdProd = s.cmdProd := rfl
@[simp] theorem State.updVd_cmdCons (s : State) (n : Nat) (f : VD → VD) : (s.updVd n f).cmdCons = s.cmdCons := rfl
@[simp] theorem State.updVd_devNum (s : State) (n : Nat) (f : VD → VD) : (s.updVd n f).devNum = s.devNum := rfl
@[simp] theorem State.updVd_slotsOff (s : State) (n : Nat) (f : VD → VD) : (s.updVd n f).slotsOff = s.slotsOff := rfl
@[simp] theorem State.updVd_grants (s : State) (n : Nat) (f : VD → VD) : (s.updVd n f).grants = s.grants := rfl
@[simp] theorem State.updVd_remoteGrants (s : State) (n : Nat) (f : VD → VD) : (s.updVd n f).remoteGrants = s.remoteGrants := rfl
@[simp] theorem State.updVd_slices (s : State) (n : Nat) (f : VD → VD) : (s.updVd n f).slices = s.slices := rfl
@[simp] theorem State.updVd_powerLimit (s : State) (n : Nat) (f : VD → VD) : (s.updVd n f).powerLimit = s.powerLimit := rfl
@[simp] theorem State.updVd_clockSteps (s : State) (n : Nat) (f : VD → VD) : (s.updVd n f).clockSteps = s.clockSteps := rfl
@[simp] theorem State.updVd_stopped (s : State) (n : Nat) (f : VD → VD) : (s.updVd n f).stopped = s.stopped := rfl
@[simp] theorem State.updVd_d3Paused (s : State) (n : Nat) (f : VD → VD) : (s.updVd n f).d3Paused = s.d3Paused := rfl
@[simp] theorem State.updVd_nextSerial (s : State) (n : Nat) (f : VD → VD) : (s.updVd n f).nextSerial = s.nextSerial := rfl
@[simp] theorem State.updVd_serialsWrapped (s : State) (n : Nat) (f : VD → VD) : (s.updVd n f).serialsWrapped = s.serialsWrapped := rfl
@[simp] theorem State.updVd_names (s : State) (n : Nat) (f : VD → VD) : (s.updVd n f).names = s.names := rfl
@[simp] theorem State.updVd_ctime (s : State) (n : Nat) (f : VD → VD) : (s.updVd n f).ctime = s.ctime := rfl
@[simp] theorem State.updVd_clk (s : State) (n : Nat) (f : VD → VD) : (s.updVd n f).clk = s.clk := rfl
@[simp] theorem State.updVd_dieClk (s : State) (n : Nat) (f : VD → VD) : (s.updVd n f).dieClk = s.dieClk := rfl
@[simp] theorem State.updVd_coreClk (s : State) (n : Nat) (f : VD → VD) : (s.updVd n f).coreClk = s.coreClk := rfl
@[simp] theorem State.updVd_msix (s : State) (n : Nat) (f : VD → VD) : (s.updVd n f).msix = s.msix := rfl
@[simp] theorem State.updVd_msgs (s : State) (n : Nat) (f : VD → VD) : (s.updVd n f).msgs = s.msgs := rfl
@[simp] theorem State.updVd_ide (s : State) (n : Nat) (f : VD → VD) : (s.updVd n f).ide = s.ide := rfl
@[simp] theorem State.updVd_spdm (s : State) (n : Nat) (f : VD → VD) : (s.updVd n f).spdm = s.spdm := rfl
@[simp] theorem State.updVd_freorVersion (s : State) (n : Nat) (f : VD → VD) : (s.updVd n f).freorVersion = s.freorVersion := rfl
@[simp] theorem State.updVd_freorDigest (s : State) (n : Nat) (f : VD → VD) : (s.updVd n f).freorDigest = s.freorDigest := rfl
@[simp] theorem State.updVd_rollback (s : State) (n : Nat) (f : VD → VD) : (s.updVd n f).rollback = s.rollback := rfl
@[simp] theorem State.updVd_teams (s : State) (n : Nat) (f : VD → VD) : (s.updVd n f).teams = s.teams := rfl
@[simp] theorem State.updVd_groups (s : State) (n : Nat) (f : VD → VD) : (s.updVd n f).groups = s.groups := rfl
@[simp] theorem State.updVd_mem (s : State) (n : Nat) (f : VD → VD) : (s.updVd n f).mem = s.mem := rfl
@[simp] theorem State.updVd_tlb (s : State) (n : Nat) (f : VD → VD) : (s.updVd n f).tlb = s.tlb := rfl
@[simp] theorem State.updVd_walkCache (s : State) (n : Nat) (f : VD → VD) : (s.updVd n f).walkCache = s.walkCache := rfl
@[simp] theorem State.updVd_late (s : State) (n : Nat) (f : VD → VD) : (s.updVd n f).late = s.late := rfl
@[simp] theorem State.updVd_copies (s : State) (n : Nat) (f : VD → VD) : (s.updVd n f).copies = s.copies := rfl
@[simp] theorem State.updVd_colls (s : State) (n : Nat) (f : VD → VD) : (s.updVd n f).colls = s.colls := rfl
@[simp] theorem State.updVd_binops (s : State) (n : Nat) (f : VD → VD) : (s.updVd n f).binops = s.binops := rfl
@[simp] theorem State.updVd_binjobs (s : State) (n : Nat) (f : VD → VD) : (s.updVd n f).binjobs = s.binjobs := rfl
@[simp] theorem State.updVd_flight (s : State) (n : Nat) (f : VD → VD) : (s.updVd n f).flight = s.flight := rfl
@[simp] theorem State.updVd_outcomes (s : State) (n : Nat) (f : VD → VD) : (s.updVd n f).outcomes = s.outcomes := rfl
@[simp] theorem State.updVd_transit (s : State) (n : Nat) (f : VD → VD) : (s.updVd n f).transit = s.transit := rfl
@[simp] theorem State.updVd_ports (s : State) (n : Nat) (f : VD → VD) : (s.updVd n f).ports = s.ports := rfl
@[simp] theorem State.updVd_nextTid (s : State) (n : Nat) (f : VD → VD) : (s.updVd n f).nextTid = s.nextTid := rfl
@[simp] theorem State.updVd_nextId (s : State) (n : Nat) (f : VD → VD) : (s.updVd n f).nextId = s.nextId := rfl
@[simp] theorem State.updVd_nextSave (s : State) (n : Nat) (f : VD → VD) : (s.updVd n f).nextSave = s.nextSave := rfl
@[simp] theorem State.updVd_agenda (s : State) (n : Nat) (f : VD → VD) : (s.updVd n f).agenda = s.agenda := rfl
@[simp] theorem State.updVd_iss (s : State) (n : Nat) (f : VD → VD) : (s.updVd n f).iss = s.iss := rfl
@[simp] theorem State.updVd_marks (s : State) (n : Nat) (f : VD → VD) : (s.updVd n f).marks = s.marks := rfl
@[simp] theorem State.updVd_fenced (s : State) (n : Nat) (f : VD → VD) : (s.updVd n f).fenced = s.fenced := rfl
@[simp] theorem State.updVd_freeCtr (s : State) (n : Nat) (f : VD → VD) : (s.updVd n f).freeCtr = s.freeCtr := rfl
@[simp] theorem State.updVd_epoch (s : State) (n : Nat) (f : VD → VD) : (s.updVd n f).epoch = s.epoch := rfl

@[simp] theorem State.setMem_fuse (s : State) (f : MemSys → MemSys) : (s.setMem f).fuse = s.fuse := rfl
@[simp] theorem State.setMem_remapWord (s : State) (f : MemSys → MemSys) : (s.setMem f).remapWord = s.remapWord := rfl
@[simp] theorem State.setMem_retired (s : State) (f : MemSys → MemSys) : (s.setMem f).retired = s.retired := rfl
@[simp] theorem State.setMem_lost (s : State) (f : MemSys → MemSys) : (s.setMem f).lost = s.lost := rfl
@[simp] theorem State.setMem_inc0 (s : State) (f : MemSys → MemSys) : (s.setMem f).inc0 = s.inc0 := rfl
@[simp] theorem State.setMem_inc1 (s : State) (f : MemSys → MemSys) : (s.setMem f).inc1 = s.inc1 := rfl
@[simp] theorem State.setMem_kactl (s : State) (f : MemSys → MemSys) : (s.setMem f).kactl = s.kactl := rfl
@[simp] theorem State.setMem_kastat (s : State) (f : MemSys → MemSys) : (s.setMem f).kastat = s.kastat := rfl
@[simp] theorem State.setMem_err (s : State) (f : MemSys → MemSys) : (s.setMem f).err = s.err := rfl
@[simp] theorem State.setMem_cmdEn (s : State) (f : MemSys → MemSys) : (s.setMem f).cmdEn = s.cmdEn := rfl
@[simp] theorem State.setMem_cmdLog (s : State) (f : MemSys → MemSys) : (s.setMem f).cmdLog = s.cmdLog := rfl
@[simp] theorem State.setMem_cmdBase (s : State) (f : MemSys → MemSys) : (s.setMem f).cmdBase = s.cmdBase := rfl
@[simp] theorem State.setMem_cmdProd (s : State) (f : MemSys → MemSys) : (s.setMem f).cmdProd = s.cmdProd := rfl
@[simp] theorem State.setMem_cmdCons (s : State) (f : MemSys → MemSys) : (s.setMem f).cmdCons = s.cmdCons := rfl
@[simp] theorem State.setMem_devNum (s : State) (f : MemSys → MemSys) : (s.setMem f).devNum = s.devNum := rfl
@[simp] theorem State.setMem_slotsOff (s : State) (f : MemSys → MemSys) : (s.setMem f).slotsOff = s.slotsOff := rfl
@[simp] theorem State.setMem_grants (s : State) (f : MemSys → MemSys) : (s.setMem f).grants = s.grants := rfl
@[simp] theorem State.setMem_remoteGrants (s : State) (f : MemSys → MemSys) : (s.setMem f).remoteGrants = s.remoteGrants := rfl
@[simp] theorem State.setMem_slices (s : State) (f : MemSys → MemSys) : (s.setMem f).slices = s.slices := rfl
@[simp] theorem State.setMem_powerLimit (s : State) (f : MemSys → MemSys) : (s.setMem f).powerLimit = s.powerLimit := rfl
@[simp] theorem State.setMem_clockSteps (s : State) (f : MemSys → MemSys) : (s.setMem f).clockSteps = s.clockSteps := rfl
@[simp] theorem State.setMem_stopped (s : State) (f : MemSys → MemSys) : (s.setMem f).stopped = s.stopped := rfl
@[simp] theorem State.setMem_d3Paused (s : State) (f : MemSys → MemSys) : (s.setMem f).d3Paused = s.d3Paused := rfl
@[simp] theorem State.setMem_nextSerial (s : State) (f : MemSys → MemSys) : (s.setMem f).nextSerial = s.nextSerial := rfl
@[simp] theorem State.setMem_serialsWrapped (s : State) (f : MemSys → MemSys) : (s.setMem f).serialsWrapped = s.serialsWrapped := rfl
@[simp] theorem State.setMem_names (s : State) (f : MemSys → MemSys) : (s.setMem f).names = s.names := rfl
@[simp] theorem State.setMem_ctime (s : State) (f : MemSys → MemSys) : (s.setMem f).ctime = s.ctime := rfl
@[simp] theorem State.setMem_clk (s : State) (f : MemSys → MemSys) : (s.setMem f).clk = s.clk := rfl
@[simp] theorem State.setMem_dieClk (s : State) (f : MemSys → MemSys) : (s.setMem f).dieClk = s.dieClk := rfl
@[simp] theorem State.setMem_coreClk (s : State) (f : MemSys → MemSys) : (s.setMem f).coreClk = s.coreClk := rfl
@[simp] theorem State.setMem_msix (s : State) (f : MemSys → MemSys) : (s.setMem f).msix = s.msix := rfl
@[simp] theorem State.setMem_msgs (s : State) (f : MemSys → MemSys) : (s.setMem f).msgs = s.msgs := rfl
@[simp] theorem State.setMem_ide (s : State) (f : MemSys → MemSys) : (s.setMem f).ide = s.ide := rfl
@[simp] theorem State.setMem_spdm (s : State) (f : MemSys → MemSys) : (s.setMem f).spdm = s.spdm := rfl
@[simp] theorem State.setMem_freorVersion (s : State) (f : MemSys → MemSys) : (s.setMem f).freorVersion = s.freorVersion := rfl
@[simp] theorem State.setMem_freorDigest (s : State) (f : MemSys → MemSys) : (s.setMem f).freorDigest = s.freorDigest := rfl
@[simp] theorem State.setMem_rollback (s : State) (f : MemSys → MemSys) : (s.setMem f).rollback = s.rollback := rfl
@[simp] theorem State.setMem_vds (s : State) (f : MemSys → MemSys) : (s.setMem f).vds = s.vds := rfl
@[simp] theorem State.setMem_teams (s : State) (f : MemSys → MemSys) : (s.setMem f).teams = s.teams := rfl
@[simp] theorem State.setMem_groups (s : State) (f : MemSys → MemSys) : (s.setMem f).groups = s.groups := rfl
@[simp] theorem State.setMem_tlb (s : State) (f : MemSys → MemSys) : (s.setMem f).tlb = s.tlb := rfl
@[simp] theorem State.setMem_walkCache (s : State) (f : MemSys → MemSys) : (s.setMem f).walkCache = s.walkCache := rfl
@[simp] theorem State.setMem_late (s : State) (f : MemSys → MemSys) : (s.setMem f).late = s.late := rfl
@[simp] theorem State.setMem_copies (s : State) (f : MemSys → MemSys) : (s.setMem f).copies = s.copies := rfl
@[simp] theorem State.setMem_colls (s : State) (f : MemSys → MemSys) : (s.setMem f).colls = s.colls := rfl
@[simp] theorem State.setMem_binops (s : State) (f : MemSys → MemSys) : (s.setMem f).binops = s.binops := rfl
@[simp] theorem State.setMem_binjobs (s : State) (f : MemSys → MemSys) : (s.setMem f).binjobs = s.binjobs := rfl
@[simp] theorem State.setMem_flight (s : State) (f : MemSys → MemSys) : (s.setMem f).flight = s.flight := rfl
@[simp] theorem State.setMem_outcomes (s : State) (f : MemSys → MemSys) : (s.setMem f).outcomes = s.outcomes := rfl
@[simp] theorem State.setMem_transit (s : State) (f : MemSys → MemSys) : (s.setMem f).transit = s.transit := rfl
@[simp] theorem State.setMem_ports (s : State) (f : MemSys → MemSys) : (s.setMem f).ports = s.ports := rfl
@[simp] theorem State.setMem_nextTid (s : State) (f : MemSys → MemSys) : (s.setMem f).nextTid = s.nextTid := rfl
@[simp] theorem State.setMem_nextId (s : State) (f : MemSys → MemSys) : (s.setMem f).nextId = s.nextId := rfl
@[simp] theorem State.setMem_nextSave (s : State) (f : MemSys → MemSys) : (s.setMem f).nextSave = s.nextSave := rfl
@[simp] theorem State.setMem_agenda (s : State) (f : MemSys → MemSys) : (s.setMem f).agenda = s.agenda := rfl
@[simp] theorem State.setMem_iss (s : State) (f : MemSys → MemSys) : (s.setMem f).iss = s.iss := rfl
@[simp] theorem State.setMem_marks (s : State) (f : MemSys → MemSys) : (s.setMem f).marks = s.marks := rfl
@[simp] theorem State.setMem_fenced (s : State) (f : MemSys → MemSys) : (s.setMem f).fenced = s.fenced := rfl
@[simp] theorem State.setMem_freeCtr (s : State) (f : MemSys → MemSys) : (s.setMem f).freeCtr = s.freeCtr := rfl
@[simp] theorem State.setMem_epoch (s : State) (f : MemSys → MemSys) : (s.setMem f).epoch = s.epoch := rfl

@[simp] theorem State.updGroup_fuse (s : State) (k : Nat) (f : Group → Group) : (s.updGroup k f).fuse = s.fuse := by unfold State.updGroup; split <;> rfl
@[simp] theorem State.updGroup_remapWord (s : State) (k : Nat) (f : Group → Group) : (s.updGroup k f).remapWord = s.remapWord := by unfold State.updGroup; split <;> rfl
@[simp] theorem State.updGroup_retired (s : State) (k : Nat) (f : Group → Group) : (s.updGroup k f).retired = s.retired := by unfold State.updGroup; split <;> rfl
@[simp] theorem State.updGroup_lost (s : State) (k : Nat) (f : Group → Group) : (s.updGroup k f).lost = s.lost := by unfold State.updGroup; split <;> rfl
@[simp] theorem State.updGroup_inc0 (s : State) (k : Nat) (f : Group → Group) : (s.updGroup k f).inc0 = s.inc0 := by unfold State.updGroup; split <;> rfl
@[simp] theorem State.updGroup_inc1 (s : State) (k : Nat) (f : Group → Group) : (s.updGroup k f).inc1 = s.inc1 := by unfold State.updGroup; split <;> rfl
@[simp] theorem State.updGroup_kactl (s : State) (k : Nat) (f : Group → Group) : (s.updGroup k f).kactl = s.kactl := by unfold State.updGroup; split <;> rfl
@[simp] theorem State.updGroup_kastat (s : State) (k : Nat) (f : Group → Group) : (s.updGroup k f).kastat = s.kastat := by unfold State.updGroup; split <;> rfl
@[simp] theorem State.updGroup_err (s : State) (k : Nat) (f : Group → Group) : (s.updGroup k f).err = s.err := by unfold State.updGroup; split <;> rfl
@[simp] theorem State.updGroup_cmdEn (s : State) (k : Nat) (f : Group → Group) : (s.updGroup k f).cmdEn = s.cmdEn := by unfold State.updGroup; split <;> rfl
@[simp] theorem State.updGroup_cmdLog (s : State) (k : Nat) (f : Group → Group) : (s.updGroup k f).cmdLog = s.cmdLog := by unfold State.updGroup; split <;> rfl
@[simp] theorem State.updGroup_cmdBase (s : State) (k : Nat) (f : Group → Group) : (s.updGroup k f).cmdBase = s.cmdBase := by unfold State.updGroup; split <;> rfl
@[simp] theorem State.updGroup_cmdProd (s : State) (k : Nat) (f : Group → Group) : (s.updGroup k f).cmdProd = s.cmdProd := by unfold State.updGroup; split <;> rfl
@[simp] theorem State.updGroup_cmdCons (s : State) (k : Nat) (f : Group → Group) : (s.updGroup k f).cmdCons = s.cmdCons := by unfold State.updGroup; split <;> rfl
@[simp] theorem State.updGroup_devNum (s : State) (k : Nat) (f : Group → Group) : (s.updGroup k f).devNum = s.devNum := by unfold State.updGroup; split <;> rfl
@[simp] theorem State.updGroup_slotsOff (s : State) (k : Nat) (f : Group → Group) : (s.updGroup k f).slotsOff = s.slotsOff := by unfold State.updGroup; split <;> rfl
@[simp] theorem State.updGroup_grants (s : State) (k : Nat) (f : Group → Group) : (s.updGroup k f).grants = s.grants := by unfold State.updGroup; split <;> rfl
@[simp] theorem State.updGroup_remoteGrants (s : State) (k : Nat) (f : Group → Group) : (s.updGroup k f).remoteGrants = s.remoteGrants := by unfold State.updGroup; split <;> rfl
@[simp] theorem State.updGroup_slices (s : State) (k : Nat) (f : Group → Group) : (s.updGroup k f).slices = s.slices := by unfold State.updGroup; split <;> rfl
@[simp] theorem State.updGroup_powerLimit (s : State) (k : Nat) (f : Group → Group) : (s.updGroup k f).powerLimit = s.powerLimit := by unfold State.updGroup; split <;> rfl
@[simp] theorem State.updGroup_clockSteps (s : State) (k : Nat) (f : Group → Group) : (s.updGroup k f).clockSteps = s.clockSteps := by unfold State.updGroup; split <;> rfl
@[simp] theorem State.updGroup_stopped (s : State) (k : Nat) (f : Group → Group) : (s.updGroup k f).stopped = s.stopped := by unfold State.updGroup; split <;> rfl
@[simp] theorem State.updGroup_d3Paused (s : State) (k : Nat) (f : Group → Group) : (s.updGroup k f).d3Paused = s.d3Paused := by unfold State.updGroup; split <;> rfl
@[simp] theorem State.updGroup_nextSerial (s : State) (k : Nat) (f : Group → Group) : (s.updGroup k f).nextSerial = s.nextSerial := by unfold State.updGroup; split <;> rfl
@[simp] theorem State.updGroup_serialsWrapped (s : State) (k : Nat) (f : Group → Group) : (s.updGroup k f).serialsWrapped = s.serialsWrapped := by unfold State.updGroup; split <;> rfl
@[simp] theorem State.updGroup_names (s : State) (k : Nat) (f : Group → Group) : (s.updGroup k f).names = s.names := by unfold State.updGroup; split <;> rfl
@[simp] theorem State.updGroup_ctime (s : State) (k : Nat) (f : Group → Group) : (s.updGroup k f).ctime = s.ctime := by unfold State.updGroup; split <;> rfl
@[simp] theorem State.updGroup_clk (s : State) (k : Nat) (f : Group → Group) : (s.updGroup k f).clk = s.clk := by unfold State.updGroup; split <;> rfl
@[simp] theorem State.updGroup_dieClk (s : State) (k : Nat) (f : Group → Group) : (s.updGroup k f).dieClk = s.dieClk := by unfold State.updGroup; split <;> rfl
@[simp] theorem State.updGroup_coreClk (s : State) (k : Nat) (f : Group → Group) : (s.updGroup k f).coreClk = s.coreClk := by unfold State.updGroup; split <;> rfl
@[simp] theorem State.updGroup_msix (s : State) (k : Nat) (f : Group → Group) : (s.updGroup k f).msix = s.msix := by unfold State.updGroup; split <;> rfl
@[simp] theorem State.updGroup_msgs (s : State) (k : Nat) (f : Group → Group) : (s.updGroup k f).msgs = s.msgs := by unfold State.updGroup; split <;> rfl
@[simp] theorem State.updGroup_ide (s : State) (k : Nat) (f : Group → Group) : (s.updGroup k f).ide = s.ide := by unfold State.updGroup; split <;> rfl
@[simp] theorem State.updGroup_spdm (s : State) (k : Nat) (f : Group → Group) : (s.updGroup k f).spdm = s.spdm := by unfold State.updGroup; split <;> rfl
@[simp] theorem State.updGroup_freorVersion (s : State) (k : Nat) (f : Group → Group) : (s.updGroup k f).freorVersion = s.freorVersion := by unfold State.updGroup; split <;> rfl
@[simp] theorem State.updGroup_freorDigest (s : State) (k : Nat) (f : Group → Group) : (s.updGroup k f).freorDigest = s.freorDigest := by unfold State.updGroup; split <;> rfl
@[simp] theorem State.updGroup_rollback (s : State) (k : Nat) (f : Group → Group) : (s.updGroup k f).rollback = s.rollback := by unfold State.updGroup; split <;> rfl
@[simp] theorem State.updGroup_vds (s : State) (k : Nat) (f : Group → Group) : (s.updGroup k f).vds = s.vds := by unfold State.updGroup; split <;> rfl
@[simp] theorem State.updGroup_teams (s : State) (k : Nat) (f : Group → Group) : (s.updGroup k f).teams = s.teams := by unfold State.updGroup; split <;> rfl
@[simp] theorem State.updGroup_mem (s : State) (k : Nat) (f : Group → Group) : (s.updGroup k f).mem = s.mem := by unfold State.updGroup; split <;> rfl
@[simp] theorem State.updGroup_tlb (s : State) (k : Nat) (f : Group → Group) : (s.updGroup k f).tlb = s.tlb := by unfold State.updGroup; split <;> rfl
@[simp] theorem State.updGroup_walkCache (s : State) (k : Nat) (f : Group → Group) : (s.updGroup k f).walkCache = s.walkCache := by unfold State.updGroup; split <;> rfl
@[simp] theorem State.updGroup_late (s : State) (k : Nat) (f : Group → Group) : (s.updGroup k f).late = s.late := by unfold State.updGroup; split <;> rfl
@[simp] theorem State.updGroup_copies (s : State) (k : Nat) (f : Group → Group) : (s.updGroup k f).copies = s.copies := by unfold State.updGroup; split <;> rfl
@[simp] theorem State.updGroup_colls (s : State) (k : Nat) (f : Group → Group) : (s.updGroup k f).colls = s.colls := by unfold State.updGroup; split <;> rfl
@[simp] theorem State.updGroup_binops (s : State) (k : Nat) (f : Group → Group) : (s.updGroup k f).binops = s.binops := by unfold State.updGroup; split <;> rfl
@[simp] theorem State.updGroup_binjobs (s : State) (k : Nat) (f : Group → Group) : (s.updGroup k f).binjobs = s.binjobs := by unfold State.updGroup; split <;> rfl
@[simp] theorem State.updGroup_flight (s : State) (k : Nat) (f : Group → Group) : (s.updGroup k f).flight = s.flight := by unfold State.updGroup; split <;> rfl
@[simp] theorem State.updGroup_outcomes (s : State) (k : Nat) (f : Group → Group) : (s.updGroup k f).outcomes = s.outcomes := by unfold State.updGroup; split <;> rfl
@[simp] theorem State.updGroup_transit (s : State) (k : Nat) (f : Group → Group) : (s.updGroup k f).transit = s.transit := by unfold State.updGroup; split <;> rfl
@[simp] theorem State.updGroup_ports (s : State) (k : Nat) (f : Group → Group) : (s.updGroup k f).ports = s.ports := by unfold State.updGroup; split <;> rfl
@[simp] theorem State.updGroup_nextTid (s : State) (k : Nat) (f : Group → Group) : (s.updGroup k f).nextTid = s.nextTid := by unfold State.updGroup; split <;> rfl
@[simp] theorem State.updGroup_nextId (s : State) (k : Nat) (f : Group → Group) : (s.updGroup k f).nextId = s.nextId := by unfold State.updGroup; split <;> rfl
@[simp] theorem State.updGroup_nextSave (s : State) (k : Nat) (f : Group → Group) : (s.updGroup k f).nextSave = s.nextSave := by unfold State.updGroup; split <;> rfl
@[simp] theorem State.updGroup_agenda (s : State) (k : Nat) (f : Group → Group) : (s.updGroup k f).agenda = s.agenda := by unfold State.updGroup; split <;> rfl
@[simp] theorem State.updGroup_iss (s : State) (k : Nat) (f : Group → Group) : (s.updGroup k f).iss = s.iss := by unfold State.updGroup; split <;> rfl
@[simp] theorem State.updGroup_marks (s : State) (k : Nat) (f : Group → Group) : (s.updGroup k f).marks = s.marks := by unfold State.updGroup; split <;> rfl
@[simp] theorem State.updGroup_fenced (s : State) (k : Nat) (f : Group → Group) : (s.updGroup k f).fenced = s.fenced := by unfold State.updGroup; split <;> rfl
@[simp] theorem State.updGroup_freeCtr (s : State) (k : Nat) (f : Group → Group) : (s.updGroup k f).freeCtr = s.freeCtr := by unfold State.updGroup; split <;> rfl
@[simp] theorem State.updGroup_epoch (s : State) (k : Nat) (f : Group → Group) : (s.updGroup k f).epoch = s.epoch := by unfold State.updGroup; split <;> rfl

@[simp] theorem State.updTeam_fuse (s : State) (n : Nat) (f : Team → Team) : (s.updTeam n f).fuse = s.fuse := by unfold State.updTeam; split <;> rfl
@[simp] theorem State.updTeam_remapWord (s : State) (n : Nat) (f : Team → Team) : (s.updTeam n f).remapWord = s.remapWord := by unfold State.updTeam; split <;> rfl
@[simp] theorem State.updTeam_retired (s : State) (n : Nat) (f : Team → Team) : (s.updTeam n f).retired = s.retired := by unfold State.updTeam; split <;> rfl
@[simp] theorem State.updTeam_lost (s : State) (n : Nat) (f : Team → Team) : (s.updTeam n f).lost = s.lost := by unfold State.updTeam; split <;> rfl
@[simp] theorem State.updTeam_inc0 (s : State) (n : Nat) (f : Team → Team) : (s.updTeam n f).inc0 = s.inc0 := by unfold State.updTeam; split <;> rfl
@[simp] theorem State.updTeam_inc1 (s : State) (n : Nat) (f : Team → Team) : (s.updTeam n f).inc1 = s.inc1 := by unfold State.updTeam; split <;> rfl
@[simp] theorem State.updTeam_kactl (s : State) (n : Nat) (f : Team → Team) : (s.updTeam n f).kactl = s.kactl := by unfold State.updTeam; split <;> rfl
@[simp] theorem State.updTeam_kastat (s : State) (n : Nat) (f : Team → Team) : (s.updTeam n f).kastat = s.kastat := by unfold State.updTeam; split <;> rfl
@[simp] theorem State.updTeam_err (s : State) (n : Nat) (f : Team → Team) : (s.updTeam n f).err = s.err := by unfold State.updTeam; split <;> rfl
@[simp] theorem State.updTeam_cmdEn (s : State) (n : Nat) (f : Team → Team) : (s.updTeam n f).cmdEn = s.cmdEn := by unfold State.updTeam; split <;> rfl
@[simp] theorem State.updTeam_cmdLog (s : State) (n : Nat) (f : Team → Team) : (s.updTeam n f).cmdLog = s.cmdLog := by unfold State.updTeam; split <;> rfl
@[simp] theorem State.updTeam_cmdBase (s : State) (n : Nat) (f : Team → Team) : (s.updTeam n f).cmdBase = s.cmdBase := by unfold State.updTeam; split <;> rfl
@[simp] theorem State.updTeam_cmdProd (s : State) (n : Nat) (f : Team → Team) : (s.updTeam n f).cmdProd = s.cmdProd := by unfold State.updTeam; split <;> rfl
@[simp] theorem State.updTeam_cmdCons (s : State) (n : Nat) (f : Team → Team) : (s.updTeam n f).cmdCons = s.cmdCons := by unfold State.updTeam; split <;> rfl
@[simp] theorem State.updTeam_devNum (s : State) (n : Nat) (f : Team → Team) : (s.updTeam n f).devNum = s.devNum := by unfold State.updTeam; split <;> rfl
@[simp] theorem State.updTeam_slotsOff (s : State) (n : Nat) (f : Team → Team) : (s.updTeam n f).slotsOff = s.slotsOff := by unfold State.updTeam; split <;> rfl
@[simp] theorem State.updTeam_grants (s : State) (n : Nat) (f : Team → Team) : (s.updTeam n f).grants = s.grants := by unfold State.updTeam; split <;> rfl
@[simp] theorem State.updTeam_remoteGrants (s : State) (n : Nat) (f : Team → Team) : (s.updTeam n f).remoteGrants = s.remoteGrants := by unfold State.updTeam; split <;> rfl
@[simp] theorem State.updTeam_slices (s : State) (n : Nat) (f : Team → Team) : (s.updTeam n f).slices = s.slices := by unfold State.updTeam; split <;> rfl
@[simp] theorem State.updTeam_powerLimit (s : State) (n : Nat) (f : Team → Team) : (s.updTeam n f).powerLimit = s.powerLimit := by unfold State.updTeam; split <;> rfl
@[simp] theorem State.updTeam_clockSteps (s : State) (n : Nat) (f : Team → Team) : (s.updTeam n f).clockSteps = s.clockSteps := by unfold State.updTeam; split <;> rfl
@[simp] theorem State.updTeam_stopped (s : State) (n : Nat) (f : Team → Team) : (s.updTeam n f).stopped = s.stopped := by unfold State.updTeam; split <;> rfl
@[simp] theorem State.updTeam_d3Paused (s : State) (n : Nat) (f : Team → Team) : (s.updTeam n f).d3Paused = s.d3Paused := by unfold State.updTeam; split <;> rfl
@[simp] theorem State.updTeam_nextSerial (s : State) (n : Nat) (f : Team → Team) : (s.updTeam n f).nextSerial = s.nextSerial := by unfold State.updTeam; split <;> rfl
@[simp] theorem State.updTeam_serialsWrapped (s : State) (n : Nat) (f : Team → Team) : (s.updTeam n f).serialsWrapped = s.serialsWrapped := by unfold State.updTeam; split <;> rfl
@[simp] theorem State.updTeam_names (s : State) (n : Nat) (f : Team → Team) : (s.updTeam n f).names = s.names := by unfold State.updTeam; split <;> rfl
@[simp] theorem State.updTeam_ctime (s : State) (n : Nat) (f : Team → Team) : (s.updTeam n f).ctime = s.ctime := by unfold State.updTeam; split <;> rfl
@[simp] theorem State.updTeam_clk (s : State) (n : Nat) (f : Team → Team) : (s.updTeam n f).clk = s.clk := by unfold State.updTeam; split <;> rfl
@[simp] theorem State.updTeam_dieClk (s : State) (n : Nat) (f : Team → Team) : (s.updTeam n f).dieClk = s.dieClk := by unfold State.updTeam; split <;> rfl
@[simp] theorem State.updTeam_coreClk (s : State) (n : Nat) (f : Team → Team) : (s.updTeam n f).coreClk = s.coreClk := by unfold State.updTeam; split <;> rfl
@[simp] theorem State.updTeam_msix (s : State) (n : Nat) (f : Team → Team) : (s.updTeam n f).msix = s.msix := by unfold State.updTeam; split <;> rfl
@[simp] theorem State.updTeam_msgs (s : State) (n : Nat) (f : Team → Team) : (s.updTeam n f).msgs = s.msgs := by unfold State.updTeam; split <;> rfl
@[simp] theorem State.updTeam_ide (s : State) (n : Nat) (f : Team → Team) : (s.updTeam n f).ide = s.ide := by unfold State.updTeam; split <;> rfl
@[simp] theorem State.updTeam_spdm (s : State) (n : Nat) (f : Team → Team) : (s.updTeam n f).spdm = s.spdm := by unfold State.updTeam; split <;> rfl
@[simp] theorem State.updTeam_freorVersion (s : State) (n : Nat) (f : Team → Team) : (s.updTeam n f).freorVersion = s.freorVersion := by unfold State.updTeam; split <;> rfl
@[simp] theorem State.updTeam_freorDigest (s : State) (n : Nat) (f : Team → Team) : (s.updTeam n f).freorDigest = s.freorDigest := by unfold State.updTeam; split <;> rfl
@[simp] theorem State.updTeam_rollback (s : State) (n : Nat) (f : Team → Team) : (s.updTeam n f).rollback = s.rollback := by unfold State.updTeam; split <;> rfl
@[simp] theorem State.updTeam_vds (s : State) (n : Nat) (f : Team → Team) : (s.updTeam n f).vds = s.vds := by unfold State.updTeam; split <;> rfl
@[simp] theorem State.updTeam_groups (s : State) (n : Nat) (f : Team → Team) : (s.updTeam n f).groups = s.groups := by unfold State.updTeam; split <;> rfl
@[simp] theorem State.updTeam_mem (s : State) (n : Nat) (f : Team → Team) : (s.updTeam n f).mem = s.mem := by unfold State.updTeam; split <;> rfl
@[simp] theorem State.updTeam_tlb (s : State) (n : Nat) (f : Team → Team) : (s.updTeam n f).tlb = s.tlb := by unfold State.updTeam; split <;> rfl
@[simp] theorem State.updTeam_walkCache (s : State) (n : Nat) (f : Team → Team) : (s.updTeam n f).walkCache = s.walkCache := by unfold State.updTeam; split <;> rfl
@[simp] theorem State.updTeam_late (s : State) (n : Nat) (f : Team → Team) : (s.updTeam n f).late = s.late := by unfold State.updTeam; split <;> rfl
@[simp] theorem State.updTeam_copies (s : State) (n : Nat) (f : Team → Team) : (s.updTeam n f).copies = s.copies := by unfold State.updTeam; split <;> rfl
@[simp] theorem State.updTeam_colls (s : State) (n : Nat) (f : Team → Team) : (s.updTeam n f).colls = s.colls := by unfold State.updTeam; split <;> rfl
@[simp] theorem State.updTeam_binops (s : State) (n : Nat) (f : Team → Team) : (s.updTeam n f).binops = s.binops := by unfold State.updTeam; split <;> rfl
@[simp] theorem State.updTeam_binjobs (s : State) (n : Nat) (f : Team → Team) : (s.updTeam n f).binjobs = s.binjobs := by unfold State.updTeam; split <;> rfl
@[simp] theorem State.updTeam_flight (s : State) (n : Nat) (f : Team → Team) : (s.updTeam n f).flight = s.flight := by unfold State.updTeam; split <;> rfl
@[simp] theorem State.updTeam_outcomes (s : State) (n : Nat) (f : Team → Team) : (s.updTeam n f).outcomes = s.outcomes := by unfold State.updTeam; split <;> rfl
@[simp] theorem State.updTeam_transit (s : State) (n : Nat) (f : Team → Team) : (s.updTeam n f).transit = s.transit := by unfold State.updTeam; split <;> rfl
@[simp] theorem State.updTeam_ports (s : State) (n : Nat) (f : Team → Team) : (s.updTeam n f).ports = s.ports := by unfold State.updTeam; split <;> rfl
@[simp] theorem State.updTeam_nextTid (s : State) (n : Nat) (f : Team → Team) : (s.updTeam n f).nextTid = s.nextTid := by unfold State.updTeam; split <;> rfl
@[simp] theorem State.updTeam_nextId (s : State) (n : Nat) (f : Team → Team) : (s.updTeam n f).nextId = s.nextId := by unfold State.updTeam; split <;> rfl
@[simp] theorem State.updTeam_nextSave (s : State) (n : Nat) (f : Team → Team) : (s.updTeam n f).nextSave = s.nextSave := by unfold State.updTeam; split <;> rfl
@[simp] theorem State.updTeam_agenda (s : State) (n : Nat) (f : Team → Team) : (s.updTeam n f).agenda = s.agenda := by unfold State.updTeam; split <;> rfl
@[simp] theorem State.updTeam_iss (s : State) (n : Nat) (f : Team → Team) : (s.updTeam n f).iss = s.iss := by unfold State.updTeam; split <;> rfl
@[simp] theorem State.updTeam_marks (s : State) (n : Nat) (f : Team → Team) : (s.updTeam n f).marks = s.marks := by unfold State.updTeam; split <;> rfl
@[simp] theorem State.updTeam_fenced (s : State) (n : Nat) (f : Team → Team) : (s.updTeam n f).fenced = s.fenced := by unfold State.updTeam; split <;> rfl
@[simp] theorem State.updTeam_freeCtr (s : State) (n : Nat) (f : Team → Team) : (s.updTeam n f).freeCtr = s.freeCtr := by unfold State.updTeam; split <;> rfl
@[simp] theorem State.updTeam_epoch (s : State) (n : Nat) (f : Team → Team) : (s.updTeam n f).epoch = s.epoch := by unfold State.updTeam; split <;> rfl

@[simp] theorem State.jump_fuse (s : State) (f : Nat → DWord) : (s.jump f).fuse = s.fuse := rfl
@[simp] theorem State.jump_remapWord (s : State) (f : Nat → DWord) : (s.jump f).remapWord = s.remapWord := rfl
@[simp] theorem State.jump_retired (s : State) (f : Nat → DWord) : (s.jump f).retired = s.retired := rfl
@[simp] theorem State.jump_lost (s : State) (f : Nat → DWord) : (s.jump f).lost = s.lost := rfl
@[simp] theorem State.jump_inc0 (s : State) (f : Nat → DWord) : (s.jump f).inc0 = s.inc0 := rfl
@[simp] theorem State.jump_inc1 (s : State) (f : Nat → DWord) : (s.jump f).inc1 = s.inc1 := rfl
@[simp] theorem State.jump_kactl (s : State) (f : Nat → DWord) : (s.jump f).kactl = s.kactl := rfl
@[simp] theorem State.jump_kastat (s : State) (f : Nat → DWord) : (s.jump f).kastat = s.kastat := rfl
@[simp] theorem State.jump_err (s : State) (f : Nat → DWord) : (s.jump f).err = s.err := rfl
@[simp] theorem State.jump_cmdEn (s : State) (f : Nat → DWord) : (s.jump f).cmdEn = s.cmdEn := rfl
@[simp] theorem State.jump_cmdLog (s : State) (f : Nat → DWord) : (s.jump f).cmdLog = s.cmdLog := rfl
@[simp] theorem State.jump_cmdBase (s : State) (f : Nat → DWord) : (s.jump f).cmdBase = s.cmdBase := rfl
@[simp] theorem State.jump_cmdProd (s : State) (f : Nat → DWord) : (s.jump f).cmdProd = s.cmdProd := rfl
@[simp] theorem State.jump_cmdCons (s : State) (f : Nat → DWord) : (s.jump f).cmdCons = s.cmdCons := rfl
@[simp] theorem State.jump_devNum (s : State) (f : Nat → DWord) : (s.jump f).devNum = s.devNum := rfl
@[simp] theorem State.jump_slotsOff (s : State) (f : Nat → DWord) : (s.jump f).slotsOff = s.slotsOff := rfl
@[simp] theorem State.jump_grants (s : State) (f : Nat → DWord) : (s.jump f).grants = s.grants := rfl
@[simp] theorem State.jump_remoteGrants (s : State) (f : Nat → DWord) : (s.jump f).remoteGrants = s.remoteGrants := rfl
@[simp] theorem State.jump_slices (s : State) (f : Nat → DWord) : (s.jump f).slices = s.slices := rfl
@[simp] theorem State.jump_powerLimit (s : State) (f : Nat → DWord) : (s.jump f).powerLimit = s.powerLimit := rfl
@[simp] theorem State.jump_clockSteps (s : State) (f : Nat → DWord) : (s.jump f).clockSteps = s.clockSteps := rfl
@[simp] theorem State.jump_stopped (s : State) (f : Nat → DWord) : (s.jump f).stopped = s.stopped := rfl
@[simp] theorem State.jump_d3Paused (s : State) (f : Nat → DWord) : (s.jump f).d3Paused = s.d3Paused := rfl
@[simp] theorem State.jump_nextSerial (s : State) (f : Nat → DWord) : (s.jump f).nextSerial = s.nextSerial := rfl
@[simp] theorem State.jump_serialsWrapped (s : State) (f : Nat → DWord) : (s.jump f).serialsWrapped = s.serialsWrapped := rfl
@[simp] theorem State.jump_names (s : State) (f : Nat → DWord) : (s.jump f).names = s.names := rfl
@[simp] theorem State.jump_ctime (s : State) (f : Nat → DWord) : (s.jump f).ctime = s.ctime := rfl
@[simp] theorem State.jump_clk (s : State) (f : Nat → DWord) : (s.jump f).clk = s.clk := rfl
@[simp] theorem State.jump_dieClk (s : State) (f : Nat → DWord) : (s.jump f).dieClk = s.dieClk := rfl
@[simp] theorem State.jump_coreClk (s : State) (f : Nat → DWord) : (s.jump f).coreClk = s.coreClk := rfl
@[simp] theorem State.jump_msix (s : State) (f : Nat → DWord) : (s.jump f).msix = s.msix := rfl
@[simp] theorem State.jump_msgs (s : State) (f : Nat → DWord) : (s.jump f).msgs = s.msgs := rfl
@[simp] theorem State.jump_ide (s : State) (f : Nat → DWord) : (s.jump f).ide = s.ide := rfl
@[simp] theorem State.jump_spdm (s : State) (f : Nat → DWord) : (s.jump f).spdm = s.spdm := rfl
@[simp] theorem State.jump_freorVersion (s : State) (f : Nat → DWord) : (s.jump f).freorVersion = s.freorVersion := rfl
@[simp] theorem State.jump_freorDigest (s : State) (f : Nat → DWord) : (s.jump f).freorDigest = s.freorDigest := rfl
@[simp] theorem State.jump_rollback (s : State) (f : Nat → DWord) : (s.jump f).rollback = s.rollback := rfl
@[simp] theorem State.jump_vds (s : State) (f : Nat → DWord) : (s.jump f).vds = s.vds := rfl
@[simp] theorem State.jump_teams (s : State) (f : Nat → DWord) : (s.jump f).teams = s.teams := rfl
@[simp] theorem State.jump_mem (s : State) (f : Nat → DWord) : (s.jump f).mem = s.mem := rfl
@[simp] theorem State.jump_tlb (s : State) (f : Nat → DWord) : (s.jump f).tlb = s.tlb := rfl
@[simp] theorem State.jump_walkCache (s : State) (f : Nat → DWord) : (s.jump f).walkCache = s.walkCache := rfl
@[simp] theorem State.jump_late (s : State) (f : Nat → DWord) : (s.jump f).late = s.late := rfl
@[simp] theorem State.jump_copies (s : State) (f : Nat → DWord) : (s.jump f).copies = s.copies := rfl
@[simp] theorem State.jump_colls (s : State) (f : Nat → DWord) : (s.jump f).colls = s.colls := rfl
@[simp] theorem State.jump_binops (s : State) (f : Nat → DWord) : (s.jump f).binops = s.binops := rfl
@[simp] theorem State.jump_binjobs (s : State) (f : Nat → DWord) : (s.jump f).binjobs = s.binjobs := rfl
@[simp] theorem State.jump_flight (s : State) (f : Nat → DWord) : (s.jump f).flight = s.flight := rfl
@[simp] theorem State.jump_outcomes (s : State) (f : Nat → DWord) : (s.jump f).outcomes = s.outcomes := rfl
@[simp] theorem State.jump_transit (s : State) (f : Nat → DWord) : (s.jump f).transit = s.transit := rfl
@[simp] theorem State.jump_ports (s : State) (f : Nat → DWord) : (s.jump f).ports = s.ports := rfl
@[simp] theorem State.jump_nextTid (s : State) (f : Nat → DWord) : (s.jump f).nextTid = s.nextTid := rfl
@[simp] theorem State.jump_nextId (s : State) (f : Nat → DWord) : (s.jump f).nextId = s.nextId := rfl
@[simp] theorem State.jump_nextSave (s : State) (f : Nat → DWord) : (s.jump f).nextSave = s.nextSave := rfl
@[simp] theorem State.jump_agenda (s : State) (f : Nat → DWord) : (s.jump f).agenda = s.agenda := rfl
@[simp] theorem State.jump_iss (s : State) (f : Nat → DWord) : (s.jump f).iss = s.iss := rfl
@[simp] theorem State.jump_marks (s : State) (f : Nat → DWord) : (s.jump f).marks = s.marks := rfl
@[simp] theorem State.jump_fenced (s : State) (f : Nat → DWord) : (s.jump f).fenced = s.fenced := rfl
@[simp] theorem State.jump_freeCtr (s : State) (f : Nat → DWord) : (s.jump f).freeCtr = s.freeCtr := rfl
@[simp] theorem State.jump_epoch (s : State) (f : Nat → DWord) : (s.jump f).epoch = s.epoch := rfl

@[simp] theorem State.finish_fuse (s : State) : (s.finish).fuse = s.fuse := rfl
@[simp] theorem State.finish_remapWord (s : State) : (s.finish).remapWord = s.remapWord := rfl
@[simp] theorem State.finish_retired (s : State) : (s.finish).retired = s.retired := rfl
@[simp] theorem State.finish_lost (s : State) : (s.finish).lost = s.lost := rfl
@[simp] theorem State.finish_inc0 (s : State) : (s.finish).inc0 = s.inc0 := rfl
@[simp] theorem State.finish_inc1 (s : State) : (s.finish).inc1 = s.inc1 := rfl
@[simp] theorem State.finish_kactl (s : State) : (s.finish).kactl = s.kactl := rfl
@[simp] theorem State.finish_kastat (s : State) : (s.finish).kastat = s.kastat := rfl
@[simp] theorem State.finish_err (s : State) : (s.finish).err = s.err := rfl
@[simp] theorem State.finish_cmdEn (s : State) : (s.finish).cmdEn = s.cmdEn := rfl
@[simp] theorem State.finish_cmdLog (s : State) : (s.finish).cmdLog = s.cmdLog := rfl
@[simp] theorem State.finish_cmdBase (s : State) : (s.finish).cmdBase = s.cmdBase := rfl
@[simp] theorem State.finish_cmdProd (s : State) : (s.finish).cmdProd = s.cmdProd := rfl
@[simp] theorem State.finish_cmdCons (s : State) : (s.finish).cmdCons = s.cmdCons := rfl
@[simp] theorem State.finish_devNum (s : State) : (s.finish).devNum = s.devNum := rfl
@[simp] theorem State.finish_slotsOff (s : State) : (s.finish).slotsOff = s.slotsOff := rfl
@[simp] theorem State.finish_grants (s : State) : (s.finish).grants = s.grants := rfl
@[simp] theorem State.finish_remoteGrants (s : State) : (s.finish).remoteGrants = s.remoteGrants := rfl
@[simp] theorem State.finish_slices (s : State) : (s.finish).slices = s.slices := rfl
@[simp] theorem State.finish_powerLimit (s : State) : (s.finish).powerLimit = s.powerLimit := rfl
@[simp] theorem State.finish_clockSteps (s : State) : (s.finish).clockSteps = s.clockSteps := rfl
@[simp] theorem State.finish_stopped (s : State) : (s.finish).stopped = s.stopped := rfl
@[simp] theorem State.finish_d3Paused (s : State) : (s.finish).d3Paused = s.d3Paused := rfl
@[simp] theorem State.finish_nextSerial (s : State) : (s.finish).nextSerial = s.nextSerial := rfl
@[simp] theorem State.finish_serialsWrapped (s : State) : (s.finish).serialsWrapped = s.serialsWrapped := rfl
@[simp] theorem State.finish_names (s : State) : (s.finish).names = s.names := rfl
@[simp] theorem State.finish_ctime (s : State) : (s.finish).ctime = s.ctime := rfl
@[simp] theorem State.finish_clk (s : State) : (s.finish).clk = s.clk := rfl
@[simp] theorem State.finish_dieClk (s : State) : (s.finish).dieClk = s.dieClk := rfl
@[simp] theorem State.finish_coreClk (s : State) : (s.finish).coreClk = s.coreClk := rfl
@[simp] theorem State.finish_msix (s : State) : (s.finish).msix = s.msix := rfl
@[simp] theorem State.finish_msgs (s : State) : (s.finish).msgs = s.msgs := rfl
@[simp] theorem State.finish_ide (s : State) : (s.finish).ide = s.ide := rfl
@[simp] theorem State.finish_spdm (s : State) : (s.finish).spdm = s.spdm := rfl
@[simp] theorem State.finish_freorVersion (s : State) : (s.finish).freorVersion = s.freorVersion := rfl
@[simp] theorem State.finish_freorDigest (s : State) : (s.finish).freorDigest = s.freorDigest := rfl
@[simp] theorem State.finish_rollback (s : State) : (s.finish).rollback = s.rollback := rfl
@[simp] theorem State.finish_vds (s : State) : (s.finish).vds = s.vds := rfl
@[simp] theorem State.finish_teams (s : State) : (s.finish).teams = s.teams := rfl
@[simp] theorem State.finish_mem (s : State) : (s.finish).mem = s.mem := rfl
@[simp] theorem State.finish_tlb (s : State) : (s.finish).tlb = s.tlb := rfl
@[simp] theorem State.finish_walkCache (s : State) : (s.finish).walkCache = s.walkCache := rfl
@[simp] theorem State.finish_late (s : State) : (s.finish).late = s.late := rfl
@[simp] theorem State.finish_copies (s : State) : (s.finish).copies = s.copies := rfl
@[simp] theorem State.finish_colls (s : State) : (s.finish).colls = s.colls := rfl
@[simp] theorem State.finish_binops (s : State) : (s.finish).binops = s.binops := rfl
@[simp] theorem State.finish_binjobs (s : State) : (s.finish).binjobs = s.binjobs := rfl
@[simp] theorem State.finish_flight (s : State) : (s.finish).flight = s.flight := rfl
@[simp] theorem State.finish_outcomes (s : State) : (s.finish).outcomes = s.outcomes := rfl
@[simp] theorem State.finish_transit (s : State) : (s.finish).transit = s.transit := rfl
@[simp] theorem State.finish_ports (s : State) : (s.finish).ports = s.ports := rfl
@[simp] theorem State.finish_nextTid (s : State) : (s.finish).nextTid = s.nextTid := rfl
@[simp] theorem State.finish_nextId (s : State) : (s.finish).nextId = s.nextId := rfl
@[simp] theorem State.finish_nextSave (s : State) : (s.finish).nextSave = s.nextSave := rfl
@[simp] theorem State.finish_agenda (s : State) : (s.finish).agenda = s.agenda := rfl
@[simp] theorem State.finish_iss (s : State) : (s.finish).iss = s.iss := rfl
@[simp] theorem State.finish_marks (s : State) : (s.finish).marks = s.marks := rfl
@[simp] theorem State.finish_fenced (s : State) : (s.finish).fenced = s.fenced := rfl
@[simp] theorem State.finish_freeCtr (s : State) : (s.finish).freeCtr = s.freeCtr := rfl
@[simp] theorem State.finish_epoch (s : State) : (s.finish).epoch = s.epoch := rfl

@[simp] theorem State.hold_fuse (s : State) (w : Wait) (pend pi : Word) : (s.hold w pend pi).fuse = s.fuse := rfl
@[simp] theorem State.hold_remapWord (s : State) (w : Wait) (pend pi : Word) : (s.hold w pend pi).remapWord = s.remapWord := rfl
@[simp] theorem State.hold_retired (s : State) (w : Wait) (pend pi : Word) : (s.hold w pend pi).retired = s.retired := rfl
@[simp] theorem State.hold_lost (s : State) (w : Wait) (pend pi : Word) : (s.hold w pend pi).lost = s.lost := rfl
@[simp] theorem State.hold_inc0 (s : State) (w : Wait) (pend pi : Word) : (s.hold w pend pi).inc0 = s.inc0 := rfl
@[simp] theorem State.hold_inc1 (s : State) (w : Wait) (pend pi : Word) : (s.hold w pend pi).inc1 = s.inc1 := rfl
@[simp] theorem State.hold_kactl (s : State) (w : Wait) (pend pi : Word) : (s.hold w pend pi).kactl = s.kactl := rfl
@[simp] theorem State.hold_kastat (s : State) (w : Wait) (pend pi : Word) : (s.hold w pend pi).kastat = s.kastat := rfl
@[simp] theorem State.hold_err (s : State) (w : Wait) (pend pi : Word) : (s.hold w pend pi).err = s.err := rfl
@[simp] theorem State.hold_cmdEn (s : State) (w : Wait) (pend pi : Word) : (s.hold w pend pi).cmdEn = s.cmdEn := rfl
@[simp] theorem State.hold_cmdLog (s : State) (w : Wait) (pend pi : Word) : (s.hold w pend pi).cmdLog = s.cmdLog := rfl
@[simp] theorem State.hold_cmdBase (s : State) (w : Wait) (pend pi : Word) : (s.hold w pend pi).cmdBase = s.cmdBase := rfl
@[simp] theorem State.hold_cmdProd (s : State) (w : Wait) (pend pi : Word) : (s.hold w pend pi).cmdProd = s.cmdProd := rfl
@[simp] theorem State.hold_cmdCons (s : State) (w : Wait) (pend pi : Word) : (s.hold w pend pi).cmdCons = s.cmdCons := rfl
@[simp] theorem State.hold_devNum (s : State) (w : Wait) (pend pi : Word) : (s.hold w pend pi).devNum = s.devNum := rfl
@[simp] theorem State.hold_slotsOff (s : State) (w : Wait) (pend pi : Word) : (s.hold w pend pi).slotsOff = s.slotsOff := rfl
@[simp] theorem State.hold_grants (s : State) (w : Wait) (pend pi : Word) : (s.hold w pend pi).grants = s.grants := rfl
@[simp] theorem State.hold_remoteGrants (s : State) (w : Wait) (pend pi : Word) : (s.hold w pend pi).remoteGrants = s.remoteGrants := rfl
@[simp] theorem State.hold_slices (s : State) (w : Wait) (pend pi : Word) : (s.hold w pend pi).slices = s.slices := rfl
@[simp] theorem State.hold_powerLimit (s : State) (w : Wait) (pend pi : Word) : (s.hold w pend pi).powerLimit = s.powerLimit := rfl
@[simp] theorem State.hold_clockSteps (s : State) (w : Wait) (pend pi : Word) : (s.hold w pend pi).clockSteps = s.clockSteps := rfl
@[simp] theorem State.hold_stopped (s : State) (w : Wait) (pend pi : Word) : (s.hold w pend pi).stopped = s.stopped := rfl
@[simp] theorem State.hold_d3Paused (s : State) (w : Wait) (pend pi : Word) : (s.hold w pend pi).d3Paused = s.d3Paused := rfl
@[simp] theorem State.hold_nextSerial (s : State) (w : Wait) (pend pi : Word) : (s.hold w pend pi).nextSerial = s.nextSerial := rfl
@[simp] theorem State.hold_serialsWrapped (s : State) (w : Wait) (pend pi : Word) : (s.hold w pend pi).serialsWrapped = s.serialsWrapped := rfl
@[simp] theorem State.hold_names (s : State) (w : Wait) (pend pi : Word) : (s.hold w pend pi).names = s.names := rfl
@[simp] theorem State.hold_ctime (s : State) (w : Wait) (pend pi : Word) : (s.hold w pend pi).ctime = s.ctime := rfl
@[simp] theorem State.hold_clk (s : State) (w : Wait) (pend pi : Word) : (s.hold w pend pi).clk = s.clk := rfl
@[simp] theorem State.hold_dieClk (s : State) (w : Wait) (pend pi : Word) : (s.hold w pend pi).dieClk = s.dieClk := rfl
@[simp] theorem State.hold_coreClk (s : State) (w : Wait) (pend pi : Word) : (s.hold w pend pi).coreClk = s.coreClk := rfl
@[simp] theorem State.hold_msix (s : State) (w : Wait) (pend pi : Word) : (s.hold w pend pi).msix = s.msix := rfl
@[simp] theorem State.hold_msgs (s : State) (w : Wait) (pend pi : Word) : (s.hold w pend pi).msgs = s.msgs := rfl
@[simp] theorem State.hold_ide (s : State) (w : Wait) (pend pi : Word) : (s.hold w pend pi).ide = s.ide := rfl
@[simp] theorem State.hold_spdm (s : State) (w : Wait) (pend pi : Word) : (s.hold w pend pi).spdm = s.spdm := rfl
@[simp] theorem State.hold_freorVersion (s : State) (w : Wait) (pend pi : Word) : (s.hold w pend pi).freorVersion = s.freorVersion := rfl
@[simp] theorem State.hold_freorDigest (s : State) (w : Wait) (pend pi : Word) : (s.hold w pend pi).freorDigest = s.freorDigest := rfl
@[simp] theorem State.hold_rollback (s : State) (w : Wait) (pend pi : Word) : (s.hold w pend pi).rollback = s.rollback := rfl
@[simp] theorem State.hold_vds (s : State) (w : Wait) (pend pi : Word) : (s.hold w pend pi).vds = s.vds := rfl
@[simp] theorem State.hold_teams (s : State) (w : Wait) (pend pi : Word) : (s.hold w pend pi).teams = s.teams := rfl
@[simp] theorem State.hold_mem (s : State) (w : Wait) (pend pi : Word) : (s.hold w pend pi).mem = s.mem := rfl
@[simp] theorem State.hold_tlb (s : State) (w : Wait) (pend pi : Word) : (s.hold w pend pi).tlb = s.tlb := rfl
@[simp] theorem State.hold_walkCache (s : State) (w : Wait) (pend pi : Word) : (s.hold w pend pi).walkCache = s.walkCache := rfl
@[simp] theorem State.hold_late (s : State) (w : Wait) (pend pi : Word) : (s.hold w pend pi).late = s.late := rfl
@[simp] theorem State.hold_copies (s : State) (w : Wait) (pend pi : Word) : (s.hold w pend pi).copies = s.copies := rfl
@[simp] theorem State.hold_colls (s : State) (w : Wait) (pend pi : Word) : (s.hold w pend pi).colls = s.colls := rfl
@[simp] theorem State.hold_binops (s : State) (w : Wait) (pend pi : Word) : (s.hold w pend pi).binops = s.binops := rfl
@[simp] theorem State.hold_binjobs (s : State) (w : Wait) (pend pi : Word) : (s.hold w pend pi).binjobs = s.binjobs := rfl
@[simp] theorem State.hold_flight (s : State) (w : Wait) (pend pi : Word) : (s.hold w pend pi).flight = s.flight := rfl
@[simp] theorem State.hold_outcomes (s : State) (w : Wait) (pend pi : Word) : (s.hold w pend pi).outcomes = s.outcomes := rfl
@[simp] theorem State.hold_transit (s : State) (w : Wait) (pend pi : Word) : (s.hold w pend pi).transit = s.transit := rfl
@[simp] theorem State.hold_ports (s : State) (w : Wait) (pend pi : Word) : (s.hold w pend pi).ports = s.ports := rfl
@[simp] theorem State.hold_nextTid (s : State) (w : Wait) (pend pi : Word) : (s.hold w pend pi).nextTid = s.nextTid := rfl
@[simp] theorem State.hold_nextId (s : State) (w : Wait) (pend pi : Word) : (s.hold w pend pi).nextId = s.nextId := rfl
@[simp] theorem State.hold_nextSave (s : State) (w : Wait) (pend pi : Word) : (s.hold w pend pi).nextSave = s.nextSave := rfl
@[simp] theorem State.hold_agenda (s : State) (w : Wait) (pend pi : Word) : (s.hold w pend pi).agenda = s.agenda := rfl
@[simp] theorem State.hold_iss (s : State) (w : Wait) (pend pi : Word) : (s.hold w pend pi).iss = s.iss := rfl
@[simp] theorem State.hold_marks (s : State) (w : Wait) (pend pi : Word) : (s.hold w pend pi).marks = s.marks := rfl
@[simp] theorem State.hold_fenced (s : State) (w : Wait) (pend pi : Word) : (s.hold w pend pi).fenced = s.fenced := rfl
@[simp] theorem State.hold_freeCtr (s : State) (w : Wait) (pend pi : Word) : (s.hold w pend pi).freeCtr = s.freeCtr := rfl
@[simp] theorem State.hold_epoch (s : State) (w : Wait) (pend pi : Word) : (s.hold w pend pi).epoch = s.epoch := rfl

/-! ## Updates of a group -/

@[simp] theorem Group.settled_role (g : Group) (r : Bool) : (g.settled r).role = g.role := rfl
@[simp] theorem Group.settled_tid (g : Group) (r : Bool) : (g.settled r).tid = g.tid := rfl
@[simp] theorem Group.settled_grpid (g : Group) (r : Bool) : (g.settled r).grpid = g.grpid := rfl
@[simp] theorem Group.settled_gname (g : Group) (r : Bool) : (g.settled r).gname = g.gname := rfl
@[simp] theorem Group.settled_vd (g : Group) (r : Bool) : (g.settled r).vd = g.vd := rfl
@[simp] theorem Group.settled_ngen (g : Group) (r : Bool) : (g.settled r).ngen = g.ngen := rfl
@[simp] theorem Group.settled_ncmp (g : Group) (r : Bool) : (g.settled r).ncmp = g.ncmp := rfl
@[simp] theorem Group.settled_core (g : Group) (r : Bool) : (g.settled r).core = g.core := rfl
@[simp] theorem Group.settled_tcore (g : Group) (r : Bool) : (g.settled r).tcore = g.tcore := rfl
@[simp] theorem Group.settled_quad (g : Group) (r : Bool) : (g.settled r).quad = g.quad := rfl
@[simp] theorem Group.settled_v (g : Group) (r : Bool) : (g.settled r).v = g.v := rfl
@[simp] theorem Group.settled_s (g : Group) (r : Bool) : (g.settled r).s = g.s := rfl
@[simp] theorem Group.settled_p (g : Group) (r : Bool) : (g.settled r).p = g.p := rfl
@[simp] theorem Group.settled_pcs (g : Group) (r : Bool) : (g.settled r).pcs = g.pcs := rfl
@[simp] theorem Group.settled_aging (g : Group) (r : Bool) : (g.settled r).aging = g.aging := rfl
@[simp] theorem Group.settled_agingPtr (g : Group) (r : Bool) : (g.settled r).agingPtr = g.agingPtr := rfl
@[simp] theorem Group.settled_yielded (g : Group) (r : Bool) : (g.settled r).yielded = g.yielded := rfl
@[simp] theorem Group.settled_forced (g : Group) (r : Bool) : (g.settled r).forced = g.forced := rfl
@[simp] theorem Group.settled_tc (g : Group) (r : Bool) : (g.settled r).tc = g.tc := rfl
@[simp] theorem Group.settled_td0 (g : Group) (r : Bool) : (g.settled r).td0 = g.td0 := rfl
@[simp] theorem Group.settled_td1 (g : Group) (r : Bool) : (g.settled r).td1 = g.td1 := rfl
@[simp] theorem Group.settled_td2 (g : Group) (r : Bool) : (g.settled r).td2 = g.td2 := rfl
@[simp] theorem Group.settled_tvec (g : Group) (r : Bool) : (g.settled r).tvec = g.tvec := rfl
@[simp] theorem Group.settled_tarea (g : Group) (r : Bool) : (g.settled r).tarea = g.tarea := rfl
@[simp] theorem Group.settled_spq (g : Group) (r : Bool) : (g.settled r).spq = g.spq := rfl
@[simp] theorem Group.settled_inhdl (g : Group) (r : Bool) : (g.settled r).inhdl = g.inhdl := rfl
@[simp] theorem Group.settled_tdmask (g : Group) (r : Bool) : (g.settled r).tdmask = g.tdmask := rfl
@[simp] theorem Group.settled_regions (g : Group) (r : Bool) : (g.settled r).regions = g.regions := rfl
@[simp] theorem Group.settled_nextRegion (g : Group) (r : Bool) : (g.settled r).nextRegion = g.nextRegion := rfl
@[simp] theorem Group.settled_lcause (g : Group) (r : Bool) : (g.settled r).lcause = g.lcause := rfl
@[simp] theorem Group.settled_unw (g : Group) (r : Bool) : (g.settled r).unw = g.unw := rfl
@[simp] theorem Group.settled_unwcnt (g : Group) (r : Bool) : (g.settled r).unwcnt = g.unwcnt := rfl
@[simp] theorem Group.settled_ibc (g : Group) (r : Bool) : (g.settled r).ibc = g.ibc := rfl
@[simp] theorem Group.settled_send (g : Group) (r : Bool) : (g.settled r).send = g.send := rfl
@[simp] theorem Group.settled_sent (g : Group) (r : Bool) : (g.settled r).sent = g.sent := rfl
@[simp] theorem Group.settled_dftok (g : Group) (r : Bool) : (g.settled r).dftok = g.dftok := rfl
@[simp] theorem Group.settled_slot (g : Group) (r : Bool) : (g.settled r).slot = g.slot := rfl
@[simp] theorem Group.settled_stackEpoch (g : Group) (r : Bool) : (g.settled r).stackEpoch = g.stackEpoch := rfl
@[simp] theorem Group.settled_errs (g : Group) (r : Bool) : (g.settled r).errs = g.errs := rfl
@[simp] theorem Group.settled_naks (g : Group) (r : Bool) : (g.settled r).naks = g.naks := rfl
@[simp] theorem Group.settled_trapping (g : Group) (r : Bool) : (g.settled r).trapping = g.trapping := rfl
@[simp] theorem Group.settled_predDone (g : Group) (r : Bool) : (g.settled r).predDone = g.predDone := rfl
@[simp] theorem Group.settled_smstart (g : Group) (r : Bool) : (g.settled r).smstart = g.smstart := rfl
@[simp] theorem Group.settled_moving (g : Group) (r : Bool) : (g.settled r).moving = g.moving := rfl
@[simp] theorem Group.settled_win (g : Group) (r : Bool) : (g.settled r).win = g.win := rfl
@[simp] theorem Group.settled_winHit (g : Group) (r : Bool) : (g.settled r).winHit = g.winHit := rfl
@[simp] theorem Group.settled_vdirty (g : Group) (r : Bool) : (g.settled r).vdirty = g.vdirty := rfl
@[simp] theorem Group.settled_kept (g : Group) (r : Bool) : (g.settled r).kept = g.kept := rfl
@[simp] theorem Group.settled_sq (g : Group) (r : Bool) : (g.settled r).sq = g.sq := rfl

@[simp] theorem Group.movePcs_role (g : Group) (xm : Word) (f : Nat → Option DWord) : (g.movePcs xm f).role = g.role := rfl
@[simp] theorem Group.movePcs_tid (g : Group) (xm : Word) (f : Nat → Option DWord) : (g.movePcs xm f).tid = g.tid := rfl
@[simp] theorem Group.movePcs_grpid (g : Group) (xm : Word) (f : Nat → Option DWord) : (g.movePcs xm f).grpid = g.grpid := rfl
@[simp] theorem Group.movePcs_gname (g : Group) (xm : Word) (f : Nat → Option DWord) : (g.movePcs xm f).gname = g.gname := rfl
@[simp] theorem Group.movePcs_vd (g : Group) (xm : Word) (f : Nat → Option DWord) : (g.movePcs xm f).vd = g.vd := rfl
@[simp] theorem Group.movePcs_ngen (g : Group) (xm : Word) (f : Nat → Option DWord) : (g.movePcs xm f).ngen = g.ngen := rfl
@[simp] theorem Group.movePcs_ncmp (g : Group) (xm : Word) (f : Nat → Option DWord) : (g.movePcs xm f).ncmp = g.ncmp := rfl
@[simp] theorem Group.movePcs_core (g : Group) (xm : Word) (f : Nat → Option DWord) : (g.movePcs xm f).core = g.core := rfl
@[simp] theorem Group.movePcs_tcore (g : Group) (xm : Word) (f : Nat → Option DWord) : (g.movePcs xm f).tcore = g.tcore := rfl
@[simp] theorem Group.movePcs_quad (g : Group) (xm : Word) (f : Nat → Option DWord) : (g.movePcs xm f).quad = g.quad := rfl
@[simp] theorem Group.movePcs_v (g : Group) (xm : Word) (f : Nat → Option DWord) : (g.movePcs xm f).v = g.v := rfl
@[simp] theorem Group.movePcs_s (g : Group) (xm : Word) (f : Nat → Option DWord) : (g.movePcs xm f).s = g.s := rfl
@[simp] theorem Group.movePcs_p (g : Group) (xm : Word) (f : Nat → Option DWord) : (g.movePcs xm f).p = g.p := rfl
@[simp] theorem Group.movePcs_aging (g : Group) (xm : Word) (f : Nat → Option DWord) : (g.movePcs xm f).aging = g.aging := rfl
@[simp] theorem Group.movePcs_agingPtr (g : Group) (xm : Word) (f : Nat → Option DWord) : (g.movePcs xm f).agingPtr = g.agingPtr := rfl
@[simp] theorem Group.movePcs_yielded (g : Group) (xm : Word) (f : Nat → Option DWord) : (g.movePcs xm f).yielded = g.yielded := rfl
@[simp] theorem Group.movePcs_forced (g : Group) (xm : Word) (f : Nat → Option DWord) : (g.movePcs xm f).forced = g.forced := rfl
@[simp] theorem Group.movePcs_pi (g : Group) (xm : Word) (f : Nat → Option DWord) : (g.movePcs xm f).pi = g.pi := rfl
@[simp] theorem Group.movePcs_tc (g : Group) (xm : Word) (f : Nat → Option DWord) : (g.movePcs xm f).tc = g.tc := rfl
@[simp] theorem Group.movePcs_td0 (g : Group) (xm : Word) (f : Nat → Option DWord) : (g.movePcs xm f).td0 = g.td0 := rfl
@[simp] theorem Group.movePcs_td1 (g : Group) (xm : Word) (f : Nat → Option DWord) : (g.movePcs xm f).td1 = g.td1 := rfl
@[simp] theorem Group.movePcs_td2 (g : Group) (xm : Word) (f : Nat → Option DWord) : (g.movePcs xm f).td2 = g.td2 := rfl
@[simp] theorem Group.movePcs_tvec (g : Group) (xm : Word) (f : Nat → Option DWord) : (g.movePcs xm f).tvec = g.tvec := rfl
@[simp] theorem Group.movePcs_tarea (g : Group) (xm : Word) (f : Nat → Option DWord) : (g.movePcs xm f).tarea = g.tarea := rfl
@[simp] theorem Group.movePcs_spq (g : Group) (xm : Word) (f : Nat → Option DWord) : (g.movePcs xm f).spq = g.spq := rfl
@[simp] theorem Group.movePcs_inhdl (g : Group) (xm : Word) (f : Nat → Option DWord) : (g.movePcs xm f).inhdl = g.inhdl := rfl
@[simp] theorem Group.movePcs_tdmask (g : Group) (xm : Word) (f : Nat → Option DWord) : (g.movePcs xm f).tdmask = g.tdmask := rfl
@[simp] theorem Group.movePcs_regions (g : Group) (xm : Word) (f : Nat → Option DWord) : (g.movePcs xm f).regions = g.regions := rfl
@[simp] theorem Group.movePcs_nextRegion (g : Group) (xm : Word) (f : Nat → Option DWord) : (g.movePcs xm f).nextRegion = g.nextRegion := rfl
@[simp] theorem Group.movePcs_lcause (g : Group) (xm : Word) (f : Nat → Option DWord) : (g.movePcs xm f).lcause = g.lcause := rfl
@[simp] theorem Group.movePcs_unw (g : Group) (xm : Word) (f : Nat → Option DWord) : (g.movePcs xm f).unw = g.unw := rfl
@[simp] theorem Group.movePcs_unwcnt (g : Group) (xm : Word) (f : Nat → Option DWord) : (g.movePcs xm f).unwcnt = g.unwcnt := rfl
@[simp] theorem Group.movePcs_ibc (g : Group) (xm : Word) (f : Nat → Option DWord) : (g.movePcs xm f).ibc = g.ibc := rfl
@[simp] theorem Group.movePcs_send (g : Group) (xm : Word) (f : Nat → Option DWord) : (g.movePcs xm f).send = g.send := rfl
@[simp] theorem Group.movePcs_sent (g : Group) (xm : Word) (f : Nat → Option DWord) : (g.movePcs xm f).sent = g.sent := rfl
@[simp] theorem Group.movePcs_dftok (g : Group) (xm : Word) (f : Nat → Option DWord) : (g.movePcs xm f).dftok = g.dftok := rfl
@[simp] theorem Group.movePcs_slot (g : Group) (xm : Word) (f : Nat → Option DWord) : (g.movePcs xm f).slot = g.slot := rfl
@[simp] theorem Group.movePcs_stackEpoch (g : Group) (xm : Word) (f : Nat → Option DWord) : (g.movePcs xm f).stackEpoch = g.stackEpoch := rfl
@[simp] theorem Group.movePcs_wait (g : Group) (xm : Word) (f : Nat → Option DWord) : (g.movePcs xm f).wait = g.wait := rfl
@[simp] theorem Group.movePcs_part (g : Group) (xm : Word) (f : Nat → Option DWord) : (g.movePcs xm f).part = g.part := rfl
@[simp] theorem Group.movePcs_replay (g : Group) (xm : Word) (f : Nat → Option DWord) : (g.movePcs xm f).replay = g.replay := rfl
@[simp] theorem Group.movePcs_errs (g : Group) (xm : Word) (f : Nat → Option DWord) : (g.movePcs xm f).errs = g.errs := rfl
@[simp] theorem Group.movePcs_naks (g : Group) (xm : Word) (f : Nat → Option DWord) : (g.movePcs xm f).naks = g.naks := rfl
@[simp] theorem Group.movePcs_trapping (g : Group) (xm : Word) (f : Nat → Option DWord) : (g.movePcs xm f).trapping = g.trapping := rfl
@[simp] theorem Group.movePcs_predDone (g : Group) (xm : Word) (f : Nat → Option DWord) : (g.movePcs xm f).predDone = g.predDone := rfl
@[simp] theorem Group.movePcs_smstart (g : Group) (xm : Word) (f : Nat → Option DWord) : (g.movePcs xm f).smstart = g.smstart := rfl
@[simp] theorem Group.movePcs_moving (g : Group) (xm : Word) (f : Nat → Option DWord) : (g.movePcs xm f).moving = g.moving := rfl
@[simp] theorem Group.movePcs_win (g : Group) (xm : Word) (f : Nat → Option DWord) : (g.movePcs xm f).win = g.win := rfl
@[simp] theorem Group.movePcs_winHit (g : Group) (xm : Word) (f : Nat → Option DWord) : (g.movePcs xm f).winHit = g.winHit := rfl
@[simp] theorem Group.movePcs_vdirty (g : Group) (xm : Word) (f : Nat → Option DWord) : (g.movePcs xm f).vdirty = g.vdirty := rfl
@[simp] theorem Group.movePcs_kept (g : Group) (xm : Word) (f : Nat → Option DWord) : (g.movePcs xm f).kept = g.kept := rfl
@[simp] theorem Group.movePcs_sq (g : Group) (xm : Word) (f : Nat → Option DWord) : (g.movePcs xm f).sq = g.sq := rfl

@[simp] theorem Group.writeV_role (g : Group) (act : Word) (w : DestW) : (g.writeV act w).role = g.role := rfl
@[simp] theorem Group.writeV_tid (g : Group) (act : Word) (w : DestW) : (g.writeV act w).tid = g.tid := rfl
@[simp] theorem Group.writeV_grpid (g : Group) (act : Word) (w : DestW) : (g.writeV act w).grpid = g.grpid := rfl
@[simp] theorem Group.writeV_gname (g : Group) (act : Word) (w : DestW) : (g.writeV act w).gname = g.gname := rfl
@[simp] theorem Group.writeV_vd (g : Group) (act : Word) (w : DestW) : (g.writeV act w).vd = g.vd := rfl
@[simp] theorem Group.writeV_ngen (g : Group) (act : Word) (w : DestW) : (g.writeV act w).ngen = g.ngen := rfl
@[simp] theorem Group.writeV_ncmp (g : Group) (act : Word) (w : DestW) : (g.writeV act w).ncmp = g.ncmp := rfl
@[simp] theorem Group.writeV_core (g : Group) (act : Word) (w : DestW) : (g.writeV act w).core = g.core := rfl
@[simp] theorem Group.writeV_tcore (g : Group) (act : Word) (w : DestW) : (g.writeV act w).tcore = g.tcore := rfl
@[simp] theorem Group.writeV_quad (g : Group) (act : Word) (w : DestW) : (g.writeV act w).quad = g.quad := rfl
@[simp] theorem Group.writeV_s (g : Group) (act : Word) (w : DestW) : (g.writeV act w).s = g.s := rfl
@[simp] theorem Group.writeV_p (g : Group) (act : Word) (w : DestW) : (g.writeV act w).p = g.p := rfl
@[simp] theorem Group.writeV_pcs (g : Group) (act : Word) (w : DestW) : (g.writeV act w).pcs = g.pcs := rfl
@[simp] theorem Group.writeV_aging (g : Group) (act : Word) (w : DestW) : (g.writeV act w).aging = g.aging := rfl
@[simp] theorem Group.writeV_agingPtr (g : Group) (act : Word) (w : DestW) : (g.writeV act w).agingPtr = g.agingPtr := rfl
@[simp] theorem Group.writeV_yielded (g : Group) (act : Word) (w : DestW) : (g.writeV act w).yielded = g.yielded := rfl
@[simp] theorem Group.writeV_forced (g : Group) (act : Word) (w : DestW) : (g.writeV act w).forced = g.forced := rfl
@[simp] theorem Group.writeV_pi (g : Group) (act : Word) (w : DestW) : (g.writeV act w).pi = g.pi := rfl
@[simp] theorem Group.writeV_tc (g : Group) (act : Word) (w : DestW) : (g.writeV act w).tc = g.tc := rfl
@[simp] theorem Group.writeV_td0 (g : Group) (act : Word) (w : DestW) : (g.writeV act w).td0 = g.td0 := rfl
@[simp] theorem Group.writeV_td1 (g : Group) (act : Word) (w : DestW) : (g.writeV act w).td1 = g.td1 := rfl
@[simp] theorem Group.writeV_td2 (g : Group) (act : Word) (w : DestW) : (g.writeV act w).td2 = g.td2 := rfl
@[simp] theorem Group.writeV_tvec (g : Group) (act : Word) (w : DestW) : (g.writeV act w).tvec = g.tvec := rfl
@[simp] theorem Group.writeV_tarea (g : Group) (act : Word) (w : DestW) : (g.writeV act w).tarea = g.tarea := rfl
@[simp] theorem Group.writeV_spq (g : Group) (act : Word) (w : DestW) : (g.writeV act w).spq = g.spq := rfl
@[simp] theorem Group.writeV_inhdl (g : Group) (act : Word) (w : DestW) : (g.writeV act w).inhdl = g.inhdl := rfl
@[simp] theorem Group.writeV_tdmask (g : Group) (act : Word) (w : DestW) : (g.writeV act w).tdmask = g.tdmask := rfl
@[simp] theorem Group.writeV_regions (g : Group) (act : Word) (w : DestW) : (g.writeV act w).regions = g.regions := rfl
@[simp] theorem Group.writeV_nextRegion (g : Group) (act : Word) (w : DestW) : (g.writeV act w).nextRegion = g.nextRegion := rfl
@[simp] theorem Group.writeV_lcause (g : Group) (act : Word) (w : DestW) : (g.writeV act w).lcause = g.lcause := rfl
@[simp] theorem Group.writeV_unw (g : Group) (act : Word) (w : DestW) : (g.writeV act w).unw = g.unw := rfl
@[simp] theorem Group.writeV_unwcnt (g : Group) (act : Word) (w : DestW) : (g.writeV act w).unwcnt = g.unwcnt := rfl
@[simp] theorem Group.writeV_ibc (g : Group) (act : Word) (w : DestW) : (g.writeV act w).ibc = g.ibc := rfl
@[simp] theorem Group.writeV_send (g : Group) (act : Word) (w : DestW) : (g.writeV act w).send = g.send := rfl
@[simp] theorem Group.writeV_sent (g : Group) (act : Word) (w : DestW) : (g.writeV act w).sent = g.sent := rfl
@[simp] theorem Group.writeV_dftok (g : Group) (act : Word) (w : DestW) : (g.writeV act w).dftok = g.dftok := rfl
@[simp] theorem Group.writeV_slot (g : Group) (act : Word) (w : DestW) : (g.writeV act w).slot = g.slot := rfl
@[simp] theorem Group.writeV_stackEpoch (g : Group) (act : Word) (w : DestW) : (g.writeV act w).stackEpoch = g.stackEpoch := rfl
@[simp] theorem Group.writeV_wait (g : Group) (act : Word) (w : DestW) : (g.writeV act w).wait = g.wait := rfl
@[simp] theorem Group.writeV_part (g : Group) (act : Word) (w : DestW) : (g.writeV act w).part = g.part := rfl
@[simp] theorem Group.writeV_replay (g : Group) (act : Word) (w : DestW) : (g.writeV act w).replay = g.replay := rfl
@[simp] theorem Group.writeV_errs (g : Group) (act : Word) (w : DestW) : (g.writeV act w).errs = g.errs := rfl
@[simp] theorem Group.writeV_naks (g : Group) (act : Word) (w : DestW) : (g.writeV act w).naks = g.naks := rfl
@[simp] theorem Group.writeV_trapping (g : Group) (act : Word) (w : DestW) : (g.writeV act w).trapping = g.trapping := rfl
@[simp] theorem Group.writeV_predDone (g : Group) (act : Word) (w : DestW) : (g.writeV act w).predDone = g.predDone := rfl
@[simp] theorem Group.writeV_smstart (g : Group) (act : Word) (w : DestW) : (g.writeV act w).smstart = g.smstart := rfl
@[simp] theorem Group.writeV_moving (g : Group) (act : Word) (w : DestW) : (g.writeV act w).moving = g.moving := rfl
@[simp] theorem Group.writeV_win (g : Group) (act : Word) (w : DestW) : (g.writeV act w).win = g.win := rfl
@[simp] theorem Group.writeV_kept (g : Group) (act : Word) (w : DestW) : (g.writeV act w).kept = g.kept := rfl
@[simp] theorem Group.writeV_sq (g : Group) (act : Word) (w : DestW) : (g.writeV act w).sq = g.sq := rfl

@[simp] theorem Group.writeS_role (g : Group) (k : Nat) (x : DWord) (t : Tag) : (g.writeS k x t).role = g.role := rfl
@[simp] theorem Group.writeS_tid (g : Group) (k : Nat) (x : DWord) (t : Tag) : (g.writeS k x t).tid = g.tid := rfl
@[simp] theorem Group.writeS_grpid (g : Group) (k : Nat) (x : DWord) (t : Tag) : (g.writeS k x t).grpid = g.grpid := rfl
@[simp] theorem Group.writeS_gname (g : Group) (k : Nat) (x : DWord) (t : Tag) : (g.writeS k x t).gname = g.gname := rfl
@[simp] theorem Group.writeS_vd (g : Group) (k : Nat) (x : DWord) (t : Tag) : (g.writeS k x t).vd = g.vd := rfl
@[simp] theorem Group.writeS_ngen (g : Group) (k : Nat) (x : DWord) (t : Tag) : (g.writeS k x t).ngen = g.ngen := rfl
@[simp] theorem Group.writeS_ncmp (g : Group) (k : Nat) (x : DWord) (t : Tag) : (g.writeS k x t).ncmp = g.ncmp := rfl
@[simp] theorem Group.writeS_core (g : Group) (k : Nat) (x : DWord) (t : Tag) : (g.writeS k x t).core = g.core := rfl
@[simp] theorem Group.writeS_tcore (g : Group) (k : Nat) (x : DWord) (t : Tag) : (g.writeS k x t).tcore = g.tcore := rfl
@[simp] theorem Group.writeS_quad (g : Group) (k : Nat) (x : DWord) (t : Tag) : (g.writeS k x t).quad = g.quad := rfl
@[simp] theorem Group.writeS_v (g : Group) (k : Nat) (x : DWord) (t : Tag) : (g.writeS k x t).v = g.v := rfl
@[simp] theorem Group.writeS_p (g : Group) (k : Nat) (x : DWord) (t : Tag) : (g.writeS k x t).p = g.p := rfl
@[simp] theorem Group.writeS_pcs (g : Group) (k : Nat) (x : DWord) (t : Tag) : (g.writeS k x t).pcs = g.pcs := rfl
@[simp] theorem Group.writeS_aging (g : Group) (k : Nat) (x : DWord) (t : Tag) : (g.writeS k x t).aging = g.aging := rfl
@[simp] theorem Group.writeS_agingPtr (g : Group) (k : Nat) (x : DWord) (t : Tag) : (g.writeS k x t).agingPtr = g.agingPtr := rfl
@[simp] theorem Group.writeS_yielded (g : Group) (k : Nat) (x : DWord) (t : Tag) : (g.writeS k x t).yielded = g.yielded := rfl
@[simp] theorem Group.writeS_forced (g : Group) (k : Nat) (x : DWord) (t : Tag) : (g.writeS k x t).forced = g.forced := rfl
@[simp] theorem Group.writeS_pi (g : Group) (k : Nat) (x : DWord) (t : Tag) : (g.writeS k x t).pi = g.pi := rfl
@[simp] theorem Group.writeS_tc (g : Group) (k : Nat) (x : DWord) (t : Tag) : (g.writeS k x t).tc = g.tc := rfl
@[simp] theorem Group.writeS_td0 (g : Group) (k : Nat) (x : DWord) (t : Tag) : (g.writeS k x t).td0 = g.td0 := rfl
@[simp] theorem Group.writeS_td1 (g : Group) (k : Nat) (x : DWord) (t : Tag) : (g.writeS k x t).td1 = g.td1 := rfl
@[simp] theorem Group.writeS_td2 (g : Group) (k : Nat) (x : DWord) (t : Tag) : (g.writeS k x t).td2 = g.td2 := rfl
@[simp] theorem Group.writeS_tvec (g : Group) (k : Nat) (x : DWord) (t : Tag) : (g.writeS k x t).tvec = g.tvec := rfl
@[simp] theorem Group.writeS_tarea (g : Group) (k : Nat) (x : DWord) (t : Tag) : (g.writeS k x t).tarea = g.tarea := rfl
@[simp] theorem Group.writeS_spq (g : Group) (k : Nat) (x : DWord) (t : Tag) : (g.writeS k x t).spq = g.spq := rfl
@[simp] theorem Group.writeS_inhdl (g : Group) (k : Nat) (x : DWord) (t : Tag) : (g.writeS k x t).inhdl = g.inhdl := rfl
@[simp] theorem Group.writeS_tdmask (g : Group) (k : Nat) (x : DWord) (t : Tag) : (g.writeS k x t).tdmask = g.tdmask := rfl
@[simp] theorem Group.writeS_regions (g : Group) (k : Nat) (x : DWord) (t : Tag) : (g.writeS k x t).regions = g.regions := rfl
@[simp] theorem Group.writeS_nextRegion (g : Group) (k : Nat) (x : DWord) (t : Tag) : (g.writeS k x t).nextRegion = g.nextRegion := rfl
@[simp] theorem Group.writeS_lcause (g : Group) (k : Nat) (x : DWord) (t : Tag) : (g.writeS k x t).lcause = g.lcause := rfl
@[simp] theorem Group.writeS_unw (g : Group) (k : Nat) (x : DWord) (t : Tag) : (g.writeS k x t).unw = g.unw := rfl
@[simp] theorem Group.writeS_unwcnt (g : Group) (k : Nat) (x : DWord) (t : Tag) : (g.writeS k x t).unwcnt = g.unwcnt := rfl
@[simp] theorem Group.writeS_ibc (g : Group) (k : Nat) (x : DWord) (t : Tag) : (g.writeS k x t).ibc = g.ibc := rfl
@[simp] theorem Group.writeS_send (g : Group) (k : Nat) (x : DWord) (t : Tag) : (g.writeS k x t).send = g.send := rfl
@[simp] theorem Group.writeS_sent (g : Group) (k : Nat) (x : DWord) (t : Tag) : (g.writeS k x t).sent = g.sent := rfl
@[simp] theorem Group.writeS_dftok (g : Group) (k : Nat) (x : DWord) (t : Tag) : (g.writeS k x t).dftok = g.dftok := rfl
@[simp] theorem Group.writeS_slot (g : Group) (k : Nat) (x : DWord) (t : Tag) : (g.writeS k x t).slot = g.slot := rfl
@[simp] theorem Group.writeS_stackEpoch (g : Group) (k : Nat) (x : DWord) (t : Tag) : (g.writeS k x t).stackEpoch = g.stackEpoch := rfl
@[simp] theorem Group.writeS_wait (g : Group) (k : Nat) (x : DWord) (t : Tag) : (g.writeS k x t).wait = g.wait := rfl
@[simp] theorem Group.writeS_part (g : Group) (k : Nat) (x : DWord) (t : Tag) : (g.writeS k x t).part = g.part := rfl
@[simp] theorem Group.writeS_replay (g : Group) (k : Nat) (x : DWord) (t : Tag) : (g.writeS k x t).replay = g.replay := rfl
@[simp] theorem Group.writeS_errs (g : Group) (k : Nat) (x : DWord) (t : Tag) : (g.writeS k x t).errs = g.errs := rfl
@[simp] theorem Group.writeS_naks (g : Group) (k : Nat) (x : DWord) (t : Tag) : (g.writeS k x t).naks = g.naks := rfl
@[simp] theorem Group.writeS_trapping (g : Group) (k : Nat) (x : DWord) (t : Tag) : (g.writeS k x t).trapping = g.trapping := rfl
@[simp] theorem Group.writeS_predDone (g : Group) (k : Nat) (x : DWord) (t : Tag) : (g.writeS k x t).predDone = g.predDone := rfl
@[simp] theorem Group.writeS_smstart (g : Group) (k : Nat) (x : DWord) (t : Tag) : (g.writeS k x t).smstart = g.smstart := rfl
@[simp] theorem Group.writeS_moving (g : Group) (k : Nat) (x : DWord) (t : Tag) : (g.writeS k x t).moving = g.moving := rfl
@[simp] theorem Group.writeS_win (g : Group) (k : Nat) (x : DWord) (t : Tag) : (g.writeS k x t).win = g.win := rfl
@[simp] theorem Group.writeS_winHit (g : Group) (k : Nat) (x : DWord) (t : Tag) : (g.writeS k x t).winHit = g.winHit := rfl
@[simp] theorem Group.writeS_vdirty (g : Group) (k : Nat) (x : DWord) (t : Tag) : (g.writeS k x t).vdirty = g.vdirty := rfl
@[simp] theorem Group.writeS_kept (g : Group) (k : Nat) (x : DWord) (t : Tag) : (g.writeS k x t).kept = g.kept := rfl
@[simp] theorem Group.writeS_sq (g : Group) (k : Nat) (x : DWord) (t : Tag) : (g.writeS k x t).sq = g.sq := rfl

@[simp] theorem Group.writeP_role (g : Group) (act : Word) (k : Nat) (val dp fp : Word) : (g.writeP act k val dp fp).role = g.role := rfl
@[simp] theorem Group.writeP_tid (g : Group) (act : Word) (k : Nat) (val dp fp : Word) : (g.writeP act k val dp fp).tid = g.tid := rfl
@[simp] theorem Group.writeP_grpid (g : Group) (act : Word) (k : Nat) (val dp fp : Word) : (g.writeP act k val dp fp).grpid = g.grpid := rfl
@[simp] theorem Group.writeP_gname (g : Group) (act : Word) (k : Nat) (val dp fp : Word) : (g.writeP act k val dp fp).gname = g.gname := rfl
@[simp] theorem Group.writeP_vd (g : Group) (act : Word) (k : Nat) (val dp fp : Word) : (g.writeP act k val dp fp).vd = g.vd := rfl
@[simp] theorem Group.writeP_ngen (g : Group) (act : Word) (k : Nat) (val dp fp : Word) : (g.writeP act k val dp fp).ngen = g.ngen := rfl
@[simp] theorem Group.writeP_ncmp (g : Group) (act : Word) (k : Nat) (val dp fp : Word) : (g.writeP act k val dp fp).ncmp = g.ncmp := rfl
@[simp] theorem Group.writeP_core (g : Group) (act : Word) (k : Nat) (val dp fp : Word) : (g.writeP act k val dp fp).core = g.core := rfl
@[simp] theorem Group.writeP_tcore (g : Group) (act : Word) (k : Nat) (val dp fp : Word) : (g.writeP act k val dp fp).tcore = g.tcore := rfl
@[simp] theorem Group.writeP_quad (g : Group) (act : Word) (k : Nat) (val dp fp : Word) : (g.writeP act k val dp fp).quad = g.quad := rfl
@[simp] theorem Group.writeP_v (g : Group) (act : Word) (k : Nat) (val dp fp : Word) : (g.writeP act k val dp fp).v = g.v := rfl
@[simp] theorem Group.writeP_s (g : Group) (act : Word) (k : Nat) (val dp fp : Word) : (g.writeP act k val dp fp).s = g.s := rfl
@[simp] theorem Group.writeP_pcs (g : Group) (act : Word) (k : Nat) (val dp fp : Word) : (g.writeP act k val dp fp).pcs = g.pcs := rfl
@[simp] theorem Group.writeP_aging (g : Group) (act : Word) (k : Nat) (val dp fp : Word) : (g.writeP act k val dp fp).aging = g.aging := rfl
@[simp] theorem Group.writeP_agingPtr (g : Group) (act : Word) (k : Nat) (val dp fp : Word) : (g.writeP act k val dp fp).agingPtr = g.agingPtr := rfl
@[simp] theorem Group.writeP_yielded (g : Group) (act : Word) (k : Nat) (val dp fp : Word) : (g.writeP act k val dp fp).yielded = g.yielded := rfl
@[simp] theorem Group.writeP_forced (g : Group) (act : Word) (k : Nat) (val dp fp : Word) : (g.writeP act k val dp fp).forced = g.forced := rfl
@[simp] theorem Group.writeP_pi (g : Group) (act : Word) (k : Nat) (val dp fp : Word) : (g.writeP act k val dp fp).pi = g.pi := rfl
@[simp] theorem Group.writeP_tc (g : Group) (act : Word) (k : Nat) (val dp fp : Word) : (g.writeP act k val dp fp).tc = g.tc := rfl
@[simp] theorem Group.writeP_td0 (g : Group) (act : Word) (k : Nat) (val dp fp : Word) : (g.writeP act k val dp fp).td0 = g.td0 := rfl
@[simp] theorem Group.writeP_td1 (g : Group) (act : Word) (k : Nat) (val dp fp : Word) : (g.writeP act k val dp fp).td1 = g.td1 := rfl
@[simp] theorem Group.writeP_td2 (g : Group) (act : Word) (k : Nat) (val dp fp : Word) : (g.writeP act k val dp fp).td2 = g.td2 := rfl
@[simp] theorem Group.writeP_tvec (g : Group) (act : Word) (k : Nat) (val dp fp : Word) : (g.writeP act k val dp fp).tvec = g.tvec := rfl
@[simp] theorem Group.writeP_tarea (g : Group) (act : Word) (k : Nat) (val dp fp : Word) : (g.writeP act k val dp fp).tarea = g.tarea := rfl
@[simp] theorem Group.writeP_spq (g : Group) (act : Word) (k : Nat) (val dp fp : Word) : (g.writeP act k val dp fp).spq = g.spq := rfl
@[simp] theorem Group.writeP_inhdl (g : Group) (act : Word) (k : Nat) (val dp fp : Word) : (g.writeP act k val dp fp).inhdl = g.inhdl := rfl
@[simp] theorem Group.writeP_tdmask (g : Group) (act : Word) (k : Nat) (val dp fp : Word) : (g.writeP act k val dp fp).tdmask = g.tdmask := rfl
@[simp] theorem Group.writeP_regions (g : Group) (act : Word) (k : Nat) (val dp fp : Word) : (g.writeP act k val dp fp).regions = g.regions := rfl
@[simp] theorem Group.writeP_nextRegion (g : Group) (act : Word) (k : Nat) (val dp fp : Word) : (g.writeP act k val dp fp).nextRegion = g.nextRegion := rfl
@[simp] theorem Group.writeP_lcause (g : Group) (act : Word) (k : Nat) (val dp fp : Word) : (g.writeP act k val dp fp).lcause = g.lcause := rfl
@[simp] theorem Group.writeP_unw (g : Group) (act : Word) (k : Nat) (val dp fp : Word) : (g.writeP act k val dp fp).unw = g.unw := rfl
@[simp] theorem Group.writeP_unwcnt (g : Group) (act : Word) (k : Nat) (val dp fp : Word) : (g.writeP act k val dp fp).unwcnt = g.unwcnt := rfl
@[simp] theorem Group.writeP_ibc (g : Group) (act : Word) (k : Nat) (val dp fp : Word) : (g.writeP act k val dp fp).ibc = g.ibc := rfl
@[simp] theorem Group.writeP_send (g : Group) (act : Word) (k : Nat) (val dp fp : Word) : (g.writeP act k val dp fp).send = g.send := rfl
@[simp] theorem Group.writeP_sent (g : Group) (act : Word) (k : Nat) (val dp fp : Word) : (g.writeP act k val dp fp).sent = g.sent := rfl
@[simp] theorem Group.writeP_dftok (g : Group) (act : Word) (k : Nat) (val dp fp : Word) : (g.writeP act k val dp fp).dftok = g.dftok := rfl
@[simp] theorem Group.writeP_slot (g : Group) (act : Word) (k : Nat) (val dp fp : Word) : (g.writeP act k val dp fp).slot = g.slot := rfl
@[simp] theorem Group.writeP_stackEpoch (g : Group) (act : Word) (k : Nat) (val dp fp : Word) : (g.writeP act k val dp fp).stackEpoch = g.stackEpoch := rfl
@[simp] theorem Group.writeP_wait (g : Group) (act : Word) (k : Nat) (val dp fp : Word) : (g.writeP act k val dp fp).wait = g.wait := rfl
@[simp] theorem Group.writeP_part (g : Group) (act : Word) (k : Nat) (val dp fp : Word) : (g.writeP act k val dp fp).part = g.part := rfl
@[simp] theorem Group.writeP_replay (g : Group) (act : Word) (k : Nat) (val dp fp : Word) : (g.writeP act k val dp fp).replay = g.replay := rfl
@[simp] theorem Group.writeP_errs (g : Group) (act : Word) (k : Nat) (val dp fp : Word) : (g.writeP act k val dp fp).errs = g.errs := rfl
@[simp] theorem Group.writeP_naks (g : Group) (act : Word) (k : Nat) (val dp fp : Word) : (g.writeP act k val dp fp).naks = g.naks := rfl
@[simp] theorem Group.writeP_trapping (g : Group) (act : Word) (k : Nat) (val dp fp : Word) : (g.writeP act k val dp fp).trapping = g.trapping := rfl
@[simp] theorem Group.writeP_predDone (g : Group) (act : Word) (k : Nat) (val dp fp : Word) : (g.writeP act k val dp fp).predDone = g.predDone := rfl
@[simp] theorem Group.writeP_smstart (g : Group) (act : Word) (k : Nat) (val dp fp : Word) : (g.writeP act k val dp fp).smstart = g.smstart := rfl
@[simp] theorem Group.writeP_moving (g : Group) (act : Word) (k : Nat) (val dp fp : Word) : (g.writeP act k val dp fp).moving = g.moving := rfl
@[simp] theorem Group.writeP_win (g : Group) (act : Word) (k : Nat) (val dp fp : Word) : (g.writeP act k val dp fp).win = g.win := rfl
@[simp] theorem Group.writeP_winHit (g : Group) (act : Word) (k : Nat) (val dp fp : Word) : (g.writeP act k val dp fp).winHit = g.winHit := rfl
@[simp] theorem Group.writeP_vdirty (g : Group) (act : Word) (k : Nat) (val dp fp : Word) : (g.writeP act k val dp fp).vdirty = g.vdirty := rfl
@[simp] theorem Group.writeP_kept (g : Group) (act : Word) (k : Nat) (val dp fp : Word) : (g.writeP act k val dp fp).kept = g.kept := rfl
@[simp] theorem Group.writeP_sq (g : Group) (act : Word) (k : Nat) (val dp fp : Word) : (g.writeP act k val dp fp).sq = g.sq := rfl

end Sys2Proof.Machine
end

