-- ==== Sys2Proof/Laws/Ops.lean ====
section
/-! SUPPORT. Laws of the shared operations: how an instruction ends, and what it writes. -/
namespace Sys2Proof.Machine

/-! ## Groups -/

@[simp] theorem State.grp_updGrp (s : State) (f : Group → Group) : (s.updGrp f).grp = f s.grp := by simp [State.updGrp, State.setGrp, State.setGroup, State.grp]
theorem State.find_updGrp_ne (s : State) (f : Group → Group) {k : Nat} (h : k ≠ s.iss.key) : mfind (s.updGrp f).groups k = mfind s.groups k := by
  simp [State.updGrp, State.setGrp, State.setGroup, mfind_mset_ne _ _ h]
theorem State.updGrp_rest (s : State) (f : Group → Group) : s.updGrp f = { s with groups := (s.updGrp f).groups } := rfl

@[simp] theorem Group.writeS_sreg_self (g : Group) (k : Nat) (x : DWord) (t : Tag) : (g.writeS k x t).sreg k = ⟨x, t⟩ := by simp [Group.writeS, Group.sreg]
theorem Group.writeS_sreg_ne (g : Group) {j k : Nat} (x : DWord) (t : Tag) (h : j ≠ k) : (g.writeS k x t).sreg j = g.sreg j := by
  simp [Group.writeS, Group.sreg, mget_mset_ne _ _ _ h]
theorem Group.writeV_vreg_ne (g : Group) {j : Nat} (act : Word) (w : DestW) (h : j ≠ w.reg) : (g.writeV act w).vreg j = g.vreg j := by
  simp [Group.writeV, Group.vreg, mget_mset_ne _ _ _ h]
theorem Group.writeP_preg_ne (g : Group) {j k : Nat} (act val dp fp : Word) (h : j ≠ k) : (g.writeP act k val dp fp).preg j = g.preg j := by
  simp [Group.writeP, Group.preg, mget_mset_ne _ _ _ h]

/-! ## Ending an instruction -/

/-- The group after an instruction that sends its lanes to the PCs `f`. -/
def Group.endedAt (i : Issue) (f : Nat → DWord) (g : Group) : Group :=
  if i.replay then g.settled true else (g.settled false).movePcs i.xm fun l => some (f l)
/-- The group after an instruction that finishes. -/
abbrev Group.ended (i : Issue) (g : Group) : Group := g.endedAt i fun _ => i.npc

theorem State.jump_eq (s : State) (f : Nat → DWord) : s.jump f = s.updGrp fun g => g.endedAt s.iss f := by
  unfold State.jump Group.endedAt
  congr 1
  funext g
  cases s.iss.replay <;> rfl
theorem State.finish_eq (s : State) : s.finish = s.updGrp fun g => g.ended s.iss := s.jump_eq _

@[simp] theorem State.updGrp_updGrp (s : State) (f h : Group → Group) : (s.updGrp f).updGrp h = s.updGrp fun g => h (f g) := by
  simp [State.updGrp, State.setGrp, State.setGroup, State.grp]

/-- What an instruction that changes its group by `f` and sends its lanes to `to` has done, where
`f` changes only the registers named. -/
theorem State.ran_endedAt (s : State) (f : Group → Group) (vs ss ps : List Nat) (to' : Nat → DWord)
    (hrest : f s.grp = { s.grp with v := (f s.grp).v, s := (f s.grp).s, p := (f s.grp).p, winHit := (f s.grp).winHit, vdirty := (f s.grp).vdirty })
    (hv : ∀ k, k ∉ vs → (f s.grp).vreg k = s.grp.vreg k) (hs : ∀ k, k ∉ ss → (f s.grp).sreg k = s.grp.sreg k)
    (hp : ∀ k, k ∉ ps → (f s.grp).preg k = s.grp.preg k)
    (hn : vs = [] → (f s.grp).winHit = s.grp.winHit ∧ (f s.grp).vdirty = s.grp.vdirty) :
    s.RanTo (s.updGrp fun g => (f g).endedAt s.iss to') vs ss ps fun l => some (to' l) := by
  refine ⟨State.updGrp_rest _ _, fun k hk => State.find_updGrp_ne _ _ hk, ?_⟩
  rw [State.grp_updGrp]
  generalize f s.grp = h at *
  unfold Group.endedAt
  constructor
  · rw [hrest]; split <;> rfl
  · intro k hk; rw [← hv k hk]; split <;> rfl
  · intro k hk; rw [← hs k hk]; split <;> rfl
  · intro k hk; rw [← hp k hk]; split <;> rfl
  · intro l hl
    have hpcs : h.pcs = s.grp.pcs := by rw [hrest]
    by_cases hr : s.iss.replay
    · simp [hr, Group.settled, hpcs]
    · simp [hr, Group.settled, Group.movePcs, hpcs, hl, List.getD_eq_getElem?_getD]
  · have hrep : h.replay = s.grp.replay := by rw [hrest]
    by_cases hr : s.iss.replay <;> simp [hr, Group.settled, Group.movePcs, hrep]
  · intro hk
    have := hn hk
    by_cases hr : s.iss.replay <;> simpa [hr] using this
/-- The same, where the instruction finishes. -/
theorem State.ran_ended (s : State) (f : Group → Group) (vs ss ps : List Nat)
    (hrest : f s.grp = { s.grp with v := (f s.grp).v, s := (f s.grp).s, p := (f s.grp).p, winHit := (f s.grp).winHit, vdirty := (f s.grp).vdirty })
    (hv : ∀ k, k ∉ vs → (f s.grp).vreg k = s.grp.vreg k) (hs : ∀ k, k ∉ ss → (f s.grp).sreg k = s.grp.sreg k)
    (hp : ∀ k, k ∉ ps → (f s.grp).preg k = s.grp.preg k)
    (hn : vs = [] → (f s.grp).winHit = s.grp.winHit ∧ (f s.grp).vdirty = s.grp.vdirty) :
    s.Ran (s.updGrp fun g => (f g).ended s.iss) vs ss ps := s.ran_endedAt f vs ss ps _ hrest hv hs hp hn
theorem State.updGrp_jump (s : State) (f : Group → Group) (to' : Nat → DWord) :
    (s.updGrp f).jump to' = s.updGrp fun g => (f g).endedAt s.iss to' := by rw [State.jump_eq]; simp
/-- An instruction that only sends its lanes somewhere writes nothing. -/
theorem State.ran_jump (s : State) (vs ss ps : List Nat) (to' : Nat → DWord) : s.RanTo (s.jump to') vs ss ps fun l => some (to' l) := by
  rw [State.jump_eq]
  exact s.ran_endedAt id vs ss ps to' rfl (fun _ _ => rfl) (fun _ _ => rfl) (fun _ _ => rfl) fun _ => ⟨rfl, rfl⟩

theorem State.updGrp_finish (s : State) (f : Group → Group) : (s.updGrp f).finish = s.updGrp fun g => (f g).ended s.iss := by
  rw [State.finish_eq]; simp

/-- An instruction that only finishes writes nothing. -/
theorem State.ran_finish (s : State) (vs ss ps : List Nat) : s.Ran s.finish vs ss ps := by
  rw [State.finish_eq]
  exact s.ran_ended id vs ss ps rfl (fun _ _ => rfl) (fun _ _ => rfl) (fun _ _ => rfl) fun _ => ⟨rfl, rfl⟩

/-- The bytes of memory are those before. -/
theorem State.RanTo.sameBytes {s t : State} {vs ss ps : List Nat} {f : Nat → Option DWord} (h : s.RanTo t vs ss ps f) : s.SameBytes t := by
  rw [h.rest]; constructor <;> intros <;> rfl

end Sys2Proof.Machine
end

