-- ==== Sys2Proof/Laws/Results.lean ====
section
/-! SUPPORT. Laws of results: what the operations that write an s register, a predicate or the vector registers of a result leave. -/
namespace Sys2Proof.Machine

/-! ## Tags -/

theorem tagAt_join (dp dp' fp fp' : Word) (l : Nat) : tagAt (dp ||| dp') (fp ||| fp') l = (tagAt dp fp l).join (tagAt dp' fp' l) := by
  have key : ∀ a b c d : Bool, (if c || d then Tag.pending else if a || b then Tag.poison else Tag.clean) =
      (if c then Tag.pending else if a then Tag.poison else Tag.clean).join (if d then Tag.pending else if b then Tag.poison else Tag.clean) := by decide
  simpa only [tagAt, BitVec.getLsbD_or] using key _ _ _ _
/-- Fault-pending covers data-poison in a lane, so clearing the data-poison under it changes no tag. -/
theorem tagAt_under (dp fp : Word) (l : Nat) : tagAt (dp &&& ~~~fp) fp l = tagAt dp fp l := by
  unfold tagAt
  by_cases hl : l < 32
  · simp only [BitVec.getLsbD_and, BitVec.getLsbD_not, hl, decide_true, Bool.true_and]
    cases fp.getLsbD l <;> simp
  · simp [BitVec.getLsbD_of_ge _ _ (Nat.le_of_not_lt hl)]
theorem tagAt_zero (l : Nat) : tagAt 0 0 l = .clean := by simp [tagAt]
@[simp] theorem Tag.join_clean (t : Tag) : t.join .clean = t := by cases t <;> rfl
@[simp] theorem Tag.clean_join (t : Tag) : Tag.clean.join t = t := by cases t <;> rfl
theorem Tag.join_comm (a b : Tag) : a.join b = b.join a := by cases a <;> cases b <;> rfl
theorem Tag.join_assoc (a b c : Tag) : (a.join b).join c = a.join (b.join c) := by cases a <;> cases b <;> cases c <;> rfl
@[simp] theorem getLsbD_mergeMask (m x y : Word) (l : Nat) : (mergeMask m x y).getLsbD l = if m.getLsbD l then x.getLsbD l else y.getLsbD l := by
  unfold mergeMask
  by_cases hl : l < 32
  · simp only [BitVec.getLsbD_or, BitVec.getLsbD_and, BitVec.getLsbD_not, hl, decide_true, Bool.true_and]
    cases m.getLsbD l <;> simp
  · simp [BitVec.getLsbD_of_ge _ _ (Nat.le_of_not_lt hl)]
theorem tagAt_merge (m dp fp dp' fp' : Word) (l : Nat) :
    tagAt (mergeMask m dp dp' &&& ~~~(mergeMask m fp fp')) (mergeMask m fp fp') l = if m.getLsbD l then tagAt dp fp l else tagAt dp' fp' l := by
  rw [tagAt_under]
  simp only [tagAt, getLsbD_mergeMask]
  split <;> rfl
@[simp] theorem getLsbD_allLanes (b : Bool) {l : Nat} (hl : l < 32) : (allLanes b).getLsbD l = b := by
  cases b
  · simp [allLanes]
  · have : ∀ l < 32, (0xFFFFFFFF : Word).getLsbD l = true := by decide
    simpa [allLanes] using this l hl

/-- With an active lane, an effect that needs one happens. -/
theorem State.ifActive_eq (s : State) (k : State → State) (h : s.iss.act ≠ 0) : s.ifActive k = k s := if_neg h

/-! ## Uniform results -/

theorem State.putS_spec (s : State) (d : Opnd) (x : DWord) (t : Tag) (h : s.iss.act ≠ 0) :
    s.Ran (s.putS d x t) [] [d.reg] [] ∧ (s.putS d x t).grp.sreg d.reg = ⟨x, s.uniTag t⟩ := by
  rw [State.putS, if_neg h, State.updGrp_finish]
  refine ⟨s.ran_ended _ _ _ _ rfl (fun _ _ => rfl) (fun k hk => Group.writeS_sreg_ne _ _ _ (by simpa using hk)) (fun _ _ => rfl) fun _ => ⟨rfl, rfl⟩, ?_⟩
  rw [State.grp_updGrp]
  have : ∀ (i : Issue) (g : Group) (k : Nat), (g.ended i).sreg k = g.sreg k := by intro i g k; unfold Group.ended Group.endedAt; split <;> rfl
  rw [this, Group.writeS_sreg_self]
  rfl
/-- A uniform instruction whose meaning is a `putS` completes so. -/
theorem State.uniOp_putS (s : State) (o : Ops) (x : DWord) (t : Tag) : s.UniOp o x t (.next (s.putS o.d x t)) := fun h =>
  ⟨_, rfl, s.putS_spec o.d x t h⟩

/-! ## Predicates -/

theorem Group.ended_preg (i : Issue) (g : Group) (k : Nat) : (g.ended i).preg k = g.preg k := by unfold Group.ended Group.endedAt; split <;> rfl
theorem Group.ended_vreg (i : Issue) (g : Group) (k : Nat) : (g.ended i).vreg k = g.vreg k := by unfold Group.ended Group.endedAt; split <;> rfl
theorem Group.ended_sreg (i : Issue) (g : Group) (k : Nat) : (g.ended i).sreg k = g.sreg k := by unfold Group.ended Group.endedAt; split <;> rfl

/-- A lane instruction that writes a predicate completes so. -/
theorem State.predOp_putP (s : State) (o : Ops) (val dp fp : Word) :
    s.PredOp o (fun l => val.getLsbD l) (tagAt dp fp) (.next (s.putP o.d val dp fp)) := by
  intro h
  refine ⟨_, rfl, ?_, ?_⟩
  · rw [State.putP, if_neg h, State.updGrp_finish]
    exact s.ran_ended _ _ _ _ rfl (fun _ _ => rfl) (fun _ _ => rfl) (fun k hk => Group.writeP_preg_ne _ _ _ _ _ (by simpa using hk)) fun _ => ⟨rfl, rfl⟩
  · intro l hl
    rw [State.putP, if_neg h, State.updGrp_finish, State.grp_updGrp, Group.ended_preg]
    simp only [Group.writeP, Group.preg, mget_mset_self]
    refine ⟨getLsbD_mergeMask _ _ _ _, ?_⟩
    rw [tagAt_merge]
    split
    · rw [tagAt_under, tagAt_join]; rfl
    · rfl

/-! ## Vector results -/

@[simp] theorem Shape.lane_general (f : Nat → Word) {l : Nat} (hl : l < 32) : (Shape.general ((List.range 32).map f)).lane l = f l := by
  simp only [Shape.lane, List.getD_eq_getElem?_getD]
  rw [List.getElem?_map, List.getElem?_range hl]
  rfl
theorem Group.live_getLsbD (g : Group) {l : Nat} (hl : l < 32) : g.live.getLsbD l = (g.pcs.getD l none).isSome := by
  rw [Group.live, getLsbD_maskOf]; simp only [hl, decide_true, Bool.true_and]
/-- A write of every live lane leaves no live lane inactive. -/
theorem Group.whole_live (g : Group) (act : Word) (h : g.whole act = true) {l : Nat} (hl : g.live.getLsbD l = true) : act.getLsbD l = true := by
  have h0 : g.live &&& ~~~act = 0 := by simpa [Group.whole] using h
  have := congrArg (fun m : Word => m.getLsbD l) h0
  simp only [BitVec.getLsbD_and, BitVec.getLsbD_not, hl] at this
  have h32 : l < 32 := by
    by_contra hc; simp [BitVec.getLsbD_of_ge _ _ (Nat.le_of_not_lt hc)] at hl
  simpa [h32] using this
/-- Lane `l` of the shape a written register takes (R69). -/
theorem Group.destShape_act (g : Group) (act : Word) (w : DestW) {l : Nat} (hl : l < 32) (ha : act.getLsbD l = true) :
    (g.destShape act w).lane l = w.val.lane l := by
  unfold Group.destShape
  split
  · rfl
  · rw [mergeShape, Shape.lane_general _ hl]; simp only [ha, if_true]
theorem Group.destShape_kept (g : Group) (act : Word) (w : DestW) {l : Nat} (hl : l < 32) (ha : act.getLsbD l = false) (hlive : g.live.getLsbD l = true) :
    (g.destShape act w).lane l = (g.vreg w.reg).val.lane l := by
  unfold Group.destShape
  split
  · rename_i h
    have := g.whole_live act (by simp_all) hlive
    simp [this] at ha
  · rw [mergeShape, Shape.lane_general _ hl]; simp only [ha, Bool.false_eq_true, if_false]

/-- What one written register holds afterwards. -/
theorem Group.writeV_holds (g : Group) (act : Word) (w : DestW) {l : Nat} (hl : l < 32) :
    ((g.writeV act w).vreg w.reg).tag l = (if act.getLsbD l then tagAt w.dp w.fp l else (g.vreg w.reg).tag l) ∧
    (g.winOf w.reg = none →
      (act.getLsbD l = true → ((g.writeV act w).vreg w.reg).val.lane l = w.val.lane l) ∧
      (act.getLsbD l = false → g.live.getLsbD l = true → ((g.writeV act w).vreg w.reg).val.lane l = (g.vreg w.reg).val.lane l)) := by
  refine ⟨?_, fun hw => ⟨fun ha => ?_, fun ha hlv => ?_⟩⟩
  · simp only [Group.writeV, Group.vreg, mget_mset_self, VReg.tag, tagAt_merge]
  · simp only [Group.writeV, hw, Group.vreg, mget_mset_self]
    exact g.destShape_act act w hl ha
  · simp only [Group.writeV, hw, Group.vreg, mget_mset_self]
    exact g.destShape_kept act w hl ha hlv

/-- A lane instruction that R65 does not refuse writes its registers and finishes. -/
theorem State.putV_eq (s : State) (pair : Bool) (ws : List DestW) (h : s.iss.act ≠ 0) (hr : ∀ w ∈ ws, s.grp.refused s.iss.act w = false) :
    s.putV pair ws = s.updGrp fun g => (ws.foldl (fun g w => g.writeV s.iss.act w) g).ended s.iss := by
  have hf : s.grp.refusedReg s.iss.act pair ws = none := by
    have : ws.find? (s.grp.refused s.iss.act) = none := List.find?_eq_none.2 fun w hw => by simp [hr w hw]
    simp [Group.refusedReg, this]
  rw [State.putV, if_neg h]
  simp only [hf]
  exact s.updGrp_finish _

theorem Group.writeV_live (g : Group) (act : Word) (w : DestW) : (g.writeV act w).live = g.live := rfl
theorem Group.writeV_winOf (g : Group) (act : Word) (w : DestW) (k : Nat) : (g.writeV act w).winOf k = g.winOf k := rfl
/-- Registers other than those written keep their values. -/
theorem Group.foldWriteV_vreg (act : Word) (ws : List DestW) (g : Group) (k : Nat) (h : ∀ w ∈ ws, w.reg ≠ k) :
    (ws.foldl (fun g w => g.writeV act w) g).vreg k = g.vreg k := by
  induction ws generalizing g with
  | nil => rfl
  | cons w ws ih =>
    rw [List.foldl_cons, ih _ fun x hx => h x (List.mem_cons_of_mem _ hx)]
    exact g.writeV_vreg_ne act w (Ne.symm (h w (by simp)))
theorem Group.foldWriteV_rest (act : Word) (ws : List DestW) (g : Group) :
    let h := ws.foldl (fun g w => g.writeV act w) g
    h = { g with v := h.v, winHit := h.winHit, vdirty := h.vdirty } := by
  induction ws generalizing g with
  | nil => rfl
  | cons w ws ih =>
    simp only [List.foldl_cons]
    rw [ih (g.writeV act w)]
    rfl
theorem Group.foldWriteV_s (act : Word) (ws : List DestW) (g : Group) : (ws.foldl (fun g w => g.writeV act w) g).s = g.s := by
  rw [Group.foldWriteV_rest]
theorem Group.foldWriteV_p (act : Word) (ws : List DestW) (g : Group) : (ws.foldl (fun g w => g.writeV act w) g).p = g.p := by
  rw [Group.foldWriteV_rest]

/-- What a lane instruction that R65 does not refuse has done. -/
theorem State.putV_ran (s : State) (pair : Bool) (ws : List DestW) (h : s.iss.act ≠ 0) (hr : ∀ w ∈ ws, s.grp.refused s.iss.act w = false)
    (hne : ws ≠ []) : s.Ran (s.putV pair ws) (ws.map (·.reg)) [] [] := by
  rw [State.putV_eq s pair ws h hr]
  refine s.ran_ended _ _ _ _ ?_ ?_ ?_ ?_ ?_
  · have := Group.foldWriteV_rest s.iss.act ws s.grp
    simp only at this
    rw [Group.foldWriteV_s, Group.foldWriteV_p]
    exact this
  · intro k hk
    exact Group.foldWriteV_vreg _ _ _ _ fun w hw he => hk (List.mem_map.2 ⟨w, hw, he⟩)
  · intro k _; simp [Group.sreg, Group.foldWriteV_s]
  · intro k _; simp [Group.preg, Group.foldWriteV_p]
  · intro he; exact absurd (List.map_eq_nil_iff.1 he) hne

/-- One destination register. -/
theorem State.putV_one (s : State) (pair : Bool) (w : DestW) (h : s.iss.act ≠ 0) (hr : s.grp.refused s.iss.act w = false) :
    s.Ran (s.putV pair [w]) [w.reg] [] [] ∧ s.HoldsV (s.putV pair [w]) w.reg (fun l => (w.val.lane l).toNat) (fun l => tagAt w.dp w.fp l) := by
  have hr' : ∀ x ∈ [w], s.grp.refused s.iss.act x = false := by simpa using hr
  refine ⟨s.putV_ran pair [w] h hr' (by simp), fun l hl => ?_⟩
  rw [State.putV_eq s pair [w] h hr', State.grp_updGrp, Group.ended_vreg]
  simpa using s.grp.writeV_holds s.iss.act w hl
/-- Two destination registers of a pair. -/
theorem State.putV_two (s : State) (pair : Bool) (w x : DestW) (hd : x.reg = w.reg + 1) (h : s.iss.act ≠ 0) (hr : s.grp.refused s.iss.act w = false)
    (hx : s.grp.refused s.iss.act x = false) :
    s.Ran (s.putV pair [w, x]) [w.reg, x.reg] [] [] ∧
    s.HoldsV (s.putV pair [w, x]) w.reg (fun l => (w.val.lane l).toNat) (fun l => tagAt w.dp w.fp l) ∧
    s.HoldsV (s.putV pair [w, x]) x.reg (fun l => (x.val.lane l).toNat) (fun l => tagAt x.dp x.fp l) := by
  have hr' : ∀ y ∈ [w, x], s.grp.refused s.iss.act y = false := by simp [hr, hx]
  refine ⟨s.putV_ran pair [w, x] h hr' (by simp), fun l hl => ?_, fun l hl => ?_⟩
  · rw [State.putV_eq s pair [w, x] h hr', State.grp_updGrp, Group.ended_vreg]
    have := s.grp.writeV_holds s.iss.act w hl
    simpa [Group.writeV_vreg_ne _ _ x (show w.reg ≠ x.reg by omega)] using this
  · rw [State.putV_eq s pair [w, x] h hr', State.grp_updGrp, Group.ended_vreg]
    have := (s.grp.writeV s.iss.act w).writeV_holds s.iss.act x hl
    simpa [Group.writeV_live, Group.writeV_winOf, Group.writeV_vreg_ne _ _ w (show x.reg ≠ w.reg by omega)] using this

/-- The registers a result of one width or the other is written to. -/
def State.resultWs (s : State) (o : Ops) (is64 : Bool) (sh : Nat → Shape) (dp fp : Word) : List DestW :=
  if is64 then [s.destW o.d 0 (sh 0) dp fp, s.destW o.d 1 (sh 1) dp fp] else [s.destW o.d 0 (sh 0) dp fp]
/-- A write of one register or a pair whose shapes have the lanes of `val` completes so. -/
theorem State.laneDone_putV (s : State) (o : Ops) (is64 : Bool) (sh : Nat → Shape) (val : Nat → Nat) (dp fp : Word) (hact : s.iss.act ≠ 0)
    (hfit : o.d.reg + (if is64 then 2 else 1) ≤ s.grp.ngen ∨ (s.grp.whole s.iss.act = true ∧ ∀ j < (if is64 then 2 else 1), (sh j).isGeneral = false))
    (hlane : ∀ j < (if is64 then 2 else 1), ∀ l < 32, s.iss.act.getLsbD l = true → (sh j).lane l = BitVec.ofNat 32 (val l / 2 ^ (32 * j))) :
    s.LaneDone (s.putV is64 (s.resultWs o is64 sh dp fp)) o.d.reg is64 val (fun l => (tagAt dp fp l).join (s.iss.guardTag l)) := by
  have htag : ∀ (j : Nat) (v : Shape) (l : Nat), tagAt (s.destW o.d j v dp fp).dp (s.destW o.d j v dp fp).fp l = (tagAt dp fp l).join (s.iss.guardTag l) := by
    intro j v l
    simp only [State.destW]
    rw [tagAt_under, tagAt_join]; rfl
  have href : ∀ j, j < (if is64 then 2 else 1) → s.grp.refused s.iss.act (s.destW o.d j (sh j) dp fp) = false := by
    intro j hj
    unfold Group.refused
    rcases hfit with h | ⟨h1, h2⟩
    · have : decide (s.grp.ngen ≤ o.d.reg + j) = false := by simp; omega
      exact Bool.and_eq_false_iff.2 (.inl this)
    · simp [State.destW, h1, h2 j hj]
  have toNat' : ∀ n : Nat, BitVec.ofNat 32 (BitVec.ofNat 32 n).toNat = BitVec.ofNat 32 n := fun n => by rw [BitVec.ofNat_toNat, BitVec.setWidth_eq]
  have hh : ∀ (t : State) (w : DestW) (j : Nat), w = s.destW o.d j (sh j) dp fp → j < (if is64 then 2 else 1) →
      s.HoldsV t w.reg (fun l => (w.val.lane l).toNat) (fun l => tagAt w.dp w.fp l) →
      s.HoldsV t (o.d.reg + j) (fun l => val l / 2 ^ (32 * j)) (fun l => (tagAt dp fp l).join (s.iss.guardTag l)) := by
    intro t w j hw hj h l hl
    subst hw
    have h2 := h l hl
    refine ⟨by simp only [← htag j (sh j)]; exact h2.1, fun hw => ⟨fun ha => ?_, fun ha hlv => (h2.2 hw).2 ha hlv⟩⟩
    refine ((h2.2 hw).1 ha).trans ?_
    have h6 : (s.destW o.d j (sh j) dp fp).val.lane l = BitVec.ofNat 32 (val l / 2 ^ (32 * j)) := hlane j hj l hl ha
    dsimp only
    rw [h6, toNat']
  unfold State.LaneDone State.resultWs
  cases is64 with
  | false =>
    have h1 := s.putV_one false (s.destW o.d 0 (sh 0) dp fp) hact (href 0 (by simp))
    have h2 := hh _ _ 0 rfl (by simp) h1.2
    exact ⟨h1.1, by simpa using h2, by simp⟩
  | true =>
    have h1 := s.putV_two true (s.destW o.d 0 (sh 0) dp fp) (s.destW o.d 1 (sh 1) dp fp) rfl hact (href 0 (by simp)) (href 1 (by simp))
    have h2 := hh _ _ 0 rfl (by simp) h1.2.1
    have h3 := hh _ _ 1 rfl (by simp) h1.2.2
    exact ⟨h1.1, by simpa using h2, fun _ => by simpa using h3⟩
/-- A result given lane by lane, uniform or general (R173 to R175). -/
theorem State.laneDone_putLanes (s : State) (o : Ops) (is64 u : Bool) (val : Nat → Nat) (dp fp : Word) (hact : s.iss.act ≠ 0)
    (hfit : o.d.reg + (if is64 then 2 else 1) ≤ s.grp.ngen ∨ (s.grp.whole s.iss.act = true ∧ u = true))
    (hu : u = true → ∀ l < 32, s.iss.act.getLsbD l = true → val l = val 0) :
    s.LaneDone (s.putLanes o is64 u val dp fp) o.d.reg is64 val (fun l => (tagAt dp fp l).join (s.iss.guardTag l)) := by
  have h := s.laneDone_putV o is64
    (fun k => if u then .uniform (BitVec.ofNat 32 (val 0 / 2 ^ (32 * k))) else .general ((List.range 32).map fun l => BitVec.ofNat 32 (val l / 2 ^ (32 * k))))
    val dp fp hact (hfit.imp id fun h => ⟨h.1, fun j _ => by rw [h.2]; rfl⟩) fun j _ l hl ha => by
      by_cases h : u = true
      · simp only [h, if_true, Shape.lane, hu h l hl ha]
      · simp only [h, Bool.false_eq_true, if_false]; exact Shape.lane_general _ hl
  cases is64 <;> exact h

/-! ## Results computed lane by lane (R68) -/

/-- The lanes of a result's shape are the operation on the sources' lanes. -/
def ShapeRight (c : ShapeClass) (los : List Shape) (f : List Nat → Nat) : Prop :=
  ∀ l < 32, (resultShape c los f).lane l = BitVec.ofNat 32 (f (los.map fun x => (x.lane l).toNat))

theorem Shape.isUniform_lane {x : Shape} (h : x.isUniform = true) (l m : Nat) : x.lane l = x.lane m := by
  cases x <;> simp_all [Shape.isUniform, Shape.lane]
theorem map_lane_uniform {los : List Shape} (h : los.all Shape.isUniform = true) (l : Nat) :
    (los.map fun x => (x.lane 0).toNat) = los.map fun x => (x.lane l).toNat := by
  apply List.map_congr_left
  intro x hx
  rw [Shape.isUniform_lane (List.all_eq_true.1 h x hx) 0 l]

theorem resultShape_uniform {c : ShapeClass} {los : List Shape} (f : List Nat → Nat) (hc : c ≠ .general) (h : los.all Shape.isUniform = true) :
    resultShape c los f = .uniform (BitVec.ofNat 32 (f (los.map fun x => (x.lane 0).toNat))) := by
  cases c <;> simp_all [resultShape]
theorem shapeRight_general (los : List Shape) (f : List Nat → Nat) : ShapeRight .general los f := by
  intro l hl
  simp only [resultShape]
  rw [Shape.lane_general _ hl]
theorem shapeRight_uniform {c : ShapeClass} {los : List Shape} (f : List Nat → Nat) (hc : c ≠ .general) (h : los.all Shape.isUniform = true) :
    ShapeRight c los f := by
  intro l _
  rw [resultShape_uniform f hc h, map_lane_uniform h l]
  rfl
theorem shapeRight_other (los : List Shape) (f : List Nat → Nat) : ShapeRight .other los f := by
  by_cases h : los.all Shape.isUniform
  · exact shapeRight_uniform f (by simp) h
  · intro l hl
    simp only [resultShape, h]
    exact Shape.lane_general _ hl

/-- Shapes that are not general are base plus lane times stride. -/
theorem Shape.lane_eq {x : Shape} (h : x.isGeneral = false) (l : Nat) : x.lane l = x.base + BitVec.ofNat 32 l * x.stride := by
  cases x <;> simp_all [Shape.isGeneral, Shape.lane, Shape.base, Shape.stride]
/-- The additive class is right for an operation that commutes with base and stride. -/
theorem shapeRight_additive (los : List Shape) (f : List Nat → Nat)
    (hf : los.any Shape.isGeneral = false → ∀ l < 32, BitVec.ofNat 32 (f (los.map fun x => (x.base + BitVec.ofNat 32 l * x.stride).toNat)) =
      BitVec.ofNat 32 (f (los.map fun x => x.base.toNat)) + BitVec.ofNat 32 l * BitVec.ofNat 32 (f (los.map fun x => x.stride.toNat))) :
    ShapeRight .additive los f := by
  by_cases h : los.all Shape.isUniform
  · exact shapeRight_uniform f (by simp) h
  · intro l hl
    simp only [resultShape, h]
    by_cases hg : los.any Shape.isGeneral
    · simp only [hg]; exact Shape.lane_general _ hl
    · simp only [hg]
      have hg' : los.any Shape.isGeneral = false := by simpa using hg
      have := hf hg' l hl
      simp only [Bool.false_eq_true, if_false]
      rw [Shape.lane, ← this]
      congr 2
      apply List.map_congr_left
      intro x hx
      have : x.isGeneral = false := by
        have := List.any_eq_false.1 hg' x hx; simpa using this
      rw [Shape.lane_eq this]

theorem WSrc.at_uniform {x : WSrc} (h : x.uniform = true) (l m : Nat) : x.at l = x.at m := by
  simp only [WSrc.uniform, Bool.and_eq_true, Bool.or_eq_true, Bool.not_eq_true'] at h
  unfold WSrc.at Src.at Src.d Src.w
  rw [Shape.isUniform_lane h.1 l m]
  rcases h.2 with h64 | h64
  · simp [h64]
  · rw [Shape.isUniform_lane h64 l m]
/-- A lane instruction that computes `f` lane by lane completes as `LaneOp` says. -/
theorem State.laneOp_vecOp (s : State) (o : Ops) (c : ShapeClass) (d64 : Bool) (xs : List WSrc) (f : List Nat → Nat)
    (hd : d64 = false → (∀ x ∈ xs, x.is64 = false) → ShapeRight c (xs.map fun x => x.src.lo) f) (hc : c ≠ .general) :
    s.LaneOp o d64 xs f (.next (s.vecOp o c d64 xs f)) := by
  intro hact hfit
  have hdp : ∀ l, tagAt (joinDp xs ||| s.iss.gdp) (joinFp xs ||| s.iss.gfp) l = joinTags s.iss xs l := by
    intro l
    have hfold : ∀ (ys : List WSrc) (a b : Word) (t : Tag), tagAt (a ||| s.iss.gdp) (b ||| s.iss.gfp) l = t →
        tagAt (ys.foldl (fun m x => m ||| x.src.dp) a ||| s.iss.gdp) (ys.foldl (fun m x => m ||| x.src.fp) b ||| s.iss.gfp) l =
          ys.foldl (fun t x => t.join (x.src.tag l)) t := by
      intro ys
      induction ys with
      | nil => intro a b t h; simpa using h
      | cons y ys ih =>
        intro a b t h
        simp only [List.foldl_cons]
        apply ih
        rw [tagAt_join, tagAt_join, Tag.join_assoc, Tag.join_comm (tagAt y.src.dp y.src.fp l), ← Tag.join_assoc, ← tagAt_join, h]
        rfl
    exact hfold xs 0 0 _ (by simp [Issue.guardTag])
  have htag : ∀ (j : Nat) (v : Shape) (l : Nat), tagAt (s.destW o.d j v (joinDp xs) (joinFp xs)).dp (s.destW o.d j v (joinDp xs) (joinFp xs)).fp l = joinTags s.iss xs l := by
    intro j v l
    simp only [State.destW]
    rw [tagAt_under, hdp]
  -- whether the write is refused
  have href : ∀ (j : Nat) (v : Shape), j < (if d64 then 2 else 1) → ((∀ x ∈ xs, x.uniform = true) → v.isGeneral = false) →
      s.grp.refused s.iss.act (s.destW o.d j v (joinDp xs) (joinFp xs)) = false := by
    intro j v hj hv
    unfold Group.refused
    rcases hfit with h | ⟨h1, h2⟩
    · have : decide (s.grp.ngen ≤ o.d.reg + j) = false := by simp; omega
      exact Bool.and_eq_false_iff.2 (.inl this)
    · simp [State.destW, h1, hv h2]
  have hone : ∀ (k : Nat) (v : Shape), v = (if xs.all WSrc.uniform then Shape.uniform (BitVec.ofNat 32 (f (xs.map fun x => x.at 0) / 2 ^ (32 * k)))
        else .general ((List.range 32).map fun l => BitVec.ofNat 32 (f (xs.map fun x => x.at l) / 2 ^ (32 * k)))) →
      ((∀ x ∈ xs, x.uniform = true) → v.isGeneral = false) ∧
      ∀ l < 32, v.lane l = BitVec.ofNat 32 (f (xs.map fun x => x.at l) / 2 ^ (32 * k)) := by
    intro k v hv
    by_cases hu : xs.all WSrc.uniform
    · rw [if_pos hu] at hv
      subst hv
      refine ⟨fun _ => rfl, fun l _ => ?_⟩
      have : (xs.map fun x => x.at 0) = xs.map fun x => x.at l := List.map_congr_left fun x hx => WSrc.at_uniform (List.all_eq_true.1 hu x hx) 0 l
      rw [Shape.lane, this]
    · rw [if_neg hu] at hv
      subst hv
      exact ⟨fun h => absurd (List.all_eq_true.2 h) hu, fun l hl => Shape.lane_general _ hl⟩
  have toNat' : ∀ n : Nat, BitVec.ofNat 32 (BitVec.ofNat 32 n).toNat = BitVec.ofNat 32 n := fun n => by rw [BitVec.ofNat_toNat, BitVec.setWidth_eq]
  refine ⟨_, rfl, ?_⟩
  unfold State.LaneDone State.vecOp vecShapes
  by_cases h32 : (!d64 && xs.all fun x => !x.is64) = true
  · rw [if_pos h32]
    simp only [Bool.and_eq_true, Bool.not_eq_true'] at h32
    obtain ⟨rfl, hx⟩ := h32
    have hx' : ∀ x ∈ xs, x.is64 = false := fun x hm => by simpa using List.all_eq_true.1 hx x hm
    have hval := hd rfl hx'
    have hng : (∀ x ∈ xs, x.uniform = true) → (resultShape c (xs.map fun x => x.src.lo) f).isGeneral = false := by
      intro hu
      rw [resultShape_uniform f hc]
      · rfl
      · rw [List.all_map, List.all_eq_true]
        intro x hm
        have := hu x hm
        simp only [WSrc.uniform, Bool.and_eq_true] at this
        exact this.1
    have h1 := s.putV_one false (s.destW o.d 0 (resultShape c (xs.map fun x => x.src.lo) f) (joinDp xs) (joinFp xs)) hact (href 0 _ (by simp) hng)
    refine ⟨h1.1, fun l hl => ?_, by simp⟩
    have h2 := h1.2 l hl
    refine ⟨by rw [← htag 0 (resultShape c (xs.map fun x => x.src.lo) f)]; exact h2.1, fun hw => ⟨fun ha => ?_, fun ha hlv => (h2.2 hw).2 ha hlv⟩⟩
    have h3 := (h2.2 hw).1 ha
    have h4 : (List.map (fun x => (x.lane l).toNat) (xs.map fun x => x.src.lo)) = xs.map fun x => x.at l := by
      rw [List.map_map]
      apply List.map_congr_left
      intro x hm
      simp [WSrc.at, Src.at, Src.w, hx' x hm]
    have h5 := hval l hl
    rw [h4] at h5
    have h6 : (s.destW o.d 0 (resultShape c (xs.map fun x => x.src.lo) f) (joinDp xs) (joinFp xs)).val.lane l = BitVec.ofNat 32 (f (xs.map fun x => x.at l)) := h5
    simp only [h6, toNat'] at h3
    exact h3
  · rw [if_neg h32]
    have g0 := hone 0 _ rfl
    have g1 := hone 1 _ rfl
    cases d64 with
    | false =>
      have h1 := s.putV_one false (s.destW o.d 0 _ (joinDp xs) (joinFp xs)) hact (href 0 _ (by simp) g0.1)
      refine ⟨h1.1, fun l hl => ?_, by simp⟩
      have h2 := h1.2 l hl
      refine ⟨by rw [← htag 0 _]; exact h2.1, fun hw => ⟨fun ha => ?_, fun ha hlv => (h2.2 hw).2 ha hlv⟩⟩
      have h3 := (h2.2 hw).1 ha
      have h6 := g0.2 l hl
      simp only [Nat.mul_zero, pow_zero, Nat.div_one] at h6
      refine Eq.trans h3 ?_
      simp only [State.destW]
      rw [← h6]
      simp
    | true =>
      have h1 := s.putV_two true (s.destW o.d 0 _ (joinDp xs) (joinFp xs)) (s.destW o.d 1 _ (joinDp xs) (joinFp xs)) rfl hact
        (href 0 _ (by simp) g0.1) (href 1 _ (by simp) g1.1)
      refine ⟨h1.1, fun l hl => ?_, fun _ l hl => ?_⟩
      · have h2 := h1.2.1 l hl
        refine ⟨by rw [← htag 0 _]; exact h2.1, fun hw => ⟨fun ha => ?_, fun ha hlv => (h2.2 hw).2 ha hlv⟩⟩
        have h3 := (h2.2 hw).1 ha
        have h6 := g0.2 l hl
        simp only [Nat.mul_zero, pow_zero, Nat.div_one] at h6
        refine Eq.trans h3 ?_
        simp only [State.destW]
        rw [← h6]
        simp
      · have h2 := h1.2.2 l hl
        refine ⟨by rw [← htag 1 _]; exact h2.1, fun hw => ⟨fun ha => ?_, fun ha hlv => (h2.2 hw).2 ha hlv⟩⟩
        have h3 := (h2.2 hw).1 ha
        have h6 := g1.2 l hl
        simp only [Nat.mul_one] at h6
        refine Eq.trans h3 ?_
        simp only [State.destW]
        rw [← h6]
        simp

end Sys2Proof.Machine
end

