-- ==== Sys2Proof/Laws/Save.lean ====
section
/-! SUPPORT. Save: a save that the device has written passes the check of its restore (R345, R348); what bringing the heads and the saved teams up to date changes (R352, R376). -/
namespace Sys2Proof.Machine

/-- Clearing poison that is not there changes nothing. -/
theorem poisonApply_nil (w : QStore) (h : w.poison = []) : poisonApply [] w = [] := by
  unfold poisonApply
  rw [h]
  show w.clear.foldl sdel [] = []
  generalize w.clear = l
  induction l with
  | nil => rfl
  | cons a l ih => simpa [sdel] using ih
/-- A save does not depend on what the cistern or the L2 hold. -/
theorem State.groupImage_cistern (s : State) (a : Mem) (b e : List Nat) (c : List L2Copy) (d : AMap Bool) (f : List (Nat × Option Nat)) (k : Nat) (g : Group) :
    ({ s with mem := { s.mem with hbm := a, hbmPoison := b, damaged := e, l2 := c, scrubRead := d, found := f } } : State).groupImage k g = s.groupImage k g := by
  unfold State.groupImage State.outstanding; rfl
theorem State.coreImage_cistern (s : State) (a : Mem) (b e : List Nat) (c : List L2Copy) (d : AMap Bool) (f : List (Nat × Option Nat)) (k : Nat) (t : Team) (n : Nat) :
    ({ s with mem := { s.mem with hbm := a, hbmPoison := b, damaged := e, l2 := c, scrubRead := d, found := f } } : State).coreImage k t n = s.coreImage k t n := by
  unfold State.coreImage State.scratchByte State.tileByte State.sideByte State.pb; rfl
theorem State.saveBytes_cistern (s : State) (a : Mem) (b e : List Nat) (c : List L2Copy) (d : AMap Bool) (f : List (Nat × Option Nat)) (k : Nat) :
    ({ s with mem := { s.mem with hbm := a, hbmPoison := b, damaged := e, l2 := c, scrubRead := d, found := f } } : State).saveBytes k = s.saveBytes k := by
  unfold State.saveBytes; simp only [State.groupImage_cistern, State.coreImage_cistern]
/-- A save that the device has written at its place, of the VD's current incarnation, passes the check. -/
theorem State.sealHolds_writeSave (s : State) (tid : Nat) (v : SaveInfo) (h : (mget {} s.teams tid).saved = some v) (hs : v.sealOk = true)
    (hi : ((mget {} s.teams tid).vdInc == (s.vd (mget {} s.teams tid).vd).inc) = true) (hp : s.mem.hbmPoison = []) (hd : s.mem.damaged = [])
    (hn : (s.saveBytes tid).length ≤ v.bytes) : (s.writeSave tid).sealHolds tid = true := by
  obtain ⟨w, hw⟩ : ∃ w, QStore.plain { space := .hbm, addr := v.addr } (mget {} s.teams tid).vd (s.saveBytes tid) false = w := ⟨_, rfl⟩
  have ha : v.cap.admits v.addr (s.saveBytes tid).length 1 4 = true := by simp [Cap.admits, SaveInfo.cap, hn]
  have e : s.writeSave tid = s.cisternPut w := by unfold State.writeSave; simp only [h, ha, if_true, hw]
  have hb : w.bytes = bytesAt v.addr (s.saveBytes tid) := by rw [← hw]; rfl
  have hq : w.poison = [] := by rw [← hw]; rfl
  have eb : (s.writeSave tid).saveBytes tid = s.saveBytes tid := by
    obtain ⟨a, b, g, c, d, f, h⟩ : ∃ a b g c d f, s.writeSave tid =
        { s with mem := { s.mem with hbm := a, hbmPoison := b, damaged := g, l2 := c, scrubRead := d, found := f } } := by rw [e]; exact ⟨_, _, _, _, _, _, rfl⟩
    rw [h, State.saveBytes_cistern]
  have ep : (s.writeSave tid).mem.hbmPoison = [] := by
    rw [e]
    show (s.mem.damaged.filter fun c => w.written.contains c && !w.clear.contains c).foldl sins (poisonApply s.mem.hbmPoison w) = []
    rw [hp, hd, poisonApply_nil w hq]; rfl
  have ed : (s.writeSave tid).mem.damaged = [] := by
    rw [e]
    show s.mem.damaged.filter _ = []
    rw [hd]; rfl
  have em : (s.writeSave tid).mem.hbm = Mem.writeAll s.mem.hbm (bytesAt v.addr (s.saveBytes tid)) := by
    rw [e, ← hb]; rfl
  have et : mget {} (s.writeSave tid).teams tid = mget {} s.teams tid := by rw [e]; rfl
  have ev : ∀ k, (s.writeSave tid).vd k = s.vd k := by rw [e]; intro k; rfl
  unfold State.sealHolds
  simp only [et, h, eb, ev]
  simp only [hs, hi, Bool.true_and, Bool.and_eq_true, Bool.not_eq_true', List.any_eq_false, List.all_eq_true, beq_iff_eq]
  refine ⟨fun c _ => by unfold MemSys.cisternPoison; rw [ep, ed]; exact Bool.false_ne_true, fun x hx => ?_⟩
  have hl := List.snd_lt_of_mem_zipIdx hx
  unfold State.hbmByte
  rw [em, Mem.read_writeAll_bytesAt _ _ _ (by simpa using hl)]
  have := List.mk_mem_zipIdx_iff_getElem?.1 (show (x.1, x.2) ∈ _ from hx)
  rw [this, Option.getD_some]
/-- Bringing the heads up to date changes the VDs alone (R376). -/
theorem State.refreshBand_eq (s : State) (b : Nat) : s.refreshBand b = { s with vds := (s.refreshBand b).vds } := rfl
theorem State.refreshHeads_eq (s : State) : s.refreshHeads = { s with vds := s.refreshHeads.vds } := by
  unfold State.refreshHeads
  generalize List.range 4 = l
  induction l generalizing s with
  | nil => rfl
  | cons b l ih =>
    rw [List.foldl_cons, ih (s.refreshBand b)]
    rfl
theorem State.refreshHeads_id (s : State) (h : s.refreshHeads.vds = s.vds) : s.refreshHeads = s := by rw [State.refreshHeads_eq, h]
/-- Reviewing the saved teams changes nothing where the one saved team is placeable and was (R352). -/
theorem State.reviewSaved_eq (s : State) (k : Nat) (t : Team) (v : SaveInfo) (h : s.teams = [(k, t)]) (hv : t.saved = some v) (hu : v.unplaceable = false)
    (hc : s.couldHold t.vd (s.needOf t.vd (.saved k)) ≠ []) : s.reviewSaved = s := by
  unfold State.reviewSaved
  rw [h]
  have : (s.couldHold t.vd (s.needOf t.vd (.saved k))).isEmpty = false := by simpa using hc
  obtain ⟨a, b, c, d, e, f⟩ := v
  simp only at hu
  subst hu
  simp only [List.filter, hv, Option.isSome_some, List.foldl_cons, List.foldl_nil, this, Bool.false_and, Bool.false_eq_true, if_false]
  unfold State.updTeam
  rw [h]
  have e1 : mfind [(k, t)] k = some t := by simp [mfind]
  rw [e1]
  have e2 : ({ t with saved := some ⟨a, b, c, d, false, f⟩ } : Team) = t := by
    rw [← hv]
  simp only [e2]
  have e3 : mset [(k, t)] k t = [(k, t)] := by simp [mset]
  rw [e3, ← h]

/-- A save is never of fewer than 8 bytes, and a pool with less room takes none (R419). -/
theorem State.saveSpot_none (s : State) (tid : Nat) (h : s.saveRoom (mget {} s.teams tid).vd < 8) : s.saveSpot tid = none := by
  have hl : 8 ≤ (s.saveBytes tid).length := by
    unfold State.saveBytes
    simp only [List.length_append, leBytes_length]
    omega
  exact if_neg (by omega)
end Sys2Proof.Machine
end

