-- ==== Sys2Proof/Laws/Sync.lean ====
section
/-! SUPPORT. Laws of the operations that consume operands, and of the checks that starve a team. -/
namespace Sys2Proof.Machine

/-! ## Operands without tags -/

theorem Consumed.clean {x : Consumed} (h : (x.dp ||| x.fp) &&& x.lanes = 0) : x.fp &&& x.lanes = 0 ∧ x.dp &&& x.lanes = 0 := by
  constructor <;>
  · ext i hi
    have := congrArg (fun b => b.getLsbD i) h
    simp at this ⊢; grind
theorem find_tagged {f : Consumed → Word} {xs : List Consumed} (h : ∀ x ∈ xs, f x &&& x.lanes = 0) :
    xs.find? (fun x => f x &&& x.lanes != 0) = none := by
  rw [List.find?_eq_none]; intro x hx; simp [h x hx]
/-- Operands that bear no tag in the lanes that consume them consume nothing. -/
theorem State.consume_clean {s : State} {c a : Nat} {xs : List Consumed} {k : State → State}
    (h : ∀ x ∈ xs, (x.dp ||| x.fp) &&& x.lanes = 0) : s.consume c a xs k = k s := by
  unfold State.consume
  rw [find_tagged fun x hx => (Consumed.clean (h x hx)).1]
  simp only []
  rw [find_tagged fun x hx => (Consumed.clean (h x hx)).2]
theorem State.consumeAny_clean {s : State} {c a : Nat} {xs : List Consumed} {k : State → State}
    (h : ∀ x ∈ xs, (x.dp ||| x.fp) &&& x.lanes = 0) : s.consumeAny c a xs k = k s := by
  unfold State.consumeAny
  split
  · rw [find_tagged fun x hx => (Consumed.clean (h x hx)).1]
    simp only []
    rw [find_tagged fun x hx => (Consumed.clean (h x hx)).2]
  · exact State.consume_clean h
/-- A clean guard is a consumed operand without tags. -/
theorem State.guardConsumed_clean {s : State} {g : Option Guard} (h : s.GuardClean g) : ∀ x ∈ s.guardConsumed g, (x.dp ||| x.fp) &&& x.lanes = 0 := by
  intro x hx
  cases g with
  | none => simp [State.guardConsumed] at hx
  | some gd =>
    simp [State.guardConsumed] at hx; subst hx
    exact h rfl

/-! ## A team that nothing starves (R49, R50) -/

theorem State.checkQuiet_awake {s : State} {tid : Nat} (h : s.Awake tid) : s.checkQuiet tid = s := by
  obtain ⟨⟨e, he, ht⟩, h⟩ := h
  unfold State.checkQuiet
  simp only []
  rw [if_neg]
  simp only [Bool.and_eq_true, not_and]
  intro ha
  have := (List.all_eq_true.1 ha.2) e (by simp [he, ht])
  have hn := (h e he ht).1
  simp [Group.blocked, hn.1, hn.2] at this
theorem State.checkStarved_awake {s : State} {tid : Nat} (b : Nat) (h : s.Awake tid) : s.checkStarved tid b = s := by
  obtain ⟨_, h⟩ := h
  unfold State.checkStarved
  simp only []
  rw [if_neg]
  simp only [Bool.and_eq_true, not_and]
  intro hx hk
  obtain ⟨k, hm⟩ : ∃ k, k ∈ s.liveParties tid ((mget {} s.teams tid).bar b).mask := by
    cases hl : s.liveParties tid ((mget {} s.teams tid).bar b).mask with
    | nil => rw [hl] at hx; exact absurd hx.2 (by decide)
    | cons k _ => exact ⟨k, by simp⟩
  have hw := List.all_eq_true.1 hk k hm
  simp only [State.liveParties, List.mem_map, List.mem_filter] at hm
  obtain ⟨e, ⟨he, ht⟩, rfl⟩ := hm
  have hn := (h e he (by simp at ht; exact ht.1)).2
  rw [decide_eq_false hn.1] at hw
  simp at hw
/-- Where no group of the team waits on a barrier or a runnel, the checks after an event change nothing. -/
theorem State.checkTeam_awake {s : State} {tid : Nat} (h : s.Awake tid) : s.checkTeam tid = s := by
  have : ∀ bs : List Nat, bs.foldl (fun s b => s.checkStarved tid b) s = s := by
    intro bs
    induction bs with
    | nil => rfl
    | cons b bs ih => simp only [List.foldl_cons, State.checkStarved_awake b h, ih]
  unfold State.checkTeam
  rw [this, State.checkQuiet_awake h]
theorem State.teamOver_awake {s : State} {tid : Nat} (h : s.Awake tid) : s.teamOver tid = s := by
  unfold State.teamOver
  rw [if_neg, State.checkTeam_awake h]
  obtain ⟨⟨e, he, ht⟩, _⟩ := h
  simp only [State.keysOf, List.isEmpty_iff, List.map_eq_nil_iff, List.filter_eq_nil_iff]
  exact fun hc => hc e he (by simp [ht])

end Sys2Proof.Machine
end

