-- ==== Sys2Proof/Tests/Slice0.lean ====
section
/-! SUPPORT. Slice0: the author's own tests: words decode as the layouts say, ill-formed terms and words are refused, single steps give the spec's values, and a witness for every statement that has hypotheses. -/
namespace Sys2Proof.Tests
set_option Elab.async false
open Sys2Proof.Machine

/-! ## A small machine -/

/-- Operands of a three-operand layout, all v0. -/
def z : Ops := { fmt := .f64, g := none, d := .v 0, a := .v 0, b := .v 0, c := .v 0, pa := .none, pb := .none, pc := .none, imm := 0 }
/-- The same, encoded in 96 bits or with an immediate. -/
def z9 : Ops := { z with fmt := .f96 }
def zi : Ops := { z with fmt := .f128i }
def all : Word := 0xFFFFFFFF
/-- A general group: v4 = 10 + 3l, v6 = 100 + l, v8 a float, v10 and v11 a pair of code addresses of which
lane 5's is misaligned; s3, s4, s8 and s9; p1 = lanes 0 to 15. -/
def g1 : Group := {
  tid := 0, grpid := 1, gname := 0x1234, core := 0, ngen := 64, ncmp := 8, pcs := List.replicate 32 (some 0x100),
  v := [(4, ⟨.affine 10 3, 0, 0⟩), (6, ⟨.general ((List.range 32).map fun l => BitVec.ofNat 32 (100 + l)), 0, 0⟩), (8, ⟨.uniform 0x3F800800, 0, 0⟩),
        (10, ⟨.general ((List.range 32).map fun l => BitVec.ofNat 32 (0x400 + 16 * l + if l = 5 then 2 else 0)), 0, 0⟩)],
  s := [(3, ⟨7, .clean⟩), (4, ⟨0x123456789ABCDEF0, .clean⟩), (8, ⟨0x400, .clean⟩), (9, ⟨0x3FFC, .clean⟩)],
  p := [(1, ⟨0xFFFF, 0, 0⟩)] }
def t1 : Team := { cores := [0], scratch := 65536, tile := 524288 }
/-- A cached translation of the first 2 MiB of VD 0's address space 0 to local HBM at 16 MiB. -/
def e1 : TlbEntry := { die := 0, core := some 0, vd := 0, asid := 0, hgen := 0, ggen := 0, va := 0, size := 0x200000, pa := 0x1000000, gpa := 0, gsize := 0x200000,
                       hsize := 0x200000, home := 0, gperm := 31, hperm := 31, dc := true, fmt := 0, dirty := true, leaf := 0 }
/-- A machine with that group alone, which issues the instruction at 0x100 in the lanes `act`. -/
def st (g : Group) (act : Word := all) : State := {
  State.reset with
  teams := [(0, t1)], groups := [(1, g)], vds := [(0, { st := .active, resident := true })], tlb := [e1]
  iss := { key := 1, pc := 0x100, npc := 0x108, xm := all, act := act, pend := all } }
def s0 : State := st g1
/-- A lane of a vector register, an s register, a predicate, and the PC of a lane, after a step. -/
def lane (r : Out) (d l : Nat) : Option Word := match r with | .next t => some ((t.grp.vreg d).val.lane l) | _ => none
def sval (r : Out) (d : Nat) : Option DWord := match r with | .next t => some (t.grp.sreg d).val | _ => none
def pval (r : Out) (d : Nat) : Option Word := match r with | .next t => some (t.grp.preg d).val | _ => none
def pcOf (r : Out) (l : Nat) : Option DWord := match r with | .next t => t.grp.pcs.getD l none | _ => none
def grpOf (r : Out) (k : Nat := 1) : Option Group := match r with | .next t => mfind t.groups k | _ => none
def got {α : Type} (r : Out) (f : State → α) : Option α := match r with | .next t => some (f t) | _ => none

/-! ## Words packed by hand from the layouts, decoded and encoded -/

/-- A word of `n` bytes decodes to the instruction, by either entry, and is its encoding. -/
def reads (e : Nat × Instr × Nat) : Bool := decode e.1 == .ok e.2.1 e.2.2 && decodeTableWord (8 * e.2.2) e.1 == some e.2.1 && encodeBits e.2.1 == e.1
def words_control : List (Nat × Instr × Nat) :=
  [(0x0000000000000000, .nop, 8),
   (0x000000000000004000000020050B3806, .bra .nz ⟨some ⟨3, true⟩, .s 5, .v 0, 0x40, 0x0⟩, 16),
   (0x00000000FFFFFFC0000008943008280A, .brc .s32 .lt ⟨some ⟨2, false⟩, .v 4, .s 6, 0xffffffc0, 0x0⟩, 16),
   (0x000000003000000C, .brx { z with a := .v 6 }, 8),
   (0x00000000000002000000000000100012, .call ⟨none, .v 8, .v 0, 0x200, 0x0⟩, 16),
   (0x0000001448000014, .ret { z with a := .s 9 }, 8),
   (0x000000000000F818, .exit { z with g := some ⟨15, false⟩ }, 8),
   (0x000000000000001C, .yield z, 8),
   (0x11223344556677880000000000000022, .trap { z with fmt := .f128i, imm := 0x1122334455667788 }, 16),
   (0x0000000000000024, .rtt z, 8),
   (0x091A000000000028, .bkpt 0x1234 z, 8),
   (0x000000144512002C, .waitfault { z with d := .s 9, a := .s 8 }, 8),
   (0x22800005000001000002010000000032, .cropen 0x1008 ⟨none, .v 0, .v 0, 0x100, 0x22800005⟩, 16),
   (0x0000000000000034, .crclose z, 8),
   (0x0000800005060038, .crstat true { z with d := .s 3 }, 8),
   (0x000050B44508003C, .spawn { z with d := .s 4, a := .s 8, b := .s 5 }, 8),
   (0x00000014A0000040, .join { z with a := .s 20 }, 8),
   (0x0000000000000044, .smstart z, 8),
   (0x0000000000000048, .waitpred z, 8)]
def words_sync : List (Nat × Instr × Nat) :=
  [(0x008A80142000004C, .barinit 5 0x11 { z with a := .s 4 }, 8),
   (0x0004800000000050, .bara 9 z, 8),
   (0x0005000000000054, .barw 10 z, 8),
   (0x0005800000000058, .bars 11 z, 8),
   (0x003700142000005C, .rninit 6 13 { z with a := .s 4 }, 8),
   (0x0005801420000060, .rnpost 3 true { z with a := .s 4 }, 8),
   (0x0002001680000064, .rnwait 4 false { z with a := .zero }, 8),
   (0x00000000000007D0000000000000006A, .sleepc { z with fmt := .f128i, imm := 0x7d0 }, 16),
   (0x00918000050A01C0, .csrrd 0x123 { z with d := .s 5 }, 8),
   (0x07F68014300001C4, .csrwr 0xfed { z with a := .s 6 }, 8)]
def words_uniform : List (Nat × Instr × Nat) :=
  [(0x000000144D060080, .smov { z with d := .s 3, a := .s 9 }, 8),
   (0xFEDCBA98765432100000000005060086, .sli { z with fmt := .f128i, d := .s 3, imm := 0xfedcba9876543210 }, 16),
   (0x0000000089ABCDEF000000000506008A, .slih { z with fmt := .f128i, d := .s 3, imm := 0x89abcdef }, 16),
   (0x0004DA142506008C, .sadd .z64 { z with d := .s 3, a := .s 4, b := .zero }, 8),
   (0x00005A1425060090, .ssub .b32 { z with d := .s 3, a := .s 4, b := .zero }, 8),
   (0x00025A1425060094, .smul .s32 { z with d := .s 3, a := .s 4, b := .zero }, 8),
   (0x0002DA1425060098, .smulh .s64 { z with d := .s 3, a := .s 4, b := .zero }, 8),
   (0x00100000014350B42506009D, .smad .z32 { z with fmt := .f96, d := .s 3, a := .s 4, b := .s 5, c := .s 6 }, 12),
   (0x0000D015F57E00A0, .sand .b64 { z with d := .s 63, a := .s 62, b := .s 0 }, 8),
   (0x00005015F57E00A4, .sor .b32 { z with d := .s 63, a := .s 62, b := .s 0 }, 8),
   (0x0000D015F57E00A8, .sxor .b64 { z with d := .s 63, a := .s 62, b := .s 0 }, 8),
   (0x00045015F57E00AC, .sshl .z32 { z with d := .s 63, a := .s 62, b := .s 0 }, 8),
   (0x0004D015F57E00B0, .sshr .z64 { z with d := .s 63, a := .s 62, b := .s 0 }, 8),
   (0x0002D015F57E00B4, .ssra .s64 { z with d := .s 63, a := .s 62, b := .s 0 }, 8),
   (0x00025015F57E00B8, .smin .s32 { z with d := .s 63, a := .s 62, b := .s 0 }, 8),
   (0x0004D015F57E00BC, .smax .z64 { z with d := .s 63, a := .s 62, b := .s 0 }, 8),
   (0x0052D074150200C0, .scmp .s64 .ge { z with d := .s 1, a := .s 2, b := .s 3 }, 8),
   (0x00000000000000070000D074150200C6, .ssel .b64 { z with fmt := .f128i, d := .s 1, a := .s 2, b := .s 3, imm := 0x7 }, 16),
   (0x00008014150200C8, .spopc .b64 { z with d := .s 1, a := .s 2 }, 8),
   (0x000000000000008000000000050200CE, .sclz .b32 { z with fmt := .f128i, d := .s 1, imm := 0x80 }, 16),
   (0x02C08014C52200D0, .sld .b64 .dev .acq { z with d := .s 17, a := .s 24 }, 8),
   (0x00000000000000100543D314880000D6, .sst .z16 .sys .rel { z with fmt := .f128i, a := .s 17, b := .s 24, imm := 0x10 }, 16),
   (0x00048000050800D8, .srd 9 { z with d := .s 4 }, 8),
   (0x00088014200000DC, .swr 17 { z with a := .s 4 }, 8)]
def words_lane : List (Nat × Instr × Nat) :=
  [(0x000058560D860100, .pand { z with d := .p 3, a := .p 1, b := .p 2 }, 8),
   (0x00005856859E0104, .por { z with d := .p 15, a := .zero, b := .p 2 }, 8),
   (0x00005A160D860108, .pxor { z with d := .p 3, a := .p 1, b := .zero }, 8),
   (0x000000167586010C, .pnot { z with d := .p 3, a := .p 14 }, 8),
   (0x000000160D0C0110, .pmovs { z with d := .s 6, a := .p 1 }, 8),
   (0x0000001435820114, .pmovp { z with d := .p 1, a := .s 6 }, 8),
   (0x000000160D0A0118, .vote .ballot { z with d := .s 5, a := .p 1 }, 8),
   (0x003000160D8A0118, .vote .uni { z with d := .p 5, a := .p 1 }, 8),
   (0x0B42000016005A203008011D, .lxch .b64 .sub 3 true { z with fmt := .f96, d := .v 4, a := .v 6, b := .laneid, pa := (.bfly 1) }, 12),
   (0x00005040450E0120, .rdlane .b32 { z with d := .s 7, a := .v 8, b := .s 2 }, 8),
   (0x0000DA1438100124, .wrlane .b64 { z with d := .v 8, a := .s 7, b := .zero }, 8),
   (0x00008000400E0128, .mtch .b64 false { z with d := .v 7, a := .v 8 }, 8),
   (0x001000004D8E0128, .mtch .b32 true { z with d := .p 7, a := .v 9 }, 8)]
def words_int : List (Nat × Instr × Nat) :=
  [(0x01080032000000C0200B1A01, .iadd .s32 true { z with fmt := .f96, d := .v 5, a := .v 4, b := .v 6, pb := (.rot 3), g := some ⟨1, true⟩ }, 12),
   (0x00000000016850C0200A0205, .iadd3 .b32 { z with fmt := .f96, d := .v 5, a := .v 4, b := .s 6, c := .zero }, 12),
   (0x000000012345678900028000200C020A, .isub .s64 false { z with fmt := .f128i, d := .v 6, a := .v 4, imm := 0x123456789 }, 16),
   (0x0004D120200C020C, .imul .z64 { z with d := .v 6, a := .v 4, b := .s 9 }, 8),
   (0x00045A20200C0210, .imulh .z32 { z with d := .v 6, a := .v 4, b := .laneid }, 8),
   (0x0002000000050100200C0215, .imad .b64 { z with fmt := .f96, d := .v 6, a := .v 4, b := .v 8, c := .v 10 }, 12),
   (0x0010000000050120200C0219, .imadw .z32 { z with fmt := .f96, d := .v 6, a := .v 4, b := .v 9, c := .v 10 }, 12),
   (0x00428000200C021C, .iabs .s64 true { z with d := .v 6, a := .v 4 }, 8),
   (0x00024FE0200C0220, .imin .s32 { z with d := .v 6, a := .v 4, b := .v 639 }, 8),
   (0x0004006024FE0224, .imax .z32 { z with d := .v 639, a := .v 4, b := .v 3 }, 8),
   (0x0508000000010060200C0229, .idot4 .s32 true false true { z with fmt := .f96, d := .v 6, a := .v 4, b := .v 3, c := .v 2 }, 12),
   (0x00008040200C022C, .and .b64 { z with d := .v 6, a := .v 4, b := .v 2 }, 8),
   (0x00008040200C0230, .or .b64 { z with d := .v 6, a := .v 4, b := .v 2 }, 8),
   (0x00008040200C0234, .xor .b64 { z with d := .v 6, a := .v 4, b := .v 2 }, 8)]
def words_bits : List (Nat × Instr × Nat) :=
  [(0x00000000200C0238, .not .b32 { z with d := .v 6, a := .v 4 }, 8),
   (0x000000000000000500048000200C023E, .shl .z64 { z with fmt := .f128i, d := .v 6, a := .v 4, imm := 0x5 }, 16),
   (0x00005020200C0240, .shr .b32 { z with d := .v 6, a := .v 4, b := .s 1 }, 8),
   (0x00028020200C0244, .sra .s64 { z with d := .v 6, a := .v 4, b := .v 1 }, 8),
   (0x0100080000010020200C0249, .shf .b32 true false { z with fmt := .f96, d := .v 6, a := .v 4, b := .v 1, c := .v 2, pc := .mir }, 12),
   (0x00000000200E024C, .popc .b32 { z with d := .v 7, a := .v 4 }, 8),
   (0x00000000200E0250, .clz .b32 { z with d := .v 7, a := .v 4 }, 8),
   (0x0000800020100254, .brev .b64 { z with d := .v 8, a := .v 4 }, 8),
   (0x000200A020100258, .bfe .s32 { z with d := .v 8, a := .v 4, b := .v 5 }, 8),
   (0x00000000000300A02010025D, .bfi .b32 { z with fmt := .f96, d := .v 8, a := .v 4, b := .v 5, c := .v 6 }, 12),
   (0x000001F47B4300A020100261, .prmt .b32 { z with fmt := .f96, d := .v 8, a := .v 4, b := .v 5, c := .s 6, pa := (.rot8 7), pb := (.bcast 31) }, 12),
   (0x1B4080D420100264, .lea .b64 45 true { z with d := .v 8, a := .s 4, b := .v 6 }, 8),
   (0x004480C025900268, .icmp .z64 .gt { z with d := .p 8, a := .v 4, b := .v 6 }, 8),
   (0x00000000016300A02010026D, .sel .b32 { z with fmt := .f96, d := .v 8, a := .v 4, b := .v 5, c := .p 6 }, 12),
   (0x0000800020100270, .mov .b64 { z with d := .v 8, a := .v 4 }, 8),
   (0x3FF00000000000000006800000100276, .movi .f64 { z with fmt := .f128i, d := .v 8, imm := 0x3ff0000000000000 }, 16),
   (0x0000000000000010000200141050027A, .mova .s32 { z with fmt := .f128i, d := .v 40, a := .s 2, imm := 0x10 }, 16)]
def words_float : List (Nat × Instr × Nat) :=
  [(0x0006014040180300, .fadd .f32 .rn { z with d := .v 12, a := .v 8, b := .v 10 }, 8),
   (0x0016814040180304, .fsub .f64 .rz { z with d := .v 12, a := .v 8, b := .v 10 }, 8),
   (0x0036014040180308, .fmul .f32 .rd { z with d := .v 12, a := .v 8, b := .v 10 }, 8),
   (0x00000000BF801000000601004018030E, .fma .f32 .rn { z with fmt := .f128i, d := .v 12, a := .v 8, b := .v 8, imm := 0xbf801000 }, 16),
   (0x0006814040180310, .fmin .f64 { z with d := .v 12, a := .v 8, b := .v 10 }, 8),
   (0x0006014040180314, .fmax .f32 { z with d := .v 12, a := .v 8, b := .v 10 }, 8),
   (0x0076014045980318, .fcmp .f32 .nan { z with d := .p 12, a := .v 8, b := .v 10 }, 8),
   (0x00068000401A031C, .fclass .f64 { z with d := .v 13, a := .v 8 }, 8),
   (0x0026000040180320, .frnd .f32 .ru { z with d := .v 12, a := .v 8 }, 8),
   (0x0006000040180324, .frcp .f32 .rn { z with d := .v 12, a := .v 8 }, 8),
   (0x0016000040180328, .frsq .f32 .rz { z with d := .v 12, a := .v 8 }, 8),
   (0x003600004018032C, .fsqrt .f32 .rd { z with d := .v 12, a := .v 8 }, 8),
   (0x0026814040180330, .fdiv .f64 .ru { z with d := .v 12, a := .v 8, b := .v 10 }, 8),
   (0x0006000040180334, .fexp2 .f32 { z with d := .v 12, a := .v 8 }, 8),
   (0x0006000040180338, .flog2 .f32 { z with d := .v 12, a := .v 8 }, 8),
   (0x000600004018033C, .fsin .f32 { z with d := .v 12, a := .v 8 }, 8),
   (0x0006000040180340, .fcos .f32 { z with d := .v 12, a := .v 8 }, 8),
   (0x0006000040180344, .ftanh .f32 { z with d := .v 12, a := .v 8 }, 8)]
def words_packed : List (Nat × Instr × Nat) :=
  [(0x001680E040180348, .fscale .f64 .rz { z with d := .v 12, a := .v 8, b := .v 7 }, 8),
   (0x000600004018034C, .ffrac .f32 { z with d := .v 12, a := .v 8 }, 8),
   (0x000500E040180350, .pkadd .f16 .rn { z with d := .v 12, a := .v 8, b := .v 7 }, 8),
   (0x0005D0C000020354, .pkmul .bf16 .rn { z with d := .v 1, a := .v 0, b := .s 6 }, 8),
   (0x00D40000000300E040180359, .pkfma .f16 .rd { z with fmt := .f96, d := .v 12, a := .v 8, b := .v 7, c := .v 6 }, 12),
   (0x031100004018035C, .cvt .s8 .rz .f32 false { z with d := .v 12, a := .v 8 }, 8),
   (0x090300004018035C, .cvt .z8 .rn .s32 true { z with d := .v 12, a := .v 8 }, 8),
   (0x103600004018035C, .cvtUnit .rd { z with d := .v 12, a := .v 8 }, 8),
   (0x00060000F50A0360, .redl .f32 .rn .add { z with d := .s 5, a := .v 30 }, 8),
   (0x00848000F50A0360, .redl .z64 .rn .max { z with d := .s 5, a := .v 30 }, 8),
   (0x010000000168506060240365, .rngk .b32 true { z with fmt := .f96, d := .v 18, a := .v 12, b := .s 3, c := .zero }, 12)]
def words_mem : List (Nat × Instr × Nat) :=
  [(0x0B0000000014001410140501, .ld .b32 .none .dev .acq false false { z with fmt := .f96, d := .v 10, a := .s 2, c := .v 40 }, 12),
   (0xC08200000014000010140501, .ld .b64 .strm .core .rlx true true { z with fmt := .f96, d := .v 10, a := .v 2, c := .v 40 }, 12),
   (0xFFFFFFFFFFFFFFFC046300F410000506, .st .z8 .strm .clu .rel false { z with fmt := .f128i, a := .s 2, b := .v 7, imm := 0xfffffffffffffffc }, 16),
   (0x1096000010140508, .ldt .f32 .rz .die .rlx true false { z with d := .v 10, a := .v 2 }, 8),
   (0x252881201000050C, .stt .q8 .ru .pod .rel false true { z with a := .v 2, b := .v 9 }, 8),
   (0x0020000010000510, .pref .b32 .cis false { z with a := .v 2 }, 8),
   (0x06445074D8181D14, .atom .z32 .add .clu .ar { z with d := .v 12, a := .s 27, b := .s 3, g := some ⟨1, false⟩ }, 8),
   (0x24C48094D8180514, .atom .z64 .dec .dev .rel { z with d := .v 12, a := .s 27, b := .v 4 }, 8),
   (0x16C003C050280518, .atomcas .b32 .dev .ar true { z with d := .v 20, a := .v 10, b := .v 30 }, 8),
   (0x1356DA14D818051C, .atomf .f64 .max .sys .acq { z with d := .v 12, a := .s 27, b := .zero }, 8),
   (0x10C20134D8000520, .red .s32 .min .dev .rlx { z with a := .s 27, b := .v 9 }, 8),
   (0x0940000000000524, .fence .sys .sc z, 8),
   (0x0000000000000528, .cmntL1 z, 8),
   (0x100050B420000528, .cmntWb { z with a := .s 4, b := .s 5 }, 8),
   (0x200050B420000528, .cmntInv { z with a := .s 4, b := .s 5 }, 8)]
def words_remote : List (Nat × Instr × Nat) :=
  [(0x104A0000014202942800052D, .rstr 5 true .rel { z with fmt := .f96, a := .s 5, b := .v 20, c := .s 4 }, 12),
   (0x000150B420000530, .ibarm 2 { z with a := .s 4, b := .s 5 }, 8),
   (0x0003800000000530, .ibarmDis 3 z, 8),
   (0x0000801685080534, .ibwait 1 { z with d := .s 4, a := .zero }, 8),
   (0x0008000005080538, .ibstatSend true { z with d := .s 4 }, 8),
   (0x0006800005080538, .ibstatIbox 3 { z with d := .s 4 }, 8),
   (0x02C000002006053C, .tagrd .dev .acq { z with d := .v 3, a := .v 4 }, 8),
   (0x1440000020000540, .tagwr .clu .rel true { z with a := .v 4 }, 8),
   (0x1450507470000544, .sigst true true .clu .rel { z with a := .s 14, b := .s 3 }, 8),
   (0x22C050D475060548, .sigwait .ne .dev .acq { z with d := .s 3, a := .s 14, b := .s 6 }, 8)]
def words_engine : List (Nat × Instr × Nat) :=
  [(0x00000000000000000343D0D4250A0602, .cpy true ⟨none, .s 5, .s 4, .s 6, .s 7⟩, 16),
   (0x55667788112233440143D0D4250A0606, .cpy2d false 0x11223344 0x55667788 ⟨none, .s 5, .s 4, .s 6, .s 7⟩, 16),
   (0x00010008000002000343D0D4250A060A, .cpyg true 512 8 true ⟨none, .s 5, .s 4, .s 6, .s 7⟩, 16),
   (0x00000000000000000543D0D4250A060E, .cpyt false true ⟨none, .s 5, .s 4, .s 6, .s 7⟩, 16),
   (0x00000000000000020343D0D4250A0612, .cpyto true .int32 ⟨none, .s 5, .s 4, .s 6, .s 7⟩, 16),
   (0x0F0000000000001428140615, .tld .b32 7 true { z with fmt := .f96, d := .v 10, a := .s 5 }, 12),
   (0x030000120000015428000619, .tst .b32 3 false { z with fmt := .f96, a := .s 5, b := .v 10, pb := (.rot 1) }, 12),
   (0x004050741000061C, .mbinit .clu { z with a := .s 2, b := .s 3 }, 8),
   (0x1000507410000620, .mbexp true { z with a := .s 2, b := .s 3 }, 8),
   (0x00005074150C0624, .mbarv { z with d := .s 6, a := .s 2, b := .s 3 }, 8),
   (0x00005A14150C0628, .mbwait { z with d := .s 6, a := .s 2, b := .zero }, 8),
   (0x00005074150C062C, .mbtest { z with d := .s 6, a := .s 2, b := .s 3 }, 8),
   (0x000002400ABCD8610747D0D42D080632, .coll true true .reduceScatter .switched .bf16 .max 0xABCD 0 9 ⟨none, .s 4, .s 5, .s 6, .s 15⟩, 16),
   (0x000000B0900050030147D0D42D080632, .coll false false .broadcast .ring .f32 .add 5 777 2 ⟨none, .s 4, .s 5, .s 6, .s 15⟩, 16),
   (0x000050D42D080634, .clwait { z with d := .s 4, a := .s 5, b := .s 6 }, 8),
   (0x001106000003D0D688080639, .binadd .z32 { z with fmt := .f96, d := .v 4, a := .laneid, b := .s 6, c := .v 7, pc := (.bfly 16) }, 12),
   (0x000000000011012C020000142D08063E, .binpatch true 300 17 ⟨none, .s 4, .s 5, .v 0, .v 0⟩, 16),
   (0x128050D42D080640, .binrd .die .acq true { z with d := .s 4, a := .s 5, b := .s 6 }, 8)]
def words_matrix : List (Nat × Instr × Nat) :=
  [(0x0000000000000800000650F42D080702, .mma .f32 .bf16 .bf16 false false false true 0 false false ⟨.s 4, .s 5, .s 7⟩, 16),
   (0x0000000000000545000250F42D080702, .mma .s32 .int4 .int8 true false true false 0 false false ⟨.s 4, .s 5, .s 7⟩, 16),
   (0x0000000000006254000650F42D080706, .mmaq .f32 .int8 .int4 false true false false 2 true false ⟨.s 4, .s 5, .s 7⟩, 16),
   (0x0000001430000708, .mzero { z with a := .s 6 }, 8),
   (0x000000000000070C, .mwait z, 8),
   (0x0000000000000710, .mfence z, 8),
   (0x00000800000000010000000000000716, .mcfg true 2048, 16),
   (0x0000001435100718, .mstep { z with d := .s 8, a := .s 6 }, 8),
   (0x000000000512071C, .mstat { z with d := .s 9 }, 8)]
theorem test_decode_control : words_control.all reads = true := by decide
theorem test_decode_sync : words_sync.all reads = true := by decide
theorem test_decode_uniform : words_uniform.all reads = true := by decide
theorem test_decode_lane : words_lane.all reads = true := by decide
theorem test_decode_int : words_int.all reads = true := by decide
theorem test_decode_bits : words_bits.all reads = true := by decide
theorem test_decode_float : words_float.all reads = true := by decide
theorem test_decode_packed : words_packed.all reads = true := by decide
theorem test_decode_mem : words_mem.all reads = true := by decide
theorem test_decode_remote : words_remote.all reads = true := by decide
theorem test_decode_engine : words_engine.all reads = true := by decide
theorem test_decode_matrix : words_matrix.all reads = true := by decide

/-! ## The decoder refuses; ill-formed terms -/

/-- One of each: reserved LEN, an opcode no row gives, guard bits without GEN, a guarded NOP, a reserved bit. -/
theorem test_reject_len : decode 3 = .illegalInstr := by decide
theorem test_reject_opcode : decode (0xFF * 4) = .illegalInstr := by decide
theorem test_reject_guard_bits : decode 0x00080032000000C0200B1201 = .illegalInstr := by decide
theorem test_reject_guarded_nop : decode 0x800 = .illegalInstr := by decide
theorem test_reject_reserved_bit : decode 0x80080032000000C0200B1A01 = .illegalInstr := by decide
theorem test_reject_odd_pair : decode (encodeBits (.iadd .s64 false { z with d := .v 5, a := .v 4, b := .v 6 })) = .illegalOperand := by decide
theorem test_reject_perm_on_s : decode (encodeBits (.iadd .s32 false { z with fmt := .f96, d := .v 5, a := .s 4, pa := .rot 3 })) = .illegalOperand := by decide
theorem test_reject_s_destination : decode (encodeBits (.iadd .s32 false { z with d := .s 5 })) = .illegalOperand := by decide
/-- WellFormed refuses: a third operand or a permutation outside the 96-bit layout, an immediate
outside the 128-bit one, a layout the opcode lacks, a branch offset off the instruction grid, an odd
pair, an s destination, and an operation without an encoding. -/
theorem test_wf_ok : (Instr.iadd .s32 false { z with d := .v 5, a := .v 4, b := .v 6 }).wf = true := by decide
theorem test_wf_shape_c : (Instr.iadd .s32 false { z with c := .v 1 }).wf = false := by decide
theorem test_wf_shape_perm : (Instr.iadd .s32 false { z with pa := .rot 1 }).wf = false := by decide
theorem test_wf_shape_imm : (Instr.iadd .s32 false { z with imm := 1 }).wf = false := by decide
theorem test_wf_layout : (Instr.yield { z with fmt := .f96 }).wf = false := by decide
theorem test_wf_offset : (Instr.bra .always ⟨none, .v 0, .v 0, 2, 0⟩).wf = false := by decide
theorem test_wf_aux : (Instr.bra .always ⟨none, .v 0, .v 0, 4, 1⟩).wf = false := by decide
theorem test_wf_pair : (Instr.iadd .s64 false { z with d := .v 5 }).wf = false := by decide
theorem test_wf_destination : (Instr.iadd .s32 false { z with d := .s 5 }).wf = false := by decide
theorem test_wf_type : (Instr.fadd .s32 .rn z).wf = false := by decide
theorem test_wf_engine_operand : (Instr.cpy false ⟨none, .v 4, .s 5, .s 6, .zero⟩).wf = false := by decide
theorem test_wf_event : (Instr.kaInjection ⟨0, 0, 0, false⟩).wf = false := by decide

/-! ## Witnesses: uniform, predicate, lane and vector instructions -/

theorem witness_UniformResults : s0.iss.act ≠ 0 ∧ Ty.b32.isS = false ∧ Ty.z64.isS = false := by decide +kernel
theorem witness_BranchTargets : (st g1 0).iss.act = 0 ∧ Ty.s32.width = 32 ∧ Ty.z64.width = 64 ∧ s0.GuardClean none ∧ s0.GuardClean (some ⟨1, true⟩) ∧
    (s0.uni (.s 3) (s0.iss.slots.map fun t => t.1)).tag = .clean ∧ s0.grp.role ≠ .stream ∧
    (s0.brSrc (.v 4) (s0.iss.slots.map fun t => t.1) false).CleanIn s0.iss.act ∧ (s0.brSrc (.s 3) (s0.iss.slots.map fun t => t.2.1) true).CleanIn s0.iss.act := by
  unfold State.GuardClean Src.CleanIn; decide +kernel
theorem witness_SystemRegisterAccess : (Opnd.s 5).isV = false ∧ (Opnd.v 5).isV = true ∧ s0.iss.act ≠ 0 ∧ s0.Fits 63 false [] ∧ s0.Fits 62 true [] ∧ s0.Fits 70 true [] ∧
    (s0.uniA { z with a := .s 0 }).val.extractLsb' 0 5 = 0 ∧ (s0.uniA { z with a := .s 8 }).val.extractLsb' 0 8 = 0 := by
  unfold State.Fits; decide +kernel
theorem witness_PredicateResults : s0.iss.act ≠ 0 := by decide +kernel
theorem witness_VoteResults : (st g1 0x80000001).iss.act ≠ 0 := by decide +kernel
theorem witness_LaneExchange : (0 : BitVec 3).toNat ≤ 5 ∧ (5 : BitVec 3).toNat ≤ 5 ∧ s0.iss.act ≠ 0 ∧
    (Opnd.v 63).reg + (if Ty.b32.is64 then 2 else 1) ≤ s0.grp.ngen ∧ (Opnd.v 62).reg + (if Ty.b64.is64 then 2 else 1) ≤ s0.grp.ngen := by decide +kernel
theorem witness_LaneSelect :
    let s := st g1 0x80
    s.iss.act.getLsbD ((s.uniB { z with b := .s 3 }).val.toNat % 32) = true ∧ s.iss.act.getLsbD ((s.uniB { z with b := .zero }).val.toNat % 32) = false ∧
    (Opnd.v 62).reg + (if Ty.b64.is64 then 2 else 1) ≤ s.grp.ngen ∧ s.iss.act ≠ 0 ∧ s.Fits 63 false [⟨s.srcA { z with a := .v 8 } false, false⟩] := by
  unfold State.Fits; decide +kernel
/-- For every statement on vector arithmetic: widths, signs, and a destination at the end of the general
registers, or a compressed one written in every live lane from uniform sources. -/
theorem witness_lanes : Ty.s32.width = 32 ∧ Ty.z64.width = 64 ∧ Ty.s64.isS = true ∧ Ty.b32.isS = false ∧ s0.iss.act ≠ 0 ∧ (st g1 1).iss.act ≠ 0 ∧
    (st g1 1).Fits 63 false [(st g1 1).vA { z with a := .v 6 } false] ∧ s0.Fits 62 true [s0.vA { z with a := .v 6 } true] ∧
    s0.Fits 71 false [s0.vA { z with a := .v 8 } false, s0.vB { z with b := .s 3 } false] := by
  unfold State.Fits; decide +kernel
theorem witness_FloatSpecialOperands : 0xFFFFFFFF < 2 ^ (1 + Fp.f32.ew + Fp.f32.fw) ∧ 0x7FF0000000000001 < 2 ^ (1 + Fp.f64.ew + Fp.f64.fw) ∧
    Fp.e4m3 ∈ [Fp.f64, Fp.f32, Fp.f16, Fp.bf16, Fp.e4m3, Fp.e5m2] ∧ (1 : Nat) ≠ 0 ∧ 0 ≤ Fp.f16.maxFin ∧ Fp.f16.maxFin ≤ Fp.f16.maxFin := by decide +kernel
/-- Between the magnitudes 0 and 2^−24 of FP16, at its largest finite value, and beyond it; sums that are zero and that are not. -/
theorem witness_rounding :
    compare (0 : ℚ) (2 ^ (-25 : ℤ)) ≠ .gt ∧ compare (1 * 2 ^ (-24 : ℤ) : ℚ) (2 ^ (-25 : ℤ)) = .gt ∧ compare (65504 : ℚ) 65519 ≠ .gt ∧ compare (65536 : ℚ) 65519 = .gt ∧
    compare (65536 : ℚ) 65536 ≠ .gt ∧ ((1 : ℚ) * 3 * 2 ^ (1 : ℤ) + -1 * 6 * 2 ^ (0 : ℤ) = 0) ∧ ((1 : ℚ) * 3 * 2 ^ (1 : ℤ) + 1 * 6 * 2 ^ (0 : ℤ) ≠ 0) := by
  and_intros <;> first | (rw [ne_eq, compare_gt_iff_gt]; norm_num) | (rw [compare_gt_iff_gt]; norm_num) | norm_num
theorem witness_Conversions : Ty.f16.isFloat = true ∧ Ty.e5m2.isFloat = true ∧ Ty.s8.isFloat = false ∧ Ty.z64.isFloat = false ∧ 0 < 8 := by decide +kernel
theorem witness_LaneReduction : Ty.s32 ∈ [Ty.s32, .z32, .s64, .z64, .f32, .f64] ∧ Ty.f64 ∈ [Ty.s32, .z32, .s64, .z64, .f32, .f64] ∧ s0.iss.act ≠ 0 := by decide +kernel
theorem witness_RandomNumbers : s0.iss.act ≠ 0 ∧ (Opnd.v 60).reg + (if false then 2 else 4) ≤ s0.grp.ngen ∧
    (s0.grp.whole s0.iss.act = true ∧ (s0.vA { z9 with a := .v 12 } true).uniform = true ∧ (s0.vBfield { z9 with b := .s 3 } true).uniform = true ∧
      (s0.vC { z9 with c := .zero } true).uniform = true) := by decide +kernel

/-! ## Witnesses: control -/

theorem witness_CallsAndIndirectBranches :
    let s := st g1 0xFFFF
    let o : Ops := { z with a := .v 10 }
    let a := s.srcA o true
    s.GuardClean none ∧ a.CleanIn s.iss.act ∧ 5 < 32 ∧ s.iss.act.getLsbD 5 = true ∧ a.d 5 % 4 ≠ 0 ∧ (∀ k < 5, s.iss.act.getLsbD k = true → a.d k % 4 = 0) ∧
    (let u := st g1 0x1F; ∀ l < 32, u.iss.act.getLsbD l = true → (u.srcA o true).d l % 4 = 0) ∧ s.Fits 62 true [] := by
  unfold State.GuardClean Src.CleanIn State.Fits; decide +kernel
theorem witness_ExitAndPauses :
    let s := st g1 0xF
    let w := st { g1 with wait := { kind := .sleep, due := some 0 } }
    s.Present ∧ s.iss.act ≠ 0 ∧ s.iss.act &&& ~~~s.iss.xm = 0 ∧ s.iss.xm &&& ~~~s.grp.live = 0 ∧ s.iss.replay = false ∧
    (s.grp.role = .stream → s.team.queue = []) ∧ s.grp.live &&& ~~~s.iss.act ≠ 0 ∧
    s0.Present ∧ s0.iss.act &&& ~~~s0.iss.xm = 0 ∧ s0.iss.xm &&& ~~~s0.grp.live = 0 ∧ s0.grp.live &&& ~~~s0.iss.act = 0 ∧
    s.iss.pi = 0 ∧ s.grp.wait.kind ≠ .sleep ∧ fld (s.uniA { z with a := .zero }).val.toNat 31 0 = 0 ∧ fld (s.uniA { z with a := .s 3 }).val.toNat 31 0 ≠ 0 ∧
    w.Present ∧ w.grp.wait.kind = .sleep ∧ w.grp.wait.due = some 0 ∧ 0 ≤ w.clkOf w.grp.core ∧
    (let b : Machine.Bar := { exp := 2, arr := 1, part := 2, init := true, mask := 1, last := [(1, 0)] }
     let two : State := { s0 with groups := [(1, g1), (2, { g1 with grpid := 2 })], teams := [(0, { t1 with bars := [(0, b), (3, { b with exp := 4 }), (15, { b with mask := 2 })] })] }
     two.Present ∧ two.NobodyWaits ∧ (∃ e ∈ two.groups, e.1 ≠ two.iss.key ∧ e.2.tid = two.grp.tid) ∧ two.grp.live &&& ~~~two.iss.act = 0 ∧
     (two.team.bar 0).init = true ∧ two.grp.inMask (two.team.bar 0).mask = true ∧ (two.team.bar 0).exp ≤ 0 + (0 + 1) + 1 ∧ (two.team.bar 3).init = true ∧ 0 + (0 + 1) < (two.team.bar 3).exp ∧
     two.grp.inMask (two.team.bar 15).mask = false ∧ (two.team.bar 1).init = false ∧ (two.team.bar 0).arrived two.grp.member = true) ∧
    (let q : State := { st { g1 with role := .stream } with
       teams := [(0, { t1 with queue := [{ zero := true, quant := false, ty := .f32, mcw := 0, aw := 0, bw := 0, cw := 0, quar := false, astride := 0, pc := 0, dirty := [] }] })] }
     q.Present ∧ q.grp.role = .stream ∧ q.team.queue ≠ []) := by
  unfold State.Present State.NobodyWaits Group.notWaiting; decide +kernel
/-- A group with a handler and a trap area in its scratchpad. -/
def gh : Group := { g1 with tvec := 0x800, tarea := 0xFFFFFF0000000000 }
theorem witness_SoftwareTraps : (st gh).HasHandler ∧ (st gh).iss.act ≠ 0 ∧ (st gh).iss.replay = false :=
  ⟨⟨by constructor <;> decide +kernel, by constructor <;> decide +kernel⟩, by and_intros <;> decide +kernel⟩
theorem witness_TrapEntry :
    let s := st gh
    mfind s.groups 1 = some gh ∧ gh.tvec ≠ 0 ∧ gh.inhdl = false ∧ gh.tareaOk (mget {} s.teams 0) = true ∧ s.groupReqs 1 = [] ∧
    (s.storeFrame 1 gh (mget {} s.teams 0) (frameBytes gh { cause := ⟨18, 1, 2, 3, 0⟩, pc := 0x100, entries := [], pcs := gh.pcs })).1 = none ∧
    (mfind s0.groups 1 = some g1 ∧ g1.tvec = 0 ∧ (s0.vd g1.vd).err.room = false) ∧
    (let b : ErrBlock := { eren := true, erbase := 0x40000000 }
     let v : VD := { st := .active, resident := true, hroot := 0x10000, err := b }
     let r : State := { s0 with vds := [(0, v)], mem := { hbm := Mem.writeAll [] (loadTables ++ bytesAt 0x12008 (leBytes 8 (0xBD + 2 * 2 ^ 56))) } }
     mfind r.groups 1 = some g1 ∧ (r.vd g1.vd).err.room = true ∧ (∃ l, hostWalk r g1.vd (r.vd g1.vd).err.slot 1 = .ok l ∧ 2 ≤ fld l.e 57 56) ∧ r.err.eren = false ∧
       ∀ e ∈ r.groups, e.2.tid = g1.tid → (mget {} r.groups e.1).sq = []) := by
  intro s
  have h (x : Except XFault Leaf) (hx : (x.toOption.map fun l => decide (2 ≤ fld l.e 57 56)) = some true) : ∃ l, x = .ok l ∧ 2 ≤ fld l.e 57 56 := by
    cases x with
    | error e => cases hx
    | ok l => exact ⟨l, rfl, by simpa [Except.toOption] using hx⟩
  and_intros <;> first | decide +kernel | exact h _ (by decide +kernel)
/-- Of its operands: fault-pending or data-poison in lanes 4 and 5 of an address or a guard; and a compressed-only destination. -/
theorem witness_consumes :
    (let o : Ops := { z with d := .v 63, a := .v 30, b := .v 4 }
     let bad (dp fp : Word) (rs : List Region) : State := st { g1 with regions := rs, v := [(30, ⟨.uniform 0, dp, fp⟩)], p := [(1, ⟨0, dp, fp⟩)], s := [(30, ⟨0, if fp = 0 then .poison else .pending⟩)] }
     (∀ f ∈ [true, false], let s := bad (if f then 0 else 0x30) (if f then 0x30 else 0) []
       s.Present ∧ s.iss.act ≠ 0 ∧ s.iss.act &&& ~~~s.iss.pend = 0 ∧ s.iss.pi = 0 ∧ (∀ d ∈ destRegs o 1, d < s.grp.ngen)) ∧
     (let s := bad 0 0x30 []
      ((s.addrConsumed o true s.iss.act).find? fun x => x.fp &&& x.lanes != 0) = some ⟨Opnd.code (.v 30), 0, 0x30, all⟩ ∧ (0x30 &&& all : Word).getLsbD 4 = true ∧ (∀ k < 4, (0x30 &&& all : Word).getLsbD k = false) ∧
      ([(s.uniA { z with a := .s 30 }).consumed (.s 30) s.iss.act].find? fun x => x.fp &&& x.lanes != 0).isSome = true ∧
      ((([⟨704 + 1, 0, 0x30, all⟩] : List Consumed) ++ [(s.srcA o true).consumed o.a s.iss.act]).find? fun x => x.fp &&& x.lanes != 0).isSome = true) ∧
     (∀ rs ∈ [[], [(⟨0x900, 1, 0, 1⟩ : Region)]], let s := bad 0x30 0 rs
      s.grp.regions = rs ∧ (∀ x ∈ s.addrConsumed o true s.iss.act, x.fp &&& x.lanes = 0) ∧ ((s.addrConsumed o true s.iss.act).find? fun x => x.dp &&& x.lanes != 0) = some ⟨Opnd.code (.v 30), 0x30, 0, all⟩) ∧
     (∃ d ∈ destRegs { z with d := .v 64 } 1, g1.ngen ≤ d) ∧ (Opnd.v 64).reg % 2 = 0 ∧ (st g1 1).grp.whole 1 = false) := by
  intro o bad; unfold State.Present; and_intros <;> decide +kernel
theorem readFrame_scratch (s : State) (k n : Nat) (h : windowOfN (mget {} s.groups k).tarea.toNat n = .scratch) : ∃ bs, s.readFrame k n = .ok (bs, s) := by
  unfold State.readFrame; simp only [h]; exact ⟨_, rfl⟩
theorem witness_ReturnFromTrap :
    let s := st { gh with inhdl := true }
    s.iss.act ≠ 0 ∧ s.grp.inhdl = true ∧ s0.grp.inhdl = false ∧ (0 : Nat) < min 16 (leNat (leBytes 4 1)) ∧ 0 < 32 ∧ 0 < leNat [(1 : Byte)] ∧
    ∃ hd bs, s.readFrame 1 512 = .ok (hd, s) ∧ s.readFrame 1 (512 + 2240 * min 16 (leNat ((hd.drop 276).take 4))) = .ok (bs, s) := by
  have hn : ∀ n < 17, windowOfN 0xFFFFFF0000000000 (512 + 2240 * n) = .scratch := by decide +kernel
  obtain ⟨hd, h⟩ := readFrame_scratch (st { gh with inhdl := true }) 1 512 (hn 0 (by omega))
  obtain ⟨bs, h'⟩ := readFrame_scratch (st { gh with inhdl := true }) 1 (512 + 2240 * min 16 (leNat ((hd.drop 276).take 4))) (hn _ (by omega))
  exact ⟨by decide +kernel, by decide +kernel, by decide +kernel, by decide +kernel, by decide, by decide, hd, bs, h, h'⟩
theorem witness_RegionsAndWaits :
    let r : Region := ⟨0x900, 1, 0, 1⟩
    let s4 := st { g1 with regions := [r, r, r, r] }
    let sp := st { g1 with predDone := true }
    let so : State := { s0 with vds := [(0, { st := .active, fault := { nextseq := 9, outcomes := [(7, true), (8, false)] } })] }
    s0.grp.regions.length ≠ 4 ∧ s4.grp.regions.length = 4 ∧ s4.grp.regions = r :: [r, r, r] ∧ s0.grp.regions = [] ∧
    (¬∃ q ∈ (so.vd so.grp.vd).fault.reqs, q.token = some ((so.uniA { z with a := .s 3 }).val.setWidth 32) ∧ q.failed = false) ∧
    (so.vd so.grp.vd).fault.outcomes.find? (fun e => e.1 == (so.uniA { z with a := .s 3 }).val.setWidth 32) = some (7, true) ∧
    (so.vd so.grp.vd).fault.outcomes.find? (fun e => e.1 == (so.uniA { z with a := .s 8 }).val.setWidth 32) = none ∧
    (so.vd so.grp.vd).fault.outcomes.find? (fun e => e.1 == 8) = some (8, false) ∧ (so.vd so.grp.vd).fault.recent 7 = true ∧ (so.vd so.grp.vd).fault.recent 8 = true ∧
    (so.vd so.grp.vd).fault.recent 9 = false ∧
    sp.grp.predDone = true ∧ s0.grp.predDone = false ∧ (s0.predReached (recBundle s0.team.record)).1 = true := by decide +kernel

/-! ## Witnesses: memory -/

/-- A group whose pair v20 holds global addresses, v22 addresses in its scratchpad and v24 misaligned ones from
lane 3 on; s20 holds a global address and s21 one in the scratchpad. -/
def gm : Group := { g1 with
  v := [(4, ⟨.affine 10 3, 0, 0⟩), (20, ⟨.affine 0x1000 8, 0, 0⟩), (21, ⟨.uniform 0, 0, 0⟩), (22, ⟨.affine 0x100 8, 0, 0⟩), (23, ⟨.uniform 0xFFFFFF00, 0, 0⟩),
        (24, ⟨.general ((List.range 32).map fun l => BitVec.ofNat 32 (0x1000 + 8 * l + if l < 3 then 0 else 2)), 0, 0⟩)],
  s := [(3, ⟨7, .clean⟩), (20, ⟨0x2000, .clean⟩), (21, ⟨0xFFFFFF0000000200, .clean⟩)] }
def sm : State := st gm 1
def aG : Ops := { z with d := .v 10, a := .v 20, b := .v 4 }
def aS : Ops := { z with d := .v 62, a := .v 22, b := .v 4 }
/-- One lane is ready where it is. -/
theorem ready_one {s : State} {m : Access} {srcs : List Consumed} {eas : List Nat} {refuse : Nat → Nat → Loc → Option Pending} {loc : Loc} {u : State}
    (hl : lanesOf s.iss.act = [0]) (ha : s.iss.act = 1) (hw : s.iss.stop = none) (hf : s.iss.act &&& ~~~s.iss.pend = 0 ∧ s.iss.pi = 0)
    (hd : ∀ d ∈ m.dst, d < s.grp.ngen) (hc : ∀ x ∈ srcs, (x.dp ||| x.fp) &&& x.lanes = 0)
    (hA : (m.aligned = true → eas.getD 0 0 % m.n = 0) ∧ m.win.takes (windowOfN (eas.getD 0 0) m.n) = true ∧ s.boundCode (eas.getD 0 0) m.n = none)
    (hs : s.stalled m [(0, eas.getD 0 0)] = false) (hi : s.groupReqs s.iss.key = [])
    (hr : s.locate 0 (eas.getD 0 0) m.acc (spanOf m.n) = (.ok loc, u)) (hn : refuse 0 (eas.getD 0 0) loc = none) :
    s.Ready m srcs eas refuse [(0, loc)] u := by
  refine ⟨by rw [ha]; decide, hf, hw, fun d h => .inl (hd d h), hc, ?_, by rw [hl]; exact hs, hi, ?_⟩
  · intro l hl hb
    have : l = 0 := by
      rw [ha] at hb
      revert hb; revert hl; revert l; decide
    subst this
    exact ⟨hA.1, hA.2.1, hA.2.2⟩
  · rw [hl]; exact ⟨loc, u, [], hr, hn, rfl, rfl, rfl⟩
def locG (a : Nat) : Loc := { space := .hbm, addr := 0x1000000 + a, page := 0x1000000, size := 0x200000 }
def locS (a : Nat) : Loc := { space := .scratch, addr := a }
/-- What an access of `m` to lane 0's address needs besides the location. -/
def readyAt (s : State) (m : Access) (srcs : List Consumed) (eas : List Nat) (refuse : Nat → Nat → Loc → Option Pending) (loc : Loc) : Bool :=
  let ea := eas.getD 0 0
  lanesOf s.iss.act == [0] && s.iss.act == 1 && s.iss.act &&& ~~~s.iss.pend == 0 && s.iss.pi == 0 && s.iss.stop == none && m.dst.all (fun d => decide (d < s.grp.ngen)) &&
  srcs.all (fun x => (x.dp ||| x.fp) &&& x.lanes == 0) && (!m.aligned || ea % m.n == 0) && m.win.takes (windowOfN ea m.n) && s.boundCode ea m.n == none &&
  !s.stalled m [(0, ea)] && s.groupReqs s.iss.key == [] && s.locate 0 ea m.acc (spanOf m.n) == (.ok loc, s) && refuse 0 ea loc == none
/-- Ready but for what a page refuses. -/
theorem ready_but {s : State} {m : Access} {srcs : List Consumed} {eas : List Nat} {refuse : Nat → Nat → Loc → Option Pending} {loc : Loc}
    (h : readyAt s m srcs eas (fun _ _ _ => none) loc = true) (hn : refuse 0 (eas.getD 0 0) loc = none) : s.Ready m srcs eas refuse [(0, loc)] s := by
  simp only [readyAt, Bool.and_eq_true, beq_iff_eq, List.all_eq_true, decide_eq_true_eq, Bool.or_eq_true, Bool.not_eq_true'] at h
  obtain ⟨⟨⟨⟨⟨⟨⟨⟨⟨⟨⟨⟨⟨h1, h2⟩, h3⟩, h4⟩, hw⟩, h5⟩, h6⟩, h7⟩, h8⟩, h9⟩, h10⟩, h11⟩, h12⟩, -⟩ := h
  exact ready_one h1 h2 hw ⟨h3, h4⟩ h5 h6 ⟨fun ha => h7.resolve_left (by rw [ha]; decide), h8, h9⟩ h10 h11 h12 hn
theorem ready_of {s : State} {m : Access} {srcs : List Consumed} {eas : List Nat} {refuse : Nat → Nat → Loc → Option Pending} {loc : Loc}
    (h : readyAt s m srcs eas refuse loc = true) : s.Ready m srcs eas refuse [(0, loc)] s := by
  simp only [readyAt, Bool.and_eq_true, beq_iff_eq] at h
  exact ready_but (by simp only [readyAt, Bool.and_eq_true, beq_iff_eq]; exact ⟨h.1, trivial⟩) h.2
/-- The same machine where the page holds FP32 elements, 4-bit integers, or lies in host memory. -/
def smF (f : Nat) : State := { sm with tlb := [{ e1 with fmt := f }] }
def smH : State := { sm with tlb := [{ e1 with home := 15 }] }
def locF (f a : Nat) : Loc := { locG a with fmt := f }
def locH (a : Nat) : Loc := { locG a with space := .host }
theorem witness_LaneLoads :
    sm.Ready { n := 4, acc := 0, sc := .dev, acq := true, rel := false, defer := true, score := true, dst := [10], pair := false }
      (sm.addrConsumed aG true sm.iss.act) (sm.lanesEa aG false fun _ => 4) (fun _ _ _ => none) [(0, locG 0x1000)] sm ∧
    sm.Ready { n := 8, acc := 0, sc := .core, acq := false, rel := false, defer := false, score := true, dst := [62, 63], pair := true }
      (sm.addrConsumed aS true sm.iss.act) (sm.lanesEa aS false fun _ => 8) (fun _ _ _ => none) [(0, locS 0x100)] sm ∧
    (smF 2).Ready { n := 1, acc := 0, sc := .die, acq := false, rel := false, win := .globalOnly, aligned := false, defer := true, dst := [10], pair := false }
      ((smF 2).addrConsumed aG true sm.iss.act) ((smF 2).lanesEa aG false fun l => (smF 2).typedUnit (((smF 2).srcA aG true).d l))
      ((smF 2).typedRefused .f32 false true false 0) [(0, locF 2 0x1000)] (smF 2) ∧
    (smF 9).Ready { n := 1, acc := 0, sc := .die, acq := false, rel := false, win := .globalOnly, aligned := false, defer := true, dst := [10, 11], pair := false }
      ((smF 9).addrConsumed aG true sm.iss.act) ((smF 9).lanesEa aG false fun l => (smF 9).typedUnit (((smF 9).srcA aG true).d l))
      ((smF 9).typedRefused .s32 true true false 0) [(0, locF 9 0x1000)] (smF 9) :=
  ⟨ready_of (by decide +kernel), ready_of (by decide +kernel), ready_of (by decide +kernel), ready_of (by decide +kernel)⟩
def uG : Ops := { z with d := .s 5, a := .s 20, b := .s 3 }
def uS : Ops := { z with d := .s 5, a := .s 21, b := .s 3 }
def onceAt (s : State) (m : Access) (ea : Nat) (loc : Loc) : Bool :=
  s.iss.act != 0 && (!m.aligned || ea % m.n == 0) && m.win.takes (windowOfN ea m.n) && s.boundCode ea m.n == none &&
  !s.stalled m [(lowLane s.iss.act, ea)] && s.groupReqs s.iss.key == [] && s.locate (lowLane s.iss.act) ea m.acc (spanOf m.n) == (.ok loc, s)
theorem once_of {s : State} {m : Access} {ea : Nat} {loc : Loc} (h : onceAt s m ea loc = true) : s.OnceReady m ea loc s := by
  simp only [onceAt, Bool.and_eq_true, beq_iff_eq, bne_iff_ne, Bool.or_eq_true, Bool.not_eq_true'] at h
  obtain ⟨⟨⟨⟨⟨⟨h1, h2⟩, h3⟩, h4⟩, h5⟩, h6⟩, h7⟩ := h
  exact ⟨h1, ⟨fun ha => h2.resolve_left (by rw [ha]; decide), h3, h4⟩, h5, h6, h7⟩
theorem noBinops_of {s : State} (h : s.binops = []) : s.NoBinops := by unfold State.NoBinops; rw [h]; simp
theorem witness_UniformLoadsAndStores :
    (sm.onceEa uG).1.tag = .clean ∧ (sm.uni (.s 3) (sm.iss.slots.map fun t => t.2.1)).tag ≠ .pending ∧ sm.NoBinops ∧
    sm.OnceReady { n := 8, acc := 0, sc := .dev, acq := true, rel := false, win := .noStack, score := true } (sm.onceEa uG).2 (locG 0x2000) sm ∧
    sm.OnceReady { n := 1, acc := 1, sc := .core, acq := false, rel := false, win := .noStack, score := true } (sm.onceEa uS).2 (locS 0x200) sm ∧
    sm.OnceReady { n := 8, acc := 1, sc := .sys, acq := false, rel := true, win := .noStack, score := true } (sm.onceEa uG).2 (locG 0x2000) sm ∧
    (sm.loadN sm.grp .dev (locG 0x2000) 8).2 = false :=
  ⟨by decide +kernel, by decide +kernel, noBinops_of rfl, once_of (by decide +kernel), once_of (by decide +kernel), once_of (by decide +kernel), by decide +kernel⟩
theorem witness_LaneStores :
    OneClass [(0, locG 0x1000)] ∧ sm.NoBinops ∧
    sm.Ready { n := 4, acc := 1, sc := .dev, acq := false, rel := false, score := true }
      (sm.addrConsumed aG true sm.iss.act ++ [sm.dataConsumed (sm.srcBfield aG false) aG.b sm.iss.act]) (sm.lanesEa aG false fun _ => 4)
      (fun _ _ _ => none) [(0, locG 0x1000)] sm ∧
    sm.Ready { n := 8, acc := 1, sc := .clu, acq := false, rel := true, score := true }
      (sm.addrConsumed aS true sm.iss.act ++ [sm.dataConsumed (sm.srcBfield aS true) aS.b sm.iss.act]) (sm.lanesEa aS false fun _ => 8)
      (fun _ _ _ => none) [(0, locS 0x100)] sm ∧
    (smF 2).Ready { n := 1, acc := 1, sc := .dev, acq := false, rel := false, win := .globalOnly, aligned := false }
      ((smF 2).addrConsumed aG true sm.iss.act ++ [(smF 2).dataConsumed { (smF 2).srcBfield aG false with fp := 0 } aG.b sm.iss.act])
      ((smF 2).lanesEa aG false fun l => (smF 2).typedUnit (((smF 2).srcA aG true).d l)) ((smF 2).typedRefused .f32 false false false 1)
      [(0, locF 2 0x1000)] (smF 2) :=
  ⟨by unfold OneClass; decide +kernel, noBinops_of rfl, ready_of (by decide +kernel), ready_of (by decide +kernel), ready_of (by decide +kernel)⟩
/-- The machine with a poisoned sector at lane 0's address. -/
def smP : State := { sm with mem := { hbmPoison := [(0x1000000 + 0x1000) / 256] } }
theorem witness_Atomics :
    sm.NoBinops ∧
    sm.Ready (atomAccess .z32 .dev .ar (destRegs aG 1)) (sm.addrConsumed aG false sm.iss.act ++ [⟨aG.b.code, 0, (sm.srcBfield aG false).fp, sm.iss.act⟩])
      (sm.lanesEa aG false fun _ => 4) (sm.hostRefuses true) [(0, locG 0x1000)] sm ∧
    sm.Ready (atomAccess .f64 .clu .rlx (destRegs aS 2)) (sm.addrConsumed aS false sm.iss.act ++ [⟨aS.b.code, 0, (sm.srcBfield aS true).fp, sm.iss.act⟩])
      (sm.lanesEa aS false fun _ => 8) (sm.hostRefuses false) [(0, locS 0x100)] sm ∧
    (Config.hostUnsupported 0x1001000 0 = false → smH.Ready (atomAccess .b32 .sys .rel []) (smH.addrConsumed aG false sm.iss.act ++ [⟨aG.b.code, 0, (smH.srcBfield aG false).fp, sm.iss.act⟩])
      (smH.lanesEa aG false fun _ => 4) (smH.hostRefuses true) [(0, locH 0x1000)] smH) ∧
    sm.Ready { atomAccess .b32 .dev .acq (destRegs aG 1) with acq := false }
      (sm.addrConsumed aG false sm.iss.act ++ [⟨aG.b.code, 0, (sm.srcBfield aG false).fp ||| (sm.srcBfield aG false 1).fp, sm.iss.act⟩])
      (sm.lanesEa aG false fun _ => 4) (sm.hostRefuses true) [(0, locG 0x1000)] sm ∧
    (((sm.beforeRmw 1 (locG 0x1000)).meetAt (locG 0x1000)).pointRead gm (locG 0x1000) 4).2 = false ∧
    (((smP.beforeRmw 1 (locG 0x1000)).meetAt (locG 0x1000)).pointRead gm (locG 0x1000) 4).2 = true ∧
    (fun (l _ : Nat) => some (l + 7)) 3 0 = some 10 ∧ (fun (l _ : Nat) => some (l + 7)) 5 (10 % 2 ^ (8 * 4)) = some 12 ∧
    0xFFFFFFFF < 2 ^ Ty.s32.width ∧ (0 : Nat) < 2 ^ Ty.f64.width ∧ Ty.f32.isF = true ∧ Ty.b64.isF = false :=
  ⟨noBinops_of rfl, ready_of (by decide +kernel), ready_of (by decide +kernel),
    fun h => ready_but (by decide +kernel) (by show (if _ then _ else _) = none; rw [if_neg]; have h' : Config.hostUnsupported (locG 0x1000).addr State.reset.clk = false := h; simp [locH, smH, sm, st, h']), ready_of (by decide +kernel), by decide +kernel, by decide +kernel⟩
theorem witness_MisalignedAccessTraps :
    let s := st gm
    let o : Ops := { z with d := .v 10, a := .v 24, b := .v 4 }
    let ea := s.lanesEa o false fun _ => 4
    s.iss.act &&& ~~~s.iss.pend = 0 ∧ s.iss.pi = 0 ∧ 3 < 32 ∧ s.iss.act.getLsbD 3 = true ∧ ea.getD 3 0 % 4 ≠ 0 ∧ (∀ k < 3, s.iss.act.getLsbD k = true → ea.getD k 0 % 4 = 0) ∧
    (∀ x ∈ s.addrConsumed o true s.iss.act ++ [s.dataConsumed (s.srcBfield o false) o.b s.iss.act], (x.dp ||| x.fp) &&& x.lanes = 0) ∧
    (∀ x ∈ s.addrConsumed o false s.iss.act ++ [⟨o.b.code, 0, (s.srcBfield o false).fp, s.iss.act⟩], (x.dp ||| x.fp) &&& x.lanes = 0) ∧
    (∀ d ∈ destRegs o 1, d < s.grp.ngen) := by decide +kernel
/-- A range of 8 KiB from 0x2000. -/
def uL : Ops := { uG with b := .s 20 }
theorem witness_FencesAndMaintenance : sm.Present ∧ sm.iss.act ≠ 0 ∧ sm.NoBinops ∧ MemOrd.sc.isRel = true ∧ 3 ≤ Scope.dev.code ∧ MemOrd.acq.isAcq = true ∧
    Scope.clu ≠ .core ∧ (sm.uniA uG).tag = .clean ∧ (sm.uniB uG).tag = .clean ∧ (sm.uniB { uG with b := .zero }).val.toNat = 0 ∧
    (sm.uniB uG).val.toNat ≤ 2 ^ 36 ∧ (sm.uniA uG).val.toNat + (sm.uniB uG).val.toNat ≤ 2 ^ 56 ∧ sm.iss.stop = none ∧
    (let lo := (sm.uniA uL).val.toNat
     let n := (sm.uniB uL).val.toNat
     let part : State := { sm with iss := { sm.iss with stop := some 2 } }
     (sm.uniA uL).tag = .clean ∧ n ≠ 0 ∧ n ≤ 2 ^ 36 ∧ lo + n ≤ 2 ^ 56 ∧ part.iss.stop = some 2 ∧ part.iss.pi.toNat + 2 < (lo + n - 1) / 1024 - lo / 1024 + 1 ∧ part.iss.replay = false) ∧
    2 ^ 36 < (sm.uniB { uL with b := .s 21 }).val.toNat ∧ sm.iss.lateFence .dev .ar = false ∧
    ({ sm with iss := { sm.iss with stop := some 0 } } : State).iss.lateFence .dev .ar = true ∧ MemOrd.ar.isRel = true :=
  ⟨⟨rfl, rfl⟩, by decide +kernel, noBinops_of rfl, by decide +kernel⟩
theorem witness_PoisonTags :
    sm.NoBinops ∧
    sm.Ready { tagAccess 0 .dev .acq (destRegs aG 1) with general := !((sm.srcA aG true).lo.isUniform && (sm.srcA aG true).hi.isUniform) }
      (sm.addrConsumed aG false sm.iss.act) ((List.range 32).map (sm.srcA aG true).d) (fun _ _ _ => none) [(0, locG 0x1000)] sm ∧
    smH.Ready { tagAccess 0 .dev .acq (destRegs aG 1) with general := !((smH.srcA aG true).lo.isUniform && (smH.srcA aG true).hi.isUniform) }
      (smH.addrConsumed aG false sm.iss.act) ((List.range 32).map (smH.srcA aG true).d) (fun _ _ _ => none) [(0, locH 0x1000)] smH ∧
    sm.Ready (tagAccess 2 .dev .rel []) (sm.addrConsumed aS false sm.iss.act) ((List.range 32).map (sm.srcA aS true).d)
      (fun lane ea l => if l.space = .host then some (permCause ea lane 6) else none) [(0, locS 0x100)] sm ∧ sectorOf (locS 0x100).addr ∉ sm.mem.damaged :=
  ⟨noBinops_of rfl, ready_of (by decide +kernel), ready_of (by decide +kernel), ready_of (by decide +kernel), by decide +kernel⟩
theorem witness_Signals :
    let old (s : State) := ((s.beforeRmw 1 (locG 0x2000)).meetAt (locG 0x2000)).pointRead gm (locG 0x2000) 8
    let bad : State := { sm with mem := { hbmPoison := [(0x1000000 + 0x2000) / 256] } }
    let irq : State := { sm with vds := [(0, { st := .active, resident := true, remap := [(0, 3)] })] }
    let w (g : Group) : State := { sm with groups := [(1, g)], mem := { hbm := bytesAt 0x1002000 (leBytes 8 7) } }
    let on (k : Nat) : Group := { gm with wait := { kind := .sigwait, due := some k } }
    let word (s : State) : DWord := BitVec.ofNat 64 (s.loadN s.grp .dev (locG 0x2000) 8).1
    let x (s : State) : Bool := (s.loadN s.grp .dev (locG 0x2000) 8).2
    sm.NoBinops ∧ (sm.onceEa uG).1.tag = .clean ∧ (sm.uni (.s 3) (sm.iss.slots.map fun t => t.2.1)).tag = .clean ∧
    sm.OnceReady (sigAccess 2 .dev .rel) (sm.onceEa uG).2 (locG 0x2000) sm ∧ (old ((sm.ordered (sigAccess 2 .dev .rel) [(0, locG 0x2000)]).meetAt (locG 0x2000))).2 = false ∧
    irq.OnceReady (sigAccess 2 .dev .rlx) (sm.onceEa uG).2 (locG 0x2000) irq ∧ (old irq).2 = false ∧
    (mget 0 (irq.vd 0).remap 0).getLsbD 0 = true ∧ (mget 0 (irq.vd 0).remap 0).getLsbD 1 = true ∧
    bad.OnceReady (sigAccess 2 .clu .rlx) (sm.onceEa uG).2 (locG 0x2000) bad ∧ (old bad).2 = true ∧ bad.OnceReady (sigAccess 0 .dev .rlx) (sm.onceEa uG).2 (locG 0x2000) bad ∧ x bad = true ∧
    (w gm).OnceReady (sigAccess 0 .dev .rlx) (sm.onceEa uG).2 (locG 0x2000) (w gm) ∧ x (w gm) = false ∧
    SigCmp.holds .eq (word (w gm)) ((w gm).uniB uG 0).val = true ∧ SigCmp.holds .ne (word (w gm)) ((w gm).uniB uG 0).val = false ∧ gm.wait = {} ∧ (w gm).iss.pi = 0 ∧ (w gm).iss.replay = false ∧
    (∀ k ∈ [0, 1], (w (on k)).OnceReady (sigAccess 0 .dev .rlx) (sm.onceEa uG).2 (locG 0x2000) (w (on k)) ∧ x (w (on k)) = false ∧
      SigCmp.holds .ne (word (w (on k))) ((w (on k)).uniB uG 0).val = false ∧ (on k).wait.kind = .sigwait ∧ (on k).wait.expired = false) ∧
    0 ≤ (w (on 0)).clkOf 0 ∧ (w (on 1)).clkOf 0 < 1 ∧ ({ (w (on 1)) with iss := { sm.iss with resumed := true } } : State).iss.resumed = true := by
  intro old bad irq w on word x
  have h (k : Nat) (hk : k ∈ [0, 1]) : (w (on k)).OnceReady (sigAccess 0 .dev .rlx) (sm.onceEa uG).2 (locG 0x2000) (w (on k)) ∧ x (w (on k)) = false ∧
      SigCmp.holds .ne (word (w (on k))) ((w (on k)).uniB uG 0).val = false ∧ (on k).wait.kind = .sigwait ∧ (on k).wait.expired = false := by
    simp only [List.mem_cons, List.not_mem_nil, or_false] at hk
    rcases hk with rfl | rfl <;> exact ⟨once_of (by decide +kernel), by decide +kernel⟩
  and_intros <;> first | decide +kernel | exact once_of (by decide +kernel) | exact noBinops_of rfl | exact h

/-! ## Instructions, one step each; the values are the spec's examples or worked by hand -/

/-- `IADD.s32 v5, v4, v6:rot3` in lane 31: 10 + 93, and lane 2's 102 by the rotation (R70). -/
theorem test_iadd_rot : lane (exec (.iadd .s32 false { z with fmt := .f96, d := .v 5, a := .v 4, b := .v 6, pb := .rot 3 }) s0) 5 31 = some (103 + 102) := by decide +kernel
theorem test_iadd_wraps : lane (exec (.iadd .s32 false { zi with d := .v 4, a := .v 4, imm := 0x7FFFFFFF }) s0) 4 0 = some 0x80000009 := by decide +kernel
theorem test_iadd_sat : lane (exec (.iadd .s32 true { zi with d := .v 4, a := .v 4, imm := 0x7FFFFFFF }) s0) 4 0 = some 0x7FFFFFFF := by decide +kernel
theorem test_isub_order : lane (exec (.isub .s32 false { z with d := .v 5, a := .v 4, b := .v 6 }) s0) 5 31 = some (BitVec.ofInt 32 (103 - 131)) := by decide +kernel
theorem test_imulh : lane (exec (.imulh .z32 { z with fmt := .f96, d := .v 5, a := .v 23, b := .v 23 }) sm) 5 0 = some 0xFFFFFE00 := by decide +kernel
theorem test_fma : lane (exec (.fma .f32 .rn { zi with d := .v 12, a := .v 8, b := .v 8, imm := 0xBF801000 }) s0) 12 7 = some 0x33800000 := by decide +kernel
theorem test_fmul : lane (exec (.fmul .f32 .rn { z with d := .v 12, a := .v 8, b := .v 8 }) s0) 12 7 = some 0x3F801000 := by decide +kernel
theorem test_icmp : pval (exec (.icmp .s32 .lt { zi with d := .p 2, a := .v 4, imm := 16 }) s0) 2 = some 3 := by decide +kernel
theorem test_redl : sval (exec (.redl .s32 .rn .add { z with d := .s 5, a := .v 4 }) s0) 5 = some 1808 := by decide +kernel
theorem test_sadd_sign_extends : sval (exec (.sadd .s32 { z with d := .s 5, a := .s 4, b := .s 3 }) s0) 5 = some 0xFFFFFFFF9ABCDEF7 := by decide +kernel
/-- The conversions that R201 gives as examples. -/
def cvtOf (x : Word) (i : Ops → Instr) : Option Word := lane (exec (i { z with d := .v 5, a := .v 9 }) (st { g1 with v := [(9, ⟨.uniform x, 0, 0⟩)] })) 5 0
theorem test_cvt_clamps : cvtOf 0x4348B333 (.cvt .s8 .rn .f32 false) = some 0x7F := by decide +kernel
theorem test_cvt_negative : cvtOf 0xC0600000 (.cvt .s8 .rn .f32 false) = some 0xFFFFFFFC := by decide +kernel
theorem test_cvt_wraps : cvtOf 0xFFFFFFFB (.cvt .z8 .rn .s32 false) = some 0xFB := by decide +kernel
theorem test_cvt_sat : cvtOf 0xFFFFFFFB (.cvt .z8 .rn .s32 true) = some 0 := by decide +kernel
/-- The generator's first block for the zero key and counter. -/
theorem test_rngk : [0, 1, 2, 3].map (fun j => lane (exec (.rngk .z32 false { z9 with d := .v 12 }) (st {g1 with v := []})) (12 + j) 0) =
    [some 0xF32064CE, some 0x191FCEC2, some 0x58CDAFA7, some 0xF289C22D] := by decide +kernel
theorem test_bra : pcOf (exec (.bra .always ⟨none, .v 0, .v 0, 0xFFFFFFC0, 0⟩) s0) 31 = some 0xC0 := by decide +kernel
theorem test_brc_splits : (pcOf (exec (.brc .s32 .lt ⟨none, .v 4, .s 3, 0x40, 0⟩) (st { g1 with s := [(3, ⟨16, .clean⟩)] })) 1,
    pcOf (exec (.brc .s32 .lt ⟨none, .v 4, .s 3, 0x40, 0⟩) (st { g1 with s := [(3, ⟨16, .clean⟩)] })) 2) = (some 0x140, some 0x108) := by decide +kernel
theorem test_ld_sign_extends :
    lane (exec (.ld .s8 .none .core .rlx false false aG) { sm with mem := { hbm := Mem.writeAll [] (bytesAt 0x1001000 (List.replicate 32 0x80)) } }) 10 0 = some 0xFFFFFF80 := by decide +kernel
/-- R14's example: the loss of die 1, and the promotion of the spare. -/
theorem test_die_loss : got (exec (.dieLoss 1) State.reset) (fun t => t.remapWord) = some 0x506 := by decide +kernel
theorem test_spare_promotion : got (exec (.sparePromotion 1) { State.reset with remapWord := 0x506, retired := [.die 1], lost := [(1, [])] }) (fun t => t.remapWord) = some 0x956 := by
  decide +kernel
/-- The first step after a word is placed runs it: `SLI s5, 0x55` leaves 0x55 in s5. -/
theorem test_step_runs : got (step (State.reset.withFetchWord 128 (encodeBits (.sli { zi with d := .s 5, imm := 0x55 })))) (fun t => ((mget {} t.groups 0).sreg 5).val) = some 0x55 := by
  decide +kernel

/-! ## Witnesses: barriers, continuations, remote sends, engines -/

theorem witness_BarriersAndRunnels :
    let bar (t : Machine.Bar) : State := { s0 with teams := [(0, { t1 with bars := [(5, t)] })] }
    let run (r : Runnel) : State := { s0 with teams := [(0, { t1 with rns := [(3, r)] })] }
    let o (r : Fin 64) : Ops := { z with a := .s r }
    let s := st { g1 with s := [(3, ⟨7, .clean⟩), (12, ⟨2048, .clean⟩), (13, ⟨0x08000800, .clean⟩)] }
    let b1 := bar { exp := 2, init := true, mask := 1 }
    let b2 := bar { exp := 1, init := true, mask := 1 }
    let bw := bar { exp := 2, init := true, mask := 1, ph := true, last := [(1, 0)] }
    let bo := bar { exp := 2, init := true, mask := 2 }
    let r1 := run { init := true, stages := 2, pc := 2, cc := 1 }
    let r2 := run { init := true, stages := 2, pc := 2, cc := 1, st := [(1, { full := true, ph := true, fullC := 1 })] }
    s0.Present ∧ s0.NobodyWaits ∧ s0.NoBinops ∧ s0.iss.act ≠ 0 ∧
    (let a := (s.uniA (o 12)).val.toNat; fld a 63 12 = 0 ∧ fld a 11 0 ≠ 0 ∧ fld a 11 0 ≤ 2048 ∧ (0x11 : BitVec 5) ≠ 0 ∧ ((1 : BitVec 5).getLsbD 4 = true → s.team.record.getLsbD 164 = true) ∧
      (s.team.bar 5).arr = 0) ∧
    (b1.Present ∧ (b1.team.bar 5).init = true ∧ g1.inMask (b1.team.bar 5).mask = true ∧ (b1.team.bar 5).arrived g1.member = false) ∧
    (b2.Present ∧ (b2.team.bar 5).arrived g1.member = false ∧ b2.iss.pi ≠ 1 ∧ (b2.team.bar 5).exp ≤ (b2.team.bar 5).arr + 1 + (b2.team.bar 5).exitd) ∧
    (bw.Present ∧ bw.grp.wait.kind ≠ .barrier ∧ mfind (bw.team.bar 5).last g1.member = some 0 ∧ decide (0 % 2 = 1) ≠ (bw.team.bar 5).ph) ∧
    (s0.team.bar 5).init = false ∧ (bo.Present ∧ (bo.team.bar 5).init = true ∧ g1.inMask (bo.team.bar 5).mask = false) ∧
    (let a := (s.uniA (o 13)).val.toNat; fld a 11 0 ≠ 0 ∧ fld a 11 0 ≤ 2048 ∧ fld a 27 16 ≠ 0 ∧ fld a 27 16 ≤ 2048 ∧ fld a 15 12 = 0 ∧ fld a 63 28 = 0 ∧
      ∀ y ∈ (s.team.rn 3).st, y.2 = ({} : Stage)) ∧
    (let r := r1.team.rn 3; let h : Stage := mget {} r.st (r.stageOf 7); r1.Present ∧ r.init = true ∧ h.full = false) ∧
    (let r := r2.team.rn 3; let h : Stage := mget {} r.st (r.stageOf 7); r2.Present ∧ r.init = true ∧ h.full = true ∧ h.ph = r.phaseOf 7) := by
  intro bar run o s b1 b2 bw bo r1 r2
  have h : s0.NobodyWaits := by unfold State.NobodyWaits Group.notWaiting; decide +kernel
  and_intros <;> first | rfl | decide +kernel | exact h | exact noBinops_of rfl
/-- A VD whose host tables map its first GiB onto itself, with the guest queue table at 0x30000: entry 0 is
a continuation queue on IQ 0, entry 1 a packet queue on IQ 1 whose ring lies at 0x40000 and whose status block at 0x50000. -/
def hbm2 : Mem := Mem.writeAll [] (loadTables ++ bytesAt 0x30000 (leBytes 32 (3 + 2 ^ 6)) ++
  bytesAt 0x30020 (leBytes 32 (1 + 2 ^ 6 + 2 ^ 8 + 0x40000 * 2 ^ 64 + 0x50000 * 2 ^ 128)))
def vd2 : VD := { st := .active, resident := true, hroot := 0x10000, groot := [(0, 0x20000)], gqtbase := 0x30000, hqt := [(0, 1 + 2 ^ 14), (1, 1 + 2 ^ 14)],
                  conts := [(0, { charged := some 0, band := 1 })] }
/-- Eight registers from s16: a record of one general group of 16 registers, with no join count, or with two. -/
def gs (join : Nat) : Group := { g1 with
  s := [(3, ⟨7, .clean⟩), (4, ⟨1, .clean⟩), (5, ⟨65536, .clean⟩), (18, ⟨BitVec.ofNat 64 join, .clean⟩), (20, ⟨1 + 16 * 2 ^ 12, .clean⟩)] }
def ss (join : Nat) : State := { st (gs join) with vds := [(0, vd2)], mem := { hbm := hbm2 } }
def oSpawn (b : Opnd) : Ops := { z with d := .s 30, a := .s 16, b := b }
def recOf (s : State) : BitVec 512 :=
  BitVec.ofNat 512 (((List.range 8).map fun j => s.uni (.s 16) none j).zipIdx.foldl (fun n e => n + (if e.2 = 3 then recBundle s.team.record else e.1.val.toNat) * 2 ^ (64 * e.2)) 0)
/-- Where the instructions of barriers and runnels wait, beside a second live group; and where a single group with a handler starves. -/
theorem witness_waitsAndStarves :
    let tw (g : Group) (t : Machine.Bar) (pi : Word) : State := let s := st g
      { s with groups := [(1, g), (2, { g1 with grpid := 2 })], teams := [(0, { t1 with bars := [(5, t)], rns := [(3, { init := true, stages := 2, pc := 2, cc := 1, st := [(1, { full := true, ph := true, fullC := 1 })] })] })], iss := { s.iss with pi := pi } }
    let b : Machine.Bar := { exp := 2, init := true, mask := 1 }
    let be : Machine.Bar := { b with last := [(1, 0)] }
    let w (x : Bool) : Group := { g1 with wait := { kind := .barrier, num := 5, woken := x } }
    let alone (g : Group) : State := { st g with teams := [(0, { t1 with bars := [(5, be)], rns := [(3, { init := true, stages := 2, pc := 2, cc := 1 })] })] }
    (∀ s ∈ [tw g1 b 0, tw g1 be 1, tw g1 be 0, tw (w true) b 0, tw (w false) b 0], s.Present ∧ s.NobodyWaits ∧ s.NoBinops ∧ s.iss.act ≠ 0 ∧ s.iss.replay = false ∧
      (∃ e ∈ s.groups, e.1 ≠ s.iss.key ∧ e.2.tid = s.grp.tid ∧ e.2.inMask (s.team.bar 5).mask = true) ∧ (s.team.bar 5).init = true ∧ s.grp.inMask (s.team.bar 5).mask = true) ∧
    (let s := tw g1 b 0; (s.team.bar 5).arrived s.grp.member = false ∧ s.iss.pi ≠ 1 ∧ ¬ (s.team.bar 5).exp ≤ (s.team.bar 5).arr + 1 + (s.team.bar 5).exitd ∧
      s.grp.wait.kind ≠ .barrier ∧ mfind (s.team.bar 5).last s.grp.member = none) ∧
    ((tw g1 be 1).iss.pi = 1 ∧ ((tw g1 be 1).team.bar 5).arrived g1.member = true ∧ (tw g1 b 1).iss.pi = 1 ∧ ((tw g1 b 1).team.bar 5).arrived g1.member = false) ∧
    (let s := tw g1 be 0; s.iss.pi ≠ 1 ∧ (s.team.bar 5).arrived s.grp.member = true ∧ s.grp.wait.woken = false ∧ s.grp.wait.kind ≠ .barrier ∧
      mfind (s.team.bar 5).last s.grp.member = some 0 ∧ decide (0 % 2 = 1) = (s.team.bar 5).ph) ∧
    ((tw (w true) b 0).grp.wait.kind = .barrier ∧ (tw (w true) b 0).grp.wait.woken = true ∧ (tw (w false) b 0).grp.wait.woken = false) ∧
    (let r := (tw g1 b 0).team.rn 3; r.init = true ∧ (mget ({} : Stage) r.st (r.stageOf 1)).full = !false ∧ (mget ({} : Stage) r.st (r.stageOf 0)).full = !true ∧
      ¬ ((mget ({} : Stage) r.st (r.stageOf 0)).full = !false ∧ (mget ({} : Stage) r.st (r.stageOf 0)).ph = r.phaseOf 0)) ∧
    (let s := alone gh; s.Present ∧ s.NobodyWaits ∧ s.NoBinops ∧ (s.groups.filter fun e => e.2.tid == s.grp.tid) = [(s.iss.key, s.grp)] ∧ s.HasHandler ∧ s.iss.replay = false ∧
      s.teamBusy s.grp.tid = false ∧ s.team.saved = none ∧ s.grp.wait.woken = false ∧ (s.team.bar 5).arrived s.grp.member = true ∧ s.iss.pi ≠ 1 ∧
      (let r := s.team.rn 3; r.init = true ∧ ¬ ((mget ({} : Stage) r.st (r.stageOf 0)).full = !false))) := by
  intro tw b be w alone
  simp only [State.Present, State.NobodyWaits, Group.notWaiting, State.NoBinops, List.forall_mem_cons, List.not_mem_nil, false_imp_iff, implies_true, and_true]
  and_intros <;> first | rfl | decide +kernel | exact ⟨by decide +kernel, by decide +kernel, by decide +kernel, by decide +kernel⟩
theorem witness_SpawnAndJoin :
    let w0 (s : State) := s.release 1 .dev
    let w (s : State) := (w0 s).tableDone (.group 1) 0
    let held (l : List CRecord) : State := { ss 0 with vds := [(0, { vd2 with conts := [(0, { charged := some 0, recs := l, nextSeq := 1 })] })] }
    let r (n : Nat) : CRecord := ⟨0, 0, BitVec.ofNat 512 (n * 2 ^ 128), 0, 0, 0, none⟩
    let full : State := held (List.replicate 64 ⟨0, 1, 0, 0, 0, 0, none⟩)
    let none9 : State := { s0 with vds := [(0, vd2)], mem := { hbm := hbm2 } }
    let gone : State := { ss 0 with vds := [(0, { vd2 with fault := { fben := true } })], mem := { hbm := bytesAt 0x10000 (List.replicate 8 0) } }
    let room (s : State) : Bool := ((w s).vd 0).contCap.admits (((w s).vd 0).savebase + 128 * ((mget ({} : CQueue) ((w s).vd 0).conts 0).nextSeq % 64)) 128 1 3
    (ss 0).iss.act ≠ 0 ∧ (ss 0).NoBinops ∧ (∀ j < 8, ((ss 0).uni (.s 16) none j).tag = .clean) ∧ ((ss 0).uniB (oSpawn .zero)).tag = .clean ∧
    65536 ≤ ((ss 0).uniB (oSpawn (.s 5))).val.toNat ∧ (∀ lq ∈ [0, 1, 8192, 65535], (w0 (ss 0)).awaitTable (.group 1) 0 lq = none) ∧
    (gone.NoBinops ∧ gone.iss.act ≠ 0 ∧ ((w0 gone).awaitTable (.group 1) 0 7).isSome = true) ∧
    (w (ss 0)).queueOf 0 8192 = none ∧ ((w (ss 0)).queueOf 0 1).map (fun q => (q.kind, q.iq)) = some (false, 1) ∧
    ((w (ss 0)).queueOf 0 0).map (fun q => (q.kind, q.iq, q.entries)) = some (true, 0, 64) ∧
    (∀ n ∈ [0, 2], (w (ss n)).recValid 0 (recOf (ss n)) 0 0 = true ∧ recFld (recOf (ss n)) 159 128 = n ∧ room (ss n) = true ∧ (w0 (ss n)).awaitTable (.group 1) 0 0 = none) ∧
    (w none9).recValid 0 (recOf none9) 0 0 = false ∧ (w0 none9).awaitTable (.group 1) 0 0 = none ∧ ((w none9).queueOf 0 0).map (fun q => q.kind) = some true ∧
    (((w full).queueOf 0 0).map (fun q => decide (q.entries ≤ 64)) = some true ∧ (w full).recValid 0 (recOf (ss 0)) 0 0 = true ∧ room full = true) ∧
    (let h (o : Opnd) := ((ss 0).uniA { z with a := o }).val.toNat
     fld (h .zero) 63 52 = 0 ∧ fld (h .zero) 51 48 = ((w0 (ss 0)).vd 0).inc.toNat ∧ (∀ e ∈ ((w0 (ss 0)).vd 0).conts, e.2.recs = []) ∧
     fld ((s0.uniA { z with a := .s 4 }).val.toNat) 63 52 ≠ 0 ∧
     ∀ n ∈ [0, 1, 2], let c : CQueue := { charged := some 0, recs := [r n], nextSeq := 1 }
       ((w0 (held [r n])).vd 0).conts = [(0, c)] ∧ (r n).lq = fld (h .zero) 15 0 ∧ (r n).seq = fld (h .zero) 47 16 ∧ recFld (r n).record 159 128 = n) := by
  intro w0 w held r full none9 gone room
  and_intros <;> first | exact noBinops_of rfl | decide +kernel
theorem witness_InboxesAndRemoteSends :
    let s := st { g1 with s := [(3, ⟨7, .clean⟩), (12, ⟨2 ^ 24, .clean⟩), (13, ⟨0x10000, .clean⟩), (14, ⟨1024, .clean⟩), (15, ⟨128, .clean⟩)] }
    let armed := st { g1 with ibc := [(1, { rem := 128, armed := true, wbase := 8, wcnt := 1 })], send := { pend := 63 } }
    let regs := (List.range 8).map fun j => s.grp.read32 none (.v 4) .none j
    s.iss.act ≠ 0 ∧ s.NoBinops ∧ (s.uniA { z with a := .s 3 }).tag = .clean ∧ (∀ r ∈ regs, r.dp = 0 ∧ r.fp = 0) ∧ fld (s.uni (.s 3) none).val.toNat 63 10 = 0 ∧
    s.grp.send.pend < 64 ∧ armed.grp.send.pend < 64 ∧ fld (s.uni (.s 14) none).val.toNat 63 10 ≠ 0 ∧
    (let e := (s.uniA { z with a := .s 12 }).val.toNat; let b := (s.uniB { z with b := .s 13 }).val.toNat
     (s.grp.inbox 1).armed = false ∧ e % 128 = 0 ∧ 128 ≤ e ∧ e ≤ 2 ^ 24 ∧ fld b 16 10 ≠ 0 ∧ fld b 16 10 ≤ 64 ∧ fld b 63 17 = 0 ∧ fld b 9 0 + fld b 16 10 ≤ s.grp.ngen ∧
     ∀ y ∈ s.grp.ibc, y.1 ≠ 1 → y.2.armed = true → windowsMeet (fld b 9 0) (fld b 16 10) y.2.wbase y.2.wcnt = false) ∧
    (armed.grp.inbox 1).armed = true ∧ armed.grp.wait = {} ∧ armed.iss.pi = 0 ∧ armed.iss.replay = false ∧
    (let fell := st { armed.grp with wait := { kind := .inbox, num := 1, due := some 0 } }
     (fell.grp.inbox 1).armed = true ∧ fell.grp.wait.kind = .inbox ∧ fell.grp.wait.due = some 0 ∧ 0 ≤ fell.clkOf fell.grp.core) ∧
    (let near : State := { st { s.grp with s := [(3, ⟨0x1234, .clean⟩)] } with names := [(0x1234, .resident)] }
     let lost : State := { near with remapWord := 0 }
     let a := (near.uniA { z with a := .s 3 }).val
     nameDev a = near.devNum ∧ near.serviceDie a = some 0 ∧ near.dieOk 0 = true ∧ lost.serviceDie a = some 0 ∧ lost.dieOk 0 = false) := by
  refine ⟨by decide +kernel, noBinops_of rfl, ?_⟩; and_intros <;> decide +kernel
/-- A group whose s registers hold engine operands: global and scratchpad addresses, extents, an object. -/
def ge : Group := { g1 with
  s := [(4, ⟨0x2000, .clean⟩), (5, ⟨0xFFFFFF0000000000, .clean⟩), (6, ⟨2 ^ 31, .clean⟩), (7, ⟨0xFFFFFF0000008000, .clean⟩), (8, ⟨64, .clean⟩),
        (9, ⟨16 + 4 * 2 ^ 32, .clean⟩), (10, ⟨0, .clean⟩), (11, ⟨2 + 8 * 2 ^ 16 + 8 * 2 ^ 32, .clean⟩), (12, ⟨8, .clean⟩), (13, ⟨1, .clean⟩), (14, ⟨0x8000, .clean⟩)] }
def se : State := { st ge with vds := [(0, { vd2 with comms := [(5, ⟨0, [(0, 0), (1, 0)], 9⟩)] })], mem := { hbm := hbm2 } }
theorem witness_EngineCommands :
    let o (a b c m : Opnd) : EngOps := ⟨none, a, b, c, m⟩
    let x (o : EngOps) := se.engSrc o
    let clean (o : EngOps) : Prop := (x o).a.tag = .clean ∧ (x o).b.tag = .clean ∧ (x o).c.tag = .clean ∧ (x o).m.tag = .clean
    let d : Nat := CollOp.allReduce.code + CollTy.f32.code * 64 + 5 * 2 ^ 12 + 2 * 2 ^ 38
    se.iss.act ≠ 0 ∧ se.NoBinops ∧ se.outstanding 1 < 32 ∧
    clean (o (.s 4) (.s 5) .zero (.s 7)) ∧ se.engineRefused 0x180 none (.s 7) 0xFFFFFF0000008000 [{ va := 0x2000, n := 0, acc := 0 }, { va := 0xFFFFFF0000000000, n := 0, acc := 1 }] none = none ∧
    clean (o (.s 4) (.s 5) (.s 8) .zero) ∧ se.engineRefused 0x180 none .zero 0 [{ va := 0x2000, n := 64, acc := 0 }, { va := 0xFFFFFF0000000000, n := 64, acc := 1 }] none = none ∧
    se.scoresFree (se.scoreOf 0x2000 64 false ++ se.scoreOf 0xFFFFFF0000000000 64 true) = true ∧
    se.engineRefused 0x180 none .zero 0 [{ va := 0x2000, n := 2 ^ 31, acc := 0 }, { va := 0x8000, n := 2 ^ 31, acc := 1 }] none = none ∧ se.scoresFree (se.scoreOf 0x2000 (2 ^ 31) false ++ se.scoreOf 0x8000 (2 ^ 31) true) = true ∧
    se.engineRefused 0x181 none (.s 7) 0xFFFFFF0000008000 [{ va := 0x2000, n := 3 * 32 + 16, acc := 0 }, { va := 0xFFFFFF0000000000, n := 3 * 16 + 16, acc := 1 }] none = none ∧
    se.engineRefused 0x182 none .zero 0 [{ va := 0xFFFFFF0000000000, n := 4 * 16, acc := 1 }, { va := 0x2000, n := 4 * 4, acc := 0 }] none = none ∧
    se.engineRefused 0x183 (se.tileReason 0 2 8 false) .zero 0 [{ va := 0x2000, n := 1, acc := 0, globalOnly := true }] none = none ∧ windowOf 0x2000 = .global ∧ fld 0 23 20 < se.team.cores.length ∧
    se.engineRefused 0x184 (se.tileReason 0 2 8 true) .zero 0 [{ va := 0x2000, n := 1, acc := 1, globalOnly := true }] none = none ∧
    mfind (se.vd 0).comms 5 = some ⟨0, [(0, 0), (1, 0)], 9⟩ ∧ collReason (some ⟨0, [(0, 0), (1, 0)], 9⟩) d 64 = none ∧ 0x2000 % 8 = 0 ∧
    globalRange 0x2000 (collSrcBytes ⟨0, [(0, 0), (1, 0)], 9⟩ d 64) = true ∧ globalRange 0x2000 (collDstBytes ⟨0, [(0, 0), (1, 0)], 9⟩ d 64) = true ∧ globalRange 0x2000 8 = true ∧
    se.awaitTable (.group 1) 0 1 = none ∧ ((se.tableDone (.group 1) 0).queueOf 0 1).map (fun q => q.kind) = some false ∧ 0x8000 % 16384 = 0 ∧ windowOf 0x8000 = .global := by
  refine ⟨by decide +kernel, noBinops_of rfl, ?_⟩; and_intros <;> decide +kernel
/-- The binning context of `witness_ContextsAndCompletions` lies at VA 0x4000; its word 3 and the completion word at 0x2000 have been written. -/
def sc : State := { st { ge with v := [(4, ⟨.affine 0 132, 0, 0⟩), (5, ⟨.uniform 1, 0, 0⟩)],
                                 s := [(4, ⟨0x4000, .clean⟩), (5, ⟨3, .clean⟩), (6, ⟨0x2000, .clean⟩), (7, ⟨9, .clean⟩), (8, ⟨10, .clean⟩), (9, ⟨4095, .clean⟩)] } with
                    mem := { hbm := Mem.writeAll [] (bytesAt 0x1002000 (leBytes 8 9) ++ bytesAt 0x100400C (leBytes 4 77)) } }
theorem witness_ContextsAndCompletions :
    let o : Ops := { z9 with d := .v 10, a := .v 4, b := .s 4, c := .v 5 }
    let q : Ops := { z with d := .s 30, a := .s 4, b := .s 5 }
    let w (b : Opnd) : Ops := { z with d := .s 30, a := .s 6, b := b }
    let reached (t : Nat) : Prop := (fld (sc.loadN sc.grp .dev (locG 0x2000) 8).1 31 0 + 2 ^ 32 - t) % 2 ^ 32 < 2 ^ 31
    sc.iss.act ≠ 0 ∧ sc.groupReqs 1 = [] ∧ o.d.reg < sc.grp.ngen ∧ ((sc.srcA o false).dp ||| (sc.srcA o false).fp) &&& sc.iss.act = 0 ∧ (sc.srcC o false).fp &&& sc.iss.act = 0 ∧
    (sc.uniB o).tag = .clean ∧ (sc.uniB o).val.toNat % 16384 = 0 ∧ windowOf (sc.uniB o).val.toNat = .global ∧
    sc.locate (lowLane sc.iss.act) 0x4000 2 (fun p => (p, 4)) = (.ok (locG 0x4000), sc) ∧ (locG 0x4000).space = .hbm ∧ (locG 0x4000).dieCoh = false ∧
    (∀ l < 32, sc.iss.act.getLsbD l = true → (sc.srcA o false).w l ≤ 4095) ∧
    (sc.uniA q).tag = .clean ∧ (sc.uniB q).tag = .clean ∧ (sc.uniB q).val.toNat ≤ 4095 ∧ (sc.uniB { q with b := .s 9 }).val.toNat ≤ 4095 ∧ (sc.uniA q).val.toNat % 16384 = 0 ∧
    sc.locate (lowLane sc.iss.act) (0x4000 + 4 * 3) 0 (fun p => (p, 4)) = (.ok (locG 0x400C), sc) ∧ (sc.loadN sc.grp .dev (locG 0x400C) 4).2 = false ∧
    sc.locate (lowLane sc.iss.act) (0x4000 + 4 * 3) 2 (fun p => (p, 4)) = (.ok (locG 0x400C), sc) ∧ ((sc.beforeRmw 1 (locG 0x400C)).pointRead sc.grp (locG 0x400C) 4).2 = false ∧
    (sc.onceEa (w (.s 7))).1.tag = .clean ∧ sc.OnceReady (sigAccess 0 .dev .rlx) (sc.onceEa (w (.s 7))).2 (locG 0x2000) sc ∧
    (sc.loadN sc.grp .dev (locG 0x2000) 8).2 = false ∧ reached (fld (sc.uniB (w (.s 7))).val.toNat 31 0) ∧ ¬ reached (fld (sc.uniB (w (.s 8))).val.toNat 31 0) ∧
    sc.grp.wait = {} ∧ sc.iss.pi = 0 ∧ sc.iss.replay = false ∧
    (let l : State := { sc with groups := [(1, { sc.grp with wait := { kind := .clwait, due := some 0 } })] }
     l.OnceReady (sigAccess 0 .dev .rlx) (sc.onceEa (w (.s 8))).2 (locG 0x2000) l ∧ (l.loadN l.grp .dev (locG 0x2000) 8) = sc.loadN sc.grp .dev (locG 0x2000) 8 ∧
       l.grp.wait.kind = .clwait ∧ l.grp.wait.due = some 0 ∧ 0 ≤ l.clkOf l.grp.core) := by
  intro o q w reached
  have h : sc.OnceReady (sigAccess 0 .dev .rlx) (sc.onceEa (w (.s 7))).2 (locG 0x2000) sc := once_of (by decide +kernel)
  and_intros <;> first | decide +kernel | exact h | exact once_of (by decide +kernel)
theorem witness_TileTransfers :
    let s := st { g1 with s := [(3, ⟨0x3FC00 - 0x400, .clean⟩), (4, ⟨0x1FF, .clean⟩), (5, ⟨0, .clean⟩)] }
    s.Present ∧ s.iss.act ≠ 0 ∧ (s.uniA { z9 with a := .s 5 }).tag = .clean ∧ s.tileRefused 0 8 false = none ∧ s.tileRefused 0 8 true = none ∧
    (st g1 1).tileRefused 0x1FF 8 true = none ∧ s.team.windows = [] ∧ (Opnd.v 56).reg + 8 ≤ s.grp.ngen ∧
    (∀ j < 8, ((s.srcBfield { z9 with b := .v 4 } false j).fp ||| s.iss.gfp) &&& s.iss.act = 0) := by
  refine ⟨⟨rfl, rfl⟩, ?_⟩; decide +kernel

/-! ## Witnesses: objects, the stream, what units do by themselves -/

/-- An object at 0x200 of the scratchpad, and s21 its address. -/
def so (o : MbObj) (n : DWord) : State := (st { gm with s := [(3, ⟨n, .clean⟩), (21, ⟨0xFFFFFF0000000200, .clean⟩)] }).mbWrite 0x200 o
theorem witness_BarrierObjects :
    let o : Ops := { z with d := .s 5, a := .s 21, b := .s 3 }
    let fresh : MbObj := ⟨0, 0, 2, 0, false, false, false, false⟩
    let s := st { gm with s := [(3, ⟨65535, .clean⟩), (21, ⟨0xFFFFFF0000000200, .clean⟩)] }
    let x (s : State) := (s.drain 1).mbRead (objAddr 0 (s.uniA o).val)
    let ready (s : State) : Prop := (s.drain 1).mbInit (objAddr 0 (s.uniA o).val) = true
    s.iss.act ≠ 0 ∧ s.NoBinops ∧ (so fresh 1).NoBinops ∧ (s.uniA o).tag = .clean ∧ (s.uniB o).tag = .clean ∧
    s.Admits { n := 16, acc := 2, sc := .core, acq := false, rel := false, win := .scratchOnly } (s.uniA o).val.toNat ∧
    (s.drain 1).mbInit (objAddr 0 (s.uniA o).val) = false ∧ (s.uniB o).val.toNat ≠ 0 ∧ (s.uniB o).val.toNat ≤ 65535 ∧
    (ready (so fresh 1) ∧ (x (so fresh 1)).arr = 0 ∧ (x (so fresh 1)).expb = 0 ∧ (x (so fresh 1)).arrb = 0) ∧
    (ready (so ⟨0xFFFFFFFE, 0, 2, 1, false, false, false, false⟩ 1) ∧ (x (so ⟨0xFFFFFFFE, 0, 2, 1, false, false, false, false⟩ 1)).expb + 1 < 2 ^ 32 ∧
      (x (so ⟨0xFFFFFFFE, 0, 2, 1, false, false, false, false⟩ 1)).arr + 1 ≤ 2) ∧
    (∀ arrb ∈ [0, 1], let y := so ⟨0, arrb, 2, 2, false, false, false, false⟩ 1
      ready y ∧ (x y).expb + 1 < 2 ^ 32 ∧ ((x y).arr = (x y).acnt ∧ (x y).arrb = (x y).expb + 1 ↔ arrb = 1)) ∧
    (let u := so { fresh with ph := true } 1; let q : State := { u with groups := u.groups.map fun e => (e.1, { e.2 with wait := { kind := .object, due := some 0 } }) }
     ready u ∧ (x u).ph = (u.uniB o).val.getLsbD 0 ∧ u.grp.wait = {} ∧ u.iss.pi = 0 ∧ u.iss.replay = false ∧
     ready q ∧ (x q).ph = (q.uniB o).val.getLsbD 0 ∧ q.grp.wait.kind = .object ∧ q.grp.wait.due = some 0 ∧ 0 ≤ q.clkOf q.grp.core) ∧
    (x (so fresh 2)).arr + 2 ≤ (x (so fresh 2)).acnt ∧ (x (so fresh 1)).ph ≠ (1 : DWord).getLsbD 0 ∧ (x (so fresh 2)).ph = (2 : DWord).getLsbD 0 := by
  intro o fresh s x ready
  have h : s.Admits { n := 16, acc := 2, sc := .core, acq := false, rel := false, win := .scratchOnly } (s.uniA o).val.toNat :=
    ⟨by decide +kernel, by decide +kernel, by decide +kernel⟩
  and_intros <;> first | exact h | exact noBinops_of rfl | decide +kernel
/-- A stream, whose team holds four matrix groups of 64 registers in its record. -/
def gt : Group := { g1 with role := .stream, grpid := 4095, pcs := [some 0x100], s := [(4, ⟨0, .clean⟩), (5, ⟨0, .clean⟩), (7, ⟨128, .clean⟩), (8, ⟨384, .clean⟩), (9, ⟨1, .clean⟩)] }
def tx (q : List MStep) : Team := { t1 with record := BitVec.ofNat 512 (2 ^ 164 + (4 + 64 * 2 ^ 12) * 2 ^ 384), queue := q }
def sx (q : List MStep) : State := { st gt 1 with teams := [(0, tx q)] }
def step0 : MStep := { zero := true, quant := false, ty := .f32, mcw := 0, aw := 0, bw := 0, cw := 0, quar := false, astride := 0, pc := 0, dirty := [] }
theorem witness_MatrixStream :
    let o : MatOps := ⟨.s 4, .s 5, .s 7⟩
    let x := (sx []).matSrc o
    let q : Ops := { z with d := .s 30, a := .s 8 }
    (sx []).Present ∧ (sx [step0]).Present ∧ (sx []).team.queue.length < 4 ∧ (sx [step0, step0, step0]).team.queue.length < 4 ∧
    x.1.tag = .clean ∧ x.2.1.tag = .clean ∧ x.2.2.tag = .clean ∧
    mmaSub (sx []).team false (mcwOf .bf16 .bf16 false false false true 0 false false) x.1.val x.2.1.val x.2.2.val = none ∧
    mmaSub (sx []).team true (mcwOf .int8 .int8 false false false true 1 false true) x.1.val x.2.1.val x.2.2.val = none ∧
    mmaSub (sx []).team false 0 x.1.val x.2.1.val 1 = some 1 ∧
    ((sx []).uniA q).tag = .clean ∧ cwordBad (sx []).team ((sx []).uniA q).val = false ∧ (sx []).team.queue = [] ∧ (sx []).team.windows = [] ∧
    ((sx [step0]).team.queue ≠ [] ∧ (sx [step0]).iss.replay = false) ∧
    (let e : Group := { g1 with role := .matrix, win := [⟨32, 8, 0⟩] }
     let s : State := { sx [] with groups := [(1, gt), (2, e)] }
     s.Present ∧ s.team.queue = [] ∧ (2, e) ∈ s.groups ∧ 2 ≠ s.iss.key ∧ mfind s.groups 2 = some e ∧ e.winsOf 4 = [] ∧ e.winsOf 32 ≠ [] ∧ e.tid = s.grp.tid ∧ e.role = .matrix) ∧
    (∀ m ∈ (sx [step0]).team.queue, mRbase m.cw ≠ fld ((sx []).uniA q).val.toNat 8 0) ∧
    (List.range (sx []).team.cores.length).map (fun k => (sx []).sideSlot (tileRow 0 k 384) 0) ≠ [] := by
  refine ⟨⟨rfl, rfl⟩, ⟨rfl, rfl⟩, ?_⟩; and_intros <;> decide +kernel
def w1 : QStore := ⟨.hbm, false, bytesAt 0x1002000 [1, 2], [], [], 0, false⟩
/-- A dirty copy of the sector it lies in. -/
def c0 : L2Copy := { die := 0, sector := 0x10020, data := bytesAt 0x1002000 [5], dirty := [0x1002000], dieCoh := true, vd := 0, poison := false }
theorem witness_MemoryTraffic :
    let g : Group := { g1 with aging := 256, pcs := (List.range 32).map fun l => some (if l = 3 then 0x202 else 0x100), sq := [w1] }
    let s : State := { st g with mem := { fwd := [⟨0, w1⟩], acks := [⟨1, w1⟩], scrubRead := [(0x10020, true)],
                                          l2 := [c0] } }
    mfind s.groups 1 = some g ∧ s.OnCore g ∧ g.agingDue = true ∧ g.pcs.getD ((g.agingPtr + 1 + 3) % 32) none = some 0x202 ∧
    ¬ (minPc g.livePcs = some (0x202 : DWord) ∨ s.atConvergence g 0 0x202 = true) ∧
    (∀ j < 3, ∀ x : DWord, g.pcs.getD ((g.agingPtr + 1 + j) % 32) none = some x → minPc g.livePcs = some x) ∧ g.sq = w1 :: [] ∧ w1.space = .hbm ∧ s.mem.l2.length + w1.sectors.length ≤ Config.l2Lines ∧
    (mfind s0.groups 1 = some g1 ∧ ∀ j < 32, g1.pcs.getD ((g1.agingPtr + 1 + j) % 32) none = some 0x100 ∧ minPc g1.livePcs = some 0x100) ∧
    mfind s.fenced 1 = none ∧ 0x10020 ∉ s.mem.damaged ∧ (let u : State := { s with mem := { s.mem with damaged := [0x10020] } }; 0x10020 ∈ u.mem.damaged) ∧
    (s.mem.fwd.find? fun x => x.die == 0) = some ⟨0, w1⟩ ∧ (s.mem.acks.find? fun x => x.die == 1) = some ⟨1, w1⟩ ∧
    s.mem.l2Find 0 0x10020 = some c0 ∧ 0x10020 < 2 ^ 31 ∧ 2 ^ 31 - 1 < 2 ^ 31 ∧
    mfind s.mem.scrubRead 0x10020 = some true ∧ mfind s.mem.scrubRead 0 = none := by
  intro g s
  have hp : ∀ j < 3, g.pcs.getD ((g.agingPtr + 1 + j) % 32) none = some 0x100 := by decide +kernel
  have hm : minPc g.livePcs = some 0x100 := by decide +kernel
  refine ⟨by decide +kernel, ⟨by decide +kernel, by decide +kernel, by decide +kernel⟩, by decide +kernel, by decide +kernel, by decide +kernel, ?_, by decide +kernel⟩
  intro j hj x h
  rw [hp j hj] at h
  rw [hm, h]
/-- What an access of lane 0 to `aG`'s address needs before its translation, and where that leads. -/
def leadsTo (s : State) (m : Access) (k : LaneAt → Bool) : Bool :=
  let ea := (s.lanesEa aG false fun _ => m.n).getD 0 0
  s.iss.act == 1 && s.iss.pend == 1 && s.iss.pi == 0 && s.iss.stop == none && !s.iss.replay && ea % m.n == 0 && m.win.takes (windowOfN ea m.n) && s.boundCode ea m.n == none &&
  m.dst.all (fun d => decide (d < s.grp.ngen)) && !s.stalled m [(0, ea)] && s.groupReqs s.iss.key == [] && mfind s.groups s.iss.key == some s.grp &&
  (s.addrConsumed aG true 1 ++ [s.dataConsumed (s.srcBfield aG false) aG.b 1]).all (fun x => (x.fp ||| x.dp) &&& x.lanes == 0) && k (s.locate 0 ea m.acc (spanOf m.n)).1
/-- The machine with a fault buffer, of which `n` entries are written, where no host table maps the address; and one whose page permits nothing, with a handler. -/
def one (s : State) : State := { s with iss := { s.iss with pend := 1 } }
def sfb (n : Word) : State :=
  let v : VD := { vd2 with fault := { fben := true, fblog := 0, fbprod := n } }
  one { sm with tlb := [], mem := { hbm := bytesAt 0x10000 (List.replicate 8 0) }, vds := [(0, v)] }
def srf : State := one { st { gm with tvec := 0x800, tarea := 0xFFFFFF0000000000 } 1 with tlb := [{ e1 with gperm := 0 }] }
def mSt : Access := { n := 4, acc := 1, sc := .dev, acq := false, rel := false, score := true }
def mLd : Access := { n := 4, acc := 0, sc := .dev, acq := true, rel := false, defer := true, score := true, dst := [10] }
/-- Whether a translation is replayable, and whether it is refused; and the state it leaves. -/
def isRepl (x : LaneAt) : Bool := match x with | .repl _ => true | _ => false
def isRefused (x : LaneAt) : Bool := match x with | .refused _ => true | _ => false
def located (s : State) (m : Access) : State := (s.locate 0 ((s.lanesEa aG false fun _ => m.n).getD 0 0) m.acc (spanOf m.n)).2
theorem witness_faultPath :
    (leadsTo (sfb 0) mSt isRepl = true ∧ ((located (sfb 0) mSt).vd 0).fault.fbRoom = true ∧ ((located (sfb 0) mSt).vd 0).fault.reqs = []) ∧
    (leadsTo (sfb 0) mLd isRepl = true ∧ ((located (sfb 0) mLd).vd 0).fault.fbRoom = true ∧ ((located (sfb 0) mLd).vd 0).fault.reqs = []) ∧
    (leadsTo (sfb 64) mSt isRepl = true ∧ ((located (sfb 64) mSt).vd 0).fault.fbRoom = false) ∧
    (leadsTo (sfb 64) mLd isRepl = true ∧ ((located (sfb 64) mLd).vd 0).fault.fbRoom = false ∧ ((located (sfb 64) mLd).vd 0).fault.reqs = []) ∧
    leadsTo srf mSt isRefused = true ∧ leadsTo srf mLd isRefused = true ∧ srf.HasHandler ∧ (located srf mSt).HasHandler ∧ (located srf mLd).HasHandler := by
  and_intros <;> first | decide +kernel | (constructor <;> decide +kernel)
theorem witness_PagerAndRegisters :
    let r (tok : Option Word) (df : Bool) : FaultReq := { origin := .group 1, token := tok, failed := false, deferred := df, kind := 2, acc := 0, src := 0, asid := 0, gpav := false, tbl := false, level := 1, va := 0x1000, gpa := 0, lanes := 1 }
    let f : FaultBlock := { fben := true, fblog := 0, nextseq := 8, reqs := [r (some 7) false, r (some 7) true], fbprod := 5 }
    let s : State := { s0 with vds := [(0, { st := .active, fault := f, raising := [31], modes := 4 }), (1023, { st := .defined, fault := f })] }
    0 < 1024 ∧ 1023 < 1024 ∧ f.recent 7 = true ∧ (∃ q ∈ (s.vd 0).fault.reqs, q.token = some ((7 : DWord).setWidth 32) ∧ q.failed = false) ∧ (7 : DWord).getLsbD 32 = false ∧
    (7 + 2 ^ 32 : DWord).getLsbD 32 = true ∧ (∀ q ∈ (s.vd 0).fault.reqs, ¬ (q.token = some ((8 : DWord).setWidth 32) ∧ q.failed = false)) ∧
    (s.vd 0).fault.fbSize < ((s.vd 0).fault.fbprod - 6).toNat ∧ ¬ (s.vd 0).fault.fbSize < ((s.vd 0).fault.fbprod - 5).toNat ∧
    (∀ q ∈ (s.vd 0).fault.reqs, q.token.isSome = true) ∧ (s.vd 0).fault.dlheld = [] ∧ (s.vd 1023).modes.getLsbD 2 = false ∧ (s.vd 0).modes.getLsbD 2 = true ∧
    (s.vd 1023).st ≠ .free ∧ (2 ≠ 4 ∧ 2 ≠ 8) ∧ 0x14 % 8 ≠ 0 ∧ 31 ∈ (s.vd 0).raising ∧ s.unperformed 0 = false ∧
    ({ s with groups := [(1, { g1 with sq := [w1] })] } : State).unperformed 0 = true ∧
    (let p : PageIn := { host := 0x8000, page := 0x10000, size := 0x10000, pte := 0x12000 + 0x20000, entry := 0x100BD }
     (s.vd 1023).modes.getLsbD 1 = false ∧ p.page + p.size ≤ Config.hbmBytes ∧ p.pte + 8 ≤ Config.hbmBytes ∧ p.page + p.size ≤ p.pte) := by decide +kernel
theorem witness_TimeoutsAndPendingCauses :
    let e (c : Nat) (region : Nat) : Pending := ⟨c, 1, 2, 3, region⟩
    let rg : Region := ⟨0x900, 0xFFFF, 0, 7⟩
    let w (k : WaitKind) (due : Option Nat) := { g1 with wait := { kind := k, due := due } }
    let h (c : Nat) : Group := { gh with errs := [e c 5], naks := [e 12 0], regions := if c = 15 then [] else [rg] }
    let u (c : Nat) : Group := { g1 with errs := [e c 7], regions := [rg] }
    (∀ k ∈ [WaitKind.sigwait, .inbox, .object, .clwait, .sleep], mfind (st (w k (some 0))).groups 1 = some (w k (some 0)) ∧ (w k (some 0)).wait.due = some 0 ∧ 0 ≤ (st (w k (some 0))).clkOf 0) ∧
    (w .sigwait (some 1)).wait.due = some 1 ∧ ¬ 1 ≤ s0.clkOf 0 ∧ g1.wait.due = none ∧
    (∀ c ∈ [9, 13, 15, 16], (st (h c)).CanTrap 1 (h c) ∧ (st (h c)).OnCore (h c) ∧ (h c).errs = e c 5 :: [] ∧ (h c).naks = e 12 0 :: []) ∧
    (∀ x ∈ (h 13).regions, x.ident ≠ (e 13 5).region) ∧ (h 15).regions = [] ∧
    (mget ({} : Team) s0.teams 0).saved = none ∧
    (∀ c ∈ [13, 15], (st (u c)).OnCore (u c) ∧ (u c).role ≠ .stream ∧ (u c).errs = e c 7 :: [] ∧ (u c).regions = rg :: [] ∧ (e c 7).region = rg.ident ∧ (e c 7).region ≠ 0) := by
  intro e rg w h u
  refine ⟨by decide +kernel, rfl, by decide +kernel, rfl, ?_, by decide +kernel, by decide +kernel, rfl, ?_⟩
  · intro c hc
    simp only [List.mem_cons, List.not_mem_nil, or_false] at hc
    rcases hc with rfl | rfl | rfl | rfl <;>
    exact ⟨by constructor <;> decide +kernel, by constructor <;> decide +kernel, by and_intros <;> decide +kernel⟩
  · intro c hc
    simp only [List.mem_cons, List.not_mem_nil, or_false] at hc
    rcases hc with rfl | rfl <;> exact ⟨⟨by decide +kernel, by decide +kernel, by decide +kernel⟩, by decide +kernel⟩

/-! ## Witnesses: engines, jobs, other devices -/

def cp0 : CopyCmd := { id := 5, key := some 1, job := none, tid := 0, vd := 0, asid := 0, die := 0, kind := .linear, opc := 0x180, src := 0xFFFFFF0000000000,
                       dst := 0xFFFFFF0000000400, obj := 0, ord := false, region := 7, units := 64, left := [(0, 64)], moved := 0, stopped := false, cancelled := false, scores := [] }
def sj : State := { s0 with tlb := [e1, { e1 with core := none }] }
/-- A bundle packet of type 6 (R363) at FETCH whose patch bin is word 1 of the context at 0x4000, in a ring at 0x40000. -/
def pk6 : Packet := { bytes := (leBytes 8 (6 + 2 ^ 9) ++ List.replicate 48 0 ++ leBytes 8 1 ++ List.replicate 64 0), phase := .fetched, pp := true,
                      ent := { iq := 1, rlog := 6, ring := 0x80000, stat := 0x50000 } }
def bj : BinJob := ⟨9, 1, 0, 0, 0, 1, 0x4000, false, 1, 5, 0⟩
def sp (bin : Nat) : State := { sj with vds := [(0, { st := .active, resident := true, queues := [(1, { fetch := 1, pkts := [(0, pk6)] })] })], binjobs := [bj],
                                        mem := { hbm := Mem.writeAll [] (bytesAt 0x1004004 (leBytes 4 bin) ++ bytesAt 0x1040040 (leBytes 8 0)) } }
def en1 : Entry := { pc := 0x100, bits := 0, pend := 1 <<< 3, act := all, pi := 0, valid := true, trapped := false, dp := 0, fp := 0, slots := [] }
def bo1 : BinOp := ⟨4, 1, 10, 0x1004000, 0, 0, en1, List.replicate 32 2, List.replicate 32 3, 0⟩
/-- A broadcast from rank 1 of a communicator of two ranks. -/
def cj : CollJob := { id := 6, key := none, job := none, vd := 0, asid := 0, die := 0, desc := BitVec.ofNat 64 (3 + 5 * 2 ^ 12 + 1 * 2 ^ 28 + 2 * 2 ^ 38), cnum := 5, seq := 9,
                      src := 0x2000, dst := 0x3000, count := 64, sig := 0, sys := false, ord := false, region := 0, startNs := 100, cancelled := false }
def sq1 : State := { sj with vds := [(0, { st := .active, resident := true, comms := [(5, ⟨0, [(0, 0), (1, 0)], 9⟩)] })], colls := [cj] }
/-- One that a group issued, with its signal word at 0x2000; the machine once it has failed. -/
def cjs : CollJob := { cj with key := some 1, sig := 0x2000 }
def sgn (m : List OutMsg) : State := { sq1 with msgs := m, colls := [{ cjs with reason := 7 }] }
theorem witness_EngineAndJobEvents :
    let sc (c : CopyCmd) : State := { s0 with copies := [c] }
    let fr : FaultReq := { origin := .engine 5, token := none, failed := true, deferred := false, kind := 2, acc := 0, src := 1, asid := 0, gpav := false, tbl := false, level := 1, va := 0x1000, gpa := 0, lanes := 0 }
    let sf : State := { sc cp0 with vds := [(0, { st := .active, fault := { reqs := [fr] } })] }
    let rd : RankData := ⟨1, cj.desc, 64, (List.range 64).map fun i => BitVec.ofNat 8 i, []⟩
    let inPart (x n : Nat) : Prop := windowOf x = .scratch ∧ (x - scratchBase) / 2 ^ 18 < (mget {} (sc cp0).teams 0).cores.length ∧
      (x - scratchBase) % 2 ^ 18 + n ≤ (mget {} (sc cp0).teams 0).scratch ∧ x / 65536 = (x + n - 1) / 65536
    ((sc cp0).copyOf 5 = some cp0 ∧ (sc cp0).mayStart cp0 = true ∧ (sc cp0).copyFailed cp0 = none ∧ (∃ r ∈ cp0.left, r.1 ≤ 16 ∧ 16 + 48 ≤ r.1 + r.2) ∧
      inPart (cp0.src.toNat + 16) 48 ∧ inPart (cp0.dst.toNat + 16) 48 ∧ (∀ i < 48, ¬ (cp0.src.toNat ≤ cp0.dst.toNat + 16 + i ∧ cp0.dst.toNat + 16 + i < cp0.src.toNat + cp0.units)) ∧
      ∀ i < 48, (sc cp0).mbInit (objAddr 0 (BitVec.ofNat 64 (cp0.dst.toNat + 16)) + i) = false) ∧
    ((sc { cp0 with left := [] }).copyOf 5 = some { cp0 with left := [] } ∧ (sc { cp0 with left := [] }).Awake 0) ∧
    (sf.copyOf 5 = some cp0 ∧ sf.mayStart cp0 = true ∧ sf.copyFailed cp0 = some fr ∧ mfind sf.groups 1 = some g1) ∧
    (let s : State := { s0 with binops := [bo1] }
     (s.binops.find? fun x => x.id == 4) = some bo1 ∧ mfind s.groups bo1.key = some g1 ∧ lanesOf bo1.entry.pend = [3] ∧ bo1.cdp = 0 ∧ bo1.reg < g1.ngen ∧
     g1.winOf bo1.reg = none ∧ s.Awake (bo1.key / 4096) ∧ ∀ i < 4, ((s.drain bo1.key).flushDie bo1.die).mem.cisternPoison (sectorOf (bo1.ctx + 4 * bo1.idx.getD 3 0 + i)) = false) ∧
    ((sp 100).binjobs.find? (fun x => x.id == 9) = some bj ∧ ((sp 100).queue 0 1).patchList 1 = [(0, pk6)] ∧ pk6.checked = true ∧ pk6.bytes.length = 128 ∧
      ∃ ls u, (sp 100).patchPlaces bj 0 pk6 = (.ok ls, u) ∧ mfind (u.queue 0 1).pkts 0 = some pk6 ∧ u.Awake (bj.key / 4096) ∧
        (∀ e ∈ ls.getD 0 [], (u.flushDie 0).feBad e.1 e.2 = false) ∧
        leNat ((u.flushDie 0).feBytes (ls.getD 0 [])) = 100 ∧ (100 + 2 ^ bj.gsh - 1) / 2 ^ bj.gsh ≤ 2 ^ 24) ∧
    (sq1.colls.find? (fun x => x.id == 6) = some cj ∧ cj.key = none ∧ cj.reason = 0 ∧ cj.cancelled = false ∧ sq1.collWaits cj = false ∧ sq1.jobFailed 0 (.engine 6) = none ∧
      (let d := cj.desc.toNat
       let c : Comm := mget ⟨0, [], 0⟩ (sq1.vd 0).comms 5
       collOp d = 3 ∧ collRoot d ≠ c.myRank ∧ collRoot d < c.ranks.length ∧ (∀ r < c.ranks.length, r ≠ c.myRank → ∃ x ∈ [rd], x.rank = r) ∧ (∀ x ∈ [rd], collAgrees d 64 x = true) ∧
       ([rd].find? fun y => y.rank == collRoot d) = some rd ∧ rd.poisoned = [] ∧ rd.bytes.length = 64 ∧ 64 ≤ collChunk d) ∧
      (∃ l u, sq1.jobRange (.engine 6) 0 0 0 0x3000 64 1 = (.ok [(l, 64)], u) ∧ l.space = .hbm ∧ l.dieCoh = false) ∧
      sq1.ctime < cj.startNs + Config.commTimeoutNs ∧
      (let t : State := { sq1 with ctime := cj.startNs + Config.commTimeoutNs }
       (t.colls.find? fun x => x.id == 6) = some cj ∧ cj.startNs + Config.commTimeoutNs ≤ t.ctime ∧ t.jobPaged 0 (.engine 6) = false) ∧ sq1.collBehind cj = false ∧
      ({ sq1 with colls := [{ cj with id := 5 }, cj] } : State).collBehind cj = true ∧ (let j : CollJob := { cj with job := some (1, 0, true) }; let pk : Packet := { bytes := [], phase := .running }
        ({ sq1 with colls := [j] } : State).collBehind j = false ∧ mfind (({ sq1 with vds := [(0, { st := .active, queues := [(1, { pkts := [(0, pk)] })] })] } : State).queue 0 1).pkts 0 = some pk ∧ pk.status = 0) ∧
      (∀ m ∈ [[], [OutMsg.jobEnded 0 5 9]], ∃ l u, (sgn m).sigAt { cjs with reason := 7 } = (.at l, u) ∧ mfind u.groups 1 = some g1 ∧ u.Awake 0 ∧ (mget {} u.teams 0).saved = none ∧ l.space = .hbm ∧ l.dieCoh = false) ∧
      cjs.key = some 1 ∧ cjs.cancelled = false ∧ cjs.mute = false ∧ ({ sgn [] with colls := [cjs] } : State).collBehind cjs = false) := by
  intro sc fr sf rd inPart
  have aw (s : State) (h : (s.groups == [(1, g1)]) = true) : s.Awake 0 := by
    have e : s.groups = [(1, g1)] := eq_of_beq h
    refine ⟨by rw [e]; exact ⟨_, List.mem_singleton.2 rfl, rfl⟩, ?_⟩
    rw [e]
    unfold Group.notWaiting
    decide +kernel
  have he (r : Except (Option Nat) (List (List (Loc × Nat))) × State) (ls : List (List (Loc × Nat))) (u : State) (h : (r.1.toOption == some ls && r.2 == u) = true) : r = (.ok ls, u) := by
    obtain ⟨r1, r2⟩ := r
    cases r1 <;> simp_all [Except.toOption]
  have hj (r : Except Block (List (Loc × Nat)) × State) (ls : List (Loc × Nat)) (u : State) (h : (r.1.toOption == some ls && r.2 == u) = true) : r = (.ok ls, u) := by
    obtain ⟨r1, r2⟩ := r
    cases r1 <;> simp_all [Except.toOption]
  have hs (r : SigAt × State) (x : SigAt) (h : (r.1 == x) = true) : r = (x, r.2) := by
    obtain ⟨r1, r2⟩ := r
    cases eq_of_beq h
    rfl
  have hg : ∀ m ∈ [[], [OutMsg.jobEnded 0 5 9]], ∃ l u, (sgn m).sigAt { cjs with reason := 7 } = (.at l, u) ∧ mfind u.groups 1 = some g1 ∧ u.Awake 0 ∧
      (mget {} u.teams 0).saved = none ∧ l.space = .hbm ∧ l.dieCoh = false := by
    intro m hm
    simp only [List.mem_cons, List.not_mem_nil, or_false] at hm
    rcases hm with rfl | rfl <;>
    exact ⟨locG 0x2000, _, hs _ _ (by decide +kernel), by decide +kernel, aw _ (by decide +kernel), by decide +kernel⟩
  have hd : ∃ l u, sq1.jobRange (.engine 6) 0 0 0 0x3000 64 1 = (.ok [(l, 64)], u) ∧ l.space = .hbm ∧ l.dieCoh = false :=
    ⟨locG 0x3000, (sq1.jobRange (.engine 6) 0 0 0 0x3000 64 1).2, hj _ _ _ (by decide +kernel), by decide +kernel⟩
  refine ⟨by and_intros <;> decide +kernel, ⟨by decide +kernel, aw _ (by decide +kernel)⟩, by and_intros <;> decide +kernel, ?_, ?_, ?_⟩
  · and_intros <;> first | decide +kernel | exact (aw { s0 with binops := [bo1] } (by decide +kernel)).2
  · let ls : List (List (Loc × Nat)) := ((sp 100).patchPlaces bj 0 pk6).1.toOption.getD []
    refine ⟨by decide +kernel, by decide +kernel, by decide +kernel, by decide +kernel, ls, ((sp 100).patchPlaces bj 0 pk6).2, he _ _ _ (by decide +kernel), ?_⟩
    and_intros <;> first | decide +kernel | exact (aw ((sp 100).patchPlaces bj 0 pk6).2 (by decide +kernel)).2
  · and_intros <;> first | decide +kernel | exact hd | exact hg

/-- A store of another device to the name 0x1234, and one of this device. -/
def rm : RemoteStore := { gname := 0x1234, sdev := 1, svd := 3, sender := 0x55, seq := 17, first := 8, regs := [List.replicate 32 5], trapnak := false }
def rl (inc : Nat) : RemoteStore := { rm with sdev := 0, sender := 0x1234, inc := BitVec.ofNat 16 inc }
/-- A machine whose group 1 bears that name, in a state, with a store awaited. -/
def sr (g : Group) (x : NameState) : State := { s0 with
  groups := [(1, g)], nextSerial := 0x2000, names := [(0x1234, x)]
  vds := [(0, { st := .active, resident := true, peers := [(0, BitVec.ofNat 32 (1 + 1 * 4 + 3 * 4096))] })] }
def gib (rem : Nat) : Group := { g1 with ibc := [(1, { rem := rem, armed := true, wbase := 8, wcnt := 1 })], send := { pend := 1 } }
/-- A full queue takes no store. -/
theorem deliver_full (u : State) (m : RemoteStore) (h1 : u.storeStale m = false) (h2 : u.touchDie m = u) (h3 : u.storeRefused m = none)
    (h4 : u.nameState m.gname = some .transit) (h5 : 256 ≤ (u.transit.filter fun x => u.placementDie x.gname == u.placementDie m.gname).length) :
    u.deliverStore m = none := by simp [State.deliverStore, h1, h2, h3, h4, h5]
def full (n : Nat) : State := { sr g1 .transit with transit := List.replicate n rm }
theorem full_length (n : Nat) : ((full n).transit.filter fun y => (full n).placementDie y.gname == (full n).placementDie rm.gname).length = n := by
  show ((List.replicate n rm).filter _).length = n
  rw [List.filter_replicate, if_pos (beq_self_eq_true _), List.length_replicate]
theorem held_ports : ({ full 256 with ports := [rm] } : State).drainPorts.ports = [rm] := by
  have h : (full 256).deliverStore rm = none :=
    deliver_full _ _ (by decide +kernel) rfl (by decide +kernel) (by decide +kernel) (Nat.le_of_eq (full_length 256).symm)
  show (List.foldl _ (full 256) [rm]).ports = [rm]
  simp only [List.foldl, h]
  rfl
abbrev live (s : State) (m : RemoteStore) : Prop := (s.vd (nameVd m.gname)).st ≠ .free ∧ nameInc m.gname = (s.vd (nameVd m.gname)).inc.toNat ∧
  (s.serialsWrapped = true ∨ nameSerial m.gname < s.nextSerial.toNat)
theorem witness_RemoteEvents :
    let named (k : Nat) (n : Nat) : State := { s0 with nextSerial := BitVec.ofNat 40 k, names := if n = 0 then [] else [(0x1234, .resident)], vds := [(0, { st := .active })] }
    let o (r i : Nat) : RstrOutcome := { sender := 0x1234, seq := 17, reason := r, inc := BitVec.ofNat 16 i }
    let rq (op : RemoteOp) : RemoteReq := ⟨1, 3, 0x10010, op⟩
    let sg : State := { s0 with grants := [(4, ⟨true, 1, 3, 0, 0x10000⟩)] }
    let granted (s : State) (r : RemoteReq) : Prop := r.span.1 + r.span.2 ≤ Config.hbmBytes ∧ ∃ e ∈ s.grants, e.2.sdev = r.sdev ∧ e.2.svd = r.svd ∧ e.2.base ≤ r.span.1 ∧
      r.span.1 + r.span.2 ≤ e.2.base + 2 ^ (16 + e.2.slog) ∧ (r.writes = true → e.2.w = true)
    let fits (e : Nat × Inbox) : Bool := e.2.armed && decide (e.2.wbase ≤ rm.first) && decide (rm.first + rm.regs.length ≤ e.2.wbase + e.2.wcnt)
    let inc (i : BitVec 4) : State := { s0 with vds := [(0, { st := .active, inc := i })], serialsWrapped := true }
    let sent (i : Nat) : State := { sr (gib 128) .resident with names := [], flight := [rl i] }
    nameDev rm.gname = s0.devNum ∧ rm.sdev ≠ s0.devNum ∧ s0.ports = [] ∧ (State.reset.vd 0).st = .free ∧
    (∀ i ∈ [1, 2, 15], ((inc i).vd 0).st ≠ .free ∧ nameInc rm.gname ≠ ((inc i).vd 0).inc.toNat ∧ ((inc i).ports = []) ∧ (nameInc rm.gname = (((inc i).vd 0).inc.toNat + 15) % 16 ↔ i = 1)) ∧
    ((named 0x1234 0).serialsWrapped = false ∧ (named 0x1234 0).nextSerial.toNat ≤ nameSerial rm.gname) ∧
    (live (named 0x1235 0) rm ∧ (named 0x1235 0).nameState rm.gname = none) ∧ (live (named 0x1235 1) rm ∧ (named 0x1235 1).nameState rm.gname ≠ none ∧ (named 0x1235 1).peerOk 0 rm = false) ∧
    (∀ n ∈ [255, 256], live (full n) rm ∧ (full n).peerOk 0 rm = true ∧ (full n).nameState rm.gname = some .transit) ∧
    (∀ n, ((full n).transit.filter fun y => (full n).placementDie y.gname == (full n).placementDie rm.gname).length = n) ∧
    ({ full 256 with ports := [rm] } : State).drainPorts.ports = [rm] ∧
    (∀ x ∈ [NameState.resident, .saved], ∀ n ∈ [64, 127, 128, 129, 4096], live (sr (gib n) x) rm ∧ (sr (gib n) x).peerOk 0 rm = true ∧ (sr (gib n) x).nameState rm.gname = some x ∧
      (sr (gib n) x).named rm.gname = some (1, gib n) ∧ (gib n).ibc.find? fits = some (1, { rem := n, armed := true, wbase := 8, wcnt := 1 }) ∧
      (gib n).winOf 8 = none ∧ 8 < (gib n).ngen) ∧
    ((sr g1 .resident).named rm.gname = some (1, g1) ∧ g1.ibc.find? fits = none) ∧
    (∀ i ∈ [0, 1], (rl i).sdev = (sent i).devNum ∧ ((sent i).flight.find? fun y => nameDev y.gname == (sent i).devNum) = some (rl i) ∧ ((rl i).inc = (sent i).incOf (rl i).die ↔ i = 0) ∧
      live (sent i) (rl i) ∧ (sent i).nameState (rl i).gname = none) ∧
    nameDev (BitVec.ofNat 64 (2 ^ 64 - 1)) ≠ s0.devNum ∧
    (∀ r ∈ [0, 1, 5], ∀ i ∈ [0, 1], let s : State := { sr (gib 128) .resident with outcomes := [o r i] }
      o r i ∈ s.outcomes ∧ s.named (o r i).sender = some (1, gib 128) ∧ mfind s.groups 1 = some (gib 128) ∧ (gib 128).wait.kind ≠ .barrier ∧ (gib 128).wait.kind ≠ .runnel ∧
      ((o r i).inc = s.incOf (o r i).die ↔ i = 0)) ∧
    (let y : RemoteStore := { rl 0 with gname := BitVec.ofNat 64 (2 ^ 64 - 1) }
     let s : State := { sr (gib 128) .resident with flight := [y] }
     (s.flight.find? fun m => m.sender == (o 0 0).sender && m.seq == (o 0 0).seq && nameDev m.gname != s.devNum) = some y ∧ y.inc = s.incOf y.die ∧ o 0 0 ∉ s.outcomes) ∧
    ¬ granted s0 (rq (.read 8)) ∧ granted sg (rq (.read 8)) ∧ granted sg (rq (.write [1, 2] false)) ∧ granted sg (rq (.rmw .z32 .add 1)) ∧ granted sg (rq (.tagWrite true)) ∧ sectorOf 0x10010 ∉ sg.mem.damaged ∧
    ¬ (∃ c ∈ sectorsOf 0x10010 4, sg.mem.cisternPoison c = true) ∧ (0 : BitVec 16) = s0.inc0 ∧ (1 : BitVec 16) ≠ s0.inc1 ∧
    ((sr g1 .resident).vd 0).st = .active ∧ ((sr g1 .resident).vd 0).modes.getLsbD 4 = false ∧
    (sr g1 .resident).commOk 0 (1 + 0 * 2) ([(0, 0), (1, 0)].map fun e => e.1 % 1024 + e.2 % 1024 * 1024) = true ∧
    ¬ (((State.reset.vd 0).st = .active ∨ (State.reset.vd 0).st = .paused)) := by
  intro named o rq sg granted fits inc sent
  have hg (op : RemoteOp) (h : ((rq op).span.1 + (rq op).span.2 ≤ 0x10100) ∧ 0x10000 ≤ (rq op).span.1) : granted sg (rq op) :=
    ⟨h.1.trans (by decide +kernel), (4, ⟨true, 1, 3, 0, 0x10000⟩), List.mem_singleton.2 rfl, rfl, rfl, h.2, h.1.trans (by decide +kernel), fun _ => rfl⟩
  have hn : ¬ granted s0 (rq (.read 8)) := by
    rintro ⟨-, e, he, -⟩; rw [show s0.grants = [] by decide +kernel] at he; cases he
  refine ⟨?_, ?_, ?_, ?_, ?_, ?_, ?_, ?_, ?_, full_length, held_ports, ?_, ?_, ?_, ?_, ?_, ?_, hn, hg _ (by decide +kernel), hg _ (by decide +kernel), hg _ (by decide +kernel), hg _ (by decide +kernel), ?_⟩
  all_goals decide +kernel

/-- A step of the array over block 0 of the accumulator, from tile rows `row` on. -/
def ms (zero sq : Bool) (row : Nat) : MStep := { step0 with zero := zero, mcw := mcwOf .bf16 .bf16 false false false sq 0 false false, aw := BitVec.ofNat 64 row }
/-- Its team, whose step counter of block 0 has been written 0. -/
def sx1 (m : MStep) (n : Nat := 0) : State :=
  { s0 with teams := [(0, { t1 with queue := [m] })], mem := { side := Mem.writeAll [] (bytesAt (tileRow 0 0 0 * 32) (leBytes 32 n)) } }
/-- Terms that are invalid together, infinite, all zero, and finite with largest leading bit 4; operands of a group term; a block's
rows and columns; and QUAR. -/
theorem witness_blockResult :
    let real (t : Fp.FVal) : ℚ := match t with | .fin sg k e => (if sg then -1 else 1) * k * 2 ^ e | _ => 0
    let none0 (ts : List Fp.FVal) : Prop := ∀ sg e, Fp.FVal.fin sg 0 e ∉ ts
    none0 [.inf false, .inf true] ∧ none0 [.inf true, .fin false 1 0] ∧ none0 [.zero true, .zero true] ∧ none0 [.zero true, .zero false] ∧ none0 [.fin true 3 3, .fin false 1 2, .zero false] ∧
    Nat.log2 3 + (3 : Int) = 4 ∧ Nat.log2 1 + (2 : Int) ≤ 4 ∧ real (.fin true 3 3) = -24 ∧ real (.zero true) = 0 ∧ real (.fin false 1 2) ≠ 0 ∧
    (let m := ms false false 128
     let x : State := { sx1 m with groups := [(0, { g1 with role := .matrix }), (1, g1)] }
     let q : MStep := { m with quar := true, ty := .f32 }
     0 < mKstep m.quant m.mcw ∧ mSp m.mcw = false ∧ tileCol m.aw.toNat + mAWords m.quant m.mcw ≤ 256 ∧
     (mfind (x.matGroups 0) ((mget ({} : Team) x.teams 0).matrixKey 0 0 0)).isSome = true ∧ q.quar = true ∧ q.isFloat = true) := by
  intro real none0
  and_intros
  all_goals first | (intro sg e h; simp at h) | (simp only [real]; norm_num; done) | decide +kernel
theorem witness_MatrixStepDrain :
    (∀ z ∈ [true, false], ∀ row ∈ [0, 128, 384], ∀ q ∈ [true, false], let m := ms z q row
      (mget {} (sx1 m).teams 0).queue = m :: [] ∧ mRbase m.cw + 128 ≤ 512 ∧ m.zero = z ∧ (sx1 m).windowTags 0 m (List.range 1) = none ∧ tileRow' m.aw.toNat + 128 ≤ 512 ∧
      (mSeq m.mcw = true → (sx1 m).seqLag 0 0 m = 0) ∧ (sx1 m).groups = [(1, g1)]) ∧ g1.tid = 0 ∧ g1.notWaiting ∧
    (let m : MStep := { ms false false 0 with mcw := mcwOf .int8 .int8 false false false false 0 false false, ty := .s32 }
     let x : State := { sx1 m with groups := [(1, g1), (3, { g1 with role := .matrix })] }
     x.windowTags 0 m (List.range 1) = none ∧ m.isFloat = false ∧ mSeq m.mcw = false ∧ (mget {} (sx1 m).teams 0).fixed < 65535 ∧ (mget {} (sx1 m).teams 0).cores.length = 1 ∧
       (x.stepRow 0 0 m 5).undef = false ∧ (x.stepCol 0 0 m 3 63).undef = false ∧ ∀ x : Word, ∃ w, w ≠ x) ∧
    (let m := ms false true 0
     mSeq m.mcw = true ∧ 0 < (sx1 m 7).seqLag 0 0 m ∧ (sx1 m 7).seqLag 0 0 m < 2 ^ 31) ∧ (mget {} (sx1 { ms true false 0 with mark := 1 }).teams 0).restarts < 1 := by
  refine ⟨by decide +kernel, rfl, by unfold Group.notWaiting; decide +kernel, ?_, by decide +kernel, by decide +kernel⟩
  have h (x : Word) : ∃ w, w ≠ x := ⟨~~~x, fun e => by have := congrArg (BitVec.getLsbD · 0) e; simp at this⟩
  and_intros <;> first | exact h | decide +kernel

/-! ## Witnesses: scheduling -/

/-- A record of one general group of 16 registers, and a grid of two teams of it on IQ 1. -/
def r1 : BitVec 512 := BitVec.ofNat 512 (0x40000 + (1 + 16 * 2 ^ 12) * 2 ^ 256)
def pk1 : Packet := { bytes := List.replicate 128 0, phase := .running, ent := { iq := 1 }, nteam := 2, order := some 0, tmpl := r1, tile := 1024 }
def v1 : VD := { st := .active, resident := true, stkslots := 4, savebase := 0x100000, savesize := 0x100000 }
def sgrid : State := { State.reset with vds := [(0, { v1 with queues := [(1, { pkts := [(0, pk1)] })] })] }
def p0 : Placement := ⟨[0], [(0, 0)], 1⟩
/-- A saved team of one group of that record, written by the device to its place in the pool. -/
def g16 : Group := { g1 with grpid := 0, ngen := 16, ncmp := 0, v := [(4, ⟨.affine 10 3, 0, 0⟩)], p := [], wait := { kind := .held } }
def tsv (target : Option Placement) : Team := { cores := [0], record := r1, saved := some ⟨0, 0x100000, 8192, true, false, target⟩ }
def ssv : State := ({ State.reset with vds := [(0, { v1 with hadHead := [0], vt := [(0, 0)] })], teams := [(0, tsv none)], groups := [(0, g16)] } : State).writeSave 0
/-- VD 1 has a grid that only core 0 may run and that asks for all its tile memory, where team 0 of VD 0 holds some. -/
def tsm : Team := { t1 with scratch := 0, tile := 1024 }
def sheld : State := { s0 with
  teams := [(0, tsm)]
  vds := [(0, { v1 with vt := [(0, 100)] }), (1, { v1 with coremask := 1, hadHead := [0], vt := [(0, 7)], queues := [(1, { pkts := [(0, { pk1 with tile := 524288 })] })] })]
  slices := [(0, 50)], ctime := 1000 }
theorem ssv_seal : ssv.sealHolds 0 = true := State.sealHolds_writeSave _ 0 ⟨0, 0x100000, 8192, true, false, none⟩ rfl rfl rfl rfl rfl (by decide +kernel)
theorem ssv_review : ssv.reviewSaved.refreshHeads = ssv :=
  (congrArg State.refreshHeads (State.reviewSaved_eq ssv 0 (tsv none) ⟨0, 0x100000, 8192, true, false, none⟩ (by decide +kernel) rfl rfl (by decide +kernel))).trans
    (State.refreshHeads_id ssv (by decide +kernel))
theorem witness_SavedTeam :
    ssv.decision p0 = some (0, 0, .saved 0) ∧ mfind ssv.teams 0 = some (tsv none) ∧ ssv.sealHolds 0 = true ∧ ssv.reviewSaved.refreshHeads = ssv ∧
    (let u : State := { ssv with teams := [(0, { tsv none with saved := some ⟨0, 0x100000, 8192, false, false, none⟩ })] }
     u.decision p0 = some (0, 0, .saved 0) ∧ u.sealHolds 0 = false ∧ ∀ e ∈ u.groups, e.2.tid = 0 → mfind u.groups e.1 = some e.2) ∧
    (let u : State := { ssv with teams := [(0, tsv (some p0))] }
     mfind u.teams 0 = some (tsv (some p0)) ∧ u.transit = [] ∧ u.ports = [] ∧ u.groups = [(0, g16)] ∧ g16.tid = 0 ∧ g16.notWaiting) := by
  unfold Group.notWaiting
  exact ⟨by decide +kernel, by decide +kernel, ssv_seal, ssv_review, by decide +kernel, by decide +kernel⟩
theorem witness_Scheduling :
    let paused (cs : List CopyCmd) : State := { s0 with teams := [(0, tsm)], vds := [(0, { v1 with st := .paused })], copies := cs }
    let small (n : Nat) : State := { s0 with teams := [(0, tsm)], vds := [(0, { v1 with st := .paused, savesize := n })] }
    let sl (c : Nat) : State := { s0 with slices := [(0, 50)], ctime := c }
    let us (s : State) : State := s.reviewSaved.refreshHeads
    let mv (m : Option (Nat × Nat)) : State := { s0 with groups := [(1, { g1 with moving := m })] }
    (us s0).decision p0 = none ∧
    ((us sgrid).decision p0 = some (0, 0, .grid 1 0) ∧ ((us sgrid).launchOf 0 (.grid 1 0) p0).map (fun x => x.record) = some r1 ∧ (us sgrid).shortOf 0 (.grid 1 0) = false ∧
      ((us sgrid).needOf 0 (.grid 1 0)).members = recMembers r1 ∧ ((recMembers r1).map fun m => m.grpid).Nodup ∧ ∀ m ∈ recMembers r1, m.grpid < 4095) ∧
    (mget {} s0.teams 0).saved = none ∧
    (mfind (paused []).teams 0 = some tsm ∧ tsm.saved = none ∧ ((paused []).vd tsm.vd).st = .paused ∧ (paused []).copiesTouch 0 = false ∧ (paused []).keysOf 0 ≠ [] ∧
      (∀ e ∈ (paused []).groups, e.2.tid = 0 → e.2.moving = none) ∧ (paused [cp0]).copiesTouch 0 = true ∧
      (((paused []).stopTeam 0).saveSpot 0).isSome = true ∧ ((paused []).keysOf 0).Nodup ∧ (mfind (paused []).groups 1).isSome = true ∧ g1.role ≠ .stream ∧ (paused []).binops = []) ∧
    (((small 1).stopTeam 0).saveSpot 0 = none ∧ mfind (small 1).teams 0 = some tsm ∧ ((small 1).vd 0).st = .paused ∧ (small 1).copiesTouch 0 = false) ∧
    (mfind (us (sl 49)).teams 0 = some t1 ∧ mfind (us (sl 49)).slices t1.band = some 50 ∧ (us (sl 49)).ctime < t1.startNs + 50 ∧ t1.startNs + 50 ≤ (us (sl 50)).ctime) ∧
    ((us { s0 with vds := [(0, { v1 with modes := 1 })] }).vd 0).modes.getLsbD 0 = true ∧
    (let u := us sheld
     mfind u.teams 0 = some tsm ∧ tsm.saved = none ∧ ((u.stopTeam 0).saveSpot 0).isSome = true ∧ (u.keysOf 0).Nodup ∧ u.copiesTouch 0 = false ∧ mfind u.slices 0 = some 50 ∧ tsm.startNs + 50 ≤ u.ctime ∧ (u.vd 0).modes.getLsbD 0 = false ∧
     ∃ h, u.heldHeads.head? = some h ∧ h.1 = 0 ∧ (u.vd h.2.1).vtOf 0 < (u.vd 0).vtOf 0 ∧ clusterOf (tsm.cores.headD 0) ∈ h.2.2.2) ∧
    (mfind (mv none).groups 1 = some g1 ∧ (mv none).mayMove g1 0 0 = false ∧ (mv none).mayMove g1 0 3 = true ∧
      mfind (mv (some (0, 3))).groups 1 = some { g1 with moving := some (0, 3) } ∧ s0.inService 0 = true ∧ p0.cores.all ssv.inService = true ∧ (mv (some (0, 3))).transit = [] ∧ (mv (some (0, 3))).ports = []) := by
  intro paused small sl us mv
  refine ⟨?_, ?_, ?_, ?_, ⟨State.saveSpot_none _ _ (by decide +kernel), by decide +kernel⟩, ?_, ?_, ⟨by decide +kernel, by decide +kernel, by decide +kernel, by decide +kernel, by decide +kernel, by decide +kernel, by decide +kernel, by decide +kernel, (us sheld).heldHeads.headD (0, 0, ⟨0, 0, 0, []⟩, []), by decide +kernel⟩, ?_⟩
  all_goals decide +kernel

/-! ## Witnesses: the front end -/

/-- A packet of a type, with PSEQ 1 and scope .dev, with the bytes from 8 on given. -/
def pkt (ty : Nat) (rest : List Byte) : List Byte := leBytes 4 (ty + 3 * 2 ^ 10) ++ leBytes 4 1 ++ rest ++ List.replicate (120 - rest.length) 0
def qe : QEnt := { iq := 1, asid := 0, rlog := 0, ring := 0x40000, stat := 0x50000 }
def qf (pk : AMap Packet) : PQueue := { st := .active, prod := 3, ent := qe, pkts := pk }
/-- VD 0 with a queue, whose ring's slot 0 and words at 0x2000 have been written. -/
def sqf (q : PQueue) (slot0 : List Byte) (w : Nat) : State := { sj with
  vds := [(0, { st := .active, resident := true, queues := [(1, q)] })]
  mem := { hbm := Mem.writeAll [] (bytesAt 0x1002000 (leBytes 8 w) ++ bytesAt 0x1040000 slot0) } }
theorem feRead_of (s u : State) (vd iq asid va n : Nat) (bs : List Byte) (h : ((s.feRead vd iq asid va n).1 == .ok bs && (s.feRead vd iq asid va n).2 == u) = true) :
    s.feRead vd iq asid va n = (.ok bs, u) := by
  obtain ⟨h1, h2⟩ := Bool.and_eq_true_iff.1 h
  exact Prod.ext (eq_of_beq h1) (eq_of_beq h2)
/-- A page of zeros where the host tables of `vd2` begin: nothing below can be reached before the pager has been. -/
def hbm0 : Mem := Mem.writeAll [] (bytesAt 0x10000 (List.replicate 8 0))
/-- `sqf` in a VD with those tables. -/
def sqw (q : PQueue) (slot0 : List Byte) : State := { sqf q slot0 0 with
  vds := [(0, { vd2 with queues := [(1, q)], fault := { fben := true } })], mem := { hbm := Mem.writeAll [] (bytesAt 0x10000 (List.replicate 8 0) ++ bytesAt 0x1040000 slot0) } }
theorem fetch_of {α : Type} [DecidableEq α] (r : Option Packet × α) (p' : Option Packet) (h : (r.1 == p') = true) : r = (p', r.2) := Prod.ext (eq_of_beq h) rfl
theorem witness_FrontEnd :
    let ph (ty : Nat) (rest : List Byte) (p : Phase) : Packet := { bytes := pkt ty rest, phase := p, ent := qe }
    let on (k : Packet) : State := sqf (qf [(0, k)]) (pkt 0 []) 9
    let sk (x : VdState) (q : QState) : State := { s0 with
      vds := [(0, { vd2 with st := x, queues := [(1, { st := q })] })]
      mem := { hbm := Mem.writeAll [] (loadTables ++ bytesAt 0x30000 (leBytes 32 (3 + 2 ^ 6)) ++ bytesAt 0x30020 (leBytes 32 (1 + 2 ^ 6 + 2 ^ 8 + 0x40000 * 2 ^ 64 + 0x50000 * 2 ^ 128)) ++ bytesAt 0x30040 (leBytes 32 0)) } }
    let word : BitVec 64 := BitVec.ofNat 64 (1 + 43 * 2 ^ 13 + 0x1F * 2 ^ 32)
    let wait (v cond us : Nat) : Packet := ph 5 (leBytes 8 0 ++ leBytes 8 0x2000 ++ leBytes 8 v ++ leBytes 4 cond ++ leBytes 4 us) .running
    let early : Packet := { ph 1 [] .fetched with nteam := 2, preLeft := true }
    let read (s : State) (slot : Nat) : Bool := (s.retryKicks 0).awaitTable kickOrigin 0 slot == none
    let ready (s : State) : Bool := s.mayFetch 0 1 && !(s.queue 0 1).statDue && s.unchecked 0 1 == none && (s.queue 0 1).ent.ringCap.admits (slotVa (s.queue 0 1).ent (s.queue 0 1).fetch) 128 0 1
    let first (b : List Byte) : Packet := { bytes := b, phase := .fetched, pp := bit (leNat (b.take 8)) 9, ent := qe, checked := false, skip := false }
    let y (s : State) (b : List Byte) : State := s.updQueue 0 1 fun x => { x with fetch := 1, nextpseq := 2, rereadDue := none, skipLeft := 0, pkts := mset [] 0 (first b) }
    let far := pkt 1 (leBytes 8 0 ++ leBytes 8 0x400000)
    (State.reset.vd 0).st = .free ∧ (∀ x ∈ [VdState.active, .draining], ((sk x .idle).vd 0).st = x ∧ ((sk x .idle).vd 0).kicks = []) ∧
    (let w : State := { s0 with vds := [(0, { vd2 with fault := { fben := true } })], mem := { hbm := hbm0 } }
     (w.vd 0).kicks = [] ∧ read w 1 = false) ∧
    (∀ slot ∈ [0, 1, 2], read (sk .active .idle) slot = true) ∧ (((sk .active .idle).retryKicks 0).tableDone kickOrigin 0).queueOf 0 2 = none ∧
    (∀ q ∈ [QState.idle, .disabled], ((((sk .active q).retryKicks 0).tableDone kickOrigin 0).queueOf 0 0).map (fun e => (e.kind, e.iq)) = some (true, 0) ∧
      ((((sk .active q).retryKicks 0).tableDone kickOrigin 0).queueOf 0 1).map (fun e => (e.kind, e.iq, e.entries)) = some (false, 1, 64) ∧ ((sk .active q).queue 0 1).st = q) ∧
    (let r := (sk .active .idle).queue 0 1
     let ahead (x : Nat) : Nat := (x + 2 ^ 19 - r.cons) % 2 ^ 19
     word.toNat % 8192 = 1 ∧ 0 < (word.extractLsb' 32 32 - r.kseq).toNat ∧ (word.extractLsb' 32 32 - r.kseq).toNat < 2 ^ 31 ∧ ahead (word.extractLsb' 13 19).toNat ≤ 64 ∧
       ahead r.fetch ≤ ahead (word.extractLsb' 13 19).toNat ∧ (0 : BitVec 64).toNat % 8192 ≠ 1) ∧
    (∀ b ∈ [pkt 0 [], pkt 9 [], pkt 4 []], let s := sqf (qf []) b 9
      ready s = true ∧ (s.vd 0).kicks = [] ∧ (s.retryKicks 0).feRead 0 1 0 (slotVa qe 0) 128 = (.ok b, s) ∧ leNat ((b.drop 4).take 4) = (s.queue 0 1).nextpseq.toNat ∧
      ∃ p' w, (y s b).checkPacket 0 1 (first b) (mfind ((y s b).queue 0 1).pkts ((0 + 2 ^ 19 - 1) % 2 ^ 19)) = (some p', w) ∧
        (p'.mreason = 0 ↔ b = pkt 0 []) ∧ w.queue 0 1 = (y s b).queue 0 1) ∧
    (let s := sqw (qf []) far
     ready s = true ∧ (s.vd 0).kicks = [] ∧ (s.retryKicks 0).feRead 0 1 0 (slotVa qe 0) 128 = (.ok far, s) ∧
     ∃ w, (y s far).checkPacket 0 1 (first far) (mfind ((y s far).queue 0 1).pkts ((0 + 2 ^ 19 - 1) % 2 ^ 19)) = (none, w) ∧ w.queue 0 1 = (y s far).queue 0 1) ∧
    (let s := sqf { qf [] with nextpseq := 2, rereadDue := some 0 } (pkt 0 []) 9
     ready s = true ∧ (s.vd 0).kicks = [] ∧ s.feRead 0 1 0 (slotVa qe 0) 128 = (.ok (pkt 0 []), s) ∧ s.retryKicks 0 = s ∧
       leNat (((pkt 0 []).drop 4).take 4) ≠ (s.queue 0 1).nextpseq.toNat ∧ 0 ≤ s.ctime) ∧
    (∀ k ∈ [{ ph 0 [] .fetched with skip := true }, ph 0 [] .fetched, ph 4 [] .fetched, ph 1 [] .fetched, early, ph 5 [] .fetched, ph 2 [] .fetched, ph 3 [] .fetched],
      (on k).mayStartPacket 0 1 0 = true) ∧
    ((on (ph 7 (leBytes 8 0 ++ leBytes 8 0x2000) .fetched)).mayStartPacket 0 1 0 = true ∧
      (on (ph 7 (leBytes 8 0 ++ leBytes 8 0x2000) .fetched)).feRead 0 1 0 0x2000 4 = (.ok (leBytes 4 9), on (ph 7 (leBytes 8 0 ++ leBytes 8 0x2000) .fetched))) ∧
    (on (ph 0 [] .running)).mayStartPacket 0 1 0 = false ∧ (on { early with phase := .running }).jobsLeft 0 1 0 id = false ∧
    ({ on { early with phase := .running } with copies := [{ cp0 with job := some (1, 0, true) }] } : State).jobsLeft 0 1 0 id = true ∧
    (on (wait 9 0 0)).feRead 0 1 0 ((wait 9 0 0).at 16 8) 8 = (.ok (leBytes 8 9), on (wait 9 0 0)) ∧ (wait 9 0 0).at 24 8 % 2 ^ 64 ≤ leNat (leBytes 8 9) % 2 ^ 64 ∧
    leNat (leBytes 8 9) % 2 ^ 64 ≠ (wait 8 1 5).at 24 8 % 2 ^ 64 ∧ (wait 8 1 5).at 36 4 = 5 ∧ (wait 8 1 5).startNs + 1000 * 5 ≤ ({ on (wait 8 1 5) with ctime := 5000 } : State).ctime ∧
    (on { ph 1 [] .running with order := some 0 }).mayRetire 0 1 0 = true ∧ (on early).mayRetire 0 1 0 = false ∧
    (let k := ph 0 [] .completing
     let w := if k.isBundle && k.status != 2 then on k else (on k).writeBackVd 0
     k.ent.ringCap.admits (slotVa k.ent 0) 24 1 1 = true ∧ k.recorded = false ∧ k.early = false ∧ k.sig = 0 ∧ ∃ ls u, w.feRange 0 1 0 (slotVa qe 0) 24 1 = (.ok ls, u) ∧ u.queue 0 1 = (on k).queue 0 1) := by
  intro ph on sk word wait early read ready first y far
  have h1 (b : List Byte) (hb : b ∈ [pkt 0 [], pkt 9 [], pkt 4 []]) : let s := sqf (qf []) b 9
      ready s = true ∧ (s.vd 0).kicks = [] ∧ (s.retryKicks 0).feRead 0 1 0 (slotVa qe 0) 128 = (.ok b, s) ∧ leNat ((b.drop 4).take 4) = (s.queue 0 1).nextpseq.toNat ∧
      ∃ p' w, (y s b).checkPacket 0 1 (first b) (mfind ((y s b).queue 0 1).pkts ((0 + 2 ^ 19 - 1) % 2 ^ 19)) = (some p', w) ∧
        (p'.mreason = 0 ↔ b = pkt 0 []) ∧ w.queue 0 1 = (y s b).queue 0 1 := by
    simp only [List.mem_cons, List.not_mem_nil, or_false] at hb
    rcases hb with rfl | rfl | rfl <;>
    exact ⟨by decide +kernel, by decide +kernel, feRead_of _ _ _ _ _ _ _ _ (by decide +kernel), by decide +kernel, _, _,
      Prod.ext (Option.eq_some_of_isSome (by decide +kernel)) rfl, by decide +kernel, by decide +kernel⟩
  have h2 : ∃ w, (y (sqw (qf []) far) far).checkPacket 0 1 (first far) (mfind ((y (sqw (qf []) far) far).queue 0 1).pkts ((0 + 2 ^ 19 - 1) % 2 ^ 19)) = (none, w) ∧
      w.queue 0 1 = (y (sqw (qf []) far) far).queue 0 1 := ⟨_, fetch_of _ _ (by decide +kernel), by decide +kernel⟩
  have h3 : ∃ ls u, (if (ph 0 [] .completing).isBundle && (ph 0 [] .completing).status != 2 then on (ph 0 [] .completing) else (on (ph 0 [] .completing)).writeBackVd 0).feRange 0 1 0 (slotVa qe 0) 24 1
      = (.ok ls, u) ∧ u.queue 0 1 = (on (ph 0 [] .completing)).queue 0 1 := ⟨[(locG 0x40000, 24)], _, Prod.ext (by decide +kernel) rfl, by decide +kernel⟩
  and_intros <;> first | exact h1 | exact h2 | exact h3 | exact feRead_of _ _ _ _ _ _ _ _ (by decide +kernel) | decide +kernel

/-! ## Witnesses: Freor's commands -/

/-- A command on VD 1 whose arguments are given as byte offset and value, and one on the device. -/
def ce (l : List (Nat × Nat)) : CmdEntry := BitVec.ofNat 512 (2 ^ 32 + (l.map fun x => x.2 * 2 ^ (8 * x.1)).foldl (· + ·) 0)
def cd (l : List (Nat × Nat)) : CmdEntry := BitVec.ofNat 512 (2 ^ 9 + (l.map fun x => x.2 * 2 ^ (8 * x.1)).foldl (· + ·) 0)
def sv (v : VD) : State := { State.reset with vds := [(1, v)] }
theorem witness_VdCommands :
    let well (e : CmdEntry) (named : List (Nat × Nat)) : Prop := cmdVd e = 1 ∧ cmdHead e false = true ∧ cmdResv e named = true
    let vd (s : State) : VD := s.vd 1
    let crt := ce [(8, 6), (9, 31), (10, 2), (16, 0x100000), (24, 0x300000), (32, 0x20000)]
    let many : State := { State.reset with vds := (1, { st := .defined }) :: (List.range 128).map fun k => (k + 2, { st := .active, resident := true }) }
    let team (r : Bool) : State := { s0 with vds := [(1, { v1 with pausing := false })], teams := [(0, { t1 with vd := 1 })],
                                             copies := if r then [cp0] else [] }
    cmdHead (cd []) false = false ∧ ((sv { tdi := .locked }).vd 1).tlock = true ∧ (vd (sv {})).tlock = false ∧
    well (ce []) [] ∧ (vd (sv {})).st ≠ .defined ∧ ¬ ((vd (sv {})).st = .active ∨ (vd (sv {})).st = .paused) ∧ (vd (sv {})).st ≠ .paused ∧
    (well crt [(8, 4), (16, 24)] ∧ (vd (sv {})).st = .free ∧ cmdArg crt 8 1 ≤ 6 ∧ cmdArg crt 9 1 < 32 ∧ baseOk (cmdArg crt 24 8) = true ∧ sizeOk (cmdArg crt 32 8) = true ∧
      baseOk (cmdArg crt 16 8) = true ∧ (sv {}).poolOk 1 (cmdArg crt 24 8, cmdArg crt 32 8) = true ∧
      (sv {}).poolOk 1 (cmdArg crt 16 8, cmdArg crt 10 2 * 32 * 2 ^ (10 + cmdArg crt 8 1)) = true) ∧
    ((vd (sv { st := .defined })).st = .defined ∧ ((sv { st := .defined }).vds.filter fun y => y.2.resident).length < Config.residentVds ∧
      Config.residentVds ≤ (many.vds.filter fun y => y.2.resident).length ∧ (vd many).st = .defined) ∧
    ((vd (sv { st := .active })).st = .active ∧ (sv { st := .active }).context 1 = false ∧ (team false).context 1 = true ∧ cmdForce (ce []) = false ∧ cmdForce (ce [] ||| 0x100) = true ∧ well (ce [] ||| 0x100) []) ∧
    ((∀ y ∈ (sv { st := .active }).teams, ¬ (y.2.vd = 1 ∧ y.2.saved = none ∧ (sv { st := .active }).keysOf y.1 ≠ [])) ∧
      ∃ y ∈ (team true).teams, (y.2.vd = 1 ∧ y.2.saved = none ∧ (team true).keysOf y.1 ≠ []) ∧ (team true).copiesTouch y.1 = true) ∧
    (vd (sv { st := .paused })).st = .paused ∧ (vd (sv { st := .active })).drainFrom = none ∧
    (vd (sv { st := .draining, drainFrom := some .paused })).drainFrom = some .paused ∧
    (let e := ce [(8, 3), (10, 4095), (12, 1), (16, 7), (24, 5)]
     let p := partOf e
     well e [(8, 7), (16, 40)] ∧ p.hqBase < 4096 ∧ p.hqCount ≤ 4096 ∧ p.hqBase + p.hqCount ≤ 4096 ∧ cmdArg e 14 1 < 2 ∧ (sv { st := .defined }).partOwned 1 p = false ∧
     (sv { st := .defined }).context 1 = false ∧ cmdForce e = false ∧ p.hard = false ∧ (sv { st := .defined }).teams = []) ∧
    (let e (i x : Nat) := ce [(10, i), (16, x)]
     let s := sv { st := .defined }
     (∀ i ∈ [0, 3, 4, 7, 8, 15, 16], ∀ x ∈ [0, 1, 31, 255, 0x105, 2 ^ 22 - 1], well (e i x) [(8, 4), (16, 8)] ∧ cfgIdx (e i x) = i ∧ cfgVal (e i x) = x) ∧
     s.weirOk (e 3 16) VD.hbmWeir = true ∧ s.weirOk (e 3 16) VD.brxWeir = true ∧ remapOk 0x109 = true ∧ (mget 0 (vd s).remap 7).getLsbD 2 = false) ∧
    (∀ n ∈ [2, 65535], let e := ce [(16, 0x10000), (24, n)]
     well e [(8, 4), (16, 8), (24, 8)] ∧ cfgIdx e = 0 ∧ baseOk (cfgVal e) = true ∧ cmdArg e 24 8 = n ∧
     (sv { st := .defined }).poolOk 1 (cfgVal e, n * 32 * (vd (sv { st := .defined })).stksz) = true) ∧
    (let e := ce [(16, 0x10000), (24, 0x20000)]
     well e [(8, 4), (16, 8), (24, 8)] ∧ sizeOk (cmdArg e 24 8) = true ∧ (sv { st := .defined }).poolOk 1 (cfgVal e, cmdArg e 24 8) = true) := by
  intro well vd crt many team
  have h : ∃ y ∈ (team true).teams, (y.2.vd = 1 ∧ y.2.saved = none ∧ (team true).keysOf y.1 ≠ []) ∧ (team true).copiesTouch y.1 = true :=
    ⟨(0, { t1 with vd := 1 }), by decide +kernel⟩
  and_intros <;> first | exact h | decide +kernel
/-- The host tables of `vd2`, with a guest queue table whose entry 0 is a packet queue on IQ 1. -/
def vd3 (q : QState) : VD := { vd2 with hqBase := 0, hqCount := 16, queues := [(1, { st := q, pkts := [] })], conts := [], hqt := [(1, 1 + 3 * 2 ^ 1)] }
def sq3 (q : QState) : State := { State.reset with
  vds := [(1, vd3 q)]
  mem := { hbm := Mem.writeAll [] (loadTables ++ bytesAt 0x30000 (leBytes 32 (1 + 2 ^ 8 + 0x40000 * 2 ^ 64 + 0x50000 * 2 ^ 128)))
           host := Mem.writeAll [] (bytesAt 0x8000 (leBytes 8 (1 + 2 * 2 ^ 11) ++ leBytes 4 1024 ++ leBytes 4 1025)) } }
theorem witness_QueueAndDeviceCommands :
    let well (e : CmdEntry) (named : List (Nat × Nat)) : Prop := cmdVd e = 1 ∧ cmdHead e false = true ∧ cmdResv e named = true
    let wellDev (e : CmdEntry) (named : List (Nat × Nat)) : Prop := cmdHead e true = true ∧ cmdResv e named = true
    let s := sq3 .disabled
    cmdHead (ce []) true = false ∧
    (∀ a ∈ [0, 15, 31], well (ce [(8, a)]) [(8, 1)] ∧ cmdArg (ce [(8, a)]) 8 1 = a) ∧ (s.vd 1).st = .active ∧ 15 ∉ (s.vd 1).raising ∧
    15 ∈ ((sv { st := .active, raising := [15] }).vd 1).raising ∧
    (∀ x ∈ [0, 1 + 15 * 2, 1 + 16 * 2], let e := ce [(8, 1), (16, x)]
     well e [(8, 2), (16, 8)] ∧ (s.vd 1).tlock = false ∧ cmdArg e 8 2 = 1 ∧ cmdArg e 16 8 = x ∧ mfind (s.vd 1).conts 1 = none) ∧ s.hqTaken 1 1 15 = false ∧ s.chargeOf 1 1 = none ∧
    (s.vd 1).hqBase + (s.vd 1).hqCount = 16 ∧
    (∀ q ∈ [QState.disabled, .halted, .idle], (sq3 q).boundLq 1 1 = some (0, 1 + 2 ^ 8 + 0x40000 * 2 ^ 64 + 0x50000 * 2 ^ 128) ∧
      ((sq3 q).queueOf 1 0).map (fun q => (q.kind, q.iq)) = some (false, 1) ∧ ((sq3 q).queue 1 1).st = q ∧ ((sq3 q).queue 1 1).pkts = []) ∧
    well (ce [(8, 1)]) [(8, 3)] ∧
    (∀ g ∈ [23, 24], let e := cd [(8, 4095), (16, 3 + g * 2 ^ 22), (24, 2 ^ 39 - 2 ^ 39)]
     let w := cmdArg e 16 16
     wellDev e [(8, 2), (16, 16)] ∧ cmdArg e 8 2 < 4096 ∧ fld w 63 28 = 0 ∧ fld w 127 103 = 0 ∧ fld w 27 22 = g ∧ fld w 102 64 % 2 ^ (16 + fld w 27 22) = 0) ∧
    (let e := ce [(8, 5), (12, 16), (16, 0x8000)]
     let hd := s.hostNat 0x8000 8
     well e [(8, 2), (12, 12)] ∧ cmdArg e 16 8 = 0x8000 ∧ fld hd 21 11 = 2 ∧ cmdArg e 12 4 = 8 + 4 * 2 ∧
     s.commOk 1 hd (commRanks ((List.range 16).map fun k => s.hostByte (0x8000 + k)) 2) = true) ∧
    (wellDev (cd [(8, 1023)]) [(8, 2)] ∧ cmdArg (cd [(8, 1023)]) 8 2 < 1024 ∧ (∀ y ∈ (sv { st := .defined }).vds, y.2.st = .free ∨ y.2.st = .defined) ∧
      ∃ y ∈ s.vds, y.2.st = .active ∨ y.2.st = .paused ∨ y.2.st = .draining) ∧
    (∀ i ∈ [0, 1, 3], ∀ x ∈ [100, 799, 800, 1600, 1601, 1000000], let e := cd [(10, i), (16, x)]
      wellDev e [(8, 4), (16, 8)] ∧ cfgIdx e = i ∧ cmdArg e 16 8 = x) := by
  intro well wellDev s
  have h : ∃ y ∈ s.vds, y.2.st = .active ∨ y.2.st = .paused ∨ y.2.st = .draining := ⟨(1, vd3 .disabled), by decide +kernel⟩
  and_intros <;> first | exact h | decide +kernel

/-! ## Witnesses: the device, errors and security, steps and encodings -/

theorem witness_DeviceEvents :
    let lost : State := { State.reset with remapWord := 0x506, retired := [.die 1], lost := [(1, [])] }
    let team1 : State := { s0 with teams := [(0, { t1 with cores := [128] })] }
    let flr (v : VD) : State := { State.reset with vds := [(7, v)] }
    let hot (l : List (Nat × VD)) (d : Option (List Nat)) : State := { State.reset with vds := l, d3Paused := d }
    let k : KaResult := ⟨255, 3, 31, true⟩
    State.reset.retired = [] ∧ RetireEntry.die 1 ∈ lost.retired ∧
    ((∀ e ∈ team1.teams, e.2.seated = true → dieOf (e.2.cores.headD 0) ≠ 0) ∧ ∀ e ∈ s0.teams, e.2.seated = true → dieOf (e.2.cores.headD 0) ≠ 1) ∧ team1.ports = [] ∧ s0.ports = [] ∧ 2 ≤ 2 ∧
    (let s : State := { team1 with mem := { fwd := [⟨0, w1⟩, ⟨1, w1⟩] } }
     s.ports = [] ∧ (∀ e ∈ s.teams, e.2.seated = true → dieOf (e.2.cores.headD 0) ≠ 0) ∧ (s.mem.fwd.filter fun x => x.die == 0) = [⟨0, w1⟩]) ∧
    (team1.dieOk 0 = true ∧ ∀ e ∈ team1.teams, (e.2.seated = true → dieOf (e.2.cores.headD 0) ≠ 0) ∧ e.2.saved = none) ∧ lost.dieOk 1 = false ∧
    (lost.dieOk 1 = false ∧ lost.isLost 1 = true ∧ lost.remapWord.getLsbD 10 = true ∧ lost.lossSettled 1 = true) ∧ ({ lost with remapWord := 0x956 } : State).remapWord.getLsbD 10 = false ∧
    ((flr { st := .active, modes := 8 }).vd 7).modes.getLsbD 3 = true ∧ ((flr { st := .active }).vd 7).modes.getLsbD 3 = false ∧ ((flr { st := .active }).vd 7).running = true ∧
    (((flr {}).vd 7).st = .free ∧ (flr {}).teams = []) ∧ (State.reset.vds = [] ∧ State.reset.teams = []) ∧
    (let s := hot [(3, { st := .active }), (4, { st := .defined })] none
     s.d3Paused = none ∧ (∀ e ∈ s.teams, e.2.saved = none → s.keysOf e.1 ≠ [] → (s.vd e.2.vd).st ≠ .active) ∧ (s.vds.map fun e => e.1).Nodup ∧ ∀ e ∈ s.vds, e.2.pausing = false) ∧
    (hot [(3, { st := .paused })] (some [3])).d3Paused ≠ none ∧
    (105 ≤ 105 ∧ State.reset.powerLimit < 1601 ∧ State.reset.clockSteps < 75 ∧ 104 < 105 ∧ 1600 ≤ State.reset.powerLimit) ∧ (115 ≤ 115 ∧ 114 < 115) ∧
    (({ State.reset with kactl := 6 } : State).kactl.getLsbD 0 = false ∧ State.reset.kactl.getLsbD 0 = true ∧ k.mismatch = true ∧ k.core < 256 ∧ k.quad < 4 ∧ k.lane < 32 ∧
      (mget {} State.reset.kastat k.core).worst < 2 ∧ mget 0 (mget {} State.reset.kastat k.core).counts (32 * k.quad + k.lane) < 2) := by
  intro lost team1 flr hot k
  and_intros <;> decide +kernel
/-- An SPDM connection as far as version, capabilities, algorithms, and a session that has finished or not. -/
def spdmAt (v c a : Bool) (sess : Option Nat) (f : Bool) : State := { State.reset with spdm := ⟨v, c, a, sess, f, 0⟩ }
theorem witness_ErrorAndSecurityEvents :
    let l2 : State := { s0 with mem := { l2 := [c0] } }
    let sv : State := { s0 with teams := [(0, { t1 with saved := some ⟨0, 0x100000, 8192, true, false, none⟩ })] }
    let td (t : Tdi) (st : VdState) : State := { State.reset with vds := [(1023, { st := st, tdi := t })] }
    let q : SpdmReq := ⟨2, 0, [1]⟩
    (mfind s0.groups 1 = some g1 ∧ (mget {} s0.teams g1.tid).saved = none ∧ g1.winOf 63 = none ∧ 63 < g1.ngen) ∧ mfind s0.teams 0 = some t1 ∧
    mfind sv.teams 0 = some { t1 with saved := some ⟨0, 0x100000, 8192, true, false, none⟩ } ∧ 0x10020 < 2 ^ 31 ∧
    (l2.mem.l2Find 0 0x10020 = some c0 ∧ (l2.vd 0).err.eren = false) ∧ s0.mem.l1Find 0 0x10020 = none ∧ (g1.ngen ≤ 71 ∧ 71 < g1.ngen + g1.ncmp) ∧
    ({ State.reset with freorDigest := some [1, 2] } : State).freorDigest = some [1, 2] ∧
    (spdmAt true false false none false).spdm.version = true ∧ State.reset.spdm.version = false ∧ (spdmAt true true false none false).spdm.caps = true ∧
    ((spdmAt true true true none false).spdm.algs = true ∧ q.param = 0 ∧ (spdmAt true true true none false).spdm.session = none) ∧ State.reset.spdm.algs = false ∧
    ((spdmAt true true true (some 2) false).spdm.session = some q.session ∧ (spdmAt true true true (some 2) false).spdm.finished = false) ∧
    (spdmAt true true true (some 2) true).spdm.finished = true ∧ State.reset.spdm.session ≠ some q.session ∧
    ((State.reset.vd 1023).tdi = .unlocked ∧ ((td .locked .active).vd 1023).tdi = .locked ∧ ((td .locked .active).vd 1023).tlock = true ∧
      ((td .run .defined).vd 1023).st = .defined ∧ (td .run .defined).teams = [] ∧ (State.reset.vd 1023).tlock = false) ∧
    (∀ img : FreorImage, (Config.signatureOk img.digest img.signature = true ∧ State.reset.rollback ≤ img.version) ∨
      (Config.signatureOk img.digest img.signature = false ∨ img.version < State.reset.rollback)) ∧
    (0 ≤ 1024 ∧ 63 < (if 0 = 0 then 64 else 8) ∧ 1024 ≤ 1024 ∧ 7 < (if 1024 = 0 then 64 else 8)) := by
  intro l2 sv td q
  have hi (img : FreorImage) : (Config.signatureOk img.digest img.signature = true ∧ State.reset.rollback ≤ img.version) ∨
      (Config.signatureOk img.digest img.signature = false ∨ img.version < State.reset.rollback) := by
    cases h : Config.signatureOk img.digest img.signature
    · exact .inr (.inl rfl)
    · exact (Nat.lt_or_ge img.version State.reset.rollback).elim (fun h => .inr (.inr h)) fun h' => .inl ⟨rfl, h'⟩
  and_intros <;> first | exact hi | decide +kernel
/-- The word of `IADD.s32 v5, v4, v6:rot3` placed where a step fetches. -/
def sf : State := State.reset.withFetchWord 96 0x00080032000000C0200B1A01
def iw : Instr := .iadd .s32 false { z with fmt := .f96, g := some ⟨1, true⟩, d := .v 5, a := .v 4, b := .v 6, pb := .rot 3 }
def rw0 : Row := .ops 0 .blank 0 {} true true
/-- A word placed where a step fetches, for a group with a handler; and whether the step reads it there and may take the group to its handler. -/
def sfr (n w : Nat) : State :=
  let s := State.reset.withFetchWord n w
  { s with groups := s.groups.map fun e => (0, { e.2 with role := .general, ngen := 4, tvec := 0x800, tarea := 0xFFFFFF0000000000 }), teams := s.teams.map fun e => (e.1, { e.2 with scratch := 65536 }) }
def readsWord (n w : Nat) : Bool :=
  let s : State := ({ sfr n w with agenda := [] } : State).tick 0 0
  let g := mget {} s.groups 0
  let h : Group := { g with replay := [] }
  match translate (s.unpark g.vd 0 0x1000) (dieOf g.core) (some g.core) g.vd (mget {} s.teams g.tid).asid 0x1000 3 with
  | .ok (_, u) =>
    let v := u.setGroup 0 h
    u.peekCode h (mget {} s.teams g.tid).asid 0x1000 16 % 2 ^ n == w && g.role != .stream && g.tvec != 0 && !g.inhdl && windowOf g.tarea.toNat == .scratch && h.tareaOk (mget {} v.teams h.tid) &&
      v.groupReqs 0 == []
  | _ => false
/-- Words that the checks refuse: LEN = 3; an opcode of no row; a reserved bit set; a register operand out of reach; an instruction of the stream in a general group; and a word that its block does not hold whole. -/
theorem witness_refusedWords :
    (readsWord 32 3 = true ∧ 3 % 4 = 3) ∧ (readsWord 64 0x3FC = true ∧ formOf 0x3FC = none) ∧
    (let w := 0x80000032000000C0200B1A01; readsWord 96 w = true ∧ formOf w ≠ none ∧ Role.general.permits (opcOf w) = true ∧ decode w = .illegalInstr) ∧
    (readsWord 64 0x708 = true ∧ formOf 0x708 ≠ none ∧ Role.general.permits (opcOf 0x708) = false) ∧
    (let w := 0x00080033000000C0200B1A01; readsWord 96 w = true ∧ formOf w ≠ none ∧ Role.general.permits (opcOf w) = true ∧ decode w = .illegalOperand) ∧
    (readsWord 96 0x00080032000000C0200B1A01 = true ∧ iw.row = some (iw.row.getD rw0) ∧ (let g : Group := mget {} (sfr 96 0x00080032000000C0200B1A01).groups 0; ∃ x ∈ (iw.row.getD rw0).groups, g.ngen + g.ncmp < x.1 + x.2)) ∧
    blockLeft 0xFFC < lenBytes 1 := by
  decide +kernel
theorem witness_StepRunsDecoded :
    let s' : State := ({ sf with agenda := [] } : State).tick 0 0
    let g : Group := loadGroup false
    (sf.agenda = [⟨0, 0, .group 0, []⟩] ∧ sf.stopped = false ∧ mfind s'.groups 0 = some g ∧ s'.OnCore g ∧ g.errs = [] ∧ g.naks = [] ∧ dropInvalid g.replay = [] ∧ g.part = none ∧
      g.forced = none ∧ g.role ≠ .stream) ∧
    (let t := mget {} s'.teams g.tid
     let h : Group := { g with replay := [] }
     h.choose h.agingDue (fun p => s'.atConvergence h t.asid p.toNat) = some (0x1000, g.agingPtr) ∧ (0x1000 : DWord).toNat % 4 = 0 ∧ windowOf (0x1000 : DWord).toNat = .global ∧
     ∃ e u, translate s' (dieOf g.core) (some g.core) g.vd t.asid 0x1000 3 = .ok (e, u) ∧
       (e.loc 0x1000).space ≠ .remote ∧ u.admits g.vd (e.loc 0x1000) ((e.loc 0x1000).addr, 1) false = true ∧ u.engineBad (dieOf g.core) (e.loc 0x1000) (e.loc 0x1000).addr 1 = false ∧
       (let w := u.peekCode h t.asid 0x1000 (min (blockLeft 0x1000) 16)
        ∃ i n r, decode w = .ok i n ∧ i.row = some r ∧ w % 4 ≠ 3 ∧ n ≤ blockLeft 0x1000 ∧ g.role.permits (opcOf w) = true ∧
          (∀ x ∈ r.groups, x.1 + x.2 ≤ g.ngen + g.ncmp) ∧ keepsBeyond h i = false ∧ h.inWindow r = none ∧ u.binPending 0 r = false)) ∧
    (let s (w : Who) : State := { State.reset with agenda := [⟨3, 5, w, [(7, 1)]⟩] }
     (s (.event (.kaInjection ⟨0, 0, 0, false⟩))).agenda = [⟨3, 5, .event (.kaInjection ⟨0, 0, 0, false⟩), [(7, 1)]⟩] ∧ Instr.isEvent (.kaInjection ⟨0, 0, 0, false⟩) = true ∧
     (s (.event .deviceReset)).agenda = [⟨3, 5, .event .deviceReset, [(7, 1)]⟩] ∧ State.reset.agenda = [] ∧ ({ s (.group 0) with stopped := true } : State).stopped = true) ∧
    (let s : State := { State.reset with agenda := [⟨1, 1, .freor, []⟩], cmdEn := true, cmdBase := 0x10000, cmdProd := 1, mem := { host := Mem.writeAll [] (bytesAt 0x10000 (leBytes 64 1)) } }
     s.stopped = false ∧ s.cmdLog ≤ 4 ∧ s.cmdBase % (64 * s.cmdSize) = 0 ∧ s.cmdProd ≠ s.cmdCons ∧ commandOf (BitVec.ofNat 512 (s.hostNat s.cmdAddr 64)) = some (.create 1)) := by
  intro s' g
  refine ⟨⟨by decide +kernel, by decide +kernel, by decide +kernel, ⟨by decide +kernel, by decide +kernel, by decide +kernel⟩, by decide +kernel⟩,
    ⟨by decide +kernel, by decide +kernel, by decide +kernel, ?_⟩, by decide +kernel, by decide +kernel⟩
  have ht (r : Except XFault (TlbEntry × State)) (d : TlbEntry × State) (h : r.toOption.isSome = true) : r = .ok ((r.toOption.getD d).1, (r.toOption.getD d).2) := by
    cases r with
    | error e => cases h
    | ok x => rfl
  refine ⟨_, _, ht (translate s' (dieOf g.core) (some g.core) g.vd (mget {} s'.teams g.tid).asid 0x1000 3) (e1, s') (by decide +kernel), by decide +kernel, by decide +kernel, by decide +kernel, iw, 12,
    iw.row.getD rw0, by decide +kernel⟩
/-- The completion word of a command lies in its ring; there is none where the ring is not open. -/
theorem witness_completion : let s : State := { State.reset with cmdEn := true, cmdBase := 0x10000, cmdProd := 1 }
    s.cmdCap.admits (s.cmdAddr + 56) 8 1 9 = true ∧ State.reset.cmdCap.admits (State.reset.cmdAddr + 56) 8 1 9 = false := by decide +kernel
theorem witness_StepKeepsSafe : State.reset.safe ∧ step State.reset = .next (State.reset.tick 1 0) := ⟨State.reset_safe, rfl⟩
theorem witness_EncodeDecode :
    let i : Instr := .iadd .s32 false { z with fmt := .f96, g := some ⟨1, true⟩, d := .v 5, a := .v 4, b := .v 6, pb := .rot 3 }
    i.row.isSome = true ∧ i.wf = true := by decide +kernel
theorem witness_DecodeEncode : decode 0x00080032000000C0200B1A01 = .ok (.iadd .s32 false { z with fmt := .f96, g := some ⟨1, true⟩, d := .v 5, a := .v 4, b := .v 6, pb := .rot 3 }) 12 := by
  decide +kernel

end Sys2Proof.Tests
end

section
/-! PROOF. Frames: what the work of the memory system, of the error rings and of the name service leaves unchanged. -/
namespace Sys2Proof.Machine

/-- What every step of a fold keeps, the fold keeps. -/
theorem foldl_keeps {α β σ : Type} {p : σ → β} {f : σ → α → σ} (h : ∀ s x, p (f s x) = p s) (xs : List α) (s : σ) :
    p (xs.foldl f s) = p s := by
  induction xs generalizing s with
  | nil => rfl
  | cons x xs ih => rw [List.foldl_cons, ih, h]

/-! ## The memory system -/

/-- The state without what the memory system changes by itself: bytes and copies, the counter of free
values, the noted writes to operands of streams, and messages to the host. -/
def State.bare (s : State) : State := { s with mem := {}, freeCtr := 0, marks := [], msgs := [] }

@[simp] theorem State.bare_setMem (s : State) (f : MemSys → MemSys) : (s.setMem f).bare = s.bare := rfl
@[simp] theorem State.bare_bumpFree (s : State) : s.bumpFree.bare = s.bare := rfl
@[simp] theorem State.bare_carry (s : State) (p : Carrier → Bool) (c : Carrier) : (s.carry p c).bare = s.bare := rfl
@[simp] theorem State.bare_wrote (s : State) (k : Option Nat) (r : Bool) (w : QStore) : (s.wrote k r w).bare = s.bare := rfl
@[simp] theorem State.bare_cisternWrite (s : State) (w : QStore) : (s.cisternWrite w).bare = s.bare := rfl
@[simp] theorem State.bare_l2Drop (s : State) (die : Nat) (secs : List Nat) : (s.l2Drop die secs).bare = s.bare := rfl
@[simp] theorem State.bare_cisternPut (s : State) (w : QStore) : (s.cisternPut w).bare = s.bare := by simp [State.cisternPut]
@[simp] theorem State.bare_l1Update (s : State) (core : Nat) (w : QStore) : (s.l1Update core w).bare = s.bare := rfl
@[simp] theorem State.bare_meet (s : State) (vd : Option Nat) (secs : List Nat) : (s.meet vd secs).bare = s.bare := by
  unfold State.meet; split <;> simp
@[simp] theorem State.bare_writeBackCopy (s : State) (c : L2Copy) : (s.writeBackCopy c).bare = s.bare := by
  unfold State.writeBackCopy; dsimp only; split <;> simp
@[simp] theorem State.bare_l2Evict (s : State) (f : L2Copy → Bool) : (s.l2Evict f).bare = s.bare :=
  foldl_keeps State.bare_writeBackCopy _ s
@[simp] theorem State.bare_l2Fill (s : State) (die sec : Nat) (c : Bool) (vd : Nat) : (s.l2Fill die sec c vd).bare = s.bare := by
  unfold State.l2Fill
  split
  · rfl
  · dsimp only; split <;> simp
@[simp] theorem State.bare_l2Put (s : State) (die : Nat) (w : QStore) (d : Bool) (sec : Nat) : (s.l2Put die w d sec).bare = s.bare :=
  s.bare_l2Fill die sec w.dieCoh w.vd
@[simp] theorem State.bare_l2Apply (s : State) (die : Nat) (w : QStore) (d : Bool) : (s.l2Apply die w d).bare = s.bare :=
  foldl_keeps (fun s => s.bare_l2Put die w d) _ s
@[simp] theorem State.bare_l2Accept (s : State) (die : Nat) (w : QStore) : (s.l2Accept die w).bare = s.bare := by
  unfold State.l2Accept; dsimp only; split <;> simp
@[simp] theorem State.bare_forwardOne (s : State) (die : Nat) : (s.forwardOne die).bare = s.bare := by
  unfold State.forwardOne; split <;> simp
@[simp] theorem State.bare_ackOne (s : State) (die : Nat) : (s.ackOne die).bare = s.bare := by
  unfold State.ackOne; split <;> simp
@[simp] theorem State.bare_flushDie (s : State) (die : Nat) : (s.flushDie die).bare = s.bare :=
  (foldl_keeps (fun s (_ : Nat) => s.bare_ackOne die) _ _).trans (foldl_keeps (fun s (_ : Nat) => s.bare_forwardOne die) _ s)
@[simp] theorem State.bare_ackAll (s : State) : s.ackAll.bare = s.bare :=
  foldl_keeps (fun s (_ : Nat) => by rw [State.bare_ackOne, State.bare_ackOne]) _ s
@[simp] theorem State.bare_dropInit (s : State) (bs : List (Nat × Byte)) : (s.dropInit bs).bare = s.bare := by
  unfold State.dropInit; split <;> simp
@[simp] theorem State.bare_mark (s : State) (tid : Nat) (w : Option Carrier) (d : List Dirty) : (s.mark tid w d).bare = s.bare := by
  unfold State.mark; split <;> rfl
/-- A write to a store other than a scratchpad notes nothing in a team. -/
theorem State.bare_enterView (s : State) (core : Nat) (k : Option Carrier) (w : QStore) (h : w.space ≠ .scratch) :
    (s.enterView core k w).bare = s.bare := by
  unfold State.enterView
  split
  · simp
  · simp
  · contradiction
  · dsimp only; split <;> rfl
  · rfl
theorem State.bare_engineWrite (s : State) (die : Nat) (w : QStore) (who : Option Carrier) (h : w.space ≠ .scratch) :
    (s.engineWrite die w who).bare = s.bare := by
  unfold State.engineWrite
  rw [State.bare_wrote]
  split
  · split
    · exact s.bare_l2Apply die w true
    · exact (State.bare_cisternPut _ w).trans (s.bare_flushDie die)
  · exact s.bare_cisternWrite w
  · exact s.bare_enterView 0 who w h
@[simp] theorem State.bare_writeHost (s : State) (a : Nat) (bs : List Byte) : (s.writeHost a bs).bare = s.bare :=
  s.bare_engineWrite _ _ _ Space.noConfusion
@[simp] theorem State.bare_writeGpa (s : State) (vd gpa : Nat) (bs : List Byte) : (s.writeGpa vd gpa bs).bare = s.bare := by
  unfold State.writeGpa
  split
  · rfl
  · rename_i l _
    have hsp : (if fld l.e 57 56 = 0 then Space.hbm else if fld l.e 57 56 = 1 then Space.remote else Space.host) ≠ .scratch := by
      split_ifs <;> decide
    generalize (if fld l.e 57 56 = 0 then Space.hbm else if fld l.e 57 56 = 1 then Space.remote else Space.host) = sp at hsp
    dsimp only
    split
    · exact s.bare_engineWrite _ _ _ hsp
    · rfl

/-! ## A group's stores leave its queue (R222, R224) -/

/-- `t` is `s` after stores of group `key` have left its queue and been performed: of the groups,
only that one's queue and noted registers differ, and of a team's record nothing. -/
structure State.Drained (key : Nat) (s t : State) : Prop where
  rest : t.bare = { s.bare with groups := t.groups, teams := t.teams, fenced := t.fenced }
  others : ∀ j, j ≠ key → mfind t.groups j = mfind s.groups j
  self : ∃ q d, mget {} t.groups key = { mget {} s.groups key with sq := q, vdirty := d }
  records : ∀ n, (mget {} t.teams n).record = (mget {} s.teams n).record

theorem State.Drained.refl (key : Nat) (s : State) : State.Drained key s s := ⟨rfl, fun _ _ => rfl, ⟨_, _, rfl⟩, fun _ => rfl⟩
theorem State.Drained.trans {key : Nat} {s t u : State} (h : State.Drained key s t) (k : State.Drained key t u) : State.Drained key s u where
  rest := by rw [k.rest, h.rest]
  others j hj := (k.others j hj).trans (h.others j hj)
  self := by
    obtain ⟨q, d, hq⟩ := h.self
    obtain ⟨q', d', hq'⟩ := k.self
    exact ⟨q', d', by rw [hq', hq]⟩
  records n := (k.records n).trans (h.records n)
/-- Work that leaves groups and teams alone. -/
theorem State.Drained.of_bare (key : Nat) {s t : State} (h : t.bare = s.bare) : State.Drained key s t := by
  have hg : t.groups = s.groups := (congrArg State.groups h :)
  have ht : t.teams = s.teams := (congrArg State.teams h :)
  have hf : t.fenced = s.fenced := (congrArg State.fenced h :)
  exact ⟨by rw [h, hg, ht, hf]; rfl, fun j _ => by rw [hg], ⟨_, _, by rw [hg]⟩, fun n => by rw [ht]⟩
theorem State.Drained.foldl {α : Type} {key : Nat} {f : State → α → State} (h : ∀ s x, State.Drained key s (f s x)) (xs : List α) (s : State) :
    State.Drained key s (xs.foldl f s) := by
  induction xs generalizing s with
  | nil => exact .refl key s
  | cons x xs ih => exact (h s x).trans (ih _)
theorem State.drained_updTeam (key : Nat) (s : State) (tid : Nat) (f : Team → Team) (h : ∀ t, (f t).record = t.record) :
    State.Drained key s (s.updTeam tid f) := by
  unfold State.updTeam
  split
  · rename_i t ht
    refine ⟨rfl, fun _ _ => rfl, ⟨_, _, rfl⟩, fun n => ?_⟩
    simp only [mget_mset]
    split
    · subst_vars; rw [h, mget, ht]; rfl
    · rfl
  · exact .refl key s
theorem State.drained_markScratch (key : Nat) (s : State) (k : Option Carrier) (bs : List (Nat × Byte)) :
    State.Drained key s (s.markScratch k bs) := by
  unfold State.markScratch
  refine State.Drained.foldl (fun u r => ?_) _ s
  exact (State.Drained.of_bare key (u.bare_mark _ _ _)).trans (State.drained_updTeam key _ _ _ fun _ => rfl)
theorem State.drained_enterView (key : Nat) (s : State) (core : Nat) (k : Option Carrier) (w : QStore) :
    State.Drained key s (s.enterView core k w) := by
  by_cases h : w.space = .scratch
  · unfold State.enterView
    rw [h]
    exact (State.Drained.of_bare key (by simp)).trans (State.drained_markScratch key _ _ _)
  · exact .of_bare key (s.bare_enterView core k w h)
/-- A change of the group's queue and noted registers alone. -/
theorem State.drained_setGroup (s : State) (key : Nat) (q : List QStore) (d : AMap Word) :
    State.Drained key s (s.setGroup key { mget {} s.groups key with sq := q, vdirty := d }) :=
  ⟨rfl, fun _ hj => mfind_mset_ne _ _ hj, ⟨q, d, mget_mset_self _ _ _ _⟩, fun _ => rfl⟩
theorem State.drained_settleFence (key : Nat) (s : State) : State.Drained key s (s.settleFence key) := by
  unfold State.settleFence
  split
  · exact State.Drained.trans (t := { s with fenced := mdel s.fenced key }) ⟨rfl, fun _ _ => rfl, ⟨_, _, rfl⟩, fun _ => rfl⟩
      (.of_bare key (State.bare_flushDie _ _))
  · exact .refl key s
theorem State.settleFence_groups (key : Nat) (s : State) : (s.settleFence key).groups = s.groups := by
  unfold State.settleFence
  split
  · exact (congrArg State.groups (State.bare_flushDie _ _) :)
  · rfl
theorem State.drained_drainOne (key : Nat) (s : State) : State.Drained key s (s.drainOne key) := by
  unfold State.drainOne
  split
  · exact .refl key s
  · rename_i g hg
    split
    · exact .refl key s
    · rename_i w q _
      have hk : mget {} (s.settleFence key).groups key = g := by rw [State.settleFence_groups, mget, hg]; rfl
      have hs : State.Drained key s ((s.settleFence key).setGroup key { g with sq := q }) := by
        have := (s.settleFence key).drained_setGroup key q g.vdirty
        rw [hk] at this
        exact (State.drained_settleFence key s).trans this
      exact (hs.trans (State.drained_enterView key _ _ _ w)).trans (.of_bare key (State.bare_wrote _ _ _ _))
theorem State.drained_drain (key : Nat) (s : State) : State.Drained key s (s.drain key) :=
  (State.drained_settleFence key s).trans (.foldl (fun s (_ : Nat) => State.drained_drainOne key s) _ _)
theorem State.drained_publish (key : Nat) (s : State) : State.Drained key s (s.publish key) := by
  unfold State.publish
  refine State.Drained.trans (t := s.updGroup key fun g => { g with vdirty := [] }) ?_ (.of_bare key (State.bare_mark _ _ _ _))
  unfold State.updGroup
  split
  · rename_i g hg
    have := s.drained_setGroup key g.sq []
    rwa [mget, hg] at this
  · exact .refl key s
/-- A release of a group without unfinished BINADDs waits for its stores alone (R222, R304). -/
theorem State.drained_release (key : Nat) (s : State) (sc : Scope) (h : ∀ b ∈ s.binops, b.key ≠ key) : State.Drained key s (s.release key sc) := by
  have hd := State.drained_drain key s
  have hb : (s.drain key).binops = s.binops := (congrArg State.binops hd.rest :)
  have hn : ((s.drain key).binops.filter fun b => b.key == key) = [] := by
    rw [hb, List.filter_eq_nil_iff]; simpa using h
  have hs : s.settleStores key = s.drain key := by unfold State.settleStores State.binFinish; rw [hn]; rfl
  have hp := hd.trans (State.drained_publish key _)
  unfold State.release
  rw [hs]
  dsimp only
  split
  · exact hp
  · exact hp.trans (.of_bare key (State.bare_flushDie _ _))
/-- What a drained state still says of its group. -/
theorem State.Drained.grp {s t : State} (h : State.Drained s.iss.key s t) : ∃ q d, t.grp = { s.grp with sq := q, vdirty := d } := by
  have hi : t.iss = s.iss := (congrArg State.iss h.rest :)
  unfold State.grp
  rw [hi]
  exact h.self

/-! ## The tables of the device -/

/-- What the device says of its dies and cores: the remap table, the retirement list, the losses
under way, the incarnations and KASTAT (R12, R14, R21, R388). -/
def State.dies (s : State) : State :=
  { State.reset with fuse := s.fuse, remapWord := s.remapWord, retired := s.retired, lost := s.lost, inc0 := s.inc0, inc1 := s.inc1, kastat := s.kastat }

theorem State.dies_of_bare {s t : State} (h : t.bare = s.bare) : t.dies = s.dies := (congrArg State.dies h :)
@[simp] theorem State.dies_updVd (s : State) (n : Nat) (f : VD → VD) : (s.updVd n f).dies = s.dies := rfl
@[simp] theorem State.dies_setGroup (s : State) (k : Nat) (g : Group) : (s.setGroup k g).dies = s.dies := rfl
@[simp] theorem State.dies_updGroup (s : State) (k : Nat) (f : Group → Group) : (s.updGroup k f).dies = s.dies := by
  unfold State.updGroup; split <;> rfl
@[simp] theorem State.dies_updTeam (s : State) (n : Nat) (f : Team → Team) : (s.updTeam n f).dies = s.dies := by
  unfold State.updTeam; split <;> rfl
@[simp] theorem State.dies_updErr (s : State) (vd : Option Nat) (f : ErrBlock → ErrBlock) : (s.updErr vd f).dies = s.dies := by
  cases vd <;> rfl
@[simp] theorem State.dies_postIrq (s : State) (vd src : Nat) : (s.postIrq vd src).dies = s.dies := by
  unfold State.postIrq State.sendMsix
  dsimp only
  split_ifs <;> rfl
@[simp] theorem State.dies_errDevice (s : State) (x : ErrInfo) (o : Word) : (s.errDevice x o).dies = s.dies := by
  show (if _ then _ else _ : State).dies = _
  split
  · exact State.dies_of_bare (State.bare_writeHost _ _ _)
  · rfl
@[simp] theorem State.dies_errRecord (s : State) (x : ErrInfo) : (s.errRecord x).1.dies = s.dies := by
  unfold State.errRecord
  cases x.vd with
  | none => exact s.dies_errDevice x 0
  | some v =>
    dsimp only
    generalize hu : (if (s.vd v).err.room = true then s.writeGpa v (s.vd v).err.slot (s.errBytes x (s.vd v).err.seq 0 0) else s) = u
    have h : u.dies = s.dies := by
      rw [← hu]
      split
      · exact State.dies_of_bare (State.bare_writeGpa _ _ _ _)
      · rfl
    split <;> simp [h]
@[simp] theorem State.dies_writeSave (s : State) (tid : Nat) : (s.writeSave tid).dies = s.dies := by
  unfold State.writeSave
  split
  · rfl
  · dsimp only
    split
    · exact State.dies_of_bare (State.bare_cisternPut _ _)
    · exact s.dies_errRecord _
@[simp] theorem State.dies_reseal (s : State) (key : Nat) : (s.reseal key).dies = s.dies := by
  unfold State.reseal
  dsimp only
  split
  · rfl
  · split <;> simp
/-- Bringing the saved teams up to date changes nothing of the dies (R352). -/
@[simp] theorem State.dies_reviewSaved (s : State) : s.reviewSaved.dies = s.dies := by
  unfold State.reviewSaved
  refine foldl_keeps (p := State.dies) (fun s e => ?_) _ s
  split
  · dsimp only; split <;> simp
  · rfl

/-! ## Remote stores that are delivered or refused (R392, R400 to R402) -/

/-- The state in which the receiving device has counted a NAK of reason `r`, where it is one (R402). -/
def State.nakCounted (s : State) (m : RemoteStore) (r : Nat) : State :=
  if r = 0 then s else s.updErr (if r = 4 then none else some (nameVd m.gname)) fun b => { b with rstrdrop := satInc b.rstrdrop }
/-- The answer to a store counts a NAK and sends an outcome. -/
theorem State.answerStore_eq (s : State) (m : RemoteStore) (r : Nat) :
    ∃ o ms, s.answerStore m r = { s.nakCounted m r with outcomes := o, msgs := ms } := by
  by_cases h : m.sdev = (s.nakCounted m r).devNum
  · exact ⟨_, _, if_pos h⟩
  · exact ⟨_, _, if_neg h⟩
@[simp] theorem State.dies_answerStore (s : State) (m : RemoteStore) (r : Nat) : (s.answerStore m r).dies = s.dies := by
  obtain ⟨o, ms, h⟩ := s.answerStore_eq m r
  rw [h]
  show (s.nakCounted m r).dies = s.dies
  unfold State.nakCounted
  split <;> simp
@[simp] theorem State.dies_landStore (s : State) (m : RemoteStore) : (s.landStore m).dies = s.dies := by
  unfold State.landStore
  split
  · simp
  · rename_i k g _
    dsimp only
    generalize hu : (s.setGroup k (g.applyStore m).1).reseal k = u
    have h : u.dies = s.dies := by rw [← hu]; simp
    have hacq : ∀ (b : Bool) (v : State), (if b = true then v.acquire g.core .pod else v).dies = v.dies := by
      intro b v; cases b <;> rfl
    rw [State.dies_answerStore]
    refine (hacq _ _).trans ?_
    split
    · split_ifs <;> exact h
    · exact h
@[simp] theorem State.dies_touchDie (s : State) (m : RemoteStore) : (s.touchDie m).dies = s.dies := by
  unfold State.touchDie
  split <;> simp
theorem State.dies_deliverStore (s : State) (m : RemoteStore) {t : State} (h : s.deliverStore m = some t) : t.dies = s.dies := by
  unfold State.deliverStore at h
  split at h
  · cases h; exact s.dies_updErr _ _
  · dsimp only at h
    split at h
    · cases h; simp
    · split at h
      · split at h
        · cases h
        · cases h; exact s.dies_touchDie m
      · cases h; simp
@[simp] theorem State.dies_drainPorts (s : State) : s.drainPorts.dies = s.dies := by
  unfold State.drainPorts
  refine (foldl_keeps (p := State.dies) (fun u m => ?_) _ _).trans rfl
  split
  · rfl
  · split
    · exact u.dies_deliverStore m ‹_›
    · rfl
@[simp] theorem State.dies_nakHeld (s : State) (p : DWord → Bool) : (s.nakHeld p).dies = s.dies :=
  foldl_keeps (fun u m => u.dies_answerStore m 1) _ _
@[simp] theorem State.dies_nakDead (s : State) : s.nakDead.dies = s.dies := by unfold State.nakDead; simp

/-! ## What only the VDs and the messages show -/

/-- The state without the VDs, the error block of the device, and the stores and outcomes under way. -/
def State.sansVds (s : State) : State := { s with vds := [], err := {}, transit := [], outcomes := [], msgs := [] }

@[simp] theorem State.sansVds_updVd (s : State) (n : Nat) (f : VD → VD) : (s.updVd n f).sansVds = s.sansVds := rfl
@[simp] theorem State.sansVds_updErr (s : State) (vd : Option Nat) (f : ErrBlock → ErrBlock) : (s.updErr vd f).sansVds = s.sansVds := by
  cases vd <;> rfl
@[simp] theorem State.sansVds_answerStore (s : State) (m : RemoteStore) (r : Nat) : (s.answerStore m r).sansVds = s.sansVds := by
  obtain ⟨o, ms, h⟩ := s.answerStore_eq m r
  rw [h]
  show (s.nakCounted m r).sansVds = s.sansVds
  unfold State.nakCounted
  split <;> simp
theorem State.sansVds_nakHeld (s : State) (p : DWord → Bool) : (s.nakHeld p).sansVds = s.sansVds :=
  foldl_keeps (fun u m => u.sansVds_answerStore m 1) _ _
theorem State.drainPorts_nil (s : State) (h : s.ports = []) : s.drainPorts = s := by
  unfold State.drainPorts; rw [h]
  show ({ s with ports := [] } : State) = s
  rw [← h]
theorem State.sansVds_nakDead (s : State) (h : s.ports = []) : s.nakDead.sansVds = s.sansVds := by
  have hs := s.sansVds_nakHeld fun n => (s.nameState n).isNone
  have hp : (s.nakHeld fun n => (s.nameState n).isNone).ports = [] := (congrArg State.ports hs).trans h
  unfold State.nakDead
  rw [State.drainPorts_nil _ hp, hs]

end Sys2Proof.Machine
end

section
/-! PROOF. Remote stores and inboxes: what RSTR, IBARM, IBWAIT and IBSTAT do (R272 to R279). -/
namespace Sys2Proof.Machine

/-! ## The group and the bytes after an instruction -/

@[simp] theorem Group.ended_v (i : Issue) (g : Group) : (g.ended i).v = g.v := by unfold Group.ended Group.endedAt; split <;> rfl
@[simp] theorem Group.ended_s (i : Issue) (g : Group) : (g.ended i).s = g.s := by unfold Group.ended Group.endedAt; split <;> rfl
@[simp] theorem Group.ended_p (i : Issue) (g : Group) : (g.ended i).p = g.p := by unfold Group.ended Group.endedAt; split <;> rfl
@[simp] theorem Group.ended_ibc (i : Issue) (g : Group) : (g.ended i).ibc = g.ibc := by unfold Group.ended Group.endedAt; split <;> rfl
@[simp] theorem Group.ended_send (i : Issue) (g : Group) : (g.ended i).send = g.send := by unfold Group.ended Group.endedAt; split <;> rfl
@[simp] theorem Group.ended_tdmask (i : Issue) (g : Group) : (g.ended i).tdmask = g.tdmask := by unfold Group.ended Group.endedAt; split <;> rfl
@[simp] theorem Group.ended_inbox (i : Issue) (g : Group) (k : Nat) : (g.ended i).inbox k = g.inbox k := by simp [Group.inbox]
@[simp] theorem State.grp_updGrp_finish (s : State) (f : Group → Group) : (s.updGrp f).finish.grp = (f s.grp).ended s.iss := by
  rw [State.updGrp_finish, State.grp_updGrp]

/-- An operation that leaves the memory system alone changes no byte. -/
theorem State.sameBytes_of_mem {s t : State} (hm : t.mem = s.mem) (he : t.epoch = s.epoch) : s.SameBytes t := by
  constructor <;> intros <;>
    simp only [State.hbmByte, State.hostByte, State.remoteByte, State.scratchByte, State.tileByte, State.sideByte, hm, he]

/-- A clean s register is consumed without a tag. -/
theorem SReg.consumed_clean {r : SReg} (h : r.tag = .clean) (o : Opnd) (m : Word) :
    ((r.consumed o m).dp ||| (r.consumed o m).fp) &&& (r.consumed o m).lanes = 0 := by
  simp [SReg.consumed, h, allLanes]

/-! ## IBSTAT and IBARM.dis (R273, R277) -/

theorem execIbstatIbox_uniOp (ctr : BitVec 2) (o : Ops) (s : State) :
    s.UniOp o (s.grp.inbox ctr.toNat).word .clean (execIbstatIbox ctr o s) := by
  intro h
  unfold execIbstatIbox
  rw [State.ifActive_eq _ _ h]
  exact s.uniOp_putS o _ .clean h

/-- The send status read and, with .clr, its NAKs forgotten. -/
def Group.sendRead (g : Group) (clr : Bool) : Group :=
  if clr then { g with send := { g.send with naks := 0, lreason := 0, lseq := 0 } } else g
theorem State.putS_eq (s : State) (d : Opnd) (x : DWord) (t : Tag) (h : s.iss.act ≠ 0) :
    s.putS d x t = (s.updGrp fun g => g.writeS d.reg x (s.uniTag t)).finish := by
  unfold State.putS
  rw [if_neg h]; rfl
theorem execIbstatSend_does (clr : Bool) (o : Ops) (s : State) :
    s.Does (fun g => (g.sendRead clr).writeS o.d.reg s.grp.send.word (s.uniTag .clean)) (execIbstatSend clr o s) := by
  intro h
  unfold execIbstatSend
  rw [State.ifActive_eq _ _ h]
  cases clr with
  | false =>
    simp only [Bool.false_eq_true, if_false]
    rw [State.putS_eq _ _ _ _ h]; rfl
  | true =>
    simp only [if_true]
    rw [State.putS_eq (s.updGrp _) _ _ _ h, State.updGrp_updGrp]; rfl

/-- A counter that is armed is cancelled. -/
def Group.disarm (c : Nat) (g : Group) : Group :=
  if (g.inbox c).armed then { g with ibc := mset g.ibc c { g.inbox c with armed := false, rem := 0, canc := true } } else g
theorem execIbarmDis_does (ctr : BitVec 2) (o : Ops) (s : State) : s.Does (Group.disarm ctr.toNat) (execIbarmDis ctr o s) :=
  fun h => congrArg Host.Outcome.next (State.ifActive_eq _ _ h)
theorem Group.disarm_rest (c : Nat) (g : Group) : g.disarm c = { g with ibc := (g.disarm c).ibc } := by
  unfold Group.disarm; split <;> rfl
theorem Group.disarm_inbox (c : Nat) (g : Group) :
    (g.disarm c).inbox c = if (g.inbox c).armed then { g.inbox c with armed := false, rem := 0, canc := true } else g.inbox c := by
  unfold Group.disarm
  split
  · exact mget_mset_self _ _ _ _
  · rfl

/-! ## IBWAIT (R278) -/

/-- A uniform result written after copies of the L1s have been dropped is that of a load. -/
theorem State.putS_loaded (s : State) (l1 : List L1Copy) (d : Opnd) (x : DWord) (t : Tag) (h : s.iss.act ≠ 0) :
    let u : State := { s with mem := { s.mem with l1 := l1 } }
    s.Loaded (u.putS d x t) [] [d.reg] ∧ (u.putS d x t).grp.sreg d.reg = ⟨x, s.uniTag t⟩ := by
  intro u
  obtain ⟨hran, hreg⟩ := u.putS_spec d x t h
  refine ⟨?_, hreg⟩
  have hrest := hran.rest
  have hbytes := hran.sameBytes
  generalize u.putS d x t = v at hran hrest hbytes
  constructor
  · rw [hrest]
  · intro k; rw [hrest]; rfl
  · exact hran.others
  · exact hran.self
  · exact ⟨fun a => .inl (hbytes.hbm a), hbytes.host, hbytes.remote, hbytes.scratch, hbytes.tile, hbytes.side⟩

theorem execIbwait_disarmed (ctr : BitVec 2) (o : Ops) (s : State) (h : s.iss.act ≠ 0) (ha : (s.grp.inbox ctr.toNat).armed = false) :
    ∃ t, execIbwait ctr o s = .next t ∧ s.Loaded t [] [o.d.reg] ∧
      t.grp.sreg o.d.reg = ⟨(s.grp.inbox ctr.toNat).status, s.uniTag (s.uniA o).tag⟩ := by
  have hl1 : ∃ l1, (if (s.grp.inbox ctr.toNat).done then s.acquire s.grp.core .pod else s) = { s with mem := { s.mem with l1 := l1 } } := by
    split
    · exact ⟨_, rfl⟩
    · exact ⟨_, rfl⟩
  obtain ⟨l1, hl1⟩ := hl1
  refine ⟨_, congrArg Host.Outcome.next ((State.ifActive_eq _ _ h).trans ?_), s.putS_loaded l1 o.d _ _ h⟩
  simp only [ha, Bool.not_false, if_true]
  rw [hl1]

/-- A wait whose time has run out ends with status 1. -/
theorem execIbwait_timedOut (ctr : BitVec 2) (o : Ops) (s : State) (h : s.iss.act ≠ 0) (ha : (s.grp.inbox ctr.toNat).armed = true)
    (ht : s.timedOut .inbox = true) :
    ∃ t, execIbwait ctr o s = .next t ∧ s.Loaded t [] [o.d.reg] ∧ t.grp.sreg o.d.reg = ⟨1, s.uniTag (s.uniA o).tag⟩ := by
  refine ⟨_, congrArg Host.Outcome.next ((State.ifActive_eq _ _ h).trans ?_), s.putS_loaded s.mem.l1 o.d _ _ h⟩
  simp only [ha, ht, Bool.not_true, Bool.false_eq_true, if_false, if_true]
/-- A wait that has time left goes on. -/
theorem execIbwait_waits (ctr : BitVec 2) (o : Ops) (s : State) (h : s.iss.act ≠ 0) (ha : (s.grp.inbox ctr.toNat).armed = true)
    (ht : s.timedOut .inbox = false) : execIbwait ctr o s = .next (s.waitFor .inbox ctr.toNat (fld (s.uniA o).val.toNat 31 0)) := by
  refine congrArg Host.Outcome.next ((State.ifActive_eq _ _ h).trans ?_)
  simp only [ha, ht, Bool.not_true, Bool.false_eq_true, if_false]
theorem State.timedOut_due (s : State) (k : WaitKind) (d : Nat) (hk : s.grp.wait.kind = k) (hd : s.grp.wait.due = some d) (hc : d ≤ s.clkOf s.grp.core) :
    s.timedOut k = true := by
  simp [State.timedOut, hk, hd, hc]
/-- A group that did not wait has no time to run out. -/
theorem State.timedOut_fresh (s : State) (k : WaitKind) (hw : s.grp.wait = {}) : s.timedOut k = false := by
  simp [State.timedOut, hw]
theorem State.deadline_fresh (s : State) (k : WaitKind) (n : Nat) (hk : k ≠ .none) (hw : s.grp.wait = {}) (hp : s.iss.pi = 0) :
    s.deadline k n = if n = 0 then none else some (s.clkOf s.grp.core + n) := by
  simp [State.deadline, hw, hp, hk.symm]
/-- An instruction that waits writes no register. -/
theorem State.hold_grp (s : State) (w : Wait) (pend pi : Word) (hr : s.iss.replay = false) :
    (s.hold w pend pi).grp = { s.grp with wait := w, pi := pi, part := some (s.entryOf pend pi false) } := by
  unfold State.hold
  rw [State.grp_updGrp, hr]; rfl

/-! ## IBARM (R273, R274) -/

/-- A register takes the general shape and keeps its values. -/
def Group.generalise (g : Group) (k : Nat) : Group := { g with v := mset g.v k { g.vreg k with val := .general (g.vreg k).val.words } }
/-- The registers of a window take the general shape. -/
def Group.openWindow (base n : Nat) (g : Group) : Group := (List.range n).foldl (fun g i => g.generalise (base + i)) g
@[simp] theorem Group.openWindow_s (base n : Nat) (g : Group) : (g.openWindow base n).s = g.s := by
  unfold Group.openWindow
  refine foldl_keeps (p := Group.s) (fun g i => ?_) _ g
  rfl
@[simp] theorem Group.openWindow_p (base n : Nat) (g : Group) : (g.openWindow base n).p = g.p := by
  unfold Group.openWindow
  refine foldl_keeps (p := Group.p) (fun g i => ?_) _ g
  rfl
@[simp] theorem Group.openWindow_ibc (base n : Nat) (g : Group) : (g.openWindow base n).ibc = g.ibc := by
  unfold Group.openWindow
  refine foldl_keeps (p := Group.ibc) (fun g i => ?_) _ g
  rfl
theorem Group.generalise_lane (g : Group) (k j : Nat) {l : Nat} (hl : l < 32) : ((g.generalise k).vreg j).val.lane l = (g.vreg j).val.lane l := by
  unfold Group.generalise Group.vreg
  dsimp only
  rw [mget_mset]
  split
  · subst_vars; exact Shape.lane_general _ hl
  · rfl
theorem Group.openWindow_lane (base n : Nat) (g : Group) (j : Nat) {l : Nat} (hl : l < 32) :
    ((g.openWindow base n).vreg j).val.lane l = (g.vreg j).val.lane l :=
  foldl_keeps (p := fun g : Group => (g.vreg j).val.lane l) (fun g i => g.generalise_lane (base + i) j hl) _ g

/-- The checks of IBARM, in order, refuse nothing. -/
theorem State.ibarmRefused_none (s : State) (c e w : Nat) (ha : (s.grp.inbox c).armed = false) (he : e % 128 = 0) (hlo : 128 ≤ e) (hhi : e ≤ 2 ^ 24)
    (hn : fld w 16 10 ≠ 0) (hn64 : fld w 16 10 ≤ 64) (hw : fld w 63 17 = 0) (hgen : fld w 9 0 + fld w 16 10 ≤ s.grp.ngen)
    (hmeet : ∀ y ∈ s.grp.ibc, y.1 ≠ c → y.2.armed = true → windowsMeet (fld w 9 0) (fld w 16 10) y.2.wbase y.2.wcnt = false) :
    s.ibarmRefused c e w = none := by
  have h7 : ¬(e % 128 ≠ 0 ∨ e < 128 ∨ 2 ^ 24 < e) := by omega
  have h8 : ¬(fld w 16 10 = 0 ∨ 64 < fld w 16 10 ∨ fld w 63 17 ≠ 0 ∨ s.grp.ngen + s.grp.ncmp < fld w 9 0 + fld w 16 10) := by omega
  have h9 : (s.grp.ibc.any fun x => x.1 != c && x.2.armed && windowsMeet (fld w 9 0) (fld w 16 10) x.2.wbase x.2.wcnt) = false := by
    rw [List.any_eq_false]
    intro y hy
    by_cases hc : y.1 = c
    · simp [hc]
    · cases hy' : y.2.armed
      · simp
      · simp [hmeet y hy hc hy']
  have h3 : ¬ s.grp.ngen < fld w 9 0 + fld w 16 10 := by omega
  unfold State.ibarmRefused
  simp only [ha, h7, h8, h9, h3, Bool.false_eq_true, if_false]

/-- A counter is armed over a window. -/
def Group.arm (c e w : Nat) (g : Group) : Group :=
  let g := g.openWindow (fld w 9 0) (fld w 16 10)
  { g with ibc := mset g.ibc c { rem := e, armed := true, canc := false, done := false, wbase := fld w 9 0, wcnt := fld w 16 10 } }
theorem execIbarm_arms (ctr : BitVec 2) (o : Ops) (s : State) (h : s.iss.act ≠ 0) (ha : (s.uniA o).tag = .clean) (hb : (s.uniB o).tag = .clean)
    (hr : s.ibarmRefused ctr.toNat (s.uniA o).val.toNat (s.uniB o).val.toNat = none) :
    execIbarm ctr o s = .next ((s.uncarry (· == .inbox s.iss.key ctr.toNat)).updGrp
      (Group.arm ctr.toNat (s.uniA o).val.toNat (s.uniB o).val.toNat)).finish := by
  have hclean : ∀ x ∈ [(s.uniA o).consumed o.a s.iss.act, (s.uniB o).consumed o.b s.iss.act], (x.dp ||| x.fp) &&& x.lanes = 0 := by
    simpa using ⟨SReg.consumed_clean ha o.a _, SReg.consumed_clean hb o.b _⟩
  refine congrArg Host.Outcome.next ((State.ifActive_eq _ _ h).trans ((State.consume_clean hclean).trans ?_))
  simp only [hr]
  rfl

/-! ## RSTR (R22, R275, R355) -/

/-- The die whose name-service queue takes a store for a name of this device. -/
def State.farDie (s : State) (name : DWord) : Option Nat := if nameDev name = s.devNum then s.serviceDie name else none
/-- The state once RSTR's release, or the fence that holds back its write, is done. -/
def State.beforeSend (s : State) (od : MemOrd) : State :=
  if od.isRel then (s.release s.iss.key .pod).releaseTo s.iss.key (.rstr s.grp.gname s.grp.send.next)
  else s.settleFence s.iss.key
/-- The die that takes the store joins the sender's mask (R22). -/
def State.touchFar (s : State) (far : Option Nat) : State :=
  match far with
  | some d => s.updGrp fun g => { g with tdmask := g.tdmask ||| BitVec.ofNat 2 (2 ^ d) }
  | none => s
/-- The mask of a group once die `far` has joined it. -/
def touchedMask (m : BitVec 2) (far : Option Nat) : BitVec 2 := match far with | some d => m ||| BitVec.ofNat 2 (2 ^ d) | none => m
/-- The store that the issuing group sends. -/
def State.storeFrom (s : State) (name : DWord) (first : Nat) (regs : List (List Word)) (trapnak : Bool) : RemoteStore :=
  { gname := name, sdev := s.devNum, svd := s.grp.vd, sender := s.grp.gname, seq := s.grp.send.next, first := first, regs := regs, trapnak := trapnak,
    die := dieOf s.grp.core, inc := s.incOf (dieOf s.grp.core), work := some (recBundle s.team.record) }
/-- The sender awaits one more outcome, and its next sequence number is taken (R275). -/
def Group.awaitOutcome (m : RemoteStore) (g : Group) : Group :=
  { g with sent := g.sent ++ [(m.seq, m.gname, m.trapnak)], send := { g.send with pend := g.send.pend + 1, next := (g.send.next + 1) % 2 ^ 20 } }
/-- The store is on its way and the instruction finishes. -/
def State.launch (s : State) (m : RemoteStore) : State := (({ s with flight := s.flight ++ [m] } : State).updGrp (Group.awaitOutcome m)).finish
/-- The data registers of RSTR. -/
def State.rstrRegs (s : State) (cnt1 : BitVec 3) (o : Ops) : List Src :=
  (List.range (cnt1.toNat + 1)).map fun j => s.grp.read32 (s.iss.slots.map fun t => t.2.1) o.b o.pb j
/-- The name that RSTR sends to, and its first register there. -/
def State.rstrName (s : State) (o : Ops) : DWord := (s.uniA o).val
def State.rstrFirst (s : State) (o : Ops) : DWord := (s.uni o.c (s.iss.slots.map fun t => t.2.2)).val
/-- The operands of RSTR bear no tag. -/
structure State.RstrClean (s : State) (cnt1 : BitVec 3) (o : Ops) : Prop where
  name : (s.uniA o).tag = .clean
  first : (s.uni o.c (s.iss.slots.map fun t => t.2.2)).tag = .clean
  regs : ∀ r ∈ s.rstrRegs cnt1 o, r.dp = 0 ∧ r.fp = 0

/-- RSTR of clean operands whose first register and outcomes are in range sends, or traps with the
die out of service. -/
theorem execRstr_clean (cnt1 : BitVec 3) (trapnak : Bool) (od : MemOrd) (o : Ops) (s : State) (h : s.iss.act ≠ 0) (hc : s.RstrClean cnt1 o) :
    execRstr cnt1 trapnak od o s = .next (
      if fld (s.rstrFirst o).toNat 63 10 ≠ 0 then s.trap (remoteCause 10 0 0 (s.rstrName o)) .fresh
      else if 64 ≤ s.grp.send.pend then s.hold { kind := .resource } s.iss.act 0
      else
        let far := (s.beforeSend od).farDie (s.rstrName o)
        let v := (s.beforeSend od).touchFar far
        match far.filter fun d => !v.dieOk d with
        | some d => v.trap (v.dielost v.grp d) .fresh
        | none => v.launch (v.storeFrom (s.rstrName o) (s.rstrFirst o).toNat ((s.rstrRegs cnt1 o).map fun b => b.lo.words) trapnak)) := by
  have hclean : ∀ x ∈ [(s.uniA o).consumed o.a s.iss.act, (s.uni o.c (s.iss.slots.map fun t => t.2.2)).consumed o.c s.iss.act]
      ++ (s.rstrRegs cnt1 o).zipIdx.map (fun e => (⟨o.b.code + e.2, e.1.dp, e.1.fp, 0xFFFFFFFF⟩ : Consumed)), (x.dp ||| x.fp) &&& x.lanes = 0 := by
    intro x hx
    simp only [List.mem_append, List.mem_cons, List.not_mem_nil, or_false, List.mem_map] at hx
    obtain (rfl | rfl) | ⟨e, he, rfl⟩ := hx
    · exact SReg.consumed_clean hc.name _ _
    · exact SReg.consumed_clean hc.first _ _
    · obtain ⟨hdp, hfp⟩ := hc.regs e.1 (List.fst_mem_of_mem_zipIdx he)
      simp [hdp, hfp]
  exact congrArg Host.Outcome.next ((State.ifActive_eq _ _ h).trans (State.consume_clean hclean))

theorem State.drained_beforeSend (s : State) (od : MemOrd) (h : od.isRel = true → s.NoBinops) : State.Drained s.iss.key s (s.beforeSend od) := by
  unfold State.beforeSend
  split
  · exact (State.drained_release _ s _ (h ‹_›)).trans (.of_bare _ (State.bare_carry _ _ _))
  · exact State.drained_settleFence _ s

theorem State.touchFar_rest (s : State) (far : Option Nat) : s.touchFar far = { s with groups := (s.touchFar far).groups } := by
  cases far <;> rfl
theorem State.touchFar_find (s : State) (far : Option Nat) {j : Nat} (h : j ≠ s.iss.key) : mfind (s.touchFar far).groups j = mfind s.groups j := by
  cases far with
  | none => rfl
  | some d => exact State.find_updGrp_ne _ _ h
theorem State.touchFar_grp (s : State) (far : Option Nat) : (s.touchFar far).grp = { s.grp with tdmask := touchedMask s.grp.tdmask far } := by
  cases far with
  | none => rfl
  | some d => exact s.grp_updGrp _
theorem State.storeFrom_touchFar (s : State) (far : Option Nat) (name : DWord) (first : Nat) (regs : List (List Word)) (trapnak : Bool) :
    (s.touchFar far).storeFrom name first regs trapnak = s.storeFrom name first regs trapnak := by
  unfold State.storeFrom State.team
  rw [s.touchFar_grp, s.touchFar_rest]; rfl
/-- Draining its queue changes nothing of what a group sends. -/
theorem State.Drained.storeFrom {s u : State} (h : State.Drained s.iss.key s u) (name : DWord) (first : Nat) (regs : List (List Word)) (trapnak : Bool) :
    u.storeFrom name first regs trapnak = s.storeFrom name first regs trapnak := by
  have hdev : u.devNum = s.devNum := (congrArg State.devNum h.rest :)
  have hinc : ∀ d, u.incOf d = s.incOf d := fun d => (congrArg (fun t => State.incOf t d) h.rest :)
  obtain ⟨q, d, hg⟩ := h.grp
  unfold State.storeFrom State.team
  rw [hg, hdev, hinc, h.records]

/-- What a launch leaves. -/
theorem State.launch_grp (s : State) (m : RemoteStore) : (s.launch m).grp = (s.grp.awaitOutcome m).ended s.iss := State.grp_updGrp_finish _ _
theorem State.launch_flight (s : State) (m : RemoteStore) : (s.launch m).flight = s.flight ++ [m] := rfl
theorem State.launch_find (s : State) (m : RemoteStore) {j : Nat} (h : j ≠ s.iss.key) : mfind (s.launch m).groups j = mfind s.groups j := by
  unfold State.launch
  rw [State.updGrp_finish]
  exact State.find_updGrp_ne ({ s with flight := s.flight ++ [m] } : State) _ h

/-- What a state shows of a store that group `g` of state `s` has sent (R22, R275). -/
structure State.Sent (s : State) (far : Option Nat) (m : RemoteStore) (t : State) : Prop where
  flight : t.flight = s.flight ++ [m]
  mask : t.grp.tdmask = touchedMask s.grp.tdmask far
  send : t.grp.send = { s.grp.send with pend := s.grp.send.pend + 1, next := (s.grp.send.next + 1) % 2 ^ 20 }
  regs : t.grp.v = s.grp.v ∧ t.grp.s = s.grp.s ∧ t.grp.p = s.grp.p
  others : ∀ j, j ≠ s.iss.key → mfind t.groups j = mfind s.groups j
theorem State.Drained.sent {s u : State} (h : State.Drained s.iss.key s u) (far : Option Nat) (m : RemoteStore) :
    s.Sent far m ((u.touchFar far).launch m) := by
  have hi : u.iss = s.iss := (congrArg State.iss h.rest :)
  have hv : (u.touchFar far).iss = s.iss := by rw [u.touchFar_rest]; exact hi
  obtain ⟨q, d, hg⟩ := h.grp
  have hgrp : ((u.touchFar far).launch m).grp = (({ u.grp with tdmask := touchedMask u.grp.tdmask far } : Group).awaitOutcome m).ended s.iss := by
    rw [State.launch_grp, u.touchFar_grp, hv]
  rw [hg] at hgrp
  refine ⟨?_, ?_, ?_, ?_, fun j hj => ?_⟩
  · rw [State.launch_flight, u.touchFar_rest]
    exact congrArg (· ++ [m]) (congrArg State.flight h.rest :)
  · rw [hgrp, Group.ended_tdmask]; rfl
  · rw [hgrp, Group.ended_send]; rfl
  · rw [hgrp, Group.ended_v, Group.ended_s, Group.ended_p]; exact ⟨rfl, rfl, rfl⟩
  · rw [State.launch_find _ _ (by rw [hv]; exact hj), State.touchFar_find _ _ (by rw [hi]; exact hj), h.others j hj]

end Sys2Proof.Machine
end

section
/-! PROOF. The statement about inboxes and remote sends (O37). -/
namespace Sys2Proof.Machine

/-! ## RSTR, case by case -/

theorem State.beforeSend_farDie {s : State} {od : MemOrd} (h : State.Drained s.iss.key s (s.beforeSend od)) (name : DWord) :
    (s.beforeSend od).farDie name =
      if nameDev name = s.devNum then (if od.isRel then s.release s.iss.key .pod else s.settleFence s.iss.key).serviceDie name else none := by
  have hdev : (s.beforeSend od).devNum = s.devNum := (congrArg State.devNum h.rest :)
  unfold State.farDie
  rw [hdev]
  unfold State.beforeSend
  cases od.isRel <;> rfl
theorem State.Drained.dieOk_touchFar {s u : State} (h : State.Drained s.iss.key s u) (far : Option Nat) (d : Nat) : (u.touchFar far).dieOk d = s.dieOk d := by
  rw [u.touchFar_rest]
  exact (congrArg (fun t => State.dieOk t d) h.rest :)

/-- RSTR sends where no die of this device that is out of service has to take the store. -/
theorem execRstr_sends {cnt1 : BitVec 3} {trapnak : Bool} {od : MemOrd} {o : Ops} {s : State} (h : s.iss.act ≠ 0) (hc : s.RstrClean cnt1 o)
    (hf : fld (s.rstrFirst o).toNat 63 10 = 0) (hp : s.grp.send.pend < 64) (hd : State.Drained s.iss.key s (s.beforeSend od)) {far : Option Nat}
    (hfar : (s.beforeSend od).farDie (s.rstrName o) = far) (hok : ∀ d, far = some d → s.dieOk d = true) :
    execRstr cnt1 trapnak od o s = .next (((s.beforeSend od).touchFar far).launch
      (s.storeFrom (s.rstrName o) (s.rstrFirst o).toNat ((s.rstrRegs cnt1 o).map fun b => b.lo.words) trapnak)) := by
  have hin : (far.filter fun d => !((s.beforeSend od).touchFar far).dieOk d) = none := by
    cases far with
    | none => rfl
    | some d => simp [Option.filter, hd.dieOk_touchFar, hok d rfl]
  rw [execRstr_clean cnt1 trapnak od o s h hc, if_neg (by simpa using hf), if_neg (by omega)]
  dsimp only
  rw [hfar, hin]
  dsimp only
  rw [State.storeFrom_touchFar, hd.storeFrom]
/-- RSTR traps where the die that has to take the store is out of service (R355). -/
theorem execRstr_dielost {cnt1 : BitVec 3} {trapnak : Bool} {od : MemOrd} {o : Ops} {s : State} (h : s.iss.act ≠ 0) (hc : s.RstrClean cnt1 o)
    (hf : fld (s.rstrFirst o).toNat 63 10 = 0) (hp : s.grp.send.pend < 64) (hd : State.Drained s.iss.key s (s.beforeSend od)) {d : Nat}
    (hfar : (s.beforeSend od).farDie (s.rstrName o) = some d) (hlost : s.dieOk d = false) :
    let v := (s.beforeSend od).touchFar (some d)
    execRstr cnt1 trapnak od o s = .next (v.trap (v.dielost v.grp d) .fresh) := by
  have hout : ((some d).filter fun d' => !((s.beforeSend od).touchFar (some d)).dieOk d') = some d := by
    simp [Option.filter, hd.dieOk_touchFar, hlost]
  rw [execRstr_clean cnt1 trapnak od o s h hc, if_neg (by simpa using hf), if_neg (by omega)]
  dsimp only
  rw [hfar, hout]
/-- RSTR of a first register that no group has traps (R275). -/
theorem execRstr_refused (cnt1 : BitVec 3) (trapnak : Bool) (od : MemOrd) (o : Ops) (s : State) (h : s.iss.act ≠ 0) (hc : s.RstrClean cnt1 o)
    (hf : fld (s.rstrFirst o).toNat 63 10 ≠ 0) :
    execRstr cnt1 trapnak od o s = .next (s.trap (remoteCause 10 0 0 (s.rstrName o)) .fresh) := by
  rw [execRstr_clean cnt1 trapnak od o s h hc, if_pos hf]
/-- A launch after a settled fence changes no byte further. -/
theorem State.sameBytes_launch (s : State) (far : Option Nat) (m : RemoteStore) : s.SameBytes ((s.touchFar far).launch m) := by
  rw [s.touchFar_rest]
  exact State.sameBytes_of_mem rfl rfl

/-- Settles O37: each clause is what its instruction does once its checks are passed; before RSTR sends,
its release changes nothing of the sender but its store queue. -/
theorem inboxesAndRemoteSends : Obligations.InboxesAndRemoteSends := by
  unfold Obligations.InboxesAndRemoteSends
  intro ctr cnt1 trapnak clr od o s hact g a b c regs k e base n x m w far touched sendable
  refine ⟨?sends, ?dielost, ?refused, ?arms, ?disarms, ?ended, ?waits, ?timedOut, ?sendStatus, execIbstatIbox_uniOp ctr o s⟩
  case sends =>
    rintro ⟨ha, hc, hr⟩ hf hp hb hok
    have hd := s.drained_beforeSend od hb
    have hsent := hd.sent far m
    refine ⟨_, execRstr_sends hact ⟨ha, hc, hr⟩ hf hp hd (State.beforeSend_farDie hd _) hok,
      hsent.flight, hsent.mask, hsent.send, hsent.regs.1, hsent.regs.2.1, hsent.regs.2.2, hsent.others, fun hrel => ?_⟩
    have hw : w = s.beforeSend od := by simp only [w, State.beforeSend, hrel, Bool.false_eq_true, if_false]
    rw [hw]
    exact State.sameBytes_launch _ far m
  case dielost =>
    rintro d ⟨ha, hc, hr⟩ hf hp hrel hfar hlost s'
    have hd := s.drained_beforeSend od fun h => by rw [hrel] at h; cases h
    have hw : s.beforeSend od = w := by simp only [w, State.beforeSend, hrel, Bool.false_eq_true, if_false]
    have hs' : s' = (s.beforeSend od).touchFar (some d) := by
      have ht : touched = (s.beforeSend od).grp.tdmask ||| BitVec.ofNat 2 (2 ^ d) := by
        obtain ⟨q, v, hg⟩ := hd.grp
        rw [hg]
        simp only [touched, hfar]; rfl
      simp only [s', ← hw, ht]; rfl
    rw [hs']
    exact execRstr_dielost hact ⟨ha, hc, hr⟩ hf hp hd ((State.beforeSend_farDie hd _).trans hfar) hlost
  case refused =>
    rintro ⟨ha, hc, hr⟩ hf
    exact execRstr_refused cnt1 trapnak od o s hact ⟨ha, hc, hr⟩ hf
  case arms =>
    intro ha hb harm he hlo hhi hn hn64 hw hgen hmeet
    refine ⟨_, execIbarm_arms ctr o s hact ha hb (s.ibarmRefused_none k e _ harm he hlo hhi hn hn64 hw hgen hmeet), ?_⟩
    rw [State.grp_updGrp_finish]
    refine ⟨?_, fun j hj => ?_, fun j l hl => ?_, ?_, ?_, State.sameBytes_of_mem rfl rfl⟩
    · rw [Group.ended_inbox]; exact mget_mset_self _ _ _ _
    · rw [Group.ended_inbox]
      refine (mget_mset_ne _ _ _ hj).trans ?_
      rw [Group.openWindow_ibc]; rfl
    · rw [Group.ended_vreg]; exact s.grp.openWindow_lane base n j hl
    · rw [Group.ended_s]; exact s.grp.openWindow_s base n
    · rw [Group.ended_p]; exact s.grp.openWindow_p base n
  case disarms =>
    refine ⟨_, execIbarmDis_does ctr o s hact, ?_⟩
    rw [State.grp_updGrp_finish, Group.disarm_rest]
    exact ⟨(Group.ended_inbox _ _ _).trans (s.grp.disarm_inbox k), Group.ended_v _ _, Group.ended_s _ _, Group.ended_p _ _, State.sameBytes_of_mem rfl rfl⟩
  case ended => exact fun harm => execIbwait_disarmed ctr o s hact harm
  case waits =>
    intro harm hwait hpi hrep
    refine ⟨_, execIbwait_waits ctr o s hact harm (s.timedOut_fresh _ hwait), rfl, ?_⟩
    unfold State.waitFor
    rw [State.hold_grp _ _ _ _ hrep, s.deadline_fresh _ _ (by decide) hwait hpi]
    exact ⟨rfl, rfl⟩
  case timedOut => exact fun d harm hk hdue hd => execIbwait_timedOut ctr o s hact harm (s.timedOut_due _ d hk hdue hd)
  case sendStatus =>
    refine ⟨_, execIbstatSend_does clr o s hact, ?_⟩
    rw [State.grp_updGrp_finish]
    refine ⟨?_, ?_, fun j hj => ?_, ?_, ?_, State.sameBytes_of_mem rfl rfl⟩
    · rw [Group.ended_sreg, Group.writeS_sreg_self]
    · rw [Group.ended_send]; cases clr <;> rfl
    · rw [Group.ended_sreg, Group.writeS_sreg_ne _ _ _ hj]; cases clr <;> rfl
    · rw [Group.ended_v]; cases clr <;> rfl
    · rw [Group.ended_p]; cases clr <;> rfl

end Sys2Proof.Machine
end

section
/-! PROOF. The device: its reset values, resets, losses and promotions of dies, power, known answers (R12 to R14, R21 to R23, R354, R386 to R390, R416, R425, R426, R432). -/
namespace Sys2Proof.Machine

/-! ## Reset values -/

/-- Settles O60: the lists of the reset state are empty, so that every VD is the default one. -/
theorem resetValues : Obligations.ResetValues := by
  unfold Obligations.ResetValues
  refine ⟨State.reset_safe, rfl, rfl, rfl, rfl, rfl, rfl, rfl, rfl, rfl, rfl, rfl, fun k => ⟨rfl, rfl, rfl, rfl, rfl, rfl, rfl, fun i hi => ?_⟩⟩
  have h : ∀ i < 4, mget 0 ({} : VD).hbmWeir i = 16 ∧ mget 0 ({} : VD).brxWeir i = 16 := by decide
  exact h i hi

/-! ## The remap word (R12, R14) -/

theorem setOk_getLsbD (w : Word) (die : Nat) (ok : Bool) {k : Nat} (hk : k < 32) :
    (setOk w die ok).getLsbD k = if k = dieShift die + 2 then ok else w.getLsbD k := by
  have hb : (BitVec.ofNat 32 (4 * 2 ^ dieShift die)).getLsbD k = decide (k = dieShift die + 2) := by
    rw [show 4 * 2 ^ dieShift die = 2 ^ (dieShift die + 2) by rw [pow_add]; ring]
    simp only [BitVec.getLsbD_ofNat, hk, decide_true, Bool.true_and, Nat.testBit_two_pow]
    exact decide_eq_decide.2 eq_comm
  unfold setOk
  cases ok
  · simp only [Bool.false_eq_true, if_false, BitVec.getLsbD_and, BitVec.getLsbD_not, hb, hk, decide_true, Bool.true_and]
    split <;> simp [*]
  · simp only [if_true, BitVec.getLsbD_or, hb]
    split <;> simp [*]
/-- The place of a die's OK bit. -/
theorem State.dieOk_eq (s : State) (die : Nat) : s.dieOk die = s.remapWord.getLsbD (dieShift die + 2) := by
  unfold State.dieOk dieShift; split <;> rfl
theorem dieShift_other {die : Nat} (h : die < 2) : dieShift (1 - die) ≠ dieShift die := by
  unfold dieShift; split <;> split <;> omega

/-- A die on the retirement list loads without its OK bit. -/
theorem loadRemap_retired (fuse : Word) (retired : List RetireEntry) {d : Nat} (hd : d < 2) (h : RetireEntry.die d ∈ retired) :
    (loadRemap fuse retired).getLsbD (dieShift d + 2) = false := by
  have hstep (w : Word) (e k : Nat) (hk : k < 32) : (if retired.contains (RetireEntry.die e) then setOk w e false else w).getLsbD k =
      if retired.contains (RetireEntry.die e) = true ∧ k = dieShift e + 2 then false else w.getLsbD k := by
    by_cases hc : retired.contains (RetireEntry.die e) = true
    · rw [if_pos hc, setOk_getLsbD _ _ _ hk]; simp only [hc, true_and]
    · rw [if_neg hc, if_neg fun h => hc h.1]
  have hc : retired.contains (RetireEntry.die d) = true := by simpa using h
  have hlt : dieShift d + 2 < 32 := by unfold dieShift; split <;> omega
  unfold loadRemap
  simp only [List.foldl_cons, List.foldl_nil]
  rw [hstep _ 1 _ hlt, hstep _ 0 _ hlt]
  obtain rfl | rfl : d = 0 ∨ d = 1 := by omega
  · simp only [hc, true_and, if_true, ite_self]
  · simp only [hc, true_and, if_true]

theorem fld_two_bits (w : Word) (k : Nat) : fld w.toNat (k + 1) k = b2n (w.getLsbD k) + 2 * b2n (w.getLsbD (k + 1)) := by
  have hb (j : Nat) : b2n (w.getLsbD j) = w.toNat / 2 ^ j % 2 := by
    unfold b2n BitVec.getLsbD
    rw [Nat.testBit_eq_decide_div_mod_eq]
    by_cases h : w.toNat / 2 ^ j % 2 = 1
    · rw [h, decide_eq_true rfl, if_pos rfl]
    · rw [decide_eq_false h, if_neg Bool.false_ne_true]; omega
  rw [hb, hb, pow_succ, ← Nat.div_div_eq_div_mul]
  unfold fld
  rw [show k + 1 - k + 1 = 2 by omega]
  omega
/-- The number in which the spare has taken the place of a die. -/
def burntNat (n die : Nat) : Nat := n - fld n (dieShift die + 1) (dieShift die) * 2 ^ dieShift die + fld n 9 8 * 2 ^ dieShift die
theorem burntNat_eq (n die : Nat) :
    burntNat n die = 2 ^ dieShift die * (2 ^ 2 * (n / 2 ^ (dieShift die + 2)) + n / 2 ^ 8 % 2 ^ 2) + n % 2 ^ dieShift die := by
  unfold burntNat fld dieShift
  split <;> norm_num <;> omega
/-- Two bits of the number are those of the spare, the rest are its own. -/
theorem burntNat_testBit (n die k : Nat) :
    (burntNat n die).testBit k = n.testBit (if dieShift die ≤ k ∧ k < dieShift die + 2 then k - dieShift die + 8 else k) := by
  rw [burntNat_eq, Nat.testBit_two_pow_mul_add _ (Nat.mod_lt _ (by positivity)), Nat.testBit_two_pow_mul_add _ (Nat.mod_lt _ (by positivity)),
    Nat.testBit_mod_two_pow, Nat.testBit_mod_two_pow, Nat.testBit_div_two_pow, Nat.testBit_div_two_pow]
  by_cases h1 : k < dieShift die
  · rw [if_pos h1, decide_eq_true h1, Bool.true_and, if_neg (by omega)]
  · by_cases h2 : k < dieShift die + 2
    · rw [if_neg h1, if_pos (by omega), if_pos (by omega), decide_eq_true (by omega), Bool.true_and]
    · rw [if_neg h1, if_neg (by omega), if_neg (by omega), show k - dieShift die - 2 + (dieShift die + 2) = k by omega]
theorem burnSpare_getLsbD (w : Word) (die : Nat) {k : Nat} (hk : k < 10) :
    (burnSpare w die).getLsbD k = w.getLsbD (if dieShift die ≤ k ∧ k < dieShift die + 2 then k - dieShift die + 8 else k) := by
  have h (x : Word) : (x &&& ~~~0x400 ||| 0x800).getLsbD k = x.getLsbD k := by
    have hx : ∀ k < 10, (0x400 : Word).getLsbD k = false ∧ (0x800 : Word).getLsbD k = false := by decide
    have hlt : k < 32 := by omega
    simp only [BitVec.getLsbD_or, BitVec.getLsbD_and, BitVec.getLsbD_not, hx k hk, hlt, decide_true, Bool.not_false, Bool.and_true, Bool.or_false]
  refine (h (BitVec.ofNat 32 (burntNat w.toNat die))).trans ?_
  rw [BitVec.getLsbD_ofNat, decide_eq_true (by omega : k < 32), Bool.true_and, burntNat_testBit]
  rfl
/-- The OK bits stay. -/
theorem burnSpare_ok (w : Word) (die d : Nat) : (burnSpare w die).getLsbD (dieShift d + 2) = w.getLsbD (dieShift d + 2) := by
  rw [burnSpare_getLsbD _ _ (by unfold dieShift; split <;> omega), if_neg (by unfold dieShift; split <;> split <;> omega)]
/-- The spare is used up. -/
theorem burnSpare_spent (w : Word) (die : Nat) : (burnSpare w die).getLsbD 10 = false ∧ (burnSpare w die).getLsbD 11 = true := by
  have h (x : Word) : (x &&& ~~~0x400 ||| 0x800).getLsbD 10 = false ∧ (x &&& ~~~0x400 ||| 0x800).getLsbD 11 = true := by
    constructor <;> simp
  exact h _


/-! ## The reset of a die (R21 to R23, R354, R392) -/

/-- The state in which a die has lost its caches, its translations and the writes on their way from its L2. -/
def State.sweptDie (s : State) (die : Nat) : State :=
  let u := s.ackAll.setMem fun m =>
    { m with l1 := m.l1.filter fun c => dieOf c.core != die, l2 := m.l2.filter fun c => c.die != die, fwd := m.fwd.filter fun f => f.die != die }
  { u with tlb := u.tlb.filter fun e => e.die != die }
/-- Apart from its stores, only the translations change. -/
theorem State.bare_sweptDie (s : State) (die : Nat) : (s.sweptDie die).bare = { s.bare with tlb := s.tlb.filter fun e => e.die != die } :=
  congrArg (fun u : State => { u with tlb := u.tlb.filter fun e => e.die != die }) s.bare_ackAll
/-- Where no team has its cores on the die, clearing it ends none. -/
theorem State.clearDie_unseated (s : State) (die : Nat) (h : ∀ e ∈ s.teams, e.2.seated = true → dieOf (e.2.cores.headD 0) ≠ die) :
    s.clearDie die = ((s.sweptDie die).dropEngines die).nakDead := by
  have ht : (s.sweptDie die).teams = s.teams := (congrArg State.teams (s.bare_sweptDie die) :)
  have hn : ((s.sweptDie die).teams.filter fun e => e.2.seated && dieOf (e.2.cores.headD 0) == die) = [] := by
    rw [ht, List.filter_eq_nil_iff]
    intro e he hc
    simp only [Bool.and_eq_true, beq_iff_eq] at hc
    exact h e he hc.1 hc.2
  show ((List.foldl _ (s.sweptDie die) (List.map _ ((s.sweptDie die).teams.filter _))).dropEngines die).nakDead = _
  rw [hn]
  rfl

@[simp] theorem State.sansVds_countForwards (s : State) (die : Nat) : (s.countForwards die).sansVds = s.sansVds :=
  foldl_keeps (fun u f => u.sansVds_updErr (some f.write.vd) _) _ s

/-- What a copy command's end does to its VD: its requests go, and its packet fails. -/
def State.dropCopy (s : State) (c : CopyCmd) : State :=
  let s := s.faultDiscard c.vd fun r => r.origin == Origin.engine c.id
  match c.job with
  | some (iq, idx, _) => s.packetJob c.vd iq idx fun p => p.fail 4 0
  | none => s
/-- What the end of a BINADD does to its VD. -/
def State.dropBin (s : State) (b : BinJob) : State := s.faultDiscard b.vd fun r => r.origin == Origin.engine b.id
/-- The commands of a die have ended; the lists hold them still. -/
def State.endEngines (s : State) (die : Nat) : State :=
  let s := (s.copies.filter fun c => c.die == die).foldl State.dropCopy s
  (s.binjobs.filter fun b => b.die == die).foldl State.dropBin s
@[simp] theorem State.sansVds_dropCopy (s : State) (c : CopyCmd) : (s.dropCopy c).sansVds = s.sansVds := by
  unfold State.dropCopy; dsimp only; split <;> rfl
@[simp] theorem State.sansVds_endEngines (s : State) (die : Nat) : (s.endEngines die).sansVds = s.sansVds :=
  (foldl_keeps (f := State.dropBin) (fun _ _ => rfl) _ _).trans (foldl_keeps State.sansVds_dropCopy _ s)
theorem State.dropEngines_eq (s : State) (die : Nat) : s.dropEngines die =
    { s.endEngines die with copies := s.copies.filter fun c => c.die != die, binjobs := s.binjobs.filter fun b => b.die != die,
                            binops := s.binops.filter fun b => b.die != die } := by
  have h := s.sansVds_endEngines die
  have hc : (s.endEngines die).copies = s.copies := (congrArg State.copies h :)
  have hj : (s.endEngines die).binjobs = s.binjobs := (congrArg State.binjobs h :)
  have ho : (s.endEngines die).binops = s.binops := (congrArg State.binops h :)
  rw [← hc, ← hj, ← ho]
  rfl

theorem State.ports_cleared (s : State) (die : Nat) : ((s.sweptDie die).dropEngines die).ports = s.ports := by
  rw [State.dropEngines_eq]
  exact (congrArg State.ports (State.sansVds_endEngines _ die) :).trans (congrArg State.ports (s.bare_sweptDie die) :)

/-- The count of the discarded messages of a VD (R392). -/
def State.stale (s : State) (n : Nat) : Word := (s.vd n).err.stale
theorem State.stale_updVd (s : State) (vd : Nat) (f : VD → VD) (n : Nat) (h : ∀ v, (f v).err.stale = v.err.stale) : (s.updVd vd f).stale n = s.stale n := by
  unfold State.stale State.vd State.updVd
  rw [mget_mset]
  split
  · subst_vars; exact h _
  · rfl
theorem State.stale_updErr (s : State) (vd : Option Nat) (f : ErrBlock → ErrBlock) (n : Nat) (h : ∀ b, (f b).stale = b.stale) :
    (s.updErr vd f).stale n = s.stale n := by
  cases vd with
  | none => rfl
  | some v => exact s.stale_updVd v _ n fun _ => h _
@[simp] theorem State.stale_answerStore (s : State) (m : RemoteStore) (r n : Nat) : (s.answerStore m r).stale n = s.stale n := by
  obtain ⟨o, ms, h⟩ := s.answerStore_eq m r
  rw [h]
  show (s.nakCounted m r).stale n = s.stale n
  unfold State.nakCounted
  split
  · rfl
  · exact s.stale_updErr _ _ n fun _ => rfl
theorem State.stale_nakDead (s : State) (h : s.ports = []) (n : Nat) : s.nakDead.stale n = s.stale n := by
  have hp : (s.nakHeld fun n => (s.nameState n).isNone).ports = [] := (congrArg State.ports (s.sansVds_nakHeld _)).trans h
  unfold State.nakDead
  rw [State.drainPorts_nil _ hp]
  exact foldl_keeps (p := fun u => State.stale u n) (fun u m => u.stale_answerStore m 1 n) _ _
@[simp] theorem State.stale_faultDiscard (s : State) (vd : Nat) (p : FaultReq → Bool) (n : Nat) : (s.faultDiscard vd p).stale n = s.stale n := by
  unfold State.faultDiscard
  exact s.stale_updVd vd _ n fun _ => rfl
@[simp] theorem State.stale_packetJob (s : State) (vd iq idx : Nat) (f : Packet → Packet) (n : Nat) : (s.packetJob vd iq idx f).stale n = s.stale n := by
  unfold State.packetJob
  exact s.stale_updVd vd _ n fun _ => rfl
@[simp] theorem State.stale_dropCopy (s : State) (c : CopyCmd) (n : Nat) : (s.dropCopy c).stale n = s.stale n := by
  unfold State.dropCopy
  dsimp only
  split
  · rw [State.stale_packetJob, State.stale_faultDiscard]
  · exact s.stale_faultDiscard _ _ n
theorem State.stale_dropEngines (s : State) (die n : Nat) : (s.dropEngines die).stale n = s.stale n := by
  rw [s.dropEngines_eq die]
  show (s.endEngines die).stale n = s.stale n
  unfold State.endEngines
  dsimp only
  rw [foldl_keeps (p := fun u => State.stale u n) (f := State.dropBin) fun u b => u.stale_faultDiscard _ _ n]
  exact foldl_keeps (p := fun u => State.stale u n) (f := State.dropCopy) (fun u c => u.stale_dropCopy c n) _ s
/-- A write of a VD that the reset overtakes counts once (R392). -/
theorem State.stale_countForwards (s : State) {die : Nat} {f : Forward} (h : (s.mem.fwd.filter fun x => x.die == die) = [f]) :
    (s.countForwards die).stale f.write.vd = satInc (s.stale f.write.vd) := by
  unfold State.countForwards
  rw [h]
  exact congrArg (fun v : VD => v.err.stale) (mget_mset_self _ _ _ _)

/-! ### What a clearing of a die with no team on it leaves -/

section
variable {s : State} {die : Nat} (hp : s.ports = []) (hs : ∀ e ∈ s.teams, e.2.seated = true → dieOf (e.2.cores.headD 0) ≠ die)
include hp hs

/-- Of what is neither a VD nor a message, only the caches, the translations and the commands of the die go. -/
theorem State.sansVds_clearDie : (s.clearDie die).sansVds =
    { (s.sweptDie die).sansVds with copies := s.copies.filter fun c => c.die != die, binjobs := s.binjobs.filter fun b => b.die != die,
                                    binops := s.binops.filter fun b => b.die != die } := by
  have hb := s.bare_sweptDie die
  have hc : (s.sweptDie die).copies = s.copies := (congrArg State.copies hb :)
  have hj : (s.sweptDie die).binjobs = s.binjobs := (congrArg State.binjobs hb :)
  have ho : (s.sweptDie die).binops = s.binops := (congrArg State.binops hb :)
  have hd : ((s.sweptDie die).dropEngines die).sansVds = _ := congrArg State.sansVds (State.dropEngines_eq _ die)
  rw [State.clearDie_unseated s die hs, State.sansVds_nakDead _ ((s.ports_cleared die).trans hp), hd, ← hc, ← hj, ← ho, ← State.sansVds_endEngines (s.sweptDie die) die]
  rfl
theorem State.stale_clearDie (n : Nat) : (s.clearDie die).stale n = s.stale n := by
  have hb := s.bare_sweptDie die
  rw [State.clearDie_unseated s die hs, State.stale_nakDead _ ((s.ports_cleared die).trans hp), State.stale_dropEngines]
  exact (congrArg (fun u => State.stale u n) hb :)
end


/-! ### The statement's clause -/

theorem State.incOf_raiseInc (s : State) (die : Nat) : (s.raiseInc die).incOf die = s.incOf die + 1 := by
  unfold State.raiseInc State.incOf
  by_cases h : die = 0 <;> simp only [h, if_true, if_false]
theorem State.incOf_raiseInc_other (s : State) {die : Nat} (h : die < 2) : (s.raiseInc die).incOf (1 - die) = s.incOf (1 - die) := by
  obtain rfl | rfl : die = 0 ∨ die = 1 := by omega
  · rfl
  · rfl
/-- Of the rest, only the clocks of the die count anew. -/
theorem State.raiseInc_rest (s : State) (die : Nat) : (s.raiseInc die) =
    { s with inc0 := (s.raiseInc die).inc0, inc1 := (s.raiseInc die).inc1, dieClk := mset s.dieClk die s.clk,
             coreClk := s.coreClk.filter fun e => dieOf e.1 != die } := by
  unfold State.raiseInc
  by_cases h : die = 0 <;> simp only [h, if_true, if_false]

theorem ne_of_mem_filter {α : Type} {f : α → Nat} {d : Nat} {l l' : List α} (h : l = l'.filter fun x => f x != d) : ∀ x ∈ l, f x ≠ d := by
  intro x hx
  rw [h] at hx
  simpa using (List.mem_filter.1 hx).2
/-- DIE_RESET of a die with no team on it. -/
theorem execDieReset_resets {die : Nat} {s : State} (hd : die < 2) (hp : s.ports = [])
    (hs : ∀ e ∈ s.teams, e.2.seated = true → dieOf (e.2.cores.headD 0) ≠ die) :
    ∃ t, execDieReset die s = .next t ∧ t.incOf die = s.incOf die + 1 ∧ t.incOf (1 - die) = s.incOf (1 - die) ∧ mfind t.dieClk die = some s.clk ∧
      (∀ c ∈ t.mem.l1, dieOf c.core ≠ die) ∧ (∀ c ∈ t.mem.l2, c.die ≠ die) ∧ (∀ f ∈ t.mem.fwd, f.die ≠ die) ∧ (∀ e ∈ t.tlb, e.die ≠ die) ∧
      (∀ c ∈ t.copies, c.die ≠ die) ∧ t.groups = s.groups ∧
      ∀ f, (s.mem.fwd.filter fun x => x.die == die) = [f] → (t.vd f.write.vd).err.stale = satInc (s.vd f.write.vd).err.stale := by
  have hc := s.sansVds_countForwards die
  have hp' : (s.countForwards die).ports = [] := (congrArg State.ports hc :).trans hp
  have ht : (s.countForwards die).teams = s.teams := (congrArg State.teams hc :)
  have hs' : ∀ e ∈ (s.countForwards die).teams, e.2.seated = true → dieOf (e.2.cores.headD 0) ≠ die := by rwa [ht]
  have hclr := State.sansVds_clearDie hp' hs'
  have hstale := State.stale_clearDie hp' hs'
  have hb := (s.countForwards die).bare_sweptDie die
  generalize hu : (s.countForwards die).clearDie die = u at hclr hstale
  have hinc (d : Nat) : u.incOf d = s.incOf d :=
    ((congrArg (fun v => State.incOf v d) hclr :).trans (congrArg (fun v => State.incOf v d) hb :)).trans (congrArg (fun v => State.incOf v d) hc :)
  have hclk : u.clk = s.clk := ((congrArg State.clk hclr :).trans (congrArg State.clk hb :)).trans (congrArg State.clk hc :)
  have hgrp : u.groups = s.groups := ((congrArg State.groups hclr :).trans (congrArg State.groups hb :)).trans (congrArg State.groups hc :)
  have htlb : u.tlb = (s.countForwards die).tlb.filter fun e => e.die != die := (congrArg State.tlb hclr :).trans (congrArg State.tlb hb :)
  have hr := u.raiseInc_rest die
  have hmem : (u.raiseInc die).mem = ((s.countForwards die).sweptDie die).mem := (congrArg State.mem hr :).trans (congrArg State.mem hclr :)
  refine ⟨u.raiseInc die, ?_, ?_, ?_, ?_, ?_, ?_, ?_, ?_, ?_, (congrArg State.groups hr :).trans hgrp, fun f hf => ?_⟩
  · unfold execDieReset
    rw [if_neg (by omega), hu]
  · rw [State.incOf_raiseInc, hinc]
  · rw [State.incOf_raiseInc_other _ hd, hinc]
  · rw [hr, ← hclk]; exact mfind_mset_self _ _ _
  · exact ne_of_mem_filter (congrArg MemSys.l1 hmem)
  · exact ne_of_mem_filter (congrArg MemSys.l2 hmem)
  · exact ne_of_mem_filter (congrArg MemSys.fwd hmem)
  · exact ne_of_mem_filter ((congrArg State.tlb hr :).trans htlb)
  · exact ne_of_mem_filter ((congrArg State.copies hr :).trans (congrArg State.copies hclr :))
  · calc (u.raiseInc die).stale f.write.vd = u.stale f.write.vd := (congrArg (fun v => State.stale v f.write.vd) hr :)
      _ = (s.countForwards die).stale f.write.vd := hstale _
      _ = satInc (s.stale f.write.vd) := s.stale_countForwards hf

/-! ## The loss of a die and the promotion of the spare (R14, R354) -/

theorem State.dies_of_sansVds {s t : State} (h : t.sansVds = s.sansVds) : t.dies = s.dies := (congrArg State.dies h :)
theorem State.dies_clearDie {s : State} {die : Nat} (hs : ∀ e ∈ s.teams, e.2.seated = true → dieOf (e.2.cores.headD 0) ≠ die) :
    (s.clearDie die).dies = s.dies := by
  have hb : (s.sweptDie die).dies = s.dies := (congrArg State.dies (s.bare_sweptDie die) :)
  have he : ((s.sweptDie die).endEngines die).dies = (s.sweptDie die).dies := State.dies_of_sansVds (State.sansVds_endEngines _ die)
  rw [State.clearDie_unseated s die hs, State.dies_nakDead, State.dropEngines_eq]
  exact he.trans hb
theorem State.dies_lost (s : State) (l : AMap (List Nat)) (g : AMap Group) : ({ s with lost := l, groups := g } : State).dies = { s.dies with lost := l } := rfl
/-- The loss of a die is noted, with the groups that owe a trap. -/
theorem State.dies_markLost (s : State) (die : Nat) : ∃ owed, (s.markLost die).dies = { s.dies with lost := mset s.lost die owed } := by
  unfold State.markLost
  dsimp only
  rw [foldl_keeps (p := State.dies) (f := fun (u : State) t => u.reseal (4096 * t)) fun u t => u.dies_reseal (4096 * t)]
  exact ⟨_, s.dies_lost _ _⟩
theorem State.teams_of_bare {s t : State} (h : t.bare = s.bare) : t.teams = s.teams := (congrArg State.teams h :)
theorem State.teams_errDevice (s : State) (x : ErrInfo) (o : Word) : (s.errDevice x o).teams = s.teams := by
  show (if _ then _ else _ : State).teams = _
  split
  · exact State.teams_of_bare (State.bare_writeHost _ _ _)
  · rfl
theorem State.dieOk_setOk {s : State} {die d : Nat} {w : Word} {ok : Bool} (h : s.remapWord = setOk w die ok) :
    s.dieOk d = if dieShift d = dieShift die then ok else w.getLsbD (dieShift d + 2) := by
  rw [s.dieOk_eq, h, setOk_getLsbD _ _ _ (by unfold dieShift; split <;> omega)]
  simp only [Nat.add_right_cancel_iff]

/-- The remap table and the retirement list without a die. -/
def State.strikeDie (s : State) (die : Nat) : State :=
  { s with remapWord := setOk s.remapWord die false, retired := if s.retired.contains (RetireEntry.die die) then s.retired else s.retired ++ [RetireEntry.die die] }
theorem State.mem_strikeDie (s : State) (die : Nat) : RetireEntry.die die ∈ (s.strikeDie die).retired := by
  unfold State.strikeDie
  by_cases h : s.retired.contains (RetireEntry.die die) = true
  · rw [if_pos h]; exact List.contains_iff_mem.1 h
  · rw [if_neg h]; exact List.mem_append_right _ (List.mem_singleton_self _)

/-- The loss as it is recorded (R14). -/
def State.lossRecorded (s : State) (die : Nat) : State :=
  ((s.strikeDie die).errRecord { die := die, sev := 1, cause := 16, td0 := BitVec.ofNat 32 (4 * 2 ^ die + ((s.strikeDie die).incOf die).toNat * 16) }).1
theorem State.dies_lossRecorded (s : State) (die : Nat) : (s.lossRecorded die).dies = (s.strikeDie die).dies := by
  unfold State.lossRecorded
  exact State.dies_errRecord _ _
theorem State.teams_lossRecorded (s : State) (die : Nat) : (s.lossRecorded die).teams = s.teams := by
  unfold State.lossRecorded State.errRecord
  exact State.teams_errDevice _ _ _
theorem execDieLoss_eq {die : Nat} {s : State} (hd : die < 2) (hok : s.dieOk die = true) :
    execDieLoss die s = .next (((((s.lossRecorded die).countForwards die).clearDie die).markLost die).reviewSaved) := by
  have hc : (decide (1 < die) || !s.dieOk die) = false := by simp [hok]; omega
  unfold execDieLoss
  rw [if_neg (ne_true_of_eq_false hc)]
  rfl
/-- DIE_LOSS of a die with no team on it and no team saved. -/
theorem execDieLoss_loses {die : Nat} {s : State} (hd : die < 2) (hok : s.dieOk die = true)
    (hs : ∀ e ∈ s.teams, e.2.seated = true → dieOf (e.2.cores.headD 0) ≠ die) :
    ∃ t, execDieLoss die s = .next t ∧ t.dieOk die = false ∧ t.dieOk (1 - die) = s.dieOk (1 - die) ∧ RetireEntry.die die ∈ t.retired ∧
      (mfind t.lost die).isSome = true := by
  refine ⟨_, execDieLoss_eq hd hok, ?_⟩
  generalize ht : State.reviewSaved _ = t
  generalize hu : s.lossRecorded die = u at ht
  have hud : u.dies = (s.strikeDie die).dies := hu ▸ s.dies_lossRecorded die
  have hut : u.teams = s.teams := hu ▸ s.teams_lossRecorded die
  have hvt : (u.countForwards die).teams = s.teams := (congrArg State.teams (u.sansVds_countForwards die) :).trans hut
  have hclr : ((u.countForwards die).clearDie die).dies = (s.strikeDie die).dies :=
    ((State.dies_clearDie (by rwa [hvt])).trans (State.dies_of_sansVds (u.sansVds_countForwards die))).trans hud
  generalize (u.countForwards die).clearDie die = c at ht hclr
  obtain ⟨owed, hm⟩ := c.dies_markLost die
  have htd : t.dies = { (s.strikeDie die).dies with lost := mset c.lost die owed } := by rw [← ht, State.dies_reviewSaved, hm, hclr]
  have hw : t.remapWord = setOk s.remapWord die false := (congrArg State.remapWord htd :)
  have hr : t.retired = (s.strikeDie die).retired := (congrArg State.retired htd :)
  have hl : t.lost = mset c.lost die owed := (congrArg State.lost htd :)
  refine ⟨?_, ?_, hr ▸ s.mem_strikeDie die, ?_⟩
  · rw [State.dieOk_setOk hw, if_pos rfl]
  · rw [State.dieOk_setOk hw, if_neg (dieShift_other hd), s.dieOk_eq]
  · rw [hl, mfind_mset_self]; rfl

/-- Where a die's physical number stands in the table (R12). -/
theorem State.physDie_eq (s : State) {die : Nat} (h : die < 2) : s.physDie die = fld s.remapWord.toNat (dieShift die + 1) (dieShift die) := by
  obtain rfl | rfl : die = 0 ∨ die = 1 := by omega
  · rfl
  · rfl
/-- The fuses and the table take the spare, and the die's incarnation rises. -/
def State.burnDie (s : State) (die : Nat) : State :=
  ({ s with fuse := burnSpare s.fuse die, remapWord := burnSpare s.remapWord die } : State).raiseInc die
/-- The die in service again, before its record. -/
def State.promoteDie (s : State) (die : Nat) : State :=
  { s.burnDie die with retired := s.retired.filter fun e => e != RetireEntry.die die, remapWord := setOk (burnSpare s.remapWord die) die true, lost := mdel s.lost die }
theorem State.burnDie_rest (s : State) (die : Nat) : s.burnDie die =
    { s with fuse := burnSpare s.fuse die, remapWord := burnSpare s.remapWord die, inc0 := (s.raiseInc die).inc0, inc1 := (s.raiseInc die).inc1,
             dieClk := mset s.dieClk die s.clk, coreClk := s.coreClk.filter fun e => dieOf e.1 != die } := by
  unfold State.burnDie State.raiseInc
  by_cases h : die = 0 <;> simp only [h, if_true, if_false]
theorem execSparePromotion_eq {die : Nat} {s : State} (hd : die < 2) (hok : s.dieOk die = false) (hl : s.isLost die = true)
    (hspare : s.remapWord.getLsbD 10 = true) (hset : s.lossSettled die = true) :
    execSparePromotion die s = .next ((s.promoteDie die).errRecord { die := die, sev := 1 }).1.reviewSaved := by
  have hc : (decide (1 < die) || s.dieOk die || !s.isLost die || !s.remapWord.getLsbD 10 || !s.lossSettled die) = false := by
    simp [hok, hl, hspare, hset]; omega
  have hb : s.promoteDie die = { s.burnDie die with
      retired := (s.burnDie die).retired.filter fun e => e != RetireEntry.die die, remapWord := setOk (s.burnDie die).remapWord die true,
      lost := mdel (s.burnDie die).lost die } := by
    unfold State.promoteDie; rw [s.burnDie_rest]
  unfold execSparePromotion
  rw [if_neg (ne_true_of_eq_false hc), hb]
  rfl

/-- SPARE_PROMOTION of a lost die whose loss is settled, while the spare is there. -/
theorem execSparePromotion_promotes {die : Nat} {s : State} (hd : die < 2) (hok : s.dieOk die = false) (hl : s.isLost die = true)
    (hspare : s.remapWord.getLsbD 10 = true) (hset : s.lossSettled die = true) :
    ∃ t, execSparePromotion die s = .next t ∧ t.dieOk die = true ∧ t.dieOk (1 - die) = s.dieOk (1 - die) ∧ t.physDie die = fld s.remapWord.toNat 9 8 ∧
      t.remapWord.getLsbD 10 = false ∧ t.remapWord.getLsbD 11 = true ∧ t.incOf die = s.incOf die + 1 ∧ RetireEntry.die die ∉ t.retired ∧
      mfind t.lost die = none := by
  refine ⟨_, execSparePromotion_eq hd hok hl hspare hset, ?_⟩
  generalize ht : State.reviewSaved _ = t
  have htd : t.dies = (s.promoteDie die).dies := ht ▸ (State.dies_reviewSaved _).trans (State.dies_errRecord _ _)
  have hw : t.remapWord = setOk (burnSpare s.remapWord die) die true := (congrArg State.remapWord htd :)
  have hi : t.incOf die = (s.burnDie die).incOf die := (congrArg (fun u => State.incOf u die) htd :)
  have hr : t.retired = s.retired.filter fun e => e != RetireEntry.die die := (congrArg State.retired htd :)
  have hlo : t.lost = mdel s.lost die := (congrArg State.lost htd :)
  have hsh : dieShift die = 0 ∨ dieShift die = 4 := by unfold dieShift; split <;> simp
  have hbit {k : Nat} (hk : k < 32) (hne : k ≠ dieShift die + 2) : t.remapWord.getLsbD k = (burnSpare s.remapWord die).getLsbD k := by
    rw [hw, setOk_getLsbD _ _ _ hk, if_neg hne]
  obtain ⟨h10, h11⟩ := burnSpare_spent s.remapWord die
  refine ⟨?_, ?_, ?_, ?_, ?_, ?_, ?_, ?_⟩
  · rw [State.dieOk_setOk hw, if_pos rfl]
  · rw [State.dieOk_setOk hw, if_neg (dieShift_other hd), burnSpare_ok, s.dieOk_eq]
  · rw [t.physDie_eq hd, fld_two_bits, fld_two_bits, hbit (by omega) (by omega), hbit (by omega) (by omega),
      burnSpare_getLsbD _ _ (by omega), burnSpare_getLsbD _ _ (by omega), if_pos (by omega), if_pos (by omega)]
    rw [Nat.sub_self, Nat.add_sub_cancel_left]
  · rw [hbit (by omega) (by omega), h10]
  · rw [hbit (by omega) (by omega), h11]
  · rw [hi]; exact State.incOf_raiseInc _ die
  · rw [hr]; simp
  · rw [hlo, mfind_mdel_self]

/-! ## Resets of the functions, power, known answers (R388, R416, R425, R426, R432) -/

/-- DEVICE_RESET: the dies that are retired stay out of service, and the bytes of the host are not touched. -/
theorem State.dieOk_afterReset {s : State} {d : Nat} (hd : d < 2) (h : RetireEntry.die d ∈ s.retired) : s.afterReset.dieOk d = false :=
  (State.dieOk_eq _ d).trans (loadRemap_retired s.fuse s.retired hd h)
theorem State.remapWord_afterReset {s : State} (h : s.retired = []) : s.afterReset.remapWord = s.fuse := by
  show loadRemap s.fuse s.retired = s.fuse
  rw [h]; rfl

/-- Where no team is saved, none is reviewed. -/
theorem State.reviewSaved_nil {s : State} (h : s.teams = []) : s.reviewSaved = s := by
  unfold State.reviewSaved
  rw [h]
  rfl
theorem State.flr_running {s : State} {vd : Nat} (h : (s.vd vd).running = true) : s.flr vd = s.killVd vd := if_pos h
theorem State.flr_free {s : State} {vd : Nat} (h : (s.vd vd).st = .free) : s.flr vd = s := by
  unfold State.flr VD.running
  rw [h]
  rfl
/-- Without VDs and teams, the reset of every function changes nothing. -/
theorem State.flrAll_idle {s : State} (hv : s.vds = []) (ht : s.teams = []) : ((s.vds.map fun e => e.1).foldl State.flr s).reviewSaved = s := by
  rw [hv]; exact State.reviewSaved_nil ht

/-! ### D3hot -/

theorem mfind_mmap {α : Type} (m : AMap α) (f : Nat → α → α) (k : Nat) : mfind (mmap m f) k = (mfind m k).map (f k) := by
  induction m with
  | nil => rfl
  | cons e m ih =>
    show (if e.1 = k then some (f e.1 e.2) else mfind (mmap m f) k) = (if e.1 = k then some e.2 else mfind m k).map (f k)
    by_cases h : e.1 = k
    · subst h; rw [if_pos rfl, if_pos rfl]; rfl
    · rw [if_neg h, if_neg h, ih]
theorem mget_mmap {α : Type} {d : α} (m : AMap α) {f : Nat → α → α} {k : Nat} (h : f k d = d) : mget d (mmap m f) k = f k (mget d m k) := by
  unfold mget
  rw [mfind_mmap]
  cases mfind m k with
  | none => exact h.symm
  | some x => rfl
theorem mem_of_mfind {α : Type} {m : AMap α} {k : Nat} {x : α} (h : mfind m k = some x) : (k, x) ∈ m := by
  induction m with
  | nil => cases h
  | cons e m ih =>
    by_cases hk : e.1 = k
    · obtain rfl : e.2 = x := Option.some.inj ((if_pos hk).symm.trans h)
      subst hk; exact List.mem_cons_self
    · exact List.mem_cons_of_mem _ (ih ((if_neg hk).symm.trans h))
theorem mfind_of_mem {α : Type} {m : AMap α} {k : Nat} {x : α} (hn : (m.map fun e => e.1).Nodup) (h : (k, x) ∈ m) : mfind m k = some x := by
  induction m with
  | nil => cases h
  | cons e m ih =>
    obtain ⟨hne, hn⟩ := List.nodup_cons.1 hn
    obtain rfl | h := List.mem_cons.1 h
    · exact if_pos rfl
    · exact (if_neg fun hk => hne (List.mem_map.2 ⟨(k, x), h, hk.symm⟩)).trans (ih hn h)

/-- The VDs that start records are the active ones. -/
theorem State.activeVds_contains {s : State} (hn : (s.vds.map fun e => e.1).Nodup) (n : Nat) :
    s.activeVds.contains n = true ↔ (s.vd n).st = .active := by
  unfold State.activeVds State.vd mget
  rw [List.contains_iff_mem, List.mem_map]
  constructor
  · rintro ⟨⟨k, v⟩, hm, rfl⟩
    obtain ⟨hm, ha⟩ := List.mem_filter.1 hm
    rw [mfind_of_mem hn hm]
    simpa using ha
  · intro h
    cases hf : mfind s.vds n with
    | none => rw [hf] at h; cases h
    | some v =>
      rw [hf] at h
      exact ⟨(n, v), List.mem_filter.2 ⟨mem_of_mfind hf, by simpa using h⟩, rfl⟩

/-- What D3hot does to a VD, and what the return to D0 does to one of those paused. -/
def VD.d3 (v : VD) : VD := if v.st = VdState.active then { v with st := VdState.paused } else v
def VD.d0 (vs : List Nat) (n : Nat) (v : VD) : VD := if vs.contains n && v.st == VdState.paused && !v.pausing then { v with st := VdState.active } else v

/-- Where no team of an active VD is on its cores, D3HOT_ENTRY pauses the VDs and no more. -/
theorem execD3hotEntry_pauses {s : State} (h : s.d3Paused = none) (hn : (s.vds.map fun e => e.1).Nodup)
    (ht : ∀ e ∈ s.teams, e.2.saved = none → s.keysOf e.1 ≠ [] → (s.vd e.2.vd).st ≠ .active) :
    execD3hotEntry s = .next { s with d3Paused := some s.activeVds, vds := mmap s.vds fun _ v => v.d3 } := by
  have hr : (s.residentOf fun t => s.activeVds.contains t.2.vd) = [] := by
    unfold State.residentOf
    rw [List.map_eq_nil_iff, List.filter_eq_nil_iff]
    intro e he hc
    simp only [Bool.and_eq_true, Option.isNone_iff_eq_none, Bool.not_eq_true', List.isEmpty_eq_false_iff] at hc
    obtain ⟨⟨hs, hk⟩, ha⟩ := hc
    exact ht e he hs hk ((State.activeVds_contains hn _).1 ha)
  unfold execD3hotEntry
  rw [h]
  exact congrArg (fun l => Host.Outcome.next (List.foldl State.preemptTeam _ l)) hr
theorem execD0Return_wakes {s : State} {vs : List Nat} (h : s.d3Paused = some vs) :
    execD0Return s = .next { s with d3Paused := none, vds := mmap s.vds (VD.d0 vs) } := by
  unfold execD0Return
  rw [h]
  rfl
theorem mget_d3 (m : AMap VD) (n : Nat) : mget {} (mmap m fun _ v => v.d3) n = (mget {} m n).d3 := mget_mmap m rfl
theorem mget_d0 (vs : List Nat) (m : AMap VD) (n : Nat) : mget {} (mmap m (VD.d0 vs)) n = (mget {} m n).d0 vs n :=
  mget_mmap m (if_neg (by simp))
theorem VD.st_d3 (v : VD) : v.d3.st = if v.st = .active then .paused else v.st := by
  unfold VD.d3
  split <;> rfl
/-- The return to D0 undoes the pause. -/
theorem VD.st_d0_d3 {v : VD} {vs : List Nat} {n : Nat} (hv : vs.contains n = true ↔ v.st = .active) (hp : v.pausing = false) : (v.d3.d0 vs n).st = v.st := by
  unfold VD.d0
  by_cases h : v.st = .active
  · have h3 : v.d3 = { v with st := .paused } := if_pos h
    rw [h3, if_pos (by rw [hv.2 h, hp]; rfl), h]
  · have h3 : v.d3 = v := if_neg h
    rw [h3, if_neg (by rw [Bool.eq_false_iff.2 (mt hv.1 h)]; simp)]

/-! ### Known answers (R388) -/

theorem ErrBlock.count_seq (b : ErrBlock) : b.count.seq = nextSeq b.seq := by
  unfold ErrBlock.count
  split <;> rfl
/-- A mismatch that leaves its place below the limit is counted and recorded. -/
theorem execKaInjection_counts {k : KaResult} {s : State} (hen : s.kactl.getLsbD 0 = true) (hm : k.mismatch = true) (hc : k.core < 256) (hq : k.quad < 4)
    (hl : k.lane < 32) (hw : (mget {} s.kastat k.core).worst < 2) (hn : mget 0 (mget {} s.kastat k.core).counts (32 * k.quad + k.lane) < 2) :
    execKaInjection k s = .next
      (({ s with kastat := mupd {} s.kastat k.core fun x => x.mismatch k.quad k.lane } : State).errRecord { cls := 17, sev := 1, die := dieOf k.core, core := k.core }).1 := by
  unfold execKaInjection
  rw [if_neg (by simp [hen, hm]; omega)]
  dsimp only
  generalize hu : (State.errRecord _ _).1 = u
  have hk : u.kastat = mupd {} s.kastat k.core fun x => x.mismatch k.quad k.lane := (congrArg State.kastat (hu ▸ State.dies_errRecord _ _) :)
  have hx : (mget {} u.kastat k.core).worst ≠ 3 := by
    rw [hk]
    unfold mupd
    rw [mget_mset_self]
    show min 3 (max (mget {} s.kastat k.core).worst (mget 0 (mget {} s.kastat k.core).counts (32 * k.quad + k.lane) + 1)) ≠ 3
    omega
  exact congrArg Host.Outcome.next (if_neg fun h => hx (by simpa only [decide_eq_true_eq] using (Bool.and_eq_true_iff.1 h).1))

/-! ## The statement -/

/-- Settles O53, event by event. -/
theorem deviceEvents : Obligations.DeviceEvents := by
  unfold Obligations.DeviceEvents
  intro die vd j watts k x s
  refine ⟨?reset, ?dieReset, ?noDie, ?loss, ?lost, ?promotion, ?noSpare, ?assisted, ?flr, ?pfFlr, ?d3hot, ?inD3, ?inD0, ?throttle, ?cool, ?stop,
    ?warm, ?known, ?mismatch, ?clear⟩
  case reset =>
    exact ⟨s.afterReset, rfl, rfl, rfl, rfl, rfl, rfl, rfl, rfl, rfl, rfl, rfl, rfl, rfl, rfl, rfl, rfl, rfl, rfl, rfl, rfl,
      fun d hd h => State.dieOk_afterReset hd h, fun h => State.remapWord_afterReset h, fun _ => rfl⟩
  case dieReset => exact fun hd hp hs => execDieReset_resets hd hp hs
  case noDie => exact fun h => congrArg Host.Outcome.next (if_pos (Nat.lt_of_succ_le h))
  case loss => exact fun hd hok hs => execDieLoss_loses hd hok fun e he => (hs e he).1
  case lost => exact fun h => congrArg Host.Outcome.next (if_pos (by simp [h]))
  case promotion => exact fun hd hok hl hspare hset => execSparePromotion_promotes hd hok hl hspare hset
  case noSpare => exact fun h => congrArg Host.Outcome.next (if_pos (by rw [h]; simp))
  case assisted => exact fun h => congrArg Host.Outcome.next (if_pos h)
  case flr =>
    intro h
    have hf : exec (.vfFlr vd) s = .next (s.flr vd).reviewSaved := congrArg Host.Outcome.next (if_neg (ne_true_of_eq_false h))
    exact ⟨fun hr => by rw [hf, State.flr_running hr], fun hfree ht => by rw [hf, State.flr_free hfree, State.reviewSaved_nil ht]⟩
  case pfFlr =>
    refine ⟨_, rfl, rfl, rfl, rfl, rfl, rfl, fun hv ht => ?_⟩
    have h := State.flrAll_idle hv ht
    exact ⟨(congrArg State.vds h :).trans hv, (congrArg State.groups h :)⟩
  case d3hot =>
    intro h ht hn
    refine ⟨_, execD3hotEntry_pauses h hn ht, rfl, fun n => ?_, fun u hu huv hp => ?_⟩
    · exact (congrArg VD.st (mget_d3 s.vds n)).trans (VD.st_d3 _)
    · refine ⟨_, execD0Return_wakes hu, rfl, fun n => ?_⟩
      have hw : mget {} (mmap u.vds (VD.d0 s.activeVds)) n = (s.vd n).d3.d0 s.activeVds n := by
        rw [mget_d0, huv, mget_d3]; rfl
      exact (congrArg VD.st hw).trans (VD.st_d0_d3 (State.activeVds_contains hn n) (hp n))
  case inD3 =>
    intro h
    show execD3hotEntry s = _
    unfold execD3hotEntry
    split
    · rfl
    · contradiction
  case inD0 =>
    intro h
    show execD0Return s = _
    unfold execD0Return
    rw [h]
  case throttle => exact fun h hc => congrArg Host.Outcome.next (if_pos ⟨h, hc⟩)
  case cool => exact fun hj hw => congrArg Host.Outcome.next (if_neg (by omega))
  case stop => exact fun h => congrArg Host.Outcome.next (if_pos h)
  case warm => exact fun h => congrArg Host.Outcome.next (if_neg (by omega))
  case known => exact fun h => congrArg Host.Outcome.next (if_pos (by rcases h with h | h <;> rw [h] <;> simp))
  case mismatch =>
    intro hen hm hc hq hl hw hn
    refine ⟨_, execKaInjection_counts hen hm hc hq hl hw hn, ?_⟩
    generalize hu : ({ s with kastat := mupd {} s.kastat k.core fun x => x.mismatch k.quad k.lane } : State) = u
    have hk : mget {} u.kastat k.core = (mget {} s.kastat k.core).mismatch k.quad k.lane := by rw [← hu]; exact mget_mset_self _ _ _ _
    have hr : u.retired = s.retired := hu ▸ rfl
    have he : u.err = s.err := hu ▸ rfl
    have hd := u.dies_errRecord { cls := 17, sev := 1, die := dieOf k.core, core := k.core }
    have hkt := (congrArg (fun v => mget {} (State.kastat v) k.core) hd :).trans hk
    refine ⟨congrArg KaStat.mism hkt, congrArg KaStat.quad hkt, congrArg KaStat.lane hkt, (congrArg State.retired hd :).trans hr, ?_⟩
    rw [← he]
    exact u.err.count_seq
  case clear =>
    refine ⟨_, rfl, rfl, fun y => ?_⟩
    rw [List.mem_filter, bne_iff_ne]

end Sys2Proof.Machine
end

section
/-! PROOF. A refused instruction behind more BINADDs than a frame has entries (O58). -/
namespace Sys2Proof.Machine

/-- An unfinished BINADD of group 0: lane 0 adds 1 to the word at 0x40000, whose old value goes to register `k`. -/
def binaddInto (k : Nat) : BinOp where
  id := k
  key := 0
  reg := k
  ctx := 0x40000
  vd := 0
  die := 0
  entry := { pc := 0xF00, bits := 0, pend := 1, act := 1, pi := 0, valid := true, trapped := false, dp := 0, fp := 0, slots := [] }
  idx := List.replicate 32 0
  cnt := List.replicate 32 1
  cdp := 0
/-- A general group with a handler and a trap area in its scratchpad. -/
def binaddGroup : Group := { loadGroup false with tvec := 0x800, tarea := 0xFFFFFF0000000000 }
/-- A cached translation of the first GiB onto itself. -/
def binaddPage : TlbEntry where
  die := 0
  core := some 0
  vd := 0
  asid := 0
  hgen := 0
  ggen := 0
  va := 0
  size := 2 ^ 30
  pa := 0
  gpa := 0
  gsize := 2 ^ 30
  hsize := 2 ^ 30
  home := 0
  gperm := 31
  hperm := 31
  dc := true
  fmt := 0
  dirty := true
  leaf := 0x12000
/-- A team of that group, which has issued 16 BINADDs to registers of their own, none of them
finished, and which now fetches a word of an opcode that no row gives (0xFF). -/
def behindBinadds : State :=
  let s := State.reset.withFetchWord 64 0x3FC
  { s with
    groups := [(0, binaddGroup)]
    teams := s.teams.map fun e => (e.1, { e.2 with scratch := 65536 })
    mem := { s.mem with hbm := Mem.writeAll s.mem.hbm (bytesAt 0x40000 (leBytes 4 7)) }
    tlb := [binaddPage]
    binops := (List.range 16).map binaddInto }
/-- The machine as the group's turn finds it. -/
def binaddTurn : State := ({ behindBinadds with agenda := [] } : State).tick 0 0

/-- Register 0 of group 0 after a step, in lane 0. -/
def registerAfter (r : Out) : Option Word :=
  match r with
  | .next t => some (((mget ({} : Group) t.groups 0).vreg 0).val.lane 0)
  | _ => none
/-- A frame has 16 entries, one of which is the group's own: the trap performs the oldest BINADD, and
register 0 takes the count that it read (R337, R338). -/
theorem registerAfter_behindBinadds : registerAfter (step behindBinadds) = some 7 := by decide +kernel
theorem registerAfter_initial {t : State} (h : (mget ({} : Group) t.groups 0).v = []) : registerAfter (.next t) = some 0 := by
  show some ((mget ({} : VReg) (mget ({} : Group) t.groups 0).v 0).val.lane 0) = _
  rw [h]; rfl

/-! ## The premises of the statement -/

theorem onCore_binaddGroup : binaddTurn.OnCore binaddGroup := ⟨by decide +kernel, rfl, rfl⟩
/-- The one run, at 0x1000, is chosen. -/
theorem choose_binaddGroup :
    binaddGroup.choose binaddGroup.agingDue (fun p => binaddTurn.atConvergence binaddGroup 0 p.toNat) = some (0x1000, 31) := by decide +kernel
theorem translate_binaddTurn : translate binaddTurn 0 (some 0) 0 0 0x1000 3 = .ok (binaddPage, binaddTurn) := by decide +kernel
theorem engineBad_binaddTurn : binaddTurn.engineBad 0 (binaddPage.loc 0x1000) (binaddPage.loc 0x1000).addr 1 = false := by decide +kernel
/-- The word fetched is 0x3FC, to which no row gives a form. -/
theorem peekCode_binaddTurn :
    let w := binaddTurn.peekCode binaddGroup 0 0x1000 16
    w % 4 ≠ 3 ∧ lenBytes (BitVec.ofNat 128 w) ≤ blockLeft 0x1000 ∧ formOf w = none := by
  have hw : binaddTurn.peekCode binaddGroup 0 0x1000 16 = 0x3FC := by decide +kernel
  rw [hw]; decide
theorem canTrap_binaddGroup : (binaddTurn.setGroup 0 binaddGroup).CanTrap 0 binaddGroup where
  here := by decide +kernel
  vector := ⟨by decide, by decide, rfl⟩
  area := ⟨by decide +kernel, by decide +kernel⟩
  noRequest := by decide +kernel

/-- Refutes O58: of a group with more than 15 unfinished BINADDs, the trap of a refused instruction performs
the oldest (`State.takeBinops`), whose register takes its result, where `Group.Entered` has every register kept. -/
theorem not_stepRunsDecoded : ¬ Obligations.StepRunsDecoded := by
  unfold Obligations.StepRunsDecoded
  intro h
  obtain ⟨hturn, -⟩ := h behindBinadds 0 0 [] []
  obtain ⟨hrefused, -⟩ := hturn (.group 0) 0 binaddGroup 0x1000 31 binaddPage binaddTurn .nop (.ops 0 .blank 0 {} true true) 0
    rfl rfl (by decide +kernel) onCore_binaddGroup rfl (.inl rfl) rfl rfl rfl (by decide) choose_binaddGroup rfl (by decide +kernel)
    translate_binaddTurn (fun _ => List.not_mem_nil) (by decide +kernel) engineBad_binaddTurn
  obtain ⟨-, hword⟩ := hrefused 0 (.inl rfl) canTrap_binaddGroup
  obtain ⟨hlong, hfits, hform⟩ := peekCode_binaddTurn
  obtain ⟨hnone, -⟩ := hword hlong hfits
  obtain ⟨t, ht, hentered⟩ := hnone hform
  obtain ⟨hv, -⟩ := hentered.regs
  have hseven := registerAfter_behindBinadds
  rw [ht, registerAfter_initial hv] at hseven
  exact absurd hseven (by decide)
end Sys2Proof.Machine
end

section
/-! PROOF. A JOIN beside a record of the same number but another queue number (O36). -/
namespace Sys2Proof.Machine

/-- The operands of a JOIN of the handle 0. -/
def joinZero : Ops := { fmt := .f64, g := none, d := .v 0, a := .zero, b := .v 0, c := .v 0, pa := .none, pb := .none, pc := .none, imm := 0 }
/-- A record that waits for one join, spawned with number 0 under queue number 0. -/
def joinedRecord : CRecord := { seq := 0, lq := 0, record := BitVec.ofNat 512 (2 ^ 128), asid := 0, scratch := 0, tile := 0, order := none }
/-- A record of the same internal queue, to which the numbers came back after 2^32 records and which
the guest queue table listed as queue number 1 by then. -/
def laterRecord : CRecord := { joinedRecord with lq := 1 }
/-- Their queue, and the machine at the JOIN, which names the first record. -/
def twoRecords : CQueue := { charged := some 0, recs := [joinedRecord, laterRecord], nextSeq := 1 }
def beforeJoin : State :=
  { State.reset with
    vds := [(0, { st := .active, conts := [(0, twoRecords)] })]
    groups := [(1, { pcs := List.replicate 32 (some 0x100) })]
    iss := { key := 1, pc := 0x100, npc := 0x108, xm := 0xFFFFFFFF, act := 0xFFFFFFFF, pend := 0xFFFFFFFF } }

/-- The queue numbers under which the records of the queue were spawned, after a step. -/
def queueNumbersAfter (r : Out) : List Nat :=
  match r with
  | .next u => (mget ({} : CQueue) (u.vd 0).conts 0).recs.map fun x => x.lq
  | _ => []
theorem queueNumbersAfter_beforeJoin : queueNumbersAfter (exec (.join joinZero) beforeJoin) = [0, 1] := by decide +kernel

/-- The VD after the release that the JOIN makes. -/
def joinVd : VD := (beforeJoin.release 1 .dev).vd 0
/-- The handle names the first record alone. -/
theorem names_joinedRecord : ∀ e ∈ joinVd.conts, ∀ r ∈ e.2.recs,
    r.lq = fld (beforeJoin.uniA joinZero).val.toNat 15 0 ∧ r.seq = fld (beforeJoin.uniA joinZero).val.toNat 47 16 →
      e = (0, twoRecords) ∧ r = joinedRecord := by decide +kernel

/-- Refutes O36: a handle names a record by its queue number and its sequence number (R36), and JOIN changes
that record alone, where the statement has every record of the queue with that sequence number replaced. -/
theorem not_spawnAndJoin : ¬ Obligations.SpawnAndJoin := by
  unfold Obligations.SpawnAndJoin
  intro h
  obtain ⟨-, -, -, -, -, -, -, hjoin⟩ := h joinZero beforeJoin (by decide) (fun _ => nofun)
  obtain ⟨u, j, hu, -, -, -, -, -, -, -, hrecs⟩ := hjoin 0 twoRecords joinedRecord (by decide +kernel) (by decide +kernel) (by decide +kernel)
    (by decide +kernel) (by decide +kernel) (by decide +kernel) names_joinedRecord (by decide +kernel)
  have hsame : queueNumbersAfter (.next u) = [j.lq, j.lq] := congrArg (List.map fun x : CRecord => x.lq) hrecs
  have hboth := queueNumbersAfter_beforeJoin
  rw [hu, hsame] at hboth
  simp at hboth
  omega
end Sys2Proof.Machine
end

section
/-! PROOF. The last group of a team, out of order in the table of groups (O35). -/
namespace Sys2Proof.Machine

/-- A group of team 0 with a handler and a trap area in its scratchpad, at an RNWAIT. -/
def lastWaiter : Group := { loadGroup false with tvec := 0x800, tarea := 0xFFFFFF0000000000, pcs := List.replicate 32 (some 0x1000) }
/-- The operands of the RNWAIT, which names stage 0. -/
def stageZero : Ops := { fmt := .f64, g := none, d := .zero, a := .zero, b := .zero, c := .zero, pa := .none, pb := .none, pc := .none, imm := 0 }
/-- The group is entry 1 of the table and stands behind entry 9, a group of another team. Stage 0 of runnel 0 is free. -/
def unsortedGroups : State :=
  { State.reset with
    groups := [(9, { tid := 5 }), (1, lastWaiter)]
    teams := [(0, { vd := 0, cores := [0], scratch := 65536, rns := [(0, { init := true, stages := 2, pc := 2, cc := 1 })] })]
    iss := { key := 1, pc := 0x1000, npc := 0x1008, xm := 0xFFFFFFFF, act := 0xFFFFFFFF, pend := 0xFFFFFFFF } }

/-- Whether the group is in its handler after a step. -/
def inHandlerAfter (r : Out) : Option Bool :=
  match r with
  | .next t => some t.grp.inhdl
  | _ => none
/-- The group waits: its entry goes before entry 9, and the one behind that, which does not wait, keeps
the team from being quiet (`State.checkQuiet`). -/
theorem inHandlerAfter_unsortedGroups : inHandlerAfter (exec (.rnwait 0 false stageZero) unsortedGroups) = some false := by decide +kernel

/-! ## The premises of the statement -/

theorem present_unsortedGroups : unsortedGroups.Present := ⟨rfl, rfl⟩
/-- The other group is of another team. -/
theorem nobodyWaits_unsortedGroups : unsortedGroups.NobodyWaits := by
  intro e he hkey htid
  obtain rfl | rfl : e = (9, { tid := 5 }) ∨ e = (1, lastWaiter) := by simpa [unsortedGroups] using he
  · exact absurd htid (by decide)
  · exact absurd rfl hkey
theorem hasHandler_unsortedGroups : unsortedGroups.HasHandler :=
  ⟨present_unsortedGroups, {
    here := rfl
    vector := ⟨by decide, by decide, rfl⟩
    area := ⟨by decide +kernel, by decide +kernel⟩
    noRequest := rfl }⟩

/-- Refutes O35: the group that waits is the last of its team, but the statement lacks that the keys of the table
rise, so the group's new entry (`mset`) may leave an old one behind, which does not wait, and no trap is taken. -/
theorem not_barriersAndRunnels : ¬ Obligations.BarriersAndRunnels := by
  unfold Obligations.BarriersAndRunnels
  intro h
  obtain ⟨-, -, -, -, -, -, -, -, -, -, hrnwait, -⟩ := h 0 0 0 0 false stageZero unsortedGroups
    present_unsortedGroups nobodyWaits_unsortedGroups (fun _ => nofun) (by decide)
  obtain ⟨-, hstarves⟩ := hrnwait rfl (fun hstage => absurd hstage.1 (by decide +kernel))
  obtain ⟨t, ht, hentered⟩ := hstarves ⟨by decide +kernel, rfl⟩ rfl hasHandler_unsortedGroups rfl
  have hfalse := inHandlerAfter_unsortedGroups
  rw [ht, show inHandlerAfter (.next t) = some t.grp.inhdl from rfl, hentered.inhdl] at hfalse
  exact absurd hfalse (by decide)
end Sys2Proof.Machine
end

section
/-! PROOF. A store that fills a sector under a write on its way to host memory (O43). -/
namespace Sys2Proof.Machine

/-- A store to the byte at 0 of local HBM. -/
def storeAtZero : QStore := { space := .hbm, dieCoh := true, bytes := [(0, 7)], poison := [], clear := [], vd := 0 }
/-- A write of the byte at 1 of host memory, which stands among those that the L2 of die 0 has passed on. -/
def hostWriteAtOne : QStore := { space := .host, dieCoh := false, bytes := [(1, 2)], poison := [], clear := [], vd := 0 }
/-- The group whose queue holds the store, and the machine, whose local HBM holds 1 in its byte at 1. -/
def storingGroup : Group := { sq := [storeAtZero] }
def overHostWrite : State :=
  let m := State.reset.mem
  { State.reset with
    groups := [(0, storingGroup)]
    mem := { m with hbm := Mem.writeAll m.hbm [(1, 1)], fwd := [⟨0, hostWriteAtOne⟩] } }

/-- The byte at 1 as the L2 of die 0 gives it after a step. -/
def byteOneAfter (r : Out) : Option Byte :=
  match r with
  | .next t => some (t.l2Byte 0 1)
  | _ => none
/-- Before the store, a read at the L2 passes over the write to host memory. -/
theorem l2Byte_overHostWrite : overHostWrite.l2Byte 0 1 = 1 := by decide +kernel
/-- The copy that the store fetches takes the byte of the write to host memory (`State.l2Sector`). -/
theorem byteOneAfter_overHostWrite : byteOneAfter (exec (.storeQueueDrain 0) overHostWrite) = some 2 := by decide +kernel

/-- Refutes O43: a sector that a drained store brings into the L2 takes the bytes of every write on its way,
where a read takes those of local HBM alone; nothing in the statement says that all of them are. -/
theorem not_memoryTraffic : ¬ Obligations.MemoryTraffic := by
  unfold Obligations.MemoryTraffic
  intro h
  obtain ⟨-, -, hdrain, -⟩ := h 0 0 0 0 0 storingGroup storeAtZero [] ⟨0, storeAtZero⟩
    { die := 0, sector := 0, data := [], dirty := [], dieCoh := true, vd := 0, poison := false } 0 false overHostWrite
  obtain ⟨t, ht, -, -, -, hbytes⟩ := hdrain rfl rfl (by decide +kernel)
  obtain ⟨-, -, -, hl2⟩ := hbytes 1
  obtain ⟨hbyte, -⟩ := hl2 (.inl rfl) (by decide +kernel)
  have hkept : t.l2Byte 0 1 = 1 := hbyte.trans l2Byte_overHostWrite
  have htwo := byteOneAfter_overHostWrite
  rw [ht, show byteOneAfter (.next t) = some (t.l2Byte 0 1) from rfl, hkept] at htwo
  exact absurd htwo (by decide)
end Sys2Proof.Machine
end

section
/-! PROOF. A group with the key of its team's matrix stream (O49). -/
namespace Sys2Proof.Machine

/-- A general group of team 0 at 0x100, whose GRPID is that of a matrix stream. -/
def inStreamsPlace : Group := { grpid := 4095, pcs := List.replicate 32 (some 0x100) }
/-- Its team, in a VD that is paused and has room for the save. -/
def pausedVd : VD := { st := .paused, savebase := 0x100000, savesize := 0x100000 }
def pausedTeam : Team := { cores := [0], restartPc := 0x200 }
def pausedState : State :=
  { State.reset with vds := [(0, pausedVd)], teams := [(0, pausedTeam)], groups := [(4095, inStreamsPlace)] }

/-- The PC of lane 0 of the group after a step. -/
def savedPcAfter (r : Out) : Option DWord :=
  match r with
  | .next t => (mget ({} : Group) t.groups 4095).pcs.getD 0 none
  | _ => none
/-- The group is saved at the team's restart point (`State.stopTeamStream`). -/
theorem savedPcAfter_pausedState : savedPcAfter (exec (.preempt 0) pausedState) = some 0x200 := by decide +kernel
theorem saveSpot_pausedState : ((pausedState.stopTeam 0).saveSpot 0).isSome = true := by decide +kernel

/-- Refutes O49: a pre-emption puts the group whose key is that of the team's stream at the team's restart point,
whatever its role, and the statement lacks that a group of another role has another key. -/
theorem not_scheduling : ¬ Obligations.Scheduling := by
  unfold Obligations.Scheduling
  intro h
  obtain ⟨-, -, -, -, -, hpreempt, -⟩ := h ⟨[], [], 0⟩ 0 0 0 0 pausedState
  obtain ⟨-, hsave⟩ := hpreempt pausedTeam rfl rfl (.inl rfl)
  obtain ⟨a, ha⟩ := Option.isSome_iff_exists.mp saveSpot_pausedState
  obtain ⟨-, hfits⟩ := hsave rfl (by decide +kernel) (by decide +kernel)
  obtain ⟨t, -, ht, -, -, -, -, -, -, hkept⟩ := hfits a ha
  obtain ⟨g, hg, -, -, hpcs, -⟩ := hkept (by decide +kernel) 4095 inStreamsPlace rfl rfl (by decide) (fun _ => nofun)
  have hpc : (mget ({} : Group) t.groups 4095).pcs.getD 0 none = some 0x100 := by
    rw [show mget ({} : Group) t.groups 4095 = g by simp [mget, hg], hpcs]; rfl
  have hsaved := savedPcAfter_pausedState
  rw [ht, show savedPcAfter (.next t) = (mget ({} : Group) t.groups 4095).pcs.getD 0 none from rfl, hpc] at hsaved
  exact absurd hsaved (by decide)
end Sys2Proof.Machine
end

section
/-! PROOF. Encoding: what was encoded decodes to the instruction it was made of (R70 to R83). -/
namespace Sys2Proof
open Laws

/-- The control field of every instruction names it again: the laws of the family, put together. -/
theorem controlField (i : Instr) : ControlField.Statement i := by
  cases i with
  | nop => apply ControlField.nop | bra => apply ControlField.bra | brc => apply ControlField.brc | brx => apply ControlField.brx
  | call => apply ControlField.call | ret => apply ControlField.ret | exit => apply ControlField.exit | yield => apply ControlField.yield
  | sleepc => apply ControlField.sleepc | trap => apply ControlField.trap | bkpt => apply ControlField.bkpt | rtt => apply ControlField.rtt
  | waitfault => apply ControlField.waitfault | cropen => apply ControlField.cropen | crclose => apply ControlField.crclose
  | crstat => apply ControlField.crstat | spawn => apply ControlField.spawn | join => apply ControlField.join | smstart => apply ControlField.smstart
  | waitpred => apply ControlField.waitpred | barinit => apply ControlField.barinit | bara => apply ControlField.bara
  | barw => apply ControlField.barw | bars => apply ControlField.bars | rninit => apply ControlField.rninit | rnpost => apply ControlField.rnpost
  | rnwait => apply ControlField.rnwait | smov => apply ControlField.smov | sli => apply ControlField.sli | slih => apply ControlField.slih
  | sadd => apply ControlField.sadd | ssub => apply ControlField.ssub | smul => apply ControlField.smul | smulh => apply ControlField.smulh
  | smad => apply ControlField.smad | sand => apply ControlField.sand | sor => apply ControlField.sor | sxor => apply ControlField.sxor
  | sshl => apply ControlField.sshl | sshr => apply ControlField.sshr | ssra => apply ControlField.ssra | smin => apply ControlField.smin
  | smax => apply ControlField.smax | scmp => apply ControlField.scmp | ssel => apply ControlField.ssel | spopc => apply ControlField.spopc
  | sclz => apply ControlField.sclz | sld => apply ControlField.sld | sst => apply ControlField.sst | srd => apply ControlField.srd
  | swr => apply ControlField.swr | pand => apply ControlField.pand | por => apply ControlField.por | pxor => apply ControlField.pxor
  | pnot => apply ControlField.pnot | pmovs => apply ControlField.pmovs | pmovp => apply ControlField.pmovp | vote => apply ControlField.vote
  | lxch => apply ControlField.lxch | rdlane => apply ControlField.rdlane | wrlane => apply ControlField.wrlane | mtch => apply ControlField.mtch
  | csrrd => apply ControlField.csrrd | csrwr => apply ControlField.csrwr | iadd => apply ControlField.iadd | iadd3 => apply ControlField.iadd3
  | isub => apply ControlField.isub | imul => apply ControlField.imul | imulh => apply ControlField.imulh | imad => apply ControlField.imad
  | imadw => apply ControlField.imadw | iabs => apply ControlField.iabs | imin => apply ControlField.imin | imax => apply ControlField.imax
  | idot4 => apply ControlField.idot4 | and => apply ControlField.and | or => apply ControlField.or | xor => apply ControlField.xor
  | not => apply ControlField.not | shl => apply ControlField.shl | shr => apply ControlField.shr | sra => apply ControlField.sra
  | shf => apply ControlField.shf | popc => apply ControlField.popc | clz => apply ControlField.clz | brev => apply ControlField.brev
  | bfe => apply ControlField.bfe | bfi => apply ControlField.bfi | prmt => apply ControlField.prmt | lea => apply ControlField.lea
  | icmp => apply ControlField.icmp | sel => apply ControlField.sel | mov => apply ControlField.mov | movi => apply ControlField.movi
  | mova => apply ControlField.mova | fadd => apply ControlField.fadd | fsub => apply ControlField.fsub | fmul => apply ControlField.fmul
  | fma => apply ControlField.fma | fmin => apply ControlField.fmin | fmax => apply ControlField.fmax | fcmp => apply ControlField.fcmp
  | fclass => apply ControlField.fclass | frnd => apply ControlField.frnd | frcp => apply ControlField.frcp | frsq => apply ControlField.frsq
  | fsqrt => apply ControlField.fsqrt | fdiv => apply ControlField.fdiv | fexp2 => apply ControlField.fexp2 | flog2 => apply ControlField.flog2
  | fsin => apply ControlField.fsin | fcos => apply ControlField.fcos | ftanh => apply ControlField.ftanh | fscale => apply ControlField.fscale
  | ffrac => apply ControlField.ffrac | pkadd => apply ControlField.pkadd | pkmul => apply ControlField.pkmul | pkfma => apply ControlField.pkfma
  | cvt => apply ControlField.cvt | cvtUnit => apply ControlField.cvtUnit | redl => apply ControlField.redl | rngk => apply ControlField.rngk
  | ld => apply ControlField.ld | st => apply ControlField.st | ldt => apply ControlField.ldt | stt => apply ControlField.stt
  | pref => apply ControlField.pref | atom => apply ControlField.atom | atomcas => apply ControlField.atomcas | atomf => apply ControlField.atomf
  | red => apply ControlField.red | fence => apply ControlField.fence | cmntL1 => apply ControlField.cmntL1 | cmntWb => apply ControlField.cmntWb
  | cmntInv => apply ControlField.cmntInv | tagrd => apply ControlField.tagrd | tagwr => apply ControlField.tagwr | sigst => apply ControlField.sigst
  | sigwait => apply ControlField.sigwait | rstr => apply ControlField.rstr | ibarm => apply ControlField.ibarm
  | ibarmDis => apply ControlField.ibarmDis | ibwait => apply ControlField.ibwait | ibstatSend => apply ControlField.ibstatSend
  | ibstatIbox => apply ControlField.ibstatIbox | cpy => apply ControlField.cpy | cpy2d => apply ControlField.cpy2d | cpyg => apply ControlField.cpyg
  | cpyt => apply ControlField.cpyt | cpyto => apply ControlField.cpyto | tld => apply ControlField.tld | tst => apply ControlField.tst
  | mbinit => apply ControlField.mbinit | mbexp => apply ControlField.mbexp | mbarv => apply ControlField.mbarv | mbwait => apply ControlField.mbwait
  | mbtest => apply ControlField.mbtest | coll => apply ControlField.coll | clwait => apply ControlField.clwait | binadd => apply ControlField.binadd
  | binrd => apply ControlField.binrd | binpatch => apply ControlField.binpatch | mma => apply ControlField.mma | mmaq => apply ControlField.mmaq
  | mzero => apply ControlField.mzero | mwait => apply ControlField.mwait | mfence => apply ControlField.mfence | mcfg => apply ControlField.mcfg
  | mstep => apply ControlField.mstep | mstat => apply ControlField.mstat
  | _ => exact Row.names_none rfl

/-! ## The fields of the 128-bit layouts -/

/-- The fields of an encoded F128B row (R78). -/
theorem brFields_bits {opc : Nat} {o : BrOps} {ctl : Nat} {u x ok ok6} (hopc : opc < 512) (hn : ctl < 2 ^ 27) :
    let w := (Row.br opc o ctl u x ok ok6).bits
    fld w 1 0 = 2 ∧ opcOf w = opc ∧ w < 2 ^ 128 ∧ guardOf w = o.g ∧ guardOk w = true ∧ fld w 26 17 = o.a.code ∧ fld w 36 27 = o.b.code ∧
      fld w 63 37 = ctl ∧ fld w 95 64 = o.off.toNat ∧ fld w 127 96 = o.aux.toNat := by
  intro w
  obtain ⟨G, hG, hg, hw⟩ := guardBits_eq o.g
  have ha := o.a.code_lt
  have hb := o.b.code_lt
  have hoff := o.off.isLt
  have haux := o.aux.isLt
  have hwe : w = 2 + opc * 4 + G * 2 ^ 11 + o.a.code * 2 ^ 17 + o.b.code * 2 ^ 27 + ctl * 2 ^ 37 + o.off.toNat * 2 ^ 64 + o.aux.toNat * 2 ^ 96 := by
    simp only [w, Row.bits, hg]
  clear_value w
  have hgd := hw w (by unfold fld; omega)
  unfold opcOf fld
  exact ⟨by omega, by omega, by omega, hgd.1, hgd.2, by omega, by omega, by omega, by omega, by omega⟩

/-- The fields of an encoded F128C row (R79). -/
theorem engFields_bits {opc : Nat} {o : EngOps} {ctl desc : Nat} {u ok} (hopc : opc < 512) (hn : ctl < 2 ^ 7) (hx : desc < 2 ^ 64) :
    let w := (Row.eng opc o ctl desc u ok).bits
    fld w 1 0 = 2 ∧ opcOf w = opc ∧ w < 2 ^ 128 ∧ guardOf w = o.g ∧ guardOk w = true ∧ fld w 26 17 = o.a.code ∧ fld w 36 27 = o.b.code ∧
      fld w 46 37 = o.c.code ∧ fld w 56 47 = o.m.code ∧ fld w 63 57 = ctl ∧ fld w 127 64 = desc := by
  intro w
  obtain ⟨G, hG, hg, hw⟩ := guardBits_eq o.g
  have ha := o.a.code_lt
  have hb := o.b.code_lt
  have hc := o.c.code_lt
  have hm := o.m.code_lt
  have hwe : w = 2 + opc * 4 + G * 2 ^ 11 + o.a.code * 2 ^ 17 + o.b.code * 2 ^ 27 + o.c.code * 2 ^ 37 + o.m.code * 2 ^ 47 + ctl * 2 ^ 57 + desc * 2 ^ 64 := by
    simp only [w, Row.bits, hg]
  clear_value w
  have hgd := hw w (by unfold fld; omega)
  unfold opcOf fld
  exact ⟨by omega, by omega, by omega, hgd.1, hgd.2, by omega, by omega, by omega, by omega, by omega, by omega⟩

/-- The fields of an encoded F128M row (R80). -/
theorem matFields_bits {opc : Nat} {o : MatOps} {ctl mcw : Nat} {u ok} (hopc : opc < 512) (hn : ctl < 2 ^ 17) (hx : mcw < 2 ^ 64) :
    let w := (Row.mat opc o ctl mcw u ok).bits
    fld w 1 0 = 2 ∧ opcOf w = opc ∧ w < 2 ^ 128 ∧ fld w 16 11 = 0 ∧ fld w 26 17 = o.a.code ∧ fld w 36 27 = o.b.code ∧
      fld w 46 37 = o.c.code ∧ fld w 63 47 = ctl ∧ fld w 127 64 = mcw := by
  intro w
  have ha := o.a.code_lt
  have hb := o.b.code_lt
  have hc := o.c.code_lt
  have hwe : w = 2 + opc * 4 + o.a.code * 2 ^ 17 + o.b.code * 2 ^ 27 + o.c.code * 2 ^ 37 + ctl * 2 ^ 47 + mcw * 2 ^ 64 := by
    simp only [w, Row.bits]
  clear_value w
  unfold opcOf fld
  exact ⟨by omega, by omega, by omega, by omega, by omega, by omega, by omega, by omega, by omega⟩

/-! ## Encoded rows decode -/

/-- With no check failing, the answer is the instruction (R83). -/
theorem answer_eq_ok {c5 c6 : Bool} {i j : Instr} {n m : Nat} : answer c5 c6 i n = .ok j m ↔ c5 = true ∧ c6 = true ∧ i = j ∧ n = m := by
  cases c5 <;> cases c6 <;> simp [answer]

/-- What a field accepts passes checks 5 and 6; `checks_of_plain` is for a field without a permutation field. -/
theorem Use.checks_of_ok {u : Use} {x : Opnd} {p : Perm} (h : u.okFor x p = true) : u.check5 x.code p.code = true ∧ u.check6 x.code p.code = true :=
  ⟨check5_of_ok h, check6_of_ok h⟩
theorem Use.checks_of_plain {u : Use} {x : Opnd} (h : u.okFor x .none = true) : u.check5 x.code 0 = true ∧ u.check6 x.code 0 = true :=
  checks_of_ok h

/-- An encoded three-operand row decodes to the instruction that it is the row of. -/
theorem decodeOps_bits {i : Instr} {opc : Nat} {o : Ops} {ctl : Nat} {u : Uses} {ok ok6 : Bool} (hr : i.row = some (.ops opc o ctl u ok ok6))
    (hw : (Row.ops opc o ctl u ok ok6).wf = true) (hn : buildOps opc ctl o = some i) (hctl : ctl < 2 ^ 15) :
    decode (Row.ops opc o ctl u ok ok6).bits = .ok i (Form.ofFmt o.fmt).bytes := by
  simp only [Row.wf, Bool.and_eq_true] at hw
  obtain ⟨⟨⟨⟨⟨⟨⟨⟨hform, hshape⟩, hd⟩, ha⟩, hb⟩, hc⟩, himm⟩, hok⟩, hok6⟩ := hw
  obtain ⟨hlen, hopc, hg, hlt, hraw⟩ := rawOps_bits (u := u) (ok := ok) (ok6 := ok6) (formsOf_big hform) hshape hctl
  generalize (Row.ops opc o ctl u ok ok6).bits = w at *
  have hbody : decodeBody (Form.ofFmt o.fmt) w = decodeOps opc o.fmt w := by
    subst hopc; cases o.fmt <;> rfl
  rw [decode_of (hopc ▸ hform) hlen hlt, hbody, decodeOps]
  simp only [hraw, hn, hr, answer_eq_ok]
  simp [hg, hok, hok6, himm, Use.checks_of_plain hd, Use.checks_of_ok ha, Use.checks_of_ok hb, Use.checks_of_ok hc]

/-- An encoded F128B row decodes to the instruction that it is the row of. -/
theorem decodeBr_bits {i : Instr} {opc : Nat} {o : BrOps} {ctl : Nat} {u : Uses} {x ok ok6 : Bool} (hr : i.row = some (.br opc o ctl u x ok ok6))
    (hw : (Row.br opc o ctl u x ok ok6).wf = true) (hn : buildBr opc ctl o = some i) (hctl : ctl < 2 ^ 27) :
    decode (Row.br opc o ctl u x ok ok6).bits = .ok i 16 := by
  simp only [Row.wf, Bool.and_eq_true] at hw
  obtain ⟨⟨⟨⟨⟨⟨hform, ha⟩, hb⟩, hoff⟩, haux⟩, hok⟩, hok6⟩ := hw
  obtain ⟨hlen, hopc, hlt, hg, hgok, ea, eb, en, eoff, eaux⟩ := brFields_bits (u := u) (x := x) (ok := ok) (ok6 := ok6) (o := o) (formsOf_big hform) hctl
  generalize (Row.br opc o ctl u x ok ok6).bits = w at *
  rw [decode_of (f := .b) (hopc ▸ hform) hlen hlt, decodeBody, hopc, decodeBr]
  simp only [ea, eb, en, eoff, eaux, hg, opndOf_code, BitVec.ofNat_toNat, BitVec.setWidth_eq, hn, hr, answer_eq_ok]
  simpa [hgok, hok, hok6, hoff, Use.checks_of_plain ha, Use.checks_of_plain hb] using haux

/-- An encoded F128C row decodes to the instruction that it is the row of. -/
theorem decodeEng_bits {i : Instr} {opc : Nat} {o : EngOps} {ctl desc : Nat} {u : Uses} {ok : Bool} (hr : i.row = some (.eng opc o ctl desc u ok))
    (hw : (Row.eng opc o ctl desc u ok).wf = true) (hn : buildEng opc ctl desc o = some i) (hctl : ctl < 2 ^ 7) (hx : desc < 2 ^ 64) :
    decode (Row.eng opc o ctl desc u ok).bits = .ok i 16 := by
  simp only [Row.wf, Bool.and_eq_true] at hw
  obtain ⟨⟨⟨⟨⟨hform, ha⟩, hb⟩, hc⟩, hm⟩, hok⟩ := hw
  obtain ⟨hlen, hopc, hlt, hg, hgok, ea, eb, ec, em, en, ex⟩ := engFields_bits (u := u) (ok := ok) (o := o) (formsOf_big hform) hctl hx
  generalize (Row.eng opc o ctl desc u ok).bits = w at *
  rw [decode_of (f := .c) (hopc ▸ hform) hlen hlt, decodeBody, hopc, decodeEng]
  simp only [ea, eb, ec, em, en, ex, hg, opndOf_code, hn, hr, answer_eq_ok]
  simp [hgok, hok, Use.checks_of_plain ha, Use.checks_of_plain hb, Use.checks_of_plain hc, Use.checks_of_plain hm]

/-- An encoded F128M row decodes to the instruction that it is the row of. -/
theorem decodeMat_bits {i : Instr} {opc : Nat} {o : MatOps} {ctl mcw : Nat} {u : Uses} {ok : Bool} (hr : i.row = some (.mat opc o ctl mcw u ok))
    (hw : (Row.mat opc o ctl mcw u ok).wf = true) (hn : buildMat opc ctl mcw o = some i) (hctl : ctl < 2 ^ 17) (hx : mcw < 2 ^ 64) :
    decode (Row.mat opc o ctl mcw u ok).bits = .ok i 16 := by
  simp only [Row.wf, Bool.and_eq_true] at hw
  obtain ⟨⟨⟨⟨hform, ha⟩, hb⟩, hc⟩, hok⟩ := hw
  obtain ⟨hlen, hopc, hlt, hg, ea, eb, ec, en, ex⟩ := matFields_bits (u := u) (ok := ok) (o := o) (formsOf_big hform) hctl hx
  generalize (Row.mat opc o ctl mcw u ok).bits = w at *
  rw [decode_of (f := .m) (hopc ▸ hform) hlen hlt, decodeBody, hopc, decodeMat]
  simp only [ea, eb, ec, en, ex, opndOf_code, hn, hr, answer_eq_ok]
  simp [hg, hok, Use.checks_of_plain ha, Use.checks_of_plain hb, Use.checks_of_plain hc]

/-- Settles O55, layout by layout: the fields of an encoded row are those it was made of, they pass the checks, and
opcode and control field name the instruction. -/
theorem encodeDecode : Obligations.EncodeDecode := by
  unfold Obligations.EncodeDecode
  intro i r hr hwf
  have hw : r.wf = true := by simpa [Instr.wf, hr] using hwf
  obtain ⟨hn, hfit⟩ := controlField i r hr
  rw [encodeBits, hr]
  cases r with
  | ops opc o ctl u ok ok6 => exact decodeOps_bits hr hw hn hfit
  | br opc o ctl u x ok ok6 => exact decodeBr_bits hr hw hn hfit
  | eng opc o ctl desc u ok => exact decodeEng_bits hr hw hn hfit.1 hfit.2
  | mat opc o ctl mcw u ok => exact decodeMat_bits hr hw hn hfit.1 hfit.2
end Sys2Proof
end

section
/-! PROOF. Decoding: what the decoder accepts is well formed and encodes to the word it was read from (R70 to R83). -/
namespace Sys2Proof

/-! ## One field -/

theorem Opnd.code_of_ofCode {n : Nat} {x : Opnd} (h : Opnd.ofCode n = some x) : x.code = n := by
  unfold Opnd.ofCode at h
  split at h
  · cases h; rfl
  · split at h
    · cases h; simp only [Opnd.code]; omega
    · split at h
      · cases h; simp only [Opnd.code]; omega
      · split at h
        · cases h; simp only [Opnd.code]; omega
        · split at h <;> cases h
          simp only [Opnd.code]; omega
theorem Perm.code_of_ofCode {n : Nat} {x : Perm} (h : Perm.ofCode n = some x) : x.code = n := by
  unfold Perm.ofCode at h
  split at h
  case h_7 => cases h
  all_goals
    split at h <;> cases h
    simp only [Perm.code]
    omega

/-- A field that passes checks 5 and 6 stands for an operand and a permutation that its use accepts, and for no others
(R61, R70, R81). -/
structure Use.Reads (u : Use) (raw rawPerm : Nat) : Prop where
  fits : u.okFor (opndOf raw) (permOf rawPerm) = true
  opnd : (opndOf raw).code = raw
  perm : (permOf rawPerm).code = rawPerm
theorem Use.reads_of_checks {u : Use} {raw rawPerm : Nat} (h5 : u.check5 raw rawPerm = true) (h6 : u.check6 raw rawPerm = true) : u.Reads raw rawPerm := by
  by_cases hu : u.used = true
  · simp only [check6, hu, Bool.not_true, Bool.false_or] at h6
    split at h6
    next x pm hx hp =>
      exact ⟨by simpa [opndOf, permOf, hx, hp] using h6, by simp [opndOf, hx, Opnd.code_of_ofCode hx], by simp [permOf, hp, Perm.code_of_ofCode hp]⟩
    next => cases h6
  · simp only [check5, hu, Bool.false_eq_true, if_false, Bool.and_eq_true, beq_iff_eq] at h5
    obtain ⟨rfl, rfl⟩ := h5
    exact ⟨by simp [okFor, hu]; decide, rfl, rfl⟩
/-- The same for a field without a permutation field. -/
theorem Use.reads_plain {u : Use} {raw : Nat} (h5 : u.check5 raw 0 = true) (h6 : u.check6 raw 0 = true) :
    u.okFor (opndOf raw) .none = true ∧ (opndOf raw).code = raw :=
  have h := reads_of_checks h5 h6
  ⟨h.fits, h.opnd⟩

/-- An admissible guard's bits are those it was read from (R73). -/
theorem guardBits_guardOf {w : Nat} (h : guardOk w = true) : guardBits (guardOf w) = fld w 16 11 * 2 ^ 11 := by
  have b2n_bit (k : Nat) : b2n (bit w k) = w / 2 ^ k % 2 := by
    unfold b2n bit; rcases Nat.mod_two_eq_zero_or_one (w / 2 ^ k) with h | h <;> simp [h]
  have h11 := b2n_bit 11
  by_cases hg : bit w 11 = true
  · have h16 := b2n_bit 16
    rw [hg] at h11
    simp only [guardOf, hg, if_true, guardBits, h16, BitVec.val_toFin, BitVec.toNat_ofNat]
    unfold fld; simp only [b2n, if_true] at h11; omega
  · simp only [Bool.not_eq_true] at hg
    rw [hg] at h11
    simp only [guardOk, hg, Bool.false_or, beq_iff_eq] at h
    simp only [guardOf, hg, Bool.false_eq_true, if_false, guardBits]
    unfold fld at *; simp only [b2n, Bool.false_eq_true, if_false] at h11; omega

/-! ## What opcode and control field name -/

/-- Every row of an instruction that was read satisfies `P`. -/
def NamesRow (P : Row → Prop) (x : Option Instr) : Prop := ∀ i, x = some i → ∀ r, i.row = some r → P r
theorem NamesRow.none {P : Row → Prop} : NamesRow P none := fun _ h => by cases h
theorem NamesRow.some {P : Row → Prop} {i : Instr} {r : Row} (hr : i.row = some r) (h : P r) : NamesRow P (some i) := by
  intro j hj q hq
  cases hj
  cases hr.symm.trans hq
  exact h
/-- A sub-field is read first. -/
theorem NamesRow.bind {P : Row → Prop} {α : Type} {x : Option α} {f : α → Option Instr} (h : ∀ a, NamesRow P (f a)) : NamesRow P (x >>= f) := by
  cases x with
  | none => exact .none
  | some a => exact h a
/-- The opcode's range, or a bit of the control field, decides. -/
theorem NamesRow.ite {P : Row → Prop} {c : Prop} [Decidable c] {x y : Option Instr} (hx : NamesRow P x) (hy : NamesRow P y) :
    NamesRow P (if c then x else y) := by
  split
  · exact hx
  · exact hy

/-- The opcode of a three-operand row. -/
def Row.opsOpc : Row → Option Nat
  | .ops opc .. => some opc
  | _ => none
/-- The opcode and the operands of an F128B or F128C row. -/
def Row.brHead : Row → Option (Nat × BrOps)
  | .br opc o .. => some (opc, o)
  | _ => none
def Row.engHead : Row → Option (Nat × EngOps)
  | .eng opc o .. => some (opc, o)
  | _ => none

/-- An F128M row has the opcode and the operands, or it has no operands (MCFG). -/
def Row.MatHead (opc : Nat) (o : MatOps) : Row → Prop
  | .mat c q _ _ u _ => c = opc ∧ (q = o ∨ (q = .blank ∧ u = {}))
  | _ => False

/-! Each arm of a table is closed by the rule for its shape: an instruction, nothing, a sub-field or a bit read first. -/

/-- A three-operand instruction that was read has the opcode it was read from (R82). -/
theorem buildOps_opc (opc n : Nat) (o : Ops) : NamesRow (fun r => r.opsOpc = some opc) (buildOps opc n o) := by
  unfold buildOps buildControl buildUniform buildLane buildInt buildFloat buildMem buildEngLane buildMatLane
  repeat' refine .ite ?_ ?_
  all_goals split
  all_goals repeat' first | exact .some rfl rfl | exact .none | refine .bind fun _ => ?_ | refine .ite ?_ ?_
theorem buildBr_head (opc n : Nat) (o : BrOps) : NamesRow (fun r => r.brHead = some (opc, o)) (buildBr opc n o) := by
  unfold buildBr
  split <;> repeat' first | exact .some rfl rfl | exact .none | refine .bind fun _ => ?_
theorem buildEng_head (opc n x : Nat) (o : EngOps) : NamesRow (fun r => r.engHead = some (opc, o)) (buildEng opc n x o) := by
  unfold buildEng
  split <;> repeat' first | exact .some rfl rfl | exact .none | refine .bind fun _ => ?_
theorem buildMat_head (opc n x : Nat) (o : MatOps) : NamesRow (Row.MatHead opc o) (buildMat opc n x o) := by
  unfold buildMat
  split
  case h_3 => exact .some rfl ⟨rfl, .inr ⟨rfl, rfl⟩⟩
  all_goals repeat' first | exact .some rfl ⟨rfl, .inl rfl⟩ | exact .none | refine .bind fun _ => ?_

/-! ## Whole words -/

theorem opndOf_zero : opndOf 0 = .v 0 := by decide
theorem permOf_zero : permOf 0 = .none := by decide
/-- The parts of the operands that do not depend on the layout. -/
theorem rawOps_operands (fmt : Fmt) (w : Nat) :
    let r := rawOps fmt w
    r.o.fmt = fmt ∧ r.o.shapeOk = true ∧ r.o.d = opndOf r.rd ∧ r.o.a = opndOf r.ra ∧ r.o.b = opndOf r.rb ∧ r.o.c = opndOf r.rc ∧
      r.o.pa = permOf r.qa ∧ r.o.pb = permOf r.qb ∧ r.o.pc = permOf r.qc := by
  cases fmt <;> simp [rawOps, Ops.shapeOk, opndOf_zero, permOf_zero]

/-- The fields of a word that was read as a three-operand layout make up the word (R75 to R77). -/
theorem bits_rawOps {fmt : Fmt} {w : Nat} {u : Uses} {ok ok6 : Bool} (hlen : fld w 1 0 = (Form.ofFmt fmt).len) (hw : w < 2 ^ (8 * (Form.ofFmt fmt).bytes))
    (hg : guardOk w = true) (hd : u.d.Reads (rawOps fmt w).rd 0) (ha : u.a.Reads (rawOps fmt w).ra (rawOps fmt w).qa)
    (hb : u.b.Reads (rawOps fmt w).rb (rawOps fmt w).qb) (hc : u.c.Reads (rawOps fmt w).rc (rawOps fmt w).qc) :
    (Row.ops (opcOf w) (rawOps fmt w).o (rawOps fmt w).ctl u ok ok6).bits = w := by
  obtain ⟨-, hd, -⟩ := hd
  obtain ⟨-, ha, hpa⟩ := ha
  obtain ⟨-, hb, hpb⟩ := hb
  obtain ⟨-, hc, hpc⟩ := hc
  have hgb := guardBits_guardOf hg
  cases fmt with
  | f64 =>
    simp only [rawOps] at hd ha hb
    simp only [Row.bits, rawOps, hd, ha, hb, hgb, Form.ofFmt, Form.len]
    simp only [Form.ofFmt, Form.bytes, Form.len, fld, opcOf] at *
    omega
  | f96 =>
    simp only [rawOps] at hd ha hb hc hpa hpb hpc
    simp only [Row.bits, rawOps, hd, ha, hb, hc, hpa, hpb, hpc, hgb, Form.ofFmt, Form.len]
    simp only [Form.ofFmt, Form.bytes, Form.len, fld, opcOf] at *
    omega
  | f128i =>
    simp only [rawOps] at hd ha hb
    simp only [Row.bits, rawOps, hd, ha, hb, hgb, Form.ofFmt, Form.len, if_true, BitVec.toNat_ofNat]
    simp only [Form.ofFmt, Form.bytes, Form.len, fld, opcOf] at *
    omega

/-- What every layout's reading comes to: the word's length, a well-formed instruction, and its encoding, the word. -/
def ReadsAs (w n : Nat) (i : Instr) (m : Nat) : Prop := m = n ∧ i.wf = true ∧ encodeBits i = w

/-- A word read as a three-operand layout (R75 to R77). -/
theorem decodeOps_ok {fmt : Fmt} {w m : Nat} {i : Instr} (h : decodeOps (opcOf w) fmt w = .ok i m) (hform : (formsOf (opcOf w)).contains (Form.ofFmt fmt) = true)
    (hlen : fld w 1 0 = (Form.ofFmt fmt).len) (hw : w < 2 ^ (8 * (Form.ofFmt fmt).bytes)) : ReadsAs w (Form.ofFmt fmt).bytes i m := by
  obtain ⟨hfmt, hshape, od, oa, ob, oc, qa, qb, qc⟩ := rawOps_operands fmt w
  simp only [decodeOps] at h
  split at h
  next => cases h
  next j hbuild =>
    split at h
    next opc o ctl u ok ok6 hrow =>
      obtain ⟨h5, h6, rfl, rfl⟩ := answer_eq_ok.mp h
      simp only [Bool.and_eq_true, beq_iff_eq] at h5 h6
      obtain ⟨⟨⟨⟨⟨⟨⟨⟨hg, rfl⟩, rfl⟩, hok⟩, hd5⟩, ha5⟩, hb5⟩, hc5⟩, himm⟩ := h5
      obtain ⟨⟨⟨⟨hok6, hd6⟩, ha6⟩, hb6⟩, hc6⟩ := h6
      obtain rfl : opc = opcOf w := Option.some.inj (buildOps_opc _ _ _ _ hbuild _ hrow)
      have hD := Use.reads_of_checks hd5 hd6
      have hA := Use.reads_of_checks ha5 ha6
      have hB := Use.reads_of_checks hb5 hb6
      have hC := Use.reads_of_checks hc5 hc6
      have hd : u.d.okFor (opndOf (rawOps fmt w).rd) .none = true := hD.fits
      refine ⟨rfl, ?_, ?_⟩
      · simp only [Instr.wf, hrow, Row.wf, hfmt, hform, hshape, od, oa, ob, oc, qa, qb, qc, hd, hA.fits, hB.fits, hC.fits, himm, hok, hok6, Bool.and_self]
      · simp only [encodeBits, hrow]
        exact bits_rawOps hlen hw hg hD hA hB hC
    next => cases h

/-- A word read as F128B (R78). -/
theorem decodeBr_ok {w m : Nat} {i : Instr} (h : decodeBr (opcOf w) w = .ok i m) (hform : (formsOf (opcOf w)).contains .b = true)
    (hlen : fld w 1 0 = 2) (hw : w < 2 ^ 128) : ReadsAs w 16 i m := by
  simp only [decodeBr] at h
  split at h
  next => cases h
  next j hbuild =>
    split at h
    next opc o ctl u x ok ok6 hrow =>
      obtain ⟨h5, h6, rfl, rfl⟩ := answer_eq_ok.mp h
      simp only [Bool.and_eq_true, beq_iff_eq] at h5 h6
      obtain ⟨⟨⟨⟨⟨⟨hg, rfl⟩, hok⟩, ha5⟩, hb5⟩, hoff⟩, haux⟩ := h5
      obtain ⟨⟨hok6, ha6⟩, hb6⟩ := h6
      obtain ⟨rfl, rfl⟩ := Prod.mk.inj (Option.some.inj (buildBr_head _ _ _ _ hbuild _ hrow))
      obtain ⟨ha, ea⟩ := Use.reads_plain ha5 ha6
      obtain ⟨hb, eb⟩ := Use.reads_plain hb5 hb6
      refine ⟨rfl, ?_, ?_⟩
      · simp only [Instr.wf, hrow, Row.wf, hform, ha, hb, hoff, haux, hok, hok6, Bool.and_self]
      · simp only [encodeBits, hrow, Row.bits, guardBits_guardOf hg, ea, eb, BitVec.toNat_ofNat]
        simp only [fld, opcOf] at *
        omega
    next => cases h

/-- A word read as F128C (R79). -/
theorem decodeEng_ok {w m : Nat} {i : Instr} (h : decodeEng (opcOf w) w = .ok i m) (hform : (formsOf (opcOf w)).contains .c = true)
    (hlen : fld w 1 0 = 2) (hw : w < 2 ^ 128) : ReadsAs w 16 i m := by
  simp only [decodeEng] at h
  split at h
  next => cases h
  next j hbuild =>
    split at h
    next opc o ctl desc u ok hrow =>
      obtain ⟨h5, h6, rfl, rfl⟩ := answer_eq_ok.mp h
      simp only [Bool.and_eq_true, beq_iff_eq] at h5 h6
      obtain ⟨⟨⟨⟨⟨⟨⟨hg, rfl⟩, rfl⟩, hok⟩, ha5⟩, hb5⟩, hc5⟩, hm5⟩ := h5
      obtain ⟨⟨⟨ha6, hb6⟩, hc6⟩, hm6⟩ := h6
      obtain ⟨rfl, rfl⟩ := Prod.mk.inj (Option.some.inj (buildEng_head _ _ _ _ _ hbuild _ hrow))
      obtain ⟨ha, ea⟩ := Use.reads_plain ha5 ha6
      obtain ⟨hb, eb⟩ := Use.reads_plain hb5 hb6
      obtain ⟨hc, ec⟩ := Use.reads_plain hc5 hc6
      obtain ⟨hm, em⟩ := Use.reads_plain hm5 hm6
      refine ⟨rfl, ?_, ?_⟩
      · simp only [Instr.wf, hrow, Row.wf, hform, ha, hb, hc, hm, hok, Bool.and_self]
      · simp only [encodeBits, hrow, Row.bits, guardBits_guardOf hg, ea, eb, ec, em]
        simp only [fld, opcOf] at *
        omega
    next => cases h

/-- A word read as F128M (R80). The fields of MCFG, which has no operands, are zero. -/
theorem decodeMat_ok {w m : Nat} {i : Instr} (h : decodeMat (opcOf w) w = .ok i m) (hform : (formsOf (opcOf w)).contains .m = true)
    (hlen : fld w 1 0 = 2) (hw : w < 2 ^ 128) : ReadsAs w 16 i m := by
  simp only [decodeMat] at h
  split at h
  next => cases h
  next j hbuild =>
    split at h
    next opc o ctl mcw u ok hrow =>
      obtain ⟨h5, h6, rfl, rfl⟩ := answer_eq_ok.mp h
      simp only [Bool.and_eq_true, beq_iff_eq] at h5 h6
      obtain ⟨⟨⟨⟨⟨⟨hg, rfl⟩, rfl⟩, hok⟩, ha5⟩, hb5⟩, hc5⟩ := h5
      obtain ⟨⟨ha6, hb6⟩, hc6⟩ := h6
      obtain ⟨ha, ea⟩ := Use.reads_plain ha5 ha6
      obtain ⟨hb, eb⟩ := Use.reads_plain hb5 hb6
      obtain ⟨hc, ec⟩ := Use.reads_plain hc5 hc6
      obtain ⟨rfl, ho⟩ := buildMat_head _ _ _ _ _ hbuild _ hrow
      obtain rfl : o = ⟨opndOf (fld w 26 17), opndOf (fld w 36 27), opndOf (fld w 46 37)⟩ := by
        obtain rfl | ⟨rfl, rfl⟩ := ho
        · rfl
        · simp only [Use.check5, Use.none, Bool.false_eq_true, if_false, Bool.and_eq_true, beq_iff_eq] at ha5 hb5 hc5
          rw [ha5.1, hb5.1, hc5.1, opndOf_zero]; rfl
      refine ⟨rfl, ?_, ?_⟩
      · simp only [Instr.wf, hrow, Row.wf, hform, ha, hb, hc, hok, Bool.and_self]
      · simp only [encodeBits, hrow, Row.bits, ea, eb, ec]
        simp only [fld, opcOf] at *
        omega
    next => cases h

/-- A layout that was found is one of the opcode's, with the length that LEN gives (R71, R82). -/
theorem formOf_some {w : Nat} {f : Form} (h : formOf w = some f) : (formsOf (opcOf w)).contains f = true ∧ fld w 1 0 = f.len :=
  ⟨by simpa using List.mem_of_find?_eq_some h, Eq.symm (by simpa using List.find?_some h)⟩
/-- LEN and the opcode lie below the shortest length. -/
theorem head_mod (w : Nat) (f : Form) : opcOf (w % 2 ^ (8 * f.bytes)) = opcOf w ∧ fld (w % 2 ^ (8 * f.bytes)) 1 0 = fld w 1 0 := by
  cases f <;> simp only [Form.bytes, opcOf, fld] <;> omega

/-- Settles O56, layout by layout: the fields that pass the checks stand for the operands that encode to them, and the
row of the instruction that was built has the word's opcode and operands. -/
theorem decodeEncode : Obligations.DecodeEncode := by
  unfold Obligations.DecodeEncode
  intro v n i h
  unfold decode at h
  split at h
  next => cases h
  next f hf =>
    obtain ⟨hform, hlen⟩ := formOf_some hf
    obtain ⟨hopc, hlo⟩ := head_mod v f
    have hlt : v % 2 ^ (8 * f.bytes) < 2 ^ (8 * f.bytes) := Nat.mod_lt _ (by positivity)
    suffices hr : ReadsAs (v % 2 ^ (8 * f.bytes)) f.bytes i n by
      obtain ⟨rfl, hwf, hbits⟩ := hr
      exact ⟨hwf, hbits⟩
    rw [← hopc] at hform
    rw [← hlo] at hlen
    generalize v % 2 ^ (8 * f.bytes) = w at *
    cases f with
    | f64 => exact decodeOps_ok h hform hlen hlt
    | f96 => exact decodeOps_ok h hform hlen hlt
    | i => exact decodeOps_ok h hform hlen hlt
    | b => exact decodeBr_ok h hform hlen hlt
    | c => exact decodeEng_ok h hform hlen hlt
    | m => exact decodeMat_ok h hform hlen hlt

/-! ## Words written out from the layouts -/

/-- Settles O57: the decoder is run on each of the words. -/
theorem decodesWords : Obligations.DecodesWords := by
  unfold Obligations.DecodesWords
  intro none'
  refine ⟨?_, ?_, ?_, ?_, ?_, ?_, ?_, ?_, ?_, ?_, ?_, ?_⟩ <;> decide +kernel
end Sys2Proof
end

section
/-! PROOF. Special and system registers: what SRD, SWR, CSRRD and CSRWR do (R58, R168, R176, R177). -/
namespace Sys2Proof.Machine

/-! ## The tables of registers -/

/-- Past its last entry a table reads as 0, as does an index without a register. -/
theorem State.special_eq (s : State) : ∀ i, s.special i = s.specials.getD i 0
  | 0 | 1 | 2 | 3 | 4 | 5 | 6 | 7 | 8 | 9 | 10 | 11 | 12 => rfl
  | _ + 13 => rfl
theorem State.csr_eq (s : State) : ∀ i, s.csr i = s.csrs.getD i 0
  | 0 | 1 | 2 | 4 | 5 => rfl
  | 3 => by
    show BitVec.ofNat 64 (b2n s.grp.inhdl) = if s.grp.inhdl then 1 else 0
    cases s.grp.inhdl <;> rfl
  | _ + 6 => rfl

/-! ## SRD -/

/-- No index of the table is refused, but laneid into an s register. -/
theorem srd_allowed {idx : BitVec 6} {d : Opnd} (act : Word) (hhi : idx.toNat ≤ 12) (h0 : idx = 0 → d.isV = true) :
    ((13 ≤ idx.toNat || (idx == 0 && !d.isV)) && act != 0) = false := by
  have h13 : ¬ 13 ≤ idx.toNat := by omega
  by_cases h : idx = 0
  · simp [h13, h0 h]
  · have hb : (idx == 0) = false := by simpa using h
    simp only [h13, hb, decide_false, Bool.false_or, Bool.false_and]

/-- An index of the table other than laneid reads into an s register. -/
theorem execSrd_uniOp {idx : BitVec 6} {o : Ops} (s : State) (hd : o.d.isV = false) (hlo : 1 ≤ idx.toNat) (hhi : idx.toNat ≤ 12) :
    s.UniOp o (s.specials.getD idx.toNat 0) .clean (execSrd idx o s) := by
  have hok := srd_allowed s.iss.act (d := o.d) hhi fun h => by subst h; exact absurd hlo (by decide)
  have hput : execSrd idx o s = .next (s.putS o.d (s.special idx.toNat) .clean) := by
    simp only [execSrd, hok, Bool.false_eq_true, if_false]
    split
    next hv => rw [hv] at hd; cases hd
    next => rfl
  rw [hput, State.special_eq]
  exact s.uniOp_putS o _ _

/-- The shape of register `j` of what SRD reads: the lane numbers at index 0, else the same value in every lane. -/
def srdShape (idx : BitVec 6) (x : DWord) (j : Nat) : Shape :=
  if idx = 0 then .affine 0 1 else .uniform ((x >>> (32 * j)).setWidth 32)
/-- SRD writes a vector register, or at the indices of the 64-bit registers a pair (R57). -/
theorem execSrd_vector {idx : BitVec 6} {o : Ops} (s : State) (hd : o.d.isV = true) (hhi : idx.toNat ≤ 12) :
    execSrd idx o s =
      .next (s.putV (idx == 5 || idx == 6) (s.resultWs o (idx == 5 || idx == 6) (srdShape idx (s.special idx.toNat)) 0 0)) := by
  have hok := srd_allowed s.iss.act hhi fun _ => hd
  simp only [execSrd, hok, Bool.false_eq_true, if_false]
  split
  next k hk =>
    by_cases h0 : idx = 0
    · subst h0; rfl
    · by_cases h56 : idx = 5 ∨ idx = 6
      · rcases h56 with rfl | rfl <;> rfl
      · have hb : (idx == 5 || idx == 6) = false := by simpa using h56
        simp only [if_neg h0, if_neg h56, hb, State.resultWs, srdShape, Bool.false_eq_true, if_false, Nat.mul_zero, BitVec.ushiftRight_zero]
  next hv => cases h : o.d <;> simp_all [Opnd.isV]
theorem srdShape_lane {idx : BitVec 6} (x : DWord) (j l : Nat) (h0 : idx = 0 → j = 0) :
    (srdShape idx x j).lane l = BitVec.ofNat 32 ((if idx = 0 then l else x.toNat) / 2 ^ (32 * j)) := by
  unfold srdShape
  split
  · obtain rfl := h0 ‹_›
    simp [Shape.lane]
  · apply BitVec.eq_of_toNat_eq
    simp [Shape.lane, BitVec.toNat_setWidth, Nat.shiftRight_eq_div_pow]
/-- SRD into every active lane. -/
theorem execSrd_laneDone {idx : BitVec 6} {o : Ops} (s : State) (hd : o.d.isV = true) (hhi : idx.toNat ≤ 12) (hact : s.iss.act ≠ 0)
    (hfit : s.Fits o.d.reg (idx == 5 || idx == 6) []) :
    ∃ t, execSrd idx o s = .next t ∧
      s.LaneDone t o.d.reg (idx == 5 || idx == 6) (fun l => if idx = 0 then l else (s.specials.getD idx.toNat 0).toNat) s.iss.guardTag := by
  refine ⟨_, execSrd_vector s hd hhi, ?_⟩
  have h := s.laneDone_putV o (idx == 5 || idx == 6) (srdShape idx (s.special idx.toNat))
    (fun l => if idx = 0 then l else (s.special idx.toNat).toNat) 0 0 hact
    (hfit.imp id fun hw => ⟨hw.1, fun j _ => by unfold srdShape; split <;> rfl⟩)
    fun j hj l _ _ => srdShape_lane _ j l (by rintro rfl; simpa using hj)
  simpa only [tagAt_zero, Tag.clean_join, State.special_eq] using h

/-! ## SWR, CSRRD, CSRWR -/

/-- With an active lane, an operation that changes its group by `f` and finishes does so. -/
theorem State.does_ifActive {s : State} {f : Group → Group} {k : State → State} (h : k s = (s.updGrp f).finish) : s.Does f (.next (s.ifActive k)) :=
  fun hact => by rw [s.ifActive_eq k hact, h]

theorem execCsrrd_uniOp {idx : BitVec 12} (o : Ops) (s : State) (h : idx.toNat ≤ 5) :
    s.UniOp o (s.csrs.getD idx.toNat 0) .clean (execCsrrd idx o s) := by
  intro hact
  have hidx : ¬ 5 < idx.toNat := by omega
  rw [execCsrrd, s.ifActive_eq _ hact, if_neg hidx, State.csr_eq]
  exact s.uniOp_putS o _ _ hact

/-- The low bits of an address that is aligned are no remainder. -/
theorem aligned_of_low {x : DWord} {n : Nat} (h : x.extractLsb' 0 n = 0) : ¬ x.toNat % 2 ^ n ≠ 0 := by
  have := congrArg BitVec.toNat h
  simpa [BitVec.extractLsb'_toNat] using this
theorem execCsrwr_tvec {o : Ops} {s : State} (h : (s.uniA o).val.extractLsb' 0 5 = 0) :
    s.Does (fun g => { g with tvec := (s.uniA o).val }) (execCsrwr 0 o s) := by
  have hal := aligned_of_low h
  exact State.does_ifActive (by simp_all)
theorem execCsrwr_tarea {o : Ops} {s : State} (h : (s.uniA o).val.extractLsb' 0 8 = 0) :
    s.Does (fun g => { g with tarea := (s.uniA o).val }) (execCsrwr 1 o s) := by
  have hal := aligned_of_low h
  exact State.does_ifActive (by simp_all)
theorem execCsrwr_spq (o : Ops) (s : State) : s.Does (fun g => { g with spq := (s.uniA o).val &&& 0xFFFF }) (execCsrwr 2 o s) := by
  have hmask (x : DWord) : (x.setWidth 16).setWidth 64 = x &&& 0xFFFF := by
    apply BitVec.eq_of_toNat_eq
    rw [BitVec.toNat_and, show (0xFFFF : DWord).toNat = 2 ^ 16 - 1 from rfl, Nat.and_two_pow_sub_one_eq_mod]
    simp only [BitVec.toNat_setWidth]
    omega
  exact State.does_ifActive (by simp [hmask])

/-- Settles O3: each register's instruction by its rule. -/
theorem systemRegisterAccess : Obligations.SystemRegisterAccess := by
  unfold Obligations.SystemRegisterAccess
  intro o s
  exact ⟨fun _ hd hlo hhi => execSrd_uniOp s hd hlo hhi, fun _ hd hhi hact hfit => execSrd_laneDone s hd hhi hact hfit,
    State.does_ifActive rfl, State.does_ifActive rfl, State.does_ifActive rfl, State.does_ifActive rfl,
    fun _ h => execCsrrd_uniOp o s h, execCsrwr_tvec, execCsrwr_tarea, execCsrwr_spq o s⟩
end Sys2Proof.Machine
end

section
/-! PROOF. Conversions: a value rounded to an integer, clamped, and CVT (R105, R112, R204, R205). -/
namespace Sys2Proof

/-! ## Rounding to an integer -/

/-- A rational rounded to an integer in a mode, where `sg` says on which side of zero `.rz` finds it (R105). -/
def roundInt (r : Rnd) (sg : Bool) (v : ℚ) : Int :=
  match r with
  | .rd => ⌊v⌋
  | .ru => ⌈v⌉
  | .rz => if sg then ⌈v⌉ else ⌊v⌋
  | .rn => if v - ⌊v⌋ < 1 / 2 ∨ (v - ⌊v⌋ = 1 / 2 ∧ ⌊v⌋ % 2 = 0) then ⌊v⌋ else ⌊v⌋ + 1
/-- The mode that does to −v what a mode does to v. -/
def Rnd.mirror : Rnd → Rnd
  | .ru => .rd | .rd => .ru | r => r

theorem roundInt_intCast (r : Rnd) (sg : Bool) (i : Int) : roundInt r sg i = i := by
  cases r <;> cases sg <;> simp [roundInt]
/-- Strictly between two integers the modes take the one or the other. -/
theorem roundInt_between {i : Int} {v : ℚ} (r : Rnd) (sg : Bool) (hlo : i < v) (hhi : v < i + 1) :
    roundInt r sg v = match r with
      | .rd => i
      | .ru => i + 1
      | .rz => if sg then i + 1 else i
      | .rn => if v - i < 1 / 2 ∨ (v - i = 1 / 2 ∧ i % 2 = 0) then i else i + 1 := by
  have hfloor : ⌊v⌋ = i := Int.floor_eq_iff.2 ⟨hlo.le, hhi⟩
  have hceil : ⌈v⌉ = i + 1 := Int.ceil_eq_iff.2 ⟨by push_cast; linarith, by push_cast; exact hhi.le⟩
  cases r <;> simp only [roundInt, hfloor, hceil]
theorem roundInt_neg (r : Rnd) (sg : Bool) (v : ℚ) : roundInt r (!sg) (-v) = -roundInt r.mirror sg v := by
  by_cases hint : (⌊v⌋ : ℚ) = v
  · rw [← hint, ← Int.cast_neg, roundInt_intCast, roundInt_intCast]
  · have hlo : ⌊v⌋ < v := lt_of_le_of_ne (Int.floor_le v) hint
    have hhi := Int.lt_floor_add_one v
    rw [roundInt_between r.mirror sg hlo hhi,
      roundInt_between (i := -⌊v⌋ - 1) r (!sg) (by push_cast; linarith) (by push_cast; linarith)]
    cases r with
    | rd => simp only [Rnd.mirror]; omega
    | ru => simp only [Rnd.mirror]; omega
    | rz => cases sg <;> simp only [Rnd.mirror, Bool.not_true, Bool.not_false, if_true, Bool.false_eq_true, if_false] <;> omega
    | rn =>
      simp only [Rnd.mirror]
      have hfrac : -v - ((-⌊v⌋ - 1 : Int) : ℚ) = 1 - (v - ⌊v⌋) := by push_cast; ring
      rw [hfrac]
      generalize v - ⌊v⌋ = d
      rcases lt_trichotomy d (1 / 2) with h | rfl | h
      · rw [if_neg (by rintro (h' | ⟨h', -⟩) <;> linarith), if_pos (.inl h)]; omega
      · norm_num
        split <;> split <;> omega
      · rw [if_pos (.inl (by linarith)), if_neg (by rintro (h' | ⟨h', -⟩) <;> linarith)]; omega

/-! ## The model's rounding -/

namespace Fp

theorem roundUp_true (r : Rnd) (hi lo sh : Nat) : roundUp r true hi lo sh = roundUp r.mirror false hi lo sh := by cases r <;> rfl
theorem quantize_true (r : Rnd) (m : Nat) (e q : Int) : quantize r true m e q = quantize r.mirror false m e q := by
  simp only [quantize, roundUp_true]

/-- The bits below the point decide the rounding of a magnitude (R105). -/
theorem roundUp_eq_roundInt (r : Rnd) (hi lo sh : Nat) (hlo : lo < 2 ^ sh) :
    ((hi + b2n (roundUp r false hi lo sh) : Nat) : Int) = roundInt r false (hi + lo / 2 ^ sh) := by
  have hpos : (0 : ℚ) < 2 ^ sh := by positivity
  have hltQ : (lo : ℚ) < 2 ^ sh := by exact_mod_cast hlo
  rcases Nat.eq_zero_or_pos lo with rfl | h0
  · have hz := roundInt_intCast r false hi
    rw [Int.cast_natCast] at hz
    rw [Nat.cast_zero, zero_div, add_zero, hz]
    cases r <;> simp [roundUp, b2n, (Nat.two_pow_pos sh).ne]
  · have h0Q : (0 : ℚ) < lo := by exact_mod_cast h0
    have hbelow : (lo : ℚ) / 2 ^ sh < 1 := (div_lt_one hpos).2 hltQ
    have habove : (0 : ℚ) < lo / 2 ^ sh := by positivity
    rw [roundInt_between (i := hi) r false (by push_cast; linarith) (by push_cast; linarith)]
    cases r with
    | rd => simp [roundUp, b2n]
    | ru => simp [roundUp, b2n, h0.ne']
    | rz => simp [roundUp, b2n]
    | rn =>
      have hlt : (lo : ℚ) / 2 ^ sh < 1 / 2 ↔ 2 * lo < 2 ^ sh := by
        rw [div_lt_div_iff₀ hpos two_pos]; norm_cast; omega
      have heq : (lo : ℚ) / 2 ^ sh = 1 / 2 ↔ 2 * lo = 2 ^ sh := by
        rw [div_eq_div_iff hpos.ne' two_ne_zero]; norm_cast; omega
      have hup : roundUp .rn false hi lo sh = decide (2 ^ sh < 2 * lo ∨ (2 * lo = 2 ^ sh ∧ hi % 2 = 1)) := by
        simp only [roundUp, Bool.decide_or, Bool.decide_and, beq_eq_decide]
      simp only [Int.cast_natCast, add_sub_cancel_left, hlt, heq, hup]
      by_cases h : 2 ^ sh < 2 * lo ∨ (2 * lo = 2 ^ sh ∧ hi % 2 = 1)
      · rw [decide_eq_true h, if_neg (by omega)]; rfl
      · rw [decide_eq_false h, if_pos (by omega)]; rfl

/-- A positive magnitude below one half is rounded as every other one. -/
theorem roundInt_small (r : Rnd) {x y : ℚ} (hx : 0 < x) (hx' : x < 1 / 2) (hy : 0 < y) (hy' : y < 1 / 2) :
    roundInt r false x = roundInt r false y := by
  rw [roundInt_between (i := 0) r false (by simpa using hx) (by push_cast; linarith),
    roundInt_between (i := 0) r false (by simpa using hy) (by push_cast; linarith)]
  cases r with
  | rn => simp only [Int.cast_zero, sub_zero, hx', hy', true_or, if_true]
  | rd | ru | rz => rfl

/-- `quantize` at 2^0 rounds a magnitude to an integer. -/
theorem quantize_zero (r : Rnd) (m : Nat) (e : Int) : (quantize r false m e 0 : Int) = roundInt r false (m * 2 ^ e) := by
  unfold quantize
  split
  next he =>
    obtain ⟨k, rfl⟩ := Int.eq_ofNat_of_zero_le he
    have := roundInt_intCast r false (m * 2 ^ k : Nat)
    simpa using this.symm
  next he =>
    obtain ⟨k, rfl⟩ : ∃ k : Nat, e = -k := ⟨(-e).toNat, by omega⟩
    have hsplit (sh : Nat) : ((m / 2 ^ sh : Nat) : ℚ) + (m % 2 ^ sh : Nat) / 2 ^ sh = m / 2 ^ sh := by
      have h : ((m / 2 ^ sh * 2 ^ sh + m % 2 ^ sh : Nat) : ℚ) = m := by rw [Nat.div_add_mod']
      rw [← h]; push_cast; field_simp
    have hround (sh : Nat) := roundUp_eq_roundInt r (m / 2 ^ sh) (m % 2 ^ sh) sh (Nat.mod_lt _ (by positivity))
    simp only [hround, hsplit, zpow_neg, zpow_natCast, ← div_eq_mul_inv]
    rw [show (0 - (-(k : Int))).toNat = k by omega]
    rcases Nat.le_total k (Nat.log2 m + 3) with hk | hk
    · rw [Nat.min_eq_left hk]
    · rw [Nat.min_eq_right hk]
      rcases Nat.eq_zero_or_pos m with rfl | hm
      · simp
      · have hmQ : (0 : ℚ) < m := by exact_mod_cast hm
        have hhalf (j : Nat) (hj : Nat.log2 m + 3 ≤ j) : (m : ℚ) / 2 ^ j < 1 / 2 := by
          have hlt : m * 2 < 2 ^ j := calc
            m * 2 < 2 ^ (Nat.log2 m + 1) * 2 := by have := @Nat.lt_log2_self m; omega
            _ = 2 ^ (Nat.log2 m + 2) := by ring
            _ ≤ 2 ^ j := Nat.pow_le_pow_right (by norm_num) (by omega)
          rw [div_lt_div_iff₀ (by positivity) two_pos]
          exact_mod_cast by omega
        exact roundInt_small r (by positivity) (hhalf _ le_rfl) (by positivity) (hhalf k hk)

/-- A finite value rounded to an integer in a mode (R112). -/
theorem toInt_eq_roundInt (r : Rnd) (sg : Bool) (m : Nat) (e : Int) :
    toInt r sg m e = roundInt r sg ((if sg then -1 else 1) * m * 2 ^ e) := by
  cases sg with
  | false => simp [toInt, quantize_zero]
  | true =>
    have h := roundInt_neg r false (m * 2 ^ e)
    simp only [toInt, quantize_true, quantize_zero, if_true]
    rw [← h]; congr 1; ring

end Fp

/-! ## Clamping -/

/-- The least and the greatest integer of `n` bits, signed or not. -/
def leastInt (sgn : Bool) (n : Nat) : Int := if sgn then -2 ^ (n - 1) else 0
def greatestInt (sgn : Bool) (n : Nat) : Int := if sgn then 2 ^ (n - 1) - 1 else 2 ^ n - 1

theorem wrap_eq_toNat_ofInt (x : Int) (n : Nat) : wrap x n = (BitVec.ofInt n x).toNat := by
  rw [← ofNat_wrap, BitVec.toNat_ofNat, Nat.mod_eq_of_lt (wrap_lt x n)]
/-- The saturations of R89 are one clamp. -/
theorem sat_eq_clamp (sgn : Bool) (x : Int) (n : Nat) :
    (if sgn then satS x n else satU x n) = wrap (max (leastInt sgn n) (min x (greatestInt sgn n))) n := by cases sgn <;> rfl

namespace Fp
theorem toIntClamped_fin (r : Rnd) (sgn sg : Bool) (n m : Nat) (e : Int) :
    toIntClamped r sgn n (.fin sg m e) = wrap (max (leastInt sgn n) (min (toInt r sg m e) (greatestInt sgn n))) n := sat_eq_clamp sgn _ n
theorem toIntClamped_inf (r : Rnd) (sgn sg : Bool) {n : Nat} (hn : 0 < n) :
    toIntClamped r sgn n (.inf sg) = wrap (if sg then leastInt sgn n else greatestInt sgn n) n := by
  obtain ⟨k, rfl⟩ := Nat.exists_eq_add_of_lt hn
  have hone (j : Nat) : (2 : Int) ^ j - 1 = ((2 ^ j - 1 : Nat) : Int) := by
    rw [Nat.cast_sub Nat.one_le_two_pow]; norm_cast
  have hpow : 2 ^ (0 + k + 1) = 2 * 2 ^ k := by ring
  have hpos : 0 < 2 ^ k := by positivity
  cases sgn <;> cases sg
  · simp only [toIntClamped, greatestInt, Bool.false_eq_true, if_false]
    rw [hone, wrap_natCast, Nat.mod_eq_of_lt (by omega)]
  · simp [toIntClamped, leastInt, wrap]
  · simp only [toIntClamped, greatestInt, Bool.false_eq_true, if_false, if_true, Nat.add_sub_cancel, Nat.zero_add]
    rw [hone, wrap_natCast, Nat.mod_eq_of_lt (by omega)]
  · simp only [toIntClamped, leastInt, if_true, Nat.add_sub_cancel, Nat.zero_add]
    have h : (-2 ^ k : Int) % 2 ^ (k + 1) = (2 ^ k : Nat) := by
      rw [← Int.add_mul_emod_self_left _ _ 1, show (-2 ^ k + 2 ^ (k + 1) * 1 : Int) = ((2 ^ k : Nat) : Int) by push_cast; ring]
      exact_mod_cast Nat.mod_eq_of_lt (by omega)
    rw [wrap, h, Int.toNat_natCast]
theorem toIntClamped_lt (r : Rnd) (sgn : Bool) {n : Nat} (hn : 0 < n) (v : FVal) : toIntClamped r sgn n v < 2 ^ n := by
  cases v with
  | zero | nan => exact Nat.two_pow_pos n
  | inf sg => rw [toIntClamped_inf r sgn sg hn]; exact wrap_lt _ _
  | fin sg m e => rw [toIntClamped_fin]; exact wrap_lt _ _
end Fp

/-! ## CVT -/

theorem Ty.width_pos (ty : Ty) : 0 < ty.width := by cases ty <;> decide
theorem Ty.isS_of_isFloat {ty : Ty} (h : ty.isFloat = true) : ty.isS = false := by revert h; cases ty <;> decide
theorem Ty.width_le_of_not_is64 {ty : Ty} (h : ty.is64 = false) : ty.width ≤ 32 := by revert h; cases ty <;> decide

namespace Machine

/-- The bits of a type read as an integer: two's complement at .s types. -/
def Ty.intOf (ty : Ty) (x : Nat) : Int :=
  if ty.isS then (BitVec.ofNat ty.width x).toInt else ((BitVec.ofNat ty.width x).toNat : Int)
/-- A result of a type's width as a register takes it: sign-extended to 32 bits at .s types. -/
def Ty.extended (ty : Ty) (r : BitVec ty.width) : Nat := if ty.isS then (r.signExtend (max ty.width 32)).toNat else r.toNat

theorem narrow_eq (ty : Ty) (x : Nat) : Ty.narrow ty (x % 2 ^ ty.width) = Ty.intOf ty x := by
  have hmod : BitVec.ofNat ty.width (x % 2 ^ ty.width) = BitVec.ofNat ty.width x := BitVec.eq_of_toNat_eq (by simp)
  unfold Ty.narrow Ty.intOf
  rw [sext_eq_toInt _ ty.width_pos, zext_eq_toNat, hmod]
theorem widen_toNat (ty : Ty) (r : BitVec ty.width) : widen ty r.toNat = Ty.extended ty r := by
  unfold widen Ty.extended
  by_cases hs : ty.isS
  · cases h64 : ty.is64 with
    | true =>
      have hw : ty.width = 64 := by simpa [Ty.is64] using h64
      rw [max_eq_left (by omega), BitVec.signExtend_eq]
      simp [hs]
    | false =>
      rw [max_eq_right (Ty.width_le_of_not_is64 h64)]
      simp only [hs, Bool.not_false, Bool.and_self, if_true, sext_eq_toInt _ ty.width_pos, BitVec.ofNat_toNat, BitVec.setWidth_eq]
      exact wrap_eq_toNat_ofInt _ _
  · simp [hs]
theorem widen_of_lt (ty : Ty) {r : Nat} (h : r < 2 ^ ty.width) : widen ty r = Ty.extended ty (BitVec.ofNat ty.width r) := by
  rw [← widen_toNat, BitVec.toNat_ofNat, Nat.mod_eq_of_lt h]
theorem widen_of_isFloat {ty : Ty} (h : ty.isFloat = true) (r : Nat) : widen ty r = r := by
  simp [widen, Ty.isS_of_isFloat h]

section
variable {ty sty : Ty} (m : Rnd) (sat : Bool) (x : Nat)

theorem widen_convert_int_int (hd : ty.isFloat = false) (hs : sty.isFloat = false) :
    widen ty (convert sty ty m sat x) = Ty.extended ty (BitVec.ofInt ty.width
      (if sat then max (leastInt ty.isS ty.width) (min (Ty.intOf sty x) (greatestInt ty.isS ty.width)) else Ty.intOf sty x)) := by
  simp only [convert, hs, hd, narrow_eq, sat_eq_clamp, ← apply_ite (wrap · ty.width), Bool.false_eq_true, if_false]
  rw [wrap_eq_toNat_ofInt, widen_toNat]
theorem widen_convert_int_float (hd : ty.isFloat = true) (hs : sty.isFloat = false) :
    widen ty (convert sty ty m sat x) = Fp.enc (Fp.ofTy ty) m (Fp.ofInt (Ty.intOf sty x) 0 false) := by
  simp only [widen_of_isFloat hd, convert, hs, hd, narrow_eq, Bool.false_eq_true, if_false, if_true, Fp.ofIntEnc]
theorem widen_convert_float_float (hd : ty.isFloat = true) (hs : sty.isFloat = true) :
    widen ty (convert sty ty m sat x) = Fp.enc (Fp.ofTy ty) m (Fp.val (Fp.ofTy sty) (BitVec.ofNat sty.width x).toNat) := by
  simp only [widen_of_isFloat hd, convert, hs, hd, if_true, BitVec.toNat_ofNat]
theorem widen_convert_float_int (hd : ty.isFloat = false) (hs : sty.isFloat = true) :
    widen ty (convert sty ty m sat x) = Ty.extended ty (BitVec.ofNat ty.width
      (Fp.toIntClamped m ty.isS ty.width (Fp.val (Fp.ofTy sty) (BitVec.ofNat sty.width x).toNat))) := by
  simp only [convert, hs, hd, Bool.false_eq_true, if_false, if_true, BitVec.toNat_ofNat]
  exact widen_of_lt ty (Fp.toIntClamped_lt m ty.isS ty.width_pos _)
end

/-- CVT completes with any function that agrees with the conversion. -/
theorem exec_cvt_laneOp {ty sty : Ty} {m : Rnd} {sat : Bool} (o : Ops) (s : State) {f : List Nat → Nat}
    (hf : ∀ v, widen ty (convert sty ty m sat (v.getD 0 0)) = f v) :
    s.LaneOp o ty.is64 [s.vA o sty.is64] f (exec (.cvt ty m sty sat o) s) := by
  obtain rfl := funext hf
  exact s.laneOp_vecOp o .other ty.is64 _ _ (fun _ _ => shapeRight_other _ _) (by decide)
theorem exec_cvtUnit_laneOp (m : Rnd) (o : Ops) (s : State) :
    s.LaneOp o false [s.vA o false] (fun v => Fp.enc Fp.f32 .rn (Fp.ofInt ((v.getD 0 0 / 2 ^ 8 : Nat) : Int) (-24) false))
      (exec (.cvtUnit m o) s) :=
  s.laneOp_vecOp o .other false _ _ (fun _ _ => shapeRight_other _ _) (by decide)

/-- Settles O18: the rounding of `quantize` is that of the exact value, the saturations are clamps, and CVT computes lane by lane. -/
theorem conversions : Obligations.Conversions := by
  unfold Obligations.Conversions
  refine ⟨fun m sgn sg n k e hn => ?_, fun ty sty m sat o s => ?_⟩
  · intro v z lo hi bits
    have hz : Fp.toInt m sg k e = z := (Fp.toInt_eq_roundInt m sg k e).trans (by cases m <;> rfl)
    refine ⟨?_, ?_, rfl, rfl⟩
    · rw [Fp.toIntClamped_fin, hz]; exact wrap_eq_toNat_ofInt _ _
    · rw [Fp.toIntClamped_inf m sgn sg hn]; exact wrap_eq_toNat_ofInt _ _
  · exact ⟨fun hd hs => exec_cvt_laneOp o s fun _ => widen_convert_int_int m sat _ hd hs,
      fun hd hs => exec_cvt_laneOp o s fun _ => widen_convert_int_float m sat _ hd hs,
      fun hd hs => exec_cvt_laneOp o s fun _ => widen_convert_float_float m sat _ hd hs,
      fun hd hs => exec_cvt_laneOp o s fun _ => widen_convert_float_int m sat _ hd hs,
      exec_cvtUnit_laneOp m o s⟩
end Machine
end Sys2Proof
end

section
/-! PROOF. REDL: the tree of R125 level by level, its operation and identities, and the tag of its result (R206). -/
namespace Sys2Proof.Machine

/-! ## The tree -/

/-- A level of the tree on lane values: lane `i` combines with lane `i + h`, the lower one first. -/
def pairUp (f : Nat → Nat → Nat) (h : Nat) (t : Nat → Nat) (i : Nat) : Nat := f (t i) (t (i + h))

theorem redLevel_map (f : Nat → Nat → Nat) (h : Nat) (t : Nat → Nat) :
    redLevel f h ((List.range (2 * h)).map t) = (List.range h).map (pairUp f h t) := by
  have hget {i : Nat} (hi : i < 2 * h) : ((List.range (2 * h)).map t).getD i 0 = t i := by
    simp [List.getD_eq_getElem?_getD, hi]
  apply List.map_congr_left
  intro i hi
  have hih := List.mem_range.1 hi
  rw [hget (by omega), hget (by omega)]
  rfl
/-- The five levels of the tree. -/
theorem redLevels_map (f : Nat → Nat → Nat) (t : Nat → Nat) :
    (redLevels f 0 5 ((List.range 32).map t)).getD 0 0 = pairUp f 1 (pairUp f 2 (pairUp f 4 (pairUp f 8 (pairUp f 16 t)))) 0 := by
  have hlevels : redLevels f 0 5 ((List.range 32).map t) =
      redLevel f 1 (redLevel f 2 (redLevel f 4 (redLevel f 8 (redLevel f 16 ((List.range 32).map t))))) := rfl
  rw [hlevels, redLevel_map f 16, redLevel_map f 8, redLevel_map f 4, redLevel_map f 2, redLevel_map f 1]
  rfl

section
variable {f g : Nat → Nat → Nat} {P : Nat → Prop} {t : Nat → Nat}

/-- Two operations that agree on values of a kind `P` make the same level of them. -/
theorem pairUp_congr (hfg : ∀ x y, P x → P y → f x y = g x y) (ht : ∀ i, P (t i)) (h : Nat) : pairUp f h t = pairUp g h t :=
  funext fun i => hfg _ _ (ht i) (ht (i + h))
theorem pairUp_closed (hP : ∀ x y, P (f x y)) (h : Nat) : ∀ i, P (pairUp f h t i) := fun _ => hP _ _
/-- They make the same tree, where the values of the one are of that kind. -/
theorem redLevels_congr (hfg : ∀ x y, P x → P y → f x y = g x y) (hP : ∀ x y, P (f x y)) (ht : ∀ i, P (t i)) :
    (redLevels f 0 5 ((List.range 32).map t)).getD 0 0 = pairUp g 1 (pairUp g 2 (pairUp g 4 (pairUp g 8 (pairUp g 16 t)))) 0 := by
  have hlevel (h : Nat) (t : Nat → Nat) := pairUp_closed (f := f) (t := t) hP h
  rw [redLevels_map, pairUp_congr hfg (hlevel 2 _), pairUp_congr hfg (hlevel 4 _), pairUp_congr hfg (hlevel 8 _),
    pairUp_congr hfg (hlevel 16 _), pairUp_congr hfg ht]
end

/-! ## The operation -/

/-- A value read at an integer type: two's complement at .s types. -/
def redInt (ty : Ty) (x : Nat) : Int := if ty.isS then (BitVec.ofNat ty.width x).toInt else (x : Int)
/-- The operation of REDL on values below 2^width. -/
def redOp (ty : Ty) (m : Rnd) (rop : RedOp) (x y : Nat) : Nat :=
  match rop with
  | .add => if ty.isF then Fp.enc (Fp.ofTy ty) m (Fp.add m (Fp.val (Fp.ofTy ty) x) (Fp.val (Fp.ofTy ty) y)) else (x + y) % 2 ^ ty.width
  | .min => if ty.isF then Fp.fmin (Fp.ofTy ty) x y else if redInt ty x ≤ redInt ty y then x else y
  | .max => if ty.isF then Fp.fmax (Fp.ofTy ty) x y else if redInt ty x ≤ redInt ty y then y else x

/-- A value read at a type differs from its bits by a multiple of 2^width. -/
theorem Ty.int_emod (ty : Ty) (x : Nat) : ty.int x % (2 ^ ty.width : Int) = (x % 2 ^ ty.width : Nat) := by
  have hz : ((x % 2 ^ ty.width : Nat) : Int) = (x : Int) % 2 ^ ty.width := by push_cast; rfl
  unfold Ty.int
  split
  · rw [sext_eq_toInt x ty.width_pos, ← BitVec.ofInt_natCast, BitVec.toInt_ofInt, hz]
    have := Int.bmod_emod (x := (x : Int)) (m := 2 ^ ty.width)
    push_cast at this; exact this
  · rw [zext, hz, Int.emod_emod_of_dvd _ dvd_rfl]
theorem wrap_int {ty : Ty} {x : Nat} (h : x < 2 ^ ty.width) : wrap (ty.int x) ty.width = x := by
  rw [wrap, Ty.int_emod, Int.toNat_natCast, Nat.mod_eq_of_lt h]
theorem Ty.int_eq_redInt {ty : Ty} {x : Nat} (h : x < 2 ^ ty.width) : ty.int x = redInt ty x := by
  unfold Ty.int redInt
  rw [sext_eq_toInt x ty.width_pos, zext, Nat.mod_eq_of_lt h]

/-- What every value of the tree is: at integer types a bit pattern of the type's width. -/
def RedValue (ty : Ty) (x : Nat) : Prop := ty.isF = false → x < 2 ^ ty.width

theorem redStep_eq (ty : Ty) (m : Rnd) (rop : RedOp) (x y : Nat) (hx : RedValue ty x) (hy : RedValue ty y) :
    redStep ty m rop x y = redOp ty m rop x y := by
  by_cases hf : ty.isF
  · cases rop <;> simp only [redStep, redOp, hf, if_true]
  · have hx' := hx (by simpa using hf)
    have hy' := hy (by simpa using hf)
    cases rop with
    | add =>
      simp only [redStep, redOp, hf, if_false, Bool.false_eq_true, wrap, Int.add_emod (ty.int x), Ty.int_emod]
      norm_cast
      exact (Nat.add_mod x y _).symm
    | min =>
      simp only [redStep, redOp, hf, if_false, Bool.false_eq_true, ← Ty.int_eq_redInt hx', ← Ty.int_eq_redInt hy', min_def,
        apply_ite (wrap · ty.width), wrap_int hx', wrap_int hy']
    | max =>
      simp only [redStep, redOp, hf, if_false, Bool.false_eq_true, ← Ty.int_eq_redInt hx', ← Ty.int_eq_redInt hy', max_def,
        apply_ite (wrap · ty.width), wrap_int hx', wrap_int hy']
theorem redValue_redStep (ty : Ty) (m : Rnd) (rop : RedOp) (x y : Nat) : RedValue ty (redStep ty m rop x y) := by
  intro hf
  cases rop <;> simp only [redStep, hf, Bool.false_eq_true, if_false] <;> exact wrap_lt _ _
theorem redValue_identity (ty : Ty) (rop : RedOp) : RedValue ty (redIdentity ty rop) := by
  intro hf
  have hpos := Nat.two_pow_pos ty.width
  have hhalf : 2 ^ (ty.width - 1) < 2 ^ ty.width := Nat.pow_lt_pow_right (by norm_num) (Nat.sub_one_lt ty.width_pos.ne')
  cases rop <;> simp only [redIdentity, hf, Bool.false_eq_true, if_false]
  case add => exact hpos
  case min => split <;> omega
  case max => split <;> assumption

/-- The sign bit of a float type is its highest. -/
theorem redIdentity_eq {ty : Ty} (hty : ty ∈ [Ty.s32, .z32, .s64, .z64, .f32, .f64]) (rop : RedOp) :
    redIdentity ty rop = match rop with
      | .add => if ty.isF then 2 ^ (ty.width - 1) else 0
      | .min => if ty.isF then (Fp.ofTy ty).infBits else if ty.isS then 2 ^ (ty.width - 1) - 1 else 2 ^ ty.width - 1
      | .max => if ty.isF then 2 ^ (ty.width - 1) + (Fp.ofTy ty).infBits else if ty.isS then 2 ^ (ty.width - 1) else 0 := by
  fin_cases hty <;> cases rop <;> rfl

theorem WSrc.at_lt (x : WSrc) (l : Nat) : x.at l < 2 ^ (if x.is64 then 64 else 32) := by
  have hlo := (x.src.lo.lane l).isLt
  have hhi := (x.src.hi.lane l).isLt
  unfold WSrc.at Src.at Src.d Src.w
  split <;> omega

/-! ## The tag -/

/-- The tag that a fault-pending and a data-poison bit stand for. -/
def tagOf (pending poison : Bool) : Tag := if pending then .pending else if poison then .poison else .clean
theorem tagOf_join (p d p' d' : Bool) : (tagOf p d).join (tagOf p' d') = tagOf (p || p') (d || d') := by
  cases p <;> cases d <;> cases p' <;> cases d' <;> rfl
/-- Lanes joined one after the other. -/
theorem foldl_join_tagOf (p d : Nat → Bool) (n : Nat) :
    (List.range n).foldl (fun t l => t.join (tagOf (p l) (d l))) .clean = tagOf ((List.range n).any p) ((List.range n).any d) := by
  induction n with
  | zero => rfl
  | succ n ih => simp only [List.range_succ, List.foldl_append, ih, List.foldl_cons, List.foldl_nil, tagOf_join, List.any_append, List.any_cons, List.any_nil, Bool.or_false]
theorem any_lane (x : Word) : (List.range 32).any x.getLsbD = decide (x ≠ 0) := by
  rw [Bool.eq_iff_iff, List.any_eq_true, decide_eq_true_iff]
  constructor
  · rintro ⟨l, -, hl⟩ rfl
    simp at hl
  · intro hx
    by_contra hnone
    exact hx (BitVec.eq_of_getLsbD_eq fun l hl => by simpa using fun h => hnone ⟨l, List.mem_range.2 hl, h⟩)
/-- The join over the lanes of a mask, lane by lane or on the tag masks (R125, R172). -/
theorem tagsOver_tagAt (m dp fp : Word) : tagsOver m (tagAt dp fp) = tagOver dp fp m := by
  have hmask (t : Tag) (l : Nat) :
      (if m.getLsbD l then t.join (tagAt dp fp l) else t) = t.join (tagOf ((fp &&& m).getLsbD l) ((dp &&& m).getLsbD l)) := by
    by_cases hl : m.getLsbD l
    · simp only [hl, if_true, BitVec.getLsbD_and, Bool.and_true]; rfl
    · simp [hl, tagOf]
  simp only [tagsOver, hmask]
  rw [foldl_join_tagOf (fp &&& m).getLsbD (dp &&& m).getLsbD, any_lane, any_lane]
  simp only [tagOf, tagOver, decide_eq_true_eq]

/-! ## The instruction -/

/-- The lane values of the tree's first level: an inactive lane gives the identity. -/
def redLane (s : State) (ty : Ty) (rop : RedOp) (o : Ops) (l : Nat) : Nat :=
  if s.iss.act.getLsbD l then (s.vA o ty.is64).at l else redIdentity ty rop
theorem redValue_redLane (s : State) {ty : Ty} (hty : ty ∈ [Ty.s32, .z32, .s64, .z64, .f32, .f64]) (rop : RedOp) (o : Ops) (l : Nat) :
    RedValue ty (redLane s ty rop o l) := by
  unfold redLane
  split
  · intro hf
    have hw : (if ty.is64 then 64 else 32) = ty.width := by
      fin_cases hty <;> rfl
    exact hw ▸ (s.vA o ty.is64).at_lt l
  · exact redValue_identity ty rop

/-- The tree's result as REDL writes it to its s register (R206). -/
def redResult (ty : Ty) (r : Nat) : DWord := if ty.isS then (BitVec.ofNat ty.width r).signExtend 64 else BitVec.ofNat 64 r

/-- An uninterrupted REDL writes the result of its tree. -/
theorem exec_redl_eq (ty : Ty) (m : Rnd) (rop : RedOp) (o : Ops) (s : State) (hpi : s.iss.pi = 0) (hstop : s.iss.stop = none) :
    exec (.redl ty m rop o) s =
      .next (s.putS o.d (redResult ty ((redLevels (redStep ty m rop) 0 5 ((List.range 32).map (redLane s ty rop o))).getD 0 0))
        (tagOver (s.srcA o ty.is64).dp (s.srcA o ty.is64).fp s.iss.act)) := by
  have hupTo : s.upTo 5 = 5 := by rw [State.upTo, hstop]
  have hlast : ¬(s.iss.act ≠ 0 ∧ 5 < 5) := fun h => absurd h.2 (by decide)
  have hresult (x : Nat) : BitVec.ofNat 64 (if ty.isS then wrap (sext x ty.width) 64 else x) = redResult ty x := by
    unfold redResult
    split
    · rw [ofNat_wrap, sext_eq_toInt x ty.width_pos]; rfl
    · rfl
  show execRedl ty m rop o s = _
  unfold execRedl
  simp only [hpi, hupTo, hlast, if_false, hresult]
  rfl

/-- Settles O19: on the values of the tree the model's operation is the statement's, so level by level the trees are the same. -/
theorem laneReduction : Obligations.LaneReduction := by
  unfold Obligations.LaneReduction
  intro ty m rop o s hty hpi hstop f n a int op unit t0 t1 t2 t3 t4 r
  have htree : (redLevels (redStep ty m rop) 0 5 ((List.range 32).map (redLane s ty rop o))).getD 0 0 = r := by
    have hop : redOp ty m rop = op := by funext x y; cases rop <;> rfl
    have hlane : redLane s ty rop o = t0 := by
      have hunit : redIdentity ty rop = unit := redIdentity_eq hty rop
      funext i; rw [redLane, hunit]
    rw [redLevels_congr (redStep_eq ty m rop) (redValue_redStep ty m rop) (redValue_redLane s hty rop o), hop, hlane]
    clear_value op t0
    rfl
  rw [exec_redl_eq ty m rop o s hpi hstop, htree, ← tagsOver_tagAt]
  exact s.uniOp_putS o _ _
end Sys2Proof.Machine
end

section
/-! PROOF. RNGK with a uniform a and a b that differs from lane to lane (O20). -/
namespace Sys2Proof.Machine

/-- The operands of an RNGK into v0 and v1 whose B names the lane numbers, a class that the encodings refuse (R207). -/
def rngkByLane : Ops := { fmt := .f96, g := none, d := .v 0, a := .zero, b := .laneid, c := .zero, pa := .none, pb := .none, pc := .none, imm := 0 }
/-- A group with two general registers, at an RNGK that all its lanes execute. -/
def beforeRngk : State :=
  { State.reset with
    groups := [(1, { ngen := 2, pcs := List.replicate 32 (some 0x100) })]
    iss := { key := 1, pc := 0x100, npc := 0x108, xm := 0xFFFFFFFF, act := 0xFFFFFFFF, pend := 0xFFFFFFFF } }

/-- Lane 1 of register 0 after an instruction. -/
def laneOneAfter (r : Out) : Option Word :=
  match r with
  | .next t => some ((t.grp.vreg 0).val.lane 1)
  | _ => none
/-- Lane 1 takes lane 0's draw, that of the zero counter and key. -/
theorem laneOneAfter_beforeRngk : laneOneAfter (exec (.rngk .b32 true rngkByLane) beforeRngk) = some 0xF32064CE := by decide +kernel

/-- Refutes O20: the result is uniform where a is, which R207 can say because b and c are an s register or zero there. The
statement asks no such class of b: with the lane numbers in b, lane 1's draw is not lane 0's, but a uniform result gives it that. -/
theorem not_randomNumbers : ¬ Obligations.RandomNumbers := by
  unfold Obligations.RandomNumbers
  intro h
  obtain ⟨t, ht, -, hwords⟩ := h .b32 true rngkByLane beforeRngk (by decide) rfl rfl (.inl (by decide))
  obtain ⟨-, hvalue⟩ := hwords 0 (by decide) 1 (by decide)
  obtain ⟨hactive, -⟩ := hvalue (by decide +kernel)
  have hone := laneOneAfter_beforeRngk
  rw [ht] at hone
  have hlane := Option.some.inj hone
  rw [show (t.grp.vreg 0).val.lane 1 = _ from hactive (by decide)] at hlane
  exact absurd hlane (by decide +kernel)
end Sys2Proof.Machine
end

section
/-! PROOF. Traps of a group that has more unfinished BINADDs than a frame has entries (O23, O45). -/
namespace Sys2Proof.Machine

/-- The group with 16 unfinished BINADDs, at a TRAP that its lane executes. -/
def binaddsAtTrap : State := { behindBinadds with iss := { key := 0, pc := 0x1000, npc := 0x1008, xm := 1, act := 1, pend := 1 } }
theorem hasHandler_binaddsAtTrap : binaddsAtTrap.HasHandler where
  left := ⟨by decide +kernel, by decide +kernel⟩
  right :=
    { here := by decide +kernel
      vector := ⟨by decide, by decide, rfl⟩
      area := ⟨by decide +kernel, by decide +kernel⟩
      noRequest := by decide +kernel }
/-- Register 0 of the issuing group after an instruction, in lane 0. -/
def ownRegisterAfter (r : Out) : Option Word :=
  match r with
  | .next t => some ((t.grp.vreg 0).val.lane 0)
  | _ => none
theorem ownRegisterAfter_initial {t : State} (h : t.grp.v = []) : ownRegisterAfter (.next t) = some 0 := by
  show some ((mget ({} : VReg) t.grp.v 0).val.lane 0) = _
  rw [h]; rfl
/-- The trap performs the oldest BINADD, and register 0 takes the count that it read. -/
theorem ownRegisterAfter_binaddsAtTrap : ownRegisterAfter (exec (.trap .blank) binaddsAtTrap) = some 7 := by decide +kernel

/-- Refutes O23: of a group with more than 15 unfinished BINADDs, TRAP performs the oldest (`State.takeBinops`), as
the frame has no entry for it; its register takes its result, where `Group.Entered` has every register kept. -/
theorem not_softwareTraps : ¬ Obligations.SoftwareTraps := by
  unfold Obligations.SoftwareTraps
  intro h
  obtain ⟨⟨t, ht, hentered, -⟩, -⟩ := h .blank 0 binaddsAtTrap hasHandler_binaddsAtTrap (by decide) rfl
  obtain ⟨hv, -⟩ := hentered.regs
  have hseven := ownRegisterAfter_binaddsAtTrap
  rw [ht, ownRegisterAfter_initial hv] at hseven
  exact absurd hseven (by decide)

/-- The same group, which has been told of a lost die and is about to take that cause. -/
def diesBinaddGroup : Group := { binaddGroup with errs := [⟨16, 0, 0, 0, 0⟩] }
def binaddsAtDielost : State := { behindBinadds with groups := [(0, diesBinaddGroup)] }
theorem canTrap_binaddsAtDielost : binaddsAtDielost.CanTrap 0 diesBinaddGroup where
  here := by decide +kernel
  vector := ⟨by decide, by decide, rfl⟩
  area := ⟨by decide +kernel, by decide +kernel⟩
  noRequest := by decide +kernel
theorem registerAfter_binaddsAtDielost : registerAfter (exec (.dielostTrap 0) binaddsAtDielost) = some 7 := by decide +kernel

/-- Refutes O45: a pending cause that finds more than 15 unfinished BINADDs of its group performs the oldest, whose
register takes its result, where `Group.Entered` has every register kept. -/
theorem not_timeoutsAndPendingCauses : ¬ Obligations.TimeoutsAndPendingCauses := by
  unfold Obligations.TimeoutsAndPendingCauses
  intro h
  obtain ⟨-, -, -, -, -, -, -, htakes, -⟩ := h 0 0 0 (.group 0) diesBinaddGroup binaddsAtDielost rfl
  obtain ⟨herrs, -⟩ := htakes canTrap_binaddsAtDielost ⟨by decide +kernel, rfl, rfl⟩ ⟨16, 0, 0, 0, 0⟩ []
  obtain ⟨-, hdielost, -⟩ := herrs rfl
  obtain ⟨t, ht, hentered⟩ := hdielost rfl
  obtain ⟨hv, -⟩ := hentered.regs
  have hseven := registerAfter_binaddsAtDielost
  rw [ht, registerAfter_initial hv] at hseven
  exact absurd hseven (by decide)
end Sys2Proof.Machine
end

section
/-! PROOF. Uniform instructions: each result as the exact expression wrapped and extended (O1). -/
namespace Sys2Proof

/-- The number of bits set, bit by bit. -/
theorem popCount_eq_countP (n x : Nat) : popCount n x = (List.range n).countP x.testBit := by
  induction n generalizing x with
  | zero => rfl
  | succ n ih =>
    have hbit : x % 2 = if x.testBit 0 then 1 else 0 := by
      rw [Nat.testBit_zero]; split <;> simp_all
    have hrest : (List.range n).countP (x / 2).testBit = (List.range n).countP (x.testBit ∘ Nat.succ) :=
      congrArg (fun p => (List.range n).countP p) (funext fun k => (Nat.testBit_succ x k).symm)
    rw [popCount, ih, hrest, List.range_succ_eq_map, List.countP_cons, List.countP_map, hbit, Nat.add_comm]
/-- The bit length of the low bits is their size. -/
theorem bitLen_eq_size (n x : Nat) : bitLen n x = Nat.size (x % 2 ^ n) := by
  induction n with
  | zero => simp [bitLen, Nat.mod_one]
  | succ n ih =>
    have hsplit : x % 2 ^ (n + 1) = x % 2 ^ n + 2 ^ n * (x / 2 ^ n % 2) := by rw [pow_succ, Nat.mod_mul]
    have hlow : x % 2 ^ n < 2 ^ n := Nat.mod_lt _ (Nat.two_pow_pos n)
    unfold bitLen
    split
    · rename_i h1
      rw [hsplit, h1, mul_one]
      refine le_antisymm ?_ (Nat.size_le.2 (by rw [pow_succ]; omega))
      exact Nat.lt_size.2 (by omega)
    · rw [ih, hsplit, show x / 2 ^ n % 2 = 0 by omega, mul_zero, add_zero]

end Sys2Proof

namespace Sys2Proof.Machine

/-! ## Values at a type (R165) -/

theorem Ty.int_eq_readAs (ty : Ty) (x : DWord) : ty.int x.toNat = readAs ty x := by
  unfold Ty.int readAs
  rw [sext_eq_toInt _ ty.width_pos, zext_eq_toNat, BitVec.ofNat_toNat]
theorem SReg.int_eq_readAs (r : SReg) (ty : Ty) : r.int ty = readAs ty r.val := Ty.int_eq_readAs ty r.val
/-- A value wrapped to its type and extended to 64 bits. -/
theorem uniResult_eq_extendAs (ty : Ty) (x : Int) : uniResult ty x = extendAs ty x := by
  unfold uniResult Ty.int extendAs
  rw [ofNat_wrap, sext_eq_toInt _ ty.width_pos, zext_eq_toNat, ofNat_wrap]
  split
  · rfl
  · rw [BitVec.ofInt_natCast, BitVec.ofNat_toNat]

/-! ## Results (R164) -/

theorem State.uniOp_uniOp1 (s : State) (ty : Ty) (o : Ops) (f : SReg → Int) :
    s.UniOp o (extendAs ty (f (s.uniSrc o 1 0))) (s.uniSrc o 1 0).tag (.next (s.uniOp1 ty o f)) :=
  uniResult_eq_extendAs ty _ ▸ s.uniOp_putS o _ _
theorem State.uniOp_uniOp2 (s : State) (ty : Ty) (o : Ops) (f : SReg → SReg → Int) :
    s.UniOp o (extendAs ty (f (s.uniSrc o 2 0) (s.uniSrc o 2 1))) ((s.uniSrc o 2 0).tag.join (s.uniSrc o 2 1).tag) (.next (s.uniOp2 ty o f)) :=
  uniResult_eq_extendAs ty _ ▸ s.uniOp_putS o _ _
theorem State.uniOp_uniOp3 (s : State) (ty : Ty) (o : Ops) (f : SReg → SReg → SReg → Int) :
    s.UniOp o (extendAs ty (f (s.uniSrc o 3 0) (s.uniSrc o 3 1) (s.uniSrc o 3 2)))
      (((s.uniSrc o 3 0).tag.join (s.uniSrc o 3 1).tag).join (s.uniSrc o 3 2).tag) (.next (s.uniOp3 ty o f)) :=
  uniResult_eq_extendAs ty _ ▸ s.uniOp_putS o _ _

/-- A logical operation on two sources read unsigned is that of their bits. -/
theorem bitOp_int {ty : Ty} (h : ty.isS = false) {f : Nat → Nat → Nat} {F : ∀ {n : Nat}, BitVec n → BitVec n → BitVec n}
    (hf : ∀ {n : Nat} (x y : BitVec n), (F x y).toNat = f x.toNat y.toNat)
    (hset : ∀ (x y : DWord), (F x y).setWidth ty.width = F (x.setWidth ty.width) (y.setWidth ty.width)) (a b : SReg) :
    bitOp f (a.int ty) (b.int ty) = ((F a.val b.val).setWidth ty.width).toNat := by
  simp only [SReg.int_eq_readAs, readAs, h, Bool.false_eq_true, if_false, bitOp, Int.toNat_natCast, hset, hf]

/-- Settles O1, instruction by instruction. -/
theorem uniformResults : Obligations.UniformResults := by
  unfold Obligations.UniformResults
  refine ⟨fun ty o cm s => ?_, fun o s => ⟨s.uniOp_putS o _ _, s.uniOp_putS o _ _, fun h => ?_⟩⟩
  · intro n a1 a b a3 b3 c3 x y two three
    have htwo (f : SReg → SReg → Int) {v : Int} (hv : f a b = v) : two v (.next (s.uniOp2 ty o f)) := hv ▸ s.uniOp_uniOp2 ty o f
    have hthree (f : SReg → SReg → SReg → Int) {v : Int} (hv : f a3 b3 c3 = v) : three v (.next (s.uniOp3 ty o f)) := hv ▸ s.uniOp_uniOp3 ty o f
    have hone (f : SReg → Int) {v : Int} (hv : f a1 = v) : s.UniOp o (extendAs ty v) a1.tag (.next (s.uniOp1 ty o f)) := hv ▸ s.uniOp_uniOp1 ty o f
    have ha : a.int ty = x := a.int_eq_readAs ty
    have hb : b.int ty = y := b.int_eq_readAs ty
    refine ⟨htwo _ ?_, htwo _ ?_, htwo _ ?_, htwo _ ?_, hthree _ ?_, fun h => htwo _ ?_, fun h => htwo _ ?_, fun h => htwo _ ?_, htwo _ ?_, htwo _ ?_, htwo _ ?_,
      htwo _ ?_, htwo _ ?_, htwo _ ?_, hthree _ ?_, hone _ ?_, hone _ ?_⟩
    · rw [ha, hb]
    · rw [ha, hb]
    · rw [ha, hb]
    · rw [ha, hb]
    · simp only [SReg.int_eq_readAs]
    · exact bitOp_int h (F := fun x y => x &&& y) BitVec.toNat_and (fun _ _ => BitVec.setWidth_and) a b
    · exact bitOp_int h (F := fun x y => x ||| y) BitVec.toNat_or (fun _ _ => BitVec.setWidth_or) a b
    · exact bitOp_int h (F := fun x y => x ^^^ y) BitVec.toNat_xor (fun _ _ => BitVec.setWidth_xor) a b
    · rw [ha]; rfl
    · rw [ha]; rfl
    · rw [ha]; rfl
    · rw [ha, hb, Int.min_def]
    · rw [ha, hb, Int.max_def]
    · rw [ha, hb]
    · simp only [SReg.int_eq_readAs, ne_eq, ite_not]
    · exact congrArg Nat.cast (popCount_eq_countP n a1.val.toNat)
    · rw [bitLen_eq_size]
      exact Int.natCast_sub (Nat.size_le.2 (Nat.mod_lt _ (Nat.two_pow_pos n)))
  · obtain ⟨hran, hreg⟩ := s.putS_spec o.d ((o.imm.setWidth 32 : Word) ++ ((s.grp.sreg o.d.reg).val.setWidth 32 : Word)) (s.grp.sreg o.d.reg).tag h
    refine ⟨_, rfl, hran, ?_, ?_, ?_⟩
    · rw [hreg]; exact BitVec.extractLsb'_append_eq_left
    · rw [hreg]; exact BitVec.setWidth_append_eq_right
    · rw [hreg]
end Sys2Proof.Machine
end

section
/-! PROOF. A poisoned SST to host memory (O28). -/
namespace Sys2Proof.Machine

/-- A cached translation of the first GiB of the guest onto host memory. -/
def hostPage : TlbEntry := { binaddPage with home := 2 }
/-- An SST of s0 to address 0x1000. -/
def sstToHost : Ops := { fmt := .f128i, g := none, d := .v 0, a := .zero, b := .s 0, c := .v 0, pa := .none, pb := .none, pc := .none, imm := 0x1000 }
/-- A group whose s0 bears data-poison, at that SST. -/
def beforeHostStore : State :=
  { State.reset with
    groups := [(1, { s := [(0, ⟨0, .poison⟩)], pcs := List.replicate 32 (some 0x100) })]
    tlb := [hostPage]
    iss := { key := 1, pc := 0x100, npc := 0x110, xm := 1, act := 1, pend := 1 } }
def hostPlace : Loc := hostPage.loc 0x1000
/-- The access that the statement gives an SST of 32 bits. -/
def hostStore : Access := { n := 4, acc := 1, sc := .core, acq := false, rel := false, win := .noStack, score := true }
theorem onceReady_beforeHostStore : beforeHostStore.OnceReady hostStore 0x1000 hostPlace beforeHostStore where
  lanes := by decide
  admits := ⟨by decide, by decide, by decide +kernel⟩
  still := by decide +kernel
  idle := by decide +kernel
  reached := by decide +kernel

/-- Whether the issuing group's queue poisons sector 16 of host memory, that of address 0x1000, after an instruction. -/
def hostSectorPoisoned (r : Out) : Option Bool :=
  match r with
  | .next t => some (queuedPoison t.grp.sq .host 16 false)
  | _ => none
theorem hostSectorPoisoned_beforeHostStore : hostSectorPoisoned (exec (.sst .b32 .core .rlx sstToHost) beforeHostStore) = some false := by decide +kernel

/-- Refutes O28: of host memory a queued store poisons bytes and not sectors (`QStore.ofLanes`, R252), so of the sector that
a poisoned SST to host memory touches, the queue says nothing, where `Marks` has it poisoned. -/
theorem not_uniformLoadsAndStores : ¬ Obligations.UniformLoadsAndStores := by
  unfold Obligations.UniformLoadsAndStores
  intro h
  obtain ⟨-, hstore⟩ := h .b32 .core .rlx sstToHost beforeHostStore beforeHostStore hostPlace
  obtain ⟨t, ht, -, -, -, hmarks⟩ := hstore (by decide +kernel) (by decide +kernel) onceReady_beforeHostStore
  have hpoisoned : queuedPoison t.grp.sq .host 16 false = true :=
    (hmarks .host 16 false).2 (.inl ⟨_, List.mem_singleton.2 rfl, rfl, by decide +kernel, 0, by decide +kernel, by decide +kernel⟩)
  have hclean := hostSectorPoisoned_beforeHostStore
  rw [ht, hostSectorPoisoned, hpoisoned] at hclean
  exact absurd hclean (by decide)
end Sys2Proof.Machine
end

section
/-! PROOF. Predicates and lanes: the predicate operations, votes and exchanges between lanes (O4 to O7). -/
namespace Sys2Proof.Machine

/-! ## Results given lane by lane -/

/-- Only what the 32 lanes take matters of a predicate result. -/
theorem State.PredOp.congr {s : State} {o : Ops} {val val' : Nat → Bool} {tag tag' : Nat → Tag} {r : Out} (h : s.PredOp o val tag r)
    (hval : ∀ l < 32, val l = val' l) (htag : ∀ l < 32, tag l = tag' l) : s.PredOp o val' tag' r := by
  intro hact
  obtain ⟨t, ht, hran, hlanes⟩ := h hact
  refine ⟨t, ht, hran, fun l hl => ?_⟩
  rw [← hval l hl, ← htag l hl]
  exact hlanes l hl
/-- Of a register's value, only the words that the 32 lanes take matter. -/
theorem State.HoldsV.congr {s t : State} {k : Nat} {val val' : Nat → Nat} {tag tag' : Nat → Tag} (h : s.HoldsV t k val tag)
    (hval : ∀ l < 32, BitVec.ofNat 32 (val l) = BitVec.ofNat 32 (val' l)) (htag : ∀ l < 32, tag l = tag' l) : s.HoldsV t k val' tag' := by
  intro l hl
  rw [← hval l hl, ← htag l hl]
  exact h l hl
theorem State.LaneDone.congr {s t : State} {d : Nat} {d64 : Bool} {val val' : Nat → Nat} {tag tag' : Nat → Tag} (h : s.LaneDone t d d64 val tag)
    (hval : ∀ l < 32, val l = val' l) (htag : ∀ l < 32, tag l = tag' l) : s.LaneDone t d d64 val' tag' := by
  obtain ⟨hran, hlow, hhigh⟩ := h
  exact ⟨hran, hlow.congr (fun l hl => by rw [hval l hl]) htag, fun h64 => (hhigh h64).congr (fun l hl => by rw [hval l hl]) htag⟩

/-- A tag put into all lanes is every lane's. -/
theorem tagAt_allLanes (t : Tag) {l : Nat} (hl : l < 32) : tagAt (allLanes (t = .poison)) (allLanes (t = .pending)) l = t := by
  unfold tagAt
  rw [getLsbD_allLanes _ hl, getLsbD_allLanes _ hl]
  cases t <;> rfl
theorem Src.getLsbD_mask (x : Src) {l : Nat} (hl : l < 32) : x.mask.getLsbD l = x.bit0 l := by
  rw [Src.mask, getLsbD_maskOf, decide_eq_true hl, Bool.true_and]; rfl

/-! ## Predicates (R170, R171) -/

/-- A bitwise operation on two predicate sources works lane by lane. -/
theorem State.predOp_predOp (s : State) (o : Ops) {f : Word → Word → Word} {F : Bool → Bool → Bool}
    (hf : ∀ (x y : Word), ∀ l < 32, (f x y).getLsbD l = F (x.getLsbD l) (y.getLsbD l)) :
    s.PredOp o (fun l => F ((s.srcA o false).bit0 l) ((s.srcB o false).bit0 l))
      (fun l => ((s.srcA o false).tag l).join ((s.srcB o false).tag l)) (.next (s.predOp o f)) := by
  refine (s.predOp_putP o _ _ _).congr (fun l hl => ?_) fun l _ => tagAt_join _ _ _ _ l
  rw [hf _ _ l hl, Src.getLsbD_mask _ hl, Src.getLsbD_mask _ hl]

/-- Settles O4, operation by operation. -/
theorem predicateResults : Obligations.PredicateResults := by
  unfold Obligations.PredicateResults
  intro o s a b r
  refine ⟨s.predOp_predOp o fun x y l _ => BitVec.getLsbD_and, s.predOp_predOp o fun x y l _ => BitVec.getLsbD_or,
    s.predOp_predOp o fun x y l _ => BitVec.getLsbD_xor, ?_, ?_, ?_⟩
  · refine (s.predOp_putP o (~~~a.mask) a.dp a.fp).congr (fun l hl => ?_) fun _ _ => rfl
    rw [BitVec.getLsbD_not, Src.getLsbD_mask _ hl, decide_eq_true hl, Bool.true_and]
  · rw [show tagsOver 0xFFFFFFFF a.tag = tagOver a.dp a.fp 0xFFFFFFFF from tagsOver_tagAt _ a.dp a.fp]
    exact s.uniOp_putS o _ _
  · refine (s.predOp_putP o (r.val.setWidth 32) _ _).congr (fun l hl => ?_) fun l hl => tagAt_allLanes r.tag hl
    rw [BitVec.getLsbD_setWidth, decide_eq_true hl, Bool.true_and]

/-! ## Votes (R172) -/

/-- A mask as the sum of its lanes' places. -/
theorem maskOf_toNat (f : Nat → Bool) : (maskOf f).toNat = ((List.range 32).map fun l => if f l then 2 ^ l else 0).sum := by
  suffices H : ∀ n ≤ 32, ((List.range n).foldl (fun m i => if f i then m ||| BitVec.ofNat 32 (2 ^ i) else m) (0 : Word)).toNat =
      ((List.range n).map fun l => if f l then 2 ^ l else 0).sum ∧ ((List.range n).map fun l => if f l then 2 ^ l else 0).sum < 2 ^ n from (H 32 le_rfl).1
  intro n
  induction n with
  | zero => intro _; exact ⟨rfl, by simp⟩
  | succ n ih =>
    intro hn
    obtain ⟨heq, hlt⟩ := ih (by omega)
    simp only [List.range_succ, List.foldl_append, List.foldl_cons, List.foldl_nil, List.map_append, List.map_cons, List.map_nil, List.sum_append,
      List.sum_cons, List.sum_nil, Nat.add_zero]
    generalize (List.range n).foldl _ (0 : Word) = m at heq
    split
    · have hpow : 2 ^ n < 2 ^ 32 := Nat.pow_lt_pow_right (by decide) (by omega)
      rw [BitVec.toNat_or, BitVec.toNat_ofNat, Nat.mod_eq_of_lt hpow, heq, Nat.or_comm, Nat.add_comm]
      have := Nat.two_pow_add_eq_or_of_lt hlt 1
      rw [mul_one] at this
      exact ⟨this.symm, by rw [pow_succ]; omega⟩
    · exact ⟨heq, by rw [pow_succ]; omega⟩
theorem sum_map_filter (p : Nat → Bool) (f : Nat → Nat) (ls : List Nat) :
    ((ls.filter p).map f).sum = (ls.map fun l => if p l then f l else 0).sum := by
  induction ls with
  | nil => rfl
  | cons l ls ih => by_cases h : p l <;> simp [h, ih]

theorem mem_lanesOf {m : Word} {l : Nat} : l ∈ lanesOf m ↔ l < 32 ∧ m.getLsbD l = true := by simp [lanesOf]
/-- A mask covers the lanes of another. -/
theorem and_beq_self (x m : Word) : (x &&& m == m) = (lanesOf m).all x.getLsbD := by
  rw [Bool.eq_iff_iff, beq_iff_eq, List.all_eq_true]
  constructor
  · intro h l hl
    have hbit : (x &&& m).getLsbD l = true := by rw [h]; exact (mem_lanesOf.1 hl).2
    rw [BitVec.getLsbD_and, Bool.and_eq_true] at hbit
    exact hbit.1
  · intro h
    refine BitVec.eq_of_getLsbD_eq fun l hl => ?_
    rw [BitVec.getLsbD_and]
    cases hm : m.getLsbD l with
    | false => exact Bool.and_false _
    | true => rw [h l (mem_lanesOf.2 ⟨hl, hm⟩)]; rfl
/-- A mask meets none of the lanes of another. -/
theorem and_beq_zero (x m : Word) : (x &&& m == 0) = (lanesOf m).all fun l => !x.getLsbD l := by
  rw [Bool.eq_iff_iff, beq_iff_eq, List.all_eq_true]
  constructor
  · intro h l hl
    have hbit : (x &&& m).getLsbD l = false := by rw [h]; exact BitVec.getLsbD_zero
    rw [BitVec.getLsbD_and, (mem_lanesOf.1 hl).2, Bool.and_true] at hbit
    rw [hbit]; rfl
  · intro h
    refine BitVec.eq_of_getLsbD_eq fun l hl => ?_
    rw [BitVec.getLsbD_and, show (0 : Word).getLsbD l = false from BitVec.getLsbD_zero]
    cases hm : m.getLsbD l with
    | false => exact Bool.and_false _
    | true =>
      have := h l (mem_lanesOf.2 ⟨hl, hm⟩)
      rw [Bool.and_true]
      simpa using this
/-- Lane by lane, a predicate source's mask is its bits. -/
theorem Src.all_lanesOf_mask (x : Src) (m : Word) (q : Bool → Bool) : ((lanesOf m).all fun l => q (x.mask.getLsbD l)) = (lanesOf m).all fun l => q (x.bit0 l) := by
  rw [Bool.eq_iff_iff, List.all_eq_true, List.all_eq_true]
  exact forall₂_congr fun l hl => by rw [x.getLsbD_mask (mem_lanesOf.1 hl).1]

/-- Settles O5, mode by mode. -/
theorem voteResults : Obligations.VoteResults := by
  unfold Obligations.VoteResults
  intro o s a active t
  have ht : tagOver a.dp a.fp s.iss.act = t := (tagsOver_tagAt s.iss.act a.dp a.fp).symm
  have hput (v : Bool) : s.PredOp o (fun _ => v) (fun _ => t) (.next (s.putP o.d (allLanes v) (allLanes (t = .poison)) (allLanes (t = .pending)))) :=
    (s.predOp_putP o _ _ _).congr (fun l hl => getLsbD_allLanes v hl) fun l hl => tagAt_allLanes t hl
  have hall : (a.mask &&& s.iss.act == s.iss.act) = active.all a.bit0 := (and_beq_self _ _).trans (a.all_lanesOf_mask _ id)
  have hnone : (a.mask &&& s.iss.act == 0) = active.all fun l => !a.bit0 l := (and_beq_zero _ _).trans (a.all_lanesOf_mask _ not)
  have hany : (a.mask &&& s.iss.act != 0) = active.any a.bit0 := by rw [bne, hnone, List.any_eq_not_all_not]
  refine ⟨?_, ?_, ?_, ?_⟩
  · have hballot : a.mask &&& s.iss.act = maskOf fun l => s.iss.act.getLsbD l && a.bit0 l :=
      BitVec.eq_of_getLsbD_eq fun l hl => by
        rw [BitVec.getLsbD_and, a.getLsbD_mask hl, getLsbD_maskOf, decide_eq_true hl, Bool.true_and, Bool.and_comm]
    have hvalue : (a.mask &&& s.iss.act).setWidth 64 = BitVec.ofNat 64 ((active.map fun l => if a.bit0 l then 2 ^ l else 0).sum) := by
      rw [hballot, ← BitVec.ofNat_toNat, maskOf_toNat, sum_map_filter]
      congr 3
      funext l
      cases s.iss.act.getLsbD l <;> rfl
    rw [← hvalue, ← ht]
    exact s.uniOp_putS o _ _
  · have := hput (active.any a.bit0)
    rw [← hany, ← ht] at this ⊢
    exact this
  · have := hput (active.all a.bit0)
    rw [← hall, ← ht] at this ⊢
    exact this
  · have := hput (active.all a.bit0 || active.all fun l => !a.bit0 l)
    rw [Bool.or_comm, ← hall, ← hnone, ← ht] at this ⊢
    exact this

/-! ## Exchanges between lanes (R173 to R175) -/

/-- Tag masks made lane by lane give each lane its tag. -/
theorem tagAt_maskOf (f g : Nat → Bool) {l : Nat} (hl : l < 32) : tagAt (maskOf f) (maskOf g) l = tagOf (g l) (f l) := by
  simp only [tagAt, tagOf, getLsbD_maskOf, hl, decide_true, Bool.true_and]

/-- Settles O6: lane by lane the model's source lane is the statement's. -/
theorem laneExchange : Obligations.LaneExchange := by
  unfold Obligations.LaneExchange
  intro ty xm wid wrp o s _ hact hfit a b w j src
  have hsrc (l : Nat) : lxchLane xm w wrp l (b.w l) = src l := by cases xm <;> rfl
  refine ⟨_, rfl, (s.laneDone_putLanes o ty.is64 false _ _ _ hact (.inl hfit) nofun).congr (fun l _ => congrArg (a.at ty.is64) (hsrc l)) fun l hl => ?_⟩
  rw [tagAt_maskOf _ _ hl, ← tagOf_join, ← hsrc l]
  rfl

/-- The mask of one lane meets the lanes that execute where the lane does. -/
theorem and_ofNat_two_pow (m : Word) {j : Nat} (hj : j < 32) : m &&& BitVec.ofNat 32 (2 ^ j) = 0 ↔ m.getLsbD j = false := by
  have hbit (l : Nat) (hl : l < 32) : (m &&& BitVec.ofNat 32 (2 ^ j)).getLsbD l = (m.getLsbD l && decide (j = l)) := by
    rw [BitVec.getLsbD_and, BitVec.getLsbD_ofNat, Nat.testBit_two_pow, decide_eq_true hl, Bool.true_and]
  constructor
  · intro h
    have := hbit j hj
    rw [h, decide_eq_true rfl, Bool.and_true] at this
    exact this.symm.trans BitVec.getLsbD_zero
  · intro h
    refine BitVec.eq_of_getLsbD_eq fun l hl => ?_
    rw [hbit l hl, show (0 : Word).getLsbD l = false from BitVec.getLsbD_zero]
    by_cases hjl : j = l
    · rw [← hjl, h]; rfl
    · rw [decide_eq_false hjl, Bool.and_false]

/-- Settles O7, instruction by instruction. -/
theorem laneSelect : Obligations.LaneSelect := by
  unfold Obligations.LaneSelect
  intro ty o s a b r j one t same
  have hj : j < 32 := Nat.mod_lt _ (by decide)
  have ht : tagOver a.dp a.fp s.iss.act = t := (tagsOver_tagAt s.iss.act a.dp a.fp).symm
  have hsame (l : Nat) : (s.iss.act &&& maskOf fun k => a.at ty.is64 k == a.at ty.is64 l) = same l :=
    BitVec.eq_of_getLsbD_eq fun k hk => by
      rw [BitVec.getLsbD_and, getLsbD_maskOf, getLsbD_maskOf, decide_eq_true hk, Bool.true_and, Bool.true_and]
  refine ⟨s.uniOp_putS o _ _, fun hlane hfit => ?_, fun hlane => ?_, fun hact hfit => ?_, ?_⟩
  · have hmeets : s.iss.act &&& BitVec.ofNat 32 (2 ^ j) ≠ 0 := fun h => by
      rw [(and_ofNat_two_pow _ hj).1 h] at hlane; cases hlane
    have hone : one.iss.act ≠ 0 := fun h => hmeets (by rw [show BitVec.ofNat 32 (2 ^ j) = 0 from h]; exact BitVec.and_zero)
    refine ⟨_, congrArg Host.Outcome.next (if_neg hmeets), ?_⟩
    exact (one.laneDone_putLanes o ty.is64 false _ _ _ hone (.inl hfit) nofun).congr (fun _ _ => rfl) fun l hl => by rw [tagAt_allLanes _ hl]; rfl
  · exact congrArg Host.Outcome.next (if_pos ((and_ofNat_two_pow _ hj).2 hlane))
  · have hu : (a.lo.isUniform && (!ty.is64 || a.hi.isUniform)) = true → ∀ l < 32, s.iss.act.getLsbD l = true → (same l).toNat = (same 0).toNat := by
      intro hu l _ _
      have : a.at ty.is64 l = a.at ty.is64 0 := WSrc.at_uniform (x := ⟨a, ty.is64⟩) hu l 0
      simp only [same, this]
    have hfit' := hfit.imp id fun h => And.intro h.1 (h.2 ⟨a, ty.is64⟩ (List.mem_singleton.2 rfl))
    have hdone := s.laneDone_putLanes o false (a.lo.isUniform && (!ty.is64 || a.hi.isUniform)) (fun l => (same l).toNat)
      (allLanes (t = .poison)) (allLanes (t = .pending)) hact hfit' hu
    refine ⟨_, ?_, hdone.congr (fun _ _ => rfl) fun l hl => by rw [tagAt_allLanes _ hl]⟩
    rw [← ht]
    simp only [← hsame]
    rfl
  · have hput := (s.predOp_putP o (maskOf fun l => same l == s.iss.act) (allLanes (t = .poison)) (allLanes (t = .pending))).congr
      (val' := fun l => same l == s.iss.act) (fun l hl => by rw [getLsbD_maskOf, decide_eq_true hl, Bool.true_and]) fun l hl => tagAt_allLanes t hl
    rw [← ht] at hput ⊢
    simp only [← hsame] at hput ⊢
    exact hput
end Sys2Proof.Machine
end

section
/-! PROOF. Branches, calls and returns, and instructions that no active lane reaches (O2, O21). -/
namespace Sys2Proof.Machine

theorem Group.endedAt_vreg (i : Issue) (f : Nat → DWord) (g : Group) (k : Nat) : (g.endedAt i f).vreg k = g.vreg k := by
  unfold Group.endedAt; split <;> rfl
theorem Group.endedAt_sreg (i : Issue) (f : Nat → DWord) (g : Group) (k : Nat) : (g.endedAt i f).sreg k = g.sreg k := by
  unfold Group.endedAt; split <;> rfl

/-! ## Branches (R130, R136, R137) -/

theorem Ty.int_eq (ty : Ty) (x : Nat) :
    ty.int x = if ty.isS then (BitVec.ofNat ty.width x).toInt else ((BitVec.ofNat ty.width x).toNat : Int) := by
  unfold Ty.int; rw [sext_eq_toInt _ ty.width_pos, zext_eq_toNat]
/-- The operands of a branch bear no tag where its guard and its sources bear none. -/
theorem State.branchOperands_clean {s : State} {g : Option Guard} {xs : List Consumed} (hg : s.GuardClean g)
    (hxs : ∀ x ∈ xs, (x.dp ||| x.fp) &&& x.lanes = 0) : ∀ x ∈ s.guardConsumed g ++ xs, (x.dp ||| x.fp) &&& x.lanes = 0 := by
  intro x hx
  rcases List.mem_append.1 hx with hx | hx
  · exact State.guardConsumed_clean hg x hx
  · exact hxs x hx
/-- A branch sends the active lanes that it takes to its target, the others of the run on. -/
theorem State.ran_branch (s : State) (off : Word) (take : Nat → Bool) :
    s.RanTo (s.branch off take) [] [] [] fun l => some (if s.iss.act.getLsbD l && take l then s.iss.pc + off.signExtend 64 else s.iss.npc) :=
  s.ran_jump [] [] [] _
/-- The condition of a BRA (R135). -/
def branchTaken (c : BrCond) (v : DWord) : Bool :=
  match c with
  | .always => true
  | .nz => v != 0
  | .z => v == 0
/-- A BRA whose operands bear no tag sends its active lanes all to one place. -/
theorem exec_bra {s : State} {o : BrOps} (cond : BrCond) (hg : s.GuardClean o.g)
    (ha : cond ≠ .always → (s.uni o.a (s.iss.slots.map fun t => t.1)).tag = .clean) :
    exec (.bra cond o) s = .next (s.branch o.off fun _ => branchTaken cond (s.uni o.a (s.iss.slots.map fun t => t.1)).val) := by
  refine congrArg Host.Outcome.next ((State.consumeAny_clean (State.branchOperands_clean hg fun x hx => ?_)).trans ?_)
  · split at hx
    · cases hx
    · rw [List.mem_singleton.1 hx]
      exact SReg.consumed_clean (ha ‹_›) _ _
  · cases cond <;> rfl

/-! ## No active lane (R128) -/

theorem State.ifActive_idle {s : State} (h : s.iss.act = 0) (k : State → State) : s.ifActive k = s.finish := if_pos h
theorem State.putS_idle {s : State} (h : s.iss.act = 0) (d : Opnd) (x : DWord) (t : Tag) : s.putS d x t = s.finish := if_pos h
theorem State.putV_idle {s : State} (h : s.iss.act = 0) (pair : Bool) (ws : List DestW) : s.putV pair ws = s.finish := if_pos h

theorem State.maintain_idle {s : State} (h : s.iss.act = 0) (o : Ops) (inv : Bool) : s.maintain o inv = s.finish := by
  unfold State.maintain; exact State.ifActive_idle h _
theorem State.onObject_idle {s : State} (h : s.iss.act = 0) (o : Ops) (acc : Nat) (xs : List Consumed) (k : State → Nat → State) :
    s.onObject o acc xs k = s.finish := by
  unfold State.onObject; exact State.ifActive_idle h _
theorem exec_srd_idle {s : State} (h : s.iss.act = 0) (idx : BitVec 6) (o : Ops) : exec (.srd idx o) s = .next s.finish := by
  refine congrArg Host.Outcome.next ?_
  rw [if_neg (by simp [h])]
  split
  · rw [State.putV_idle h, State.putV_idle h, State.putV_idle h, ite_self, ite_self]
  · exact State.putS_idle h _ _ _
theorem exec_redl_idle {s : State} (h : s.iss.act = 0) (ty : Ty) (m : Rnd) (rop : RedOp) (o : Ops) : exec (.redl ty m rop o) s = .next s.finish :=
  (if_neg fun hc => hc.1 h).trans (congrArg Host.Outcome.next (State.putS_idle h _ _ _))

/-- Settles O2: a branch jumps, and what acts for its run asks first for an active lane. -/
theorem branchTargets : Obligations.BranchTargets := by
  unfold Obligations.BranchTargets
  refine ⟨?_, ?_, ?_⟩
  · intro s f
    have hjump := s.ran_jump [] [] [] f
    have hfinish := s.ran_finish [] [] []
    exact ⟨hjump, hjump.sameBytes, hfinish, hfinish.sameBytes⟩
  · intro ty cm o s _ u a b int goes
    have hgoes (take : Nat → Bool) : goes take (.next (s.branch o.off take)) := ⟨_, rfl, s.ran_branch o.off take⟩
    refine ⟨rfl, fun hg => ?_, fun hg hu => ?_, fun hg hu => ?_, fun _ hg ha hb => ?_⟩
    · rw [exec_bra .always hg (absurd rfl)]; exact hgoes _
    · rw [exec_bra .nz hg fun _ => hu]; exact hgoes _
    · rw [exec_bra .z hg fun _ => hu]; exact hgoes _
    · have hclean := State.branchOperands_clean (xs := [a.consumed o.a s.iss.act, b.consumed o.b s.iss.act]) hg
        (List.forall_mem_cons.2 ⟨ha, List.forall_mem_singleton.2 hb⟩)
      have hexec : exec (.brc ty cm o) s = .next (s.branch o.off fun l => cm.holds (ty.int (a.at ty.is64 l)) (ty.int (b.at ty.is64 l))) :=
        congrArg Host.Outcome.next (State.consume_clean hclean)
      rw [hexec]
      simp only [Ty.int_eq]
      exact hgoes _
  · intro ty cm sc od idx csr code clr irq sg n ctr w x c tf k gsh m rop op alg ety root ch o e s h
    have hif (k : State → State) : (.next (s.ifActive k) : Out) = .next s.finish := congrArg _ (State.ifActive_idle h k)
    have hput (d : Opnd) (x : DWord) (t : Tag) : (.next (s.putS d x t) : Out) = .next s.finish := congrArg _ (State.putS_idle h d x t)
    have hcmnt (drop : Bool) : (.next (s.maintain o drop) : Out) = .next s.finish := congrArg _ (State.maintain_idle h o drop)
    have hobject (acc : Nat) (xs : List Consumed) (k : State → Nat → State) : (.next (s.onObject o acc xs k) : Out) = .next s.finish :=
      congrArg _ (State.onObject_idle h o acc xs k)
    simp only [List.forall_mem_cons]
    refine ⟨rfl, hif _, hif _, hif _, hif _, hif _, hif _, hif _, hput _ _ _, hput _ _ _, hput _ _ _, hput _ _ _,
      hput _ _ _, hput _ _ _, hput _ _ _, hput _ _ _, hput _ _ _, hput _ _ _, hput _ _ _, hput _ _ _, hput _ _ _, hput _ _ _, hput _ _ _, hput _ _ _,
      hput _ _ _, hput _ _ _, hput _ _ _, hput _ _ _, hif _, hif _, exec_srd_idle h idx o, hif _, hput _ _ _, hput _ _ _,
      hif _, hif _, hif _, hif _, hcmnt _, hcmnt _, hif _, hif _,
      hif _, hif _, hif _, hif _, hif _, hif _, hif _, hif _, hif _, hif _,
      hif _, hif _, hif _, exec_redl_idle h ty m rop o, hobject _ _ _, hobject _ _ _, hobject _ _ _, hobject _ _ _, hobject _ _ _, hif _,
      hif _, List.forall_mem_nil _⟩

/-! ## Indirect branches (R138) -/

/-- The first lane of a mask that a test picks is the lowest that it picks. -/
theorem find_lanesOf {m : Word} {p : Nat → Bool} {l : Nat} (hl : l < 32) (hm : m.getLsbD l = true) (hp : p l = true)
    (hlow : ∀ k < l, m.getLsbD k = true → p k = false) : (lanesOf m).find? p = some l := by
  rw [lanesOf, List.find?_filter, List.find?_range_eq_some]
  refine ⟨by rw [hm, hp]; rfl, List.mem_range.2 hl, fun k hk => ?_⟩
  cases hmk : m.getLsbD k with
  | false => rfl
  | true => rw [hlow k hk hmk]; rfl
theorem find_lanesOf_none {m : Word} {p : Nat → Bool} (h : ∀ l < 32, m.getLsbD l = true → p l = false) : (lanesOf m).find? p = none :=
  List.find?_eq_none.2 fun l hl => by
    obtain ⟨hlt, hm⟩ : l < 32 ∧ m.getLsbD l = true := by simpa [lanesOf] using hl
    simp [h l hlt hm]
/-- With clean operands and aligned targets every active lane goes to its own. -/
theorem State.jumpTo_aligned {s : State} {o : Ops} (hg : s.GuardClean o.g) (ha : (s.srcA o true).CleanIn s.iss.act)
    (hal : ∀ l < 32, s.iss.act.getLsbD l = true → (s.srcA o true).d l % 4 = 0) :
    s.jumpTo o = s.jump fun l => if s.iss.act.getLsbD l then BitVec.ofNat 64 ((s.srcA o true).d l) else s.iss.npc := by
  unfold State.jumpTo
  rw [State.consume_clean (State.branchOperands_clean (xs := [(s.srcA o true).consumed o.a s.iss.act]) hg (List.forall_mem_singleton.2 ha)),
    find_lanesOf_none fun l hl hm => by simp [hal l hl hm]]
/-- The lowest misaligned lane traps. -/
theorem State.jumpTo_misaligned {s : State} {o : Ops} {l : Nat} (hg : s.GuardClean o.g) (ha : (s.srcA o true).CleanIn s.iss.act)
    (hl : l < 32) (hm : s.iss.act.getLsbD l = true) (hbad : (s.srcA o true).d l % 4 ≠ 0)
    (hlow : ∀ k < l, s.iss.act.getLsbD k = true → (s.srcA o true).d k % 4 = 0) :
    s.jumpTo o = s.trap (alignCause ((s.srcA o true).d l) l 2) .fresh := by
  unfold State.jumpTo
  rw [State.consume_clean (State.branchOperands_clean (xs := [(s.srcA o true).consumed o.a s.iss.act]) hg (List.forall_mem_singleton.2 ha)),
    find_lanesOf hl hm (by simpa using hbad) fun k hk hmk => by simp [hlow k hk hmk]]

/-! ## Calls (R139) -/

/-- The link writes of a CALL to a vector register pair. -/
def State.linkWrites (s : State) (k : Opnd) : List DestW :=
  [s.destW k 0 (.uniform ((s.iss.pc + 16).setWidth 32)) 0 0, s.destW k 1 (.uniform (((s.iss.pc + 16) >>> 32).setWidth 32)) 0 0]
theorem exec_call_s {s : State} {q : BrOps} {k : Fin 64} (hq : q.a = .s k) (hact : s.iss.act ≠ 0) (hg : s.GuardClean q.g) :
    exec (.call q) s = .next ((s.updGrp fun g => g.writeS k.val (s.iss.pc + 16) (s.uniTag .clean)).branch q.off fun _ => true) := by
  obtain ⟨qg, qa, qb, off, aux⟩ := q
  subst hq
  refine congrArg Host.Outcome.next ((State.consume_clean (State.guardConsumed_clean hg)).trans ((if_neg hact).trans ?_))
  rw [State.uniTag, Tag.clean_join]
  rfl
theorem exec_call_v {s : State} {q : BrOps} {k : Fin 640} (hq : q.a = .v k) (hact : s.iss.act ≠ 0) (hg : s.GuardClean q.g)
    (hr : ∀ w ∈ s.linkWrites q.a, s.grp.refused s.iss.act w = false) :
    exec (.call q) s = .next ((s.updGrp fun g => (s.linkWrites q.a).foldl (fun g w => g.writeV s.iss.act w) g).branch q.off fun _ => true) := by
  have hnone : s.grp.refusedReg s.iss.act true (s.linkWrites q.a) = none := by
    rw [Group.refusedReg, List.find?_eq_none.2 fun w hw => by simp [hr w hw]]; rfl
  obtain ⟨qg, qa, qb, off, aux⟩ := q
  subst hq
  refine congrArg Host.Outcome.next ((State.consume_clean (State.guardConsumed_clean hg)).trans ((if_neg hact).trans ?_))
  exact congrArg (fun r : Option Nat => match r with
    | some _ => s.trap (shapeCause (k.val / 2 * 2) (!s.grp.whole s.iss.act) false s.iss.act) .fresh
    | none => (s.updGrp fun g => (s.linkWrites (.v k)).foldl (fun g w => g.writeV s.iss.act w) g).branch off fun _ => true) hnone
/-- What a CALL that changes its group by `f` has done, where `f` changes only the registers named. -/
theorem State.ran_call (s : State) (off : Word) (f : Group → Group) (vs ss : List Nat)
    (hrest : f s.grp = { s.grp with v := (f s.grp).v, s := (f s.grp).s, p := (f s.grp).p, winHit := (f s.grp).winHit, vdirty := (f s.grp).vdirty })
    (hv : ∀ k, k ∉ vs → (f s.grp).vreg k = s.grp.vreg k) (hs : ∀ k, k ∉ ss → (f s.grp).sreg k = s.grp.sreg k)
    (hp : ∀ k, (f s.grp).preg k = s.grp.preg k) (hn : vs = [] → (f s.grp).winHit = s.grp.winHit ∧ (f s.grp).vdirty = s.grp.vdirty) :
    s.RanTo ((s.updGrp f).branch off fun _ => true) vs ss [] fun l => some (if s.iss.act.getLsbD l then s.iss.pc + off.signExtend 64 else s.iss.npc) := by
  have hran := s.ran_endedAt f vs ss [] (fun l => if s.iss.act.getLsbD l then s.iss.pc + off.signExtend 64 else s.iss.npc) hrest hv hs (fun k _ => hp k) hn
  rw [← State.updGrp_jump] at hran
  unfold State.branch
  simpa using hran
theorem State.grp_branch (s : State) (f : Group → Group) (off : Word) (take : Nat → Bool) :
    ∃ to', ((s.updGrp f).branch off take).grp = (f s.grp).endedAt s.iss to' :=
  ⟨_, (congrArg State.grp (s.updGrp_jump f _)).trans (State.grp_updGrp _ _)⟩

/-- Two registers that an instruction has written one after the other. -/
theorem State.holdsV_two {s t : State} {w x : DestW} {to' : Nat → DWord} (hd : x.reg = w.reg + 1)
    (ht : t.grp = ([w, x].foldl (fun g w => g.writeV s.iss.act w) s.grp).endedAt s.iss to') :
    s.HoldsV t w.reg (fun l => (w.val.lane l).toNat) (fun l => tagAt w.dp w.fp l) ∧
    s.HoldsV t x.reg (fun l => (x.val.lane l).toNat) (fun l => tagAt x.dp x.fp l) := by
  refine ⟨fun l hl => ?_, fun l hl => ?_⟩
  · rw [ht, Group.endedAt_vreg]
    have := s.grp.writeV_holds s.iss.act w hl
    simpa [Group.writeV_vreg_ne _ _ x (show w.reg ≠ x.reg by omega)] using this
  · rw [ht, Group.endedAt_vreg]
    have := (s.grp.writeV s.iss.act w).writeV_holds s.iss.act x hl
    simpa [Group.writeV_live, Group.writeV_winOf, Group.writeV_vreg_ne _ _ w (show x.reg ≠ w.reg by omega)] using this
/-- The pair that holds an address as two uniform words. -/
theorem State.holdsV_linkWrites {s t : State} {k : Fin 640} {to' : Nat → DWord}
    (ht : t.grp = ((s.linkWrites (.v k)).foldl (fun g w => g.writeV s.iss.act w) s.grp).endedAt s.iss to') :
    s.HoldsV t k.val (fun _ => (s.iss.pc + 16).toNat) s.iss.guardTag ∧
    s.HoldsV t (k.val + 1) (fun _ => (s.iss.pc + 16).toNat / 2 ^ 32) s.iss.guardTag := by
  have htag (j : Nat) (v : Shape) (l : Nat) : tagAt (s.destW (.v k) j v 0 0).dp (s.destW (.v k) j v 0 0).fp l = s.iss.guardTag l := by
    rw [State.destW, tagAt_under, tagAt_join, tagAt_zero]; exact Tag.clean_join _
  have hword (y : DWord) : BitVec.ofNat 32 (y.setWidth 32 : Word).toNat = BitVec.ofNat 32 y.toNat := by
    rw [BitVec.ofNat_toNat, BitVec.ofNat_toNat, BitVec.setWidth_eq]
  obtain ⟨hlow, hhigh⟩ := State.holdsV_two (w := s.destW (.v k) 0 _ 0 0) (x := s.destW (.v k) 1 _ 0 0) rfl ht
  refine ⟨hlow.congr (fun l _ => hword _) fun l _ => htag 0 _ l, hhigh.congr (fun l _ => ?_) fun l _ => htag 1 _ l⟩
  rw [← Nat.shiftRight_eq_div_pow, ← BitVec.toNat_ushiftRight]
  exact hword _

/-- Settles O21: the jump of an indirect branch by its aligned and its lowest misaligned lane, and a CALL as a branch that
writes its link first. -/
theorem callsAndIndirectBranches : Obligations.CallsAndIndirectBranches := by
  unfold Obligations.CallsAndIndirectBranches
  refine ⟨?_, ?_⟩
  · intro o q s a goes aligned target
    have hto (hg : s.GuardClean o.g) (ha : a.CleanIn s.iss.act) (hal : aligned) : goes (.next (s.jumpTo o)) := by
      rw [State.jumpTo_aligned hg ha hal]; exact ⟨_, rfl, s.ran_jump [] [] [] _⟩
    refine ⟨hto, hto, fun k hk hact hg => ?_, fun k hk hact hg hfit => ?_⟩
    · refine ⟨_, exec_call_s hk hact hg, s.ran_call q.off _ [] [k.val] rfl (fun _ _ => rfl)
        (fun j hj => Group.writeS_sreg_ne _ _ _ (by simpa using hj)) (fun _ => rfl) fun _ => ⟨rfl, rfl⟩, ?_⟩
      obtain ⟨to', hgrp⟩ := s.grp_branch (fun g => g.writeS k.val (s.iss.pc + 16) (s.uniTag .clean)) q.off fun _ => true
      rw [hgrp, Group.endedAt_sreg, Group.writeS_sreg_self]
    · have hregs : ∀ w ∈ s.linkWrites (.v k), s.grp.refused s.iss.act w = false := by
        have hreg (j : Nat) (v : Shape) (hj : j < 2) (hv : v.isGeneral = false) : s.grp.refused s.iss.act (s.destW (.v k) j v 0 0) = false := by
          unfold Group.refused
          rcases hfit with hgen | ⟨hwhole, -⟩
          · refine Bool.and_eq_false_iff.2 (.inl (decide_eq_false ?_))
            show ¬ s.grp.ngen ≤ k.val + j
            simp only [if_true] at hgen; omega
          · simp [State.destW, hwhole, hv]
        exact List.forall_mem_cons.2 ⟨hreg 0 _ (by decide) rfl, List.forall_mem_singleton.2 (hreg 1 _ (by decide) rfl)⟩
      obtain ⟨to', hgrp⟩ := s.grp_branch (fun g => (s.linkWrites (.v k)).foldl (fun g w => g.writeV s.iss.act w) g) q.off fun _ => true
      refine ⟨_, exec_call_v hk hact hg (hk ▸ hregs), ?_, ?_⟩
      · rw [hk]
        refine s.ran_call q.off _ [k.val, k.val + 1] [] ?_ (fun j hj => ?_) (fun j _ => ?_) (fun j => ?_) nofun
        · have hrest := Group.foldWriteV_rest s.iss.act (s.linkWrites (.v k)) s.grp
          rw [Group.foldWriteV_s, Group.foldWriteV_p]
          exact hrest
        · exact Group.foldWriteV_vreg _ _ _ _ fun w hw he => hj (he ▸ List.mem_map_of_mem (f := DestW.reg) hw)
        · simp [Group.sreg, Group.foldWriteV_s]
        · simp [Group.preg, Group.foldWriteV_p]
      · rw [hk]
        exact State.holdsV_linkWrites hgrp
  · intro o s l a hg ha hl hm hbad hlow
    have htrap := State.jumpTo_misaligned hg ha hl hm hbad hlow
    exact ⟨congrArg Host.Outcome.next htrap, congrArg Host.Outcome.next htrap⟩
end Sys2Proof.Machine
end

section
/-! PROOF. Return from a trap, containment regions and the waits on faults and predecessors (O25, O26). -/
namespace Sys2Proof.Machine

/-! ## The frame's entries (R147, R339, R340) -/

theorem bit_eq_testBit (n k : Nat) : bit n k = n.testBit k := by
  rw [Nat.testBit_eq_decide_div_mod_eq]; rfl
/-- The tag masks of eight bytes of a frame, lane by lane (R382). -/
theorem frameTags_getLsbD (n : Nat) {l : Nat} (hl : l < 32) :
    (frameTags n).1.getLsbD l = decide (n / 4 ^ l % 2 = 1) ∧ (frameTags n).2.getLsbD l = decide (n / 4 ^ l % 4 = 2) := by
  simp only [frameTags, getLsbD_maskOf, hl, decide_true, Bool.true_and]
  have hcode (m : Nat) (hm : m < 4) :
      decide (Tag.ofCode m = .poison) = decide (m % 2 = 1) ∧ decide (Tag.ofCode m = .pending) = decide (m = 2) := by
    revert m; decide
  obtain ⟨hpoison, hpending⟩ := hcode (n / 4 ^ l % 4) (Nat.mod_lt _ (by decide))
  exact ⟨by rw [hpoison, Nat.mod_mod_of_dvd _ (by decide)], hpending⟩
/-- Slot `j` of an entry as its bytes give it (R339). -/
def frameSlot (bs : List Byte) (j : Nat) : Slot :=
  let ws := (List.range 32).map fun l => BitVec.ofNat 32 (frameNat bs (64 + 136 * j + 4 * l) 4)
  let tags := frameTags (frameNat bs (64 + 136 * j + 128) 8)
  { ws := ws, dp := tags.1, fp := tags.2, uni := ws.all fun w => w == ws.getD 0 0 }
theorem entryOfBytes_slots (bs : List Byte) : (entryOfBytes bs).slots = (List.range (frameNat bs 36 1)).map (frameSlot bs) := rfl
theorem frameSlot_ws (bs : List Byte) (j : Nat) {l : Nat} (hl : l < 32) :
    (frameSlot bs j).ws.getD l 0 = BitVec.ofNat 32 (frameNat bs (64 + 136 * j + 4 * l) 4) := by
  rw [frameSlot, List.getD_eq_getElem?_getD, List.getElem?_map, List.getElem?_range hl]; rfl
/-- The replay entry that 2,240 bytes of a frame give, field by field. -/
theorem entryOfBytes_fields (bs : List Byte) :
    let e := entryOfBytes bs
    let x (off k : Nat) : Nat := leNat ((bs.drop off).take k)
    e.pc = BitVec.ofNat 64 (x 0 8) ∧ e.bits = BitVec.ofNat 128 (x 8 16) ∧ e.pend = BitVec.ofNat 32 (x 24 4) ∧ e.act = BitVec.ofNat 32 (x 28 4) ∧
    e.pi = BitVec.ofNat 32 (x 32 4) ∧ e.valid = (x 37 1).testBit 0 ∧ e.trapped = (x 37 1).testBit 1 ∧ e.slots.length = x 36 1 ∧
    ∀ l < 32, e.dp.getLsbD l = decide (x 40 8 / 4 ^ l % 2 = 1) ∧ e.fp.getLsbD l = decide (x 40 8 / 4 ^ l % 4 = 2) ∧
      ∀ j < x 36 1, ∃ z, e.slots[j]? = some z ∧ z.ws.getD l 0 = BitVec.ofNat 32 (x (64 + 136 * j + 4 * l) 4) ∧
        z.dp.getLsbD l = decide (x (192 + 136 * j) 8 / 4 ^ l % 2 = 1) ∧ z.fp.getLsbD l = decide (x (192 + 136 * j) 8 / 4 ^ l % 4 = 2) := by
  intro e x
  refine ⟨rfl, rfl, rfl, rfl, rfl, bit_eq_testBit _ _, bit_eq_testBit _ _, by simp [e, x, entryOfBytes, frameNat], fun l hl => ?_⟩
  obtain ⟨hdp, hfp⟩ := frameTags_getLsbD (x 40 8) hl
  refine ⟨hdp, hfp, fun j hj => ⟨frameSlot bs j, ?_, frameSlot_ws bs j hl, ?_⟩⟩
  · rw [entryOfBytes_slots, List.getElem?_map, List.getElem?_range (show j < frameNat bs 36 1 from hj)]; rfl
  · have hslot : 192 + 136 * j = 64 + 136 * j + 128 := by omega
    rw [hslot]
    exact frameTags_getLsbD _ hl

/-- The group that RTT leaves: out of its handler, its lanes at the PCs of the frame, the entries of the frame to be replayed. -/
def Group.returned (g : Group) (n : Nat) (bs : List Byte) : Group :=
  { g with inhdl := false, tc := 0, wait := {}, part := none, pi := 0,
           replay := (List.range n).map fun i => entryOfBytes ((bs.drop (512 + 2240 * i)).take 2240),
           pcs := g.pcs.zipIdx.map fun p => p.1.map fun _ => BitVec.ofNat 64 (frameNat bs (8 * p.2) 8) }
theorem exec_rtt {s s1 s2 : State} {hd bs : List Byte} {n : Nat} (o : Ops) (hact : s.iss.act ≠ 0) (hin : s.grp.inhdl = true)
    (hhead : s.readFrame s.iss.key 512 = .ok (hd, s1)) (hn : min 16 (leNat ((hd.drop 276).take 4)) = n)
    (hframe : s1.readFrame s.iss.key (512 + 2240 * n) = .ok (bs, s2)) : exec (.rtt o) s = .next (s2.updGrp fun g => g.returned n bs) := by
  subst hn
  refine congrArg Host.Outcome.next ((State.ifActive_eq _ _ hact).trans ((if_neg (by simp [hin])).trans ?_))
  rw [hhead]
  simp only [frameNat]
  rw [hframe]
  rfl
/-- Every live lane takes its PC of the frame. -/
theorem Group.returned_pcs (g : Group) (n : Nat) (bs : List Byte) (l : Nat) :
    (g.returned n bs).pcs.getD l none = (g.pcs.getD l none).map fun _ => BitVec.ofNat 64 (leNat ((bs.drop (8 * l)).take 8)) := by
  simp only [Group.returned, List.getD_eq_getElem?_getD, List.getElem?_map, List.getElem?_zipIdx]
  cases g.pcs[l]? <;> simp [frameNat]

/-- Settles O25: the two reads of the frame give RTT's state, whose replay entries are read field by field. -/
theorem returnFromTrap : Obligations.ReturnFromTrap := by
  unfold Obligations.ReturnFromTrap
  intro o hd bs s s1 s2 hact n
  refine ⟨fun hin hhead hframe => ?_, fun hin => ?_⟩
  · have hgrp : (s2.updGrp fun g => g.returned n bs).grp = s2.grp.returned n bs := State.grp_updGrp _ _
    refine ⟨_, exec_rtt o hact hin hhead rfl hframe, ?_⟩
    rw [hgrp]
    refine ⟨rfl, rfl, by simp [Group.returned], fun l _ => Group.returned_pcs _ _ _ l, rfl, rfl, rfl, rfl, fun i hi => ⟨_, ?_, entryOfBytes_fields _⟩⟩
    show ((List.range n).map _)[i]? = some _
    rw [List.getElem?_map, List.getElem?_range hi]; rfl
  · exact congrArg Host.Outcome.next ((State.ifActive_eq _ _ hact).trans (if_pos (by simp [hin])))

/-! ## Containment regions (R148 to R152) -/

theorem State.acquire_iss (s : State) (core : Nat) (sc : Scope) : (s.acquire core sc).iss = s.iss := by
  unfold State.acquire; split <;> rfl

/-- Ending an instruction changes neither the group's registers nor its regions and their status. -/
theorem Group.ended_fields (i : Issue) (g : Group) : (g.ended i).regions = g.regions ∧ (g.ended i).v = g.v ∧ (g.ended i).s = g.s ∧
    (g.ended i).p = g.p ∧ (g.ended i).lcause = g.lcause ∧ (g.ended i).unw = g.unw := by
  unfold Group.ended Group.endedAt; split <;> exact ⟨rfl, rfl, rfl, rfl, rfl, rfl⟩
/-- The state in which the engines' work for region `r` of the issuing group belongs to region `outer` (R150). -/
def State.regionLeft (s : State) (r : Region) (outer : Nat) : State :=
  let move (k : Option Nat) (x : Nat) : Nat := if k == some s.iss.key && x == r.ident then outer else x
  { s with copies := s.copies.map fun (c : CopyCmd) => { c with region := move c.key c.region },
           colls := s.colls.map fun (c : CollJob) => { c with region := move c.key c.region },
           binjobs := s.binjobs.map fun (j : BinJob) => { j with region := move (some j.key) j.region } }
/-- The region that encloses, 0 where there is none. -/
def outerRegion : List Region → Nat
  | q :: _ => q.ident
  | [] => 0
theorem exec_crclose {s : State} {r : Region} {rs : List Region} (o : Ops) (hact : s.iss.act ≠ 0) (hr : s.grp.regions = r :: rs) :
    exec (.crclose o) s = .next (((s.regionLeft r (outerRegion rs)).updGrp fun g => { g with regions := rs }).finish) := by
  refine congrArg Host.Outcome.next ((State.ifActive_eq _ _ hact).trans ?_)
  rw [hr]
  cases rs <;> rfl
/-- The group and the bytes after a CRCLOSE. -/
theorem crclose_result {s : State} {r : Region} {rs : List Region} (o : Ops) (hact : s.iss.act ≠ 0) (hr : s.grp.regions = r :: rs) :
    ∃ t, exec (.crclose o) s = .next t ∧ t.grp.regions = rs ∧ t.grp.v = s.grp.v ∧ t.grp.s = s.grp.s ∧ t.grp.p = s.grp.p ∧ s.SameBytes t ∧
      t.copies.length = s.copies.length := by
  refine ⟨_, exec_crclose o hact hr, ?_⟩
  rw [State.grp_updGrp_finish]
  obtain ⟨hregions, hv, hs, hp, -⟩ := Group.ended_fields s.iss { s.grp with regions := rs }
  exact ⟨hregions, hv, hs, hp, State.sameBytes_of_mem rfl rfl, List.length_map _⟩

/-! ## Waits (R148, R157) -/

/-- A WAITFAULT whose token no request still holds reads the token's outcome. -/
theorem exec_waitfault {s : State} {o : Ops} (hact : s.iss.act ≠ 0)
    (hp : ¬∃ r ∈ (s.vd s.grp.vd).fault.reqs, r.token = some ((s.uniA o).val.setWidth 32) ∧ r.failed = false) :
    exec (.waitfault o) s = .next (match (s.vd s.grp.vd).fault.outcomes.find? fun e =>
        e.1 == (s.uniA o).val.setWidth 32 && (s.vd s.grp.vd).fault.recent e.1 with
      | some (_, false) => (s.acquire s.grp.core .dev).putS o.d 0 .clean
      | some (_, true) => s.putS o.d 1 .clean
      | none => s.putS o.d 2 .clean) := by
  refine congrArg Host.Outcome.next ((State.ifActive_eq _ _ hact).trans (if_neg fun hany => hp ?_))
  obtain ⟨r, hr, htok⟩ := List.any_eq_true.1 hany
  exact ⟨r, hr, by simpa using htok⟩
/-- Of the outcomes a recent token selects its own. -/
theorem find_recent {f : FaultBlock} {tok : Word} (h : f.recent tok = true) (xs : List (Word × Bool)) :
    (xs.find? fun e => e.1 == tok && f.recent e.1) = xs.find? fun e => e.1 == tok := by
  congr 1
  funext e
  by_cases he : e.1 = tok
  · simp [he, h]
  · simp [he]
theorem find_recent_none {f : FaultBlock} {tok : Word} {xs : List (Word × Bool)} (h : (xs.find? fun e => e.1 == tok) = none ∨ f.recent tok = false) :
    (xs.find? fun e => e.1 == tok && f.recent e.1) = none := by
  rw [List.find?_eq_none] at *
  intro e he hboth
  obtain ⟨htok, hrecent⟩ := (Bool.and_eq_true_iff).1 hboth
  rcases h with h | h
  · exact h e he htok
  · rw [beq_iff_eq.1 htok, h] at hrecent
    cases hrecent

/-- Settles O26: each instruction by the state of its group or its token. -/
theorem regionsAndWaits : Obligations.RegionsAndWaits := by
  unfold Obligations.RegionsAndWaits
  intro pm o q s hact tok f pending
  have hif (k : State → State) : (.next (s.ifActive k) : Out) = .next (k s) := congrArg _ (State.ifActive_eq s k hact)
  refine ⟨fun hroom _ => (hif _).trans (congrArg _ (if_neg hroom)), fun hfull => (hif _).trans (congrArg _ (if_pos hfull)),
    fun r rs hr => crclose_result o hact hr, fun hnone => (hif _).trans ?_, ?_, ?_, fun hp hrec hout => ?_, fun hp hout => ?_, fun hp hrec hout => ?_,
    fun hdone => (hif _).trans (congrArg _ (if_pos hdone)), fun hdone hready => ?_⟩
  · rw [hnone]
  · have hexec : exec (.crstat false o) s = .next (s.putS o.d s.grp.crWord .clean) := hif _
    exact hexec ▸ s.uniOp_putS o _ _
  · have hgrp := congrArg State.grp ((s.updGrp fun g => { g with lcause := 0, unw := false }).putS_eq o.d s.grp.crWord .clean hact)
    rw [State.grp_updGrp_finish, State.grp_updGrp] at hgrp
    obtain ⟨-, -, -, -, hlcause, hunw⟩ := Group.ended_fields s.iss (({ s.grp with lcause := 0, unw := false } : Group).writeS o.d.reg s.grp.crWord (s.uniTag .clean))
    exact ⟨_, hif _, ((s.updGrp fun g => { g with lcause := 0, unw := false }).putS_spec o.d s.grp.crWord .clean hact).2,
      (congrArg Group.lcause hgrp).trans hlcause, (congrArg Group.unw hgrp).trans hunw⟩
  · rw [exec_waitfault hact hp, find_recent hrec, hout]
    exact s.uniOp_putS o _ _
  · rw [exec_waitfault hact hp, find_recent_none hout]
    exact s.uniOp_putS o _ _
  · have hiss := s.acquire_iss s.grp.core .dev
    have hreg := ((s.acquire s.grp.core .dev).putS_spec o.d 0 .clean (hiss ▸ hact)).2
    refine ⟨_, ?_, hreg.trans ?_⟩
    · rw [exec_waitfault hact hp, find_recent hrec, hout]
    · rw [State.uniTag, State.uniTag, hiss]
  · refine ⟨_, (hif _).trans (congrArg _ ((if_neg (by simp [hdone])).trans (if_pos hready))), ?_⟩
    rw [State.grp_updGrp]

end Sys2Proof.Machine
end

section
/-! PROOF. Frames of the table of groups: what the work of traps, faults and the memory system leaves of it. -/
namespace Sys2Proof.Machine

/-! ## Keys that leave a table -/

theorem mdel_mset_self {α : Type} (m : AMap α) (k : Nat) (x : α) : mdel (mset m k x) k = mdel m k := by
  induction m with
  | nil => simp [mset, mdel]
  | cons e m ih => obtain ⟨j, y⟩ := e; simp only [mset]; split_ifs <;> simp_all [mdel]
theorem mem_mdel {α : Type} {m : AMap α} {k : Nat} {e : Nat × α} : e ∈ mdel m k ↔ e ∈ m ∧ e.1 ≠ k := by
  induction m with
  | nil => simp [mdel]
  | cons f m ih =>
    obtain ⟨j, y⟩ := f
    simp only [mdel]
    split_ifs with hj
    · rw [ih, List.mem_cons]; aesop
    · rw [List.mem_cons, List.mem_cons, ih]; aesop

/-! ## Work that keeps the table -/

theorem State.groups_of_bare {s t : State} (h : t.bare = s.bare) : t.groups = s.groups := (congrArg State.groups h :)
@[simp] theorem State.groups_updVd (s : State) (n : Nat) (f : VD → VD) : (s.updVd n f).groups = s.groups := rfl
@[simp] theorem State.groups_updTeam (s : State) (n : Nat) (f : Team → Team) : (s.updTeam n f).groups = s.groups := by
  unfold State.updTeam; split <;> rfl
@[simp] theorem State.groups_meet (s : State) (vd : Option Nat) (secs : List Nat) : (s.meet vd secs).groups = s.groups :=
  State.groups_of_bare (State.bare_meet _ _ _)
@[simp] theorem State.groups_writeGpa (s : State) (vd gpa : Nat) (bs : List Byte) : (s.writeGpa vd gpa bs).groups = s.groups :=
  State.groups_of_bare (State.bare_writeGpa _ _ _ _)
@[simp] theorem State.groups_sendMsix (s : State) (vf : Option Nat) (vec : Nat) : (s.sendMsix vf vec).groups = s.groups := by
  unfold State.sendMsix; dsimp only; split <;> rfl
@[simp] theorem State.groups_postIrq (s : State) (vd src : Nat) : (s.postIrq vd src).groups = s.groups := by
  unfold State.postIrq
  dsimp only
  split
  · rfl
  · split
    · rfl
    · exact State.groups_sendMsix _ _ _
@[simp] theorem State.groups_guestFault (s : State) (vd : Nat) : (s.guestFault vd).groups = s.groups := s.groups_postIrq vd 1
@[simp] theorem State.groups_errDevice (s : State) (x : ErrInfo) (o : Word) : (s.errDevice x o).groups = s.groups := by
  show (if _ then _ else _ : State).groups = _
  split
  · exact State.groups_of_bare (State.bare_writeHost _ _ _)
  · rfl
@[simp] theorem State.groups_errRecord (s : State) (x : ErrInfo) : (s.errRecord x).1.groups = s.groups := by
  unfold State.errRecord
  cases x.vd with
  | none => exact s.groups_errDevice x 0
  | some v => dsimp only; split_ifs <;> simp
@[simp] theorem State.groups_trapRecord (s : State) (g : Group) (c : Pending) (pc : DWord) (sev : Nat) :
    (s.trapRecord g c pc sev).1.groups = s.groups := s.groups_errRecord _
@[simp] theorem State.groups_capWrite (s : State) (vd : Nat) (c : Cap) (o : BitVec 8) (gpa : Nat) (bs : List Byte) :
    (s.capWrite vd c o gpa bs).groups = s.groups := by
  unfold State.capWrite
  split
  · exact s.groups_writeGpa vd gpa bs
  · exact s.groups_errRecord _
@[simp] theorem State.groups_dirtyAppend (s : State) (vd gpa size : Nat) : (s.dirtyAppend vd gpa size).groups = s.groups := by
  unfold State.dirtyAppend; dsimp only; split <;> simp
@[simp] theorem State.groups_faultRaise (s : State) (vd : Nat) (r : FaultReq) : (s.faultRaise vd r).groups = s.groups := by
  unfold State.faultRaise State.faultEnter
  dsimp only
  split
  · simp
  · split <;> simp
@[simp] theorem State.groups_setD (s : State) (e : TlbEntry) : (s.setD e).groups = s.groups := rfl
/-- A translation fills caches alone. -/
theorem translate_groups {s t : State} {die : Nat} {core : Option Nat} {vd asid va acc : Nat} {e : TlbEntry}
    (h : translate s die core vd asid va acc = .ok (e, t)) : t.groups = s.groups := by
  unfold translate at h
  split at h
  · split at h <;> cases h; rfl
  · split at h
    · cases h
    · cases h; rfl
@[simp] theorem State.groups_reach (s : State) (o : Origin) (die : Nat) (core : Option Nat) (vd asid va acc : Nat) (span : Nat → Nat × Nat)
    (lane : Nat) : (s.reach o die core vd asid va acc span lane).2.groups = s.groups := by
  unfold State.reach
  split
  · exact s.groups_meet _ _
  · rename_i e t ht
    rw [← translate_groups ht]
    dsimp only
    split_ifs <;> simp
@[simp] theorem State.groups_wrote (s : State) (k : Option Nat) (r : Bool) (w : QStore) : (s.wrote k r w).groups = s.groups := rfl
@[simp] theorem State.groups_cisternPut (s : State) (w : QStore) : (s.cisternPut w).groups = s.groups :=
  State.groups_of_bare (State.bare_cisternPut _ _)
@[simp] theorem State.groups_enterView (s : State) (core : Nat) (k : Option Carrier) (w : QStore) : (s.enterView core k w).groups = s.groups := by
  by_cases h : w.space = .scratch
  · unfold State.enterView
    rw [h]
    refine (foldl_keeps (p := State.groups) (fun u r => ?_) _ _).trans (State.groups_of_bare (s := s) (by simp))
    exact (State.groups_updTeam _ _ _).trans (State.groups_of_bare (State.bare_mark _ _ _ _))
  · exact State.groups_of_bare (s.bare_enterView core k w h)
@[simp] theorem State.groups_updBundle (s : State) (n : Nat) (f : Packet → Packet) : (s.updBundle n f).groups = s.groups := rfl
@[simp] theorem State.groups_settleTeam (s : State) (tid : Nat) : (s.settleTeam tid).groups = s.groups := by
  unfold State.settleTeam; split <;> rfl

/-! ## Work that touches one group -/

/-- At most the entry of group `key`, which exists, differs. -/
def State.OnlyGroup (key : Nat) (s t : State) : Prop :=
  t.groups = s.groups ∨ ∃ g h, mfind s.groups key = some g ∧ t.groups = mset s.groups key h

theorem State.OnlyGroup.of_groups {key : Nat} {s t : State} (h : t.groups = s.groups) : State.OnlyGroup key s t := .inl h
theorem State.OnlyGroup.refl (key : Nat) (s : State) : State.OnlyGroup key s s := .inl rfl
theorem State.OnlyGroup.trans {key : Nat} {s t u : State} (h : State.OnlyGroup key s t) (k : State.OnlyGroup key t u) : State.OnlyGroup key s u := by
  rcases h with h | ⟨g, x, hg, hx⟩
  · rwa [State.OnlyGroup, h] at k
  · rcases k with k | ⟨-, y, -, hy⟩
    · exact .inr ⟨g, x, hg, k.trans hx⟩
    · exact .inr ⟨g, y, hg, by rw [hy, hx, mset_mset]⟩
theorem State.OnlyGroup.foldl {α : Type} {key : Nat} {f : State → α → State} (xs : List α) (h : ∀ x ∈ xs, ∀ s, State.OnlyGroup key s (f s x)) (s : State) :
    State.OnlyGroup key s (xs.foldl f s) := by
  induction xs generalizing s with
  | nil => exact .refl key s
  | cons x xs ih => exact (h x (by simp) s).trans (ih (fun y hy => h y (by simp [hy])) _)
theorem State.onlyGroup_updGroup (s : State) (key : Nat) (f : Group → Group) : State.OnlyGroup key s (s.updGroup key f) := by
  unfold State.updGroup
  split
  · exact .inr ⟨_, _, ‹_›, rfl⟩
  · exact .refl key s
theorem State.onlyGroup_drain (s : State) (key : Nat) : State.OnlyGroup key s (s.drain key) := by
  refine State.OnlyGroup.trans (.of_groups (State.settleFence_groups key s)) (.foldl _ (fun _ _ u => ?_) _)
  unfold State.drainOne
  split
  · exact .refl key u
  · rename_i g hg
    split
    · exact .refl key u
    · rename_i w q _
      refine .inr ⟨g, { g with sq := q }, hg, (State.groups_enterView _ _ _ _).trans ?_⟩
      exact congrArg (fun m => mset m key _) (State.settleFence_groups key u)
theorem State.onlyGroup_publish (s : State) (key : Nat) : State.OnlyGroup key s (s.publish key) :=
  (s.onlyGroup_updGroup key _).trans (.of_groups (State.groups_of_bare (State.bare_mark _ _ _ _)))
/-- The other entries stay as they are. -/
theorem State.OnlyGroup.mdel_eq {key : Nat} {s t : State} (h : State.OnlyGroup key s t) : mdel t.groups key = mdel s.groups key := by
  rcases h with h | ⟨-, x, -, hx⟩
  · rw [h]
  · rw [hx, mdel_mset_self]

/-! ## No group appears -/

/-- A group that is not in the table of `s` is not in that of `t`. -/
def State.NoneNew (s t : State) : Prop := ∀ k, mfind s.groups k = none → mfind t.groups k = none

theorem State.NoneNew.refl (s : State) : s.NoneNew s := fun _ h => h
theorem State.NoneNew.trans {s t u : State} (h : s.NoneNew t) (k : t.NoneNew u) : s.NoneNew u := fun j hj => k j (h j hj)
theorem State.NoneNew.of_groups {s t : State} (h : t.groups = s.groups) : s.NoneNew t := fun _ hk => h ▸ hk
theorem State.NoneNew.foldl {α : Type} {f : State → α → State} (h : ∀ (s : State) x, s.NoneNew (f s x)) (xs : List α) (s : State) : s.NoneNew (xs.foldl f s) := by
  induction xs generalizing s with
  | nil => exact .refl s
  | cons x xs ih => exact (h s x).trans (ih _)
theorem State.OnlyGroup.noneNew {key : Nat} {s t : State} (h : State.OnlyGroup key s t) : s.NoneNew t := by
  intro k hk
  rcases h with h | ⟨g, x, hg, hx⟩
  · rwa [h]
  · have hne : k ≠ key := by rintro rfl; rw [hk] at hg; cases hg
    rwa [hx, mfind_mset_ne _ _ hne]
theorem State.noneNew_mdel (s : State) (key : Nat) : s.NoneNew { s with groups := mdel s.groups key } := by
  intro k hk
  by_cases hkey : k = key
  · rw [hkey]; exact mfind_mdel_self _ _
  · exact (mfind_mdel_ne _ hkey).trans hk
theorem State.OnlyGroup.present {key : Nat} {s t : State} (h : State.OnlyGroup key s t) {g : Group} (hg : mfind s.groups key = some g) :
    ∃ h, mfind t.groups key = some h := by
  rcases h with h | ⟨-, x, -, hx⟩
  · exact ⟨g, h ▸ hg⟩
  · exact ⟨x, by rw [hx, mfind_mset_self]⟩

/-! ## Traps (R144, R337, R341, R342) -/

theorem State.onlyGroup_binPerform (s : State) (b : BinOp) : State.OnlyGroup b.key s (s.binPerform b) := by
  unfold State.binPerform
  dsimp only
  refine (State.OnlyGroup.trans ?_ (State.onlyGroup_updGroup _ _ _)).trans (.of_groups rfl)
  refine (s.onlyGroup_drain b.key).trans (.of_groups ?_)
  refine (foldl_keeps (p := fun acc : List (Nat × DWord × Bool) × State => acc.2.groups) (fun acc l => ?_) _ _).trans
    (State.groups_of_bare (State.bare_flushDie _ _))
  split <;> simp
theorem State.onlyGroup_takeBinops (s : State) (key room : Nat) : State.OnlyGroup key s (s.takeBinops key room).2 := by
  unfold State.takeBinops
  refine State.OnlyGroup.trans (.foldl _ (fun b hb u => ?_) s) (.of_groups rfl)
  have hkey : b.key = key := by simpa using (List.mem_filter.1 (List.mem_of_mem_take hb)).2
  exact hkey ▸ u.onlyGroup_binPerform b
/-- Of the groups only the store queue of group `key` differs. -/
structure State.Queues (key : Nat) (s t : State) : Prop where
  only : State.OnlyGroup key s t
  self : ∀ g, mfind s.groups key = some g → ∃ q, mfind t.groups key = some { g with sq := q }

theorem State.Queues.of_groups {key : Nat} {s t : State} (h : t.groups = s.groups) : State.Queues key s t := ⟨.of_groups h, fun g hg => ⟨g.sq, h ▸ hg⟩⟩
theorem State.Queues.trans {key : Nat} {s t u : State} (h : State.Queues key s t) (k : State.Queues key t u) : State.Queues key s u where
  only := h.only.trans k.only
  self g hg := by
    obtain ⟨q, hq⟩ := h.self g hg
    obtain ⟨q', hq'⟩ := k.self _ hq
    exact ⟨q', hq'⟩
theorem State.Queues.foldl {α : Type} {key : Nat} {f : State → α → State} (h : ∀ s x, State.Queues key s (f s x)) (xs : List α) (s : State) :
    State.Queues key s (xs.foldl f s) := by
  induction xs generalizing s with
  | nil => exact .of_groups rfl
  | cons x xs ih => exact (h s x).trans (ih _)
theorem State.queues_push (s : State) (key : Nat) (w : Group → QStore) :
    State.Queues key s (s.updGroup key fun g => { g with sq := g.sq ++ [w g] }) where
  only := s.onlyGroup_updGroup key _
  self g hg := by
    unfold State.updGroup
    rw [hg]
    exact ⟨_, mfind_mset_self _ _ _⟩
/-- The frame's stores join the group's queue (R341). -/
theorem State.queues_storeFrame (s : State) (key : Nat) (g : Group) (t : Team) (bs : List Byte) : State.Queues key s (s.storeFrame key g t bs).2 := by
  unfold State.storeFrame
  split
  · exact s.queues_push key fun g => QStore.plain _ g.vd _ false
  · dsimp only
    generalize hr : List.foldl _ _ _ = r
    have hgroups : r.2.1.groups = s.groups := by
      subst hr
      refine foldl_keeps (p := fun acc : Option (Reach × Nat) × State × List Loc => acc.2.1.groups) (fun acc p => ?_) _ _
      obtain ⟨x, u, ls⟩ := acc
      cases x with
      | some x => rfl
      | none =>
        have hreach := u.groups_reach (.group key) (dieOf g.core) (some g.core) g.vd t.asid p.1 1 (fun a => (a, p.2)) 0
        dsimp only
        generalize u.reach _ _ _ _ _ _ _ _ = z at hreach ⊢
        obtain ⟨y, v⟩ := z
        cases y <;> exact hreach
    obtain ⟨x, u, ls⟩ := r
    cases x with
    | some x => exact .of_groups hgroups
    | none => exact (State.Queues.of_groups hgroups).trans (.foldl (fun v e => v.queues_push key fun g => QStore.plain _ g.vd _ false) _ _)

/-! ## The end of a team (R342) -/

@[simp] theorem State.groups_forget (s : State) (key : Nat) (g : Group) : (s.forget key g).groups = mdel s.groups key := by
  unfold State.forget
  dsimp only
  split
  · rfl
  · exact (congrArg State.groups (State.sansVds_nakHeld _ _) :)
/-- The table of groups with the instruction that is issued. -/
def State.table (s : State) : AMap Group × Issue := (s.groups, s.iss)
theorem State.table_mbWrite (s : State) (a : Nat) (o : MbObj) : (s.mbWrite a o).table = s.table := by
  simp only [State.mbWrite, State.setMem, State.table]
theorem State.table_carry (s : State) (p : Carrier → Bool) (c : Carrier) : (s.carry p c).table = s.table := rfl
/-- A cancelled command reports without an error of its own. -/
theorem State.table_mbReport_cancelled (s : State) (c : CopyCmd) (hc : c.cancelled = true) (n : Nat) (e : Bool) : (s.mbReport c n e).table = s.table := by
  unfold State.mbReport
  dsimp only
  rw [if_pos hc]
  split
  · rfl
  · split
    · rw [State.table_mbWrite, State.table_carry]
    · rfl
theorem State.table_cancelCopies (s : State) (p : CopyCmd → Bool) : (s.cancelCopies p).table = s.table := by
  unfold State.cancelCopies
  refine foldl_keeps (p := State.table) (fun u c => ?_) _ s
  rw [State.table_mbReport_cancelled _ _ rfl]
  simp only [State.table, State.bumpFree, State.dropOrigin, State.faultDiscard, State.updVd]
theorem State.table_dropOrigin (s : State) (vd : Nat) (o : Origin) : (s.dropOrigin vd o).table = s.table := rfl
theorem State.table_jobs (s : State) (cs : List CollJob) (bs : List BinJob) : ({ s with colls := cs, binjobs := bs } : State).table = s.table := rfl
theorem State.table_cancelJobs (s : State) (p : Option Nat → Nat → Bool) : (s.cancelJobs p).table = s.table := by
  unfold State.cancelJobs
  dsimp only
  rw [State.table_jobs, foldl_keeps (p := State.table) fun u (j : BinJob) => u.table_dropOrigin j.vd (.engine j.id),
    foldl_keeps (p := State.table) fun u (c : CollJob) => u.table_dropOrigin c.vd (.engine c.id)]
@[simp] theorem State.groups_cancelTeamWork (s : State) (tid : Nat) : (s.cancelTeamWork tid).groups = s.groups := by
  have htable (u : State) (p : CopyCmd → Bool) (q : Option Nat → Nat → Bool) : ((u.cancelCopies p).cancelJobs q).groups = u.groups :=
    congrArg Prod.fst ((State.table_cancelJobs _ q).trans (u.table_cancelCopies p))
  unfold State.cancelTeamWork
  dsimp only
  exact htable s _ _
/-- Group after group leaves the table. -/
theorem State.groups_foldl_forget (ks : List Nat) (s : State) :
    (ks.foldl (fun s k => (s.drain k).forget k (mget {} s.groups k)) s).groups = ks.foldl mdel s.groups := by
  induction ks generalizing s with
  | nil => rfl
  | cons k ks ih => rw [List.foldl_cons, List.foldl_cons, ih, State.groups_forget, (s.onlyGroup_drain k).mdel_eq]
theorem mem_foldl_mdel {α : Type} (ks : List Nat) (m : AMap α) {e : Nat × α} : e ∈ ks.foldl mdel m ↔ e ∈ m ∧ e.1 ∉ ks := by
  induction ks generalizing m with
  | nil => simp
  | cons k ks ih => rw [List.foldl_cons, ih, mem_mdel, List.mem_cons, not_or, and_assoc]
theorem State.groups_endTeam (s : State) (key : Nat) (c : Pending) (pc : DWord) :
    (s.endTeam key c pc).groups = (s.keysOf (mget {} s.groups key).tid).foldl mdel s.groups := by
  unfold State.endTeam
  dsimp only
  rw [State.groups_settleTeam, State.groups_updTeam, State.groups_updBundle, State.groups_foldl_forget]
  have hkeys (u : State) (tid : Nat) (h : u.groups = s.groups) : (u.keysOf tid).foldl mdel (u.dropTeamReqs (mget {} s.groups key).vd tid).groups =
      (s.keysOf tid).foldl mdel s.groups := by
    unfold State.keysOf; rw [h]; exact congrArg (List.foldl mdel · _) h
  exact hkeys _ _ (by rw [State.groups_cancelTeamWork, State.groups_trapRecord])
/-- No group of the team is left. -/
theorem State.endTeam_none_left (s : State) (key : Nat) (c : Pending) (pc : DWord) {e : Nat × Group} (he : e ∈ (s.endTeam key c pc).groups) :
    e.2.tid ≠ (mget {} s.groups key).tid := by
  rw [State.groups_endTeam, mem_foldl_mdel] at he
  obtain ⟨hmem, hkey⟩ := he
  intro htid
  exact hkey (List.mem_map.2 ⟨e, List.mem_filter.2 ⟨hmem, by simp [htid]⟩, rfl⟩)
theorem State.noneNew_endTeam (s : State) (key : Nat) (c : Pending) (pc : DWord) : s.NoneNew (s.endTeam key c pc) := by
  intro k hk
  rw [State.groups_endTeam]
  generalize s.keysOf _ = ks
  generalize s.groups = m at hk
  induction ks generalizing m with
  | nil => exact hk
  | cons j ks ih => exact ih _ (({ s with groups := m } : State).noneNew_mdel j k hk)

/-! ## A trap makes no group appear -/

theorem State.noneNew_updGroup (s : State) (key : Nat) (f : Group → Group) : s.NoneNew (s.updGroup key f) := (s.onlyGroup_updGroup key f).noneNew
theorem State.noneNew_setGroup {s : State} {key : Nat} {g : Group} (hg : mfind s.groups key = some g) (x : Group) : s.NoneNew (s.setGroup key x) :=
  State.OnlyGroup.noneNew (.inr ⟨g, x, hg, rfl⟩)
theorem State.noneNew_tryTrap {s : State} {key : Nat} {g : Group} (hg : mfind s.groups key = some g) (t : Trapping) : s.NoneNew (s.tryTrap key t) := by
  have hstore := s.queues_storeFrame key (mget {} s.groups key) (mget {} s.teams (mget {} s.groups key).tid) (frameBytes (mget {} s.groups key) t)
  unfold State.tryTrap
  dsimp only
  split
  · exact s.noneNew_endTeam _ _ _
  split
  · exact (State.NoneNew.of_groups (s.groups_guestFault _)).trans (State.noneNew_endTeam _ _ _ _)
  split
  · exact .refl s
  generalize s.storeFrame _ _ _ _ = r at hstore ⊢
  obtain ⟨_ | ⟨y, va⟩, u⟩ := r
  · refine (hstore.only.noneNew.trans (.of_groups ?_)).trans (State.noneNew_updGroup _ _ _)
    dsimp only
    split
    · exact State.groups_trapRecord _ _ _ _ _
    · rfl
  obtain ⟨h, hh⟩ := hstore.only.present hg
  have hpark (x : Group) : s.NoneNew (u.setGroup key x) := hstore.only.noneNew.trans (State.noneNew_setGroup hh x)
  cases y with
  | ok l => exact hpark _
  | held => exact hpark _
  | fault x =>
    dsimp only
    split
    · exact (hpark _).trans (.of_groups (State.groups_faultRaise _ _ _))
    · exact (hstore.only.noneNew.trans (.of_groups (State.groups_guestFault _ _))).trans (State.noneNew_endTeam _ _ _ _)
theorem State.noneNew_trapAt {s : State} {key : Nat} {g : Group} (hg : mfind s.groups key = some g) (c : Pending) (trapped : Bool) :
    s.NoneNew (s.trapAt key c trapped) := by
  unfold State.trapAt
  dsimp only
  generalize hpark : s.park _ _ _ = u
  have hgroups : u.groups = s.groups := hpark ▸ rfl
  generalize hr : u.takeBinops key _ = r
  have honly : State.OnlyGroup key u r.2 := hr ▸ u.onlyGroup_takeBinops key _
  obtain ⟨x, hx⟩ := honly.present (hgroups ▸ hg)
  exact (State.NoneNew.of_groups hgroups).trans (honly.noneNew.trans (State.noneNew_tryTrap hx _))

/-! ## The checks after an event in a team (R49, R50) -/

theorem State.noneNew_memberExit (s : State) (tid member : Nat) (role : Role) : s.NoneNew (s.memberExit tid member role) := by
  have hwake (u : State) (b : Nat) : u.NoneNew (u.wakeBar tid b) := fun k hk => by
    unfold State.wakeBar; rw [mfind_mmap, hk]; rfl
  have hevent (u : State) (b : Nat) (x : Bar) : u.NoneNew (u.barEvent tid b x) := by
    unfold State.barEvent
    dsimp only
    split
    · exact (State.NoneNew.of_groups (State.groups_updTeam _ _ _)).trans (hwake _ b)
    · exact .of_groups (State.groups_updTeam _ _ _)
  unfold State.memberExit
  refine .foldl (fun u b => ?_) _ s
  dsimp only
  split
  · exact hevent _ _ _
  · exact .refl u
theorem State.noneNew_starve (s : State) (key : Nat) (c : Pending) : s.NoneNew (s.starve key c) := by
  unfold State.starve
  split
  · exact .refl s
  · rename_i g hg
    split
    · refine State.NoneNew.trans ?_ (.foldl (fun u k => u.noneNew_updGroup k _) _ _)
      refine State.NoneNew.trans ?_ (State.noneNew_memberExit _ _ _ _)
      exact (s.noneNew_mdel key).trans (.of_groups (State.groups_updTeam _ _ _))
    · exact State.noneNew_trapAt hg c true
theorem State.noneNew_checkTeam (s : State) (tid : Nat) : s.NoneNew (s.checkTeam tid) := by
  have hstarved (u : State) (b : Nat) : u.NoneNew (u.checkStarved tid b) := by
    unfold State.checkStarved
    dsimp only
    split
    · exact .foldl (fun v k => v.noneNew_starve k _) _ u
    · exact .refl u
  have hquiet (u : State) : u.NoneNew (u.checkQuiet tid) := by
    unfold State.checkQuiet
    dsimp only
    split
    · exact .foldl (fun v (e : Nat × Group) => v.noneNew_starve e.1 _) _ u
    · exact .refl u
  exact State.NoneNew.trans (.foldl hstarved _ s) (hquiet _)
theorem State.noneNew_teamOver (s : State) (tid : Nat) : s.NoneNew (s.teamOver tid) := by
  unfold State.teamOver
  split
  · exact .of_groups (s.groups_settleTeam tid)
  · exact s.noneNew_checkTeam tid
end Sys2Proof.Machine
end

section
/-! PROOF. EXIT and its barriers, YIELD, SMSTART and SLEEPC (O22). -/
namespace Sys2Proof.Machine

/-! ## The barriers of the teams through the exit of a group -/

/-- The barriers of team `n`, where it is resident. -/
def State.barsOf (s : State) (n : Nat) : Option (AMap Bar) := (mfind s.teams n).map Team.bars

theorem State.barsOf_of_teams {s t : State} (h : t.teams = s.teams) : t.barsOf = s.barsOf := by unfold State.barsOf; rw [h]
theorem State.barsOf_of_bare {s t : State} (h : t.bare = s.bare) : t.barsOf = s.barsOf := State.barsOf_of_teams (congrArg State.teams h :)
theorem State.barsOf_updTeam (s : State) (tid : Nat) (f : Team → Team) (h : ∀ t, (f t).bars = t.bars) : (s.updTeam tid f).barsOf = s.barsOf := by
  unfold State.updTeam
  split
  · rename_i t ht
    funext n
    simp only [State.barsOf, mfind_mset]
    split
    · subst_vars; rw [ht]; simp [h]
    · rfl
  · rfl
theorem State.barsOf_updGroup (s : State) (k : Nat) (f : Group → Group) : (s.updGroup k f).barsOf = s.barsOf := by
  unfold State.updGroup; split <;> rfl
theorem State.barsOf_enterView (s : State) (core : Nat) (k : Option Carrier) (w : QStore) : (s.enterView core k w).barsOf = s.barsOf := by
  by_cases h : w.space = .scratch
  · unfold State.enterView
    rw [h]
    refine (foldl_keeps (p := State.barsOf) (fun u r => ?_) _ _).trans (State.barsOf_of_bare (s := s) (by simp))
    refine (State.barsOf_updTeam _ _ _ ?_).trans (State.barsOf_of_bare (State.bare_mark _ _ _ _))
    exact fun _ => rfl
  · exact State.barsOf_of_bare (s.bare_enterView core k w h)
theorem State.barsOf_settleFence (s : State) (key : Nat) : (s.settleFence key).barsOf = s.barsOf := by
  unfold State.settleFence
  split
  · exact State.barsOf_of_teams (congrArg State.teams (State.bare_flushDie _ _) :)
  · rfl
theorem State.barsOf_drain (s : State) (key : Nat) : (s.drain key).barsOf = s.barsOf := by
  refine (foldl_keeps (p := State.barsOf) (fun u _ => ?_) _ _).trans (s.barsOf_settleFence key)
  unfold State.drainOne
  split
  · rfl
  · split
    · rfl
    · exact (State.barsOf_enterView _ _ _ _).trans (u.barsOf_settleFence key)
theorem State.barsOf_keepWindow (s : State) (key : Nat) : (s.keepWindow key).barsOf = s.barsOf := by
  unfold State.keepWindow
  dsimp only
  split
  · refine (State.barsOf_updTeam _ _ _ ?_).trans ?_
    · exact fun _ => rfl
    exact (State.barsOf_of_bare (State.bare_mark _ _ _ _)).trans (s.barsOf_updGroup key _)
  · rfl
theorem State.barsOf_forget (s : State) (key : Nat) (g : Group) : (s.forget key g).barsOf = s.barsOf := by
  unfold State.forget
  dsimp only
  split
  · rfl
  · exact State.barsOf_of_teams (congrArg State.teams (State.sansVds_nakHeld _ _) :)

/-! ## A participant leaves its barriers (R48) -/

/-- What the exit of participant `member` of a role makes of a barrier. -/
def Bar.left (x : Bar) (member : Nat) (role : Role) : Bar :=
  if x.init && x.mask.getLsbD role.code then
    (Bar.test { x with exitd := x.exitd + 1, arr := if mfind x.last member == some x.nph then x.arr - 1 else x.arr }).1
  else x
theorem Bar.left_apart (x : Bar) (member : Nat) (role : Role) (h : x.init = false ∨ x.mask.getLsbD role.code = false) : x.left member role = x := by
  unfold Bar.left; rw [if_neg]; rcases h with h | h <;> simp [h]
theorem Bar.left_counted {x : Bar} {member : Nat} {role : Role} (hi : x.init = true) (hm : x.mask.getLsbD role.code = true) :
    let arr := if x.arrived member then x.arr - 1 else x.arr
    (x.left member role).exp = x.exp ∧ (x.left member role).exitd = x.exitd + 1 ∧
    (x.exp ≤ arr + (x.exitd + 1) → (x.left member role).ph = !x.ph ∧ (x.left member role).arr = 0 ∧ (x.left member role).nph = x.nph + 1) ∧
    (arr + (x.exitd + 1) < x.exp → (x.left member role).ph = x.ph ∧ (x.left member role).arr = arr ∧ (x.left member role).nph = x.nph) := by
  intro arr
  have hleft : x.left member role = (Bar.test { x with exitd := x.exitd + 1, arr := arr }).1 := by
    unfold Bar.left; rw [if_pos (by simp [hi, hm])]; rfl
  rw [hleft, Bar.test]
  by_cases hfull : x.exp ≤ arr + (x.exitd + 1)
  · rw [if_pos hfull]
    exact ⟨rfl, rfl, fun _ => ⟨rfl, rfl, rfl⟩, fun h => absurd hfull (by omega)⟩
  · rw [if_neg hfull]
    exact ⟨rfl, rfl, fun h => absurd h hfull, fun _ => ⟨rfl, rfl, rfl⟩⟩
/-- One barrier of the team takes the exit. -/
def State.leaveBar (tid member : Nat) (role : Role) (s : State) (b : Nat) : State :=
  let x := (mget {} s.teams tid).bar b
  if x.init && x.mask.getLsbD role.code then
    let here := mfind x.last member == some x.nph
    s.barEvent tid b { x with exitd := x.exitd + 1, arr := if here then x.arr - 1 else x.arr }
  else s
theorem State.memberExit_eq (s : State) (tid member : Nat) (role : Role) :
    s.memberExit tid member role = (List.range 16).foldl (State.leaveBar tid member role) s := rfl
theorem State.leaveBar_bars (tid member : Nat) (role : Role) (s : State) (b : Nat) {bars : AMap Bar} (h : s.barsOf tid = some bars) :
    ∃ bars', (s.leaveBar tid member role b).barsOf tid = some bars' ∧
      ∀ c, mget {} bars' c = if c = b then (mget {} bars b).left member role else mget {} bars c := by
  obtain ⟨T, hT, rfl⟩ := Option.map_eq_some_iff.1 h
  have hbar : (mget {} s.teams tid).bar b = mget {} T.bars b := by rw [mget, hT]; rfl
  have hset (x : Bar) : ((s.setBar tid b x).barsOf tid) = some (mset T.bars b x) := by
    unfold State.setBar State.updTeam State.barsOf
    rw [hT]
    simp
  have hevent (x : Bar) : (s.barEvent tid b x).barsOf tid = some (mset T.bars b x.test.1) := by
    refine Eq.trans ?_ (hset x.test.1)
    unfold State.barEvent
    dsimp only
    split <;> rfl
  unfold State.leaveBar Bar.left
  rw [hbar]
  dsimp only
  by_cases hcounts : ((mget {} T.bars b).init && (mget {} T.bars b).mask.getLsbD role.code) = true
  · rw [if_pos hcounts, if_pos hcounts]
    exact ⟨_, hevent _, fun c => mget_mset _ _ _ _ _⟩
  · rw [if_neg hcounts, if_neg hcounts]
    exact ⟨_, h, fun c => by by_cases hc : c = b <;> simp [hc]⟩
theorem State.foldl_leaveBar_bars (tid member : Nat) (role : Role) (bs : List Nat) (hnd : bs.Nodup) (s : State) {bars : AMap Bar} (h : s.barsOf tid = some bars) :
    ∃ bars', (bs.foldl (State.leaveBar tid member role) s).barsOf tid = some bars' ∧
      ∀ c, mget {} bars' c = if c ∈ bs then (mget {} bars c).left member role else mget {} bars c := by
  induction bs generalizing s bars with
  | nil => exact ⟨bars, h, fun c => by simp⟩
  | cons b bs ih =>
    obtain ⟨hb, hbs⟩ := List.nodup_cons.1 hnd
    obtain ⟨bars₁, h₁, heq₁⟩ := State.leaveBar_bars tid member role s b h
    obtain ⟨bars₂, h₂, heq₂⟩ := ih hbs _ h₁
    refine ⟨bars₂, h₂, fun c => ?_⟩
    rw [heq₂, heq₁]
    by_cases hc : c = b
    · subst hc; simp [hb]
    · simp [hc]
/-- Each of the 16 barriers takes the exit. -/
theorem State.memberExit_bars {s : State} {tid : Nat} (member : Nat) (role : Role) {bars : AMap Bar} (h : s.barsOf tid = some bars) {b : Nat} (hb : b < 16) :
    (mget {} (s.memberExit tid member role).teams tid).bar b = (mget {} bars b).left member role := by
  obtain ⟨bars', h', heq⟩ := State.foldl_leaveBar_bars tid member role (List.range 16) List.nodup_range s h
  obtain ⟨T, hT, rfl⟩ := Option.map_eq_some_iff.1 h'
  rw [State.memberExit_eq, mget, hT]
  exact (heq b).trans (if_pos (List.mem_range.2 hb))

/-! ## What waits stays as it is -/

/-- The groups with their teams and what they wait for. -/
def State.waits (s : State) : List (Nat × Nat × WaitKind) := s.groups.map fun e => (e.1, e.2.tid, e.2.wait.kind)
/-- What the group of a key waits for. -/
def State.waitAt (s : State) (k : Nat) : WaitKind := (mget {} s.groups k).wait.kind

theorem State.waits_wakeBar (s : State) (tid b : Nat) : (s.wakeBar tid b).waits = s.waits ∧ (s.wakeBar tid b).waitAt = s.waitAt := by
  constructor
  · unfold State.waits State.wakeBar mmap
    rw [List.map_map]
    refine List.map_congr_left fun e _ => ?_
    dsimp only [Function.comp]
    split <;> rfl
  · funext k
    unfold State.waitAt State.wakeBar
    rw [mget_mmap _ (by simp)]
    split <;> rfl
theorem State.waits_leaveBar (tid member : Nat) (role : Role) (s : State) (b : Nat) :
    ((s.leaveBar tid member role b).waits, (s.leaveBar tid member role b).waitAt) = (s.waits, s.waitAt) := by
  have hset (x : Bar) : ((s.setBar tid b x).waits, (s.setBar tid b x).waitAt) = (s.waits, s.waitAt) := by
    unfold State.waits State.waitAt State.setBar; rw [State.groups_updTeam]
  have hevent (x : Bar) : ((s.barEvent tid b x).waits, (s.barEvent tid b x).waitAt) = (s.waits, s.waitAt) := by
    unfold State.barEvent
    dsimp only
    split
    · obtain ⟨hwaits, hat⟩ := State.waits_wakeBar (s.setBar tid b x.test.1) tid b
      rw [hwaits, hat]
      exact hset _
    · exact hset _
  unfold State.leaveBar
  dsimp only
  by_cases hcounts : (((mget {} s.teams tid).bar b).init && ((mget {} s.teams tid).bar b).mask.getLsbD role.code) = true
  · rw [if_pos hcounts]; exact hevent _
  · rw [if_neg hcounts]
theorem State.waits_memberExit (s : State) (tid member : Nat) (role : Role) :
    (s.memberExit tid member role).waits = s.waits ∧ (s.memberExit tid member role).waitAt = s.waitAt :=
  Prod.mk.inj (foldl_keeps (p := fun u : State => (u.waits, u.waitAt)) (State.waits_leaveBar tid member role) _ s)
theorem State.Awake.of_waits {s t : State} {tid : Nat} (h : s.Awake tid) (hwaits : t.waits = s.waits) (hat : t.waitAt = s.waitAt) : t.Awake tid := by
  have hpart {u v : State} (huv : u.waits = v.waits) {e : Nat × Group} (he : e ∈ u.groups) :
      ∃ f ∈ v.groups, f.1 = e.1 ∧ f.2.tid = e.2.tid ∧ f.2.wait.kind = e.2.wait.kind := by
    have hmem : (e.1, e.2.tid, e.2.wait.kind) ∈ u.waits := List.mem_map.2 ⟨e, he, rfl⟩
    rw [huv] at hmem
    obtain ⟨f, hf, heq⟩ := List.mem_map.1 hmem
    obtain ⟨hkey, htid, hkind⟩ : f.1 = e.1 ∧ f.2.tid = e.2.tid ∧ f.2.wait.kind = e.2.wait.kind := by simpa using heq
    exact ⟨f, hf, hkey, htid, hkind⟩
  obtain ⟨⟨e, he, htid⟩, hnone⟩ := h
  refine ⟨?_, fun f hf hftid => ?_⟩
  · obtain ⟨f, hf, -, hftid, -⟩ := hpart hwaits.symm he
    exact ⟨f, hf, hftid.trans htid⟩
  · obtain ⟨e, he, hkey, hetid, hkind⟩ := hpart hwaits hf
    have hsame (k : Nat) : (mget {} t.groups k).wait.kind = (mget {} s.groups k).wait.kind := congrFun hat k
    obtain ⟨hown, hget⟩ := hnone e he (hetid.trans hftid)
    rw [hkey] at hget
    exact ⟨by rwa [Group.notWaiting, hkind] at hown, by rwa [Group.notWaiting, hsame]⟩

/-! ## The exit of a group (R141) -/

theorem State.groups_keepWindow (s : State) (key : Nat) : State.OnlyGroup key s (s.keepWindow key) := by
  unfold State.keepWindow
  dsimp only
  split
  · exact (s.onlyGroup_publish key).trans (.of_groups (State.groups_updTeam _ _ _))
  · exact .refl key s
/-- The group has left the table, and its stores are performed; its barriers follow. -/
def State.removed (s : State) (key : Nat) : State := ((s.drain key).keepWindow key).forget key (mget {} s.groups key)
theorem State.groupExit_eq (s : State) (key : Nat) : s.groupExit key =
    ((s.removed key).memberExit (mget {} s.groups key).tid (mget {} s.groups key).member (mget {} s.groups key).role).teamOver (mget {} s.groups key).tid := rfl
theorem State.groups_removed (s : State) (key : Nat) : (s.removed key).groups = mdel s.groups key := by
  rw [State.removed, State.groups_forget, (State.groups_keepWindow _ key).mdel_eq, (s.onlyGroup_drain key).mdel_eq]
theorem State.barsOf_removed (s : State) (key : Nat) : (s.removed key).barsOf = s.barsOf := by
  rw [State.removed, State.barsOf_forget, State.barsOf_keepWindow, State.barsOf_drain]
theorem State.groupExit_gone (s : State) (key : Nat) : mfind (s.groupExit key).groups key = none := by
  rw [State.groupExit_eq]
  refine State.noneNew_teamOver _ _ key (State.noneNew_memberExit _ _ _ _ key ?_)
  rw [State.groups_removed]
  exact mfind_mdel_self _ _
/-- Where others of the team live and none of them waits, the barriers only take the exit. -/
theorem State.groupExit_bars {s : State} {key : Nat} {g : Group} {T : Team} (hg : mget {} s.groups key = g) (hT : mfind s.teams g.tid = some T)
    (hother : ∃ e ∈ s.groups, e.1 ≠ key ∧ e.2.tid = g.tid)
    (hnone : ∀ e ∈ s.groups, e.1 ≠ key → e.2.tid = g.tid → e.2.notWaiting ∧ (mget {} s.groups e.1).notWaiting) {b : Nat} (hb : b < 16) :
    (mget {} (s.groupExit key).teams g.tid).bar b = (T.bar b).left g.member g.role := by
  have hawake : (s.removed key).Awake g.tid := by
    rw [State.Awake, State.groups_removed]
    obtain ⟨e, he, hkey, htid⟩ := hother
    refine ⟨⟨e, mem_mdel.2 ⟨he, hkey⟩, htid⟩, fun f hf hftid => ?_⟩
    obtain ⟨hmem, hfkey⟩ := mem_mdel.1 hf
    rw [mget, mfind_mdel_ne _ hfkey]
    exact hnone f hmem hfkey hftid
  obtain ⟨hwaits, hat⟩ := State.waits_memberExit (s.removed key) g.tid g.member g.role
  have hbars : (s.removed key).barsOf g.tid = some T.bars := by rw [State.barsOf_removed, State.barsOf, hT]; rfl
  rw [State.groupExit_eq, hg, State.teamOver_awake (hawake.of_waits hwaits hat)]
  exact State.memberExit_bars _ _ hbars hb

/-! ## EXIT (R141) -/

/-- The group after an EXIT: its active lanes have left the PC table. -/
def Group.exited (i : Issue) (g : Group) : Group := (g.ended i).movePcs i.act fun _ => none
theorem exec_exit {s : State} (o : Ops) (hact : s.iss.act ≠ 0) (hq : s.grp.role = .stream → s.team.queue = []) :
    exec (.exit o) s = .next (if (s.grp.exited s.iss).live = 0 then (s.updGrp (Group.exited s.iss)).groupExit s.iss.key else s.updGrp (Group.exited s.iss)) := by
  have hqueue : ¬ (s.grp.role = .stream && !s.team.queue.isEmpty) = true := by
    intro h
    obtain ⟨hrole, hne⟩ := Bool.and_eq_true_iff.1 h
    rw [hq (of_decide_eq_true hrole)] at hne
    exact absurd hne (by decide)
  have hexit : (s.finish.updGrp fun g => g.movePcs s.iss.act fun _ => none) = s.updGrp (Group.exited s.iss) := by
    rw [State.finish_eq, State.updGrp_updGrp]; rfl
  refine ((if_neg hact).trans (if_neg hqueue)).trans (congrArg Host.Outcome.next ?_)
  rw [hexit, State.grp_updGrp]
/-- A lane is at the next instruction, where it was, or gone. -/
theorem Group.exited_pcs (i : Issue) (g : Group) (hr : i.replay = false) {l : Nat} (hl : l < 32) :
    (g.exited i).pcs.getD l none = if i.act.getLsbD l then none else if i.xm.getLsbD l then some i.npc else g.pcs.getD l none := by
  simp [Group.exited, Group.endedAt, hr, Group.movePcs, Group.settled, List.getD_eq_getElem?_getD, hl]
theorem Group.exited_live {i : Issue} {g : Group} (hr : i.replay = false) (hxm : i.xm &&& ~~~g.live = 0) :
    (g.exited i).live = g.live &&& ~~~i.act := by
  apply BitVec.eq_of_getLsbD_eq
  intro l hl
  have hxlive : i.xm.getLsbD l = true → g.live.getLsbD l = true := fun h => by
    have := congrArg (·.getLsbD l) hxm
    simpa [h, hl] using this
  rw [Group.live_getLsbD _ hl, Group.exited_pcs i g hr hl, BitVec.getLsbD_and, BitVec.getLsbD_not]
  rw [Group.live_getLsbD g hl] at hxlive ⊢
  split_ifs with ha hm
  · simp [ha]
  · rw [hxlive hm, Bool.eq_false_of_not_eq_true ha]; simp [hl]
  · rw [Bool.eq_false_of_not_eq_true ha]; simp [hl]
theorem Group.exited_eq {i : Issue} (g : Group) (hr : i.replay = false) :
    g.exited i = { g with wait := {}, part := none, pi := 0, pcs := (g.exited i).pcs } := by
  simp [Group.exited, Group.endedAt, hr, Group.movePcs, Group.settled]
theorem Group.exited_moved {i : Issue} {g : Group} (hr : i.replay = false) (hx : i.act &&& ~~~i.xm = 0) :
    Group.Moved i g (g.exited i) [] [] [] fun l => if i.act.getLsbD l then none else some i.npc := by
  have heq := g.exited_eq hr
  refine ⟨?_, fun _ _ => ?_, fun _ _ => ?_, fun _ _ => ?_, fun l hl => ?_, ?_, fun _ => ?_⟩
  · rw [heq]
  · rw [heq]; rfl
  · rw [heq]; rfl
  · rw [heq]; rfl
  · have hxm : i.act.getLsbD l = true → i.xm.getLsbD l = true := fun h => by
      have := congrArg (·.getLsbD l) hx
      simpa [h, hl] using this
    rw [Group.exited_pcs i g hr hl, hr]
    split_ifs <;> simp_all
  · rw [heq, hr]; rfl
  · rw [heq]; exact ⟨rfl, rfl⟩

/-! ## SLEEPC (R143) -/

/-- A SLEEPC that is issued for the first time sleeps its clocks, where there are any. -/
theorem exec_sleepc_first {s : State} (o : Ops) (hact : s.iss.act ≠ 0) (hpi : s.iss.pi = 0) (hkind : s.grp.wait.kind ≠ .sleep) :
    let n := if o.fmt = .f128i then fld o.imm.toNat 31 0 else fld (s.uniA o).val.toNat 31 0
    exec (.sleepc o) s = .next (if n = 0 then s.finish else
      s.hold { kind := .sleep, due := some (s.clkOf s.grp.core + n) } s.iss.act (BitVec.ofNat 32 n)) := by
  intro n
  have hn : (if s.iss.pi ≠ 0 then s.iss.pi.toNat else n) = n := if_neg (by simp [hpi])
  refine congrArg Host.Outcome.next ((State.ifActive_eq _ _ hact).trans ?_)
  rw [show (if s.iss.pi ≠ 0 then s.iss.pi.toNat else if o.fmt = .f128i then fld o.imm.toNat 31 0 else fld (s.uniA o).val.toNat 31 0) = n from hn]
  split
  · exact absurd ‹_› hkind
  · rfl
/-- A SLEEPC whose clocks have passed finishes. -/
theorem exec_sleepc_over {s : State} (o : Ops) (hact : s.iss.act ≠ 0) {d : Nat} (hkind : s.grp.wait.kind = .sleep) (hdue : s.grp.wait.due = some d)
    (hover : d ≤ s.clkOf s.grp.core ∨ s.grp.wait.expired = true) : exec (.sleepc o) s = .next s.finish := by
  refine congrArg Host.Outcome.next ((State.ifActive_eq _ _ hact).trans ?_)
  rw [hkind, hdue]
  exact if_pos (by simpa using hover)

/-- Settles O22: EXIT by whether lanes, queued steps or other groups remain, the pauses by the group's wait. -/
theorem exitAndPauses : Obligations.ExitAndPauses := by
  unfold Obligations.ExitAndPauses
  intro o s hpresent hact hx hxm hr n
  obtain ⟨-, hteam⟩ := hpresent
  have hlive := Group.exited_live hr hxm
  have hif (k : State → State) : (.next (s.ifActive k) : Out) = .next (k s) := congrArg _ (State.ifActive_eq s k hact)
  have hgone (hq : s.grp.role = .stream → s.team.queue = []) (hnone : s.grp.live &&& ~~~s.iss.act = 0) :
      exec (.exit o) s = .next ((s.updGrp (Group.exited s.iss)).groupExit s.iss.key) := by
    rw [exec_exit o hact hq, hlive, if_pos hnone]
  have hfields : (s.grp.exited s.iss).tid = s.grp.tid ∧ (s.grp.exited s.iss).role = s.grp.role ∧ (s.grp.exited s.iss).member = s.grp.member := by
    rw [Group.exited_eq _ hr]; exact ⟨rfl, rfl, rfl⟩
  refine ⟨fun hq hleft => ?_, fun hq hnone => ⟨_, hgone hq hnone, State.groupExit_gone _ _⟩, fun hq hnone hwaits hother => ?_, fun hrole hq => ?_,
    fun _ => hif _, fun _ => hif _, fun hpi hkind hn => ?_, fun hpi hkind hn => ?_, fun d hkind hdue hover => ?_⟩
  · refine ⟨s.updGrp (Group.exited s.iss), ?_, State.updGrp_rest _ _, fun k hk => State.find_updGrp_ne _ _ hk, ?_⟩
    · rw [exec_exit o hact hq, hlive, if_neg hleft]
    · rw [State.grp_updGrp]; exact Group.exited_moved hr hx
  · obtain ⟨htid, hrole, hmember⟩ := hfields
    have hother' (e : Nat × Group) (hkey : e.1 ≠ s.iss.key) : e ∈ (s.updGrp (Group.exited s.iss)).groups ↔ e ∈ s.groups := by
      have h := mem_mdel (m := (s.updGrp (Group.exited s.iss)).groups) (k := s.iss.key) (e := e)
      rw [show mdel (s.updGrp (Group.exited s.iss)).groups s.iss.key = mdel s.groups s.iss.key from mdel_mset_self _ _ _, mem_mdel] at h
      simpa [hkey] using h.symm
    have hbars (b : Nat) (hb : b < 16) : (mget {} ((s.updGrp (Group.exited s.iss)).groupExit s.iss.key).teams s.grp.tid).bar b =
        (s.team.bar b).left s.grp.member s.grp.role := by
      rw [← htid, ← hrole, ← hmember]
      refine State.groupExit_bars (State.grp_updGrp _ _) (htid ▸ hteam) ?_ (fun e he hkey hetid => ?_) hb
      · obtain ⟨e, he, hkey, hetid⟩ := hother
        exact ⟨e, (hother' e hkey).2 he, hkey, htid ▸ hetid⟩
      · rw [mget, State.find_updGrp_ne s _ (show e.1 ≠ s.iss.key from hkey)]
        exact hwaits e ((hother' e hkey).1 he) hkey (htid ▸ hetid)
    refine ⟨_, hgone hq hnone, fun b hb => ?_⟩
    dsimp only
    rw [hbars b hb]
    exact ⟨Bar.left_apart _ _ _, Bar.left_counted⟩
  · have hqueue : (decide (s.grp.role = .stream) && !s.team.queue.isEmpty) = true := by simp [hrole, hq]
    refine ⟨_, (if_neg hact).trans (if_pos hqueue), ?_⟩
    have hgrp := s.hold_grp { kind := .resource } s.iss.act 0 hr
    rw [hgrp]
    exact ⟨rfl, rfl, rfl, rfl, State.sameBytes_of_mem rfl rfl⟩
  · exact (exec_sleepc_first o hact hpi hkind).trans (congrArg _ (if_pos hn))
  · refine ⟨_, (exec_sleepc_first o hact hpi hkind).trans (congrArg _ (if_neg hn)), ?_⟩
    rw [State.hold_grp _ _ _ _ hr]
    exact ⟨rfl, rfl, rfl, rfl, rfl, State.sameBytes_of_mem rfl rfl⟩
  · exact exec_sleepc_over o hact hkind hdue hover
end Sys2Proof.Machine
end

section
/-! PROOF. Traps: the handler's entry and the end of a team with its record (O24). -/
namespace Sys2Proof.Machine

/-! ## A trap enters its handler (R144, R337, R341) -/

/-- A group enters its handler from a frame that waits in its store queue. -/
theorem Group.entered_handler (g : Group) (q : List QStore) (c : Pending) : g.Entered (({ g with sq := q } : Group).handler c) c where
  cause := rfl
  detail := ⟨rfl, rfl, rfl⟩
  inhdl := rfl
  pcs l _ := by
    simp only [Group.handler, List.getD_eq_getElem?_getD, List.getElem?_map]
    cases g.pcs[l]? with
    | none => rfl
    | some p => cases p <;> rfl
  idle := ⟨rfl, rfl, rfl, rfl⟩
  regs := ⟨rfl, rfl, rfl, rfl, rfl, rfl⟩
theorem State.tryTrap_enters {s : State} {key : Nat} {x : Trapping} {g : Group} (hg : mfind s.groups key = some g) (htvec : g.tvec ≠ 0)
    (hin : g.inhdl = false) (harea : g.tareaOk (mget {} s.teams g.tid) = true) (hreqs : s.groupReqs key = [])
    (hstore : (s.storeFrame key g (mget {} s.teams g.tid) (frameBytes g x)).1 = none) : g.Entered (mget {} (s.tryTrap key x).groups key) x.cause := by
  have hget : mget {} s.groups key = g := by rw [mget, hg]; rfl
  obtain ⟨q, hq⟩ := (s.queues_storeFrame key g (mget {} s.teams g.tid) (frameBytes g x)).self g hg
  unfold State.tryTrap
  dsimp only
  have htest : (decide (g.tvec = 0) || g.inhdl || !g.tareaOk (mget {} s.teams g.tid)) = false := by rw [harea, hin, decide_eq_false htvec]; rfl
  rw [hget, hreqs, if_neg (by rw [htest]; decide), if_neg (by simp), if_neg (by simp)]
  generalize s.storeFrame key g (mget {} s.teams g.tid) (frameBytes g x) = r at hq hstore ⊢
  obtain ⟨y, u⟩ := r
  subst hstore
  dsimp only
  have hfind : mfind (if recordedCause x.cause.cause = true then (u.trapRecord g x.cause x.pc 2).1 else u).groups key = some { g with sq := q } := by
    split
    · rw [State.groups_trapRecord]; exact hq
    · exact hq
  unfold State.updGroup
  rw [hfind]
  show g.Entered (mget {} (mset _ _ _) key) x.cause
  rw [mget_mset_self]
  exact g.entered_handler q x.cause

/-! ## What a VD's error ring counts, and host memory -/

/-- The counters of records. -/
def ErrBlock.counts (b : ErrBlock) : Word × Word × Word := (b.seq, b.erlost, b.erprod)
/-- The counters of the records of VD `n`. -/
def State.counts (n : Nat) (s : State) : Word × Word × Word := (s.vd n).err.counts
/-- The counters with host memory, where the records stand. -/
def State.ring (n : Nat) (s : State) : (Word × Word × Word) × Mem := (s.counts n, s.mem.host)

theorem State.counts_of_ring {n : Nat} {s t : State} (h : t.ring n = s.ring n) : t.counts n = s.counts n := congrArg Prod.fst h
theorem State.host_of_ring {n : Nat} {s t : State} (h : t.ring n = s.ring n) : t.mem.host = s.mem.host := congrArg Prod.snd h
theorem State.vd_updVd (s : State) (k n : Nat) (f : VD → VD) : (s.updVd k f).vd n = if n = k then f (s.vd k) else s.vd n := by
  unfold State.updVd State.vd
  exact mget_mset _ _ _ _ _
theorem State.counts_of_bare {n : Nat} {s t : State} (h : t.bare = s.bare) : t.counts n = s.counts n := by
  unfold State.counts State.vd; rw [show t.vds = s.vds from (congrArg State.vds h :)]
theorem State.ring_updVd (n : Nat) (s : State) (k : Nat) (f : VD → VD) (h : ∀ v, (f v).err.counts = v.err.counts) : (s.updVd k f).ring n = s.ring n := by
  unfold State.ring State.counts
  rw [State.vd_updVd]
  split
  · subst_vars; rw [h]; rfl
  · rfl
theorem State.ring_sendMsix (n : Nat) (s : State) (vf : Option Nat) (vec : Nat) : (s.sendMsix vf vec).ring n = s.ring n := by
  unfold State.sendMsix
  dsimp only
  split <;> rfl
theorem State.ring_postIrq (n : Nat) (s : State) (vd src : Nat) : (s.postIrq vd src).ring n = s.ring n := by
  unfold State.postIrq
  dsimp only
  split
  · rfl
  · split
    · refine State.ring_updVd n s vd _ ?_
      exact fun _ => rfl
    · exact s.ring_sendMsix n _ _
theorem State.ring_answerStore (n : Nat) (s : State) (m : RemoteStore) (r : Nat) : (s.answerStore m r).ring n = s.ring n := by
  obtain ⟨o, ms, h⟩ := s.answerStore_eq m r
  rw [h]
  show (s.nakCounted m r).ring n = s.ring n
  unfold State.nakCounted
  split
  · rfl
  · split
    · rfl
    · refine State.ring_updVd n s _ _ ?_
      exact fun _ => rfl
theorem State.ring_forget (n : Nat) (s : State) (key : Nat) (g : Group) : (s.forget key g).ring n = s.ring n := by
  have hnak (u : State) (p : DWord → Bool) : (u.nakHeld p).ring n = u.ring n :=
    (foldl_keeps (p := State.ring n) (fun v m => v.ring_answerStore n m 1) _ _).trans rfl
  have hslot (u : State) : (u.updVd g.vd fun v => { v with stkused := sdel v.stkused g.slot }).ring n = u.ring n := by
    refine State.ring_updVd n u _ _ ?_
    exact fun _ => rfl
  unfold State.forget
  dsimp only
  split
  · rfl
  · exact (hnak _ _).trans ((hslot _).trans rfl)
theorem State.ring_mbWrite (n : Nat) (s : State) (a : Nat) (o : MbObj) : (s.mbWrite a o).ring n = s.ring n := by
  simp only [State.mbWrite, State.setMem, State.ring, State.counts, State.vd]
theorem State.ring_carry (n : Nat) (s : State) (p : Carrier → Bool) (c : Carrier) : (s.carry p c).ring n = s.ring n := rfl
theorem State.ring_mbReport_cancelled (n : Nat) (s : State) (c : CopyCmd) (hc : c.cancelled = true) (k : Nat) (e : Bool) : (s.mbReport c k e).ring n = s.ring n := by
  have hdrop (u : State) : (u.updErr (some c.vd) fun b => { b with mbdrop := satInc b.mbdrop }).ring n = u.ring n := by
    refine State.ring_updVd n u _ _ ?_
    exact fun _ => rfl
  unfold State.mbReport
  dsimp only
  rw [if_pos hc]
  split
  · rfl
  · split
    · rw [State.ring_mbWrite, State.ring_carry]
    · exact hdrop s
theorem State.ring_faultDiscard (n : Nat) (s : State) (vd : Nat) (p : FaultReq → Bool) : (s.faultDiscard vd p).ring n = s.ring n := by
  refine State.ring_updVd n s vd _ ?_
  exact fun _ => rfl
theorem State.ring_dropOrigin (n : Nat) (s : State) (vd : Nat) (o : Origin) : (s.dropOrigin vd o).ring n = s.ring n := by
  refine (State.ring_updVd n _ vd _ ?_).trans (s.ring_faultDiscard n vd _)
  exact fun _ => rfl
theorem State.ring_dropTeamReqs (n : Nat) (s : State) (vd tid : Nat) : (s.dropTeamReqs vd tid).ring n = s.ring n := by
  refine (State.ring_updVd n _ vd _ ?_).trans (s.ring_faultDiscard n vd _)
  exact fun _ => rfl
theorem State.ring_jobs (n : Nat) (s : State) (cs : List CollJob) (bs : List BinJob) : ({ s with colls := cs, binjobs := bs } : State).ring n = s.ring n := rfl
theorem State.ring_cancelJobs (n : Nat) (s : State) (p : Option Nat → Nat → Bool) : (s.cancelJobs p).ring n = s.ring n := by
  unfold State.cancelJobs
  dsimp only
  rw [State.ring_jobs, foldl_keeps (p := State.ring n) fun u (j : BinJob) => u.ring_dropOrigin n j.vd (.engine j.id),
    foldl_keeps (p := State.ring n) fun u (c : CollJob) => u.ring_dropOrigin n c.vd (.engine c.id)]
theorem State.ring_cancelCopies (n : Nat) (s : State) (p : CopyCmd → Bool) : (s.cancelCopies p).ring n = s.ring n := by
  unfold State.cancelCopies
  refine foldl_keeps (p := State.ring n) (fun u c => ?_) _ s
  rw [State.ring_mbReport_cancelled n _ _ rfl]
  exact State.ring_dropOrigin n { u with copies := _ } c.vd _
theorem State.ring_cancelTeamWork (n : Nat) (s : State) (tid : Nat) : (s.cancelTeamWork tid).ring n = s.ring n := by
  have hbinops (u : State) (bs : List BinOp) : ({ u with binops := bs } : State).ring n = u.ring n := rfl
  unfold State.cancelTeamWork
  dsimp only
  rw [hbinops, State.ring_cancelJobs, State.ring_cancelCopies]
/-- What follows the departure of a team's groups. -/
theorem State.ring_settle (n : Nat) (s : State) (bundle tid : Nat) (f : Packet → Packet) (h : Team → Team) :
    (((s.updBundle bundle f).updTeam tid h).settleTeam tid).ring n = s.ring n := by
  have hteam (u : State) : (u.updTeam tid h).ring n = u.ring n := by unfold State.updTeam; split <;> rfl
  have hsettle (u : State) : (u.settleTeam tid).ring n = u.ring n := by unfold State.settleTeam; split <;> rfl
  rw [hsettle, hteam]
  refine State.ring_updVd n s _ _ ?_
  exact fun _ => rfl

/-! ## Stores that leave their queues -/

theorem State.counts_drain (n : Nat) (s : State) (key : Nat) : (s.drain key).counts n = s.counts n := by
  have h : (s.drain key).vds = s.vds := (congrArg State.vds (State.drained_drain key s).rest :)
  unfold State.counts State.vd; rw [h]
theorem State.host_flushDie (s : State) (die : Nat) : (s.flushDie die).mem.host = s.mem.host := by
  refine (foldl_keeps (p := fun u : State => u.mem.host) (fun u _ => ?_) _ _).trans (foldl_keeps (p := fun u : State => u.mem.host) (fun u _ => ?_) _ s)
  · unfold State.ackOne; split <;> rfl
  · unfold State.forwardOne; split <;> rfl
/-- A group without stores in its queue writes no byte of host memory. -/
theorem State.host_drain_nil {s : State} {key : Nat} (h : (mget {} s.groups key).sq = []) : (s.drain key).mem.host = s.mem.host := by
  unfold State.drain
  rw [h]
  show (s.settleFence key).mem.host = s.mem.host
  unfold State.settleFence
  split
  · exact State.host_flushDie _ _
  · rfl
/-- Group after group leaves with its queue. -/
theorem State.counts_foldl_forget (n : Nat) (ks : List Nat) (s : State) :
    (ks.foldl (fun s k => (s.drain k).forget k (mget {} s.groups k)) s).counts n = s.counts n :=
  foldl_keeps (p := State.counts n) (fun u k => (congrArg Prod.fst ((u.drain k).ring_forget n k _)).trans (u.counts_drain n k)) ks s
theorem State.host_foldl_forget (ks : List Nat) (s : State) (h : ∀ k ∈ ks, (mget {} s.groups k).sq = []) :
    (ks.foldl (fun s k => (s.drain k).forget k (mget {} s.groups k)) s).mem.host = s.mem.host := by
  induction ks generalizing s with
  | nil => rfl
  | cons k ks ih =>
    obtain ⟨hk, hks⟩ := List.forall_mem_cons.1 h
    rw [List.foldl_cons, ih]
    · exact (congrArg Prod.snd ((s.drain k).ring_forget 0 k _)).trans (State.host_drain_nil hk)
    · intro j hj
      rw [State.groups_forget, (s.onlyGroup_drain k).mdel_eq]
      by_cases hjk : j = k
      · rw [hjk, mget, mfind_mdel_self]; rfl
      · rw [mget, mfind_mdel_ne _ hjk]; exact hks j hj

/-! ## The record of a team that ends (R342, R393) -/

/-- The end of a team changes no counter of records after its own record. -/
theorem State.counts_endTeam (n : Nat) (s : State) (key : Nat) (c : Pending) (pc : DWord) :
    (s.endTeam key c pc).counts n = (s.trapRecord (mget {} s.groups key) c pc 3).1.counts n := by
  unfold State.endTeam
  dsimp only
  rw [State.counts_of_ring (State.ring_settle n _ _ _ _ _), State.counts_foldl_forget, State.counts_of_ring (State.ring_dropTeamReqs n _ _ _),
    State.counts_of_ring (State.ring_cancelTeamWork n _ _)]
theorem State.host_endTeam {s : State} {key : Nat} (c : Pending) (pc : DWord)
    (h : ∀ e ∈ s.groups, e.2.tid = (mget {} s.groups key).tid → (mget {} s.groups e.1).sq = []) :
    (s.endTeam key c pc).mem.host = (s.trapRecord (mget {} s.groups key) c pc 3).1.mem.host := by
  unfold State.endTeam
  dsimp only
  rw [State.host_of_ring (State.ring_settle 0 _ _ _ _ _), State.host_foldl_forget, State.host_of_ring (State.ring_dropTeamReqs 0 _ _ _),
    State.host_of_ring (State.ring_cancelTeamWork 0 _ _)]
  have hempty (u : State) (vd tid : Nat) (hu : u.groups = s.groups) (htid : tid = (mget {} s.groups key).tid) :
      ∀ k ∈ u.keysOf tid, (mget {} (u.dropTeamReqs vd tid).groups k).sq = [] := by
    intro k hk
    obtain ⟨e, he, rfl⟩ := List.mem_map.1 hk
    obtain ⟨hmem, hetid⟩ := List.mem_filter.1 he
    show (mget {} u.groups e.1).sq = []
    rw [hu] at hmem ⊢
    exact h e hmem (by rw [← htid]; simpa using hetid)
  exact hempty _ _ _ (by rw [State.groups_cancelTeamWork, State.groups_trapRecord]) rfl
theorem State.err_of_bare {s t : State} (h : t.bare = s.bare) : t.err = s.err := (congrArg State.err h :)
theorem State.err_postIrq (s : State) (vd src : Nat) : (s.postIrq vd src).err = s.err := by
  have hsend (vf : Option Nat) (vec : Nat) : (s.sendMsix vf vec).err = s.err := by
    unfold State.sendMsix
    dsimp only
    split <;> rfl
  unfold State.postIrq
  dsimp only
  split
  · rfl
  · split
    · rfl
    · exact hsend _ _
theorem State.counts_errDevice (n : Nat) (s : State) (x : ErrInfo) (o : Word) : (s.errDevice x o).counts n = s.counts n := by
  show State.counts n (if _ then _ else _ : State) = _
  split
  · exact State.counts_of_bare (State.bare_writeHost _ _ _)
  · rfl
theorem State.host_errDevice {s : State} (x : ErrInfo) (o : Word) (h : s.err.eren = false) : (s.errDevice x o).mem.host = s.mem.host := by
  show (if _ then _ else _ : State).mem.host = _
  rw [if_neg (by simp [ErrBlock.room, h])]
/-- A record of a VD, before the device's own record: its bytes, where the ring has room, and its count. -/
def State.vdRecord (s : State) (x : ErrInfo) (v : Nat) : State :=
  ((if (s.vd v).err.room then s.writeGpa v (s.vd v).err.slot (s.errBytes x (s.vd v).err.seq 0 0) else s).updVd v fun d =>
    { d with err := (s.vd v).err.count }).postIrq v 4
theorem State.errRecord_eq (s : State) (x : ErrInfo) {v : Nat} (hx : x.vd = some v) :
    (s.errRecord x).1 = if x.cls = 0 then s.vdRecord x v else (s.vdRecord x v).errDevice x (s.vd v).err.seq := by
  unfold State.errRecord
  rw [hx]
  rfl
theorem State.counts_vdRecord (s : State) (x : ErrInfo) (v : Nat) : (s.vdRecord x v).counts v = (s.vd v).err.count.counts := by
  unfold State.vdRecord
  rw [State.counts_of_ring (State.ring_postIrq v _ _ _), State.counts, State.vd_updVd, if_pos rfl]
theorem State.counts_errRecord (s : State) (x : ErrInfo) {v : Nat} (hx : x.vd = some v) : (s.errRecord x).1.counts v = (s.vd v).err.count.counts := by
  rw [State.errRecord_eq s x hx]
  split
  · exact s.counts_vdRecord x v
  · exact (State.counts_errDevice v _ _ _).trans (s.counts_vdRecord x v)
/-- Where the device keeps no record, a VD's record is all that is written. -/
theorem State.host_errRecord {s : State} (x : ErrInfo) {v : Nat} (hx : x.vd = some v) (hroom : (s.vd v).err.room = true) (hdev : s.err.eren = false) :
    (s.errRecord x).1.mem.host = (s.writeGpa v (s.vd v).err.slot (s.errBytes x (s.vd v).err.seq 0 0)).mem.host := by
  have hrecord : (s.vdRecord x v).mem.host = (s.writeGpa v (s.vd v).err.slot (s.errBytes x (s.vd v).err.seq 0 0)).mem.host ∧
      (s.vdRecord x v).err = s.err := by
    unfold State.vdRecord
    rw [if_pos hroom]
    have herr : (s.writeGpa v (s.vd v).err.slot (s.errBytes x (s.vd v).err.seq 0 0)).err = s.err :=
      State.err_of_bare (State.bare_writeGpa _ _ _ _)
    generalize s.writeGpa v _ _ = u at herr ⊢
    exact ⟨(State.host_of_ring (State.ring_postIrq v _ _ _)).trans rfl, (State.err_postIrq _ _ _).trans herr⟩
  rw [State.errRecord_eq s x hx]
  split
  · exact hrecord.1
  · rw [State.host_errDevice x _ (by rw [hrecord.2]; exact hdev)]
    exact hrecord.1
theorem State.host_enterView (s : State) (core : Nat) (k : Option Carrier) (w : QStore) (h : w.space = .host) :
    (s.enterView core k w).mem.host = Mem.writeAll s.mem.host w.bytes := by
  unfold State.enterView
  rw [h]
  dsimp only
  split <;> rfl
/-- A write at a GPA that the host stage maps to host memory. -/
theorem State.host_writeGpa {s : State} {vd gpa : Nat} {bs : List Byte} {l : Leaf} (hw : hostWalk s vd gpa 1 = .ok l) (hhome : 2 ≤ fld l.e 57 56) :
    (s.writeGpa vd gpa bs).mem.host = Mem.writeAll s.mem.host (bytesAt (l.place gpa) bs) := by
  unfold State.writeGpa
  rw [hw]
  dsimp only
  rw [if_neg (show fld l.e 57 56 ≠ 0 by omega), if_neg (show fld l.e 57 56 ≠ 1 by omega)]
  rw [if_pos (show s.admits _ _ _ _ = true from rfl)]
  exact State.host_enterView s 0 none _ rfl
/-- Bytes of host memory that were written one behind the other. -/
theorem State.hostNat_written {s t : State} {a : Nat} {bs : List Byte} (h : t.mem.host = Mem.writeAll s.mem.host (bytesAt a bs)) {off n : Nat}
    (hn : off + n ≤ bs.length) : t.hostNat (a + off) n = leNat ((bs.drop off).take n) := by
  unfold State.hostNat
  congr 1
  refine List.ext_getElem? fun i => ?_
  rw [List.getElem?_map, List.getElem?_take, List.getElem?_drop]
  by_cases hi : i < n
  · rw [List.getElem?_range hi, if_pos hi, Option.map_some, State.hostByte, h, Nat.add_assoc, Mem.read_writeAll_bytesAt _ _ _ (by omega)]
    rw [List.getElem?_eq_getElem (by omega)]
    rfl
  · rw [List.getElem?_eq_none (by simpa using hi), if_neg hi]
    rfl
theorem leNat_leBytes_toNat {w : Nat} (n : Nat) (x : BitVec w) (hw : w = 8 * n) : leNat (leBytes n x.toNat) = x.toNat := by
  subst hw
  rw [leNat_leBytes, show 256 ^ n = 2 ^ (8 * n) from (pow_mul 2 8 n).symm]
  exact Nat.mod_eq_of_lt x.isLt

/-- Where a record's fields stand in its bytes (R393). -/
theorem State.errBytes_fields (s : State) (x : ErrInfo) (seq : Word) :
    let bs := s.errBytes x seq 0 0
    bs.length = 64 ∧ (bs.drop 0).take 4 = leBytes 4 seq.toNat ∧ (bs.drop 16).take 8 = leBytes 8 x.gname.toNat ∧
    (bs.drop 24).take 8 = leBytes 8 x.pc.toNat ∧ (bs.drop 32).take 4 = leBytes 4 (x.cause + x.core * 32) ∧
    (bs.drop 36).take 4 = leBytes 4 x.td0.toNat ∧ (bs.drop 40).take 4 = leBytes 4 x.td1.toNat ∧ (bs.drop 44).take 4 = leBytes 4 x.td2.toNat := by
  simp [State.errBytes, List.drop_append, leBytes_length, List.drop_of_length_le]
theorem State.record_read {s t : State} {x : ErrInfo} {seq : Word} {a : Nat} (h : t.mem.host = Mem.writeAll s.mem.host (bytesAt a (s.errBytes x seq 0 0))) :
    t.hostNat a 4 = seq.toNat ∧ t.hostNat (a + 16) 8 = x.gname.toNat ∧ t.hostNat (a + 24) 8 = x.pc.toNat ∧
    (x.cause < 32 → t.hostNat (a + 32) 4 % 32 = x.cause) ∧ t.hostNat (a + 36) 4 = x.td0.toNat ∧ t.hostNat (a + 40) 4 = x.td1.toNat ∧
    t.hostNat (a + 44) 4 = x.td2.toNat := by
  obtain ⟨hlen, hseq, hgname, hpc, hcause, htd0, htd1, htd2⟩ := s.errBytes_fields x seq
  generalize s.errBytes x seq 0 0 = bs at *
  have hread {off n : Nat} {f : List Byte} (hn : off + n ≤ 64) (hf : (bs.drop off).take n = f) : t.hostNat (a + off) n = leNat f :=
    (State.hostNat_written h (hlen ▸ hn)).trans (congrArg leNat hf)
  refine ⟨?_, ?_, ?_, fun hsmall => ?_, ?_, ?_, ?_⟩
  · exact (hread (by decide) hseq).trans (leNat_leBytes_toNat 4 seq rfl)
  · exact (hread (by decide) hgname).trans (leNat_leBytes_toNat 8 x.gname rfl)
  · exact (hread (by decide) hpc).trans (leNat_leBytes_toNat 8 x.pc rfl)
  · rw [hread (by decide) hcause, leNat_leBytes]
    omega
  · exact (hread (by decide) htd0).trans (leNat_leBytes_toNat 4 x.td0 rfl)
  · exact (hread (by decide) htd1).trans (leNat_leBytes_toNat 4 x.td1 rfl)
  · exact (hread (by decide) htd2).trans (leNat_leBytes_toNat 4 x.td2 rfl)

/-- A trap without a handler, or in it, ends the team (R342). -/
theorem State.tryTrap_unhandled {s : State} {key : Nat} {g : Group} (hg : mfind s.groups key = some g) (h : g.tvec = 0 ∨ g.inhdl = true) (x : Trapping) :
    s.tryTrap key x = s.endTeam key x.cause x.pc := by
  have hget : mget {} s.groups key = g := by rw [mget, hg]; rfl
  unfold State.tryTrap
  dsimp only
  rw [hget, if_pos]
  rcases h with h | h <;> simp [h]
/-- The record of the trap that ends a team. -/
def trapInfo (g : Group) (x : Trapping) : ErrInfo :=
  { cls := causeClass x.cause, sev := 3, die := dieOf g.core, vd := some g.vd, addr := causeAddr x.cause, gname := g.gname, pc := x.pc,
    cause := x.cause.cause, core := g.core, td0 := x.cause.td0, td1 := x.cause.td1, td2 := x.cause.td2 }
theorem State.counts_unhandled {s : State} {key : Nat} {g : Group} (hg : mfind s.groups key = some g) (h : g.tvec = 0 ∨ g.inhdl = true) (x : Trapping) :
    ((s.tryTrap key x).vd g.vd).err.counts = (s.vd g.vd).err.count.counts := by
  have hget : mget {} s.groups key = g := by rw [mget, hg]; rfl
  rw [State.tryTrap_unhandled hg h]
  refine (s.counts_endTeam g.vd key x.cause x.pc).trans ?_
  rw [hget]
  exact s.counts_errRecord (trapInfo g x) rfl
/-- Where the ring lies in host memory and nothing else is written there, it holds the record. -/
theorem State.host_unhandled {s : State} {key : Nat} {g : Group} (hg : mfind s.groups key = some g) (h : g.tvec = 0 ∨ g.inhdl = true) (x : Trapping)
    {l : Leaf} (hroom : (s.vd g.vd).err.room = true) (hw : hostWalk s g.vd (s.vd g.vd).err.slot 1 = .ok l) (hhome : 2 ≤ fld l.e 57 56)
    (hdev : s.err.eren = false) (hsq : ∀ e ∈ s.groups, e.2.tid = g.tid → (mget {} s.groups e.1).sq = []) :
    (s.tryTrap key x).mem.host =
      Mem.writeAll s.mem.host (bytesAt (l.place (s.vd g.vd).err.slot) (s.errBytes (trapInfo g x) (s.vd g.vd).err.seq 0 0)) := by
  have hget : mget {} s.groups key = g := by rw [mget, hg]; rfl
  rw [State.tryTrap_unhandled hg h, State.host_endTeam x.cause x.pc (hget ▸ hsq), hget]
  exact (State.host_errRecord (trapInfo g x) rfl hroom hdev).trans (State.host_writeGpa hw hhome)
theorem ErrBlock.count_counts (b : ErrBlock) : b.count.seq = nextSeq b.seq ∧ (b.room = true → b.count.erprod = b.erprod + 1) ∧
    (b.room = false → b.count.erlost = satInc b.erlost ∧ b.count.erprod = b.erprod) := by
  refine ⟨?_, fun h => ?_, fun h => ?_⟩ <;> unfold ErrBlock.count
  · split <;> rfl
  · rw [if_pos h]
  · rw [if_neg (by simp [h])]; exact ⟨rfl, rfl⟩
/-- The team is gone and its record stands in the ring. -/
theorem State.tryTrap_ends {s : State} {key : Nat} {g : Group} (hg : mfind s.groups key = some g) (h : g.tvec = 0 ∨ g.inhdl = true) (x : Trapping) :
    let b := (s.vd g.vd).err
    let t := s.tryTrap key x
    (∀ e ∈ t.groups, e.2.tid ≠ g.tid) ∧ (t.vd g.vd).err.seq = nextSeq b.seq ∧
    (b.room = false → (t.vd g.vd).err.erlost = satInc b.erlost ∧ (t.vd g.vd).err.erprod = b.erprod) ∧
    ∀ l, b.room = true → hostWalk s g.vd b.slot 1 = .ok l → 2 ≤ fld l.e 57 56 → s.err.eren = false →
      (∀ e ∈ s.groups, e.2.tid = g.tid → (mget {} s.groups e.1).sq = []) →
      (t.vd g.vd).err.erprod = b.erprod + 1 ∧
      let a := l.place b.slot
      t.hostNat a 4 = b.seq.toNat ∧ t.hostNat (a + 16) 8 = g.gname.toNat ∧ t.hostNat (a + 24) 8 = x.pc.toNat ∧
      (x.cause.cause < 32 → t.hostNat (a + 32) 4 % 32 = x.cause.cause) ∧ t.hostNat (a + 36) 4 = x.cause.td0.toNat ∧ t.hostNat (a + 40) 4 = x.cause.td1.toNat ∧
      t.hostNat (a + 44) 4 = x.cause.td2.toNat := by
  intro b t
  have hget : mget {} s.groups key = g := by rw [mget, hg]; rfl
  have hcounts : (t.vd g.vd).err.seq = b.count.seq ∧ (t.vd g.vd).err.erlost = b.count.erlost ∧ (t.vd g.vd).err.erprod = b.count.erprod := by
    have h := State.counts_unhandled hg h x
    simpa [ErrBlock.counts] using h
  obtain ⟨hseq, herlost, herprod⟩ := hcounts
  obtain ⟨hnext, hroomy, hfull⟩ := b.count_counts
  refine ⟨fun e he => ?_, hseq.trans hnext, fun hroom => ?_, fun l hroom hw hhome hdev hsq => ⟨herprod.trans (hroomy hroom), ?_⟩⟩
  · have he' : e ∈ (s.endTeam key x.cause x.pc).groups := State.tryTrap_unhandled hg h x ▸ he
    have := s.endTeam_none_left key x.cause x.pc he'
    rwa [hget] at this
  · obtain ⟨hlost, hprod⟩ := hfull hroom
    exact ⟨herlost.trans hlost, herprod.trans hprod⟩
  · exact State.record_read (x := trapInfo g x) (State.host_unhandled hg h x hroom hw hhome hdev hsq)
end Sys2Proof.Machine
end

section
/-! PROOF. Consumed tags and refused destinations: FAULTPOISON, DATAPOISON, unwinding and SHAPE (O24). -/
namespace Sys2Proof.Machine

/-! ## Unwinding (R130, R343) -/

theorem State.table_binops (s : State) (bs : List BinOp) : ({ s with binops := bs } : State).table = s.table := rfl
theorem State.table_updVd (s : State) (n : Nat) (f : VD → VD) : (s.updVd n f).table = s.table := rfl
theorem State.table_faultDiscard (s : State) (n : Nat) (p : FaultReq → Bool) : (s.faultDiscard n p).table = s.table := rfl
/-- The issuing group, changed in a state of the same table. -/
theorem State.grp_updGroup_of_table {s u : State} (h : u.table = s.table) (hp : mfind s.groups s.iss.key = some s.grp) (f : Group → Group) :
    (u.updGroup s.iss.key f).bumpFree.grp = f s.grp := by
  obtain ⟨hgroups, hiss⟩ := Prod.mk.inj h
  have hfind : mfind u.groups s.iss.key = some s.grp := hgroups ▸ hp
  unfold State.updGroup
  rw [hfind]
  show mget ({} : Group) (mset _ _ _) u.iss.key = _
  rw [hiss, mget_mset_self]
/-- A group unwinds to its innermost region: that closes, and every live lane is at its handler. -/
theorem State.unwindTo_innermost {s : State} (hp : mfind s.groups s.iss.key = some s.grp) {r : Region} {rs : List Region} (hr : s.grp.regions = r :: rs) (c : Pending) :
    let h := (s.unwindTo s.iss.key r.ident c).grp
    h.regions = rs ∧ h.unw = true ∧ h.tc = BitVec.ofNat 5 c.cause ∧ h.td0 = c.td0 ∧ h.wait = {} ∧
      h.pcs = s.grp.pcs.map fun p => p.map fun _ => r.handler := by
  have hcancel (p : Nat → Bool) : (s.cancelRegion s.iss.key p).table = s.table :=
    (State.table_cancelJobs _ _).trans (s.table_cancelCopies _)
  unfold State.unwindTo
  dsimp only
  rw [show mget {} s.groups s.iss.key = s.grp from rfl, hr, List.find?_cons_of_pos (by simp)]
  dsimp only
  rw [List.takeWhile_cons_of_neg (by simp)]
  rw [State.grp_updGroup_of_table ?_ hp]
  · refine ⟨?_, rfl, rfl, rfl, rfl, rfl⟩
    show s.grp.regions.drop 1 = rs
    rw [hr]; rfl
  · rw [State.table_binops, State.table_updVd, State.table_faultDiscard]
    exact hcancel _

/-! ## Consumed tags (R130, R248, R383) -/

/-- Lane `l` is the lowest of a mask. -/
def Lowest (m : Word) (l : Nat) : Prop := l < 32 ∧ m.getLsbD l = true ∧ ∀ k < l, m.getLsbD k = false
theorem lowLane_of_lowest {m : Word} {l : Nat} (h : Lowest m l) : lowLane m = l := by
  obtain ⟨hl, hm, hlow⟩ := h
  have hfind : (lanesOf m).head? = some l := by
    rw [lanesOf, List.head?_filter, List.find?_range_eq_some]
    exact ⟨hm, List.mem_range.2 hl, fun k hk => by simp [hlow k hk]⟩
  rw [lowLane, hfind]; rfl
/-- What the tags of consumed operands do: fault-pending traps FAULTPOISON, and data-poison alone unwinds or traps DATAPOISON. -/
def State.Consumes (s : State) (xs : List Consumed) (consumer : Nat) (r : Out) : Prop :=
  (∀ x l, (xs.find? fun x => x.fp &&& x.lanes != 0) = some x → Lowest (x.fp &&& x.lanes) l →
    r = .next (s.trap ⟨7, BitVec.ofNat 32 (x.field + l * 1024), mget 0 s.grp.dftok l, 0, 0⟩ .fresh)) ∧
  ((∀ x ∈ xs, x.fp &&& x.lanes = 0) → ∀ x l, (xs.find? fun x => x.dp &&& x.lanes != 0) = some x → Lowest (x.dp &&& x.lanes) l →
    let c : Pending := ⟨8, BitVec.ofNat 32 (x.field + l * 1024 + consumer * 32768), 0, 0, 0⟩
    (s.grp.regions = [] → r = .next (s.trap c .fresh)) ∧
    (∀ rg rs, s.grp.regions = rg :: rs → ∃ t, r = .next t ∧ t.grp.regions = rs ∧ t.grp.unw = true ∧ t.grp.tc = 8 ∧ t.grp.td0 = c.td0 ∧ t.grp.wait = {} ∧
      ∀ k < 32, t.grp.pcs.getD k none = if (s.grp.pcs.getD k none).isSome then some rg.handler else none))
theorem State.consumes_consume {s : State} (hp : mfind s.groups s.iss.key = some s.grp) (xs : List Consumed) (consumer : Nat) (k : State → State) :
    s.Consumes xs consumer (.next (s.consume consumer 0 xs k)) := by
  refine ⟨fun x l hx hl => ?_, fun hclean x l hx hl => ?_⟩
  · unfold State.consume
    rw [hx]
    dsimp only
    rw [lowLane_of_lowest hl]
    rfl
  · have hconsume : s.consume consumer 0 xs k = s.unwindOrTrap ⟨8, BitVec.ofNat 32 (x.field + l * 1024 + consumer * 32768), 0, 0, 0⟩ .fresh := by
      unfold State.consume
      rw [find_tagged hclean]
      dsimp only
      rw [hx]
      dsimp only
      rw [lowLane_of_lowest hl]
      rfl
    rw [hconsume]
    refine ⟨fun hnone => ?_, fun rg rs hr => ⟨_, rfl, ?_⟩⟩
    · unfold State.unwindOrTrap State.unwindElse
      rw [show mget {} s.groups s.iss.key = s.grp from rfl, hnone]
    · unfold State.unwindOrTrap State.unwindElse
      rw [show mget {} s.groups s.iss.key = s.grp from rfl, hr]
      obtain ⟨hregions, hunw, htc, htd0, hwait, hpcs⟩ := State.unwindTo_innermost hp hr ⟨8, BitVec.ofNat 32 (x.field + l * 1024 + consumer * 32768), 0, 0, 0⟩
      refine ⟨hregions, hunw, htc, htd0, hwait, fun j _ => ?_⟩
      rw [hpcs]
      simp only [List.getD_eq_getElem?_getD, List.getElem?_map]
      cases s.grp.pcs[j]? with
      | none => rfl
      | some p => cases p <;> rfl

/-! ## Lane accesses (R65, R248) -/

/-- A lane access that starts anew has every active lane before it. -/
theorem lanes_left {act pend pi : Word} (hact : act ≠ 0) (hpend : act &&& ~~~pend = 0) (hpi : pi = 0) :
    (decide (act = 0) || decide (act &&& pend &&& ~~~pi = 0)) = false := by
  have hsame : act &&& pend &&& ~~~pi = act := by
    subst hpi
    apply BitVec.eq_of_getLsbD_eq
    intro i hi
    have := congrArg (·.getLsbD i) hpend
    simp only [BitVec.getLsbD_and, BitVec.getLsbD_not, hi] at this ⊢
    cases ha : act.getLsbD i <;> simp_all
  rw [hsame, decide_eq_false hact]; rfl
section
variable {s : State} (hact : s.iss.act ≠ 0) (hpend : s.iss.act &&& ~~~s.iss.pend = 0) (hpi : s.iss.pi = 0)
include hact hpend hpi
/-- An access whose destination can hold general values consumes its operands first. -/
theorem State.laneMem_consumes (hp : mfind s.groups s.iss.key = some s.grp) {m : Access} (hfit : ∀ d ∈ m.dst, d < s.grp.ngen) (srcs : List Consumed)
    (eas : Nat → Nat) (refuse : Nat → Nat → Loc → Option Pending) (perform : State → List (Nat × Loc) → State) :
    s.Consumes srcs 0 (.next (s.laneMem m srcs eas refuse perform)) := by
  have hnone : (m.dst.find? fun d => decide (s.grp.ngen ≤ d) && (m.general || !s.grp.whole s.iss.act)) = none := by
    rw [List.find?_eq_none]
    intro d hd
    simp [Nat.not_le.2 (hfit d hd)]
  unfold State.laneMem
  dsimp only
  rw [if_neg (by rw [lanes_left hact hpend hpi]; decide), hnone]
  exact State.consumes_consume hp srcs 0 _
/-- A general result does not go into a register that holds compressed values alone. -/
theorem State.laneMem_shape {m : Access} (hgen : m.general = true) {r : Nat} (hr : (m.dst.find? fun d => decide (s.grp.ngen ≤ d)) = some r) (srcs : List Consumed)
    (eas : Nat → Nat) (refuse : Nat → Nat → Loc → Option Pending) (perform : State → List (Nat × Loc) → State) :
    s.laneMem m srcs eas refuse perform =
      s.trap (shapeCause (if m.pair then r / 2 * 2 else r) (!s.grp.whole s.iss.act) false s.iss.act) .fresh := by
  have hfind : (m.dst.find? fun d => decide (s.grp.ngen ≤ d) && (m.general || !s.grp.whole s.iss.act)) = some r := by
    simpa [hgen] using hr
  unfold State.laneMem
  dsimp only
  rw [if_neg (by rw [lanes_left hact hpend hpi]; decide), hfind]
end
/-! ## Refused destinations (R65, R336) -/

/-- The first register of a destination that is compressed-only names it, a pair by its even register. -/
theorem find_destRegs {o : Ops} {n : Nat} {is64 : Bool} (h : ∃ d ∈ destRegs o (if is64 then 2 else 1), n ≤ d) (heven : is64 = true → o.d.reg % 2 = 0) :
    ∃ r, ((destRegs o (if is64 then 2 else 1)).find? fun d => decide (n ≤ d)) = some r ∧ (if is64 then r / 2 * 2 else r) = o.d.reg := by
  obtain ⟨d, hd, hn⟩ := h
  cases hr : (destRegs o (if is64 then 2 else 1)).find? fun d => decide (n ≤ d) with
  | none => exact absurd hn (by simpa using List.find?_eq_none.1 hr d hd)
  | some r =>
    refine ⟨r, rfl, ?_⟩
    obtain ⟨j, hj, rfl⟩ := List.mem_map.1 (List.mem_of_find?_eq_some hr)
    have hlt := List.mem_range.1 hj
    cases is64 with
    | false => simp only [Bool.false_eq_true, if_false] at hlt ⊢; omega
    | true => have := heven rfl; simp only [if_true] at hlt ⊢; omega
theorem shapeCause_dest (reg : Nat) (whole : Bool) (act : Word) :
    shapeCause reg (!whole) false act = ⟨3, BitVec.ofNat 32 (reg + if whole then 0 else 1024), act, 0, 0⟩ := by
  cases whole <;> rfl
/-- A vector result is written to its register, or to both of its pair. -/
theorem State.vecOp_regs (s : State) (o : Ops) (cls : ShapeClass) (is64 : Bool) (xs : List WSrc) (f : List Nat → Nat) :
    (((vecShapes cls is64 xs f).zipIdx.map fun e => s.destW o.d e.2 e.1 (joinDp xs) (joinFp xs)).map (·.reg)) = destRegs o (if is64 then 2 else 1) := by
  unfold vecShapes
  dsimp only
  cases is64 with
  | false => split <;> rfl
  | true => rfl
/-- A result that does not cover the live lanes goes into no compressed-only register. -/
theorem State.vecOp_shape {s : State} {o : Ops} {is64 : Bool} (hact : s.iss.act ≠ 0) (hpart : s.grp.whole s.iss.act = false) {r : Nat}
    (hr : ((destRegs o (if is64 then 2 else 1)).find? fun d => decide (s.grp.ngen ≤ d)) = some r) (cls : ShapeClass) (xs : List WSrc) (f : List Nat → Nat) :
    s.vecOp o cls is64 xs f = s.trap (shapeCause (if is64 then r / 2 * 2 else r) true false s.iss.act) .fresh := by
  have hrefused : s.grp.refused s.iss.act = fun w => decide (s.grp.ngen ≤ w.reg) := by
    funext w
    simp [Group.refused, hpart]
  have hregs := s.vecOp_regs o cls is64 xs f
  unfold State.vecOp
  generalize (vecShapes cls is64 xs f).zipIdx.map _ = ws at hregs
  have hfind : s.grp.refusedReg s.iss.act is64 ws = some (if is64 then r / 2 * 2 else r) := by
    have hmap : (ws.find? fun w => decide (s.grp.ngen ≤ w.reg)).map (·.reg) = some r := by
      rw [← hr, ← hregs, List.find?_map]; rfl
    rw [Group.refusedReg, hrefused, hmap]; rfl
  unfold State.putV
  dsimp only
  rw [if_neg hact, hfind, hpart]
  rfl

/-- Settles O24: a trap by whether its group has a handler, consumed tags by their first operand and lowest lane, SHAPE by the first refused register. -/
theorem trapEntry : Obligations.TrapEntry := by
  unfold Obligations.TrapEntry
  refine ⟨fun key x s hg htvec hin harea hreqs hstore => State.tryTrap_enters hg htvec hin harea hreqs hstore,
    fun key x s hg hno => State.tryTrap_ends hg hno x, ?_⟩
  intro ty hint op sc od sx nodfr o s act dst b lowest consumes hpresent hact hpend hpi
  obtain ⟨hp, -⟩ := hpresent
  refine ⟨fun hfit => ⟨?_, ?_⟩, ?_, ?_, ?_, fun hbad heven => ?_⟩
  · exact State.laneMem_consumes hact hpend hpi hp hfit _ _ _ _
  · exact State.laneMem_consumes hact hpend hpi hp (m := atomAccess ty sc od dst) hfit _ _ _ _
  · exact State.laneMem_consumes hact hpend hpi hp (List.forall_mem_nil _) _ _ _ _
  · have hjoin : exec (.join o) s = .next (s.consume 0 0 [(s.uniA o).consumed o.a act]
        fun u => ((u.release s.iss.key .dev).joinRecord u.grp.vd (s.uniA o).val).finish) := congrArg Host.Outcome.next (State.ifActive_eq s _ hact)
    rw [hjoin]
    exact State.consumes_consume hp _ 0 _
  · have hbrx : s.Consumes (s.guardConsumed o.g ++ [(s.srcA o true).consumed o.a act]) 1 (.next (s.jumpTo o)) := by
      unfold State.jumpTo
      exact State.consumes_consume hp _ 1 _
    exact hbrx
  · obtain ⟨r, hr, hreg⟩ := find_destRegs hbad heven
    have hshape : s.trap (shapeCause (if ty.is64 then r / 2 * 2 else r) (!s.grp.whole act) false act) .fresh =
        s.trap ⟨3, BitVec.ofNat 32 (o.d.reg + if s.grp.whole act then 0 else 1024), act, 0, 0⟩ .fresh := by rw [hreg, shapeCause_dest]
    refine ⟨congrArg Host.Outcome.next ((State.laneMem_shape hact hpend hpi rfl hr _ _ _ _).trans hshape),
      congrArg Host.Outcome.next ((State.laneMem_shape hact hpend hpi (m := atomAccess ty sc od dst) rfl hr _ _ _ _).trans hshape), fun hpart => ?_⟩
    refine congrArg Host.Outcome.next ((State.vecOp_shape hact hpart hr _ _ _).trans (Eq.trans ?_ hshape))
    rw [hpart]; rfl
end Sys2Proof.Machine
end

section
/-! PROOF. Lane-wise results: what a lane instruction completes with, and the shapes that R68 gives its result. -/
namespace Sys2Proof.Machine

/-! ## Completion (R69, R182) -/

/-- Only what the lanes take matters of the function that a lane instruction computes. -/
theorem State.LaneOp.congr {s : State} {o : Ops} {d64 : Bool} {xs : List WSrc} {f g : List Nat → Nat} {r : Out} (h : s.LaneOp o d64 xs f r)
    (hfg : ∀ l < 32, f (xs.map fun x => x.at l) = g (xs.map fun x => x.at l)) : s.LaneOp o d64 xs g r := by
  intro hact hfit
  obtain ⟨t, ht, hdone⟩ := h hact hfit
  exact ⟨t, ht, hdone.congr hfg fun _ _ => rfl⟩
/-- An instruction that R68 gives no affine result completes with any function that agrees with it on the lanes. -/
theorem State.laneOp_other (s : State) (o : Ops) (d64 : Bool) (xs : List WSrc) {f g : List Nat → Nat}
    (hfg : ∀ l < 32, f (xs.map fun x => x.at l) = g (xs.map fun x => x.at l)) : s.LaneOp o d64 xs g (.next (s.vecOp o .other d64 xs f)) :=
  (s.laneOp_vecOp o .other d64 xs f (fun _ _ => shapeRight_other _ _) (by decide)).congr hfg
/-- A register's lane value is a word. -/
theorem WSrc.at_lt_word {x : WSrc} (h : x.is64 = false) (l : Nat) : x.at l < 2 ^ 32 := by
  simpa [h] using x.at_lt l
/-- A lane value read at a type of a register's or a pair's width has that width. -/
theorem WSrc.at_lt_width {ty : Ty} (hw : ty.width = 32 ∨ ty.width = 64) {x : WSrc} (h : x.is64 = ty.is64) (l : Nat) : x.at l < 2 ^ ty.width := by
  have hlt := x.at_lt l
  rw [h, Ty.is64] at hlt
  rcases hw with hw | hw <;> simpa [hw] using hlt
theorem Ty.width_of_not_is64 {ty : Ty} (hw : ty.width = 32 ∨ ty.width = 64) (h : ty.is64 = false) : ty.width = 32 :=
  hw.resolve_right fun h64 => by simp [Ty.is64, h64] at h

/-! ## Affine results (R68) -/

/-- A linear combination of words. -/
def linear (cs ws : List Word) : Word := (List.zipWith (· * ·) cs ws).sum
@[simp] theorem linear_nil (cs : List Word) : linear cs [] = 0 := by simp [linear]
@[simp] theorem linear_cons (c w : Word) (cs ws : List Word) : linear (c :: cs) (w :: ws) = c * w + linear cs ws := by simp [linear]
/-- Linear combinations of bases and strides give that of the lanes. -/
theorem linear_affine (cs : List Word) (xs : List Shape) (b t : Shape → Word) (k : Word) :
    linear cs (xs.map fun x => b x + k * t x) = linear cs (xs.map b) + k * linear cs (xs.map t) := by
  induction xs generalizing cs with
  | nil => simp
  | cons x xs ih =>
    cases cs with
    | nil => simp [linear]
    | cons c cs => simp only [List.map_cons, linear_cons, ih cs]; ring
/-- The additive class is right for a linear combination of the sources. -/
theorem shapeRight_linear (cs : List Word) {los : List Shape} {f : List Nat → Nat}
    (hf : ∀ g : Shape → Word, BitVec.ofNat 32 (f (los.map fun x => (g x).toNat)) = linear cs (los.map g)) : ShapeRight .additive los f := by
  refine shapeRight_additive los f fun _ l _ => ?_
  rw [hf, hf, hf, linear_affine]
/-- A product of bases and strides with one factor is that of the lanes. -/
theorem affine_of_mul {f : Nat → Nat} {k : Word} (hf : ∀ a : Word, BitVec.ofNat 32 (f a.toNat) = a * k) (b t l : Word) :
    BitVec.ofNat 32 (f b.toNat) + l * BitVec.ofNat 32 (f t.toNat) = BitVec.ofNat 32 (f (b + l * t).toNat) := by
  rw [hf, hf, hf]; ring
/-- The class of shifts is right for a product of the first source with a function of the second. -/
theorem shapeRight_scaleShl (x y : Shape) (k : Word → Word) {f : List Nat → Nat}
    (hf : ∀ a u : Word, BitVec.ofNat 32 (f [a.toNat, u.toNat]) = a * k u) : ShapeRight .scaleShl [x, y] f := by
  intro l hl
  rcases x with u | ⟨b, t⟩ | ws <;> rcases y with v | ⟨c, w⟩ | zs
  case affine.uniform => exact affine_of_mul (f := fun a => f [a, v.toNat]) (fun a => hf a v) b t _
  case uniform.uniform => rfl
  all_goals exact Shape.lane_general _ hl
/-- The class of products is right for a product. -/
theorem shapeRight_scaleMul (x y : Shape) {f : List Nat → Nat}
    (hf : ∀ a u : Word, BitVec.ofNat 32 (f [a.toNat, u.toNat]) = a * u) : ShapeRight .scaleMul [x, y] f := by
  intro l hl
  rcases x with u | ⟨b, t⟩ | ws <;> rcases y with v | ⟨c, w⟩ | zs
  case affine.uniform => exact affine_of_mul (f := fun a => f [a, v.toNat]) (fun a => hf a v) b t _
  case uniform.affine => exact affine_of_mul (f := fun a => f [u.toNat, a]) (fun a => (hf u a).trans (mul_comm u a)) c w _
  case uniform.uniform => rfl
  all_goals exact Shape.lane_general _ hl

theorem ofNat_toNat_self {n : Nat} (x : BitVec n) : BitVec.ofNat n x.toNat = x := by rw [BitVec.ofNat_toNat, BitVec.setWidth_eq]

section
variable {n : Nat} (hn : n = 32) (x y z : Shape)
include hn

theorem shapeRight_add : ShapeRight .additive [x, y] fun v => (BitVec.ofNat n (v.getD 0 0) + BitVec.ofNat n (v.getD 1 0)).toNat := by
  subst hn
  refine shapeRight_linear [1, 1] fun g => ?_
  simp only [ofNat_toNat_self, List.map, List.getD_cons_zero, List.getD_cons_succ, linear_cons, linear_nil]
  ring
theorem shapeRight_add3 :
    ShapeRight .additive [x, y, z] fun v => (BitVec.ofNat n (v.getD 0 0) + BitVec.ofNat n (v.getD 1 0) + BitVec.ofNat n (v.getD 2 0)).toNat := by
  subst hn
  refine shapeRight_linear [1, 1, 1] fun g => ?_
  simp only [ofNat_toNat_self, List.map, List.getD_cons_zero, List.getD_cons_succ, linear_cons, linear_nil]
  ring
theorem shapeRight_sub : ShapeRight .additive [x, y] fun v => (BitVec.ofNat n (v.getD 0 0) - BitVec.ofNat n (v.getD 1 0)).toNat := by
  subst hn
  refine shapeRight_linear [1, -1] fun g => ?_
  simp only [ofNat_toNat_self, List.map, List.getD_cons_zero, List.getD_cons_succ, linear_cons, linear_nil]
  ring
theorem shapeRight_mul : ShapeRight .scaleMul [x, y] fun v => (BitVec.ofNat n (v.getD 0 0) * BitVec.ofNat n (v.getD 1 0)).toNat := by
  subst hn
  refine shapeRight_scaleMul x y fun a u => ?_
  simp only [ofNat_toNat_self, List.getD_cons_zero, List.getD_cons_succ]
theorem shapeRight_shiftLeft : ShapeRight .scaleShl [x, y] fun v => (BitVec.ofNat n (v.getD 0 0) <<< v.getD 1 0).toNat := by
  subst hn
  refine shapeRight_scaleShl x y (fun u => BitVec.twoPow 32 u.toNat) fun a u => ?_
  simp only [ofNat_toNat_self, List.getD_cons_zero, List.getD_cons_succ, BitVec.shiftLeft_eq_mul_twoPow]
end

/-! ## Integer sources and results (R187) -/

theorem Ty.int_eq_intOf (ty : Ty) (x : Nat) : ty.int x = Ty.intOf ty x := by
  unfold Ty.int Ty.intOf
  rw [sext_eq_toInt x ty.width_pos, zext_eq_toNat]
/-- Reading a type's bits and wrapping again gives the bits. -/
@[simp] theorem ofInt_intOf (ty : Ty) (x : Nat) : BitVec.ofInt ty.width (Ty.intOf ty x) = BitVec.ofNat ty.width x := by
  unfold Ty.intOf
  split
  · exact BitVec.ofInt_toInt
  · rw [BitVec.ofInt_natCast, BitVec.ofNat_toNat, BitVec.setWidth_eq]

section
variable (s : State) {ty : Ty} (hw : ty.width = 32 ∨ ty.width = 64) (o : Ops) {c : ShapeClass} {F : List Nat → BitVec ty.width}
include hw

/-- A lane instruction whose result is the type's bits completes so, if its class is right for one register. -/
theorem State.laneOp_bits (hc : c ≠ .general) (xs : List WSrc) {f : List Nat → Int} (hF : ∀ v, BitVec.ofInt ty.width (f v) = F v)
    (hright : ty.width = 32 → ShapeRight c (xs.map fun x => x.src.lo) fun v => (F v).toNat) :
    s.LaneOp o ty.is64 xs (fun v => (F v).toNat) (.next (s.vecOp o c ty.is64 xs fun v => wrap (f v) ty.width)) := by
  simp only [wrap_eq_toNat_ofInt, hF]
  exact s.laneOp_vecOp o c ty.is64 xs _ (fun h32 _ => hright (Ty.width_of_not_is64 hw h32)) hc
theorem State.laneOp_int1 {f : Int → Int} (hF : ∀ v, BitVec.ofInt ty.width (f (Ty.intOf ty (v.getD 0 0))) = F v) :
    s.LaneOp o ty.is64 [s.vA o ty.is64] (fun v => (F v).toNat) (.next (s.int1 ty o .other f)) :=
  s.laneOp_bits hw o (by decide) _ (fun v => by rw [Ty.int_eq_intOf, hF]) fun _ => shapeRight_other _ _
theorem State.laneOp_int2 (hc : c ≠ .general) {f : Int → Int → Int}
    (hF : ∀ v, BitVec.ofInt ty.width (f (Ty.intOf ty (v.getD 0 0)) (Ty.intOf ty (v.getD 1 0))) = F v)
    (hright : ty.width = 32 → ∀ x y, ShapeRight c [x, y] fun v => (F v).toNat) :
    s.LaneOp o ty.is64 [s.vA o ty.is64, s.vB o ty.is64] (fun v => (F v).toNat) (.next (s.int2 ty o c f)) :=
  s.laneOp_bits hw o hc _ (fun v => by rw [Ty.int_eq_intOf, Ty.int_eq_intOf, hF]) fun h32 => hright h32 _ _
theorem State.laneOp_int2_other {f : Int → Int → Int}
    (hF : ∀ v, BitVec.ofInt ty.width (f (Ty.intOf ty (v.getD 0 0)) (Ty.intOf ty (v.getD 1 0))) = F v) :
    s.LaneOp o ty.is64 [s.vA o ty.is64, s.vB o ty.is64] (fun v => (F v).toNat) (.next (s.int2 ty o .other f)) :=
  s.laneOp_int2 hw o (by decide) hF fun _ _ _ => shapeRight_other _ _
theorem State.laneOp_int3 (hc : c ≠ .general) {f : Int → Int → Int → Int}
    (hF : ∀ v, BitVec.ofInt ty.width (f (Ty.intOf ty (v.getD 0 0)) (Ty.intOf ty (v.getD 1 0)) (Ty.intOf ty (v.getD 2 0))) = F v)
    (hright : ty.width = 32 → ∀ x y z, ShapeRight c [x, y, z] fun v => (F v).toNat) :
    s.LaneOp o ty.is64 [s.vA o ty.is64, s.vBfield o ty.is64, s.vC o ty.is64] (fun v => (F v).toNat) (.next (s.int3 ty o c f)) :=
  s.laneOp_bits hw o hc _ (fun v => by rw [Ty.int_eq_intOf, Ty.int_eq_intOf, Ty.int_eq_intOf, hF]) fun h32 => hright h32 _ _ _
/-- A shift, whose count is one register. -/
theorem State.laneOp_shift (hc : c ≠ .general) {f : Int → Nat → Int}
    (hF : ∀ v, BitVec.ofInt ty.width (f (Ty.intOf ty (v.getD 0 0)) (v.getD 1 0)) = F v)
    (hright : ty.width = 32 → ∀ x y, ShapeRight c [x, y] fun v => (F v).toNat) :
    s.LaneOp o ty.is64 [s.vA o ty.is64, s.vB o false] (fun v => (F v).toNat) (.next (s.shift ty o c f)) :=
  s.laneOp_bits hw o hc _ (fun v => by rw [Ty.int_eq_intOf, hF]) fun h32 => hright h32 _ _
end
end Sys2Proof.Machine
end

section
/-! PROOF. Integer arithmetic: sums, products and comparisons wrap, saturations clamp (O8, O9). -/
namespace Sys2Proof.Machine

/-! ## Wrapping arithmetic (R187) -/

theorem ofInt_sub (n : Nat) (x y : Int) : BitVec.ofInt n (x - y) = BitVec.ofInt n x - BitVec.ofInt n y := by
  rw [sub_eq_add_neg, BitVec.ofInt_add, BitVec.ofInt_neg, ← sub_eq_add_neg]
/-- The magnitude of a number in two's complement. -/
theorem ofInt_natAbs_toInt {n : Nat} (x : BitVec n) : BitVec.ofInt n x.toInt.natAbs = x.abs := by
  rw [BitVec.abs_eq]
  split
  next h =>
    have hneg : x.toInt < 0 := by simpa [BitVec.msb_eq_toInt] using h
    rw [show (x.toInt.natAbs : Int) = -x.toInt by omega, BitVec.ofInt_neg, BitVec.ofInt_toInt]
  next h =>
    have hpos : ¬x.toInt < 0 := by simpa [BitVec.msb_eq_toInt] using h
    rw [show (x.toInt.natAbs : Int) = x.toInt by omega, BitVec.ofInt_toInt]

/-- Settles O8, instruction by instruction. -/
theorem integerArithmetic : Obligations.IntegerArithmetic := by
  unfold Obligations.IntegerArithmetic
  intro ty o s hw n x int one two three
  refine ⟨s.laneOp_int2 hw o (by decide) (fun v => ?_) fun h32 => shapeRight_add h32,
    s.laneOp_int3 hw o (by decide) (fun v => ?_) fun h32 => shapeRight_add3 h32,
    s.laneOp_int2 hw o (by decide) (fun v => ?_) fun h32 => shapeRight_sub h32,
    s.laneOp_int2 hw o (by decide) (fun v => ?_) fun h32 => shapeRight_mul h32,
    s.laneOp_int2_other hw o fun v => rfl,
    s.laneOp_int3 hw o (by decide) (fun v => ?_) fun _ _ _ _ => shapeRight_other _ _,
    fun hs => s.laneOp_int1 hw o fun v => ?_, s.laneOp_int2_other hw o fun v => ?_, s.laneOp_int2_other hw o fun v => ?_⟩
  · simp only [Bool.false_eq_true, if_false, BitVec.ofInt_add, ofInt_intOf]; rfl
  · simp only [BitVec.ofInt_add, ofInt_intOf]; rfl
  · simp only [Bool.false_eq_true, if_false, ofInt_sub, ofInt_intOf]; rfl
  · simp only [BitVec.ofInt_mul, ofInt_intOf]; rfl
  · simp only [BitVec.ofInt_add, BitVec.ofInt_mul, ofInt_intOf]; rfl
  · simp only [Ty.intOf, hs, if_true, Bool.false_eq_true, if_false]
    exact ofInt_natAbs_toInt _
  · rw [min_def, apply_ite (BitVec.ofInt ty.width), ofInt_intOf, ofInt_intOf]; rfl
  · rw [max_def, apply_ite (BitVec.ofInt ty.width), ofInt_intOf, ofInt_intOf]; rfl

/-! ## Saturation (R187) -/

/-- A saturated result is the exact one clamped to the type. -/
theorem ofInt_sat (ty : Ty) (x : Int) :
    BitVec.ofInt ty.width (Ty.sat ty x) = BitVec.ofInt ty.width (max (leastInt ty.isS ty.width) (min x (greatestInt ty.isS ty.width))) := by
  unfold Ty.sat leastInt greatestInt
  split <;> rw [BitVec.ofInt_natCast] <;> exact ofNat_wrap _ _

/-! ## Widening products and byte products (R188, R192) -/

/-- A byte of a word, signed or not, as the bits of the word. -/
theorem byteInt_eq (sg : Bool) (x : Nat) {i : Nat} (hi : i < 4) :
    byteInt sg x i = if sg then ((BitVec.ofNat 32 x).extractLsb' (8 * i) 8).toInt else (((BitVec.ofNat 32 x).extractLsb' (8 * i) 8).toNat : Int) := by
  have hbyte : BitVec.ofNat 8 (x / 256 ^ i) = (BitVec.ofNat 32 x).extractLsb' (8 * i) 8 := by
    apply BitVec.eq_of_toNat_eq
    rw [BitVec.extractLsb'_toNat, BitVec.toNat_ofNat, BitVec.toNat_ofNat, Nat.shiftRight_eq_div_pow]
    interval_cases i <;> norm_num <;> omega
  unfold byteInt
  rw [sext_eq_toInt _ (by decide), zext_eq_toNat, hbyte]
/-- The sum of IDOT4: the four products of bytes added to c in turn. -/
theorem foldl_byteInt (asg bsg : Bool) (a b : Nat) (c : Int) :
    (List.range 4).foldl (fun n i => n + byteInt asg a i * byteInt bsg b i) c =
      c + byteInt asg a 0 * byteInt bsg b 0 + byteInt asg a 1 * byteInt bsg b 1 + byteInt asg a 2 * byteInt bsg b 2 + byteInt asg a 3 * byteInt bsg b 3 := rfl

theorem wrap_imadw_signed (a b c : Nat) : wrap (sext a 32 * sext b 32 + sext c 64) 64 =
    ((BitVec.ofNat 32 a).signExtend 64 * (BitVec.ofNat 32 b).signExtend 64 + BitVec.ofNat 64 c).toNat := by
  rw [wrap_eq_toNat_ofInt, BitVec.ofInt_add, BitVec.ofInt_mul, sext_eq_toInt _ (by decide), sext_eq_toInt _ (by decide), sext_eq_toInt _ (by decide),
    BitVec.ofInt_toInt]
  rfl
theorem wrap_imadw_unsigned (a b c : Nat) : wrap ((zext a 32 : Int) * zext b 32 + c) 64 =
    ((BitVec.ofNat 32 a).setWidth 64 * (BitVec.ofNat 32 b).setWidth 64 + BitVec.ofNat 64 c).toNat := by
  rw [wrap_eq_toNat_ofInt, BitVec.ofInt_add, BitVec.ofInt_mul, zext_eq_toNat, zext_eq_toNat, BitVec.ofInt_natCast, BitVec.ofInt_natCast,
    BitVec.ofInt_natCast, BitVec.ofNat_toNat, BitVec.ofNat_toNat]

/-- Settles O9, instruction by instruction. -/
theorem integerWideAndSaturating : Obligations.IntegerWideAndSaturating := by
  unfold Obligations.IntegerWideAndSaturating
  intro ty o s asg bsg hw n x int lo hi clamp two byte dot words
  have hdot (v : List Nat) :
      (List.range 4).foldl (fun n i => n + byteInt asg (v.getD 0 0) i * byteInt bsg (v.getD 1 0) i) (sext (v.getD 2 0) 32) = dot v := by
    rw [foldl_byteInt, sext_eq_toInt _ (by decide), byteInt_eq _ _ (by decide : 0 < 4), byteInt_eq _ _ (by decide : 0 < 4),
      byteInt_eq _ _ (by decide : 1 < 4), byteInt_eq _ _ (by decide : 1 < 4), byteInt_eq _ _ (by decide : 2 < 4),
      byteInt_eq _ _ (by decide : 2 < 4), byteInt_eq _ _ (by decide : 3 < 4), byteInt_eq _ _ (by decide : 3 < 4)]
  refine ⟨s.laneOp_int2_other hw o fun v => ofInt_sat ty _, s.laneOp_int2_other hw o fun v => ofInt_sat ty _,
    s.laneOp_int1 hw o fun v => ofInt_sat ty _, s.laneOp_other o true _ fun l _ => ?_, s.laneOp_other o true _ fun l _ => ?_,
    s.laneOp_other o false _ fun l _ => ?_, s.laneOp_other o false _ fun l _ => ?_⟩
  · exact wrap_imadw_signed _ _ _
  · exact wrap_imadw_unsigned _ _ _
  · rw [hdot]; exact wrap_eq_toNat_ofInt _ _
  · rw [hdot]; exact wrap_eq_toNat_ofInt _ _
end Sys2Proof.Machine
end

section
/-! PROOF. Logic, shifts and counts as operations on bit vectors (O10). -/
namespace Sys2Proof.Machine

/-! ## Logic (R187) -/

theorem intOf_unsigned {ty : Ty} (h : ty.isS = false) (x : Nat) : Ty.intOf ty x = (BitVec.ofNat ty.width x).toNat := by
  simp only [Ty.intOf, h, Bool.false_eq_true, if_false]
theorem intOf_signed {ty : Ty} (h : ty.isS = true) (x : Nat) : Ty.intOf ty x = (BitVec.ofNat ty.width x).toInt := by
  simp only [Ty.intOf, h, if_true]
/-- A logical operation on the unsigned values of bits is that of the bits. -/
theorem ofInt_bitOp {n : Nat} {f : Nat → Nat → Nat} {x y z : BitVec n} (hf : z.toNat = f x.toNat y.toNat) :
    BitVec.ofInt n (bitOp f x.toNat y.toNat) = z := by
  rw [bitOp, Int.toNat_natCast, Int.toNat_natCast, ← hf, BitVec.ofInt_natCast, ofNat_toNat_self]
theorem ofInt_not {n : Nat} (x : BitVec n) : BitVec.ofInt n (2 ^ n - 1 - x.toNat) = ~~~x := by
  have hlt := x.isLt
  have hcast : (2 ^ n - 1 - x.toNat : Int) = (~~~x).toNat := by
    rw [BitVec.toNat_not, Nat.cast_sub (by omega), Nat.cast_sub Nat.one_le_two_pow]; push_cast; rfl
  rw [hcast, BitVec.ofInt_natCast, ofNat_toNat_self]

/-! ## Shifts (R164, R187, R189) -/

theorem ofInt_two_pow (n k : Nat) : BitVec.ofInt n (2 ^ k) = BitVec.twoPow n k := by
  rw [show (2 ^ k : Int) = (2 ^ k : Nat) by norm_cast, BitVec.ofInt_natCast]
  exact BitVec.eq_of_toNat_eq (by rw [BitVec.toNat_ofNat, BitVec.toNat_twoPow])
theorem ofInt_shlInt {n : Nat} (a : Int) (b : Nat) : BitVec.ofInt n (shlInt n a b) = BitVec.ofInt n a <<< b := by
  unfold shlInt
  split
  next =>
    rw [BitVec.ofInt_mul, ofInt_two_pow, BitVec.shiftLeft_eq_mul_twoPow]
  next h => rw [BitVec.shiftLeft_eq_zero (by omega)]; rfl
theorem ofInt_shrInt {n : Nat} (x : BitVec n) (b : Nat) : BitVec.ofInt n (shrInt n x.toNat b) = x >>> b := by
  have hcast : shrInt n x.toNat b = (x >>> b).toNat := by
    rw [BitVec.toNat_ushiftRight, Nat.shiftRight_eq_div_pow, shrInt]
    split
    · push_cast; rfl
    next h =>
      have hlt : x.toNat < 2 ^ b := x.isLt.trans_le (Nat.pow_le_pow_right (by decide) (by omega))
      rw [Nat.div_eq_of_lt hlt]; rfl
  rw [hcast, BitVec.ofInt_natCast, ofNat_toNat_self]
/-- Shifted by its width or further, a number in two's complement is its sign. -/
theorem toInt_ediv_two_pow {n b : Nat} (x : BitVec n) (h : n ≤ b) : x.toInt / 2 ^ b = if x.toInt < 0 then -1 else 0 := by
  have hpow : (2 : Int) ^ n ≤ 2 ^ b := pow_le_pow_right₀ (by norm_num) h
  have hlo := x.le_two_mul_toInt
  have hhi := x.two_mul_toInt_lt
  split
  · exact (Int.ediv_eq_iff_of_pos (by positivity)).2 ⟨by omega, by omega⟩ 
  · exact Int.ediv_eq_zero_of_lt (by omega) (by omega)
theorem ofInt_sraInt {n : Nat} (x : BitVec n) (b : Nat) : BitVec.ofInt n (sraInt n x.toInt b) = x.sshiftRight b := by
  have hdiv : x.toInt / 2 ^ min b n = x.toInt / 2 ^ b := by
    rcases Nat.le_total b n with h | h
    · rw [Nat.min_eq_left h]
    · rw [Nat.min_eq_right h, toInt_ediv_two_pow x le_rfl, toInt_ediv_two_pow x h]
  rw [sraInt, hdiv, BitVec.sshiftRight_eq, Int.shiftRight_eq_div_pow]
  norm_cast

theorem toNat_append_eq {m n : Nat} (x : BitVec m) (y : BitVec n) : (x ++ y).toNat = x.toNat * 2 ^ n + y.toNat := by
  rw [BitVec.toNat_append, ← Nat.shiftLeft_add_eq_or_of_lt y.isLt, Nat.shiftLeft_eq]
/-- A word above another. -/
theorem toNat_append_word {a b : Nat} (ha : a < 2 ^ 32) (hb : b < 2 ^ 32) : (BitVec.ofNat 32 b ++ BitVec.ofNat 32 a).toNat = b * 2 ^ 32 + a := by
  rw [toNat_append_eq, BitVec.toNat_ofNat, BitVec.toNat_ofNat, Nat.mod_eq_of_lt ha, Nat.mod_eq_of_lt hb]
section
variable {a b : Nat} (ha : a < 2 ^ 32) (hb : b < 2 ^ 32) (wrp : Bool) (c : Nat)
include ha hb
theorem funnel_right : funnel true wrp a b c =
    (((BitVec.ofNat 32 b ++ BitVec.ofNat 32 a) >>> (if wrp then c % 32 else min c 32)).setWidth 32).toNat := by
  rw [BitVec.toNat_setWidth, BitVec.toNat_ushiftRight, toNat_append_word ha hb, Nat.shiftRight_eq_div_pow]
  simp only [funnel, if_true]
theorem funnel_left : funnel false wrp a b c =
    (((BitVec.ofNat 32 b ++ BitVec.ofNat 32 a) <<< (if wrp then c % 32 else min c 32)).extractLsb' 32 32).toNat := by
  rw [BitVec.extractLsb'_toNat, BitVec.toNat_shiftLeft, toNat_append_word ha hb, Nat.shiftRight_eq_div_pow, Nat.shiftLeft_eq,
    show 2 ^ (32 + 32) = 2 ^ 32 * 2 ^ 32 from rfl, Nat.mod_mul_right_div_self, Nat.mod_mod]
  simp only [funnel, Bool.false_eq_true, if_false]
end

/-! ## Bit order (R189) -/

theorem bitRev_lt (n x : Nat) : bitRev n x < 2 ^ n := by
  induction n generalizing x with
  | zero => simp [bitRev]
  | succ n ih =>
    have := ih (x / 2)
    have : x % 2 * 2 ^ n ≤ 1 * 2 ^ n := Nat.mul_le_mul_right _ (by omega)
    rw [bitRev, pow_succ]; omega
theorem testBit_bitRev (n x i : Nat) : (bitRev n x).testBit i = (decide (i < n) && x.testBit (n - 1 - i)) := by
  induction n generalizing x i with
  | zero => simp [bitRev]
  | succ n ih =>
    rw [bitRev, Nat.mul_comm, Nat.testBit_two_pow_mul_add _ (bitRev_lt n _), ih]
    rcases lt_trichotomy i n with h | rfl | h
    · rw [if_pos h, decide_eq_true h, decide_eq_true (by omega : i < n + 1), Nat.testBit_div_two, show n - 1 - i + 1 = n + 1 - 1 - i by omega]
    · simp [Nat.testBit_zero]
    · rw [if_neg (by omega), decide_eq_false (by omega : ¬i < n + 1)]
      simpa using Nat.testBit_lt_two_pow ((Nat.mod_lt x (by decide)).trans_le (Nat.pow_le_pow_right (n := 2) (by decide) (by omega : 1 ≤ i - n)))
theorem bitRev_eq_reverse (n x : Nat) : bitRev n x = (BitVec.ofNat n x).reverse.toNat := by
  refine Nat.eq_of_testBit_eq fun i => ?_
  rw [testBit_bitRev, BitVec.testBit_toNat, BitVec.getLsbD_reverse, BitVec.getMsbD_eq_getLsbD, BitVec.getLsbD_ofNat]
  by_cases h : i < n
  · simp [h, show n - 1 - i < n by omega]
  · simp [h]

/-- Settles O10, instruction by instruction. -/
theorem logicAndShifts : Obligations.LogicAndShifts := by
  unfold Obligations.LogicAndShifts
  intro ty o s wrp hw n x one two shift words pair k
  have hword (l : Nat) (y : Src) : (⟨y, false⟩ : WSrc).at l < 2 ^ 32 := WSrc.at_lt_word rfl l
  refine ⟨fun hu => s.laneOp_int2_other hw o fun v => ?_, fun hu => s.laneOp_int2_other hw o fun v => ?_,
    fun hu => s.laneOp_int2_other hw o fun v => ?_, fun hu => s.laneOp_int1 hw o fun v => ?_,
    s.laneOp_shift hw o (by decide) (fun v => ?_) fun h32 => shapeRight_shiftLeft h32,
    fun hu => s.laneOp_shift hw o (by decide) (fun v => ?_) fun _ _ _ => shapeRight_other _ _,
    fun hs => s.laneOp_shift hw o (by decide) (fun v => ?_) fun _ _ _ => shapeRight_other _ _,
    s.laneOp_other o false _ fun l _ => funnel_right (hword l _) (hword l _) wrp _,
    s.laneOp_other o false _ fun l _ => funnel_left (hword l _) (hword l _) wrp _,
    s.laneOp_other o false _ fun l _ => popCount_eq_countP _ _, s.laneOp_other o false _ fun l _ => ?_,
    s.laneOp_other o ty.is64 _ fun l _ => bitRev_eq_reverse _ _⟩
  · rw [intOf_unsigned hu, intOf_unsigned hu]; exact ofInt_bitOp (BitVec.toNat_and _ _)
  · rw [intOf_unsigned hu, intOf_unsigned hu]; exact ofInt_bitOp (BitVec.toNat_or _ _)
  · rw [intOf_unsigned hu, intOf_unsigned hu]; exact ofInt_bitOp (BitVec.toNat_xor _ _)
  · rw [intOf_unsigned hu]; exact ofInt_not _
  · rw [ofInt_shlInt, ofInt_intOf]
  · rw [intOf_unsigned hu]; exact ofInt_shrInt _ _
  · rw [intOf_signed hs]; exact ofInt_sraInt _ _
  · rw [bitLen_eq_size]
end Sys2Proof.Machine
end

section
/-! PROOF. Bit fields and byte permutes as operations on bit vectors (O11). -/
namespace Sys2Proof.Machine

/-! ## Bit fields (R190) -/

section
variable {ty : Ty} {w p len : Nat} (hfield : fieldOf w ty.width = (p, len))
include hfield

theorem fieldOf_le : p + len ≤ ty.width := by
  obtain ⟨rfl, rfl⟩ := Prod.mk.inj hfield
  omega
theorem bfe_unsigned (hu : ty.isS = false) (a : Nat) : bfe ty a w = a / 2 ^ p % 2 ^ len := by
  simp only [bfe, hfield, hu, Bool.false_eq_true, if_false]
  split
  next h => rw [h, pow_zero, Nat.mod_one]
  next => rfl
theorem bfe_signed (hs : ty.isS = true) {a : Nat} (ha : a < 2 ^ ty.width) :
    bfe ty a w = (((BitVec.ofNat ty.width a).extractLsb' p len).signExtend ty.width).toNat := by
  have hbits : (BitVec.ofNat ty.width a).extractLsb' p len = BitVec.ofNat len (a / 2 ^ p) :=
    BitVec.eq_of_toNat_eq (by
      rw [BitVec.extractLsb'_toNat, BitVec.toNat_ofNat, BitVec.toNat_ofNat, Nat.mod_eq_of_lt ha, Nat.shiftRight_eq_div_pow])
  simp only [bfe, hfield, hs, if_true]
  rw [hbits, BitVec.signExtend, ← wrap_eq_toNat_ofInt]
  split
  next h => subst h; rw [BitVec.toInt_zero_length]; rfl
  next h =>
    have hmod : BitVec.ofNat len (a / 2 ^ p % 2 ^ len) = BitVec.ofNat len (a / 2 ^ p) := BitVec.eq_of_toNat_eq (by simp)
    rw [sext_eq_toInt _ (Nat.pos_of_ne_zero h), hmod]
end

/-- Bit `i` of BFI's result. -/
theorem testBit_bfi {n w p len : Nat} (hfield : fieldOf w n = (p, len)) (a b i : Nat) :
    (bfi n a b w).testBit i = if p ≤ i ∧ i < p + len then a.testBit (i - p) else b.testBit i := by
  have hsplit : bfi n a b w = 2 ^ p * (2 ^ len * (b / 2 ^ (p + len)) + a % 2 ^ len) + b % 2 ^ p := by
    simp only [bfi, hfield]; ring
  rw [hsplit, Nat.testBit_two_pow_mul_add _ (Nat.mod_lt _ (Nat.two_pow_pos p)), Nat.testBit_two_pow_mul_add _ (Nat.mod_lt _ (Nat.two_pow_pos len))]
  by_cases hlow : i < p
  · rw [if_pos hlow, if_neg (by omega), Nat.testBit_mod_two_pow, decide_eq_true hlow, Bool.true_and]
  · rw [if_neg hlow]
    by_cases hin : i < p + len
    · rw [if_pos (by omega), if_pos (by omega), Nat.testBit_mod_two_pow, decide_eq_true (by omega : i - p < len), Bool.true_and]
    · rw [if_neg (by omega), if_neg (by omega), Nat.testBit_div_two_pow, show i - p - len + (p + len) = i by omega]
/-- The bits of a field. -/
theorem getLsbD_fieldMask (n p len i : Nat) :
    (((1 : BitVec n) <<< len - 1) <<< p).getLsbD i = (decide (i < n) && decide (p ≤ i ∧ i < p + len)) := by
  have hones : (1 : BitVec n) <<< len - 1 = BitVec.ofNat n (2 ^ len - 1) := by
    rw [sub_eq_iff_eq_add]
    have hpow : 2 ^ len - 1 + 1 = 2 ^ len := Nat.sub_add_cancel Nat.one_le_two_pow
    rw [show (1 : BitVec n) = BitVec.ofNat n 1 from rfl, ← BitVec.ofNat_add, hpow, ← BitVec.twoPow_eq]
    exact BitVec.eq_of_toNat_eq (by rw [BitVec.toNat_twoPow, BitVec.toNat_ofNat])
  rw [BitVec.getLsbD_shiftLeft, hones, BitVec.getLsbD_ofNat, Nat.testBit_two_pow_sub_one]
  by_cases hp : i < p
  · simp [hp]
  · rw [decide_eq_false hp, Bool.not_false, Bool.and_true]
    by_cases hn : i < n
    · simp only [hn, show i - p < n by omega, decide_true, Bool.true_and, decide_eq_decide]; omega
    · simp [hn]
theorem bfi_eq_mask {n w p len : Nat} (hfield : fieldOf w n = (p, len)) (hle : p + len ≤ n) (a : Nat) {b : Nat} (hb : b < 2 ^ n) :
    bfi n a b w =
      ((BitVec.ofNat n b &&& ~~~(((1 : BitVec n) <<< len - 1) <<< p)) ||| (BitVec.ofNat n a <<< p &&& ((1 : BitVec n) <<< len - 1) <<< p)).toNat := by
  refine Nat.eq_of_testBit_eq fun i => ?_
  rw [testBit_bfi hfield, BitVec.testBit_toNat, BitVec.getLsbD_or, BitVec.getLsbD_and, BitVec.getLsbD_and, BitVec.getLsbD_not, getLsbD_fieldMask,
    BitVec.getLsbD_shiftLeft, BitVec.getLsbD_ofNat, BitVec.getLsbD_ofNat]
  by_cases hi : i < n
  · by_cases hin : p ≤ i ∧ i < p + len
    · simp [hi, hin, show i - p < n by omega, show ¬i < p by omega]
    · simp only [hi, hin, decide_true, decide_false, Bool.and_false, Bool.not_false, Bool.true_and, Bool.and_true, Bool.or_false, if_false]
  · have hzero : b.testBit i = false := Nat.testBit_lt_two_pow (hb.trans_le (Nat.pow_le_pow_right (by decide) (by omega)))
    simp [hi, hzero]; omega

/-! ## Byte permutes (R191) -/

/-- The byte that nibble `j` of `c` chooses of the eight bytes of `v`: the byte, or its sign in all bits. -/
def prmtByte (v c j : Nat) : Nat :=
  let x := v / 256 ^ (c / 16 ^ j % 16 % 8) % 256
  if c / 16 ^ j % 16 < 8 then x else if x < 128 then 0 else 255
theorem foldl_range_four (g : Nat → Nat → Nat) (x : Nat) : (List.range 4).foldl g x = g (g (g (g x 0) 1) 2) 3 := rfl
/-- Four bytes, lowest first. -/
theorem foldl_bytes (f : Nat → Nat) :
    (List.range 4).foldl (fun n j => n + f j * 256 ^ j) 0 = ((f 3 * 2 ^ 8 + f 2) * 2 ^ 8 + f 1) * 2 ^ 8 + f 0 := by
  rw [foldl_range_four]
  omega
theorem prmt_eq {a b v : Nat} (hv : a + b * 2 ^ 32 = v) (c : Nat) :
    prmt a b c = ((prmtByte v c 3 * 2 ^ 8 + prmtByte v c 2) * 2 ^ 8 + prmtByte v c 1) * 2 ^ 8 + prmtByte v c 0 := by
  subst hv
  exact foldl_bytes (prmtByte _ c)
/-- The same choice on bit vectors. -/
def prmtBits (a b c j : Nat) : BitVec 8 :=
  let nib : BitVec 4 := (BitVec.ofNat 32 c).extractLsb' (4 * j) 4
  let src : BitVec 64 := BitVec.ofNat 32 b ++ BitVec.ofNat 32 a
  let x : BitVec 8 := src.extractLsb' (8 * (nib.toNat % 8)) 8
  if nib.getLsbD 3 then (if x.getLsbD 7 then 0xFF else 0) else x
theorem toNat_prmtBits (a b c : Nat) {j : Nat} (hj : j < 4) :
    (prmtBits a b c j).toNat = prmtByte (BitVec.ofNat 32 b ++ BitVec.ofNat 32 a).toNat c j := by
  unfold prmtBits
  extract_lets nib src x
  have hnib : c / 16 ^ j % 16 = nib.toNat := by
    rw [BitVec.extractLsb'_toNat, BitVec.toNat_ofNat, Nat.shiftRight_eq_div_pow]
    interval_cases j <;> norm_num <;> omega
  have hx : src.toNat / 256 ^ (nib.toNat % 8) % 256 = x.toNat := by
    rw [show x.toNat = src.toNat >>> (8 * (nib.toNat % 8)) % 2 ^ 8 from BitVec.extractLsb'_toNat _ _ src, Nat.shiftRight_eq_div_pow, pow_mul 2 8,
      show 2 ^ 8 = 256 from rfl]
  have htop : nib.getLsbD 3 = decide (8 ≤ nib.toNat) := BitVec.getLsbD_last nib
  have hsign : x.getLsbD 7 = decide (128 ≤ x.toNat) := BitVec.getLsbD_last x
  simp only [prmtByte, hnib]
  rw [show (BitVec.ofNat 32 b ++ BitVec.ofNat 32 a).toNat / 256 ^ (nib.toNat % 8) % 256 = x.toNat from hx, htop, hsign]
  by_cases h8 : nib.toNat < 8
  · rw [if_pos h8, decide_eq_false (by omega)]; rfl
  · rw [if_neg h8, decide_eq_true (by omega), if_pos rfl]
    by_cases h128 : x.toNat < 128
    · rw [if_pos h128, decide_eq_false (by omega)]; rfl
    · rw [if_neg h128, decide_eq_true (by omega)]; rfl
theorem prmt_eq_append {a b : Nat} (ha : a < 2 ^ 32) (hb : b < 2 ^ 32) (c : Nat) :
    prmt a b c = (prmtBits a b c 3 ++ prmtBits a b c 2 ++ prmtBits a b c 1 ++ prmtBits a b c 0).toNat := by
  have hv : a + b * 2 ^ 32 = (BitVec.ofNat 32 b ++ BitVec.ofNat 32 a).toNat := by rw [toNat_append_word ha hb, Nat.add_comm]
  rw [prmt_eq hv, ← toNat_prmtBits _ _ _ (by decide), ← toNat_prmtBits _ _ _ (by decide), ← toNat_prmtBits _ _ _ (by decide),
    ← toNat_prmtBits _ _ _ (by decide), toNat_append_eq, toNat_append_eq, toNat_append_eq]

/-- Settles O11: a field is position and length, and the masks and extracted bits of the statement are its bits. -/
theorem fieldsAndBytes : Obligations.FieldsAndBytes := by
  unfold Obligations.FieldsAndBytes
  intro ty o s hw n p len words byte
  have hfield (w : Nat) : fieldOf w n = (p w, len w) := by simp [fieldOf, fld, p, len]
  have hword (l : Nat) (y : Src) : (⟨y, false⟩ : WSrc).at l < 2 ^ 32 := WSrc.at_lt_word rfl l
  refine ⟨fun hu => s.laneOp_other o ty.is64 _ fun l _ => bfe_unsigned (hfield _) hu _,
    fun hs => s.laneOp_other o ty.is64 _ fun l _ => bfe_signed (hfield _) hs (WSrc.at_lt_width hw rfl l),
    s.laneOp_other o ty.is64 _ fun l _ => bfi_eq_mask (hfield _) (fieldOf_le (hfield _)) _ (WSrc.at_lt_width hw rfl l),
    s.laneOp_other o false _ fun l _ => prmt_eq_append (hword l _) (hword l _) _⟩
end Sys2Proof.Machine
end

section
/-! PROOF. Comparisons, selection, moves and address arithmetic (O12). -/
namespace Sys2Proof.Machine

/-! ## Words of a source and tags of two -/

/-- The low or the high word of a source. -/
def Src.word (x : Src) (j : Nat) : Shape := if j = 0 then x.lo else x.hi
/-- Lane `l` of a source's word is that part of its lane value. -/
theorem Src.ofNat_at_div (x : Src) (is64 : Bool) (l : Nat) {j : Nat} (hj : j < if is64 then 2 else 1) :
    BitVec.ofNat 32 (x.at is64 l / 2 ^ (32 * j)) = (x.word j).lane l := by
  have hlo := (x.lo.lane l).isLt
  cases is64 with
  | false =>
    obtain rfl : j = 0 := by simpa using hj
    simp [Src.at, Src.w, Src.word]
  | true =>
    have hat : x.at true l = (x.lo.lane l).toNat + 2 ^ 32 * (x.hi.lane l).toNat := rfl
    obtain rfl | rfl : j = 0 ∨ j = 1 := by simp at hj; omega
    · refine BitVec.eq_of_toNat_eq ?_
      rw [hat, Nat.mul_zero, pow_zero, Nat.div_one, BitVec.toNat_ofNat, Nat.add_mul_mod_self_left, Nat.mod_eq_of_lt hlo]; rfl
    · rw [hat, Nat.mul_one, Nat.add_mul_div_left _ _ (Nat.two_pow_pos 32), Nat.div_eq_of_lt hlo, Nat.zero_add, ofNat_toNat_self]; rfl

theorem tagAt_joinTwo (a b : WSrc) (l : Nat) : tagAt (joinDp [a, b]) (joinFp [a, b]) l = (a.src.tag l).join (b.src.tag l) := by
  simp only [joinDp, joinFp, List.foldl_cons, List.foldl_nil, tagAt_join, tagAt_zero, Tag.clean_join]
  rfl
theorem tagAt_mergeMask (m dp fp dp' fp' : Word) (l : Nat) :
    tagAt (mergeMask m dp dp') (mergeMask m fp fp') l = if m.getLsbD l then tagAt dp fp l else tagAt dp' fp' l := by
  simp only [tagAt, getLsbD_mergeMask]
  split <;> rfl

/-! ## SEL (R193) -/

/-- The shape of SEL's result: where the mask is set the one source's lane, elsewhere the other's. -/
def selShape (m : Word) (x y : Shape) : Shape := .general ((List.range 32).map fun l => if m.getLsbD l then x.lane l else y.lane l)
theorem execSel_eq (ty : Ty) (o : Ops) (s : State) :
    let a := s.srcA o ty.is64
    let b := s.srcBfield o ty.is64
    let c := s.srcC o false
    execSel ty o s = .next (s.putV ty.is64 (s.resultWs o ty.is64 (fun j => selShape c.mask (a.word j) (b.word j))
      (mergeMask c.mask a.dp b.dp ||| c.dp) (mergeMask c.mask a.fp b.fp ||| c.fp))) := rfl

/-! ## MOVI, MOVA (R194) -/

/-- The low or the high word of MOVI's immediate. -/
def moviShape (imm : DWord) (j : Nat) : Shape := .uniform ((imm >>> (32 * j)).setWidth 32)
theorem moviShape_zero (imm : DWord) : moviShape imm 0 = .uniform (imm.setWidth 32) := by
  rw [moviShape, Nat.mul_zero, BitVec.ushiftRight_zero]
theorem execMovi_eq (ty : Ty) (o : Ops) (s : State) :
    execMovi ty o s = .next (s.putV ty.is64 (s.resultWs o ty.is64 (moviShape o.imm) 0 0)) := by
  unfold execMovi State.resultWs
  rw [moviShape_zero]; rfl
/-- A word of an immediate of the type's width. -/
theorem ofNat_imm_div (imm : DWord) {ty : Ty} (hw : ty.width = 32 ∨ ty.width = 64) {j : Nat} (hj : j < if ty.is64 then 2 else 1) :
    BitVec.ofNat 32 ((imm.setWidth ty.width).toNat / 2 ^ (32 * j)) = (imm >>> (32 * j)).setWidth 32 := by
  refine BitVec.eq_of_toNat_eq ?_
  rw [BitVec.toNat_ofNat, BitVec.toNat_setWidth, BitVec.toNat_setWidth, BitVec.toNat_ushiftRight, Nat.shiftRight_eq_div_pow]
  rcases hw with hw | hw
  · obtain rfl : j = 0 := by simpa [Ty.is64, hw] using hj
    simp [hw]
  · rw [hw, Nat.mod_eq_of_lt imm.isLt]

/-! ## LEA (R194) -/

/-- LEA's index in two's complement or unsigned, as the type's bits. -/
def leaIndex (sx : Bool) (x : Nat) : Int := if sx then (BitVec.ofNat 32 x).toInt else (x : Nat)
theorem ofInt_leaIndex (sx : Bool) (w : Word) : BitVec.ofInt 32 (leaIndex sx w.toNat) = w := by
  unfold leaIndex
  split
  · rw [BitVec.ofInt_toInt, ofNat_toNat_self]
  · rw [BitVec.ofInt_natCast, ofNat_toNat_self]
theorem shapeRight_lea {n : Nat} (hn : n = 32) (k : Nat) (sx : Bool) (x y : Shape) :
    ShapeRight .additive [x, y] fun v => (BitVec.ofNat n (v.getD 1 0) + BitVec.ofInt n (leaIndex sx (v.getD 0 0)) <<< k).toNat := by
  subst hn
  refine shapeRight_linear [BitVec.twoPow 32 k, 1] fun g => ?_
  simp only [ofNat_toNat_self, List.map, List.getD_cons_zero, List.getD_cons_succ, linear_cons, linear_nil, ofInt_leaIndex,
    BitVec.shiftLeft_eq_mul_twoPow]
  ring

/-- Settles O12, instruction by instruction. -/
theorem movesAndSelects : Obligations.MovesAndSelects := by
  unfold Obligations.MovesAndSelects
  intro ty cm k sx o s hw n a b bf c int
  refine ⟨?_, fun hact hfit => ?_, s.laneOp_vecOp o .additive ty.is64 _ _ (fun _ _ => shapeRight_linear [1] fun g => ?_) (by decide),
    fun hact hfit => ?_, fun hact hfit => ?_, ?_⟩
  · refine (s.predOp_putP o _ _ _).congr (fun l hl => ?_) fun l _ => tagAt_joinTwo a b l
    rw [getLsbD_maskOf, decide_eq_true hl, Bool.true_and, Ty.int_eq_intOf, Ty.int_eq_intOf]; rfl
  · refine ⟨_, execSel_eq ty o s, (s.laneDone_putV o ty.is64 _ (fun l => if c.bit0 l then a.at l else bf.at l) _ _ hact (.inl hfit) ?_).congr
      (fun _ _ => rfl) fun l hl => ?_⟩
    · intro j hj l hl _
      rw [selShape, Shape.lane_general _ hl, Src.getLsbD_mask _ hl]
      split
      · exact ((s.srcA o ty.is64).ofNat_at_div ty.is64 l hj).symm
      · exact ((s.srcBfield o ty.is64).ofNat_at_div ty.is64 l hj).symm
    · rw [tagAt_join, tagAt_mergeMask, Src.getLsbD_mask _ hl]; rfl
  · simp only [List.map, List.getD_cons_zero, linear_cons, linear_nil, ofNat_toNat_self]; ring
  · refine ⟨_, execMovi_eq ty o s, (s.laneDone_putV o ty.is64 (moviShape o.imm) (fun _ => (o.imm.setWidth n).toNat) _ _ hact
      (hfit.imp id fun h => ⟨h.1, fun _ _ => rfl⟩) fun j hj _ _ _ => (ofNat_imm_div o.imm hw hj).symm).congr (fun _ _ => rfl) fun l _ => ?_⟩
    rw [tagAt_zero, Tag.clean_join]; rfl
  · refine ⟨_, rfl, s.laneDone_putV o false (fun _ => .affine ((s.srcA o false).lo.lane 0) (o.imm.setWidth 32)) _ _ _ hact
      (hfit.imp id fun h => ⟨h.1, fun _ _ => rfl⟩) fun j hj l _ _ => ?_⟩
    obtain rfl : j = 0 := by simpa using hj
    rw [Nat.mul_zero, pow_zero, Nat.div_one, BitVec.ofNat_add, BitVec.ofNat_mul, ofNat_toNat_self, Src.w, ofNat_toNat_self]; rfl
  · refine s.laneOp_bits hw o (by decide) _ (fun v => ?_) fun h32 => shapeRight_lea h32 k.toNat sx _ _
    rw [BitVec.ofInt_add, BitVec.ofInt_natCast, BitVec.ofInt_mul, ofInt_two_pow, ← BitVec.shiftLeft_eq_mul_twoPow, sext_eq_toInt _ (by decide)]
end Sys2Proof.Machine
end

section
/-! PROOF. Float arithmetic and packed halves: each result is the exact one, encoded (O13, O17). -/
namespace Sys2Proof.Machine

/-! ## Float arithmetic (R196, R201, R202) -/

section
variable (s : State) (ty : Ty) (m : Rnd) (o : Ops)

/-- A float instruction of one source encodes its operation's value. -/
theorem State.laneOp_fp1 (g : Fp.FVal → Fp.FVal) :
    s.LaneOp o ty.is64 [s.vA o ty.is64] (fun v => Fp.enc (Fp.ofTy ty) m (g (Fp.val (Fp.ofTy ty) (v.getD 0 0)))) (.next (s.fp1 ty m o g)) :=
  s.laneOp_other o ty.is64 _ fun _ _ => rfl
/-- A float instruction of two sources encodes its operation's value. -/
theorem State.laneOp_fp2 (g : Fp.FVal → Fp.FVal → Fp.FVal) :
    s.LaneOp o ty.is64 [s.vA o ty.is64, s.vB o ty.is64]
      (fun v => Fp.enc (Fp.ofTy ty) m (g (Fp.val (Fp.ofTy ty) (v.getD 0 0)) (Fp.val (Fp.ofTy ty) (v.getD 1 0)))) (.next (s.fp2 ty m o g)) :=
  s.laneOp_other o ty.is64 _ fun _ _ => rfl
end

/-- Settles O13, instruction by instruction. -/
theorem floatArithmetic : Obligations.FloatArithmetic := by
  unfold Obligations.FloatArithmetic
  intro ty m o s f x one two
  refine ⟨s.laneOp_fp2 ty m o _, s.laneOp_fp2 ty m o _, s.laneOp_fp2 ty m o _, s.laneOp_other o ty.is64 _ fun _ _ => rfl,
    s.laneOp_fp2 ty m o _, s.laneOp_fp1 ty m o _, s.laneOp_fp1 ty m o _, s.laneOp_fp1 ty m o _, s.laneOp_fp1 ty m o _, s.laneOp_fp1 ty .rn o _,
    s.laneOp_other o ty.is64 _ fun l _ => ?_, s.laneOp_fp1 ty .rn o _, s.laneOp_fp1 ty .rn o _, s.laneOp_fp1 ty .rn o _,
    s.laneOp_fp1 ty .rn o _, s.laneOp_fp1 ty .rn o _⟩
  rw [sext_eq_toInt _ (by decide)]

/-! ## Packed halves (R203) -/

theorem half_zero (x : Nat) : half x 0 = x % 2 ^ 16 := by rw [half, Nat.mul_zero, pow_zero, Nat.div_one]
theorem half_one (x : Nat) : half x 1 = x / 2 ^ 16 % 2 ^ 16 := by rw [half, Nat.mul_one]
theorem halves_eq (f : Nat → Nat) : halves f = f 1 * 2 ^ 16 + f 0 := Nat.add_comm _ _

theorem State.laneOp_pk2 (s : State) (ty : Ty) (m : Rnd) (o : Ops) (g : Fp.FVal → Fp.FVal → Fp.FVal) :
    let h0 (x : Nat) : Fp.FVal := Fp.val (Fp.ofTy ty) (x % 2 ^ 16)
    let h1 (x : Nat) : Fp.FVal := Fp.val (Fp.ofTy ty) (x / 2 ^ 16 % 2 ^ 16)
    s.LaneOp o false [s.vA o false, s.vB o false]
      (fun v => Fp.enc (Fp.ofTy ty) m (g (h1 (v.getD 0 0)) (h1 (v.getD 1 0))) * 2 ^ 16 +
        Fp.enc (Fp.ofTy ty) m (g (h0 (v.getD 0 0)) (h0 (v.getD 1 0)))) (.next (s.pk2 ty m o g)) :=
  s.laneOp_other o false _ fun l _ => by rw [halves_eq]; simp only [half_zero, half_one]

/-- Settles O17: both halves of a lane go through the same exact operation. -/
theorem packedHalves : Obligations.PackedHalves := by
  unfold Obligations.PackedHalves
  intro ty m o s f h0 h1 both
  refine ⟨s.laneOp_pk2 ty m o (Fp.add m), s.laneOp_pk2 ty m o Fp.mul, s.laneOp_other o false _ fun l _ => ?_⟩
  rw [halves_eq]; simp only [half_zero, half_one]; rfl
end Sys2Proof.Machine
end

section
/-! PROOF. Rounding of a float result: of the exact value of a result, each mode takes one of the two neighbouring patterns (R105, R106). -/
namespace Sys2Proof.Fp

/-! ## The magnitudes of a format -/

/-- The magnitude that the bits `k` below the sign stand for, as if the format had no largest exponent (R101, R102). -/
def FFmt.mag (f : FFmt) (k : Nat) : ℚ :=
  if k < 2 ^ f.fw then k * 2 ^ (1 - f.bias - f.fw : Int) else (2 ^ f.fw + k % 2 ^ f.fw : Nat) * 2 ^ ((k / 2 ^ f.fw : Nat) - f.bias - f.fw : Int)

/-- The magnitude `a` × 2^(p − bias − fw) has the exponent field `p`, or is subnormal with `p` = 1; at `a` = 2^(fw+1) it is the next binade's first. -/
theorem FFmt.mag_of_significand (f : FFmt) {p a : Nat} (hp : 1 ≤ p) (ha : a ≤ 2 ^ (f.fw + 1)) (hnormal : 2 ^ f.fw ≤ a ∨ p = 1) :
    f.mag ((p - 1) * 2 ^ f.fw + a) = a * 2 ^ (p - f.bias - f.fw : Int) := by
  obtain ⟨n, rfl⟩ : ∃ n, p = n + 1 := ⟨p - 1, by omega⟩
  have hpos := Nat.two_pow_pos f.fw
  rw [Nat.add_sub_cancel, FFmt.mag]
  by_cases hsub : a < 2 ^ f.fw
  · obtain rfl : n = 0 := by omega
    rw [if_pos (by omega)]; simp
  · rw [if_neg (by nlinarith)]
    obtain ⟨b, rfl⟩ := Nat.exists_eq_add_of_le (Nat.le_of_not_lt hsub)
    have hindex : n * 2 ^ f.fw + (2 ^ f.fw + b) = b + (n + 1) * 2 ^ f.fw := by ring
    rw [hindex, Nat.add_mul_div_right _ _ hpos, Nat.add_mul_mod_self_right]
    rw [pow_succ] at ha
    rcases Nat.lt_or_ge b (2 ^ f.fw) with hb | hb
    · rw [Nat.mod_eq_of_lt hb, Nat.div_eq_of_lt hb, Nat.zero_add]
    · obtain rfl : b = 2 ^ f.fw := by omega
      rw [Nat.mod_self, Nat.div_self hpos, show ((1 + (n + 1) : Nat) - f.bias - f.fw : Int) = ((n + 1 : Nat) - f.bias - f.fw) + 1 by push_cast; ring,
        zpow_add_one₀ (by norm_num)]
      push_cast; ring
/-- The bits of a magnitude as exponent field and significand. -/
theorem FFmt.exists_significand (f : FFmt) (k : Nat) :
    ∃ p a, 1 ≤ p ∧ a < 2 ^ (f.fw + 1) ∧ (2 ^ f.fw ≤ a ∨ p = 1) ∧ k = (p - 1) * 2 ^ f.fw + a := by
  have hpos := Nat.two_pow_pos f.fw
  by_cases hk : k < 2 ^ f.fw
  · exact ⟨1, k, le_rfl, by rw [pow_succ]; omega, .inr rfl, by simp⟩
  · have hmod := Nat.mod_lt k hpos
    have hdiv : 1 ≤ k / 2 ^ f.fw := (Nat.one_le_div_iff hpos).2 (by omega)
    refine ⟨k / 2 ^ f.fw, 2 ^ f.fw + k % 2 ^ f.fw, hdiv, by rw [pow_succ]; omega, .inl (by omega), ?_⟩
    obtain ⟨n, hn⟩ : ∃ n, k / 2 ^ f.fw = n + 1 := ⟨k / 2 ^ f.fw - 1, by omega⟩
    have := Nat.div_add_mod' k (2 ^ f.fw)
    rw [hn] at this ⊢
    rw [Nat.add_sub_cancel]
    linarith
theorem FFmt.mag_strictMono (f : FFmt) : StrictMono f.mag := by
  refine strictMono_nat_of_lt_succ fun k => ?_
  obtain ⟨p, a, hp, ha, hnormal, rfl⟩ := f.exists_significand k
  rw [Nat.add_assoc, f.mag_of_significand hp ha.le hnormal, f.mag_of_significand hp ha (hnormal.imp_left fun h => by omega)]
  have : (0 : ℚ) < 2 ^ (p - f.bias - f.fw : Int) := by positivity
  push_cast
  linarith
@[simp] theorem FFmt.mag_zero (f : FFmt) : f.mag 0 = 0 := by simp [FFmt.mag]

/-! ## What rounding says of a result -/

/-- The magnitude that an overflow gives (R106). -/
def huge (f : FFmt) (r : Rnd) (neg : Bool) : Nat :=
  if f.e4m3 then f.maxFin
  else match r with | .rn => f.infBits | .rz => f.maxFin | .ru => if neg then f.maxFin else f.infBits | .rd => if neg then f.infBits else f.maxFin
/-- Whether a mode takes the upper one of the magnitudes `k` and `k` + 1, where `against` compares a magnitude with the exact one (R105). -/
def takesUpper (f : FFmt) (r : Rnd) (neg : Bool) (against : ℚ → Ordering) (k : Nat) : Bool :=
  match r with
  | .rn => against ((f.mag k + f.mag (k + 1)) / 2) == .lt || (against ((f.mag k + f.mag (k + 1)) / 2) == .eq && k % 2 == 1)
  | .rz => false
  | .ru => !neg && against (f.mag k) != .eq
  | .rd => neg && against (f.mag k) != .eq
/-- `b` is what the exact value rounds to: an overflow from the magnitude above the largest on, otherwise one of its two neighbours. -/
def Rounds (f : FFmt) (r : Rnd) (neg : Bool) (against : ℚ → Ordering) (b : Nat) : Prop :=
  let sign := if neg then 2 ^ (f.ew + f.fw) else 0
  (against (f.mag (f.maxFin + 1)) ≠ .gt → b = sign + huge f r neg) ∧
  ∀ k ≤ f.maxFin, against (f.mag k) ≠ .gt → against (f.mag (k + 1)) = .gt →
    b = sign + if takesUpper f r neg against k then (if k = f.maxFin then huge f r neg else k + 1) else k

theorem overflow_eq (f : FFmt) (r : Rnd) (neg : Bool) : overflow f r neg = (if neg then 2 ^ (f.ew + f.fw) else 0) + huge f r neg := by
  unfold overflow huge FFmt.signBit
  by_cases h : f.e4m3
  · simp only [h, if_true]
  · cases r <;> cases neg <;> simp [h]
/-- The end of an encoding: a magnitude beyond the largest finite one is an overflow. -/
def finish (f : FFmt) (r : Rnd) (neg : Bool) (k : Nat) : Nat := if f.maxFin < k then overflow f r neg else (if neg then f.signBit else 0) + k

/-- A pattern found between two neighbours rounds so, whatever the neighbours' number. -/
theorem rounds_finish (f : FFmt) (r : Rnd) (neg : Bool) {v : ℚ} {k : Nat} (hlo : f.mag k ≤ v) (hhi : v < f.mag (k + 1)) :
    Rounds f r neg (fun c => compare c v) (finish f r neg (k + b2n (takesUpper f r neg (fun c => compare c v) k))) := by
  refine ⟨fun hbeyond => ?_, fun j hj hjlo hjhi => ?_⟩
  · have hle : f.mag (f.maxFin + 1) ≤ v := by simpa [compare_gt_iff_gt] using hbeyond
    have : f.maxFin + 1 < k + 1 := f.mag_strictMono.lt_iff_lt.1 (hle.trans_lt hhi)
    rw [finish, if_pos (by omega), overflow_eq]
  · have hjlo' : f.mag j ≤ v := by simpa [compare_gt_iff_gt] using hjlo
    have hjhi' : v < f.mag (j + 1) := compare_gt_iff_gt.1 hjhi
    have h1 : j < k + 1 := f.mag_strictMono.lt_iff_lt.1 (hjlo'.trans_lt hhi)
    have h2 : k < j + 1 := f.mag_strictMono.lt_iff_lt.1 (hlo.trans_lt hjhi')
    obtain rfl : j = k := by omega
    cases takesUpper f r neg (fun c => compare c v) j with
    | false => rw [finish, if_neg (by simpa [b2n] using hj)]; rfl
    | true =>
      simp only [finish, b2n, if_true]
      by_cases hmax : j = f.maxFin
      · rw [if_pos (by omega), if_pos hmax, overflow_eq]
      · rw [if_neg (by omega), if_neg hmax]; rfl

/-! ## The model's rounding -/

/-- Whether a mode takes the integer above `a` for a magnitude `x` from `a` on and below `a` + 1. -/
def upper (r : Rnd) (neg : Bool) (a : Nat) (x : ℚ) : Bool :=
  match r with
  | .rn => decide ((a : ℚ) + 1 / 2 < x) || (decide ((a : ℚ) + 1 / 2 = x) && a % 2 == 1)
  | .rz => false
  | .ru => !neg && decide ((a : ℚ) ≠ x)
  | .rd => neg && decide ((a : ℚ) ≠ x)
theorem roundInt_eq_upper (r : Rnd) (neg : Bool) {a : Nat} {x : ℚ} (hlo : a ≤ x) (hhi : x < a + 1) :
    roundInt (if neg then r.mirror else r) false x = (a + b2n (upper r neg a x) : Nat) := by
  rcases hlo.eq_or_lt with rfl | hlt
  · rw [show ((a : Nat) : ℚ) = ((a : Int) : ℚ) by norm_cast, roundInt_intCast]
    cases r <;> simp [upper, b2n]
  · rw [roundInt_between (i := a) _ false (by exact_mod_cast hlt) (by exact_mod_cast hhi)]
    cases r with
    | rz => cases neg <;> simp [upper, b2n, Rnd.mirror]
    | ru => cases neg <;> simp [upper, b2n, Rnd.mirror, hlt.ne]
    | rd => cases neg <;> simp [upper, b2n, Rnd.mirror, hlt.ne]
    | rn =>
      rw [show (if neg then Rnd.rn.mirror else Rnd.rn) = Rnd.rn by cases neg <;> rfl]
      simp only [upper]
      rw [Int.cast_natCast]
      rcases lt_trichotomy x (a + 1 / 2) with h | h | h
      · rw [if_pos (.inl (by linarith)), decide_eq_false (by linarith), decide_eq_false (by linarith)]; simp [b2n]
      · subst h
        rw [decide_eq_false (lt_irrefl _), decide_eq_true rfl, Bool.false_or, Bool.true_and]
        rcases Nat.mod_two_eq_zero_or_one a with ha | ha
        · rw [if_pos (.inr ⟨by ring, by omega⟩), ha]; rfl
        · rw [if_neg (by rintro (h' | ⟨-, h'⟩) <;> [linarith; omega]), ha]; rfl
      · rw [if_neg (by rintro (h' | ⟨h', -⟩) <;> linarith), decide_eq_true h]; simp [b2n]

/-- `quantize` rounds the magnitude's multiple of 2^q to an integer. -/
theorem quantize_eq (r : Rnd) (neg : Bool) (m : Nat) (e q : Int) :
    (quantize r neg m e q : Int) = roundInt (if neg then r.mirror else r) false (m * 2 ^ e / 2 ^ q) := by
  have hshift : quantize r neg m e q = quantize r neg m (e - q) 0 := by
    simp only [quantize, show (0 : Int) ≤ e - q ↔ q ≤ e by omega, show e - q - 0 = e - q by omega, show 0 - (e - q) = q - e by omega]
  have hmul : (m : ℚ) * 2 ^ e / 2 ^ q = m * 2 ^ (e - q) := by rw [zpow_sub₀ (by norm_num), mul_div_assoc]
  rw [hshift, hmul]
  cases neg with
  | false => exact quantize_zero r m _
  | true => rw [quantize_true]; exact quantize_zero r.mirror m _

theorem compare_mul_right_of_pos {a b c : ℚ} (hc : 0 < c) : compare (a * c) (b * c) = compare a b := by
  rw [← cmp_eq_compare, ← cmp_eq_compare, cmp_mul_pos_right hc]
theorem compare_beq_lt (a b : ℚ) : (compare a b == .lt) = decide (a < b) := by
  rw [Bool.eq_iff_iff, beq_iff_eq, compare_lt_iff_lt, decide_eq_true_iff]
theorem compare_beq_eq (a b : ℚ) : (compare a b == .eq) = decide (a = b) := by
  rw [Bool.eq_iff_iff, beq_iff_eq, compare_eq_iff_eq, decide_eq_true_iff]

section
variable (f : FFmt) (r : Rnd) (neg : Bool)

/-- Among the multiples of a binade's unit, the upper neighbour is the upper integer. -/
theorem takesUpper_eq_upper (hfw : 0 < f.fw) {p a : Nat} (hp : 1 ≤ p) (ha : a < 2 ^ (f.fw + 1)) (hnormal : 2 ^ f.fw ≤ a ∨ p = 1) (x : ℚ) :
    takesUpper f r neg (fun c => compare c (x * 2 ^ (p - f.bias - f.fw : Int))) ((p - 1) * 2 ^ f.fw + a) = upper r neg a x := by
  have hunit : (0 : ℚ) < 2 ^ (p - f.bias - f.fw : Int) := by positivity
  have hk : f.mag ((p - 1) * 2 ^ f.fw + a) = a * 2 ^ (p - f.bias - f.fw : Int) := f.mag_of_significand hp ha.le hnormal
  have hk1 : f.mag ((p - 1) * 2 ^ f.fw + a + 1) = (a + 1 : Nat) * 2 ^ (p - f.bias - f.fw : Int) :=
    f.mag_of_significand hp ha (hnormal.imp_left fun h => by omega)
  have hmid : (a * 2 ^ (p - f.bias - f.fw : Int) + (a + 1 : Nat) * 2 ^ (p - f.bias - f.fw : Int)) / 2 =
      ((a : ℚ) + 1 / 2) * 2 ^ (p - f.bias - f.fw : Int) := by
    push_cast; ring
  have hodd : ((p - 1) * 2 ^ f.fw + a) % 2 = a % 2 := by
    obtain ⟨j, hj⟩ : ∃ j, f.fw = j + 1 := ⟨f.fw - 1, by omega⟩
    rw [hj, pow_succ, ← mul_assoc, Nat.add_comm, Nat.add_mul_mod_self_right]
  cases r <;> simp only [takesUpper, upper, hk, hk1, hmid, hodd, compare_mul_right_of_pos hunit, compare_beq_lt, compare_beq_eq, bne, decide_not, ne_eq]

/-- The unit of an exact value's last place: its binade's, but never below the subnormals'. -/
def unitExp (m : Nat) (e : Int) : Int := max (Nat.log2 m + e - f.fw) (1 - (f.bias : Int) - f.fw)
/-- The encoding from the rounded significand. -/
theorem encFin_of_quantize {m p sig : Nat} {e : Int} (hp : 1 ≤ p) (hq : unitExp f m e = p - f.bias - f.fw) (hsig : sig ≤ 2 ^ (f.fw + 1))
    (hnormal : 2 ^ f.fw ≤ sig ∨ p = 1) (hquant : quantize r neg m e (unitExp f m e) = sig) :
    encFin f r neg m e = finish f r neg ((p - 1) * 2 ^ f.fw + sig) := by
  obtain ⟨n, rfl⟩ : ∃ n, p = n + 1 := ⟨p - 1, by omega⟩
  rw [hq] at hquant
  unfold unitExp at hq
  have hpow : 2 ^ (f.fw + 1) = 2 * 2 ^ f.fw := by ring
  have hpos := Nat.two_pow_pos f.fw
  unfold encFin finish
  simp only [hq, hquant, Nat.add_sub_cancel]
  by_cases hcarry : 2 ^ (f.fw + 1) ≤ sig
  · obtain rfl : sig = 2 ^ (f.fw + 1) := by omega
    have hhalf : 2 ^ (f.fw + 1) / 2 = 2 ^ f.fw := by omega
    have hfield : (((n + 1 : Nat) : Int) - f.bias - f.fw + 1 + f.fw + f.bias).toNat - 1 = n + 1 := by omega
    rw [if_pos le_rfl]
    simp only [hhalf, hfield, lt_irrefl, if_false]
    rw [hpow, show (n + 1) * 2 ^ f.fw + 2 ^ f.fw = n * 2 ^ f.fw + 2 * 2 ^ f.fw by ring]
  · rw [if_neg hcarry]
    have hfield : (((n + 1 : Nat) : Int) - f.bias - f.fw + f.fw + f.bias).toNat - 1 = n := by omega
    simp only [hfield]
    by_cases hsub : sig < 2 ^ f.fw
    · obtain rfl : n = 0 := by omega
      simp only [hsub, if_true, Nat.zero_mul, Nat.zero_add]
    · simp only [hsub, if_false]

/-- An exact value has at most one significand's bits above its unit. -/
theorem exact_lt (m : Nat) (e : Int) : (m : ℚ) * 2 ^ e < 2 ^ (f.fw + 1) * 2 ^ unitExp f m e := by
  have hlog : (m : ℚ) < 2 ^ (Nat.log2 m + 1 : Int) := by exact_mod_cast @Nat.lt_log2_self m
  have hunit : (Nat.log2 m + e - f.fw : Int) ≤ unitExp f m e := le_max_left _ _
  calc (m : ℚ) * 2 ^ e < 2 ^ (Nat.log2 m + 1 : Int) * 2 ^ e := by gcongr
    _ = 2 ^ (Nat.log2 m + 1 + e : Int) := (zpow_add₀ (by norm_num) _ _).symm
    _ ≤ 2 ^ ((f.fw + 1 : Nat) + unitExp f m e : Int) := zpow_le_zpow_right₀ (by norm_num) (by push_cast; linarith)
    _ = _ := by rw [zpow_add₀ (by norm_num), zpow_natCast]
/-- Unless its unit is the subnormals', an exact value has a whole significand's bits. -/
theorem le_exact {m : Nat} (hm : m ≠ 0) {e : Int} (h : unitExp f m e ≠ 1 - f.bias - f.fw) : (2 : ℚ) ^ f.fw * 2 ^ unitExp f m e ≤ m * 2 ^ e := by
  have hlog : (2 : ℚ) ^ (Nat.log2 m : Int) ≤ m := by exact_mod_cast Nat.log2_self_le hm
  have hunit : unitExp f m e = Nat.log2 m + e - f.fw := (max_choice _ _).resolve_right h
  calc (2 : ℚ) ^ f.fw * 2 ^ unitExp f m e = 2 ^ ((f.fw : Int) + unitExp f m e) := by rw [zpow_add₀ (by norm_num), zpow_natCast]
    _ = 2 ^ (Nat.log2 m + e : Int) := by rw [hunit]; congr 1; ring
    _ = 2 ^ (Nat.log2 m : Int) * 2 ^ e := zpow_add₀ (by norm_num) _ _
    _ ≤ m * 2 ^ e := by gcongr

/-- The pattern below an exact value and the one above, and the encoding, which takes one of them. -/
theorem encFin_eq_finish (hfw : 0 < f.fw) {m : Nat} (hm : m ≠ 0) (e : Int) :
    ∃ k, f.mag k ≤ m * 2 ^ e ∧ m * 2 ^ e < f.mag (k + 1) ∧
      encFin f r neg m e = finish f r neg (k + b2n (takesUpper f r neg (fun c => compare c (m * 2 ^ e)) k)) := by
  obtain ⟨p, hp, hq⟩ : ∃ p : Nat, 1 ≤ p ∧ unitExp f m e = p - f.bias - f.fw := by
    have : 1 - (f.bias : Int) - f.fw ≤ unitExp f m e := le_max_right _ _
    exact ⟨(unitExp f m e + f.fw + f.bias).toNat, by omega, by omega⟩
  have hunit : (0 : ℚ) < 2 ^ unitExp f m e := by positivity
  obtain ⟨x, hx⟩ : ∃ x : ℚ, x = m * 2 ^ e / 2 ^ unitExp f m e := ⟨_, rfl⟩
  have hpos : 0 ≤ x := by rw [hx]; positivity
  have hexact : (m : ℚ) * 2 ^ e = x * 2 ^ (p - f.bias - f.fw : Int) := by rw [hx, ← hq, div_mul_cancel₀ _ hunit.ne']
  have hlo : (⌊x⌋₊ : ℚ) ≤ x := Nat.floor_le hpos
  have hhi : x < ⌊x⌋₊ + 1 := Nat.lt_floor_add_one x
  have hsmall : ⌊x⌋₊ < 2 ^ (f.fw + 1) := by
    rw [Nat.floor_lt hpos, hx, div_lt_iff₀ hunit]
    exact_mod_cast exact_lt f m e
  have hnormal : 2 ^ f.fw ≤ ⌊x⌋₊ ∨ p = 1 := by
    by_cases h : unitExp f m e = 1 - f.bias - f.fw
    · exact .inr (by omega)
    · refine .inl (Nat.le_floor ?_)
      rw [hx, le_div_iff₀ hunit]
      exact_mod_cast le_exact f hm h
  refine ⟨(p - 1) * 2 ^ f.fw + ⌊x⌋₊, ?_, ?_, ?_⟩
  · rw [f.mag_of_significand hp hsmall.le hnormal, hexact]
    gcongr
  · rw [Nat.add_assoc, f.mag_of_significand hp hsmall (hnormal.imp_left fun h => by omega), hexact]
    gcongr
    exact_mod_cast hhi
  · rw [hexact, takesUpper_eq_upper f r neg hfw hp hsmall hnormal, Nat.add_assoc]
    have hup : b2n (upper r neg ⌊x⌋₊ x) ≤ 1 := by unfold b2n; split <;> omega
    refine encFin_of_quantize f r neg hp hq (by omega) (hnormal.imp_left fun h => by omega) ?_
    have := quantize_eq r neg m e (unitExp f m e)
    rw [← hx, roundInt_eq_upper r neg hlo hhi] at this
    exact_mod_cast this
theorem rounds_encFin (hfw : 0 < f.fw) {m : Nat} (hm : m ≠ 0) (e : Int) :
    Rounds f r neg (fun c => compare c (m * 2 ^ e)) (encFin f r neg m e) := by
  obtain ⟨k, hlo, hhi, henc⟩ := encFin_eq_finish f r neg hfw hm e
  rw [henc]
  exact rounds_finish f r neg hlo hhi
end
end Sys2Proof.Fp
end

section
/-! PROOF. What patterns stand for in the formats with infinities: their classes and values (R200, R101, R103). -/
namespace Sys2Proof.Fp

/-! ## Patterns -/

/-- The pattern of a sign and the bits below it. -/
def FFmt.pattern (f : FFmt) (neg : Bool) (k : Nat) : Nat := (if neg then f.signBit else 0) + k
/-- A format with infinities and NaNs in its highest exponent, whose subnormals are read as they are (R101, R103). -/
structure FFmt.Plain (f : FFmt) : Prop where
  infinities : f.e4m3 = false
  subnormals : f.flush = false
theorem plain_f32 : f32.Plain := ⟨rfl, rfl⟩
theorem plain_f64 : f64.Plain := ⟨rfl, rfl⟩

theorem FFmt.signBit_eq (f : FFmt) : f.signBit = 2 ^ f.ew * 2 ^ f.fw := pow_add 2 f.ew f.fw
/-- Every word of a format's width is a pattern. -/
theorem FFmt.exists_pattern (f : FFmt) {x : Nat} (hx : x < 2 ^ (1 + f.ew + f.fw)) : ∃ neg k, k < f.signBit ∧ x = f.pattern neg k := by
  have hwidth : 2 ^ (1 + f.ew + f.fw) = 2 * f.signBit := by rw [FFmt.signBit, Nat.add_assoc, pow_add, pow_one]
  by_cases h : f.signBit ≤ x
  · exact ⟨true, x - f.signBit, by omega, by simp [FFmt.pattern]; omega⟩
  · exact ⟨false, x, by omega, by simp [FFmt.pattern]⟩

section
variable {f : FFmt} (neg : Bool) {k : Nat} (hk : k < f.signBit)
include hk

theorem pattern_mod : f.pattern neg k % f.signBit = k := by
  cases neg <;> simp [FFmt.pattern, Nat.mod_eq_of_lt hk]
theorem signBit_le_pattern : f.signBit ≤ f.pattern neg k ↔ neg = true := by
  cases neg <;> simp [FFmt.pattern, hk]
theorem bit_pattern : bit (f.pattern neg k) (f.ew + f.fw) = neg := by
  have hpos : 0 < f.signBit := Nat.two_pow_pos _
  show (f.pattern neg k / f.signBit % 2 == 1) = neg
  cases neg with
  | false => simp [FFmt.pattern, Nat.div_eq_of_lt hk]
  | true => simp [FFmt.pattern, Nat.add_div_left _ hpos, Nat.div_eq_of_lt hk]

/-! ## Classes (R200) -/

/-- The class of a pattern by its magnitude. -/
theorem fclass_pattern (hf : f.Plain) : fclass f (f.pattern neg k) =
    if f.infBits < k then 8 else if k = f.infBits then (if neg then 0 else 7) else if k = 0 then (if neg then 3 else 4)
    else if k < 2 ^ f.fw then (if neg then 2 else 5) else if neg then 1 else 6 := by
  simp only [fclass, bit_pattern neg hk, pattern_mod neg hk, hf.infinities, Bool.false_eq_true, if_false, Bool.not_false, Bool.true_and,
    decide_eq_true_eq, beq_iff_eq]
/-- The class of a pattern by its exponent and fraction. -/
theorem fclass_pattern_fields (hf : f.Plain) : fclass f (f.pattern neg k) =
    if k / 2 ^ f.fw = 2 ^ f.ew - 1 then (if k % 2 ^ f.fw ≠ 0 then 8 else if neg then 0 else 7)
    else if k / 2 ^ f.fw = 0 then (if k % 2 ^ f.fw = 0 then (if neg then 3 else 4) else if neg then 2 else 5)
    else if neg then 1 else 6 := by
  have hpos := Nat.two_pow_pos f.fw
  have hsplit := Nat.div_add_mod' k (2 ^ f.fw)
  have hmod := Nat.mod_lt k hpos
  have hinf : f.infBits = (2 ^ f.ew - 1) * 2 ^ f.fw := rfl
  rw [fclass_pattern neg hk hf]
  by_cases htop : k / 2 ^ f.fw = 2 ^ f.ew - 1
  · rw [htop, ← hinf] at hsplit
    rw [if_pos htop]
    by_cases hfrac : k % 2 ^ f.fw = 0
    · rw [if_neg (by omega), if_pos (by omega), if_neg (not_not.2 hfrac)]
    · rw [if_pos (by omega), if_pos hfrac]
  · have hbelow : k < f.infBits := by
      rw [hinf, ← Nat.div_lt_iff_lt_mul hpos]
      have : k / 2 ^ f.fw < 2 ^ f.ew := by rw [Nat.div_lt_iff_lt_mul hpos, ← f.signBit_eq]; exact hk
      omega
    rw [if_neg htop, if_neg (by omega), if_neg (by omega)]
    by_cases hsub : k / 2 ^ f.fw = 0
    · rw [hsub, Nat.zero_mul, Nat.zero_add] at hsplit
      rw [if_pos hsub, if_pos (by omega : k < 2 ^ f.fw), hsplit]
    · have hge : 2 ^ f.fw ≤ k := by
        by_contra h
        exact hsub (Nat.div_eq_of_lt (by omega))
      rw [if_neg hsub, if_neg (by omega), if_neg (by omega)]

/-! ## Values (R89, R101, R103) -/

theorem val_pattern_nan (hf : f.Plain) (hnan : f.infBits < k) : val f (f.pattern neg k) = .nan := by
  simp only [val, fclass_pattern neg hk hf, if_pos hnan]
theorem val_pattern_inf (hf : f.Plain) (hinf : k = f.infBits) : val f (f.pattern neg k) = .inf neg := by
  have hclass : fclass f (f.pattern neg k) = if neg then 0 else 7 := by rw [fclass_pattern neg hk hf, if_neg (by omega), if_pos hinf]
  simp only [val, hclass, bit_pattern neg hk]
  cases neg <;> rfl
theorem val_pattern_zero (hf : f.Plain) (hpos : 0 < f.infBits) (hzero : k = 0) : val f (f.pattern neg k) = .zero neg := by
  have hclass : fclass f (f.pattern neg k) = if neg then 3 else 4 := by
    rw [fclass_pattern neg hk hf, if_neg (by omega), if_neg (by omega), if_pos hzero]
  simp only [val, hclass, bit_pattern neg hk]
  cases neg <;> rfl
/-- A finite pattern other than a zero stands for its magnitude. -/
theorem val_pattern_fin (hf : f.Plain) (hpos : 0 < k) (hfin : k < f.infBits) :
    ∃ m e, val f (f.pattern neg k) = .fin neg m e ∧ m ≠ 0 ∧ (m : ℚ) * 2 ^ e = f.mag k := by
  have hclass : fclass f (f.pattern neg k) = if k < 2 ^ f.fw then (if neg then 2 else 5) else if neg then 1 else 6 := by
    rw [fclass_pattern neg hk hf, if_neg (by omega), if_neg (by omega), if_neg (by omega)]
  by_cases hsub : k < 2 ^ f.fw
  · refine ⟨k, 1 - f.bias - f.fw, ?_, by omega, by rw [FFmt.mag, if_pos hsub]⟩
    simp only [val, hclass, bit_pattern neg hk, pattern_mod neg hk, if_pos hsub, hf.subnormals]
    cases neg <;> rfl
  · refine ⟨k % 2 ^ f.fw + 2 ^ f.fw, (k / 2 ^ f.fw : Nat) - f.bias - f.fw, ?_, by have := Nat.two_pow_pos f.fw; omega, ?_⟩
    · simp only [val, hclass, bit_pattern neg hk, pattern_mod neg hk, if_neg hsub]
      cases neg <;> rfl
    · rw [FFmt.mag, if_neg hsub, Nat.add_comm]
end
end Sys2Proof.Fp
end

section
/-! PROOF. The order of float patterns: comparisons, minima, maxima and classes (O14, O15). -/
namespace Sys2Proof.Fp

/-! ## The order of a format's values (R198, R199) -/

/-- A finite value. -/
def signed (neg : Bool) (m : Nat) (e : Int) : ℚ := (if neg then -1 else 1) * m * 2 ^ e
theorem scaled_mul_two_pow (neg : Bool) (m : Nat) {e q : Int} (hq : q ≤ e) : (scaled neg m e q : ℚ) * 2 ^ q = signed neg m e := by
  obtain ⟨j, rfl⟩ := Int.le.dest hq
  have hshift : (q + j - q).toNat = j := by omega
  rw [scaled, signed, hshift, zpow_add₀ (by norm_num), zpow_natCast]
  cases neg <;> push_cast <;> simp <;> ring
theorem signed_eq (neg : Bool) (m : Nat) (e : Int) : signed neg m e = if neg then -((m : ℚ) * 2 ^ e) else (m : ℚ) * 2 ^ e := by
  cases neg <;> simp [signed]
theorem lt_fin (s t : Bool) (m n : Nat) (e d : Int) : lt (.fin s m e) (.fin t n d) = decide (signed s m e < signed t n d) := by
  have hpos : (0 : ℚ) < 2 ^ min e d := by positivity
  rw [lt, decide_eq_decide, ← scaled_mul_two_pow s m (min_le_left e d), ← scaled_mul_two_pow t n (min_le_right e d), mul_lt_mul_iff_left₀ hpos,
    Int.cast_lt]

/-- A sign before a magnitude. -/
def FFmt.signedMag (f : FFmt) (neg : Bool) (k : Nat) : ℚ := if neg then -f.mag k else f.mag k
/-- Signs and magnitudes as integers: −0 is +0. -/
def orderKey (neg : Bool) (k : Nat) : Int := if neg then -k else k
theorem orderKey_bounds (s : Bool) (k : Nat) : -(k : Int) ≤ orderKey s k ∧ orderKey s k ≤ k := by
  cases s <;> simp [orderKey]
/-- Of two magnitudes the greater one's sign decides. -/
theorem orderKey_lt_of_lt (s t : Bool) {k j : Nat} (h : k < j) : decide (orderKey s k < orderKey t j) = !t := by
  obtain ⟨hlo, hhi⟩ := orderKey_bounds s k
  cases t with
  | true => exact decide_eq_false (show ¬orderKey s k < -(j : Int) by omega)
  | false => exact decide_eq_true (show orderKey s k < (j : Int) by omega)
theorem orderKey_lt_of_gt (s t : Bool) {k j : Nat} (h : j < k) : decide (orderKey s k < orderKey t j) = s := by
  obtain ⟨hlo, hhi⟩ := orderKey_bounds t j
  cases s with
  | true => exact decide_eq_true (show -(k : Int) < orderKey t j by omega)
  | false => exact decide_eq_false (show ¬(k : Int) < orderKey t j by omega)
/-- Equal magnitudes other than 0 are in order when the lower one alone is negative. -/
theorem orderKey_lt_self (s t : Bool) {k : Nat} (h : 0 < k) : decide (orderKey s k < orderKey t k) = (s && !t) := by
  cases s <;> cases t <;> simp [orderKey]
  omega
theorem signedMag_lt (f : FFmt) (s t : Bool) (k j : Nat) : f.signedMag s k < f.signedMag t j ↔ orderKey s k < orderKey t j := by
  have hmono (a b : Nat) : f.mag a < f.mag b ↔ a < b := f.mag_strictMono.lt_iff_lt
  have hnonneg (a : Nat) : 0 ≤ f.mag a := f.mag_zero ▸ f.mag_strictMono.monotone (Nat.zero_le a)
  have hposIff (a : Nat) : 0 < f.mag a ↔ 0 < a := f.mag_zero ▸ hmono 0 a
  unfold FFmt.signedMag orderKey
  cases s <;> cases t <;> simp only [if_true, Bool.false_eq_true, if_false]
  case false.false => rw [hmono]; omega
  case false.true => have := hnonneg k; have := hnonneg j; constructor <;> intro h <;> [linarith; omega]
  case true.false =>
    constructor
    · intro h
      by_contra hneg
      obtain ⟨rfl, rfl⟩ : k = 0 ∧ j = 0 := by omega
      simp at h
    · intro h
      rcases Nat.eq_zero_or_pos k with rfl | hk
      · have := (hposIff j).2 (by omega); simpa using this
      · have := (hposIff k).2 hk; have := hnonneg j; linarith
  case true.true => rw [neg_lt_neg_iff, hmono]; omega

/-- What a pattern with the bits `k` below its sign stands for when it is no NaN. -/
inductive Stands (f : FFmt) (neg : Bool) (k : Nat) : FVal → Prop
  | zero (h : k = 0) : Stands f neg k (.zero neg)
  | fin (m : Nat) (e : Int) (hpos : 0 < k) (hfin : k < f.infBits) (hmag : (m : ℚ) * 2 ^ e = f.mag k) : Stands f neg k (.fin neg m e)
  | inf (h : k = f.infBits) : Stands f neg k (.inf neg)

theorem stands_pattern {f : FFmt} (hf : f.Plain) {k : Nat} (hk : k < f.signBit) (neg : Bool) (hnan : k ≤ f.infBits) :
    Stands f neg k (val f (f.pattern neg k)) := by
  rcases Nat.lt_or_eq_of_le hnan with h | h
  · rcases Nat.eq_zero_or_pos k with rfl | h0
    · rw [val_pattern_zero neg hk hf h rfl]; exact .zero rfl
    · obtain ⟨m, e, hval, -, hmag⟩ := val_pattern_fin neg hk hf h0 h
      rw [hval]; exact .fin m e h0 h hmag
  · rw [val_pattern_inf neg hk hf h]; exact .inf h

namespace Stands
variable {f : FFmt} {s t : Bool} {k j : Nat} {x y : FVal}

theorem isNan_eq (hx : Stands f s k x) : isNan x = false := by cases hx <;> rfl
theorem negZero_eq (hpos : 0 < f.infBits) (hx : Stands f s k x) : negZero x = (s && k == 0) := by
  cases hx with
  | zero h => subst h; cases s <;> rfl
  | fin m e h0 => rw [beq_false_of_ne h0.ne', Bool.and_false]; rfl
  | inf h => rw [beq_false_of_ne (h ▸ hpos).ne', Bool.and_false]; rfl
theorem posZero_eq (hpos : 0 < f.infBits) (hx : Stands f s k x) : posZero x = (!s && k == 0) := by
  cases hx with
  | zero h => subst h; cases s <;> rfl
  | fin m e h0 => rw [beq_false_of_ne h0.ne', Bool.and_false]; rfl
  | inf h => rw [beq_false_of_ne (h ▸ hpos).ne', Bool.and_false]; rfl
/-- Of values that are no NaNs, the order is that of the signed magnitudes. -/
theorem lt_eq (hpos : 0 < f.infBits) (hx : Stands f s k x) (hy : Stands f t j y) :
    lt x y = decide (orderKey s k < orderKey t j) := by
  cases hx with
  | zero hk =>
    subst hk
    cases hy with
    | zero hj => subst hj; cases s <;> cases t <;> rfl
    | fin _ _ hj => exact (orderKey_lt_of_lt s t hj).symm
    | inf hj => exact (orderKey_lt_of_lt s t (hj ▸ hpos)).symm
  | inf hk =>
    subst hk
    cases hy with
    | zero hj => exact (orderKey_lt_of_gt s t (hj ▸ hpos)).symm
    | fin _ _ _ hj => exact (orderKey_lt_of_gt s t hj).symm
    | inf hj => exact hj ▸ (orderKey_lt_self s t hpos).symm
  | fin m e hk0 hk hmagk =>
    cases hy with
    | zero hj => exact (orderKey_lt_of_gt s t (hj ▸ hk0)).symm
    | inf hj => exact (orderKey_lt_of_lt s t (hj ▸ hk)).symm
    | fin n d hj0 hj hmagj =>
      rw [lt_fin, signed_eq, signed_eq, hmagk, hmagj, decide_eq_decide]
      exact signedMag_lt f s t k j
/-- Below is −0 below +0 too, as for FMIN and FMAX (R198). -/
theorem lt_or_zeros (hpos : 0 < f.infBits) (hx : Stands f s k x) (hy : Stands f t j y) :
    (lt x y || (negZero x && posZero y)) = decide ((if s then -(k : Int) - 1 else k) < if t then -(j : Int) - 1 else j) := by
  rw [lt_eq hpos hx hy, negZero_eq hpos hx, posZero_eq hpos hy, Bool.eq_iff_iff]
  unfold orderKey
  cases s <;> cases t <;> simp <;> omega
end Stands

/-! ## Patterns as words -/

/-- Whether a word is a NaN's pattern. -/
def FFmt.nanWord (f : FFmt) (x : Nat) : Bool := decide (f.infBits < x % f.signBit)
/-- A word as a signed magnitude. -/
def FFmt.wordKey (f : FFmt) (x : Nat) : Int := if f.signBit ≤ x then -((x - f.signBit : Nat) : Int) else x
/-- A word as a signed magnitude, −0 below +0. -/
def FFmt.zeroKey (f : FFmt) (x : Nat) : Int := if f.signBit ≤ x then -((x - f.signBit : Nat) : Int) - 1 else x

section
variable {f : FFmt} (neg : Bool) {k : Nat} (hk : k < f.signBit)
include hk
theorem wordKey_pattern : f.wordKey (f.pattern neg k) = orderKey neg k := by
  simp only [FFmt.wordKey, signBit_le_pattern neg hk]
  cases neg <;> simp [orderKey, FFmt.pattern]
theorem zeroKey_pattern : f.zeroKey (f.pattern neg k) = if neg then -(k : Int) - 1 else k := by
  simp only [FFmt.zeroKey, signBit_le_pattern neg hk]
  cases neg <;> simp [FFmt.pattern]
end

/-- A word is a NaN, or stands for its signed magnitude. -/
theorem word_cases {f : FFmt} (hf : f.Plain) {x : Nat} (hx : x < 2 ^ (1 + f.ew + f.fw)) :
    (f.nanWord x = true ∧ val f x = .nan) ∨
    ∃ neg k, f.nanWord x = false ∧ Stands f neg k (val f x) ∧ f.wordKey x = orderKey neg k ∧ f.zeroKey x = if neg then -(k : Int) - 1 else k := by
  obtain ⟨neg, k, hk, rfl⟩ := f.exists_pattern hx
  rw [FFmt.nanWord, pattern_mod neg hk]
  by_cases h : f.infBits < k
  · exact .inl ⟨decide_eq_true h, val_pattern_nan neg hk hf h⟩
  · exact .inr ⟨neg, k, decide_eq_false h, stands_pattern hf hk neg (by omega), wordKey_pattern neg hk, zeroKey_pattern neg hk⟩

/-! ## FCMP, FMIN, FMAX on words -/

section
variable {f : FFmt} (hf : f.Plain) (hpos : 0 < f.infBits) {x y : Nat} (hx : x < 2 ^ (1 + f.ew + f.fw)) (hy : y < 2 ^ (1 + f.ew + f.fw))
include hf hx

theorem isNan_val : isNan (val f x) = f.nanWord x := by
  rcases word_cases hf hx with ⟨hnan, hval⟩ | ⟨_, _, hnan, hval, -⟩
  · rw [hnan, hval]; rfl
  · rw [hnan, hval.isNan_eq]
include hpos hy
theorem lt_val (hxn : f.nanWord x = false) (hyn : f.nanWord y = false) : lt (val f x) (val f y) = decide (f.wordKey x < f.wordKey y) := by
  rcases word_cases hf hx with ⟨h, -⟩ | ⟨s, k, -, hvx, hkx, -⟩
  · rw [hxn] at h; cases h
  rcases word_cases hf hy with ⟨h, -⟩ | ⟨t, j, -, hvy, hky, -⟩
  · rw [hyn] at h; cases h
  rw [Stands.lt_eq hpos hvx hvy, hkx, hky]
theorem lt_or_zeros_val (hxn : f.nanWord x = false) (hyn : f.nanWord y = false) :
    (lt (val f x) (val f y) || (negZero (val f x) && posZero (val f y))) = decide (f.zeroKey x < f.zeroKey y) := by
  rcases word_cases hf hx with ⟨h, -⟩ | ⟨s, k, -, hvx, -, hkx⟩
  · rw [hxn] at h; cases h
  rcases word_cases hf hy with ⟨h, -⟩ | ⟨t, j, -, hvy, -, hky⟩
  · rw [hyn] at h; cases h
  rw [Stands.lt_or_zeros hpos hvx hvy, hkx, hky]

/-- FCMP's relations on words. -/
theorem fcmp_holds_val (cm : FCmp) : cm.holds (val f x) (val f y) =
    match cm with
    | .eq => (!f.nanWord x && !f.nanWord y) && decide (f.wordKey x = f.wordKey y)
    | .ne => !(!f.nanWord x && !f.nanWord y) || decide (f.wordKey x ≠ f.wordKey y)
    | .lt => (!f.nanWord x && !f.nanWord y) && decide (f.wordKey x < f.wordKey y)
    | .le => (!f.nanWord x && !f.nanWord y) && decide (f.wordKey x ≤ f.wordKey y)
    | .gt => (!f.nanWord x && !f.nanWord y) && decide (f.wordKey y < f.wordKey x)
    | .ge => (!f.nanWord x && !f.nanWord y) && decide (f.wordKey y ≤ f.wordKey x)
    | .num => !f.nanWord x && !f.nanWord y
    | .nan => !(!f.nanWord x && !f.nanWord y) := by
  simp only [FCmp.holds, Fp.eq, isNan_val hf hx, isNan_val hf hy]
  cases hxn : f.nanWord x with
  | true => cases cm <;> simp
  | false =>
    cases hyn : f.nanWord y with
    | true => cases cm <;> simp
    | false =>
      have hlt := lt_val hf hpos hx hy hxn hyn
      have hgt := lt_val hf hpos hy hx hyn hxn
      have heq : (!decide (f.wordKey x < f.wordKey y) && !decide (f.wordKey y < f.wordKey x)) = decide (f.wordKey x = f.wordKey y) := by
        rw [Bool.eq_iff_iff]; simp; omega
      have hle (a b : Int) : (!decide (b < a)) = decide (a ≤ b) := by rw [← decide_not, decide_eq_decide, Int.not_lt]
      cases cm with
      | eq | ne => simp only [hlt, hgt, heq, Bool.not_false, Bool.not_true, Bool.true_and, Bool.false_or, decide_not, ne_eq]
      | lt | le | gt | ge | num | nan => simp only [hlt, hgt, hle, Bool.not_false, Bool.true_and]
theorem fmin_val : fmin f x y = if f.nanWord x && f.nanWord y then f.qnan else if f.nanWord x then y else if f.nanWord y then x
    else if f.zeroKey x ≤ f.zeroKey y then x else y := by
  simp only [fmin, isNan_val hf hx, isNan_val hf hy]
  cases hxn : f.nanWord x with
  | true => rfl
  | false =>
    cases hyn : f.nanWord y with
    | true => rfl
    | false =>
      simp only [lt_or_zeros_val hf hpos hy hx hyn hxn, Bool.false_and, Bool.false_eq_true, if_false, decide_eq_true_eq, ← Int.not_le, ite_not]
theorem fmax_val : fmax f x y = if f.nanWord x && f.nanWord y then f.qnan else if f.nanWord x then y else if f.nanWord y then x
    else if f.zeroKey y ≤ f.zeroKey x then x else y := by
  simp only [fmax, isNan_val hf hx, isNan_val hf hy]
  cases hxn : f.nanWord x with
  | true => rfl
  | false =>
    cases hyn : f.nanWord y with
    | true => rfl
    | false =>
      simp only [lt_or_zeros_val hf hpos hx hy hxn hyn, Bool.false_and, Bool.false_eq_true, if_false, decide_eq_true_eq, ← Int.not_le, ite_not]
end

/-- The class of a word by its sign, exponent and fraction (R200). -/
theorem fclass_word {f : FFmt} (hf : f.Plain) {x : Nat} (hx : x < 2 ^ (1 + f.ew + f.fw)) : fclass f x =
    if x / 2 ^ f.fw % 2 ^ f.ew = 2 ^ f.ew - 1 then (if x % 2 ^ f.fw ≠ 0 then 8 else if decide (f.signBit ≤ x) then 0 else 7)
    else if x / 2 ^ f.fw % 2 ^ f.ew = 0 then
      (if x % 2 ^ f.fw = 0 then (if decide (f.signBit ≤ x) then 3 else 4) else if decide (f.signBit ≤ x) then 2 else 5)
    else if decide (f.signBit ≤ x) then 1 else 6 := by
  obtain ⟨neg, k, hk, rfl⟩ := f.exists_pattern hx
  have hsign : decide (f.signBit ≤ f.pattern neg k) = neg := by rw [Bool.eq_iff_iff, decide_eq_true_iff]; exact signBit_le_pattern neg hk
  have hlow : f.pattern neg k % 2 ^ f.fw = k % 2 ^ f.fw := by
    cases neg <;> simp [FFmt.pattern, f.signBit_eq]
  have hhigh : f.pattern neg k / 2 ^ f.fw % 2 ^ f.ew = k / 2 ^ f.fw := by
    have hmod : f.pattern neg k / 2 ^ f.fw % 2 ^ f.ew = f.pattern neg k % f.signBit / 2 ^ f.fw := by
      rw [f.signBit_eq, Nat.mul_comm, Nat.mod_mul_right_div_self]
    rw [hmod, pattern_mod neg hk]
  rw [fclass_pattern_fields neg hk hf, hsign, hlow, hhigh]
end Sys2Proof.Fp

namespace Sys2Proof.Machine

/-- What FP32 and FP64 have in common. -/
theorem plain_ofTy {ty : Ty} (hty : ty = .f32 ∨ ty = .f64) :
    (Fp.ofTy ty).Plain ∧ 0 < (Fp.ofTy ty).infBits ∧ 2 ^ (ty.width - 1) = (Fp.ofTy ty).signBit ∧ ty.width = 1 + (Fp.ofTy ty).ew + (Fp.ofTy ty).fw := by
  rcases hty with rfl | rfl
  · exact ⟨Fp.plain_f32, by decide, rfl, rfl⟩
  · exact ⟨Fp.plain_f64, by decide, rfl, rfl⟩
theorem Ty.width_of_f32_or_f64 {ty : Ty} (hty : ty = .f32 ∨ ty = .f64) : ty.width = 32 ∨ ty.width = 64 := by
  rcases hty with rfl | rfl
  · exact .inl rfl
  · exact .inr rfl
/-- A lane value read at FP32 or FP64 is a pattern of the format. -/
theorem WSrc.at_lt_format {ty : Ty} (hty : ty = .f32 ∨ ty = .f64) {x : WSrc} (h : x.is64 = ty.is64) (l : Nat) :
    x.at l < 2 ^ (1 + (Fp.ofTy ty).ew + (Fp.ofTy ty).fw) := by
  obtain ⟨-, -, -, hwidth⟩ := plain_ofTy hty
  exact hwidth ▸ WSrc.at_lt_width (Ty.width_of_f32_or_f64 hty) h l

/-- Settles O14: the order of the values is that of the patterns as signed magnitudes. -/
theorem floatCompareAndMinMax : Obligations.FloatCompareAndMinMax := by
  unfold Obligations.FloatCompareAndMinMax
  refine ⟨fun ty cm o s hty => ?_, fun ty o s hty => ?_⟩
  · intro f half nan key a b holds
    obtain ⟨hf, hpos, hhalf, -⟩ := plain_ofTy hty
    have hnan : nan = f.nanWord := by funext x; simp only [nan, half, hhalf]; rfl
    have hkey : key = f.wordKey := by funext x; simp only [key, half, hhalf]; rfl
    refine (s.predOp_putP o _ _ _).congr (fun l hl => ?_) fun l _ => tagAt_joinTwo a b l
    rw [getLsbD_maskOf, decide_eq_true hl, Bool.true_and, Fp.fcmp_holds_val hf hpos (WSrc.at_lt_format hty rfl l) (WSrc.at_lt_format hty rfl l)]
    simp only [holds, hnan, hkey]
    cases cm <;> rfl
  · intro f half nan key pick
    obtain ⟨hf, hpos, hhalf, -⟩ := plain_ofTy hty
    have hnan : nan = f.nanWord := by funext x; simp only [nan, half, hhalf]; rfl
    have hkey : key = f.zeroKey := by funext x; simp only [key, half, hhalf]; rfl
    refine ⟨s.laneOp_other o ty.is64 _ fun l _ => ?_, s.laneOp_other o ty.is64 _ fun l _ => ?_⟩
    · simp only [pick, hnan, hkey]
      exact Fp.fmin_val hf hpos (WSrc.at_lt_format hty rfl l) (WSrc.at_lt_format hty rfl l)
    · simp only [pick, hnan, hkey]
      exact Fp.fmax_val hf hpos (WSrc.at_lt_format hty rfl l) (WSrc.at_lt_format hty rfl l)

/-- Settles O15: a class is read off the exponent and the fraction. -/
theorem floatClass : Obligations.FloatClass := by
  unfold Obligations.FloatClass
  intro ty o s hty f cls
  obtain ⟨hf, -, hhalf, -⟩ := plain_ofTy hty
  refine s.laneOp_other o false _ fun l _ => ?_
  simp only [cls, hhalf]
  exact congrArg (2 ^ ·) (Fp.fclass_word hf (WSrc.at_lt_format hty rfl l))
end Sys2Proof.Machine
end

section
/-! PROOF. Quotients rounded once, exact sums and products, round trips and special operands (O16). -/
namespace Sys2Proof.Fp

/-! ## Quotients (R107, R197) -/

theorem compare_congr {a b c d : ℚ} (hlt : a < b ↔ c < d) (heq : a = b ↔ c = d) : compare a b = compare c d := by
  rcases lt_trichotomy a b with h | h | h
  · rw [compare_lt_iff_lt.2 h, compare_lt_iff_lt.2 (hlt.1 h)]
  · rw [compare_eq_iff_eq.2 h, compare_eq_iff_eq.2 (heq.1 h)]
  · rw [compare_gt_iff_gt.2 h, compare_gt_iff_gt.2 (lt_of_le_of_ne (not_lt.1 fun h' => h.not_gt (hlt.2 h')) fun h' => h.ne' (heq.2 h'.symm))]

/-- An integer quotient with a sticky bit below it. -/
def sticky (num n : Nat) : Nat := num / n * 2 + b2n (num % n != 0)
/-- Against whole numbers the sticky bit decides as the exact quotient does. -/
theorem compare_sticky (j num : Nat) {n : Nat} (hn : n ≠ 0) : compare ((j * 2 : Nat) : ℚ) (sticky num n : Nat) = compare ((j * n : Nat) : ℚ) (num : Nat) := by
  have hmod := Nat.mod_lt num (Nat.pos_of_ne_zero hn)
  have hbit : b2n (num % n != 0) = if num % n = 0 then 0 else 1 := by
    by_cases h : num % n = 0 <;> simp [b2n, h]
  rw [sticky, hbit]
  conv_rhs => rw [← Nat.div_add_mod' num n]
  generalize num / n = q
  generalize num % n = r at hmod
  have hcases : (j < q ∧ j * n + n ≤ q * n) ∨ j = q ∨ (q < j ∧ q * n + n ≤ j * n) := by
    rcases lt_trichotomy j q with h | h | h
    · exact .inl ⟨h, by rw [← Nat.succ_mul]; exact Nat.mul_le_mul_right n h⟩
    · exact .inr (.inl h)
    · exact .inr (.inr ⟨h, by rw [← Nat.succ_mul]; exact Nat.mul_le_mul_right n h⟩)
  refine compare_congr ?_ ?_
  · rw [Nat.cast_lt, Nat.cast_lt]
    rcases hcases with h | rfl | h <;> split <;> omega
  · rw [Nat.cast_inj, Nat.cast_inj]
    rcases hcases with h | rfl | h <;> split <;> omega
/-- A quotient of at least 80 bits. -/
theorem two_pow_mul_le {m n : Nat} (hm : m ≠ 0) : 2 ^ 79 * n ≤ m * 2 ^ (80 + Nat.log2 n) := calc
  2 ^ 79 * n ≤ 2 ^ 79 * 2 ^ (Nat.log2 n + 1) := Nat.mul_le_mul_left _ (@Nat.lt_log2_self n).le
  _ = 2 ^ (80 + Nat.log2 n) := by rw [← pow_add]; congr 1; omega
  _ ≤ m * 2 ^ (80 + Nat.log2 n) := Nat.le_mul_of_pos_left _ (Nat.pos_of_ne_zero hm)

/-- Against a number of at most 80 bits the quotient with its sticky bit compares as the exact quotient does. -/
theorem compare_quotient {u : Nat} (hu : u < 2 ^ 80) (x : Int) {m n : Nat} (hm : m ≠ 0) (hn : n ≠ 0) (e d : Int) :
    compare ((u : ℚ) * 2 ^ x) ((sticky (m * 2 ^ (80 + Nat.log2 n)) n : Nat) * 2 ^ (e - d - (80 + Nat.log2 n : Nat) - 1)) =
      compare ((u : ℚ) * 2 ^ x * (n * 2 ^ d)) (m * 2 ^ e) := by
  have hbig := two_pow_mul_le (n := n) hm
  have hexact : (m : ℚ) * 2 ^ e = (m * 2 ^ (80 + Nat.log2 n) : Nat) * 2 ^ (e - d - (80 + Nat.log2 n : Nat) - 1 + 1) * 2 ^ d := by
    have hexp : e = (80 + Nat.log2 n : Nat) + (e - d - (80 + Nat.log2 n : Nat) - 1 + 1) + d := by ring
    conv_lhs => rw [hexp, zpow_add₀ (by norm_num), zpow_add₀ (by norm_num), zpow_natCast]
    push_cast; ring
  rw [hexact, ← mul_assoc, compare_mul_right_of_pos (by positivity)]
  generalize e - d - (80 + Nat.log2 n : Nat) - 1 = E
  generalize m * 2 ^ (80 + Nat.log2 n) = num at hbig
  have hunit : (0 : ℚ) < 2 ^ E := by positivity
  have hnext : (2 : ℚ) ^ (E + 1) = 2 ^ E * 2 := zpow_add_one₀ (by norm_num) E
  rcases le_or_gt (E + 1) x with hx | hx
  · obtain ⟨i, rfl⟩ := Int.le.dest hx
    have hwhole : (u : ℚ) * 2 ^ (E + 1 + i) = (u * 2 ^ i : Nat) * 2 ^ (E + 1) := by
      rw [zpow_add₀ (by norm_num), zpow_natCast]; push_cast; ring
    have hleft : ((u * 2 ^ i : Nat) : ℚ) * 2 ^ (E + 1) = (u * 2 ^ i * 2 : Nat) * 2 ^ E := by rw [hnext]; push_cast; ring
    have hright : ((u * 2 ^ i : Nat) : ℚ) * 2 ^ (E + 1) * n = (u * 2 ^ i * n : Nat) * 2 ^ (E + 1) := by push_cast; ring
    rw [hwhole, hright, hleft, compare_mul_right_of_pos hunit, compare_mul_right_of_pos (by positivity)]
    exact compare_sticky _ _ hn
  · have hsmall : (u : ℚ) * 2 ^ x < 2 ^ 80 * 2 ^ E := by
      have hu' : (u : ℚ) < 2 ^ 80 := by exact_mod_cast hu
      have hpow : (2 : ℚ) ^ x ≤ 2 ^ E := zpow_le_zpow_right₀ (by norm_num) (by omega)
      calc (u : ℚ) * 2 ^ x ≤ u * 2 ^ E := by gcongr
        _ < 2 ^ 80 * 2 ^ E := by gcongr
    have hquot : (2 : ℚ) ^ 80 ≤ (sticky num n : Nat) := by
      have hdiv : 2 ^ 79 ≤ num / n := (Nat.le_div_iff_mul_le (Nat.pos_of_ne_zero hn)).2 hbig
      have : 2 ^ 80 ≤ sticky num n := by unfold sticky; omega
      exact_mod_cast this
    have hnum : (2 : ℚ) ^ 79 * n ≤ num := by exact_mod_cast hbig
    have hnpos : (0 : ℚ) < n := by exact_mod_cast Nat.pos_of_ne_zero hn
    rw [compare_lt_iff_lt.2 (hsmall.trans_le (by gcongr)), compare_lt_iff_lt.2 ?_]
    calc (u : ℚ) * 2 ^ x * n < 2 ^ 80 * 2 ^ E * n := by gcongr
      _ = 2 ^ 79 * n * 2 ^ (E + 1) := by rw [hnext]; ring
      _ ≤ num * 2 ^ (E + 1) := by gcongr

/-- Rounding compares the exact value only with numbers of two bits more than a fraction. -/
theorem Rounds.congr {f : FFmt} {r : Rnd} {neg : Bool} {against against' : ℚ → Ordering} {b : Nat}
    (h : ∀ (u : Nat) (x : Int), u < 2 ^ (f.fw + 2) → against (u * 2 ^ x) = against' (u * 2 ^ x)) (hr : Rounds f r neg against b) :
    Rounds f r neg against' b := by
  have hpow : 2 ^ (f.fw + 2) = 2 * 2 ^ (f.fw + 1) := by ring
  have hmag (k : Nat) : against (f.mag k) = against' (f.mag k) := by
    obtain ⟨p, a, hp, ha, hnormal, rfl⟩ := f.exists_significand k
    rw [f.mag_of_significand hp ha.le hnormal]
    exact h a _ (by omega)
  have hmid (k : Nat) : against ((f.mag k + f.mag (k + 1)) / 2) = against' ((f.mag k + f.mag (k + 1)) / 2) := by
    obtain ⟨p, a, hp, ha, hnormal, rfl⟩ := f.exists_significand k
    rw [Nat.add_assoc, f.mag_of_significand hp ha.le hnormal, f.mag_of_significand hp ha (hnormal.imp_left fun h => by omega)]
    have hhalf : (a * 2 ^ (p - f.bias - f.fw : Int) + (a + 1 : Nat) * 2 ^ (p - f.bias - f.fw : Int) : ℚ) / 2 =
        (2 * a + 1 : Nat) * 2 ^ (p - f.bias - f.fw - 1 : Int) := by
      rw [zpow_sub_one₀ (by norm_num)]; push_cast; ring
    rw [hhalf]
    exact h _ _ (by omega)
  unfold Rounds takesUpper at hr ⊢
  simp only [hmag, hmid] at hr
  exact hr
theorem rounds_div (f : FFmt) (r : Rnd) (hfw : 0 < f.fw) (hfw' : f.fw + 2 ≤ 80) (s t : Bool) {m n : Nat} (hm : m ≠ 0) (hn : n ≠ 0) (e d : Int) :
    Rounds f r (s != t) (fun c => compare (c * (n * 2 ^ d)) (m * 2 ^ e)) (enc f r (div (.fin s m e) (.fin t n d))) := by
  have hsticky : sticky (m * 2 ^ (80 + Nat.log2 n)) n ≠ 0 := by
    have hdiv : 2 ^ 79 ≤ m * 2 ^ (80 + Nat.log2 n) / n := (Nat.le_div_iff_mul_le (Nat.pos_of_ne_zero hn)).2 (two_pow_mul_le hm)
    unfold sticky; omega
  have henc : enc f r (div (.fin s m e) (.fin t n d)) =
      encFin f r (s != t) (sticky (m * 2 ^ (80 + Nat.log2 n)) n) (e - d - (80 + Nat.log2 n : Nat) - 1) := if_neg hsticky
  rw [henc]
  exact (rounds_encFin f r _ hfw hsticky _).congr fun u x hu =>
    compare_quotient (hu.trans_le (Nat.pow_le_pow_right (by decide) hfw')) x hm hn e d

/-! ## Sums and products (R107, R197) -/

section
variable (r : Rnd) (s t : Bool) (m n : Nat) (e d : Int)

/-- The sum of two scaled integers at the lower exponent is exact. -/
theorem scaled_add : ((scaled s m e (min e d) + scaled t n d (min e d) : Int) : ℚ) * 2 ^ min e d = signed s m e + signed t n d := by
  rw [Int.cast_add, add_mul, scaled_mul_two_pow s m (min_le_left e d), scaled_mul_two_pow t n (min_le_right e d)]
theorem add_fin_eq_zero (h : signed s m e + signed t n d = 0) : add r (.fin s m e) (.fin t n d) = .zero (r = .rd) := by
  rw [← scaled_add, mul_eq_zero, Int.cast_eq_zero] at h
  exact if_pos (h.resolve_right (by positivity))
theorem add_fin_ne_zero (h : signed s m e + signed t n d ≠ 0) :
    ∃ ug q x, add r (.fin s m e) (.fin t n d) = .fin ug q x ∧ q ≠ 0 ∧ signed ug q x = signed s m e + signed t n d := by
  rw [← scaled_add] at h ⊢
  have hsum : scaled s m e (min e d) + scaled t n d (min e d) ≠ 0 := fun h0 => h (by rw [h0]; simp)
  refine ⟨_, _, _, if_neg hsum, Int.natAbs_ne_zero.2 hsum, ?_⟩
  generalize scaled s m e (min e d) + scaled t n d (min e d) = z
  rw [signed, Nat.cast_natAbs]
  rcases lt_or_ge z 0 with hz | hz
  · simp [hz, abs_of_neg hz]
  · simp [not_lt.2 hz, abs_of_nonneg hz]
theorem signed_mul : signed (s != t) (m * n) (e + d) = signed s m e * signed t n d := by
  rw [signed, signed, signed, zpow_add₀ (by norm_num)]
  cases s <;> cases t <;> push_cast <;> simp <;> ring
end

/-! ## Reading and encoding (R103, R104) -/

/-- A magnitude of the format is encoded as itself in every mode. -/
theorem encFin_mag (f : FFmt) (r : Rnd) (neg : Bool) (hfw : 0 < f.fw) {m k : Nat} {e : Int} (hk : k ≤ f.maxFin) (hm : m ≠ 0)
    (hmag : (m : ℚ) * 2 ^ e = f.mag k) : encFin f r neg m e = f.pattern neg k := by
  have hnext : f.mag k < f.mag (k + 1) := f.mag_strictMono (Nat.lt_succ_self k)
  obtain ⟨-, hround⟩ := rounds_encFin f r neg hfw hm e
  rw [hmag] at hround
  have hmid : compare ((f.mag k + f.mag (k + 1)) / 2) (f.mag k) = .gt := compare_gt_iff_gt.2 (by linarith)
  have hdown : takesUpper f r neg (fun c => compare c (f.mag k)) k = false := by
    cases r <;> simp [takesUpper, hmid]
  rw [hround k hk (by simp) (compare_gt_iff_gt.2 hnext), hdown]
  rfl
theorem Stands.enc_eq {f : FFmt} (hf : f.Plain) (r : Rnd) (hfw : 0 < f.fw) {neg : Bool} {k : Nat} {v : FVal} (hv : Stands f neg k v) :
    enc f r v = f.pattern neg k := by
  cases hv with
  | zero h => subst h; rfl
  | inf h => subst h; rw [enc, hf.infinities]; rfl
  | fin m e hpos hfin hmag =>
    have hmax : f.maxFin = f.infBits - 1 := by rw [FFmt.maxFin, hf.infinities]; rfl
    have hm : m ≠ 0 := by
      rintro rfl
      have := f.mag_strictMono hpos
      rw [f.mag_zero, ← hmag] at this
      simp at this
    rw [enc, if_neg hm]
    exact encFin_mag f r neg hfw (by omega) hm hmag
theorem enc_val {f : FFmt} (hf : f.Plain) (r : Rnd) (hfw : 0 < f.fw) {x : Nat} (hx : x < 2 ^ (1 + f.ew + f.fw)) :
    enc f r (val f x) = if f.infBits < x % 2 ^ (f.ew + f.fw) then f.infBits + 2 ^ (f.fw - 1) else x := by
  obtain ⟨neg, k, hk, rfl⟩ := f.exists_pattern hx
  rw [show 2 ^ (f.ew + f.fw) = f.signBit from rfl, pattern_mod neg hk]
  by_cases hnan : f.infBits < k
  · rw [if_pos hnan, val_pattern_nan neg hk hf hnan, enc, FFmt.qnan, hf.infinities]; rfl
  · rw [if_neg hnan, (stands_pattern hf hk neg (by omega)).enc_eq hf r hfw]

/-! ## Special operands (R197) -/

section
variable (r : Rnd) (s t : Bool) (k : Nat) (e : Int) (x : FVal)

theorem add_nan_left : add r .nan x = .nan := by cases x <;> rfl
theorem add_nan_right : add r x .nan = .nan := by cases x <;> rfl
theorem mul_nan_left : mul .nan x = .nan := by cases x <;> rfl
theorem mul_nan_right : mul x .nan = .nan := by cases x <;> rfl
theorem div_nan_left : div .nan x = .nan := by cases x <;> rfl
theorem div_nan_right : div x .nan = .nan := by cases x <;> rfl
theorem add_inf_inf : add r (.inf s) (.inf t) = if s = t then .inf s else .nan := by cases s <;> rfl
theorem add_zero_zero : add r (.zero s) (.zero t) = .zero (if s = t then s else r = .rd) := by
  rw [add]; split <;> rfl
end

/-! ## The statement -/

/-- Settles O16: an encoding takes a neighbour of the exact value, a quotient's sticky bit compares as the exact quotient does, sums and
products are exact, and the special operands are the cases of the operations. -/
theorem floatSpecialOperands : Obligations.FloatSpecialOperands := by
  unfold Obligations.FloatSpecialOperands
  intro real mag huge' rounds formats
  have hfraction : ∀ f ∈ formats, 0 < f.fw ∧ f.fw + 2 ≤ 80 := by decide
  have hreal (k : Nat) (e : Int) : real false k e = k * 2 ^ e := by simp [real]
  refine ⟨fun f hf m sg k e hk => ?_, fun f hf m sg tg k n e d hk hn => ?_, fun m sg tg k n e d => ?_, fun f m x hf hx => ?_, fun m x sg tg k e => ?_⟩
  · obtain ⟨hfw, -⟩ := hfraction f hf
    have henc : enc f m (.fin sg k e) = encFin f m sg k e := if_neg hk
    rw [hreal, henc]
    exact rounds_encFin f m sg hfw hk e
  · obtain ⟨hfw, hfw'⟩ := hfraction f hf
    rw [hreal, hreal]
    exact rounds_div f m hfw hfw' sg tg hk hn e d
  · exact ⟨add_fin_eq_zero m sg tg k n e d, add_fin_ne_zero m sg tg k n e d, ⟨_, _, rfl, signed_mul sg tg k n e d⟩, rfl, rfl,
      add_zero_zero m sg tg, rfl, rfl, rfl⟩
  · rcases hf with rfl | rfl
    · exact enc_val plain_f32 m (by decide) hx
    · exact enc_val plain_f64 m (by decide) hx
  · refine ⟨add_nan_left m x, add_nan_right m x, mul_nan_left x, mul_nan_right x, div_nan_left x, div_nan_right x, rfl, rfl, rfl, rfl,
      (add_inf_inf m sg (!sg)).trans (if_neg (by simp)), (add_inf_inf m sg sg).trans (if_pos rfl), rfl, rfl, rfl, rfl, rfl, rfl, rfl, rfl, rfl,
      rfl, rfl, rfl, rfl, rfl, rfl, rfl, rfl, rfl, rfl⟩
end Sys2Proof.Fp
end

section
/-! PROOF. What a safe outcome is, and how safety goes through branches, folds and the passes of a lane access. -/
namespace Sys2Proof.Machine

/-- Whatever state an outcome goes on to is safe. -/
noncomputable def SafeOut (r : Out) : Prop := ∀ t, r = .next t → t.safe

/-- One lane of a pass: what its held request, its translation and `refuse` answer (R248, R249). -/
noncomputable def locateLane (m : Access) (eas : Nat → Nat) (refuse : Nat → Nat → Loc → Option Pending) (reqs : List FaultReq)
    (acc : List (Nat × LaneAt) × State) (l : Nat) : List (Nat × LaneAt) × State :=
  match reqs.find? fun r => r.lanes.getLsbD l with
  | some r => (acc.1 ++ [(l, if r.failed then .refused (xlateCause (eas l) l r.kind r.acc r.tbl) else .held)], acc.2)
  | none =>
    let (x, s) := acc.2.locate l (eas l) m.acc (spanOf m.n)
    let x : LaneAt := match x with
      | .ok loc => (match refuse l (eas l) loc with | some c => .refused c | none => .ok loc)
      | x => x
    (acc.1 ++ [(l, x)], s)

/-- The lanes of a pass with what each is answered, and the state that their translations leave. -/
noncomputable def State.located (s : State) (m : Access) (left : Word) (eas : Nat → Nat) (refuse : Nat → Nat → Loc → Option Pending) :
    List (Nat × LaneAt) × State :=
  (lanesOf (s.passLanes m left)).foldl (locateLane m eas refuse (s.groupReqs s.iss.key)) ([], s)

/-- The lanes that reach memory. -/
noncomputable def okLanes (rs : List (Nat × LaneAt)) : List (Nat × Loc) :=
  rs.filterMap fun e => match e.2 with | .ok loc => some (e.1, loc) | _ => none

/-- The accesses of a pass: what comes before them, they themselves, and the acquire that follows. -/
noncomputable def State.performed (s : State) (key : Nat) (m : Access) (oks : List (Nat × Loc)) (perform : State → List (Nat × Loc) → State) : State :=
  let s := perform (s.ordered m oks) oks
  let s := if m.acc = 2 then s.uncarry (Carrier.isStore key) else s
  match widest (oks.map fun e => e.2.scope m.sc) with | some c => if m.acq then s.acquire s.grp.core c else s | none => s

/-- The end of a pass after its accesses: its faults are raised, lanes deferred, and the instruction completes, waits or traps (R249 to R251). -/
noncomputable def State.passEnd (s : State) (m : Access) (pi left : Word) (eas : Nat → Nat) (rs : List (Nat × LaneAt)) : State :=
  let s := s.raiseFaults m.acc 0 (rs.filterMap fun e => match e.2 with | .repl x => some (e.1, eas e.1, x) | _ => none)
  let d : State × Word := if m.defer then s.deferEntered m.dst else (s, 0)
  let did := (maskOf fun l => (okLanes rs).any fun e => e.1 == l) ||| (d.2 &&& left)
  let pi := pi ||| did
  let left := left &&& ~~~did
  let refused := rs.filterMap fun e => match e.2 with | .refused c => some (e.1, c) | _ => none
  if left = 0 then d.1.finish
  else if (left &&& ~~~(maskOf fun l => refused.any fun e => e.1 == l)) != 0 then
    d.1.hold { kind := if rs.any (fun e => e.2 = .held || (match e.2 with | .repl _ => true | _ => false)) then .held else .resource } left pi
  else
    match refused.head? with
    | none => d.1.finish
    | some e =>
      let s := if e.2.cause = 9 then d.1.guestFault d.1.grp.vd else d.1
      (s.updGrp fun g => { g with pi := pi }).trap e.2 (if pi = 0 then .fresh else .queued left)

theorem State.pass_eq (s : State) (m : Access) (pi left : Word) (eas : Nat → Nat) (refuse : Nat → Nat → Loc → Option Pending)
    (perform : State → List (Nat × Loc) → State) :
    s.pass m pi left eas refuse perform =
      ((s.located m left eas refuse).2.performed s.iss.key m (okLanes (s.located m left eas refuse).1) perform).passEnd m pi left eas
        (s.located m left eas refuse).1 :=
  rfl

namespace State
variable {s : State}

theorem safeOut_fault {x : Fault} : SafeOut (.fault x) := fun _ h => nomatch h

theorem safeOut_refused {x : Refusal} : SafeOut (.refused x) := fun _ h => nomatch h

theorem safeOut_next (h : s.safe) : SafeOut (.next s) := fun t e => by cases e; exact h

theorem safe_ite {c : Prop} [Decidable c] {a b : State} (ha : a.safe) (hb : b.safe) : (if c then a else b).safe := by split <;> assumption

theorem safe_iteFst {α : Type} {c : Prop} [Decidable c] {a b : State × α} (ha : a.1.safe) (hb : b.1.safe) : (if c then a else b).1.safe :=
  by split <;> assumption

theorem safe_iteSnd {α : Type} {c : Prop} [Decidable c] {a b : α × State} (ha : a.2.safe) (hb : b.2.safe) : (if c then a else b).2.safe :=
  by split <;> assumption

/-- One branch starts from the other's state. -/
theorem safe_iteElse {c : Prop} [Decidable c] {a b : State} (hb : b.safe) (ha : b.safe → a.safe) : (if c then a else b).safe := safe_ite (ha hb) hb

theorem safe_iteThen {c : Prop} [Decidable c] {a b : State} (ha : a.safe) (hb : a.safe → b.safe) : (if c then a else b).safe := safe_ite ha (hb ha)

theorem safeOut_ite {c : Prop} [Decidable c] {a b : Out} (ha : SafeOut a) (hb : SafeOut b) : SafeOut (if c then a else b) := by split <;> assumption

/-- What every step of a fold keeps safe, the fold keeps safe. -/
theorem safe_foldl_of {α σ : Type} {p : σ → State} {f : σ → α → σ} {xs : List α} {a : σ} (hf : ∀ a x, (p a).safe → (p (f a x)).safe) (h : (p a).safe) :
    (p (xs.foldl f a)).safe := by
  induction xs generalizing a with
  | nil => exact h
  | cons x xs ih => exact ih (hf a x h)

theorem safe_foldl {α : Type} {f : State → α → State} {xs : List α} (hf : ∀ t x, t.safe → (f t x).safe) (h : s.safe) : (xs.foldl f s).safe :=
  safe_foldl_of (p := id) hf h

theorem safe_foldl_fst {α β : Type} {f : State × β → α → State × β} {xs : List α} {a : State × β} (hf : ∀ a x, a.1.safe → (f a x).1.safe) (h : a.1.safe) :
    (xs.foldl f a).1.safe := safe_foldl_of (p := Prod.fst) hf h

theorem safe_foldl_snd {α β : Type} {f : β × State → α → β × State} {xs : List α} {a : β × State} (hf : ∀ a x, a.2.safe → (f a x).2.safe) (h : a.2.safe) :
    (xs.foldl f a).2.safe := safe_foldl_of (p := Prod.snd) hf h

theorem safe_of_snd {α : Type} {x : α × State} {a : α} {t : State} (hx : x = (a, t)) (h : x.2.safe) : t.safe := by rw [hx] at h; exact h

/-- Whatever an update of the other fields makes of a safe state is safe. -/
theorem safe_update {fuse remapWord retired lost inc0 inc1 kactl kastat err cmdEn cmdLog cmdBase cmdProd cmdCons devNum slotsOff grants remoteGrants slices powerLimit
    clockSteps stopped d3Paused nextSerial serialsWrapped names ctime clk dieClk coreClk msix msgs ide spdm freorVersion freorDigest rollback vds teams
    groups tlb walkCache late copies colls binops binjobs flight outcomes transit ports nextTid nextId nextSave agenda iss marks fenced freeCtr epoch}
    (h : s.safe) :
    State.safe ⟨fuse, remapWord, retired, lost, inc0, inc1, kactl, kastat, err, cmdEn, cmdLog, cmdBase, cmdProd, cmdCons, devNum, slotsOff, grants, remoteGrants,
      slices, powerLimit, clockSteps, stopped, d3Paused, nextSerial, serialsWrapped, names, ctime, clk, dieClk, coreClk, msix, msgs, ide, spdm,
      freorVersion, freorDigest, rollback, vds, teams, groups, s.mem, tlb, walkCache, late, copies, colls, binops, binjobs, flight, outcomes, transit,
      ports, nextTid, nextId, nextSave, agenda, iss, marks, fenced, freeCtr, epoch⟩ := h

end State
end Sys2Proof.Machine
end

section
/-! PROOF. The memory, the traps, the barriers and the passes of a lane access keep the stores canonical. -/
namespace Sys2Proof.Machine.State
variable {s : State}

/-! ## Operands -/

theorem safe_setGroup {k : Nat} {g : Group} (h : s.safe) : (s.setGroup k g).safe := h
theorem safe_setGrp {g : Group} (h : s.safe) : (s.setGrp g).safe := safe_setGroup h
theorem safe_updGroup {k : Nat} {f : Group → Group} (h : s.safe) : (s.updGroup k f).safe := by
  unfold State.updGroup
  rcases mfind s.groups k with _ | _
  · exact h
  · exact safe_setGroup h
theorem safe_updGrp {f : Group → Group} (h : s.safe) : (s.updGrp f).safe := safe_setGrp h

/-! ## Mem -/

theorem safe_setPb {row : Nat} {b : Bool} (h : s.safe) : (s.setPb row b).safe := keepsWf_setMem_same _ _ (fun _ => rfl) h
theorem safe_meetLoc {vd die : Option Nat} {l : Loc} {n : Nat} (h : s.safe) : (s.meetLoc vd die l n).safe := safe_ite (keepsWf_meet _ _ _ h) h
theorem safe_carry {p : Carrier → Bool} {c : Carrier} (h : s.safe) : (s.carry p c).safe := h
theorem safe_uncarry {p : Carrier → Bool} (h : s.safe) : (s.uncarry p).safe := h
theorem safe_publish {key : Nat} (h : s.safe) : (s.publish key).safe := keepsWf_mark _ _ _ _ (safe_updGroup h)
theorem safe_releaseTo {key : Nat} {c : Carrier} (h : s.safe) : (s.releaseTo key c).safe := safe_carry h
theorem safe_acquireFrom {key : Nat} {p : Carrier → Bool} (h : s.safe) : (s.acquireFrom key p).safe := safe_carry h
theorem safe_postStores {key n : Nat} {ls : List (Nat × Loc)} (h : s.safe) : (s.postStores key n ls).safe :=
    safe_foldl (fun _ _ k => safe_releaseTo k) h
theorem safe_readBy {key n : Nat} {ls : List (Nat × Loc)} (h : s.safe) : (s.readBy key n ls).safe := h
theorem safe_loadFill {g : Group} {sc : Scope} {l : Loc} {n : Nat} {nal : Bool} (h : s.safe) : (s.loadFill g sc l n nal).safe :=
    safe_ite (safe_foldl (fun _ _ k => safe_iteElse (keepsWf_l2Fill _ _ _ _ _ k) fun j => keepsWf_l1Fill _ _ _ _ j) h) h
theorem safe_cisternPut {w : QStore} (h : s.safe) : (s.cisternPut w).safe := keepsWf_l2Drop _ _ _ (keepsWf_l2Drop _ _ _ (keepsWf_cisternWrite _ _ h))
theorem safe_pointWrite {g : Group} {w : QStore} (h : s.safe) : (s.pointWrite g w).safe := by
  unfold State.pointWrite
  rcases w.space with _ | _ | _ | _ | _
  · exact safe_ite (keepsWf_l2Apply _ _ _ _ (keepsWf_l1Update _ _ _ h)) (safe_cisternPut (keepsWf_l1Update _ _ _ h))
  all_goals exact keepsWf_enterView _ _ _ _ h
theorem safe_beforeRmw {key : Nat} {l : Loc} (h : s.safe) : (s.beforeRmw key l).safe :=
    safe_iteElse (keepsWf_drain _ _ h) fun k => keepsWf_flushDie _ _ k
theorem safe_binPerform {b : BinOp} (h : s.safe) : (s.binPerform b).safe := by
  refine keepsWf_bumpFree _ (safe_updGroup (safe_foldl_snd (fun a l k => ?_) (keepsWf_flushDie _ _ (keepsWf_drain _ _ h))))
  dsimp only
  split
  · exact keepsWf_updVd _ _ _ k
  · exact keepsWf_wrote _ _ _ _ (safe_cisternPut k)
theorem safe_binFinish {key : Nat} (h : s.safe) : (s.binFinish key).safe := safe_foldl (fun _ _ k => safe_binPerform k) h
theorem safe_settleStores {key : Nat} (h : s.safe) : (s.settleStores key).safe := safe_binFinish (keepsWf_drain _ _ h)
theorem safe_release {key : Nat} {sc : Scope} (h : s.safe) : (s.release key sc).safe :=
    safe_iteThen (safe_publish (safe_settleStores h)) fun k => keepsWf_flushDie _ _ k
theorem safe_acquire {core : Nat} {sc : Scope} (h : s.safe) : (s.acquire core sc).safe := safe_ite h (keepsWf_l1Drop _ _ h)
theorem safe_engineWrite {die : Nat} {w : QStore} {who : Option Carrier} (h : s.safe) : (s.engineWrite die w who).safe := by
  unfold State.engineWrite
  refine keepsWf_wrote _ _ _ _ ?_
  rcases w.space with _ | _ | _ | _ | _
  · exact safe_ite (keepsWf_l2Apply _ _ _ _ h) (safe_cisternPut (keepsWf_flushDie _ _ h))
  · exact keepsWf_enterView _ _ _ _ h
  · exact keepsWf_enterView _ _ _ _ h
  · exact keepsWf_enterView _ _ _ _ h
  · exact keepsWf_cisternWrite _ _ h

/-! ## Xlate -/

/-- `t` is `s` after translations alone. -/
noncomputable def Looked (s t : State) : Prop := t = { s with tlb := t.tlb, walkCache := t.walkCache }

theorem translate_looked {t : State} {die : Nat} {core : Option Nat} {vd asid va acc : Nat} {e : TlbEntry}
    (ht : translate s die core vd asid va acc = .ok (e, t)) : s.Looked t := by
  unfold translate at ht
  split at ht
  · split at ht <;> cases ht
    rfl
  · split at ht <;> cases ht
    rfl
theorem safe_translate {t : State} {die : Nat} {core : Option Nat} {vd asid va acc : Nat} {e : TlbEntry}
    (ht : translate s die core vd asid va acc = .ok (e, t)) (h : s.safe) : t.safe := by
  rw [translate_looked ht]
  exact safe_update h
theorem safe_ioWrite {l : Loc} {vd : Nat} {bs : List Byte} (h : s.safe) : (s.ioWrite l vd bs).safe := safe_engineWrite h
theorem safe_writeGpa {vd gpa : Nat} {bs : List Byte} (h : s.safe) : (s.writeGpa vd gpa bs).safe := by
  unfold State.writeGpa
  rcases hostWalk s vd gpa 1 with _ | _
  · exact h
  · exact safe_ite (safe_ioWrite h) h
theorem safe_writeHost {a : Nat} {bs : List Byte} (h : s.safe) : (s.writeHost a bs).safe := safe_ioWrite h
theorem safe_setD {e : TlbEntry} (h : s.safe) : (s.setD e).safe := safe_update (keepsWf_cisternWrite _ _ h)

/-! ## Faults -/

theorem safe_setVector {v : Vector} (h : s.safe) : (s.setVector v).safe := h
theorem safe_sendMsix {vf : Option Nat} {vec : Nat} (h : s.safe) : (s.sendMsix vf vec).safe := safe_ite (safe_setVector h) h
theorem safe_postIrq {vd src : Nat} (h : s.safe) : (s.postIrq vd src).safe := safe_ite h (safe_ite (keepsWf_updVd _ _ _ h) (safe_sendMsix h))
theorem safe_guestFault {vd : Nat} (h : s.safe) : (s.guestFault vd).safe := safe_postIrq h
theorem safe_errDevice {x : ErrInfo} {orig : Word} (h : s.safe) : (s.errDevice x orig).safe := safe_update (safe_ite (safe_writeHost h) h)
theorem safe_errRecord {x : ErrInfo} (h : s.safe) : (s.errRecord x).1.safe := by
  unfold State.errRecord
  rcases x.vd with _ | _
  · exact safe_errDevice h
  · exact safe_iteThen (safe_postIrq (keepsWf_updVd _ _ _ (safe_ite (safe_writeGpa h) h))) fun k => safe_errDevice k
theorem safe_updErr {vd : Option Nat} {f : ErrBlock → ErrBlock} (h : s.safe) : (s.updErr vd f).safe := by
  unfold State.updErr
  rcases vd with _ | _
  · exact h
  · exact keepsWf_updVd _ _ _ h
theorem safe_capFault {vd : Nat} (h : s.safe) : (s.capFault vd).safe := safe_errRecord h
theorem safe_capWrite {vd : Nat} {c : Cap} {otype : BitVec 8} {gpa : Nat} {bs : List Byte} (h : s.safe) : (s.capWrite vd c otype gpa bs).safe :=
    safe_ite (safe_writeGpa h) (safe_capFault h)
theorem safe_dirtyAppend {vd gpa size : Nat} (h : s.safe) : (s.dirtyAppend vd gpa size).safe :=
    safe_iteElse (keepsWf_updVd _ _ _ (safe_capWrite h)) fun k => safe_postIrq k
theorem safe_faultEnter {vd : Nat} {r : FaultReq} (h : s.safe) : (s.faultEnter vd r).1.safe := safe_postIrq (keepsWf_updVd _ _ _ (safe_capWrite h))
theorem safe_faultRaise {vd : Nat} {r : FaultReq} (h : s.safe) : (s.faultRaise vd r).safe :=
    safe_ite (keepsWf_updVd _ _ _ (safe_faultEnter h)) (safe_iteThen (keepsWf_updVd _ _ _ h) fun k => safe_postIrq k)
theorem safe_faultAdmit {vd : Nat} {rs : List FaultReq} (h : s.safe) : (s.faultAdmit vd rs).safe := by
  induction rs generalizing s with
  | nil => exact h
  | cons r rs ih => exact safe_ite (ih (keepsWf_updVd _ _ _ (safe_faultEnter h))) (ih h)
theorem safe_faultDiscard {vd : Nat} {p : FaultReq → Bool} (h : s.safe) : (s.faultDiscard vd p).safe := keepsWf_updVd _ _ _ h
theorem safe_park {vd key : Nat} {pc : DWord} (h : s.safe) : (s.park vd key pc).safe := keepsWf_updVd _ _ _ h
theorem safe_unpark {vd key : Nat} {pc : DWord} (h : s.safe) : (s.unpark vd key pc).safe := safe_ite (keepsWf_updVd _ _ _ h) h

/-! ## Image -/

theorem safe_writeSave {tid : Nat} (h : s.safe) : (s.writeSave tid).safe := by
  unfold State.writeSave
  rcases (mget ({} : Team) s.teams tid).saved with _ | _
  · exact h
  · exact safe_ite (safe_cisternPut h) (safe_capFault h)
theorem safe_reseal {key : Nat} (h : s.safe) : (s.reseal key).safe := by
  unfold State.reseal
  dsimp only
  rcases (mget ({} : Team) s.teams (key / 4096)).saved with _ | _
  · exact h
  · exact safe_ite (safe_writeSave h) (safe_writeSave (keepsWf_updTeam _ _ _ h))

/-! ## Objects -/

theorem safe_engineError {key : Option Nat} {vd : Nat} {p : Pending} (h : s.safe) : (s.engineError key vd p).safe := by
  unfold State.engineError
  split
  · exact h
  · split
    · exact safe_reseal (safe_setGroup h)
    · exact safe_errRecord h
theorem safe_mbReport {c : CopyCmd} {n : Nat} {err : Bool} (h : s.safe) : (s.mbReport c n err).safe :=
    safe_ite h (safe_ite (keepsWf_mbWrite _ _ _ (safe_carry h)) (safe_iteThen (safe_updErr h) fun k => safe_engineError k))

/-! ## Ops -/

theorem safe_jump {f : Nat → DWord} (h : s.safe) : (s.jump f).safe := safe_updGrp h
theorem safe_finish (h : s.safe) : (s.finish).safe := safe_jump h
theorem safe_hold {w : Wait} {pend pi : Word} (h : s.safe) : (s.hold w pend pi).safe := safe_updGrp h
theorem safe_reach {o : Origin} {die : Nat} {core : Option Nat} {vd asid va acc lane : Nat} {span : Nat → Nat × Nat} (h : s.safe) :
    (s.reach o die core vd asid va acc span lane).2.safe := by
  unfold State.reach
  rcases ht : translate s die core vd asid va acc with _ | g
  · exact keepsWf_meet _ _ _ h
  · have hu := safe_translate ht h
    dsimp only
    split_ifs
    · exact hu
    · exact hu
    · exact hu
    · exact safe_setD hu
    · exact safe_setD hu
    · exact safe_dirtyAppend (safe_setD hu)
    · exact keepsWf_updVd _ _ _ hu
theorem safe_dropOrigin {vd : Nat} {o : Origin} (h : s.safe) : (s.dropOrigin vd o).safe := keepsWf_updVd _ _ _ (safe_faultDiscard h)
theorem safe_cancelCopies {p : CopyCmd → Bool} (h : s.safe) : (s.cancelCopies p).safe :=
    safe_foldl (fun _ _ k => safe_mbReport (keepsWf_bumpFree _ (safe_dropOrigin k))) h
theorem safe_cancelJobs {p : Option Nat → Nat → Bool} (h : s.safe) : (s.cancelJobs p).safe :=
    safe_update (safe_foldl (fun _ _ k => safe_dropOrigin k) (safe_foldl (fun _ _ k => safe_dropOrigin k) h))
theorem safe_cancelRegion {key : Nat} {p : Nat → Bool} (h : s.safe) : (s.cancelRegion key p).safe := safe_cancelJobs (safe_cancelCopies h)
theorem safe_countStale {vd : Option Nat} (h : s.safe) : (s.countStale vd).safe := safe_updErr h
theorem safe_setName {gname : DWord} {x : NameState} (h : s.safe) : (s.setName gname x).safe := h
theorem safe_answerStore {m : RemoteStore} {reason : Nat} (h : s.safe) : (s.answerStore m reason).safe :=
    safe_ite (safe_update (safe_ite h (safe_updErr h))) (safe_update (safe_ite h (safe_updErr h)))
theorem safe_nakHeld {p : DWord → Bool} (h : s.safe) : (s.nakHeld p).safe := safe_foldl (fun _ _ k => safe_answerStore k) h
theorem safe_updBundle {bundle : Nat} {f : Packet → Packet} (h : s.safe) : (s.updBundle bundle f).safe := keepsWf_updVd _ _ _ h
theorem safe_forget {key : Nat} {g : Group} (h : s.safe) : (s.forget key g).safe := safe_ite h (safe_nakHeld (keepsWf_updVd _ _ _ h))
theorem safe_dropTeam {tid : Nat} (h : s.safe) : (s.dropTeam tid).safe := h
theorem safe_settleTeam {tid : Nat} (h : s.safe) : (s.settleTeam tid).safe := safe_ite (safe_dropTeam h) h
theorem safe_trapRecord {g : Group} {c : Pending} {pc : DWord} {sev : Nat} (h : s.safe) : (s.trapRecord g c pc sev).1.safe := safe_errRecord h
theorem safe_cancelTeamWork {tid : Nat} (h : s.safe) : (s.cancelTeamWork tid).safe := safe_update (safe_cancelJobs (safe_cancelCopies h))
theorem safe_dropTeamReqs {vd tid : Nat} (h : s.safe) : (s.dropTeamReqs vd tid).safe := keepsWf_updVd _ _ _ (safe_faultDiscard h)
theorem safe_endTeam {key : Nat} {c : Pending} {pc : DWord} (h : s.safe) : (s.endTeam key c pc).safe :=
    safe_settleTeam (keepsWf_updTeam _ _ _ (safe_updBundle (safe_foldl (fun _ _ k => safe_forget (keepsWf_drain _ _ k))
    (safe_dropTeamReqs (safe_cancelTeamWork (safe_trapRecord h))))))
theorem safe_storeFrame {key : Nat} {g : Group} {t : Team} {bs : List Byte} (h : s.safe) : (s.storeFrame key g t bs).2.safe := by
  unfold State.storeFrame
  refine safe_iteSnd (safe_updGroup h) ?_
  dsimp only
  generalize hr : List.foldl _ _ _ = r
  have hpages : r.2.1.safe := by
    subst hr
    refine safe_foldl_of (p := fun acc : Option (Reach × Nat) × State × List Loc => acc.2.1) (fun acc p k => ?_) h
    rcases acc with ⟨_ | x, u, ls⟩
    · dsimp only
      rcases hu : u.reach (.group key) (dieOf g.core) (some g.core) g.vd t.asid p.1 1 (fun a => (a, p.2)) with ⟨_ | _ | _, v⟩
      · exact safe_of_snd hu (safe_reach k)
      · exact safe_of_snd hu (safe_reach k)
      · exact safe_of_snd hu (safe_reach k)
    · exact k
  rcases r with ⟨_ | x, u, ls⟩
  · exact safe_foldl (fun _ _ k => safe_updGroup k) hpages
  · exact hpages
theorem safe_tryTrap {key : Nat} {t : Trapping} (h : s.safe) : (s.tryTrap key t).safe := by
  unfold State.tryTrap
  refine safe_ite (safe_endTeam h) (safe_ite (safe_endTeam (safe_guestFault h)) (safe_ite h ?_))
  rcases hu : s.storeFrame key (mget ({} : Group) s.groups key) (mget ({} : Team) s.teams (mget ({} : Group) s.groups key).tid)
    (frameBytes (mget ({} : Group) s.groups key) t) with ⟨_ | ⟨_ | _ | x, va⟩, u⟩
  · exact safe_updGroup (safe_iteElse (safe_of_snd hu (safe_storeFrame h)) fun k => safe_trapRecord k)
  · exact safe_setGroup (safe_of_snd hu (safe_storeFrame h))
  · exact safe_setGroup (safe_of_snd hu (safe_storeFrame h))
  · exact safe_ite (safe_faultRaise (safe_setGroup (safe_of_snd hu (safe_storeFrame h))))
        (safe_endTeam (safe_guestFault (safe_of_snd hu (safe_storeFrame h))))
theorem safe_takeBinops {key room : Nat} (h : s.safe) : (s.takeBinops key room).2.safe := safe_update (safe_foldl (fun _ _ k => safe_binPerform k) h)
theorem safe_raised {vd : Nat} {c : Pending} (h : s.safe) : (s.raised vd c).safe := safe_ite (safe_guestFault h) h
theorem safe_trap {c : Pending} {w : TrapAt} (h : s.safe) : (s.trap c w).safe := safe_tryTrap (safe_raised (safe_takeBinops (safe_faultDiscard h)))
theorem safe_trapAt {key : Nat} {c : Pending} {trapped : Bool} (h : s.safe) : (s.trapAt key c trapped).safe :=
    safe_tryTrap (safe_takeBinops (safe_park h))
theorem safe_unwindTo {key ident : Nat} {c : Pending} (h : s.safe) : (s.unwindTo key ident c).safe := by
  unfold State.unwindTo
  dsimp only
  rcases ((mget ({} : Group) s.groups key).regions.find? (fun r => r.ident == ident) : Option Region) with _ | r
  · exact h
  · exact keepsWf_bumpFree _ (safe_updGroup (safe_update (keepsWf_updVd _ _ _ (safe_faultDiscard (safe_cancelRegion h)))))
theorem safe_unwindElse {key : Nat} {c : Pending} {f : State → State} (h : s.safe) (hf : ∀ t, t.safe → (f t).safe) : (s.unwindElse key c f).safe := by
  unfold State.unwindElse
  rcases (mget ({} : Group) s.groups key).regions with _ | _
  · exact hf _ h
  · exact safe_unwindTo h
theorem safe_unwindOrTrap {c : Pending} {w : TrapAt} (h : s.safe) : (s.unwindOrTrap c w).safe := safe_unwindElse h (fun _ k => safe_trap k)
theorem safe_consume {consumer addr : Nat} {xs : List Consumed} {k : State → State} (h : s.safe) (hk : ∀ t, t.safe → (k t).safe) :
    (s.consume consumer addr xs k).safe := by
  unfold State.consume
  rcases (xs.find? (fun x => x.fp &&& x.lanes != 0) : Option Consumed) with _ | x'
  · rcases (xs.find? (fun x => x.dp &&& x.lanes != 0) : Option Consumed) with _ | x
    · exact hk _ h
    · exact safe_unwindOrTrap h
  · exact safe_trap h
theorem safe_putV {pair : Bool} {ws : List DestW} (h : s.safe) : (s.putV pair ws).safe := by
  unfold State.putV
  refine safe_ite (safe_finish h) ?_
  rcases s.grp.refusedReg s.iss.act pair ws with _ | _
  · exact safe_finish (safe_updGrp h)
  · exact safe_trap h
theorem safe_putS {d : Opnd} {x : DWord} {t : Tag} (h : s.safe) : (s.putS d x t).safe := safe_ite (safe_finish h) (safe_finish (safe_updGrp h))
theorem safe_putP {d : Opnd} {val dp fp : Word} (h : s.safe) : (s.putP d val dp fp).safe := safe_ite (safe_finish h) (safe_finish (safe_updGrp h))
theorem safe_ifActive {k : State → State} (h : s.safe) (hk : ∀ t, t.safe → (k t).safe) : (s.ifActive k).safe := safe_ite (safe_finish h) (hk _ h)

/-! ## Sync -/

theorem safe_setBar {tid b : Nat} {x : Bar} (h : s.safe) : (s.setBar tid b x).safe := keepsWf_updTeam _ _ _ h
theorem safe_setRn {tid n : Nat} {x : Runnel} (h : s.safe) : (s.setRn tid n x).safe := keepsWf_updTeam _ _ _ h
theorem safe_stopStream {key : Nat} (h : s.safe) : (s.stopStream key).safe := keepsWf_updTeam _ _ _ (safe_update (safe_dropOrigin h))
theorem safe_markRestart (h : s.safe) : (s.markRestart).safe := safe_ite (keepsWf_updTeam _ _ _ h) h
theorem safe_deliver {tid : Nat} {c : Pending} (h : s.safe) : (s.deliver tid c).safe := safe_foldl (fun _ _ k => safe_updGroup k) h
theorem safe_wakeBar {tid b : Nat} (h : s.safe) : (s.wakeBar tid b).safe := h
theorem safe_wakeRn {tid num : Nat} (h : s.safe) : (s.wakeRn tid num).safe := h
theorem safe_barEvent {tid b : Nat} {x : Bar} (h : s.safe) : (s.barEvent tid b x).safe := safe_iteElse (safe_setBar h) fun k => safe_wakeBar k
theorem safe_memberExit {tid member : Nat} {role : Role} (h : s.safe) : (s.memberExit tid member role).safe :=
    safe_foldl (fun _ _ k => safe_ite (safe_barEvent k) k) h
theorem safe_starve {key : Nat} {c : Pending} (h : s.safe) : (s.starve key c).safe := by
  unfold State.starve
  rcases mfind s.groups key with _ | _
  · exact h
  · exact safe_ite (safe_deliver (safe_memberExit (safe_stopStream h))) (safe_trapAt h)
theorem safe_checkStarved {tid b : Nat} (h : s.safe) : (s.checkStarved tid b).safe := safe_ite (safe_foldl (fun _ _ k => safe_starve k) h) h
theorem safe_checkQuiet {tid : Nat} (h : s.safe) : (s.checkQuiet tid).safe := safe_ite (safe_foldl (fun _ _ k => safe_starve k) h) h
theorem safe_checkTeam {tid : Nat} (h : s.safe) : (s.checkTeam tid).safe := safe_checkQuiet (safe_foldl (fun _ _ k => safe_checkStarved k) h)
theorem safe_teamOver {tid : Nat} (h : s.safe) : (s.teamOver tid).safe := safe_ite (safe_settleTeam h) (safe_checkTeam h)
theorem safe_keepWindow {key : Nat} (h : s.safe) : (s.keepWindow key).safe := safe_ite (keepsWf_updTeam _ _ _ (safe_publish h)) h
theorem safe_groupExit {key : Nat} (h : s.safe) : (s.groupExit key).safe :=
    safe_teamOver (safe_memberExit (safe_forget (safe_keepWindow (keepsWf_drain _ _ h))))
theorem safe_streamError {key : Nat} {c : Pending} (h : s.safe) : (s.streamError key c).safe :=
    safe_teamOver (safe_deliver (safe_memberExit (safe_stopStream h)))
theorem safe_fail {c : Pending} (h : s.safe) : (s.fail c).safe := safe_ite (safe_streamError (safe_raised h)) (safe_trap h)
theorem safe_consumeAny {consumer addr : Nat} {xs : List Consumed} {k : State → State} (h : s.safe) (hk : ∀ t, t.safe → (k t).safe) :
    (s.consumeAny consumer addr xs k).safe := by
  unfold State.consumeAny
  refine safe_ite ?_ (safe_consume h (fun _ j => hk _ j))
  rcases (xs.find? (fun x => x.fp &&& x.lanes != 0) : Option Consumed) with _ | x'
  · rcases (xs.find? (fun x => x.dp &&& x.lanes != 0) : Option Consumed) with _ | x
    · exact hk _ h
    · exact safe_fail h
  · exact safe_fail h
theorem safe_withBar {b : Nat} {k : Bar → State} (h : s.safe) (hk : ∀ x, (k x).safe) : (s.withBar b k).safe :=
    safe_ite (safe_fail h) (safe_ite (safe_fail h) (hk _))
theorem safe_arrive {b : Nat} {x : Bar} (h : s.safe) : (s.arrive b x).safe := safe_barEvent (safe_releaseTo (safe_release h))
theorem safe_waitBar {b : Nat} {pi : Word} (h : s.safe) : (s.waitBar b pi).safe := safe_checkTeam (safe_hold h)
theorem safe_acquired {c : Carrier} (h : s.safe) : (s.acquired c).safe := safe_finish (safe_acquire (safe_acquireFrom h))

/-! ## Access -/

theorem safe_locate {lane ea acc : Nat} {span : Nat → Nat × Nat} (h : s.safe) : (s.locate lane ea acc span).2.safe := by
  unfold State.locate
  dsimp only
  rcases windowOf ea with _ | _ | _ | _
  · rcases hv : s.reach (Origin.group s.iss.key) (dieOf s.grp.core) (some s.grp.core) s.grp.vd s.team.asid ea acc span lane with ⟨_ | _ | _, t⟩
    · exact safe_of_snd hv (safe_reach h)
    · exact safe_of_snd hv (safe_reach h)
    · exact safe_of_snd hv (safe_reach h)
  all_goals exact h
theorem safe_raiseFaults {acc src : Nat} {fs : List (Nat × Nat × XFault)} (h : s.safe) : (s.raiseFaults acc src fs).safe := by
  unfold State.raiseFaults
  refine safe_foldl (fun t u k => ?_) h
  rcases u.head? with _ | h'
  · exact k
  · exact safe_faultRaise k
theorem safe_deferEntered {dst : List Nat} (h : s.safe) : (s.deferEntered dst).1.safe :=
    keepsWf_updVd _ _ _ (safe_foldl (fun _ _ k => safe_updGrp k) h)
theorem safe_ordered {m : Access} {ls : List (Nat × Loc)} (h : s.safe) : (s.ordered m ls).safe := by
  unfold State.ordered
  refine safe_ite ?_ (safe_readBy ?_)
  · split
    · exact safe_ite (safe_postStores (safe_release h)) h
    · exact h
  · split
    · exact safe_ite (safe_postStores (safe_release h)) h
    · exact h
theorem safe_locateLane {m : Access} {eas : Nat → Nat} {refuse : Nat → Nat → Loc → Option Pending} {reqs : List FaultReq}
    {acc : List (Nat × LaneAt) × State}
    {l : Nat} (h : acc.2.safe) : (locateLane m eas refuse reqs acc l).2.safe := by
  unfold locateLane
  rcases (reqs.find? (fun r => BitVec.getLsbD r.lanes l) : Option FaultReq) with _ | r
  · exact safe_locate h
  · exact h

theorem safe_located {m : Access} {left : Word} {eas : Nat → Nat} {refuse : Nat → Nat → Loc → Option Pending} (h : s.safe) :
    (s.located m left eas refuse).2.safe := safe_foldl_snd (fun _ _ k => safe_locateLane k) h

theorem safe_performed {key : Nat} {m : Access} {oks : List (Nat × Loc)} {perform : State → List (Nat × Loc) → State} (h : s.safe)
    (hperform : ∀ t x, t.safe → (perform t x).safe) : (s.performed key m oks perform).safe := by
  have hp := hperform _ oks (safe_ordered (m := m) (ls := oks) h)
  unfold State.performed
  dsimp only
  split
  · exact safe_ite (safe_acquire (safe_ite (safe_uncarry hp) hp)) (safe_ite (safe_uncarry hp) hp)
  · exact safe_ite (safe_uncarry hp) hp

theorem safe_passEnd {m : Access} {pi left : Word} {eas : Nat → Nat} {rs : List (Nat × LaneAt)} (h : s.safe) : (s.passEnd m pi left eas rs).safe := by
  unfold State.passEnd
  dsimp only
  generalize hd : (if m.defer = true then _ else _ : State × Word) = d
  have hds : d.1.safe := by
    subst hd
    split
    · exact safe_deferEntered (safe_raiseFaults h)
    · exact safe_raiseFaults h
  refine safe_ite (safe_finish hds) (safe_ite (safe_hold hds) ?_)
  split
  · exact safe_finish hds
  · exact safe_trap (safe_updGrp (safe_ite (safe_guestFault hds) hds))

theorem safe_pass {m : Access} {pi left : Word} {eas : Nat → Nat} {refuse : Nat → Nat → Loc → Option Pending}
    {perform : State → List (Nat × Loc) → State}
    (h : s.safe) (hperform : ∀ t x, t.safe → (perform t x).safe) : (s.pass m pi left eas refuse perform).safe := by
  rw [pass_eq]
  exact safe_passEnd (safe_performed (safe_located h) hperform)
theorem safe_laneMem {m : Access} {srcs : List Consumed} {eas : Nat → Nat} {refuse : Nat → Nat → Loc → Option Pending}
    {perform : State → List (Nat × Loc) → State} (h : s.safe) (hperform : ∀ t y, t.safe → (perform t y).safe) :
    (s.laneMem m srcs eas refuse perform).safe := by
  unfold State.laneMem
  refine safe_ite (safe_finish h) ?_
  dsimp only
  rcases List.find? (fun d => decide (s.grp.ngen ≤ d) && (m.general || !s.grp.whole s.iss.act)) m.dst with _ | g
  · refine safe_consume h (fun u k => ?_)
    rcases (u.checkEas m ((lanesOf (s.iss.act &&& s.iss.pend &&& ~~~s.iss.pi)).map (fun l => (l, eas l))) : Option Pending) with _ | c
    · exact safe_ite (safe_hold k) (safe_pass k (fun _ _ j => hperform _ _ j))
    · exact safe_trap k
  · exact safe_trap h
theorem safe_onceMem {m : Access} {ea : Nat} {due : Option Nat} {perform : State → Loc → State} (h : s.safe)
    (hperform : ∀ t y, t.safe → (perform t y).safe) : (s.onceMem m ea due perform).safe := by
  unfold State.onceMem
  dsimp only
  rcases s.checkEas m [(lowLane s.iss.act, ea)] with _ | c
  · refine safe_ite (safe_hold h) ?_
    rcases s.groupReqs s.iss.key with _ | ⟨r, rs⟩
    · dsimp only
      rcases hw : s.locate (lowLane s.iss.act) ea m.acc (spanOf m.n) with ⟨l | _ | x | c, t⟩
      · dsimp only
        have ht := hperform _ l (safe_ordered (m := m) (ls := [(lowLane s.iss.act, l)]) (safe_of_snd hw (safe_locate h)))
        rcases l.scope m.sc with _ | sc
        · exact ht
        · exact safe_iteElse ht fun k => safe_acquire k
      · exact safe_hold (safe_of_snd hw (safe_locate h))
      · exact safe_raiseFaults (safe_hold (safe_of_snd hw (safe_locate h)))
      · exact safe_trap (safe_of_snd hw (safe_locate h))
    · exact safe_ite (safe_trap h) (safe_hold h)
  · exact safe_trap h

end Sys2Proof.Machine.State
end

section
/-! PROOF. The engines, the memory instructions, the placement and the control instructions keep the stores canonical. -/
namespace Sys2Proof.Machine.State
variable {s : State}

/-! ## Copies -/

theorem safe_handCopy {opc : Nat} {ord : Bool} {kind : CopyKind} {src dst obj : DWord} {units : Nat} {scores : List ScoreEnt} (h : s.safe) :
    (s.handCopy opc ord kind src dst obj units scores).safe := safe_ite (safe_hold h) (safe_finish (safe_update (safe_releaseTo (safe_release h))))
theorem safe_execCpy {ord : Bool} {o : EngOps} (h : s.safe) : SafeOut (execCpy ord o s) := by
  unfold execCpy
  refine safeOut_next (safe_ifActive h (fun t k => safe_consume k (fun u j => ?_)))
  dsimp only
  split
  · exact safe_trap j
  · exact safe_ite (safe_finish j) (safe_handCopy j)
theorem safe_execCpy2d {ord : Bool} {sp dp : BitVec 32} {o : EngOps} (h : s.safe) : SafeOut (execCpy2d ord sp dp o s) := by
  unfold execCpy2d
  refine safeOut_next (safe_ifActive h (fun t k => safe_consume k (fun u j => ?_)))
  dsimp only
  split
  · exact safe_trap j
  · exact safe_handCopy j
theorem safe_execCpyg {ord : Bool} {cnt : BitVec 32} {e16 : BitVec 12} {sx : Bool} {o : EngOps} (h : s.safe) : SafeOut (execCpyg ord cnt e16 sx o s)
    := by
  unfold execCpyg
  refine safeOut_next (safe_ifActive h (fun t k => safe_consume k (fun u j => ?_)))
  dsimp only
  split
  · exact safe_trap j
  · exact safe_handCopy j
theorem safe_tileCopy {opc : Nat} {ord : Bool} {o : EngOps} {x : EngSrc} {tileWord page : DWord} {words : Bool} {acc : Nat}
    {kind : Nat → Nat → Nat → CopyKind} (h : s.safe) : (s.tileCopy opc ord o x tileWord page words acc kind).safe := by
  unfold State.tileCopy
  dsimp only
  split
  · exact safe_trap h
  · exact safe_handCopy h
theorem safe_execCpyt {ord pclr : Bool} {o : EngOps} (h : s.safe) : SafeOut (execCpyt ord pclr o s) :=
    safeOut_next (safe_ifActive h (fun _ k => safe_consume k (fun _ j => safe_tileCopy j)))
theorem safe_execCpyto {ord : Bool} {tf : TileFmt} {o : EngOps} (h : s.safe) : SafeOut (execCpyto ord tf o s) :=
    safeOut_next (safe_ifActive h (fun _ k => safe_consume k (fun _ j => safe_tileCopy j)))
theorem safe_engineReach {c : CopyCmd} {va acc n : Nat} (h : s.safe) : (s.engineReach c va acc n).2.safe := by
  unfold State.engineReach
  rcases windowOf va with _ | _ | _ | _
  · rcases hv : s.reach (Origin.engine c.id) c.die none c.vd c.asid va acc fun a => (a, n) with ⟨_ | _ | _, t⟩
    · exact safe_of_snd hv (safe_reach h)
    · exact safe_of_snd hv (safe_reach h)
    · exact safe_of_snd hv (safe_reach h)
  · exact h
  · exact safe_iteSnd h h
  · exact h
theorem safe_setCopy {c : CopyCmd} (h : s.safe) : (s.setCopy c).safe := h
theorem safe_copyStop {c : CopyCmd} {cause : Pending} (h : s.safe) : (s.copyStop c cause).safe := by
  unfold State.copyStop
  rcases c.job with _ | _
  · exact safe_iteThen (safe_mbReport (safe_faultDiscard (safe_setCopy (keepsWf_bumpFree _ h)))) fun k => safe_engineError k
  · exact keepsWf_updVd _ _ _ (safe_iteThen (safe_mbReport (safe_faultDiscard (safe_setCopy (keepsWf_bumpFree _ h)))) fun k => safe_engineError k)
theorem safe_copyFail {c : CopyCmd} {reason : Nat} {addr : DWord} (h : s.safe) : (s.copyFail c reason addr).safe :=
    safe_copyStop (safe_ite (safe_guestFault h) h)
theorem safe_copyBlocked {c : CopyCmd} {b : Block} (h : s.safe) : (s.copyBlocked c b).safe := by
  unfold State.copyBlocked
  rcases b with _ | _ | _ | _
  · exact h
  · exact safe_ite (safe_ite h (safe_faultRaise h)) (safe_copyFail h)
  · exact safe_copyFail h
  · exact safe_copyStop h
theorem safe_indexWord {c : CopyCmd} {va : Nat} (h : s.safe) : (s.indexWord c va).2.safe := by
  unfold State.indexWord
  rcases hu : s.engineReach c va 0 4 with ⟨_ | _, t⟩
  · exact safe_of_snd hu (safe_engineReach h)
  · exact safe_meetLoc (safe_of_snd hu (safe_engineReach h))
theorem safe_gatherSegs {c : CopyCmd} {table es : Nat} {sx : Bool} {off len : Nat} (h : s.safe) : (s.gatherSegs c table es sx off len).2.safe := by
  unfold State.gatherSegs
  refine safe_foldl_snd (fun t u k => ?_) h
  rcases t with ⟨_ | gs, v⟩
  · exact k
  · dsimp only
    rcases hv : v.indexWord c (table + 4 * (off / es + u)) with ⟨_ | ⟨x, p⟩, w⟩
    · exact safe_of_snd hv (safe_indexWord k)
    · dsimp only
      split
      · exact safe_of_snd hv (safe_indexWord k)
      · exact safe_of_snd hv (safe_indexWord k)
theorem safe_placeSegs {c : CopyCmd} {gs : List Seg} (h : s.safe) : (s.placeSegs c gs).2.safe := by
  unfold State.placeSegs
  refine safe_foldl_snd (fun r g k => ?_) h
  rcases r with ⟨_ | ls, u⟩
  · exact k
  · dsimp only
    generalize hx : (if g.bad = true then _ else _ : Except Block (Option Loc) × State) = x
    have hxs : x.2.safe := by
      subst hx
      refine safe_iteSnd k ?_
      rcases hv : u.engineReach c g.src 0 g.len with ⟨_ | _, t⟩
      · exact safe_of_snd hv (safe_engineReach k)
      · exact safe_of_snd hv (safe_engineReach k)
    rcases x with ⟨_ | l, v⟩
    · exact hxs
    · dsimp only
      rcases hv : v.engineReach c g.dst 1 g.len with ⟨_ | _, t⟩
      · exact safe_of_snd hv (safe_engineReach hxs)
      · exact safe_of_snd hv (safe_engineReach hxs)
theorem safe_engineStore {die vd id : Nat} {bs : List (Loc × Nat × Byte × Bool)} (h : s.safe) : (s.engineStore die vd id bs).safe :=
    safe_foldl (fun _ _ k => safe_engineWrite k) h
theorem safe_tensorPage {c : CopyCmd} {acc f n va e : Nat} (h : s.safe) : (s.tensorPage c acc f n va e).2.safe := by
  induction n generalizing s va e with
  | zero => exact h
  | succ n ih =>
    unfold State.tensorPage
    rcases hu : s.engineReach c va acc 0 with ⟨_ | _, t⟩
    · exact safe_of_snd hu (safe_engineReach h)
    · have k := safe_of_snd hu (safe_engineReach h)
      exact safe_iteSnd k (safe_iteSnd k (ih k))
theorem safe_tensorElemsAt {c : CopyCmd} {acc f fuel va e0 cnt : Nat} (h : s.safe) : (s.tensorElemsAt c acc f fuel va e0 cnt).2.safe := by
  unfold State.tensorElemsAt
  refine safe_foldl_snd (fun r i k => ?_) h
  rcases r with ⟨_ | ls, u⟩
  · exact k
  · dsimp only
    rcases hv : u.tensorPage c acc f fuel va (e0 + i) with ⟨_ | ⟨l, n, e⟩, t⟩
    · exact safe_of_snd hv (safe_tensorPage k)
    · dsimp only
      split
      · exact safe_of_snd hv (safe_tensorPage k)
      · exact safe_of_snd hv (safe_tensorPage k)
theorem safe_rowIn {c : CopyCmd} {pclr : Bool} {f row w : Nat} {es : List ElemLoc} (h : s.safe) : (s.rowIn c pclr f row w es).safe :=
    keepsWf_markDirty _ _ _ _ (safe_iteElse (safe_iteElse (safe_iteThen (keepsWf_writeTile _ _ _ _
    (safe_foldl (fun _ _ k => safe_meetLoc k) (safe_foldl (fun _ _ k => safe_meetLoc k) h))) fun k => keepsWf_writeSide _ _ _ _ k) fun k =>
    safe_setPb k) fun k => safe_setPb k)
theorem safe_rowOut {c : CopyCmd} {tf : TileFmt} {f row w : Nat} {es : List ElemLoc} (h : s.safe) : (s.rowOut c tf f row w es).safe :=
    safe_engineStore h
theorem safe_copyMoved {c : CopyCmd} {off len : Nat} (h : s.safe) : (s.copyMoved c off len).safe :=
    safe_mbReport (keepsWf_bumpFree _ (safe_setCopy h))
theorem safe_moveSegs {c : CopyCmd} {off len : Nat} {bases : List (Option Nat)} {gs : List Seg} (h : s.safe) : (s.moveSegs c off len bases gs).safe
    := by
  unfold State.moveSegs
  rcases hu : s.placeSegs c (List.flatMap Seg.cut gs) with ⟨_ | _, t⟩
  · exact safe_copyBlocked (safe_of_snd hu (safe_placeSegs h))
  · refine safe_copyMoved (safe_engineStore (safe_foldl (fun u v k => ?_) (safe_of_snd hu (safe_placeSegs h))))
    rcases v.2.1 with _ | l
    · exact k
    · exact safe_meetLoc k
theorem safe_moveRows {c : CopyCmd} {off len : Nat} {page word : DWord} {elems pitch : Nat} {tf : TileFmt} {acc : Nat}
    {row1 : State → CopyCmd → Nat → Nat → List ElemLoc → State} (h : s.safe) (hrow1 : ∀ t y z w u, t.safe → (row1 t y z w u).safe) :
    (s.moveRows c off len page word elems pitch tf acc row1).safe := by
  unfold State.moveRows
  dsimp only
  rcases hu : s.engineReach c (BitVec.toNat page) acc 1 with ⟨_ | _, t⟩
  · exact safe_copyBlocked (safe_of_snd hu (safe_engineReach h))
  · have hc := safe_of_snd hu (safe_engineReach h)
    refine safe_iteThen (safe_copyFail (safe_setCopy hc)) fun k => safe_ite (safe_copyBlocked (safe_setCopy hc)) (safe_ite k ?_)
    generalize hr : List.foldl _ _ _ = r
    have hrs : r.2.safe := by
      subst hr
      refine safe_foldl_snd (fun v i j => ?_) (safe_setCopy hc)
      rcases v with ⟨_ | rows, u⟩
      · exact j
      · dsimp only
        rename_i l
        rcases hx : u.tensorElemsAt _ acc l.fmt _ _ _ elems with ⟨_ | _, w⟩
        · exact safe_of_snd hx (safe_tensorElemsAt j)
        · exact safe_of_snd hx (safe_tensorElemsAt j)
    rcases r with ⟨(_ | _ | _ | _) | rows, u⟩
    · exact safe_copyBlocked hrs
    · exact safe_copyBlocked hrs
    · exact safe_copyFail hrs
    · exact safe_copyBlocked hrs
    · exact safe_copyMoved (safe_foldl (fun _ _ j => hrow1 _ _ _ _ _ j) hrs)
theorem safe_copyPiece {c : CopyCmd} {off len : Nat} (h : s.safe) : (s.copyPiece c off len).safe := by
  unfold State.copyPiece
  rcases c.kind with _ | _ | ⟨t, n, es, sx⟩ | _ | _
  · exact safe_moveSegs h
  · exact safe_moveSegs h
  · dsimp only
    rcases hv : s.gatherSegs c t es sx off len with ⟨_ | _, u⟩
    · exact safe_copyBlocked (safe_of_snd hv (safe_gatherSegs h))
    · exact safe_moveSegs (safe_of_snd hv (safe_gatherSegs h))
  · exact safe_moveRows h (fun _ _ _ _ _ k => safe_rowIn k)
  · exact safe_moveRows h (fun _ _ _ _ _ k => safe_rowOut k)
theorem safe_execEngineReport {cmd off len : Nat} (h : s.safe) : SafeOut (execEngineReport cmd off len s) := by
  unfold execEngineReport
  refine safeOut_next ?_
  rcases s.copyOf cmd with _ | g
  · exact h
  · refine safe_ite h ?_
    rcases s.copyFailed g with _ | r
    · exact safe_copyPiece h
    · exact safe_copyFail h
theorem safe_execCopyRetire {cmd : Nat} (h : s.safe) : SafeOut (execCopyRetire cmd s) := by
  unfold execCopyRetire
  refine safeOut_next ?_
  rcases s.copyOf cmd with _ | g
  · exact h
  · refine safe_ite h (safe_ite ?_ (safe_ite (safe_checkQuiet (safe_teamOver ?_)) ?_))
    · rcases g.key with _ | n1
      · exact safe_faultDiscard h
      · exact safe_reseal (safe_faultDiscard h)
    · rcases g.key with _ | n'
      · exact safe_faultDiscard h
      · exact safe_reseal (safe_faultDiscard h)
    · rcases g.key with _ | n
      · exact safe_faultDiscard h
      · exact safe_reseal (safe_faultDiscard h)
theorem safe_execEngineFault {cmd : Nat} (h : s.safe) : SafeOut (execEngineFault cmd s) := by
  unfold execEngineFault
  refine safeOut_next ?_
  dsimp only
  rcases s.copyOf cmd with _ | g
  · exact h
  · refine safe_ite h ?_
    rcases s.copyFailed g with _ | r
    · rcases g.left with _ | ⟨e, es⟩
      · exact h
      · dsimp only
        split
        · exact safe_ite (safe_copyPiece h) h
        · exact h
    · exact safe_copyFail h

/-! ## Memory -/

theorem safe_landLanes {o : Ops} {m : Word} {vals : List (Nat → Nat)} {dp : Word} (h : s.safe) : (s.landLanes o m vals dp).safe := safe_updGrp h
theorem safe_markStrm {n : Nat} {ls : List (Nat × Loc)} (h : s.safe) : (s.markStrm n ls).safe := keepsWf_setMem_same _ _ (fun _ => rfl) h
theorem safe_execLd {ty : Ty} {hint : LdHint} {sc : Scope} {od : MemOrd} {sx nodfr : Bool} {o : Ops} (h : s.safe) : SafeOut
    (execLd ty hint sc od sx nodfr o s) := by
  unfold execLd
  refine safeOut_next (safe_laneMem h (fun t u k => safe_landLanes (safe_ite (safe_markStrm ?_) ?_)))
  · split
    · exact safe_foldl (fun _ _ j => safe_loadFill j) k
    · exact keepsWf_bumpFree _ (safe_foldl (fun _ _ j => safe_loadFill j) k)
  · split
    · exact safe_foldl (fun _ _ j => safe_loadFill j) k
    · exact keepsWf_bumpFree _ (safe_foldl (fun _ _ j => safe_loadFill j) k)
theorem safe_queueLanes {ls : List (Nat × Loc × List Byte)} {bad : Word} {strm : Bool} (h : s.safe) : (s.queueLanes ls bad strm).safe :=
    safe_foldl (fun _ _ k => safe_updGrp k) h
theorem safe_execSt {ty : Ty} {hint : LdHint} {sc : Scope} {od : MemOrd} {sx : Bool} {o : Ops} (h : s.safe) : SafeOut (execSt ty hint sc od sx o s)
    := safeOut_next (safe_laneMem h (fun _ _ k => safe_queueLanes k))
theorem safe_execPref {ty : Ty} {ph : PrefHint} {sx : Bool} {o : Ops} (h : s.safe) : SafeOut (execPref ty ph sx o s) := by
  unfold execPref
  refine safeOut_next (safe_finish (safe_foldl (fun t u k => ?_) h))
  dsimp only
  rcases (t.checkEas { n := ty.width / 8, acc := 0, sc := Scope.core, acq := false, rel := false, win := Accepts.globalOnly } [(u, (s.lanesEa o sx fun x => ty.width / 8).getD u 0)] : Option Pending) with _ | c
  · rcases hu : (translate t (dieOf s.grp.core) (some s.grp.core) s.grp.vd t.team.asid ((s.lanesEa o sx fun x => ty.width / 8).getD u 0) 0 : Except XFault (TlbEntry × State)) with x | _
    · exact k
    · exact safe_ite (safe_translate hu k) (safe_loadFill (safe_translate hu k))
  · exact k
theorem safe_execSld {ty : Ty} {sc : Scope} {od : MemOrd} {o : Ops} (h : s.safe) : SafeOut (execSld ty sc od o s) := by
  unfold execSld
  refine safeOut_next (safe_ifActive h (fun t k => safe_consume k (fun u j => safe_onceMem j (fun v w i => safe_putS ?_))))
  split
  · exact safe_foldl (fun _ _ h1 => safe_loadFill h1) i
  · exact keepsWf_bumpFree _ (safe_foldl (fun _ _ h1 => safe_loadFill h1) i)
theorem safe_execSst {ty : Ty} {sc : Scope} {od : MemOrd} {o : Ops} (h : s.safe) : SafeOut (execSst ty sc od o s) :=
    safeOut_next (safe_ifActive h (fun _ k => safe_consume k (fun _ j => safe_onceMem j (fun _ _ i => safe_finish (safe_queueLanes i)))))
theorem safe_execLdt {ty : Ty} {m : Rnd} {sc : Scope} {od : MemOrd} {e2 nodfr : Bool} {o : Ops} (h : s.safe) : SafeOut
    (execLdt ty m sc od e2 nodfr o s) := safeOut_next (safe_laneMem h (fun _ _ k => safe_iteThen
    (safe_landLanes (safe_foldl (fun _ _ j => safe_iteElse (safe_loadFill j) fun i => safe_loadFill i) k)) fun j => keepsWf_bumpFree _ j))
theorem safe_execStt {ty : Ty} {m : Rnd} {sc : Scope} {od : MemOrd} {e2 sat : Bool} {o : Ops} (h : s.safe) : SafeOut (execStt ty m sc od e2 sat o s)
    := safeOut_next (safe_laneMem h (fun _ _ k => safe_queueLanes k))
theorem safe_meetAt {l : Loc} (h : s.safe) : (s.meetAt l).safe := safe_meetLoc h
theorem safe_rmwLanes {n : Nat} {bad : Word} {f : Nat → Nat → Option Nat} {ls : List (Nat × Loc)} (h : s.safe) : (s.rmwLanes n bad f ls).2.safe := by
  unfold State.rmwLanes
  refine safe_foldl_snd (fun acc e k => ?_) h
  have hb := safe_meetAt (l := e.2) (safe_beforeRmw (key := s.iss.key) (l := e.2) k)
  dsimp only
  split
  · exact safe_updErr hb
  · rcases f e.1 (((acc.2.beforeRmw s.iss.key e.2).meetAt e.2).pointRead ((acc.2.beforeRmw s.iss.key e.2).meetAt e.2).grp e.2 n).1 with _ | g
    · exact hb
    · exact keepsWf_wrote _ _ _ _ (safe_pointWrite hb)
theorem safe_rmwAcquire {sc : Scope} {acq : Rmw → Bool} {rs : List Rmw} {ls : List (Nat × Loc)} (h : s.safe) : (s.rmwAcquire sc acq rs ls).safe := by
  unfold State.rmwAcquire
  split
  · exact safe_acquire h
  · exact h
theorem safe_landOld {o : Ops} {is64 : Bool} {rs : List Rmw} (h : s.safe) : (s.landOld o is64 rs).safe :=
    safe_iteThen (safe_landLanes h) fun k => keepsWf_bumpFree _ k
theorem safe_atomic {ty : Ty} {op : AtomOp} {sc : Scope} {od : MemOrd} {o : Ops} {ret hostOk : Bool} (h : s.safe) :
    (s.atomic ty op sc od o ret hostOk).safe := by
  refine safe_laneMem h fun t ls k => ?_
  have j := safe_rmwLanes (n := ty.width / 8) (bad := (s.srcBfield o ty.is64).dp)
      (f := fun l old => some (atomNew ty op old ((s.srcBfield o ty.is64).at ty.is64 l))) (ls := ls) k
  exact safe_rmwAcquire (safe_ite (safe_landOld j) (safe_ite (keepsWf_bumpFree _ j) j))
theorem safe_execAtom {ty : Ty} {op : AtomOp} {sc : Scope} {od : MemOrd} {o : Ops} (h : s.safe) : SafeOut (execAtom ty op sc od o s) :=
    safeOut_next (safe_atomic h)
theorem safe_execAtomf {ty : Ty} {op : AtomOp} {sc : Scope} {od : MemOrd} {o : Ops} (h : s.safe) : SafeOut (execAtomf ty op sc od o s) :=
    safeOut_next (safe_atomic h)
theorem safe_execRed {ty : Ty} {op : AtomOp} {sc : Scope} {od : MemOrd} {o : Ops} (h : s.safe) : SafeOut (execRed ty op sc od o s) :=
    safeOut_next (safe_atomic h)
theorem safe_execAtomcas {ty : Ty} {sc : Scope} {od : MemOrd} {fo : Bool} {o : Ops} (h : s.safe) : SafeOut (execAtomcas ty sc od fo o s) := by
  refine safeOut_next (safe_laneMem h fun t ls k => ?_)
  have j := safe_rmwLanes (n := ty.width / 8) (bad := (s.srcBfield o ty.is64 0).dp ||| (s.srcBfield o ty.is64 1).dp)
    (f := fun l old => if old = (s.srcBfield o ty.is64 0).at ty.is64 l then some ((s.srcBfield o ty.is64 1).at ty.is64 l) else none) (ls := ls) k
  exact safe_rmwAcquire (safe_landOld j)
theorem safe_execFence {sc : Scope} {od : MemOrd} {_o : Ops} (h : s.safe) : SafeOut (execFence sc od _o s) :=
    safeOut_next (safe_ifActive h (fun _ k => safe_finish (safe_iteElse (safe_iteElse
    (safe_ite (safe_update (safe_publish (safe_settleStores k))) (safe_ite (safe_release k) (keepsWf_drain _ _ k))) fun j => safe_releaseTo j) fun j
    => safe_acquire j)))
theorem safe_execCmntL1 {_o : Ops} (h : s.safe) : SafeOut (execCmntL1 _o s) :=
    safeOut_next (safe_ifActive h (fun _ k => safe_finish (keepsWf_l1Drop _ _ (safe_settleStores k))))
theorem safe_maintain {o : Ops} {inv : Bool} (h : s.safe) : (s.maintain o inv).safe :=
    safe_ifActive h (fun _ k => safe_consume k (fun _ j => safe_ite (safe_trap j)
    (safe_ite (safe_finish j) (safe_ite (safe_hold (safe_iteElse (keepsWf_writeBack _ _ _ _ (safe_settleStores j)) fun i => keepsWf_setMem_same _ _
    (fun _ => rfl) i)) (safe_finish (safe_iteElse (keepsWf_writeBack _ _ _ _ (safe_settleStores j)) fun i => keepsWf_setMem_same _ _ (fun _ => rfl)
    i))))))
theorem safe_execCmntWb {o : Ops} (h : s.safe) : SafeOut (execCmntWb o s) := safeOut_next (safe_maintain h)
theorem safe_execCmntInv {o : Ops} (h : s.safe) : SafeOut (execCmntInv o s) := safeOut_next (safe_maintain h)
theorem safe_execTagrd {sc : Scope} {od : MemOrd} {o : Ops} (h : s.safe) : SafeOut (execTagrd sc od o s) :=
    safeOut_next (safe_laneMem h (fun _ _ k => safe_updGrp (safe_foldl (fun _ _ j => safe_beforeRmw j) k)))
theorem safe_execTagwr {sc : Scope} {od : MemOrd} {clr : Bool} {o : Ops} (h : s.safe) : SafeOut (execTagwr sc od clr o s) :=
    safeOut_next (safe_laneMem h (fun _ _ k => safe_foldl (fun _ _ j => safe_pointWrite (safe_beforeRmw j)) k))
theorem safe_execSigst {add irq : Bool} {sc : Scope} {od : MemOrd} {o : Ops} (h : s.safe) : SafeOut (execSigst add irq sc od o s) :=
    safeOut_next (safe_ifActive h (fun _ k => safe_consume k (fun _ j => safe_consume j
    (fun _ i => safe_onceMem i (fun _ _ h1 => safe_ite (safe_trap (safe_meetAt (safe_beforeRmw h1)))
    (safe_finish (safe_iteElse (keepsWf_wrote _ _ _ _ (safe_pointWrite (safe_meetAt (safe_beforeRmw h1)))) fun h2 => safe_postIrq h2)))))))
theorem safe_waitFor {k : WaitKind} {num t : Nat} (h : s.safe) : (s.waitFor k num t).safe := safe_hold h
theorem safe_execSigwait {sg : SigCmp} {sc : Scope} {od : MemOrd} {o : Ops} (h : s.safe) : SafeOut (execSigwait sg sc od o s) := by
  unfold execSigwait
  refine safeOut_next (safe_ifActive h (fun t k => safe_consume k (fun u j => safe_onceMem j
      (fun v w i => safe_ite (safe_putS ?_) (safe_ite (safe_putS (safe_ite ?_ ?_)) (safe_ite (safe_putS ?_) (safe_waitFor ?_)))))))
  · split
    · exact safe_foldl (fun _ _ h1 => safe_loadFill h1) i
    · exact keepsWf_bumpFree _ (safe_foldl (fun _ _ h1 => safe_loadFill h1) i)
  · rcases w.scope sc with _ | c
    · exact safe_iteThen (safe_foldl (fun _ _ h1 => safe_loadFill h1) i) fun h1 => keepsWf_bumpFree _ h1
    · exact safe_acquire (safe_iteThen (safe_foldl (fun _ _ h1 => safe_loadFill h1) i) fun h1 => keepsWf_bumpFree _ h1)
  · split
    · exact safe_foldl (fun _ _ h1 => safe_loadFill h1) i
    · exact keepsWf_bumpFree _ (safe_foldl (fun _ _ h1 => safe_loadFill h1) i)
  · split
    · exact safe_foldl (fun _ _ h1 => safe_loadFill h1) i
    · exact keepsWf_bumpFree _ (safe_foldl (fun _ _ h1 => safe_loadFill h1) i)
  · split
    · exact safe_foldl (fun _ _ h1 => safe_loadFill h1) i
    · exact keepsWf_bumpFree _ (safe_foldl (fun _ _ h1 => safe_loadFill h1) i)

/-! ## Collect -/

theorem safe_jobReach {o : Origin} {die vd asid va acc n : Nat} (h : s.safe) : (s.jobReach o die vd asid va acc n).2.safe := by
  unfold State.jobReach
  split
  · exact h
  · rcases hu : s.reach o die none vd asid va acc fun a => (a, n) with ⟨_ | _ | _, t⟩
    · exact safe_of_snd hu (safe_reach h)
    · exact safe_of_snd hu (safe_reach h)
    · exact safe_of_snd hu (safe_reach h)
theorem safe_jobRange {o : Origin} {die vd asid va n acc : Nat} (h : s.safe) : (s.jobRange o die vd asid va n acc).2.safe := by
  unfold State.jobRange
  refine safe_foldl_snd (fun t u k => ?_) h
  rcases t with ⟨_ | ls, v⟩
  · exact k
  · dsimp only
    rcases hv : v.jobReach o die vd asid u.1 acc u.2 with ⟨_ | _, w⟩
    · exact safe_of_snd hv (safe_jobReach k)
    · exact safe_of_snd hv (safe_jobReach k)
theorem safe_jobWaits {o : Origin} {vd src asid : Nat} {x : XFault} {va acc : Nat} (h : s.safe) : (s.jobWaits o vd src asid x va acc).safe :=
    safe_ite h (safe_faultRaise h)
theorem safe_startColl {j : CollJob} (h : s.safe) : (s.startColl j).safe := safe_update (keepsWf_updVd _ _ _ h)
theorem safe_execColl {ord sys : Bool} {op : CollOp} {alg : CollAlg} {ety : CollTy} {rop : RedOp} {cnum : BitVec 16} {root : BitVec 10}
    {chunk : BitVec 4} {o : EngOps} (h : s.safe) : SafeOut (execColl ord sys op alg ety rop cnum root chunk o s) := by
  unfold execColl
  refine safeOut_next (safe_ifActive h (fun t k => safe_consume k (fun u j => ?_)))
  dsimp only
  split
  · exact safe_trap j
  · exact safe_ite (safe_trap j) (safe_ite (safe_trap j) (safe_ite (safe_trap j)
        (safe_ite (safe_trap j) (safe_ite (safe_hold j) (safe_finish (safe_startColl (safe_release j)))))))
theorem safe_packetJob {vd iq idx : Nat} {f : Packet → Packet} (h : s.safe) : (s.packetJob vd iq idx f).safe := keepsWf_updVd _ _ _ h
theorem safe_sigAt {j : CollJob} (h : s.safe) : (s.sigAt j).2.safe := by
  unfold State.sigAt
  refine safe_iteSnd h ?_
  dsimp only
  rcases hu : s.jobReach (Origin.engine j.id) j.die j.vd j.asid (BitVec.toNat j.sig) 2 8 with ⟨(_ | _ | _ | _) | l, t⟩
  · exact safe_of_snd hu (safe_jobReach h)
  · exact safe_iteSnd (safe_jobWaits (safe_of_snd hu (safe_jobReach h))) (safe_of_snd hu (safe_jobReach h))
  · exact safe_of_snd hu (safe_jobReach h)
  · exact safe_of_snd hu (safe_jobReach h)
  · exact safe_iteSnd (safe_meetLoc (safe_of_snd hu (safe_jobReach h))) (safe_meetLoc (safe_of_snd hu (safe_jobReach h)))
theorem safe_collEnd {j : CollJob} {reason chunks : Nat} {sg : SigAt} (h : s.safe) : (s.collEnd j reason chunks sg).safe := by
  unfold State.collEnd
  rcases j.key with _ | g
  · refine safe_faultDiscard ?_
    rcases j.job with _ | c
    · refine safe_update (safe_iteElse (safe_iteElse ?_ safe_guestFault) fun k => safe_engineError k)
      rcases sg with _ | _ | c | l
      · exact h
      · exact h
      · exact safe_iteThen (safe_errRecord (safe_raised h)) fun k => safe_engineError k
      · exact safe_engineWrite (keepsWf_flushDie _ _ h)
    · refine safe_update (safe_packetJob (safe_iteElse (safe_iteElse ?_ safe_guestFault) fun k => safe_engineError k))
      rcases sg with _ | _ | c | l
      · exact h
      · exact h
      · exact safe_iteThen (safe_errRecord (safe_raised h)) fun k => safe_engineError k
      · exact safe_engineWrite (keepsWf_flushDie _ _ h)
  · refine safe_teamOver (safe_reseal (safe_faultDiscard ?_))
    rcases j.job with _ | q
    · refine safe_update (safe_iteElse (safe_iteElse ?_ safe_guestFault) fun k => safe_engineError k)
      rcases sg with _ | _ | c | l
      · exact h
      · exact h
      · exact safe_iteThen (safe_errRecord (safe_raised h)) fun k => safe_engineError k
      · exact safe_engineWrite (keepsWf_flushDie _ _ h)
    · refine safe_update (safe_packetJob (safe_iteElse (safe_iteElse ?_ safe_guestFault) fun k => safe_engineError k))
      rcases sg with _ | _ | c | l
      · exact h
      · exact h
      · exact safe_iteThen (safe_errRecord (safe_raised h)) fun k => safe_engineError k
      · exact safe_engineWrite (keepsWf_flushDie _ _ h)
theorem safe_collFail {j : CollJob} {reason : Nat} {tell : Bool} (h : s.safe) : (s.collFail j reason tell).safe := by
  unfold State.collFail
  refine safe_ite (safe_update (safe_ite h h)) ?_
  generalize hu : State.sigAt _ _ = u
  have hus : u.2.safe := by subst hu; exact safe_sigAt (safe_update (safe_ite h h))
  rcases u with ⟨_ | _ | _ | _, t⟩
  case waits => exact hus
  all_goals exact safe_collEnd hus
theorem safe_collPut {j : CollJob} {srcBytes : Nat} {dst : List (Loc × Nat)} {p : ChunkAt} {bs : List Byte} {bad : Bool} (h : s.safe) :
    (s.collPut j srcBytes dst p bs bad).safe := safe_engineStore h
theorem safe_execCollJobComplete {job : Nat} {ranks : List RankData} (h : s.safe) : SafeOut (execCollJobComplete job ranks s) := by
  unfold execCollJobComplete
  refine safeOut_next ?_
  dsimp only
  rcases (s.colls.find? (fun x => x.id == job) : Option CollJob) with _ | j
  · exact h
  · refine safe_ite (safe_collFail h) (safe_ite h (safe_ite (safe_collFail h)
        (safe_ite h (safe_ite (safe_collFail h) (safe_ite (safe_collFail h) ?_)))))
    generalize hv : s.jobRange _ _ _ _ _ _ _ = v
    have hvs : v.2.safe := by subst hv; exact safe_jobRange h
    rcases v with ⟨(_ | _ | _ | _) | src, t⟩
    · exact hvs
    · exact safe_ite (safe_jobWaits hvs) (safe_collFail hvs)
    · exact hvs
    · exact hvs
    · dsimp only
      generalize hw : t.jobRange _ _ _ _ _ _ _ = w
      have hws : w.2.safe := by subst hw; exact safe_jobRange hvs
      rcases w with ⟨(_ | _ | _ | _) | dst, u⟩
      · exact hws
      · exact safe_ite (safe_jobWaits hws) (safe_collFail hws)
      · exact hws
      · exact hws
      · dsimp only
        generalize hx : u.sigAt j = x
        have hxs : x.2.safe := by subst hx; exact safe_sigAt hws
        rcases x with ⟨_ | _ | _ | _, y⟩
        case waits => exact hxs
        all_goals
          exact safe_collEnd (keepsWf_bumpFree _ (safe_foldl (fun _ _ k => safe_collPut k) (safe_foldl (fun _ _ k => safe_meetLoc k) hxs)))
theorem safe_execCollJobFailNotice {job : Nat} (h : s.safe) : SafeOut (execCollJobFailNotice job s) := by
  unfold execCollJobFailNotice
  refine safeOut_next ?_
  rcases (s.colls.find? (fun x => x.id == job) : Option CollJob) with _ | j
  · exact h
  · exact safe_ite h (safe_collFail h)
theorem safe_execCommTimeout {job : Nat} (h : s.safe) : SafeOut (execCommTimeout job s) := by
  unfold execCommTimeout
  refine safeOut_next ?_
  rcases (s.colls.find? (fun x => x.id == job) : Option CollJob) with _ | j
  · exact h
  · exact safe_ite h (safe_collFail h)
theorem safe_execFabricError {job : Nat} (h : s.safe) : SafeOut (execFabricError job s) := by
  unfold execFabricError
  refine safeOut_next ?_
  rcases (s.colls.find? (fun x => x.id == job) : Option CollJob) with _ | j
  · exact h
  · exact safe_ite h (safe_collFail h)
theorem safe_execClwait {o : Ops} (h : s.safe) : SafeOut (execClwait o s) := by
  unfold execClwait
  refine safeOut_next (safe_ifActive h (fun t k => safe_consume k (fun u j => safe_consume j
      (fun v i => safe_onceMem i (fun w t1 h1 => safe_ite (safe_putS ?_) (safe_ite (safe_putS ?_) (safe_ite (safe_putS ?_) (safe_waitFor ?_))))))))
  · split
    · exact safe_foldl (fun _ _ h2 => safe_loadFill h2) h1
    · exact keepsWf_bumpFree _ (safe_foldl (fun _ _ h2 => safe_loadFill h2) h1)
  · rcases t1.scope Scope.dev with _ | c
    · exact safe_iteThen (safe_foldl (fun _ _ h2 => safe_loadFill h2) h1) fun h2 => keepsWf_bumpFree _ h2
    · exact safe_acquire (safe_iteThen (safe_foldl (fun _ _ h2 => safe_loadFill h2) h1) fun h2 => keepsWf_bumpFree _ h2)
  · split
    · exact safe_foldl (fun _ _ h2 => safe_loadFill h2) h1
    · exact keepsWf_bumpFree _ (safe_foldl (fun _ _ h2 => safe_loadFill h2) h1)
  · split
    · exact safe_foldl (fun _ _ h2 => safe_loadFill h2) h1
    · exact keepsWf_bumpFree _ (safe_foldl (fun _ _ h2 => safe_loadFill h2) h1)

/-! ## Place -/

theorem safe_awaitTable {o : Origin} {vd lq : Nat} (h : s.safe) : ∀ t, s.awaitTable o vd lq = some t → t.safe := by
  intro t ht
  obtain ⟨x, -, rfl⟩ := Option.map_eq_some_iff.1 ht
  exact safe_ite h (safe_faultRaise h)
theorem safe_tableDone {o : Origin} {vd : Nat} (h : s.safe) : (s.tableDone o vd).safe := safe_faultDiscard (safe_ite (safe_guestFault h) h)

/-! ## Bin -/

theorem safe_onContext {opc ctx ea acc : Nat} {k : State → Loc → State} (h : s.safe) (hk : ∀ t y, t.safe → (k t y).safe) :
    (s.onContext opc ctx ea acc k).safe := by
  unfold State.onContext
  refine safe_ite (safe_trap h) ?_
  rcases s.groupReqs s.iss.key with _ | _
  · rcases hv : s.locate (lowLane s.iss.act) ea acc fun a => (a, 4) with ⟨_ | _ | _ | _, t⟩
    · exact safe_ite (hk _ _ (safe_of_snd hv (safe_locate h))) (safe_trap (safe_of_snd hv (safe_locate h)))
    · exact safe_hold (safe_of_snd hv (safe_locate h))
    · exact safe_raiseFaults (safe_hold (safe_of_snd hv (safe_locate h)))
    · exact safe_trap (safe_of_snd hv (safe_locate h))
  · exact safe_ite (safe_trap h) (safe_hold h)
theorem safe_execBinadd {_ty : Ty} {o : Ops} (h : s.safe) : SafeOut (execBinadd _ty o s) := by
  unfold execBinadd
  refine safeOut_next (safe_ifActive h (fun t k => ?_))
  dsimp only
  rcases (t.grp.refusedReg t.iss.act false [{ reg := o.d.reg, val := Shape.general [], dp := 0, fp := 0 }] : Option Nat) with _ | n'
  · refine safe_consume k (fun u j => safe_consume j (fun v i => safe_onContext i (fun w t1 h1 => ?_)))
    rcases ((lanesOf t.iss.act).find? (fun k => decide (4095 < (s.srcA o false).w k)) : Option Nat) with _ | n
    · exact safe_finish h1
    · exact safe_trap h1
  · exact safe_trap k
theorem safe_execBinaddPerform {op : Nat} (h : s.safe) : SafeOut (execBinaddPerform op s) := by
  unfold execBinaddPerform
  refine safeOut_next ?_
  rcases (s.binops.find? (fun b => b.id == op) : Option BinOp) with _ | b
  · exact h
  · exact safe_teamOver (safe_binPerform h)
theorem safe_execBinrd {sc : Scope} {od : MemOrd} {clr : Bool} {o : Ops} (h : s.safe) : SafeOut (execBinrd sc od clr o s) := by
  unfold execBinrd
  refine safeOut_next (safe_ifActive h (fun t k => safe_consume k (fun u j => safe_ite (safe_ite (safe_trap j) (safe_trap j))
      (safe_onContext j (fun v w i => safe_ite (safe_putS (safe_ite ?_ ?_)) ?_)))))
  · rcases w.scope sc with _ | c1
    · exact safe_iteThen (safe_foldl (fun _ _ h1 => safe_loadFill h1) i) fun h1 => keepsWf_bumpFree _ h1
    · exact safe_acquire (safe_iteThen (safe_foldl (fun _ _ h1 => safe_loadFill h1) i) fun h1 => keepsWf_bumpFree _ h1)
  · split
    · exact safe_foldl (fun _ _ h1 => safe_loadFill h1) i
    · exact keepsWf_bumpFree _ (safe_foldl (fun _ _ h1 => safe_loadFill h1) i)
  · dsimp only
    rcases ((v.rmwLanes 4 0 (fun x x_1 => some 0) [(0, w)]).1 : List Rmw) with _ | ⟨r, tail⟩
    · exact safe_finish (safe_rmwLanes i)
    · refine safe_ite (keepsWf_bumpFree _ (safe_putS (safe_ite ?_ (safe_rmwLanes i)))) (safe_putS (safe_ite ?_ (safe_rmwLanes i)))
      · rcases w.scope sc with _ | c'
        · exact safe_rmwLanes i
        · exact safe_acquire (safe_rmwLanes i)
      · rcases w.scope sc with _ | c
        · exact safe_rmwLanes i
        · exact safe_acquire (safe_rmwLanes i)
theorem safe_execBinpatch {clr : Bool} {npkt : BitVec 16} {gsh : BitVec 5} {o : EngOps} (h : s.safe) : SafeOut (execBinpatch clr npkt gsh o s) := by
  unfold execBinpatch
  refine safeOut_next (safe_ifActive h (fun t k => safe_consume k (fun u j => ?_)))
  dsimp only
  rcases hu : u.awaitTable (Origin.group s.iss.key) u.grp.vd (BitVec.toNat (s.engSrc o).b.val) with _ | t'
  · rcases (u.tableDone (Origin.group s.iss.key) u.grp.vd).queueOf u.grp.vd (BitVec.toNat (s.engSrc o).b.val) with _ | q
    · exact safe_trap (safe_tableDone j)
    · exact safe_ite (safe_trap (safe_tableDone j)) (safe_ite (safe_trap (safe_tableDone j))
          (safe_ite (safe_trap (safe_tableDone j)) (safe_finish (safe_update (safe_release (safe_tableDone j))))))
  · exact safe_hold (safe_awaitTable j _ hu)

/-! ## Control -/

theorem safe_branch {off : Word} {take : Nat → Bool} (h : s.safe) : (s.branch off take).safe := safe_jump h
theorem safe_execNop (h : s.safe) : SafeOut (execNop s) := safeOut_next (safe_finish h)
theorem safe_execBra {cond : BrCond} {o : BrOps} (h : s.safe) : SafeOut (execBra cond o s) :=
    safeOut_next (safe_consumeAny h (fun _ k => safe_branch k))
theorem safe_execBrc {ty : Ty} {cm : Cmp} {o : BrOps} (h : s.safe) : SafeOut (execBrc ty cm o s) :=
    safeOut_next (safe_consume h (fun _ k => safe_branch k))
theorem safe_jumpTo {o : Ops} (h : s.safe) : (s.jumpTo o).safe := by
  unfold State.jumpTo
  refine safe_consume h (fun t k => ?_)
  rcases ((lanesOf t.iss.act).find? (fun l => (s.srcA o true).d l % 4 != 0) : Option Nat) with _ | n
  · exact safe_jump k
  · exact safe_trap k
theorem safe_execBrx {o : Ops} (h : s.safe) : SafeOut (execBrx o s) := safeOut_next (safe_jumpTo h)
theorem safe_execRet {o : Ops} (h : s.safe) : SafeOut (execRet o s) := safeOut_next (safe_jumpTo h)
theorem safe_execCall {o : BrOps} (h : s.safe) : SafeOut (execCall o s) := by
  unfold execCall
  refine safeOut_next (safe_consume h (fun t k => safe_ite (safe_finish k) ?_))
  rcases o.a with r | _ | _ | _ | _
  · dsimp only
    split
    · exact safe_trap k
    · exact safe_branch (safe_updGrp k)
  all_goals exact safe_branch (safe_updGrp k)
theorem safe_execExit {_o : Ops} (h : s.safe) : SafeOut (execExit _o s) :=
    safeOut_ite (safeOut_next (safe_finish h)) (safeOut_ite (safeOut_next (safe_hold h))
    (safeOut_next (safe_iteElse (safe_updGrp (safe_finish h)) fun k => safe_groupExit k)))
theorem safe_execYield {_o : Ops} (h : s.safe) : SafeOut (execYield _o s) := safeOut_next (safe_ifActive h (fun _ k => safe_finish (safe_updGrp k)))
theorem safe_execSleepc {o : Ops} (h : s.safe) : SafeOut (execSleepc o s) := by
  unfold execSleepc
  refine safeOut_next (safe_ifActive h (fun t k => ?_))
  rcases t.grp.wait.kind with _ | _ | _ | _ | _ | _ | _ | _ | _ | _ | _ | _
  case sleep =>
    rcases t.grp.wait.due with _ | d
    · exact safe_ite (safe_finish k) (safe_hold k)
    · exact safe_ite (safe_finish k) k
  all_goals exact safe_ite (safe_finish k) (safe_hold k)
theorem safe_execTrap {o : Ops} (h : s.safe) : SafeOut (execTrap o s) := safeOut_next (safe_ifActive h (fun _ k => safe_trap k))
theorem safe_execBkpt {code : BitVec 15} {_o : Ops} (h : s.safe) : SafeOut (execBkpt code _o s) :=
    safeOut_next (safe_ifActive h (fun _ k => safe_trap k))
theorem safe_readFrame {t : State} {key n : Nat} {bs : List Byte} (ht : s.readFrame key n = .ok (bs, t)) (h : s.safe) : t.safe := by
  unfold State.readFrame at ht
  dsimp only at ht
  split at ht
  · cases ht
    exact h
  · refine List.foldlRecOn (motive := fun r : Except (XFault × Nat) (List Byte × State) => ∀ b u, r = .ok (b, u) → u.safe) _ _ ?_ ?_ _ _ ht
    · rintro b u ⟨⟩
      exact h
    · intro r hr p _ b u hu
      split at hu
      · cases hu
      · have hv := hr _ _ rfl
        split at hu
        · rename_i hx
          cases hu
          exact safe_of_snd hx (safe_reach hv)
        · cases hu
        · cases hu
  · cases ht
theorem safe_execRtt {o : Ops} (h : s.safe) : SafeOut (execRtt o s) := by
  unfold execRtt
  refine safeOut_next (safe_ifActive h fun t k => safe_ite (safe_trap k) ?_)
  dsimp only
  rcases hu : t.readFrame s.iss.key 512 with _ | ⟨bs, u⟩
  · exact safe_ite (safe_trap k) (safe_ite k (safe_ite (safe_faultRaise (safe_hold k)) (safe_trap k)))
  · dsimp only
    rcases hv : u.readFrame s.iss.key (512 + 2240 * min 16 (frameNat bs 276 4)) with _ | ⟨cs, v⟩
    · exact safe_ite (safe_trap k) (safe_ite k (safe_ite (safe_faultRaise (safe_hold k)) (safe_trap k)))
    · exact safe_updGrp (safe_readFrame hv (safe_readFrame hu k))
theorem safe_execWaitfault {o : Ops} (h : s.safe) : SafeOut (execWaitfault o s) := by
  unfold execWaitfault
  refine safeOut_next (safe_ifActive h (fun t k => safe_ite (safe_hold k) ?_))
  split
  · exact safe_putS (safe_acquire k)
  · exact safe_putS k
  · exact safe_putS k
theorem safe_execCropen {pmask : BitVec 16} {o : BrOps} (h : s.safe) : SafeOut (execCropen pmask o s) :=
    safeOut_next (safe_ifActive h (fun _ k => safe_ite (safe_trap k) (safe_finish (safe_updGrp k))))
theorem safe_execCrclose {_o : Ops} (h : s.safe) : SafeOut (execCrclose _o s) := by
  unfold execCrclose
  refine safeOut_next (safe_ifActive h (fun t k => ?_))
  rcases t.grp.regions with _ | ⟨r, tail⟩
  · exact safe_trap k
  · exact safe_finish (safe_updGrp k)
theorem safe_execCrstat {clr : Bool} {o : Ops} (h : s.safe) : SafeOut (execCrstat clr o s) :=
    safeOut_next (safe_ifActive h (fun _ k => safe_putS (safe_ite (safe_updGrp k) k)))
theorem safe_pushRecord {vd lq asid scratch tile : Nat} {rec : BitVec 512} (h : s.safe) : (s.pushRecord vd lq asid scratch tile rec).1.safe := by
  unfold State.pushRecord
  rcases s.queueOf vd lq with _ | _
  · exact h
  · exact safe_iteFst h (safe_iteFst h (safe_iteFst (safe_capFault h) (safe_iteFst h (keepsWf_updVd _ _ _ h))))
theorem safe_execSpawn {o : Ops} (h : s.safe) : SafeOut (execSpawn o s) := by
  unfold execSpawn
  refine safeOut_next (safe_ifActive h (fun t k => safe_consume k (fun u j => safe_ite (safe_putS (safe_release j)) ?_)))
  rcases hu : (u.release s.iss.key Scope.dev).awaitTable (Origin.group s.iss.key) (u.release s.iss.key Scope.dev).grp.vd (if o.b = Opnd.zero then fld (BitVec.toNat u.grp.spq) 15 0 else BitVec.toNat (s.uniB o).val) with _ | t'
  · exact safe_putS (safe_pushRecord (safe_tableDone (safe_release j)))
  · exact safe_hold (safe_awaitTable (safe_release j) _ hu)
theorem safe_joinRecord {vd : Nat} {x : DWord} (h : s.safe) : (s.joinRecord vd x).safe := by
  unfold State.joinRecord
  refine safe_ite (keepsWf_updVd _ _ _ h) ?_
  split
  · exact keepsWf_updVd _ _ _ h
  · split
    · exact keepsWf_updVd _ _ _ h
    · exact safe_ite (keepsWf_updVd _ _ _ h) (keepsWf_updVd _ _ _ h)
theorem safe_execJoin {o : Ops} (h : s.safe) : SafeOut (execJoin o s) :=
    safeOut_next (safe_ifActive h (fun _ k => safe_consume k (fun _ j => safe_finish (safe_joinRecord (safe_release j)))))
theorem safe_execSmstart {_o : Ops} (h : s.safe) : SafeOut (execSmstart _o s) :=
    safeOut_next (safe_ifActive h (fun _ k => safe_finish (safe_updGrp k)))
theorem safe_execWaitpred {_o : Ops} (h : s.safe) : SafeOut (execWaitpred _o s) :=
    safeOut_next (safe_ifActive h (fun _ k => safe_ite (safe_finish k) (safe_ite (safe_updGrp (safe_finish (safe_acquire k))) (safe_hold k))))
theorem safe_execBarinit {b : BitVec 4} {mask : BitVec 5} {o : Ops} (h : s.safe) : SafeOut (execBarinit b mask o s) :=
    safeOut_next (safe_ifActive h (fun _ k => safe_ite (safe_fail k) (safe_ite (safe_fail k)
    (safe_checkTeam (safe_finish (safe_setBar (safe_uncarry k)))))))
theorem safe_execBara {b : BitVec 4} {_o : Ops} (h : s.safe) : SafeOut (execBara b _o s) :=
    safeOut_next (safe_ifActive h (fun _ k => safe_withBar k (fun _ => safe_ite (safe_waitBar k)
    (safe_checkTeam (safe_markRestart (safe_finish (safe_arrive k)))))))
theorem safe_execBarw {b : BitVec 4} {_o : Ops} (h : s.safe) : SafeOut (execBarw b _o s) :=
    safeOut_next (safe_ifActive h (fun _ k => safe_withBar k (fun _ => safe_ite (safe_acquired k) (safe_waitBar k))))
theorem safe_execBars {b : BitVec 4} {_o : Ops} (h : s.safe) : SafeOut (execBars b _o s) :=
    safeOut_next (safe_ifActive h (fun _ k => safe_withBar k (fun _ => safe_ite (safe_ite (safe_waitBar k) (safe_acquired k))
    (safe_ite (safe_waitBar k) (safe_ite (safe_checkTeam (safe_acquired (safe_arrive k))) (safe_waitBar (safe_arrive k)))))))
theorem safe_execRninit {rn : BitVec 3} {s1 : BitVec 4} {o : Ops} (h : s.safe) : SafeOut (execRninit rn s1 o s) := by
  unfold execRninit
  refine safeOut_next (safe_ifActive h (fun t k => safe_ite (safe_fail k) ?_))
  split
  · exact safe_fail k
  · exact safe_finish (safe_setRn (safe_uncarry k))
theorem safe_execRnpost {rn : BitVec 3} {empty : Bool} {o : Ops} (h : s.safe) : SafeOut (execRnpost rn empty o s) :=
    safeOut_next (safe_ifActive h (fun _ k => safe_ite (safe_fail k) (safe_ite (safe_checkQuiet (safe_hold k))
    (safe_markRestart (safe_finish (safe_iteElse (safe_setRn (safe_ite k (safe_releaseTo (safe_release k)))) fun j => safe_wakeRn j))))))
theorem safe_execRnwait {rn : BitVec 3} {empty : Bool} {o : Ops} (h : s.safe) : SafeOut (execRnwait rn empty o s) :=
    safeOut_next (safe_ifActive h (fun _ k => safe_ite (safe_fail k) (safe_ite (safe_ite (safe_finish k) (safe_acquired k))
    (safe_checkQuiet (safe_hold k)))))

end Sys2Proof.Machine.State
end

section
/-! PROOF. The issue of an instruction, the inboxes, the remote accesses and the scheduler keep the stores canonical. -/
namespace Sys2Proof.Machine.State
variable {s : State}

/-! ## Issue -/

theorem safe_takeErr {key : Nat} (h : s.safe) : (s.takeErr key).safe := by
  unfold State.takeErr
  rcases mfind s.groups key with _ | g
  · exact h
  · dsimp only
    rcases g.errs with _ | ⟨c, cs⟩
    · exact h
    · exact safe_ite (safe_streamError (safe_setGroup h)) (safe_ite (safe_ite (safe_unwindTo (safe_setGroup h)) (safe_trapAt (safe_setGroup h)))
          (safe_ite (safe_trapAt (safe_setGroup h)) (safe_unwindElse (safe_setGroup h) (fun _ k => safe_trapAt k))))
theorem safe_takeNak {key : Nat} (h : s.safe) : (s.takeNak key).safe := by
  unfold State.takeNak
  rcases mfind s.groups key with _ | g
  · exact h
  · dsimp only
    rcases g.naks with _ | ⟨c, cs⟩
    · exact h
    · exact safe_ite h (safe_trapAt (safe_setGroup h))
theorem safe_startIssue {key : Nat} {g : Group} {pc : DWord} {bits len : Nat} {xm : Word} {r : Row} (h : s.safe) :
    (s.startIssue key g pc bits len xm r).safe := h
theorem safe_resumeIssue {key : Nat} {g : Group} {e : Entry} {r : Row} {replay : Bool} (h : s.safe) : (s.resumeIssue key g e r replay).safe := h
theorem safe_refuse {key : Nat} {pc : DWord} {bits avail : Nat} {xm : Word} {cause : Nat} {replay : Bool} (h : s.safe) :
    (s.refuse key pc bits avail xm cause replay).safe := safe_fail h

/-! ## Inbox -/

theorem safe_execRstr {cnt1 : BitVec 3} {trapnak : Bool} {od : MemOrd} {o : Ops} (h : s.safe) : SafeOut (execRstr cnt1 trapnak od o s) := by
  unfold execRstr
  refine safeOut_next (safe_ifActive h (fun t k => safe_consume k (fun u j => safe_ite (safe_trap j) (safe_ite (safe_hold j) ?_))))
  dsimp only
  split
  · refine safe_trap ?_
    split
    · exact safe_updGrp (safe_ite (safe_releaseTo (safe_release j)) (keepsWf_settleFence _ _ j))
    · exact safe_ite (safe_releaseTo (safe_release j)) (keepsWf_settleFence _ _ j)
  · refine safe_finish (safe_updGrp ?_)
    split
    · exact safe_update (safe_updGrp (safe_ite (safe_releaseTo (safe_release j)) (keepsWf_settleFence _ _ j)))
    · exact safe_update (safe_ite (safe_releaseTo (safe_release j)) (keepsWf_settleFence _ _ j))
theorem safe_execIbarm {ctr : BitVec 2} {o : Ops} (h : s.safe) : SafeOut (execIbarm ctr o s) := by
  unfold execIbarm
  refine safeOut_next (safe_ifActive h (fun t k => safe_consume k (fun u j => ?_)))
  dsimp only
  rcases u.ibarmRefused ctr.toNat (BitVec.toNat (s.uniA o).val) (BitVec.toNat (s.uniB o).val) with _ | c
  · exact safe_finish (safe_updGrp (safe_uncarry j))
  · exact safe_trap j
theorem safe_execIbarmDis {ctr : BitVec 2} {_o : Ops} (h : s.safe) : SafeOut (execIbarmDis ctr _o s) :=
    safeOut_next (safe_ifActive h (fun _ k => safe_finish (safe_updGrp k)))
theorem safe_execIbwait {ctr : BitVec 2} {o : Ops} (h : s.safe) : SafeOut (execIbwait ctr o s) :=
    safeOut_next (safe_ifActive h (fun _ k => safe_ite (safe_putS (safe_ite (safe_acquire k) k)) (safe_ite (safe_putS k) (safe_waitFor k))))
theorem safe_execIbstatSend {clr : Bool} {o : Ops} (h : s.safe) : SafeOut (execIbstatSend clr o s) :=
    safeOut_next (safe_ifActive h (fun _ k => safe_putS (safe_ite (safe_updGrp k) k)))
theorem safe_execIbstatIbox {ctr : BitVec 2} {o : Ops} (h : s.safe) : SafeOut (execIbstatIbox ctr o s) :=
    safeOut_next (safe_ifActive h (fun _ k => safe_putS k))

/-! ## Remote -/

theorem safe_landStore {m : RemoteStore} (h : s.safe) : (s.landStore m).safe := by
  unfold State.landStore
  rcases s.named m.gname with _ | g
  · exact safe_answerStore h
  · refine safe_answerStore (safe_ite (safe_acquire ?_) ?_)
    · rcases g.2.inboxFor m with _ | _
      · exact safe_reseal (safe_setGroup h)
      · exact safe_iteElse (safe_iteElse (safe_reseal (safe_setGroup h)) fun k => safe_carry k) fun k => safe_acquireFrom k
    · rcases g.2.inboxFor m with _ | _
      · exact safe_reseal (safe_setGroup h)
      · exact safe_iteElse (safe_iteElse (safe_reseal (safe_setGroup h)) fun k => safe_carry k) fun k => safe_acquireFrom k
theorem safe_touchDie {m : RemoteStore} (h : s.safe) : (s.touchDie m).safe := by
  unfold State.touchDie
  rcases (if m.sdev = s.devNum then s.serviceDie m.gname else none) with _ | d
  · exact h
  · rcases s.named m.sender with _ | ⟨k, g⟩
    · exact h
    · exact safe_reseal (safe_updGroup h)
theorem safe_deliverStore {m : RemoteStore} (h : s.safe) : ∀ t, s.deliverStore m = some t → t.safe := by
  intro t ht
  have hd := safe_touchDie (m := m) h
  unfold State.deliverStore at ht
  dsimp only at ht
  split at ht
  · cases ht
    exact safe_countStale h
  · split at ht
    · cases ht
      exact safe_answerStore hd
    · split_ifs at ht <;> cases ht
      · exact safe_update hd
      · exact safe_landStore hd
theorem safe_drainPorts (h : s.safe) : (s.drainPorts).safe := by
  unfold State.drainPorts
  refine safe_foldl (fun t u k => safe_ite k ?_) h
  rcases hu : t.deliverStore u with _ | t'
  · exact k
  · exact safe_deliverStore k _ hu
theorem safe_getD {o : Option State} (ho : ∀ t, o = some t → t.safe) (h : s.safe) : (o.getD s).safe := by
  induction o with
  | none => exact h
  | some t => exact ho t rfl

theorem safe_execRemoteStoreArrival {m : RemoteStore} (h : s.safe) : SafeOut (execRemoteStoreArrival m s) := by
  unfold execRemoteStoreArrival
  have hports := safe_drainPorts h
  refine safeOut_next (safe_ite h (safe_ite (safe_ite (safe_update hports) (safe_getD (safe_deliverStore hports) (safe_update hports))) ?_))
  rcases (s.flight.find? (fun x => nameDev x.gname == s.devNum) : Option RemoteStore) with _ | x
  · exact h
  · exact safe_ite (safe_getD (safe_deliverStore (safe_update h)) h) h
theorem safe_applyHeld {gname : DWord} (h : s.safe) : (s.applyHeld gname).safe :=
    safe_drainPorts (safe_foldl (fun _ _ k => safe_ite (safe_countStale k) (safe_landStore k)) h)
theorem safe_outcomeArrives {o : RstrOutcome} (h : s.safe) : (s.outcomeArrives o).safe := by
  unfold State.outcomeArrives
  rcases s.named o.sender with _ | _
  · exact h
  · exact safe_checkQuiet (safe_reseal (safe_ite (safe_setGroup h) (safe_setGroup h)))
theorem safe_outcomeUnlessStale {o : RstrOutcome} {die : Nat} {inc : BitVec 16} (h : s.safe) : (s.outcomeUnlessStale o die inc).safe :=
    safe_ite (safe_countStale h) (safe_outcomeArrives h)
theorem safe_execRstrOutcome {o : RstrOutcome} (h : s.safe) : SafeOut (execRstrOutcome o s) := by
  unfold execRstrOutcome
  refine safeOut_next (safe_ite (safe_outcomeUnlessStale h) ?_)
  rcases (s.flight.find? (fun m => m.sender == o.sender && m.seq == o.seq && nameDev m.gname != s.devNum) : Option RemoteStore) with _ | x
  · exact h
  · exact safe_outcomeUnlessStale h
theorem safe_homeRmw {l : Loc} {n : Nat} {f : Nat → Option Nat} (h : s.safe) : (s.homeRmw l n f).1.safe := by
  unfold State.homeRmw
  dsimp only
  split
  · exact keepsWf_bumpFree _ h
  · rcases f (s.hbmNat l.addr n) with _ | g
    · exact h
    · exact safe_cisternPut h
theorem safe_execRemoteAccess {r : RemoteReq} (h : s.safe) : SafeOut (execRemoteAccess r s) := by
  unfold execRemoteAccess
  refine safeOut_next (safe_ite (safe_update (safe_ite (keepsWf_meet _ _ _ h) h)) ?_)
  dsimp only
  induction r.op with
  | read n => exact safe_update (safe_ite (keepsWf_meet _ _ _ h) h)
  | write bs bad => exact safe_update (safe_cisternPut (safe_ite (keepsWf_meet _ _ _ h) h))
  | rmw ty op v => exact safe_update (safe_homeRmw (safe_ite (keepsWf_meet _ _ _ h) h))
  | cas ty c x => exact safe_update (safe_homeRmw (safe_ite (keepsWf_meet _ _ _ h) h))
  | tagRead => exact safe_update (safe_ite (keepsWf_meet _ _ _ h) h)
  | tagWrite clr => exact safe_update (safe_cisternPut (safe_ite (keepsWf_meet _ _ _ h) h))

/-! ## Sched -/

theorem safe_refreshBand {band : Nat} (h : s.safe) : (s.refreshBand band).safe := h
theorem safe_refreshHeads (h : s.safe) : (s.refreshHeads).safe := safe_foldl (fun _ _ k => safe_refreshBand k) h
theorem safe_reviewSaved (h : s.safe) : (s.reviewSaved).safe := by
  unfold State.reviewSaved
  refine safe_foldl (fun t u k => ?_) h
  rcases u.2.saved with _ | v
  · exact k
  · exact safe_iteElse (keepsWf_updTeam _ _ _ k) fun j => safe_postIrq j
theorem safe_stackBack {vd slot : Nat} (h : s.safe) : (s.stackBack vd slot).safe := keepsWf_setMem_same _ _ (fun _ => rfl) (keepsWf_l2Evict _ _ h)
theorem wf_foldl_erase {lo hi : Nat → Nat} {ks : List Nat} {m : Mem} (h : Mem.wf m = true) : Mem.wf
    (ks.foldl (fun m k => Mem.erase m (lo k) (hi k)) m) = true := by
  induction ks generalizing m with
  | nil => exact h
  | cons k ks ih => exact ih (Mem.wf_erase _ _ h)

theorem safe_startTeam {vd band : Nat} {x : Launch} {p : Placement} (h : s.safe) : (s.startTeam vd band x p).safe := by
  refine safe_foldl (fun _ _ k => keepsWf_l1Drop _ _ k) (keepsWf_setMem _ _ (fun m hm => ?_) (keepsWf_updVd _ _ _ (safe_update h)))
  obtain ⟨hhbm, hrest⟩ := (MemSys.wf_iff m).1 hm
  exact (MemSys.wf_iff _).2 ⟨wf_foldl_erase hhbm, hrest⟩
theorem safe_takeRecord {vd teamid : Nat} {x : Head} (h : s.safe) : (s.takeRecord vd x teamid).safe := keepsWf_updVd _ _ _ h
theorem safe_nameTeam {tid : Nat} {x : NameState} (h : s.safe) : (s.nameTeam tid x).safe := safe_foldl (fun _ _ k => safe_setName k) h
theorem safe_nakDead (h : s.safe) : (s.nakDead).safe := safe_drainPorts (safe_nakHeld h)
theorem safe_killTeam {tid reason : Nat} (h : s.safe) : (s.killTeam tid reason).safe := by
  unfold State.killTeam
  rcases (s.keysOf tid).head? with _ | _
  · exact safe_dropTeam (safe_dropTeamReqs h)
  · exact safe_nakDead (safe_endTeam h)
theorem safe_meetSave {tid : Nat} (h : s.safe) : (s.meetSave tid).safe := by
  unfold State.meetSave
  dsimp only
  rcases (mget ({} : Team) s.teams tid).saved with _ | _
  · exact h
  · exact keepsWf_meet _ _ _ h
theorem safe_beginRestore {tid : Nat} {p : Placement} (h : s.safe) : (s.beginRestore tid p).safe :=
    safe_ite (safe_killTeam (safe_meetSave h)) (safe_update (keepsWf_updTeam _ _ _ (safe_nameTeam (safe_meetSave h))))
theorem safe_endRestore {tid : Nat} (h : s.safe) : (s.endRestore tid).safe :=
    safe_checkTeam (safe_foldl (fun _ _ k => safe_applyHeld (safe_setName (safe_stackBack k)))
    (safe_foldl (fun _ _ k => keepsWf_l1Drop _ _ k) (safe_foldl (fun _ _ k => safe_updGroup (safe_faultDiscard k)) (keepsWf_updTeam _ _ _ h))))
theorem safe_execTeamStart {p : Placement} (h : s.safe) : SafeOut (execTeamStart p s) := by
  unfold execTeamStart
  refine safeOut_next ?_
  rcases s.reviewSaved.refreshHeads.decision p with _ | ⟨b, v, hd⟩
  · exact safe_refreshHeads (safe_reviewSaved h)
  · rcases hd with tid | ⟨iq, idx⟩ | ⟨iq, seq⟩
    · exact safe_beginRestore (safe_refreshHeads (safe_reviewSaved h))
    all_goals
      dsimp only
      split
      · exact safe_refreshHeads (safe_reviewSaved h)
      · exact safe_refreshHeads (safe_takeRecord (safe_startTeam (safe_refreshHeads (safe_reviewSaved h))))
theorem safe_stopMove {key : Nat} (h : s.safe) : (s.stopMove key).safe := safe_ite h (safe_applyHeld (safe_setName (safe_updGroup h)))
theorem safe_stopRestore {tid : Nat} (h : s.safe) : (s.stopRestore tid).safe :=
    safe_foldl (fun _ _ k => safe_applyHeld k) (safe_nameTeam (keepsWf_updTeam _ _ _ h))
theorem safe_stopMoves {core : Nat} (h : s.safe) : (s.stopMoves core).safe :=
    safe_foldl (fun _ _ k => safe_stopRestore k) (safe_foldl (fun _ _ k => safe_stopMove k) h)
theorem safe_execTeamRestore {team : Nat} {p : Placement} (h : s.safe) : SafeOut (execTeamRestore team p s) := by
  unfold execTeamRestore
  refine safeOut_next ?_
  rcases (mget ({} : Team) s.teams team).saved with _ | v
  · exact h
  · dsimp only
    rcases v.target with _ | q
    · dsimp only
      rcases s.reviewSaved.refreshHeads.decision p with _ | ⟨b, v, _ | _ | _⟩
      · exact safe_refreshHeads (safe_reviewSaved h)
      · exact safe_iteElse (safe_refreshHeads (safe_reviewSaved h)) fun k => safe_beginRestore k
      · exact safe_refreshHeads (safe_reviewSaved h)
      · exact safe_refreshHeads (safe_reviewSaved h)
    · exact safe_ite h (safe_ite (safe_endRestore h) (safe_stopRestore h))
theorem safe_stopTeamStream {tid : Nat} (h : s.safe) : (s.stopTeamStream tid).safe := keepsWf_updTeam _ _ _ (safe_updGroup h)
theorem safe_stopTeam {tid : Nat} (h : s.safe) : (s.stopTeam tid).safe :=
    keepsWf_bumpFree _ (safe_foldl (fun _ _ k => safe_updGroup k) (safe_stopTeamStream
    (safe_foldl (fun _ _ k => keepsWf_flushDie _ _ k) (safe_foldl (fun _ _ k => safe_binFinish (keepsWf_drain _ _ k)) h))))
theorem safe_preemptTeam {tid : Nat} (h : s.safe) : (s.preemptTeam tid).safe := by
  unfold State.preemptTeam
  refine safe_ite h ?_
  rcases (s.stopTeam tid).saveSpot tid with _ | _
  · exact safe_errRecord h
  · exact safe_nameTeam (safe_writeSave (safe_update (keepsWf_updTeam _ _ _ (safe_stopTeam h))))
theorem safe_execPreempt {team : Nat} (h : s.safe) : SafeOut (execPreempt team s) := by
  unfold execPreempt
  refine safeOut_next ?_
  rcases mfind s.teams team with _ | _
  · exact h
  · exact safe_ite (safe_preemptTeam h) (safe_iteElse (safe_refreshHeads (safe_reviewSaved h)) fun k => safe_preemptTeam k)
theorem safe_execSliceExpiry {team : Nat} (h : s.safe) : SafeOut (execSliceExpiry team s) := by
  unfold execSliceExpiry
  refine safeOut_next ?_
  rcases mfind s.reviewSaved.refreshHeads.teams team with _ | _
  · exact safe_refreshHeads (safe_reviewSaved h)
  · exact safe_iteElse (safe_refreshHeads (safe_reviewSaved h)) fun k => safe_preemptTeam k
theorem safe_execMigration {key core quad : Nat} (h : s.safe) : SafeOut (execMigration key core quad s) := by
  unfold execMigration
  refine safeOut_next ?_
  split
  · exact h
  · split
    · exact safe_ite h (safe_ite (safe_stopMove h) (safe_applyHeld (safe_setName (keepsWf_l1Drop _ _ (safe_stackBack (safe_updGroup h))))))
    · exact safe_ite h (safe_setName (safe_updGroup (keepsWf_flushDie _ _ (safe_binFinish (keepsWf_drain _ _ h)))))
theorem safe_chargeVt {us : Nat} (h : s.safe) : (s.chargeVt us).safe := safe_foldl (fun _ _ k => keepsWf_updVd _ _ _ k) h
theorem safe_reportFound (h : s.safe) : (s.reportFound).safe := safe_foldl (fun _ _ k => safe_errRecord k) (keepsWf_setMem_same _ _ (fun _ => rfl) h)
theorem safe_tick {clocks ns : Nat} {skew : List (Nat × Nat)} (h : s.safe) : (s.tick clocks ns skew).safe :=
    safe_iteThen (safe_update (safe_iteThen (safe_refreshHeads (safe_reportFound h)) fun k => safe_chargeVt k)) fun k => k

end Sys2Proof.Machine.State
end

section
/-! PROOF. The front end, Freor's commands, the registers and the device events keep the stores canonical. -/
namespace Sys2Proof.Machine.State
variable {s : State}

/-! ## Front -/

theorem safe_feRange {vd iq asid va n acc : Nat} (h : s.safe) : (s.feRange vd iq asid va n acc).2.safe := by
  unfold State.feRange
  refine safe_iteSnd (safe_guestFault h) ?_
  rcases hu : s.jobRange (Origin.frontEnd iq) 0 vd asid va n acc with ⟨(_ | _ | _ | _) | l, t⟩
  · exact safe_of_snd hu (safe_jobRange h)
  · have k := safe_of_snd hu (safe_jobRange h)
    exact safe_iteSnd (safe_guestFault k) (safe_iteSnd (safe_guestFault (safe_faultDiscard k)) (safe_jobWaits k))
  · exact safe_of_snd hu (safe_jobRange h)
  · exact safe_of_snd hu (safe_jobRange h)
  · exact safe_of_snd hu (safe_jobRange h)
theorem safe_feWrite {vd : Nat} {ls : List (Loc × Nat)} {bs : List Byte} (h : s.safe) : (s.feWrite vd ls bs).safe :=
    safe_foldl_fst (fun _ _ k => safe_ite (keepsWf_cisternWrite _ _ k) (safe_engineWrite k)) h
theorem safe_feRead {vd iq asid va n : Nat} (h : s.safe) : (s.feRead vd iq asid va n).2.safe := by
  unfold State.feRead
  rcases hu : s.feRange vd iq asid va n 0 with ⟨_ | _ | _, t⟩
  · exact safe_of_snd hu (safe_feRange h)
  · exact safe_of_snd hu (safe_feRange h)
  · exact safe_of_snd hu (safe_feRange h)
theorem safe_updQueue {vd iq : Nat} {f : PQueue → PQueue} (h : s.safe) : (s.updQueue vd iq f).safe := keepsWf_updVd _ _ _ h
theorem safe_updPacket {vd iq idx : Nat} {f : Packet → Packet} (h : s.safe) : (s.updPacket vd iq idx f).safe := safe_updQueue h
theorem safe_haltWrite {vd iq : Nat} {x : XFault} {va : Nat} (h : s.safe) : (s.haltWrite vd iq x va).safe :=
    safe_postIrq (safe_errRecord (safe_updQueue h))
theorem safe_writeStatus {vd iq : Nat} (h : s.safe) : (s.writeStatus vd iq).safe := by
  unfold State.writeStatus
  refine safe_ite (safe_capFault h) ?_
  rcases hu : s.feRange vd iq (s.queue vd iq).ent.asid (s.queue vd iq).ent.stat 64 1 with ⟨_ | _ | _, t⟩
  · exact safe_updQueue (safe_feWrite (safe_of_snd hu (safe_feRange h)))
  · exact safe_updQueue (safe_of_snd hu (safe_feRange h))
  · exact safe_haltWrite (safe_of_snd hu (safe_feRange h))
theorem safe_flushStatus {vd iq : Nat} (h : s.safe) : (s.flushStatus vd iq).safe := safe_ite (safe_writeStatus h) h
theorem safe_dropKick {vd : Nat} {iq : Option Nat} (h : s.safe) : (s.dropKick vd iq).safe := by
  unfold State.dropKick
  rcases iq with _ | _
  · exact safe_updErr h
  · exact safe_writeStatus (safe_updQueue (safe_updErr h))
theorem safe_kickSlot {vd l k : Nat} (h : s.safe) : (s.kickSlot vd l k).safe := by
  unfold State.kickSlot
  refine safe_ite (safe_dropKick h) ?_
  dsimp only
  rcases hu : s.awaitTable kickOrigin vd l with _ | _
  · rcases (s.tableDone kickOrigin vd).queueOf vd l with _ | _
    · exact safe_dropKick (safe_tableDone h)
    · exact safe_ite (safe_dropKick (safe_tableDone h)) (safe_ite (safe_dropKick (safe_tableDone h))
          (safe_ite (safe_dropKick (safe_updQueue (safe_tableDone h))) (safe_writeStatus (safe_updQueue (safe_updQueue (safe_tableDone h))))))
  · exact keepsWf_updVd _ _ _ (safe_awaitTable h _ hu)
theorem safe_retryKicks {vd : Nat} (h : s.safe) : (s.retryKicks vd).safe := safe_foldl (fun _ _ k => safe_kickSlot k) (keepsWf_updVd _ _ _ h)
theorem safe_execKick {vd off size : Nat} {word : BitVec 64} (h : s.safe) : SafeOut (execKick vd off size word s) :=
    safeOut_next (safe_ite h (safe_ite (safe_dropKick h) (safe_kickSlot (safe_retryKicks h))))
theorem safe_readJobs {vd iq : Nat} {p : Packet} (h : s.safe) : (s.readJobs vd iq p).2.safe :=
    safe_iteSnd (safe_iteSnd h (safe_feRead h)) (safe_iteSnd h h)
theorem safe_checkPacket {vd iq : Nat} {p : Packet} {prev : Option Packet} (h : s.safe) : (s.checkPacket vd iq p prev).2.safe := by
  unfold State.checkPacket
  refine safe_iteSnd h ?_
  rcases hu : s.readJobs vd iq p with ⟨_ | _ | _, t⟩
  · have k := safe_of_snd hu (safe_readJobs h)
    refine safe_iteSnd k (safe_iteSnd k ?_)
    dsimp only
    generalize hv : t.feRead _ _ _ _ _ = v
    have hvs : v.2.safe := by subst hv; exact safe_feRead k
    rcases v with ⟨_ | _ | _, u⟩
    · exact hvs
    · exact hvs
    · exact hvs
  · exact safe_of_snd hu (safe_readJobs h)
  · exact safe_of_snd hu (safe_readJobs h)
theorem safe_malformed {vd iq idx reason : Nat} (h : s.safe) : (s.malformed vd iq idx reason).safe := safe_postIrq (safe_updQueue (safe_updPacket h))
theorem safe_checkAt {vd iq idx : Nat} (h : s.safe) : (s.checkAt vd iq idx).safe := by
  unfold State.checkAt
  dsimp only
  rcases hu : s.checkPacket vd iq (s.packetAt vd iq idx) (mfind (s.queue vd iq).pkts ((idx + 2 ^ 19 - 1) % 2 ^ 19)) with ⟨_ | _, t⟩
  · exact safe_of_snd hu (safe_checkPacket h)
  · exact safe_writeStatus (safe_updQueue (safe_iteElse (safe_updPacket (safe_of_snd hu (safe_checkPacket h))) fun k => safe_malformed k))
theorem safe_fetched {vd iq : Nat} {bs : List Byte} (h : s.safe) : (s.fetched vd iq bs).safe := safe_checkAt (safe_updQueue h)
theorem safe_unreadable {vd iq : Nat} (h : s.safe) : (s.unreadable vd iq).safe := safe_writeStatus (safe_postIrq (safe_updQueue h))
theorem safe_readSlot {vd iq : Nat} {late : State → State} (h : s.safe) (hlate : ∀ t, t.safe → (late t).safe) : (s.readSlot vd iq late).safe := by
  unfold State.readSlot
  refine safe_ite (safe_unreadable h) ?_
  rcases hu : s.feRead vd iq (s.queue vd iq).ent.asid (slotVa (s.queue vd iq).ent (s.queue vd iq).fetch) 128 with ⟨_ | _ | _, t⟩
  · exact safe_ite (safe_fetched (safe_of_snd hu (safe_feRead h))) (hlate _ (safe_of_snd hu (safe_feRead h)))
  · exact safe_of_snd hu (safe_feRead h)
  · exact safe_unreadable (safe_of_snd hu (safe_feRead h))
theorem safe_execPacketFetch {vd iq : Nat} (h : s.safe) : SafeOut (execPacketFetch vd iq s) := by
  unfold execPacketFetch
  refine safeOut_next ?_
  rcases ((s.retryKicks vd).flushStatus vd iq).unchecked vd iq with _ | _
  · exact safe_iteThen (safe_flushStatus (safe_retryKicks h)) fun k => safe_readSlot k (fun _ j => safe_updQueue j)
  · exact safe_checkAt (safe_flushStatus (safe_retryKicks h))
theorem safe_execPseqRereadExpiry {vd iq : Nat} (h : s.safe) : SafeOut (execPseqRereadExpiry vd iq s) := by
  unfold execPseqRereadExpiry
  refine safeOut_next ?_
  rcases ((s.flushStatus vd iq).queue vd iq).rereadDue with _ | _
  · exact safe_flushStatus h
  · exact safe_iteThen (safe_flushStatus h) fun k => safe_readSlot k (fun _ j => safe_writeStatus (safe_postIrq (safe_updQueue j)))
theorem safe_startJob {vd iq idx asid : Nat} {pre : Bool} {j : JobEnt} (h : s.safe) : (s.startJob vd iq idx asid pre j).safe := by
  unfold State.startJob
  rcases j.type with _ | _ | _ | _
  · exact safe_startColl h
  · exact safe_ite h h
  · exact h
  · exact safe_startColl h
theorem safe_startJobs {vd iq idx : Nat} {pre : Bool} (h : s.safe) : (s.startJobs vd iq idx pre).safe := safe_foldl (fun _ _ k => safe_startJob k) h
theorem safe_releaseGrid {vd iq idx : Nat} (h : s.safe) : (s.releaseGrid vd iq idx).safe := safe_startJobs (safe_updQueue h)
theorem safe_skipNext {vd iq idx n : Nat} (h : s.safe) : (s.skipNext vd iq idx n).safe := safe_updQueue h
theorem safe_setPhase {vd iq idx : Nat} {ph : Phase} (h : s.safe) : (s.setPhase vd iq idx ph).safe := safe_updPacket h
theorem safe_execPacketStart {vd iq idx : Nat} (h : s.safe) : SafeOut (execPacketStart vd iq idx s) := by
  unfold execPacketStart
  refine safeOut_next (safe_ite h (safe_ite (safe_updPacket h) ?_))
  rcases (s.packetAt vd iq idx).type with _ | _ | _ | _ | _ | _ | _ | _ | _
  · exact safe_setPhase h
  · exact safe_ite (safe_setPhase h) (safe_ite (safe_updPacket (safe_startJobs (safe_setPhase h)))
        (safe_releaseGrid (safe_startJobs (safe_setPhase h))))
  · exact safe_startJobs (safe_setPhase h)
  · exact safe_startJobs (safe_setPhase h)
  · exact safe_setPhase h
  · exact safe_updPacket h
  · exact safe_ite (safe_setPhase h) (safe_ite (safe_updPacket (safe_startJobs (safe_setPhase h)))
        (safe_releaseGrid (safe_startJobs (safe_setPhase h))))
  · rcases hv : s.feRead vd iq (s.packetAt vd iq idx).ent.asid ((s.packetAt vd iq idx).at 16 8) 4 with ⟨_ | _ | _, t⟩
    · exact safe_setPhase (safe_skipNext (safe_of_snd hv (safe_feRead h)))
    · exact safe_of_snd hv (safe_feRead h)
    · exact safe_malformed (safe_of_snd hv (safe_feRead h))
  · exact safe_setPhase h
theorem safe_execPreJobsDone {vd iq idx : Nat} (h : s.safe) : SafeOut (execPreJobsDone vd iq idx s) :=
    safeOut_next (safe_ite h (safe_ite (safe_releaseGrid h) (safe_startJobs (safe_updPacket h))))
theorem safe_execWaitPacketSatisfied {vd iq idx : Nat} (h : s.safe) : SafeOut (execWaitPacketSatisfied vd iq idx s) := by
  unfold execWaitPacketSatisfied
  refine safeOut_next (safe_ite h ?_)
  rcases hu : s.feRead vd iq (s.packetAt vd iq idx).ent.asid ((s.packetAt vd iq idx).at 16 8) 8 with ⟨_ | _ | _, t⟩
  · exact safe_iteElse (safe_of_snd hu (safe_feRead h)) fun k => safe_setPhase k
  · exact safe_of_snd hu (safe_feRead h)
  · exact safe_malformed (safe_of_snd hu (safe_feRead h))
theorem safe_execWaitPacketTimeout {vd iq idx : Nat} (h : s.safe) : SafeOut (execWaitPacketTimeout vd iq idx s) :=
    safeOut_next (safe_ite h (safe_updPacket h))
theorem safe_writeBackVd {vd : Nat} (h : s.safe) : (s.writeBackVd vd).safe := by
  unfold State.writeBackVd
  refine keepsWf_setMem_same _ _ (fun _ => rfl) ?_
  exact safe_foldl (fun _ _ k => keepsWf_flushDie _ _ (keepsWf_writeBack _ _ _ _ k)) h
theorem safe_execBundleRetire {vd iq idx : Nat} (h : s.safe) : SafeOut (execBundleRetire vd iq idx s) :=
    safeOut_next (safe_ite (safe_setPhase (safe_writeBackVd h)) h)
theorem safe_signalPacket {vd : Nat} {p : Packet} {sg : FeRes} (h : s.safe) : (s.signalPacket vd p sg).safe := by
  unfold State.signalPacket
  rcases sg with _ | _ | _
  · exact safe_ite (safe_errRecord (safe_foldl (fun _ _ k => safe_meetLoc k) (keepsWf_flushDie _ _ h)))
        (safe_feWrite (safe_foldl (fun _ _ k => safe_meetLoc k) (keepsWf_flushDie _ _ h)))
  · exact h
  · exact safe_errRecord h
theorem safe_recordPacket {vd iq idx : Nat} {slot : FeRes} (h : s.safe) : (s.recordPacket vd iq idx slot).safe := by
  unfold State.recordPacket
  refine safe_writeStatus (safe_updQueue (safe_updQueue ?_))
  rcases slot with _ | _ | _
  · exact safe_updQueue (safe_feWrite h)
  · exact h
  · exact safe_haltWrite h
theorem safe_signalStep {vd iq idx : Nat} (h : s.safe) : (s.signalStep vd iq idx).safe := by
  unfold State.signalStep
  refine safe_ite h ?_
  dsimp only
  generalize hu : (if (s.packetAt vd iq idx).sig = 0 ∨ (s.packetAt vd iq idx).sig % 8 ≠ 0 then _ else _ : FeRes × State) = u
  have hus : u.2.safe := by subst hu; exact safe_iteSnd h (safe_feRange h)
  rcases u with ⟨_ | _ | _, t⟩
  case waits => exact hus
  all_goals exact safe_iteElse (safe_updQueue (safe_updPacket (safe_iteThen hus fun k => safe_signalPacket k))) fun k => safe_postIrq k
theorem safe_execPacketComplete {vd iq idx : Nat} (h : s.safe) : SafeOut (execPacketComplete vd iq idx s) := by
  unfold execPacketComplete
  refine safeOut_next (safe_ite (safe_signalStep (safe_flushStatus h)) (safe_ite (safe_flushStatus h) ?_))
  have hf := safe_flushStatus (vd := vd) (iq := iq) h
  generalize s.flushStatus vd iq = f at hf ⊢
  dsimp only
  generalize hu : (if (f.packetAt vd iq idx).ent.ringCap.admits (slotVa (f.packetAt vd iq idx).ent idx) 24 1 1 then _ else _ : FeRes × State) = u
  have hus : u.2.safe := by
    subst hu
    exact safe_iteSnd (safe_feRange (safe_iteThen hf fun k => safe_writeBackVd k)) (safe_iteThen hf fun k => safe_writeBackVd k)
  rcases u with ⟨_ | _ | _, t⟩
  case waits => exact hus
  all_goals exact safe_signalStep (safe_recordPacket hus)
theorem safe_binEnd {j : BinJob} {err : Option (Nat × Nat)} (h : s.safe) : (s.binEnd j err).safe := by
  unfold State.binEnd
  refine safe_teamOver ?_
  rcases err with _ | g
  · exact safe_faultDiscard h
  · refine safe_engineError ?_
    split
    · exact safe_guestFault (safe_faultDiscard h)
    · exact safe_faultDiscard h
theorem safe_patchRange {j : BinJob} {asid va n acc : Nat} (h : s.safe) : (s.patchRange j asid va n acc).2.safe := by
  unfold State.patchRange
  dsimp only
  rcases hu : s.jobRange (Origin.engine j.id) j.die j.vd asid va n acc with ⟨(_ | _ | _ | _) | l, t⟩
  · exact safe_of_snd hu (safe_jobRange h)
  · exact safe_iteSnd (safe_jobWaits (safe_of_snd hu (safe_jobRange h))) (safe_of_snd hu (safe_jobRange h))
  · exact safe_of_snd hu (safe_jobRange h)
  · exact safe_of_snd hu (safe_jobRange h)
  · exact safe_of_snd hu (safe_jobRange h)
theorem safe_patchPlaces {j : BinJob} {idx : Nat} {p : Packet} (h : s.safe) : (s.patchPlaces j idx p).2.safe := by
  unfold State.patchPlaces
  refine safe_iteSnd (safe_capFault h) (safe_foldl_snd (fun r w k => ?_) h)
  rcases r with ⟨_ | ls, u⟩
  · exact k
  · dsimp only
    rcases hv : u.patchRange j w.1 w.2.1 4 w.2.2 with ⟨_ | _ | _, t⟩
    · exact safe_of_snd hv (safe_patchRange k)
    · exact safe_of_snd hv (safe_patchRange k)
    · exact safe_of_snd hv (safe_patchRange k)
theorem safe_patchOne {j : BinJob} {idx i : Nat} {p : Packet} {ls : List (List (Loc × Nat))} (h : s.safe) : (s.patchOne j idx i p ls).safe := by
  unfold State.patchOne
  refine safe_ite (safe_malformed (safe_updPacket ?_)) (safe_updPacket ?_)
  · rcases ls[4]? with _ | _
    · exact safe_feWrite (safe_feWrite (safe_feWrite (safe_foldl (fun _ _ k => safe_meetLoc k) h)))
    · exact safe_feWrite (safe_feWrite (safe_feWrite (safe_feWrite (safe_foldl (fun _ _ k => safe_meetLoc k) h))))
  · rcases ls[4]? with _ | _
    · exact safe_feWrite (safe_feWrite (safe_feWrite (safe_foldl (fun _ _ k => safe_meetLoc k) h)))
    · exact safe_feWrite (safe_feWrite (safe_feWrite (safe_feWrite (safe_foldl (fun _ _ k => safe_meetLoc k) h))))
theorem safe_execBinpatchJob {job : Nat} (h : s.safe) : SafeOut (execBinpatchJob job s) := by
  unfold execBinpatchJob
  refine safeOut_next ?_
  rcases (s.binjobs.find? (fun j => j.id == job) : Option BinJob) with _ | j
  · exact h
  · dsimp only
    generalize hr : List.foldl _ _ _ = r
    have hrs : r.2.safe := by
      subst hr
      refine safe_foldl_snd (fun r e k => ?_) h
      rcases r with ⟨_ | acc, u⟩
      · exact k
      · dsimp only
        rcases hx : u.patchPlaces j e.1 e.2 with ⟨_ | _, v⟩
        · exact safe_of_snd hx (safe_patchPlaces k)
        · exact safe_of_snd hx (safe_patchPlaces k)
    rcases r with ⟨(_ | a) | l, t⟩
    · exact hrs
    · exact safe_binEnd hrs
    · exact safe_binEnd (safe_iteElse (keepsWf_bumpFree _ (safe_foldl (fun _ _ k => safe_patchOne k) (keepsWf_flushDie _ _ hrs))) fun k =>
        safe_foldl (fun _ _ k => safe_feWrite k) k)
theorem safe_cancelPacket {vd iq idx : Nat} {p : Packet} (h : s.safe) : (s.cancelPacket vd iq idx p).safe :=
    keepsWf_updVd _ _ _ (safe_update (safe_cancelCopies (safe_update (safe_foldl (fun _ _ k => safe_ite (safe_cancelTeamWork k) (safe_killTeam k))
    h))))
theorem safe_disableQueue {vd iq : Nat} (h : s.safe) : (s.disableQueue vd iq).safe :=
    safe_iteThen (keepsWf_updVd _ _ _ (keepsWf_flushDie _ _ (keepsWf_flushDie _ _
    (safe_faultDiscard (safe_foldl (fun _ _ k => safe_cancelPacket k) h))))) fun k => safe_writeStatus (safe_updQueue k)

/-! ## Freor -/

theorem safe_cmdComplete {st : CmdStatus} (h : s.safe) : (s.cmdComplete st).safe :=
    safe_sendMsix (safe_update (safe_ite (safe_writeHost h) (safe_errRecord h)))

/-! ## Units -/

theorem safe_execAgingIssue {key : Nat} (h : s.safe) : SafeOut (execAgingIssue key s) := by
  unfold execAgingIssue
  refine safeOut_next ?_
  rcases mfind s.groups key with _ | g
  · exact h
  · refine safe_ite h ?_
    rcases g.agingLane fun p => s.atConvergence g (mget ({} : Team) s.teams g.tid).asid (BitVec.toNat p) with _ | n
    · exact h
    · exact safe_setGroup h
theorem safe_execStoreQueueDrain {key : Nat} (h : s.safe) : SafeOut (execStoreQueueDrain key s) := safeOut_next (keepsWf_drainOne _ _ h)
theorem safe_execL2Forward {die : Nat} (h : s.safe) : SafeOut (execL2Forward die s) := safeOut_next (keepsWf_forwardOne _ _ h)
theorem safe_execCisternWriteAck {die : Nat} (h : s.safe) : SafeOut (execCisternWriteAck die s) := safeOut_next (keepsWf_ackOne _ _ h)
theorem safe_execL1Eviction {core sector : Nat} (h : s.safe) : SafeOut (execL1Eviction core sector s) :=
    safeOut_next (keepsWf_setMem_same _ _ (fun _ => rfl) h)
theorem safe_execL2Eviction {die sector : Nat} (h : s.safe) : SafeOut (execL2Eviction die sector s) := by
  unfold execL2Eviction
  refine safeOut_next ?_
  rcases s.mem.l2Find die sector with _ | _
  · exact h
  · exact keepsWf_l2Drop _ _ _ (keepsWf_writeBackCopy _ _ h)
theorem safe_resolveToken {vd : Nat} {tok : Word} {failed : Bool} (h : s.safe) : (s.resolveToken vd tok failed).safe := keepsWf_updVd _ _ _ h
theorem safe_pageIn {vd : Nat} {ps : List PageIn} (h : s.safe) : (s.pageIn vd ps).safe :=
    safe_foldl (fun _ _ k => safe_iteElse (safe_ite (safe_ioWrite k) k) fun j => safe_ioWrite j) h
theorem safe_execResolve {vd : Nat} {x : Resolution} (h : s.safe) : SafeOut (execResolve vd x s) :=
    safeOut_next (safe_resolveToken (safe_ite h (safe_pageIn h)))
theorem safe_setFbcons {vd : Nat} {x : Word} (h : s.safe) : (s.setFbcons vd x).safe := safe_ite h (safe_faultAdmit (keepsWf_updVd _ _ _ h))
theorem safe_execFbconsWrite {vd : Nat} {value : Word} (h : s.safe) : SafeOut (execFbconsWrite vd value s) := safeOut_next (safe_setFbcons h)
theorem safe_setFben {vd : Nat} {x : DWord} (h : s.safe) : (s.setFben vd x).safe := keepsWf_updVd _ _ _ h
theorem safe_execFbenWrite {vd : Nat} {value : DWord} (h : s.safe) : SafeOut (execFbenWrite vd value s) := safeOut_next (safe_setFben h)
theorem safe_setDirty {vd leaf : Nat} (h : s.safe) : (s.setDirty vd leaf).safe := safe_update (keepsWf_cisternWrite _ _ h)
theorem safe_dirtyAdmit {vd : Nat} {xs : List DirtyHeld} (h : s.safe) : (s.dirtyAdmit vd xs).safe := by
  induction xs generalizing s with
  | nil => exact h
  | cons x xs ih => exact safe_ite (ih (keepsWf_updVd _ _ _ (safe_ite h (safe_dirtyAppend (safe_setDirty h))))) h
theorem safe_setDlcons {vd : Nat} {x : Word} (h : s.safe) : (s.setDlcons vd x).safe := safe_dirtyAdmit (keepsWf_updVd _ _ _ h)
theorem safe_execDlconsWrite {vd : Nat} {value : Word} (h : s.safe) : SafeOut (execDlconsWrite vd value s) := safeOut_next (safe_setDlcons h)
theorem safe_markBitmap {bitmap e : Nat} (h : s.safe) : (s.markBitmap bitmap e).safe := safe_foldl (fun _ _ k => safe_writeHost k) h
theorem safe_execFreorDirtyLogDrain {vd : Nat} {x : LogDrain} (h : s.safe) : SafeOut (execFreorDirtyLogDrain vd x s) := by
  unfold execFreorDirtyLogDrain
  refine safeOut_next (safe_ite h (safe_setDlcons (safe_foldl (fun t u k => safe_ite (safe_capFault k) ?_) h)))
  rcases (t.readGpa vd ((fun i => (s.vd vd).fault.dlbase + 8 * ((BitVec.toNat (s.vd vd).fault.dlcons + i) % (s.vd vd).fault.dlSize)) u) 8 : Option Nat) with _ | n
  · exact k
  · exact safe_markBitmap k
theorem safe_setDlen {vd : Nat} {x : DWord} (h : s.safe) : (s.setDlen vd x).safe := keepsWf_updVd _ _ _ h
theorem safe_flushTlb {vd space : Nat} (h : s.safe) : (s.flushTlb vd space).safe := h
theorem safe_execGenerationRaiseComplete {vd space : Nat} (h : s.safe) : SafeOut (execGenerationRaiseComplete vd space s) :=
    safeOut_next (safe_ite h (safe_cmdComplete (keepsWf_updVd _ _ _ (safe_ite (safe_flushTlb h) h))))
theorem safe_expire {key : Nat} {k : WaitKind} (h : s.safe) : (s.expire key k).safe := safe_updGroup h
theorem safe_execSigwaitTimeout {key : Nat} (h : s.safe) : SafeOut (execSigwaitTimeout key s) := safeOut_next (safe_expire h)
theorem safe_execIbwaitTimeout {key : Nat} (h : s.safe) : SafeOut (execIbwaitTimeout key s) := safeOut_next (safe_expire h)
theorem safe_execMbwaitTimeout {key : Nat} (h : s.safe) : SafeOut (execMbwaitTimeout key s) := safeOut_next (safe_expire h)
theorem safe_execClwaitTimeout {key : Nat} (h : s.safe) : SafeOut (execClwaitTimeout key s) := safeOut_next (safe_expire h)
theorem safe_execSleepcExpiry {key : Nat} (h : s.safe) : SafeOut (execSleepcExpiry key s) := safeOut_next (safe_expire h)
theorem safe_execRemoteAccessTimeout {who : Agent} (h : s.safe) : SafeOut (execRemoteAccessTimeout who s) := safeOut_next h
theorem safe_takeIf {key : Nat} {cs : List Nat} (h : s.safe) : (s.takeIf key cs).safe := by
  unfold State.takeIf
  rcases mfind s.groups key with _ | g
  · exact h
  · refine safe_ite h ?_
    rcases g.errs with _ | ⟨e, tail⟩
    · exact h
    · exact safe_ite (safe_takeErr h) h
theorem safe_execEngineErrorTaken {key : Nat} (h : s.safe) : SafeOut (execEngineErrorTaken key s) := safeOut_next (safe_takeIf h)
theorem safe_execDielostTrap {key : Nat} (h : s.safe) : SafeOut (execDielostTrap key s) := safeOut_next (safe_takeIf h)
theorem safe_execHwerrTaken {key : Nat} (h : s.safe) : SafeOut (execHwerrTaken key s) := safeOut_next (safe_takeIf h)
theorem safe_execRemoteNakTrap {key : Nat} (h : s.safe) : SafeOut (execRemoteNakTrap key s) := by
  unfold execRemoteNakTrap
  refine safeOut_next ?_
  rcases mfind s.groups key with _ | _
  · exact h
  · exact safe_ite h (safe_takeNak h)
theorem safe_writeFault {vd reg : Nat} {w : MmioWrite} (h : s.safe) : (s.writeFault vd reg w).safe :=
    safe_ite (safe_setFben h) (safe_ite (safe_ite (safe_setFbcons h) h) (safe_ite (keepsWf_updVd _ _ _ h)
    (safe_ite (safe_ite (safe_resolveToken h) h) (safe_ite (safe_setDlen h) (safe_ite (safe_ite (safe_setDlcons h) h)
    (safe_ite (keepsWf_updVd _ _ _ h) h))))))
theorem safe_writeErrBlock {vd : Option Nat} {reg : Nat} {w : MmioWrite} (h : s.safe) : (s.writeErrBlock vd reg w).safe :=
    safe_ite (safe_updErr h) (safe_ite (safe_ite (safe_updErr h) h) h)
theorem safe_writeCmd {reg : Nat} {w : MmioWrite} (h : s.safe) : (s.writeCmd reg w).safe := safe_ite h (safe_ite h h)
theorem safe_writePage {vd off : Nat} {w : MmioWrite} (h : s.safe) : (s.writePage vd off w).safe :=
    safe_ite h (safe_ite (safe_writeFault h) (safe_ite (safe_writeErrBlock h) h))
theorem safe_execRegisterWrite {w : MmioWrite} (h : s.safe) : SafeOut (execRegisterWrite w s) := by
  unfold execRegisterWrite
  refine safeOut_next (safe_ite h ?_)
  rcases w.bar with _ | _ | _ | _
  · exact safe_ite (safe_writeErrBlock h) (safe_ite (safe_writeCmd h) h)
  · exact safe_ite (safe_writePage h) h
  · exact safe_writePage h
  · exact safe_ite h h

/-! ## Commands -/

theorem safe_vdCommand {e : CmdEntry} {named : List (Nat × Nat)} {good exempt : Bool} {allowed : VD → Bool} {k : Nat → VD → State} (h : s.safe)
    (hk : ∀ x y, (k x y).safe) : (s.vdCommand e named good exempt allowed k).safe := safe_ite (safe_cmdComplete h)
    (safe_ite (safe_cmdComplete h) (safe_ite (safe_cmdComplete h) (hk _ _)))
theorem safe_devCommand {e : CmdEntry} {named : List (Nat × Nat)} {good allowed : Bool} {k : State} (h : s.safe) (hk : k.safe) :
    (s.devCommand e named good allowed k).safe := safe_ite (safe_cmdComplete h) (safe_ite (safe_cmdComplete h) hk)
theorem safe_execCreate {e : CmdEntry} (h : s.safe) : SafeOut (execCreate e s) :=
    safeOut_next (safe_vdCommand h (fun _ _ => safe_cmdComplete (safe_flushTlb h)))
theorem safe_execDestroy {e : CmdEntry} (h : s.safe) : SafeOut (execDestroy e s) :=
    safeOut_next (safe_vdCommand h (fun _ _ => safe_cmdComplete (safe_flushTlb h)))
theorem safe_ackAll (h : s.safe) : (s.ackAll).safe := safe_foldl (fun _ _ k => keepsWf_ackOne _ _ (keepsWf_ackOne _ _ k)) h
theorem safe_killVd {vd : Nat} (h : s.safe) : (s.killVd vd).safe :=
  safe_nakDead (keepsWf_updVd _ _ _ (safe_flushTlb (keepsWf_setMem_same _ _ (fun _ => rfl)
      (safe_writeBackVd (safe_foldl (fun _ _ k => safe_disableQueue k)
    (keepsWf_updVd _ _ _ (safe_update (safe_foldl (fun _ _ k => safe_killTeam k) (safe_ackAll h)))))))))
theorem safe_execKill {e : CmdEntry} (h : s.safe) : SafeOut (execKill e s) := by
  unfold execKill
  refine safeOut_next (safe_vdCommand h (fun _ _ => ?_))
  split
  · exact keepsWf_updVd _ _ _ h
  · exact safe_cmdComplete (safe_reviewSaved (keepsWf_updVd _ _ _ (safe_killVd h)))
theorem safe_execActivate {e : CmdEntry} (h : s.safe) : SafeOut (execActivate e s) :=
    safeOut_next (safe_vdCommand h (fun _ _ => safe_ite (safe_cmdComplete h) (safe_cmdComplete (keepsWf_updVd _ _ _ h))))
theorem safe_execDeactivate {e : CmdEntry} (h : s.safe) : SafeOut (execDeactivate e s) :=
    safeOut_next (safe_vdCommand h (fun _ _ => safe_ite (safe_cmdComplete h) (safe_cmdComplete (keepsWf_updVd _ _ _ (safe_ite (safe_killVd h) h)))))
theorem safe_preemptAll {tids : List Nat} {k : State → State} (h : s.safe) (hk : ∀ t, t.safe → (k t).safe) : (s.preemptAll tids k).safe :=
    safe_ite h (hk _ (safe_foldl (fun _ _ j => safe_preemptTeam j) h))
theorem safe_execPause {e : CmdEntry} (h : s.safe) : SafeOut (execPause e s) :=
    safeOut_next (safe_vdCommand h (fun _ _ => safe_preemptAll (keepsWf_updVd _ _ _ h) (fun _ k => safe_cmdComplete (keepsWf_updVd _ _ _ k))))
theorem safe_execResume {e : CmdEntry} (h : s.safe) : SafeOut (execResume e s) :=
    safeOut_next (safe_vdCommand h (fun _ _ => safe_cmdComplete (keepsWf_updVd _ _ _ h)))
theorem safe_execPartition {e : CmdEntry} (h : s.safe) : SafeOut (execPartition e s) :=
    safeOut_next (safe_vdCommand h (fun _ _ => safe_ite (safe_cmdComplete h)
    (safe_preemptAll h (fun _ k => safe_cmdComplete (safe_reviewSaved (keepsWf_updVd _ _ _ (safe_ite (safe_killVd k) k)))))))
theorem safe_setcfg {e : CmdEntry} {n : Nat} {two good : Bool} {allowed : VD → Bool} {f : VD → VD} (h : s.safe) :
    (s.setcfg e n two good allowed f).safe := safe_vdCommand h (fun _ _ => safe_cmdComplete (keepsWf_updVd _ _ _ h))
theorem safe_execSetcfgWeight {e : CmdEntry} (h : s.safe) : SafeOut (execSetcfgWeight e s) := safeOut_next (safe_setcfg h)
theorem safe_execSetcfgHbmWeir {e : CmdEntry} (h : s.safe) : SafeOut (execSetcfgHbmWeir e s) := safeOut_next (safe_setcfg h)
theorem safe_execSetcfgBrixayWeir {e : CmdEntry} (h : s.safe) : SafeOut (execSetcfgBrixayWeir e s) := safeOut_next (safe_setcfg h)
theorem safe_execSetcfgPeer {e : CmdEntry} (h : s.safe) : SafeOut (execSetcfgPeer e s) := safeOut_next (safe_setcfg h)
theorem safe_execSetcfgGqtbase {e : CmdEntry} (h : s.safe) : SafeOut (execSetcfgGqtbase e s) := safeOut_next (safe_setcfg h)
theorem safe_execSetcfgGroot {e : CmdEntry} (h : s.safe) : SafeOut (execSetcfgGroot e s) := safeOut_next (safe_setcfg h)
theorem safe_execSetcfgHroot {e : CmdEntry} (h : s.safe) : SafeOut (execSetcfgHroot e s) := safeOut_next (safe_setcfg h)
theorem safe_execSetcfgRemap {e : CmdEntry} (h : s.safe) : SafeOut (execSetcfgRemap e s) :=
    safeOut_next (safe_vdCommand h (fun _ _ => safe_cmdComplete (safe_iteElse (keepsWf_updVd _ _ _ h) fun k => safe_postIrq k)))
theorem safe_execSetcfgModes {e : CmdEntry} (h : s.safe) : SafeOut (execSetcfgModes e s) := safeOut_next (safe_setcfg h)
theorem safe_execSetcfgStackPool {e : CmdEntry} (h : s.safe) : SafeOut (execSetcfgStackPool e s) := safeOut_next (safe_setcfg h)
theorem safe_execSetcfgSavePool {e : CmdEntry} (h : s.safe) : SafeOut (execSetcfgSavePool e s) := safeOut_next (safe_setcfg h)
theorem safe_execSetcfgSlice {e : CmdEntry} (h : s.safe) : SafeOut (execSetcfgSlice e s) := safeOut_next (safe_devCommand h (safe_cmdComplete h))
theorem safe_execSetcfgPowerLimit {e : CmdEntry} (h : s.safe) : SafeOut (execSetcfgPowerLimit e s) :=
    safeOut_next (safe_devCommand h (safe_cmdComplete h))
theorem safe_execGen {e : CmdEntry} (h : s.safe) : SafeOut (execGen e s) :=
    safeOut_next (safe_vdCommand h (fun _ _ => safe_ite h (keepsWf_updVd _ _ _ h)))
theorem safe_execQbind {e : CmdEntry} (h : s.safe) : SafeOut (execQbind e s) :=
    safeOut_next (safe_vdCommand h (fun _ _ => safe_ite (safe_cmdComplete h) (safe_cmdComplete (keepsWf_updVd _ _ _ h))))
theorem safe_qctl {e : CmdEntry} {f : Nat → QEnt → State} (h : s.safe) (hf : ∀ x y, (f x y).safe) : (s.qctl e f).safe := by
  unfold State.qctl
  refine safe_vdCommand h (fun _ _ => ?_)
  rcases (s.boundLq (cmdVd e) (cmdArg e 8 2)).bind fun b => s.queueOf (cmdVd e) b.1 with _ | _
  · exact h
  · exact hf _ _
theorem safe_execQctlEnable {e : CmdEntry} (h : s.safe) : SafeOut (execQctlEnable e s) :=
    safeOut_next (safe_qctl h (fun _ _ => safe_cmdComplete (safe_ite (safe_writeStatus (safe_updQueue h)) h)))
theorem safe_execQctlResume {e : CmdEntry} (h : s.safe) : SafeOut (execQctlResume e s) :=
    safeOut_next (safe_qctl h (fun _ _ => safe_cmdComplete (safe_ite (safe_writeStatus (safe_updQueue h)) h)))
theorem safe_execQctlReset {e : CmdEntry} (h : s.safe) : SafeOut (execQctlReset e s) :=
    safeOut_next (safe_vdCommand h (fun _ _ => safe_cmdComplete (safe_disableQueue h)))
theorem safe_execGrant {e : CmdEntry} (h : s.safe) : SafeOut (execGrant e s) := safeOut_next (safe_devCommand h (safe_cmdComplete h))
theorem safe_execComm {e : CmdEntry} (h : s.safe) : SafeOut (execComm e s) :=
    safeOut_next (safe_vdCommand h (fun _ _ => safe_cmdComplete (keepsWf_updVd _ _ _ h)))
theorem safe_execPodnum {e : CmdEntry} (h : s.safe) : SafeOut (execPodnum e s) := safeOut_next (safe_devCommand h (safe_cmdComplete h))

/-! ## Device -/

theorem safe_afterReset (h : s.safe) : (s.afterReset).safe := by
  obtain ⟨-, hhost, hremote, -⟩ := (MemSys.wf_iff s.mem).1 h
  exact (MemSys.wf_iff _).2 ⟨rfl, hhost, hremote, rfl, rfl, rfl⟩
theorem safe_execDeviceReset (h : s.safe) : SafeOut (execDeviceReset s) := safeOut_next (safe_afterReset h)
theorem safe_raiseInc {die : Nat} (h : s.safe) : (s.raiseInc die).safe := safe_update (safe_ite h h)
theorem safe_dropEngines {die : Nat} (h : s.safe) : (s.dropEngines die).safe := by
  unfold State.dropEngines
  refine safe_update (safe_foldl (fun t u k => safe_faultDiscard k) (safe_foldl (fun v w k => ?_) h))
  rcases w.job with _ | _
  · exact safe_faultDiscard k
  · exact safe_packetJob (safe_faultDiscard k)
theorem safe_loseTeam {die tid : Nat} (h : s.safe) : (s.loseTeam die tid).safe := by
  unfold State.loseTeam
  dsimp only
  rcases (s.keysOf tid).head? with _ | _
  · exact safe_dropTeam (safe_dropTeamReqs h)
  · exact safe_endTeam h
theorem safe_clearDie {die : Nat} (h : s.safe) : (s.clearDie die).safe :=
    safe_nakDead (safe_dropEngines (safe_foldl (fun _ _ k => safe_loseTeam k) (safe_update (keepsWf_setMem_same _ _ (fun _ => rfl) (safe_ackAll h)))))
theorem safe_countForwards {die : Nat} (h : s.safe) : (s.countForwards die).safe := safe_foldl (fun _ _ k => safe_countStale k) h
theorem safe_execDieReset {die : Nat} (h : s.safe) : SafeOut (execDieReset die s) :=
    safeOut_next (safe_ite h (safe_raiseInc (safe_clearDie (safe_countForwards h))))
theorem safe_markLost {die : Nat} (h : s.safe) : (s.markLost die).safe := safe_foldl (fun _ _ k => safe_reseal k) h
theorem safe_execDieLoss {die : Nat} (h : s.safe) : SafeOut (execDieLoss die s) :=
    safeOut_next (safe_ite h (safe_reviewSaved (safe_markLost (safe_clearDie (safe_countForwards (safe_errRecord h))))))
theorem safe_execSparePromotion {die : Nat} (h : s.safe) : SafeOut (execSparePromotion die s) :=
    safeOut_next (safe_ite h (safe_reviewSaved (safe_errRecord (safe_update (safe_raiseInc h)))))
theorem safe_execStaleResponse {r : StaleMsg} (h : s.safe) : SafeOut (execStaleResponse r s) := safeOut_next (safe_ite h (safe_countStale h))
theorem safe_storeError {cls : Nat} {vd : Option Nat} {die addr : Nat} (h : s.safe) : (s.storeError cls vd die addr).safe := safe_errRecord h
theorem safe_groupError {cls : Nat} {g : Group} (h : s.safe) : (s.groupError cls g).safe := safe_errRecord h
theorem safe_hwerr {cls : Nat} {shared : Bool} {seq : Word} {key : Nat} (h : s.safe) : (s.hwerr cls shared seq key).safe := by
  unfold State.hwerr
  rcases mfind s.groups key with _ | _
  · exact h
  · exact safe_ite (safe_nakDead (safe_endTeam h)) (safe_reseal (safe_setGroup h))
theorem safe_markSector {sector : Nat} (h : s.safe) : (s.markSector sector).safe := keepsWf_setMem_same _ _ (fun _ => rfl) h
theorem safe_execUncorrectableError {site : ErrSite} (h : s.safe) : SafeOut (execUncorrectableError site s) := by
  unfold execUncorrectableError
  refine safeOut_next ?_
  induction site with dsimp only
  | vreg key reg lanes =>
    rcases s.onCoreGroup key with _ | g
    · exact h
    · exact safe_ite h (safe_groupError (keepsWf_bumpFree _ (safe_setGroup h)))
  | sreg key reg =>
    rcases s.onCoreGroup key with _ | g
    · exact h
    · exact safe_ite h (safe_groupError (keepsWf_bumpFree _ (safe_setGroup h)))
  | preg key reg =>
    rcases s.onCoreGroup key with _ | g
    · exact h
    · exact safe_ite h (safe_groupError (keepsWf_bumpFree _ (safe_setGroup h)))
  | tileRow tid core row =>
    rcases mfind s.teams tid with _ | t
    · exact h
    · exact safe_ite h (safe_storeError (safe_setPb h))
  | scratch tid core sector =>
    rcases mfind s.teams tid with _ | t
    · exact h
    · exact safe_ite h (safe_storeError (keepsWf_setMem_same _ _ (fun _ => rfl) h))
  | laneTags key reg =>
    rcases s.onCoreGroup key with _ | g
    · exact h
    · exact safe_ite h (safe_groupError (safe_setGroup h))
  | sector | cistern => exact safe_ite h (safe_storeError (safe_markSector h))
  | latent => exact safe_ite h (keepsWf_setMem_same _ _ (fun _ => rfl) h)
  | l2Copy die c =>
    rcases s.mem.l2Find die c with _ | x
    · exact h
    · exact safe_storeError (keepsWf_setMem_same _ _ (fun _ => rfl) h)
  | l1Copy core c =>
    rcases (s.mem.l1.find? (fun y => y.core == core && y.sector == c) : Option L1Copy) with _ | x
    · exact h
    · exact safe_storeError (keepsWf_setMem_same _ _ (fun _ => rfl) h)
  | saveImage tid =>
    rcases mfind s.teams tid with _ | t
    · exact h
    · dsimp only
      rcases t.saved with _ | v
      · exact h
      · exact safe_storeError (keepsWf_updTeam _ _ _ h)
  | untagged => exact safe_foldl (fun _ _ k => safe_hwerr k) (safe_errRecord h)
  | corrected => exact safe_updErr h
theorem safe_retireCore {core : Nat} (h : s.safe) : (s.retireCore core).safe :=
    safe_reviewSaved (safe_foldl (fun _ _ k => safe_preemptTeam k) (safe_stopMoves (safe_errRecord h)))
theorem safe_execKaInjection {k : KaResult} (h : s.safe) : SafeOut (execKaInjection k s) :=
    safeOut_next (safe_ite h (safe_iteElse (safe_errRecord h) fun j => safe_retireCore j))
theorem safe_execScrubSector {sector : Nat} {found : ScrubFound} (h : s.safe) : SafeOut (execScrubSector sector found s) := by
  unfold execScrubSector
  refine safeOut_next (safe_ite h ?_)
  rcases if s.mem.damaged.contains sector = true then ScrubFound.uncorrectable else found with _ | _ | _
  · exact h
  · exact safe_updErr (keepsWf_setMem_same _ _ (fun _ => rfl) h)
  · exact safe_storeError (keepsWf_setMem_same _ _ (fun _ => rfl) h)
theorem safe_execScrubWrite {sector : Nat} (h : s.safe) : SafeOut (execScrubWrite sector s) := by
  unfold execScrubWrite
  refine safeOut_next ?_
  rcases mfind s.mem.scrubRead sector with _ | _
  · exact h
  · exact safe_iteElse (keepsWf_setMem_same _ _ (fun _ => rfl) h) fun k => safe_markSector (keepsWf_setMem_same _ _ (fun _ => rfl) k)
theorem safe_flr {vd : Nat} (h : s.safe) : (s.flr vd).safe := safe_iteThen (safe_killVd h) fun k => safe_ite (keepsWf_updVd _ _ _ k) h
theorem safe_execVfFlr {vd : Nat} (h : s.safe) : SafeOut (execVfFlr vd s) := safeOut_next (safe_ite (safe_postIrq h) (safe_reviewSaved (safe_flr h)))
theorem safe_execPfFlr (h : s.safe) : SafeOut (execPfFlr s) := safeOut_next (safe_update (safe_reviewSaved (safe_foldl (fun _ _ k => safe_flr k) h)))
theorem safe_execD3hotEntry (h : s.safe) : SafeOut (execD3hotEntry s) := by
  unfold execD3hotEntry
  refine safeOut_next ?_
  rcases s.d3Paused with _ | _
  · exact safe_foldl (fun _ _ k => safe_preemptTeam k) h
  · exact h
theorem safe_execD0Return (h : s.safe) : SafeOut (execD0Return s) := by
  unfold execD0Return
  refine safeOut_next ?_
  rcases s.d3Paused with _ | _
  · exact h
  · exact h
theorem safe_execThermalThrottle {junction watts : Nat} (h : s.safe) : SafeOut (execThermalThrottle junction watts s) := safeOut_next (safe_ite h h)
theorem safe_execThermalStop {junction : Nat} (h : s.safe) : SafeOut (execThermalStop junction s) := safeOut_next (safe_ite h h)
theorem safe_spdmAnswer {code : Nat} {q : SpdmReq} {given : List Byte} (h : s.safe) : (s.spdmAnswer code q given).safe := keepsWf_bumpFree _ h
theorem safe_spdmError {q : SpdmReq} (h : s.safe) : (s.spdmError q).safe := safe_spdmAnswer h
theorem safe_spdmReady {code : Nat} {q : SpdmReq} {given : List Byte} (h : s.safe) : (s.spdmReady code q given).safe :=
    safe_ite (safe_spdmAnswer h) (safe_spdmError h)
theorem safe_spdmIn {q : SpdmReq} {finished : Bool} {k : State} (h : s.safe) (hk : k.safe) : (s.spdmIn q finished k).safe :=
    safe_ite hk (safe_spdmError h)
theorem safe_execGetVersion {q : SpdmReq} (h : s.safe) : SafeOut (execGetVersion q s) := safeOut_next (safe_spdmAnswer h)
theorem safe_execGetCapabilities {q : SpdmReq} (h : s.safe) : SafeOut (execGetCapabilities q s) :=
    safeOut_next (safe_ite (safe_spdmAnswer h) (safe_spdmError h))
theorem safe_execNegotiateAlgorithms {q : SpdmReq} (h : s.safe) : SafeOut (execNegotiateAlgorithms q s) :=
    safeOut_next (safe_ite (safe_spdmAnswer h) (safe_spdmError h))
theorem safe_execGetDigests {q : SpdmReq} (h : s.safe) : SafeOut (execGetDigests q s) := safeOut_next (safe_spdmReady h)
theorem safe_execGetCertificate {q : SpdmReq} (h : s.safe) : SafeOut (execGetCertificate q s) :=
    safeOut_next (safe_ite (safe_spdmReady h) (safe_spdmError h))
theorem safe_execChallenge {q : SpdmReq} (h : s.safe) : SafeOut (execChallenge q s) := safeOut_next (safe_ite (safe_spdmReady h) (safe_spdmError h))
theorem safe_execGetMeasurements {q : SpdmReq} (h : s.safe) : SafeOut (execGetMeasurements q s) := safeOut_next (safe_spdmReady h)
theorem safe_execKeyExchange {q : SpdmReq} (h : s.safe) : SafeOut (execKeyExchange q s) :=
    safeOut_next (safe_ite (safe_spdmAnswer h) (safe_spdmError h))
theorem safe_execFinish {q : SpdmReq} (h : s.safe) : SafeOut (execFinish q s) := safeOut_next (safe_spdmIn h (safe_spdmAnswer h))
theorem safe_execKeyUpdate {q : SpdmReq} (h : s.safe) : SafeOut (execKeyUpdate q s) := safeOut_next (safe_spdmIn h (safe_spdmAnswer h))
theorem safe_execEndSession {q : SpdmReq} (h : s.safe) : SafeOut (execEndSession q s) := safeOut_next (safe_spdmIn h (safe_spdmAnswer h))
theorem safe_execIdeKmKeyProgramming {session stream : Nat} {key : BitVec 256} (h : s.safe) : SafeOut (execIdeKmKeyProgramming session stream key s)
    := safeOut_next (safe_ite h h)
theorem safe_execLockInterfaceRequest {vd : Nat} (h : s.safe) : SafeOut (execLockInterfaceRequest vd s) :=
    safeOut_next (safe_ite (keepsWf_updVd _ _ _ h) h)
theorem safe_execStartInterfaceRequest {vd : Nat} (h : s.safe) : SafeOut (execStartInterfaceRequest vd s) :=
    safeOut_next (safe_ite (keepsWf_updVd _ _ _ h) h)
theorem safe_execStopInterfaceRequest {vd : Nat} (h : s.safe) : SafeOut (execStopInterfaceRequest vd s) :=
    safeOut_next (safe_ite (safe_reviewSaved (keepsWf_updVd _ _ _ (safe_flr h))) h)
theorem safe_execInterfaceReportRequest {vd : Nat} (h : s.safe) : SafeOut (execInterfaceReportRequest vd s) := safeOut_next (safe_ite h h)
theorem safe_execFreorImageLoad {img : FreorImage} (h : s.safe) : SafeOut (execFreorImageLoad img s) := safeOut_next (safe_ite h h)
theorem safe_execRetirementListClear {x : RetireEntry} (h : s.safe) : SafeOut (execRetirementListClear x s) := safeOut_next h
theorem safe_execFreorCollectiveSetup {vd cnum : Nat} {cr : CommRec} (h : s.safe) : SafeOut (execFreorCollectiveSetup vd cnum cr s) :=
    safeOut_next (safe_ite (keepsWf_updVd _ _ _ h) h)
theorem safe_execMsixVectorUnmask {func vec : Nat} (h : s.safe) : SafeOut (execMsixVectorUnmask func vec s) :=
    safeOut_next (safe_ite h (safe_iteElse (safe_setVector h) fun k => safe_sendMsix k))

end Sys2Proof.Machine.State
end

section
/-! PROOF. The lane, tile, matrix and uniform instructions, and with them every step, keep the stores canonical. -/
namespace Sys2Proof.Machine.State
variable {s : State}

/-! ## Lane -/

theorem safe_predOp {o : Ops} {f : Word → Word → Word} (h : s.safe) : (s.predOp o f).safe := safe_putP h
theorem safe_execPand {o : Ops} (h : s.safe) : SafeOut (execPand o s) := safeOut_next (safe_predOp h)
theorem safe_execPor {o : Ops} (h : s.safe) : SafeOut (execPor o s) := safeOut_next (safe_predOp h)
theorem safe_execPxor {o : Ops} (h : s.safe) : SafeOut (execPxor o s) := safeOut_next (safe_predOp h)
theorem safe_execPnot {o : Ops} (h : s.safe) : SafeOut (execPnot o s) := safeOut_next (safe_putP h)
theorem safe_execPmovs {o : Ops} (h : s.safe) : SafeOut (execPmovs o s) := safeOut_next (safe_putS h)
theorem safe_execPmovp {o : Ops} (h : s.safe) : SafeOut (execPmovp o s) := safeOut_next (safe_putP h)
theorem safe_execVote {vm : VoteMode} {o : Ops} (h : s.safe) : SafeOut (execVote vm o s) := by
  unfold execVote
  refine safeOut_next ?_
  rcases vm with _ | _ | _ | _
  case ballot => exact safe_putS h
  all_goals exact safe_putP h
theorem safe_putLanes {o : Ops} {is64 uniform : Bool} {val : Nat → Nat} {dp fp : Word} (h : s.safe) : (s.putLanes o is64 uniform val dp fp).safe :=
    safe_putV h
theorem safe_execLxch {ty : Ty} {xm : XchMode} {wid : BitVec 3} {wrap : Bool} {o : Ops} (h : s.safe) : SafeOut (execLxch ty xm wid wrap o s) :=
    safeOut_next (safe_putLanes h)
theorem safe_execRdlane {ty : Ty} {o : Ops} (h : s.safe) : SafeOut (execRdlane ty o s) := safeOut_next (safe_putS h)
theorem safe_execWrlane {ty : Ty} {o : Ops} (h : s.safe) : SafeOut (execWrlane ty o s) := safeOut_next (safe_ite (safe_finish h) (safe_putLanes h))
theorem safe_execMtch {ty : Ty} {all : Bool} {o : Ops} (h : s.safe) : SafeOut (execMtch ty all o s) :=
    safeOut_next (safe_ite (safe_putP h) (safe_putLanes h))

/-! ## Tile -/

theorem safe_spoilRows {tid tcore first n lo hi : Nat} (h : s.safe) : (s.spoilRows tid tcore first n lo hi).safe :=
    keepsWf_bumpFree _ (safe_foldl (fun _ _ k => keepsWf_writeTile _ _ _ _ k) h)
theorem safe_readRows {tid tcore key : Nat} {rows : List Nat} (h : s.safe) : (s.readRows tid tcore key rows).safe := h
theorem safe_execTld {_ty : Ty} {cnt1 : BitVec 3} {col : Bool} {o : Ops} (h : s.safe) : SafeOut (execTld _ty cnt1 col o s) := by
  unfold execTld
  refine safeOut_next (safe_ifActive h (fun t k => ?_))
  dsimp only
  rcases (t.grp.refusedReg t.iss.act false ((destRegs o (cnt1.toNat + 1)).map (fun r => { reg := r, val := Shape.general [], dp := 0, fp := 0 })) : Option Nat) with _ | n
  · refine safe_consume k (fun u j => ?_)
    rcases u.tileRefused (BitVec.toNat (s.uniA o).val) (cnt1.toNat + 1) col with _ | c
    · exact safe_finish (keepsWf_bumpFree _ (safe_updGrp (safe_readRows j)))
    · exact safe_trap j
  · exact safe_trap k
theorem safe_execTst {_ty : Ty} {cnt1 : BitVec 3} {col : Bool} {o : Ops} (h : s.safe) : SafeOut (execTst _ty cnt1 col o s) := by
  unfold execTst
  refine safeOut_next (safe_ifActive h (fun t k => safe_consume k (fun u j => ?_)))
  rcases u.tileRefused (BitVec.toNat (s.uniA o).val) (cnt1.toNat + 1) col with _ | c
  · exact safe_consume j (fun _ i => safe_finish (safe_foldl (fun _ _ h1 => safe_spoilRows h1)
        (keepsWf_markDirty _ _ _ _ (safe_iteElse (safe_foldl (fun _ _ h1 => safe_iteElse (keepsWf_writeTile _ _ _ _ h1) fun h2 => safe_setPb h2) i)
        fun h1 => safe_setPb h1))))
  · exact safe_trap j
theorem safe_onObject {o : Ops} {acc : Nat} {others : List Consumed} {k : State → Nat → State} (h : s.safe) (hk : ∀ t y, t.safe → (k t y).safe) :
    (s.onObject o acc others k).safe := by
  unfold State.onObject
  refine safe_ifActive h (fun u j => safe_consume j (fun v i => safe_consume i (fun w h1 => ?_)))
  dsimp only
  rcases (w.checkEas { n := 16, acc := acc, sc := Scope.core, acq := false, rel := false, win := Accepts.scratchOnly } [(lowLane s.iss.act, BitVec.toNat (s.uniA o).val)] : Option Pending) with _ | c
  · exact hk _ _ (keepsWf_drain _ _ h1)
  · exact safe_trap h1
theorem safe_acquireObject {at' : Nat} {x : MbObj} (h : s.safe) : (s.acquireObject at' x).safe := safe_acquire (safe_acquireFrom h)
theorem safe_execMbinit {sc : Scope} {o : Ops} (h : s.safe) : SafeOut (execMbinit sc o s) :=
    safeOut_next (safe_onObject h (fun _ _ k => safe_ite (safe_trap k) (safe_ite (safe_trap k)
    (safe_finish (keepsWf_mbWrite _ _ _ (safe_uncarry k))))))
theorem safe_execMbexp {arv : Bool} {o : Ops} (h : s.safe) : SafeOut (execMbexp arv o s) :=
    safeOut_next (safe_onObject h (fun _ _ k => safe_ite (safe_trap k) (safe_ite (safe_trap k)
    (safe_finish (keepsWf_mbWrite _ _ _ (safe_ite (safe_releaseTo (safe_release k)) k))))))
theorem safe_execMbarv {o : Ops} (h : s.safe) : SafeOut (execMbarv o s) :=
    safeOut_next (safe_onObject h (fun _ _ k => safe_ite (safe_trap k) (safe_ite (safe_trap k)
    (safe_putS (keepsWf_mbWrite _ _ _ (safe_releaseTo (safe_release k)))))))
theorem safe_execMbwait {o : Ops} (h : s.safe) : SafeOut (execMbwait o s) :=
    safeOut_next (safe_onObject h (fun _ _ k => safe_ite (safe_trap k) (safe_ite (safe_putS (safe_acquireObject k))
    (safe_ite (safe_putS k) (safe_waitFor k)))))
theorem safe_execMbtest {o : Ops} (h : s.safe) : SafeOut (execMbtest o s) :=
    safeOut_next (safe_onObject h (fun _ _ k => safe_ite (safe_trap k) (safe_ite (safe_putS (safe_acquireObject k)) (safe_putS k))))

/-! ## Matrix -/

theorem safe_queueStep {m : MStep} (h : s.safe) : (s.queueStep m).safe :=
    keepsWf_updTeam _ _ _ (safe_update (safe_foldl (fun _ _ k => safe_updGroup k) h))
theorem safe_mma {quant : Bool} {opc : Nat} {ty : Ty} {mcw : Nat} {o : MatOps} (h : s.safe) : (s.mma quant opc ty mcw o).safe := by
  unfold State.mma
  refine safe_ite (safe_hold h) (safe_consumeAny h (fun t k => ?_))
  split
  · exact safe_fail k
  · exact safe_finish (safe_queueStep k)
theorem safe_execMma {ty : Ty} {af bf : MFmt} {asgn bsgn asrc sq : Bool} {grp : BitVec 2} {aq bq : Bool} {o : MatOps} (h : s.safe) : SafeOut
    (execMma ty af bf asgn bsgn asrc sq grp aq bq o s) := safeOut_next (safe_mma h)
theorem safe_execMmaq {ty : Ty} {af bf : MFmt} {asgn bsgn asrc sq : Bool} {grp : BitVec 2} {aq bq : Bool} {o : MatOps} (h : s.safe) : SafeOut
    (execMmaq ty af bf asgn bsgn asrc sq grp aq bq o s) := safeOut_next (safe_mma h)
theorem safe_execMzero {o : Ops} (h : s.safe) : SafeOut (execMzero o s) :=
    safeOut_next (safe_ite (safe_hold h) (safe_consumeAny h (fun _ k => safe_ite (safe_fail k) (safe_finish (keepsWf_updTeam _ _ _ k)))))
theorem safe_spoilHits {tid : Nat} {m : MStep} (h : s.safe) : (s.spoilHits tid m).safe := safe_foldl (fun _ _ k => safe_ite (safe_spoilRows k) k) h
theorem safe_releaseWindows {tid : Nat} (h : s.safe) : (s.releaseWindows tid).safe :=
    keepsWf_updTeam _ _ _ (safe_foldl (fun _ _ k => safe_updGroup k) (safe_foldl (fun _ _ k => safe_spoilHits k) h))
theorem safe_execMwait {_o : Ops} (h : s.safe) : SafeOut (execMwait _o s) :=
    safeOut_next (safe_ite (safe_hold h) (safe_markRestart (safe_finish (safe_releaseWindows h))))
theorem safe_execMfence {_o : Ops} (h : s.safe) : SafeOut (execMfence _o s) := safeOut_next (safe_finish h)
theorem safe_execMcfg {quar : Bool} {astride : BitVec 16} (h : s.safe) : SafeOut (execMcfg quar astride s) :=
    safeOut_next (safe_markRestart (safe_finish (keepsWf_updTeam _ _ _ h)))
theorem safe_execMstep {o : Ops} (h : s.safe) : SafeOut (execMstep o s) :=
    safeOut_next (safe_consumeAny h (fun _ k => safe_ite (safe_fail k) (safe_ite (safe_hold k) (safe_finish (safe_updGrp k)))))
theorem safe_execMstat {o : Ops} (h : s.safe) : SafeOut (execMstat o s) := safeOut_next (safe_finish (safe_updGrp h))
theorem safe_writeStep {tid : Nat} {m : MStep} {c : CoreStep} (h : s.safe) : (s.writeStep tid m c).safe :=
    keepsWf_writeSide _ _ _ _ (safe_foldl (fun _ _ k => safe_iteElse (keepsWf_writeTile _ _ _ _ k) fun j => safe_setPb j) h)
theorem safe_zeroCore {tid tc : Nat} {m : MStep} (h : s.safe) : (s.zeroCore tid tc m).safe :=
    keepsWf_writeSide _ _ _ _ (safe_foldl (fun _ _ k => safe_setPb (keepsWf_writeTile _ _ _ _ k)) h)
theorem safe_corrected {tid : Nat} {cs : List CoreStep} (h : s.safe) : (s.corrected tid cs).safe := safe_ite h (safe_updErr (keepsWf_updTeam _ _ _ h))
theorem safe_stepRecord {tid : Nat} {m : MStep} {opc tc : Nat} (h : s.safe) : (s.stepRecord tid m opc tc).safe := safe_errRecord h
theorem safe_drainStep {tid : Nat} {m : MStep} {errs : List ArrayErr} (h : s.safe) : (s.drainStep tid m errs).safe := by
  unfold State.drainStep
  dsimp only
  split
  · exact safe_streamError h
  · split
    · exact safe_streamError h
    · split
      · exact safe_streamError (safe_foldl (fun _ _ k => safe_stepRecord k) (keepsWf_bumpFree _ h))
      · exact keepsWf_updTeam _ _ _ (safe_corrected (keepsWf_bumpFree _ (safe_foldl (fun _ _ k => safe_writeStep k) h)))
theorem safe_execMatrixStepDrain {team : Nat} {errs : List ArrayErr} (h : s.safe) : SafeOut (execMatrixStepDrain team errs s) := by
  unfold execMatrixStepDrain
  refine safeOut_next ?_
  rcases (mget ({} : Team) s.teams team).queue with _ | _
  · exact h
  · exact safe_checkQuiet (safe_ite (safe_iteElse (safe_foldl (fun _ _ k => safe_zeroCore k) (keepsWf_updTeam _ _ _ h)) fun k => keepsWf_updTeam _ _
        _ k) (safe_drainStep (keepsWf_updTeam _ _ _ h)))

/-! ## Uniform -/

theorem safe_uniOp1 {ty : Ty} {o : Ops} {f : SReg → ℤ} (h : s.safe) : (s.uniOp1 ty o f).safe := safe_putS h
theorem safe_uniOp2 {ty : Ty} {o : Ops} {f : SReg → SReg → ℤ} (h : s.safe) : (s.uniOp2 ty o f).safe := safe_putS h
theorem safe_uniOp3 {ty : Ty} {o : Ops} {f : SReg → SReg → SReg → ℤ} (h : s.safe) : (s.uniOp3 ty o f).safe := safe_putS h
theorem safe_execSadd {ty : Ty} {o : Ops} (h : s.safe) : SafeOut (execSadd ty o s) := safeOut_next (safe_uniOp2 h)
theorem safe_execSsub {ty : Ty} {o : Ops} (h : s.safe) : SafeOut (execSsub ty o s) := safeOut_next (safe_uniOp2 h)
theorem safe_execSmul {ty : Ty} {o : Ops} (h : s.safe) : SafeOut (execSmul ty o s) := safeOut_next (safe_uniOp2 h)
theorem safe_execSmulh {ty : Ty} {o : Ops} (h : s.safe) : SafeOut (execSmulh ty o s) := safeOut_next (safe_uniOp2 h)
theorem safe_execSmad {ty : Ty} {o : Ops} (h : s.safe) : SafeOut (execSmad ty o s) := safeOut_next (safe_uniOp3 h)
theorem safe_execSand {ty : Ty} {o : Ops} (h : s.safe) : SafeOut (execSand ty o s) := safeOut_next (safe_uniOp2 h)
theorem safe_execSor {ty : Ty} {o : Ops} (h : s.safe) : SafeOut (execSor ty o s) := safeOut_next (safe_uniOp2 h)
theorem safe_execSxor {ty : Ty} {o : Ops} (h : s.safe) : SafeOut (execSxor ty o s) := safeOut_next (safe_uniOp2 h)
theorem safe_execSshl {ty : Ty} {o : Ops} (h : s.safe) : SafeOut (execSshl ty o s) := safeOut_next (safe_uniOp2 h)
theorem safe_execSshr {ty : Ty} {o : Ops} (h : s.safe) : SafeOut (execSshr ty o s) := safeOut_next (safe_uniOp2 h)
theorem safe_execSsra {ty : Ty} {o : Ops} (h : s.safe) : SafeOut (execSsra ty o s) := safeOut_next (safe_uniOp2 h)
theorem safe_execSmin {ty : Ty} {o : Ops} (h : s.safe) : SafeOut (execSmin ty o s) := safeOut_next (safe_uniOp2 h)
theorem safe_execSmax {ty : Ty} {o : Ops} (h : s.safe) : SafeOut (execSmax ty o s) := safeOut_next (safe_uniOp2 h)
theorem safe_execScmp {ty : Ty} {cm : Cmp} {o : Ops} (h : s.safe) : SafeOut (execScmp ty cm o s) := safeOut_next (safe_uniOp2 h)
theorem safe_execSsel {ty : Ty} {o : Ops} (h : s.safe) : SafeOut (execSsel ty o s) := safeOut_next (safe_uniOp3 h)
theorem safe_execSpopc {ty : Ty} {o : Ops} (h : s.safe) : SafeOut (execSpopc ty o s) := safeOut_next (safe_uniOp1 h)
theorem safe_execSclz {ty : Ty} {o : Ops} (h : s.safe) : SafeOut (execSclz ty o s) := safeOut_next (safe_uniOp1 h)
theorem safe_execSmov {o : Ops} (h : s.safe) : SafeOut (execSmov o s) := safeOut_next (safe_putS h)
theorem safe_execSli {o : Ops} (h : s.safe) : SafeOut (execSli o s) := safeOut_next (safe_putS h)
theorem safe_execSlih {o : Ops} (h : s.safe) : SafeOut (execSlih o s) := safeOut_next (safe_putS h)
theorem safe_execSrd {idx : BitVec 6} {o : Ops} (h : s.safe) : SafeOut (execSrd idx o s) := by
  unfold execSrd
  refine safeOut_next (safe_ite (safe_trap h) ?_)
  rcases o.d with _ | _ | _ | _ | _
  · exact safe_ite (safe_putV h) (safe_ite (safe_putV h) (safe_putV h))
  all_goals exact safe_putS h
theorem safe_execSwr {idx : BitVec 6} {o : Ops} (h : s.safe) : SafeOut (execSwr idx o s) :=
    safeOut_next (safe_ifActive h (fun _ k => safe_ite (safe_trap k) (safe_finish (safe_updGrp k))))
theorem safe_execCsrrd {idx : BitVec 12} {o : Ops} (h : s.safe) : SafeOut (execCsrrd idx o s) :=
    safeOut_next (safe_ifActive h (fun _ k => safe_ite (safe_trap k) (safe_putS k)))
theorem safe_execCsrwr {idx : BitVec 12} {o : Ops} (h : s.safe) : SafeOut (execCsrwr idx o s) :=
    safeOut_next (safe_ifActive h (fun _ k => safe_ite (safe_trap k) (safe_ite (safe_trap k) (safe_ite (safe_trap k) (safe_finish (safe_updGrp k))))))

/-! ## VInt -/

theorem safe_vecOp {o : Ops} {cls : ShapeClass} {d64 : Bool} {xs : List WSrc} {f : List Nat → Nat} (h : s.safe) : (s.vecOp o cls d64 xs f).safe :=
    safe_putV h
theorem safe_int1 {ty : Ty} {o : Ops} {cls : ShapeClass} {f : ℤ → ℤ} (h : s.safe) : (s.int1 ty o cls f).safe := safe_vecOp h
theorem safe_int2 {ty : Ty} {o : Ops} {cls : ShapeClass} {f : ℤ → ℤ → ℤ} (h : s.safe) : (s.int2 ty o cls f).safe := safe_vecOp h
theorem safe_int3 {ty : Ty} {o : Ops} {cls : ShapeClass} {f : ℤ → ℤ → ℤ → ℤ} (h : s.safe) : (s.int3 ty o cls f).safe := safe_vecOp h
theorem safe_shift {ty : Ty} {o : Ops} {cls : ShapeClass} {f : ℤ → Nat → ℤ} (h : s.safe) : (s.shift ty o cls f).safe := safe_vecOp h
theorem safe_execIadd {ty : Ty} {sat : Bool} {o : Ops} (h : s.safe) : SafeOut (execIadd ty sat o s) := safeOut_next (safe_int2 h)
theorem safe_execIadd3 {ty : Ty} {o : Ops} (h : s.safe) : SafeOut (execIadd3 ty o s) := safeOut_next (safe_int3 h)
theorem safe_execIsub {ty : Ty} {sat : Bool} {o : Ops} (h : s.safe) : SafeOut (execIsub ty sat o s) := safeOut_next (safe_int2 h)
theorem safe_execImul {ty : Ty} {o : Ops} (h : s.safe) : SafeOut (execImul ty o s) := safeOut_next (safe_int2 h)
theorem safe_execImulh {ty : Ty} {o : Ops} (h : s.safe) : SafeOut (execImulh ty o s) := safeOut_next (safe_int2 h)
theorem safe_execImad {ty : Ty} {o : Ops} (h : s.safe) : SafeOut (execImad ty o s) := safeOut_next (safe_int3 h)
theorem safe_execImadw {ty : Ty} {o : Ops} (h : s.safe) : SafeOut (execImadw ty o s) := safeOut_next (safe_vecOp h)
theorem safe_execIabs {ty : Ty} {sat : Bool} {o : Ops} (h : s.safe) : SafeOut (execIabs ty sat o s) := safeOut_next (safe_int1 h)
theorem safe_execImin {ty : Ty} {o : Ops} (h : s.safe) : SafeOut (execImin ty o s) := safeOut_next (safe_int2 h)
theorem safe_execImax {ty : Ty} {o : Ops} (h : s.safe) : SafeOut (execImax ty o s) := safeOut_next (safe_int2 h)
theorem safe_execIdot4 {_ty : Ty} {asg bsg sat : Bool} {o : Ops} (h : s.safe) : SafeOut (execIdot4 _ty asg bsg sat o s) := safeOut_next (safe_vecOp h)
theorem safe_execAnd {ty : Ty} {o : Ops} (h : s.safe) : SafeOut (execAnd ty o s) := safeOut_next (safe_int2 h)
theorem safe_execOr {ty : Ty} {o : Ops} (h : s.safe) : SafeOut (execOr ty o s) := safeOut_next (safe_int2 h)
theorem safe_execXor {ty : Ty} {o : Ops} (h : s.safe) : SafeOut (execXor ty o s) := safeOut_next (safe_int2 h)
theorem safe_execNot {ty : Ty} {o : Ops} (h : s.safe) : SafeOut (execNot ty o s) := safeOut_next (safe_int1 h)
theorem safe_execShl {ty : Ty} {o : Ops} (h : s.safe) : SafeOut (execShl ty o s) := safeOut_next (safe_shift h)
theorem safe_execShr {ty : Ty} {o : Ops} (h : s.safe) : SafeOut (execShr ty o s) := safeOut_next (safe_shift h)
theorem safe_execSra {ty : Ty} {o : Ops} (h : s.safe) : SafeOut (execSra ty o s) := safeOut_next (safe_shift h)
theorem safe_execShf {_ty : Ty} {right wrap : Bool} {o : Ops} (h : s.safe) : SafeOut (execShf _ty right wrap o s) := safeOut_next (safe_vecOp h)
theorem safe_execPopc {ty : Ty} {o : Ops} (h : s.safe) : SafeOut (execPopc ty o s) := safeOut_next (safe_vecOp h)
theorem safe_execClz {ty : Ty} {o : Ops} (h : s.safe) : SafeOut (execClz ty o s) := safeOut_next (safe_vecOp h)
theorem safe_execBrev {ty : Ty} {o : Ops} (h : s.safe) : SafeOut (execBrev ty o s) := safeOut_next (safe_vecOp h)
theorem safe_execBfe {ty : Ty} {o : Ops} (h : s.safe) : SafeOut (execBfe ty o s) := safeOut_next (safe_vecOp h)
theorem safe_execBfi {ty : Ty} {o : Ops} (h : s.safe) : SafeOut (execBfi ty o s) := safeOut_next (safe_vecOp h)
theorem safe_execPrmt {_ty : Ty} {o : Ops} (h : s.safe) : SafeOut (execPrmt _ty o s) := safeOut_next (safe_vecOp h)
theorem safe_execLea {ty : Ty} {k : BitVec 6} {sx : Bool} {o : Ops} (h : s.safe) : SafeOut (execLea ty k sx o s) := safeOut_next (safe_vecOp h)
theorem safe_execIcmp {ty : Ty} {cm : Cmp} {o : Ops} (h : s.safe) : SafeOut (execIcmp ty cm o s) := safeOut_next (safe_putP h)
theorem safe_execSel {ty : Ty} {o : Ops} (h : s.safe) : SafeOut (execSel ty o s) := safeOut_next (safe_putV h)
theorem safe_execMov {ty : Ty} {o : Ops} (h : s.safe) : SafeOut (execMov ty o s) := safeOut_next (safe_vecOp h)
theorem safe_execMovi {ty : Ty} {o : Ops} (h : s.safe) : SafeOut (execMovi ty o s) := safeOut_next (safe_putV h)
theorem safe_execMova {_ty : Ty} {o : Ops} (h : s.safe) : SafeOut (execMova _ty o s) := safeOut_next (safe_putV h)

/-! ## VFloat -/

theorem safe_fp1 {ty : Ty} {m : Rnd} {o : Ops} {f : Fp.FVal → Fp.FVal} (h : s.safe) : (s.fp1 ty m o f).safe := safe_vecOp h
theorem safe_fp2 {ty : Ty} {m : Rnd} {o : Ops} {f : Fp.FVal → Fp.FVal → Fp.FVal} (h : s.safe) : (s.fp2 ty m o f).safe := safe_vecOp h
theorem safe_execFadd {ty : Ty} {m : Rnd} {o : Ops} (h : s.safe) : SafeOut (execFadd ty m o s) := safeOut_next (safe_fp2 h)
theorem safe_execFsub {ty : Ty} {m : Rnd} {o : Ops} (h : s.safe) : SafeOut (execFsub ty m o s) := safeOut_next (safe_fp2 h)
theorem safe_execFmul {ty : Ty} {m : Rnd} {o : Ops} (h : s.safe) : SafeOut (execFmul ty m o s) := safeOut_next (safe_fp2 h)
theorem safe_execFma {ty : Ty} {m : Rnd} {o : Ops} (h : s.safe) : SafeOut (execFma ty m o s) := safeOut_next (safe_vecOp h)
theorem safe_execFmin {ty : Ty} {o : Ops} (h : s.safe) : SafeOut (execFmin ty o s) := safeOut_next (safe_vecOp h)
theorem safe_execFmax {ty : Ty} {o : Ops} (h : s.safe) : SafeOut (execFmax ty o s) := safeOut_next (safe_vecOp h)
theorem safe_execFcmp {ty : Ty} {cm : FCmp} {o : Ops} (h : s.safe) : SafeOut (execFcmp ty cm o s) := safeOut_next (safe_putP h)
theorem safe_execFclass {ty : Ty} {o : Ops} (h : s.safe) : SafeOut (execFclass ty o s) := safeOut_next (safe_vecOp h)
theorem safe_execFrnd {ty : Ty} {m : Rnd} {o : Ops} (h : s.safe) : SafeOut (execFrnd ty m o s) := safeOut_next (safe_fp1 h)
theorem safe_execFrcp {ty : Ty} {m : Rnd} {o : Ops} (h : s.safe) : SafeOut (execFrcp ty m o s) := safeOut_next (safe_fp1 h)
theorem safe_execFrsq {ty : Ty} {m : Rnd} {o : Ops} (h : s.safe) : SafeOut (execFrsq ty m o s) := safeOut_next (safe_fp1 h)
theorem safe_execFsqrt {ty : Ty} {m : Rnd} {o : Ops} (h : s.safe) : SafeOut (execFsqrt ty m o s) := safeOut_next (safe_fp1 h)
theorem safe_execFdiv {ty : Ty} {m : Rnd} {o : Ops} (h : s.safe) : SafeOut (execFdiv ty m o s) := safeOut_next (safe_fp2 h)
theorem safe_execFexp2 {ty : Ty} {o : Ops} (h : s.safe) : SafeOut (execFexp2 ty o s) := safeOut_next (safe_fp1 h)
theorem safe_execFlog2 {ty : Ty} {o : Ops} (h : s.safe) : SafeOut (execFlog2 ty o s) := safeOut_next (safe_fp1 h)
theorem safe_execFsin {ty : Ty} {o : Ops} (h : s.safe) : SafeOut (execFsin ty o s) := safeOut_next (safe_fp1 h)
theorem safe_execFcos {ty : Ty} {o : Ops} (h : s.safe) : SafeOut (execFcos ty o s) := safeOut_next (safe_fp1 h)
theorem safe_execFtanh {ty : Ty} {o : Ops} (h : s.safe) : SafeOut (execFtanh ty o s) := safeOut_next (safe_fp1 h)
theorem safe_execFscale {ty : Ty} {m : Rnd} {o : Ops} (h : s.safe) : SafeOut (execFscale ty m o s) := safeOut_next (safe_vecOp h)
theorem safe_execFfrac {ty : Ty} {o : Ops} (h : s.safe) : SafeOut (execFfrac ty o s) := safeOut_next (safe_fp1 h)
theorem safe_pk2 {ty : Ty} {m : Rnd} {o : Ops} {f : Fp.FVal → Fp.FVal → Fp.FVal} (h : s.safe) : (s.pk2 ty m o f).safe := safe_vecOp h
theorem safe_execPkadd {ty : Ty} {m : Rnd} {o : Ops} (h : s.safe) : SafeOut (execPkadd ty m o s) := safeOut_next (safe_pk2 h)
theorem safe_execPkmul {ty : Ty} {m : Rnd} {o : Ops} (h : s.safe) : SafeOut (execPkmul ty m o s) := safeOut_next (safe_pk2 h)
theorem safe_execPkfma {ty : Ty} {m : Rnd} {o : Ops} (h : s.safe) : SafeOut (execPkfma ty m o s) := safeOut_next (safe_vecOp h)
theorem safe_execCvt {ty : Ty} {m : Rnd} {sty : Ty} {sat : Bool} {o : Ops} (h : s.safe) : SafeOut (execCvt ty m sty sat o s) :=
    safeOut_next (safe_vecOp h)
theorem safe_execCvtUnit {_m : Rnd} {o : Ops} (h : s.safe) : SafeOut (execCvtUnit _m o s) := safeOut_next (safe_vecOp h)
theorem safe_stopAfter {j : Nat} {mid : List Slot} (h : s.safe) : (s.stopAfter j mid).safe := safe_hold h
theorem safe_execRedl {ty : Ty} {m : Rnd} {rop : RedOp} {o : Ops} (h : s.safe) : SafeOut (execRedl ty m rop o s) :=
    safeOut_ite (safeOut_next (safe_stopAfter h)) (safeOut_next (safe_putS h))
theorem safe_execRngk {_ty : Ty} {w2 : Bool} {o : Ops} (h : s.safe) : SafeOut (execRngk _ty w2 o s) :=
    safeOut_ite (safeOut_next (safe_stopAfter h)) (safeOut_next (safe_putV h))

/-! ## Dispatch -/

theorem safe_exec {i : Instr} (h : s.safe) : SafeOut (exec i s) := by
  unfold exec
  induction i with
  | nop => exact safe_execNop h
  | bra => exact safe_execBra h
  | brc => exact safe_execBrc h
  | brx => exact safe_execBrx h
  | call => exact safe_execCall h
  | ret => exact safe_execRet h
  | exit => exact safe_execExit h
  | yield => exact safe_execYield h
  | sleepc => exact safe_execSleepc h
  | trap => exact safe_execTrap h
  | bkpt => exact safe_execBkpt h
  | rtt => exact safe_execRtt h
  | waitfault => exact safe_execWaitfault h
  | cropen => exact safe_execCropen h
  | crclose => exact safe_execCrclose h
  | crstat => exact safe_execCrstat h
  | spawn => exact safe_execSpawn h
  | join => exact safe_execJoin h
  | smstart => exact safe_execSmstart h
  | waitpred => exact safe_execWaitpred h
  | barinit => exact safe_execBarinit h
  | bara => exact safe_execBara h
  | barw => exact safe_execBarw h
  | bars => exact safe_execBars h
  | rninit => exact safe_execRninit h
  | rnpost => exact safe_execRnpost h
  | rnwait => exact safe_execRnwait h
  | smov => exact safe_execSmov h
  | sli => exact safe_execSli h
  | slih => exact safe_execSlih h
  | sadd => exact safe_execSadd h
  | ssub => exact safe_execSsub h
  | smul => exact safe_execSmul h
  | smulh => exact safe_execSmulh h
  | smad => exact safe_execSmad h
  | sand => exact safe_execSand h
  | sor => exact safe_execSor h
  | sxor => exact safe_execSxor h
  | sshl => exact safe_execSshl h
  | sshr => exact safe_execSshr h
  | ssra => exact safe_execSsra h
  | smin => exact safe_execSmin h
  | smax => exact safe_execSmax h
  | scmp => exact safe_execScmp h
  | ssel => exact safe_execSsel h
  | spopc => exact safe_execSpopc h
  | sclz => exact safe_execSclz h
  | sld => exact safe_execSld h
  | sst => exact safe_execSst h
  | srd => exact safe_execSrd h
  | swr => exact safe_execSwr h
  | pand => exact safe_execPand h
  | por => exact safe_execPor h
  | pxor => exact safe_execPxor h
  | pnot => exact safe_execPnot h
  | pmovs => exact safe_execPmovs h
  | pmovp => exact safe_execPmovp h
  | vote => exact safe_execVote h
  | lxch => exact safe_execLxch h
  | rdlane => exact safe_execRdlane h
  | wrlane => exact safe_execWrlane h
  | mtch => exact safe_execMtch h
  | csrrd => exact safe_execCsrrd h
  | csrwr => exact safe_execCsrwr h
  | iadd => exact safe_execIadd h
  | iadd3 => exact safe_execIadd3 h
  | isub => exact safe_execIsub h
  | imul => exact safe_execImul h
  | imulh => exact safe_execImulh h
  | imad => exact safe_execImad h
  | imadw => exact safe_execImadw h
  | iabs => exact safe_execIabs h
  | imin => exact safe_execImin h
  | imax => exact safe_execImax h
  | idot4 => exact safe_execIdot4 h
  | and => exact safe_execAnd h
  | or => exact safe_execOr h
  | xor => exact safe_execXor h
  | not => exact safe_execNot h
  | shl => exact safe_execShl h
  | shr => exact safe_execShr h
  | sra => exact safe_execSra h
  | shf => exact safe_execShf h
  | popc => exact safe_execPopc h
  | clz => exact safe_execClz h
  | brev => exact safe_execBrev h
  | bfe => exact safe_execBfe h
  | bfi => exact safe_execBfi h
  | prmt => exact safe_execPrmt h
  | lea => exact safe_execLea h
  | icmp => exact safe_execIcmp h
  | sel => exact safe_execSel h
  | mov => exact safe_execMov h
  | movi => exact safe_execMovi h
  | mova => exact safe_execMova h
  | fadd => exact safe_execFadd h
  | fsub => exact safe_execFsub h
  | fmul => exact safe_execFmul h
  | fma => exact safe_execFma h
  | fmin => exact safe_execFmin h
  | fmax => exact safe_execFmax h
  | fcmp => exact safe_execFcmp h
  | fclass => exact safe_execFclass h
  | frnd => exact safe_execFrnd h
  | frcp => exact safe_execFrcp h
  | frsq => exact safe_execFrsq h
  | fsqrt => exact safe_execFsqrt h
  | fdiv => exact safe_execFdiv h
  | fexp2 => exact safe_execFexp2 h
  | flog2 => exact safe_execFlog2 h
  | fsin => exact safe_execFsin h
  | fcos => exact safe_execFcos h
  | ftanh => exact safe_execFtanh h
  | fscale => exact safe_execFscale h
  | ffrac => exact safe_execFfrac h
  | pkadd => exact safe_execPkadd h
  | pkmul => exact safe_execPkmul h
  | pkfma => exact safe_execPkfma h
  | cvt => exact safe_execCvt h
  | cvtUnit => exact safe_execCvtUnit h
  | redl => exact safe_execRedl h
  | rngk => exact safe_execRngk h
  | ld => exact safe_execLd h
  | st => exact safe_execSt h
  | ldt => exact safe_execLdt h
  | stt => exact safe_execStt h
  | pref => exact safe_execPref h
  | atom => exact safe_execAtom h
  | atomcas => exact safe_execAtomcas h
  | atomf => exact safe_execAtomf h
  | red => exact safe_execRed h
  | fence => exact safe_execFence h
  | cmntL1 => exact safe_execCmntL1 h
  | cmntWb => exact safe_execCmntWb h
  | cmntInv => exact safe_execCmntInv h
  | tagrd => exact safe_execTagrd h
  | tagwr => exact safe_execTagwr h
  | sigst => exact safe_execSigst h
  | sigwait => exact safe_execSigwait h
  | rstr => exact safe_execRstr h
  | ibarm => exact safe_execIbarm h
  | ibarmDis => exact safe_execIbarmDis h
  | ibwait => exact safe_execIbwait h
  | ibstatSend => exact safe_execIbstatSend h
  | ibstatIbox => exact safe_execIbstatIbox h
  | cpy => exact safe_execCpy h
  | cpy2d => exact safe_execCpy2d h
  | cpyg => exact safe_execCpyg h
  | cpyt => exact safe_execCpyt h
  | cpyto => exact safe_execCpyto h
  | tld => exact safe_execTld h
  | tst => exact safe_execTst h
  | mbinit => exact safe_execMbinit h
  | mbexp => exact safe_execMbexp h
  | mbarv => exact safe_execMbarv h
  | mbwait => exact safe_execMbwait h
  | mbtest => exact safe_execMbtest h
  | coll => exact safe_execColl h
  | clwait => exact safe_execClwait h
  | binadd => exact safe_execBinadd h
  | binrd => exact safe_execBinrd h
  | binpatch => exact safe_execBinpatch h
  | mma => exact safe_execMma h
  | mmaq => exact safe_execMmaq h
  | mzero => exact safe_execMzero h
  | mwait => exact safe_execMwait h
  | mfence => exact safe_execMfence h
  | mcfg => exact safe_execMcfg h
  | mstep => exact safe_execMstep h
  | mstat => exact safe_execMstat h
  | agingIssue => exact safe_execAgingIssue h
  | storeQueueDrain => exact safe_execStoreQueueDrain h
  | l2Forward => exact safe_execL2Forward h
  | cisternWriteAck => exact safe_execCisternWriteAck h
  | l1Eviction => exact safe_execL1Eviction h
  | resolve => exact safe_execResolve h
  | fbconsWrite => exact safe_execFbconsWrite h
  | dlconsWrite => exact safe_execDlconsWrite h
  | registerWrite => exact safe_execRegisterWrite h
  | generationRaiseComplete => exact safe_execGenerationRaiseComplete h
  | engineReport => exact safe_execEngineReport h
  | copyRetire => exact safe_execCopyRetire h
  | engineFault => exact safe_execEngineFault h
  | engineErrorTaken => exact safe_execEngineErrorTaken h
  | collJobComplete => exact safe_execCollJobComplete h
  | collJobFailNotice => exact safe_execCollJobFailNotice h
  | commTimeout => exact safe_execCommTimeout h
  | binpatchJob => exact safe_execBinpatchJob h
  | binaddPerform => exact safe_execBinaddPerform h
  | matrixStepDrain => exact safe_execMatrixStepDrain h
  | remoteStoreArrival => exact safe_execRemoteStoreArrival h
  | rstrOutcome => exact safe_execRstrOutcome h
  | remoteNakTrap => exact safe_execRemoteNakTrap h
  | remoteAccess => exact safe_execRemoteAccess h
  | remoteAccessTimeout => exact safe_execRemoteAccessTimeout h
  | sigwaitTimeout => exact safe_execSigwaitTimeout h
  | ibwaitTimeout => exact safe_execIbwaitTimeout h
  | mbwaitTimeout => exact safe_execMbwaitTimeout h
  | clwaitTimeout => exact safe_execClwaitTimeout h
  | sleepcExpiry => exact safe_execSleepcExpiry h
  | teamStart => exact safe_execTeamStart h
  | sliceExpiry => exact safe_execSliceExpiry h
  | preempt => exact safe_execPreempt h
  | teamRestore => exact safe_execTeamRestore h
  | kick => exact safe_execKick h
  | packetFetch => exact safe_execPacketFetch h
  | pseqRereadExpiry => exact safe_execPseqRereadExpiry h
  | packetStart => exact safe_execPacketStart h
  | preJobsDone => exact safe_execPreJobsDone h
  | waitPacketSatisfied => exact safe_execWaitPacketSatisfied h
  | waitPacketTimeout => exact safe_execWaitPacketTimeout h
  | bundleRetire => exact safe_execBundleRetire h
  | packetComplete => exact safe_execPacketComplete h
  | create => exact safe_execCreate h
  | destroy => exact safe_execDestroy h
  | activate => exact safe_execActivate h
  | deactivate => exact safe_execDeactivate h
  | pause => exact safe_execPause h
  | resume => exact safe_execResume h
  | kill => exact safe_execKill h
  | partition => exact safe_execPartition h
  | setcfgWeight => exact safe_execSetcfgWeight h
  | setcfgHbmWeir => exact safe_execSetcfgHbmWeir h
  | setcfgBrixayWeir => exact safe_execSetcfgBrixayWeir h
  | setcfgPeer => exact safe_execSetcfgPeer h
  | setcfgGqtbase => exact safe_execSetcfgGqtbase h
  | setcfgGroot => exact safe_execSetcfgGroot h
  | setcfgHroot => exact safe_execSetcfgHroot h
  | setcfgRemap => exact safe_execSetcfgRemap h
  | setcfgModes => exact safe_execSetcfgModes h
  | setcfgStackPool => exact safe_execSetcfgStackPool h
  | setcfgSavePool => exact safe_execSetcfgSavePool h
  | setcfgSlice => exact safe_execSetcfgSlice h
  | setcfgPowerLimit => exact safe_execSetcfgPowerLimit h
  | gen => exact safe_execGen h
  | qbind => exact safe_execQbind h
  | qctlEnable => exact safe_execQctlEnable h
  | qctlResume => exact safe_execQctlResume h
  | qctlReset => exact safe_execQctlReset h
  | grant => exact safe_execGrant h
  | comm => exact safe_execComm h
  | podnum => exact safe_execPodnum h
  | deviceReset => exact safe_execDeviceReset h
  | dieReset => exact safe_execDieReset h
  | dieLoss => exact safe_execDieLoss h
  | dielostTrap => exact safe_execDielostTrap h
  | sparePromotion => exact safe_execSparePromotion h
  | staleResponse => exact safe_execStaleResponse h
  | uncorrectableError => exact safe_execUncorrectableError h
  | hwerrTaken => exact safe_execHwerrTaken h
  | kaInjection => exact safe_execKaInjection h
  | scrubSector => exact safe_execScrubSector h
  | scrubWrite => exact safe_execScrubWrite h
  | vfFlr => exact safe_execVfFlr h
  | pfFlr => exact safe_execPfFlr h
  | d3hotEntry => exact safe_execD3hotEntry h
  | d0Return => exact safe_execD0Return h
  | thermalThrottle => exact safe_execThermalThrottle h
  | thermalStop => exact safe_execThermalStop h
  | getVersion => exact safe_execGetVersion h
  | getCapabilities => exact safe_execGetCapabilities h
  | negotiateAlgorithms => exact safe_execNegotiateAlgorithms h
  | getDigests => exact safe_execGetDigests h
  | getCertificate => exact safe_execGetCertificate h
  | challenge => exact safe_execChallenge h
  | getMeasurements => exact safe_execGetMeasurements h
  | keyExchange => exact safe_execKeyExchange h
  | finish => exact safe_execFinish h
  | keyUpdate => exact safe_execKeyUpdate h
  | endSession => exact safe_execEndSession h
  | lockInterfaceRequest => exact safe_execLockInterfaceRequest h
  | stopInterfaceRequest => exact safe_execStopInterfaceRequest h
  | freorImageLoad => exact safe_execFreorImageLoad h
  | freorDirtyLogDrain => exact safe_execFreorDirtyLogDrain h
  | retirementListClear => exact safe_execRetirementListClear h
  | fabricError => exact safe_execFabricError h
  | fbenWrite => exact safe_execFbenWrite h
  | l2Eviction => exact safe_execL2Eviction h
  | migration => exact safe_execMigration h
  | freorCollectiveSetup => exact safe_execFreorCollectiveSetup h
  | ideKmKeyProgramming => exact safe_execIdeKmKeyProgramming h
  | startInterfaceRequest => exact safe_execStartInterfaceRequest h
  | interfaceReportRequest => exact safe_execInterfaceReportRequest h
  | msixVectorUnmask => exact safe_execMsixVectorUnmask h

/-! ## Step -/

/-- The state of a turn, before the effect of the instruction that it issues. -/
noncomputable def turnState : Machine.Turned → State
  | .done s => s
  | .run _ s => s

theorem safe_replayTurn {key : Nat} {g : Group} {e : Entry} (h : s.safe) : (turnState (s.replayTurn key g e)).safe := by
  unfold State.replayTurn
  have hu := safe_unpark (vd := g.vd) (key := key) (pc := e.pc) h
  dsimp only
  split
  · exact safe_fail (safe_update hu)
  · exact safe_refuse hu
  · split
    · exact safe_refuse hu
    · split
      · exact safe_setGroup hu
      · exact safe_resumeIssue hu

/-- A turn whose either branch leaves a safe state. -/
theorem turnIte {c : Prop} [Decidable c] {a b : Machine.Turned} (ha : (turnState a).safe) (hb : (turnState b).safe) :
    (turnState (if c then a else b)).safe := by split <;> assumption

theorem safe_fetchTurn {key ptr : Nat} {g : Group} {t : Team} {pc : DWord} (h : s.safe) : (turnState (s.fetchTurn key g t pc ptr)).safe := by
  unfold State.fetchTurn
  have hu := safe_unpark (vd := g.vd) (key := key) (pc := pc) h
  refine turnIte (safe_fail (safe_update hu)) (turnIte (safe_fail (safe_update hu)) ?_)
  generalize s.unpark g.vd key pc = u at hu ⊢
  rcases hx : translate u (dieOf g.core) (some g.core) g.vd t.asid (BitVec.toNat pc) 3 with x | ⟨e, v⟩
  · dsimp only
    have hm := keepsWf_meet _ (some g.vd) x.bad.toList hu
    exact turnIte (safe_fail (safe_update (safe_faultDiscard hm)))
      (turnIte hm (turnIte (safe_faultRaise (safe_setGroup hm)) (safe_fail (safe_update hm))))
  · dsimp only
    have ht := safe_translate hx hu
    refine turnIte (safe_fail (safe_update ht)) (turnIte (safe_fail (safe_update ht)) (turnIte ?_ ?_))
    · have hr := safe_errRecord (x := { cls := 4, sev := 1, die := dieOf g.core, vd := some g.vd, addr := pc, gname := g.gname, pc := pc, core :=
          g.core })
        (safe_ite (c := (e.loc pc.toNat).space = .hbm) (keepsWf_meet _ (some g.vd) [sectorOf (e.loc pc.toNat).addr] ht) ht)
      exact safe_ite (safe_streamError hr) (safe_unwindElse hr fun t k => safe_trapAt k)
    · generalize Group.checkWord _ _ _ = w
      rcases w with c | ⟨i, r, n⟩
      · exact safe_refuse ht
      · dsimp only
        rcases v.stalls key g r with _ | g'
        · exact safe_startIssue (safe_setGroup ht)
        · exact safe_setGroup ht

theorem safe_issue {key : Nat} (h : s.safe) : (turnState (s.issue key)).safe := by
  unfold State.issue
  rcases mfind s.groups key with _ | g
  · exact h
  · refine turnIte h ?_
    rcases g.trapping with _ | x
    · refine turnIte (safe_takeErr h) (turnIte (safe_takeNak h) ?_)
      rcases dropInvalid g.replay with _ | ⟨e, tail⟩
      · dsimp only
        rcases g.part with _ | e
        · dsimp only
          split
          · exact safe_fetchTurn h
          · split
            · exact h
            · exact safe_trapAt h
        · dsimp only
          generalize Group.checkWord _ _ _ = w
          rcases w with c | ⟨i, r, n⟩
          · exact safe_refuse h
          · exact safe_resumeIssue h
      · exact safe_replayTurn (safe_setGroup h)
    · exact safe_tryTrap h

theorem safe_nextCommand (h : s.safe) : (turnState s.nextCommand).safe := by
  unfold State.nextCommand
  refine turnIte h ?_
  dsimp only
  rcases commandOf (BitVec.ofNat 512 (s.hostNat s.cmdAddr 64)) with _ | _
  · exact safe_cmdComplete h
  · exact h

theorem safe_stopAt {t : Machine.Turned} {n : Nat} (h : (turnState t).safe) : (turnState (t.stopAt n)).safe := by
  induction t with
  | done s => exact h
  | run i s => exact safe_update h

theorem safe_runTurn {t : Machine.Turned} (h : (turnState t).safe) : SafeOut (runTurn t) := by
  induction t with
  | done s => exact safeOut_next h
  | run i s => exact safe_exec h
/-- A turn that is not a reset of the device. -/
noncomputable def turnTaken (s : State) (stopped : Bool) (who : Who) : Out :=
  if stopped then .fault .stopped
  else
    match who with
    | .group k => runTurn (s.issue k)
    | .part k n => runTurn ((s.issue k).stopAt n)
    | .freor => runTurn s.nextCommand
    | .event i => if Instr.isEvent i then exec i s else .refused .notAnEvent

theorem safe_turnTaken {stopped : Bool} {who : Who} (h : s.safe) : SafeOut (s.turnTaken stopped who) := by
  unfold turnTaken
  refine safeOut_ite safeOut_fault ?_
  induction who with
  | group k => exact safe_runTurn (safe_issue h)
  | part k n => exact safe_runTurn (safe_stopAt (safe_issue h))
  | freor => exact safe_runTurn (safe_nextCommand h)
  | event i => exact safeOut_ite (safe_exec h) safeOut_refused
theorem safe_step (h : s.safe) : SafeOut (step s) := by
  unfold step
  split
  · exact safeOut_next (safe_tick h)
  next t rest hag =>
    clear hag
    obtain ⟨clocks, ns, who, skew⟩ := t
    have hs : (State.tick { s with agenda := rest } clocks ns skew).safe := safe_tick (safe_update h)
    generalize State.tick { s with agenda := rest } clocks ns skew = s' at hs ⊢
    generalize s.stopped = stopped
    induction who with
    | group k => exact safe_turnTaken (who := .group k) hs
    | part k n => exact safe_turnTaken (who := .part k n) hs
    | freor => exact safe_turnTaken (who := .freor) hs
    | event i =>
      induction i
      case deviceReset => exact safe_exec hs
      all_goals exact safe_turnTaken (who := .event _) hs

end Sys2Proof.Machine.State
end

section
/-! PROOF. The statement on canonical stores: O59. -/
namespace Sys2Proof.Machine

/-- Settles O59: whatever an instruction or an event of a step writes, it writes through the stores' own operations, which keep them canonical. -/
theorem stepKeepsSafe : Obligations.StepKeepsSafe := by
  intro s t h hstep
  exact State.safe_step h t hstep

end Sys2Proof.Machine
end

section
/-! PROOF. What a group's settled stores leave of the tables, and what a flush leaves on its way (R222, R304). -/
namespace Sys2Proof.Machine

/-! ## A drained queue is empty -/

theorem State.groups_drainOne (s : State) (key : Nat) {g : Group} {w : QStore} {q : List QStore} (hg : mfind s.groups key = some g) (hq : g.sq = w :: q) :
    (s.drainOne key).groups = mset s.groups key { g with sq := q } := by
  unfold State.drainOne
  rw [hg]
  simp only [hq]
  rw [State.groups_wrote, State.groups_enterView]
  exact congrArg (fun m => mset m key _) (State.settleFence_groups key s)

/-- As many stores leave the queue as it holds. -/
theorem State.sq_drainOnes (key : Nat) (xs : List Nat) (s : State) (h : (mget {} s.groups key).sq.length ≤ xs.length) :
    (mget {} (xs.foldl (fun s _ => s.drainOne key) s).groups key).sq = [] := by
  induction xs generalizing s with
  | nil => exact List.length_eq_zero_iff.1 (Nat.le_zero.1 h)
  | cons x xs ih =>
    refine ih _ (?_ : (mget {} (s.drainOne key).groups key).sq.length ≤ _)
    cases hg : mfind s.groups key with
    | none =>
      have hs : s.drainOne key = s := by unfold State.drainOne; rw [hg]
      rw [hs, mget, hg]
      exact Nat.zero_le _
    | some g =>
      rw [mget, hg] at h
      cases hq : g.sq with
      | nil =>
        have hs : s.drainOne key = s := by unfold State.drainOne; rw [hg]; simp only [hq]
        rw [hs, mget, hg]
        simp [hq]
      | cons w q =>
        rw [s.groups_drainOne key hg hq, mget_mset_self]
        simpa [hq] using h

theorem State.sq_drain (s : State) (key : Nat) : (mget {} (s.drain key).groups key).sq = [] := by
  refine State.sq_drainOnes key _ _ ?_
  rw [State.settleFence_groups, List.length_range]

/-! ## Settled stores -/

/-- `t` is `s` after work that, of the table of groups, touches the issuing group alone, and leaves it on its core and in its VD. -/
structure State.Settles (s t : State) : Prop where
  iss : t.iss = s.iss
  others : ∀ k, k ≠ s.iss.key → mfind t.groups k = mfind s.groups k
  core : t.grp.core = s.grp.core
  vd : t.grp.vd = s.grp.vd

theorem State.Settles.refl (s : State) : s.Settles s := ⟨rfl, fun _ _ => rfl, rfl, rfl⟩
theorem State.Settles.trans {s t u : State} (h : s.Settles t) (k : t.Settles u) : s.Settles u where
  iss := k.iss.trans h.iss
  others j hj := (k.others j (h.iss ▸ hj)).trans (h.others j hj)
  core := k.core.trans h.core
  vd := k.vd.trans h.vd
theorem State.Drained.settles {s t : State} (h : State.Drained s.iss.key s t) : s.Settles t := by
  obtain ⟨q, d, hg⟩ := h.grp
  exact ⟨(congrArg State.iss h.rest :), h.others, by rw [hg], by rw [hg]⟩
/-- Work that leaves the table alone. -/
theorem State.Settles.of_groups {s t : State} (hi : t.iss = s.iss) (hg : t.groups = s.groups) : s.Settles t := by
  have h : t.grp = s.grp := by unfold State.grp; rw [hi, hg]
  exact ⟨hi, fun _ _ => by rw [hg], by rw [h], by rw [h]⟩
theorem State.Settles.of_bare {s t : State} (h : t.bare = s.bare) : s.Settles t := .of_groups (congrArg State.iss h :) (State.groups_of_bare h)
theorem State.Settles.foldl {α : Type} {f : State → α → State} (xs : List α) (h : ∀ x ∈ xs, ∀ u : State, u.Settles (f u x)) (s : State) : s.Settles (xs.foldl f s) := by
  induction xs generalizing s with
  | nil => exact .refl s
  | cons x xs ih => exact (h x (by simp) s).trans (ih (fun y hy => h y (by simp [hy])) _)

@[simp] theorem State.iss_updVd (s : State) (n : Nat) (f : VD → VD) : (s.updVd n f).iss = s.iss := rfl
@[simp] theorem State.iss_wrote (s : State) (k : Option Nat) (r : Bool) (w : QStore) : (s.wrote k r w).iss = s.iss := rfl
@[simp] theorem State.iss_cisternPut (s : State) (w : QStore) : (s.cisternPut w).iss = s.iss := (congrArg State.iss (s.bare_cisternPut w) :)
@[simp] theorem State.iss_updGroup (s : State) (k : Nat) (f : Group → Group) : (s.updGroup k f).iss = s.iss := by unfold State.updGroup; split <;> rfl
theorem State.updGroup_groups_congr {s t : State} (h : t.groups = s.groups) (k : Nat) (f : Group → Group) :
    (t.updGroup k f).groups = (s.updGroup k f).groups := by
  unfold State.updGroup
  rw [h]
  split
  · exact congrArg (fun m => mset m k _) h
  · exact h

/-- A BINADD's performance, of the groups, drains its group's queue and writes one of its registers. -/
theorem State.binPerform_frame (s : State) (b : BinOp) :
    (s.binPerform b).iss = s.iss ∧ ∃ act w, (s.binPerform b).groups = ((s.drain b.key).updGroup b.key fun g => g.writeV act w).groups := by
  have hflush := State.bare_flushDie (s.drain b.key) b.die
  have hdrain : (s.drain b.key).iss = s.iss := (congrArg State.iss (State.drained_drain b.key s).rest :)
  unfold State.binPerform
  dsimp only
  constructor
  · refine (State.iss_updGroup _ _ _).trans ((foldl_keeps (p := fun acc : List (Nat × DWord × Bool) × State => acc.2.iss) (fun acc l => ?_) _ _).trans
      ((congrArg State.iss hflush : _).trans hdrain))
    split <;> simp
  · refine ⟨_, _, State.updGroup_groups_congr ?_ _ _⟩
    refine (foldl_keeps (p := fun acc : List (Nat × DWord × Bool) × State => acc.2.groups) (fun acc l => ?_) _ _).trans (State.groups_of_bare hflush)
    split <;> simp

theorem State.settles_updGroup (s : State) (f : Group → Group) (hf : ∀ g : Group, (f g).core = g.core ∧ (f g).vd = g.vd) :
    s.Settles (s.updGroup s.iss.key f) := by
  unfold State.updGroup
  split
  · rename_i g hg
    have hgrp : s.grp = g := by rw [State.grp, mget, hg]; rfl
    have hself : (s.setGroup s.iss.key (f g)).grp = f s.grp := (mget_mset_self _ _ _ _).trans (by rw [hgrp])
    exact ⟨rfl, fun j hj => mfind_mset_ne _ _ hj, by rw [hself, (hf _).1], by rw [hself, (hf _).2]⟩
  · exact .refl s
theorem State.settles_drain (s : State) : s.Settles (s.drain s.iss.key) := (State.drained_drain _ s).settles
theorem State.settles_binPerform (s : State) (b : BinOp) (hb : b.key = s.iss.key) : s.Settles (s.binPerform b) := by
  obtain ⟨hi, act, w, hg⟩ := s.binPerform_frame b
  have hd := s.settles_drain
  have hw := (s.drain s.iss.key).settles_updGroup (fun g => g.writeV act w) fun _ => ⟨rfl, rfl⟩
  rw [hd.iss] at hw
  rw [hb] at hg
  refine (hd.trans hw).trans (.of_groups ?_ hg)
  rw [hi, State.iss_updGroup, hd.iss]
theorem State.sq_binPerform (s : State) (b : BinOp) : (mget {} (s.binPerform b).groups b.key).sq = [] := by
  obtain ⟨-, act, w, hg⟩ := s.binPerform_frame b
  have hd := s.sq_drain b.key
  rw [hg]
  unfold State.updGroup
  split
  · rename_i g hg
    rw [mget, hg] at hd
    exact (congrArg Group.sq (mget_mset_self _ _ _ _)).trans hd
  · exact hd

/-- What settles, of the group's own work, besides an empty queue (R222). -/
theorem State.settles_settleStores (s : State) : s.Settles (s.settleStores s.iss.key) := by
  refine s.settles_drain.trans ?_
  suffices H : ∀ (xs : List BinOp) (k : Nat), (∀ b ∈ xs, b.key = k) → ∀ u : State, u.iss.key = k → u.Settles (xs.foldl State.binPerform u) from
    H _ s.iss.key (fun b hb => by simpa using (List.mem_filter.1 hb).2) _ (congrArg Issue.key s.settles_drain.iss)
  intro xs k
  induction xs with
  | nil => intro _ u _; exact .refl u
  | cons b xs ih =>
    intro hxs u hu
    have hb := u.settles_binPerform b ((hxs b (by simp)).trans hu.symm)
    exact hb.trans (ih (fun c hc => hxs c (by simp [hc])) _ ((congrArg Issue.key hb.iss).trans hu))
theorem State.sq_settleStores (s : State) (key : Nat) : (mget {} (s.settleStores key).groups key).sq = [] := by
  have hd := s.sq_drain key
  unfold State.settleStores State.binFinish
  generalize hbs : (s.drain key).binops.filter _ = bs
  have hkey : ∀ b ∈ bs, b.key = key := by subst hbs; exact fun b hb => by simpa using (List.mem_filter.1 hb).2
  clear hbs
  generalize s.drain key = u at hd ⊢
  induction bs generalizing u with
  | nil => exact hd
  | cons b bs ih => exact ih (fun c hc => hkey c (by simp [hc])) _ (hkey b (by simp) ▸ u.sq_binPerform b)
theorem State.settles_publish (s : State) : s.Settles (s.publish s.iss.key) := (State.drained_publish _ s).settles
theorem State.sq_publish (s : State) (key : Nat) : (mget {} (s.publish key).groups key).sq = (mget {} s.groups key).sq := by
  unfold State.publish
  rw [State.groups_of_bare (State.bare_mark _ _ _ _)]
  unfold State.updGroup
  split
  · rename_i g hg
    exact (congrArg Group.sq (mget_mset_self _ _ _ _)).trans (by rw [mget, hg]; rfl)
  · rfl
theorem State.settles_published (s : State) : s.Settles ((s.settleStores s.iss.key).publish s.iss.key) := by
  have h := s.settles_settleStores
  have hp := (s.settleStores s.iss.key).settles_publish
  rw [h.iss] at hp
  exact h.trans hp
/-- A release, of the state that has published what it settled, at most flushes the group's die. -/
theorem State.release_eq (s : State) (sc : Scope) :
    s.release s.iss.key sc =
      if sc.code < 3 then (s.settleStores s.iss.key).publish s.iss.key
      else ((s.settleStores s.iss.key).publish s.iss.key).flushDie (dieOf s.grp.core) := by
  have h := s.settles_published
  have hcore : (mget {} ((s.settleStores s.iss.key).publish s.iss.key).groups s.iss.key).core = s.grp.core := by
    have hc := h.core
    rwa [State.grp, h.iss] at hc
  unfold State.release
  simp only [hcore]
theorem State.settles_release (s : State) (sc : Scope) : s.Settles (s.release s.iss.key sc) := by
  rw [s.release_eq sc]
  split
  · exact s.settles_published
  · exact s.settles_published.trans (.of_bare (State.bare_flushDie _ _))
theorem State.sq_release (s : State) (sc : Scope) : (mget {} (s.release s.iss.key sc).groups s.iss.key).sq = [] := by
  have h := (State.sq_publish (s.settleStores s.iss.key) s.iss.key).trans (s.sq_settleStores _)
  rw [s.release_eq sc]
  split
  · exact h
  · rwa [State.groups_of_bare (State.bare_flushDie _ _)]

/-! ## A flushed die -/

/-- No write of a die is on its way to the cistern or unacknowledged. -/
noncomputable def State.Flushed (die : Nat) (s : State) : Prop := ∀ f ∈ s.mem.fwd ++ s.mem.acks, f.die ≠ die

theorem countP_erase_found {p : Forward → Bool} {xs : List Forward} {f : Forward} (h : xs.find? p = some f) :
    (xs.erase f).countP p + 1 = xs.countP p := by
  have hp := List.find?_some h
  have hf := List.mem_of_find?_eq_some h
  have hpos : 0 < xs.countP p := List.countP_pos_iff.2 ⟨f, hf, hp⟩
  rw [List.countP_erase, if_pos ⟨hf, hp⟩]
  exact Nat.sub_add_cancel hpos

theorem State.fwd_forwardOne (s : State) (die : Nat) :
    ((s.forwardOne die).mem.fwd.countP fun f => f.die == die) = (s.mem.fwd.countP fun f => f.die == die) - 1 := by
  unfold State.forwardOne
  split
  · rename_i h
    have hzero : (s.mem.fwd.countP fun f => f.die == die) = 0 :=
      List.countP_eq_zero.2 fun f hf => by simpa using List.find?_eq_none.1 h f hf
    rw [hzero]
  · rename_i f h
    exact Nat.eq_sub_of_add_eq (countP_erase_found h)
theorem State.acks_ackOne (s : State) (die : Nat) :
    ((s.ackOne die).mem.acks.countP fun f => f.die == die) = (s.mem.acks.countP fun f => f.die == die) - 1 ∧ (s.ackOne die).mem.fwd = s.mem.fwd := by
  unfold State.ackOne
  split
  · rename_i h
    have hzero : (s.mem.acks.countP fun f => f.die == die) = 0 :=
      List.countP_eq_zero.2 fun f hf => by simpa using List.find?_eq_none.1 h f hf
    exact ⟨by rw [hzero], rfl⟩
  · rename_i f h
    exact ⟨Nat.eq_sub_of_add_eq (countP_erase_found h), rfl⟩
/-- A measure that every step lowers is 0 after as many steps. -/
theorem foldl_lowers {σ α : Type} {p : σ → Nat} {f : σ → α → σ} (h : ∀ s x, p (f s x) = p s - 1) (xs : List α) (s : σ) :
    p (xs.foldl f s) = p s - xs.length := by
  induction xs generalizing s with
  | nil => rfl
  | cons x xs ih => rw [List.foldl_cons, ih, h, List.length_cons, Nat.sub_sub, Nat.add_comm]
theorem State.flushed_flushDie (s : State) (die : Nat) : State.Flushed die (s.flushDie die) := by
  have hfwd : ∀ (xs : List Nat) (u : State), (xs.foldl (fun s _ => s.ackOne die) u).mem.fwd = u.mem.fwd :=
    fun xs u => foldl_keeps (p := fun s : State => s.mem.fwd) (fun u _ => (u.acks_ackOne die).2) xs u
  have h1 : ((s.flushDie die).mem.fwd.countP fun f => f.die == die) = 0 := by
    unfold State.flushDie
    rw [hfwd, foldl_lowers (p := fun s : State => s.mem.fwd.countP fun f => f.die == die) (fun u _ => u.fwd_forwardOne die), List.length_range]
    exact Nat.sub_eq_zero_of_le List.countP_le_length
  have h2 : ((s.flushDie die).mem.acks.countP fun f => f.die == die) = 0 := by
    unfold State.flushDie
    rw [foldl_lowers (p := fun s : State => s.mem.acks.countP fun f => f.die == die) (fun u _ => (u.acks_ackOne die).1), List.length_range]
    exact Nat.sub_eq_zero_of_le List.countP_le_length
  intro f hf
  rcases List.mem_append.1 hf with hf | hf
  · simpa using List.countP_eq_zero.1 h1 f hf
  · simpa using List.countP_eq_zero.1 h2 f hf

end Sys2Proof.Machine
end

section
/-! PROOF. FENCE and CMNT: what they end with, and which copies they write back and drop (O32). -/
namespace Sys2Proof.Machine

/-! ## Ending after settled stores -/

/-- Of the memory system, at most the copies in the L1s differ, and the groups are those of `s`. -/
structure State.L1Only (s t : State) : Prop where
  iss : t.iss = s.iss
  groups : t.groups = s.groups
  mem : t.mem = { s.mem with l1 := t.mem.l1 }
  epoch : t.epoch = s.epoch

/-- What is finished after settled stores has written nothing that these have not. -/
theorem State.Settles.wroteFrom {s w v : State} (h : s.Settles w) (hi : v.iss = w.iss) (hg : v.groups = w.groups) : s.WroteFrom w v.finish [] [] := by
  have hran := v.ran_finish [] [] []
  have hgrp : v.grp = w.grp := by unfold State.grp; rw [hi, hg]
  have hsq : v.finish.grp = w.grp.ended s.iss := by rw [State.finish_eq, State.grp_updGrp, hgrp, hi, h.iss]
  have hself := hran.self
  rw [hi, h.iss, hgrp] at hself
  have hkept : ({ w.grp with sq := v.finish.grp.sq, vdirty := v.finish.grp.vdirty } : Group) = w.grp := by
    rw [hsq]; unfold Group.ended Group.endedAt; split <;> rfl
  refine ⟨fun k hk => ?_, ?_, fun _ => .inl ?_⟩
  · rw [hran.others k (by rwa [hi, h.iss]), hg]
    exact h.others k hk
  · rw [hkept]
    exact hself
  · rw [hsq]; unfold Group.ended Group.endedAt; split <;> rfl
theorem State.sq_finish (s : State) : s.finish.grp.sq = s.grp.sq := by
  rw [State.finish_eq, State.grp_updGrp]; unfold Group.ended Group.endedAt; split <;> rfl
theorem State.L1Only.sameBytes {w v : State} (h : w.L1Only v) : w.SameBytes v.finish := by
  constructor <;> intros <;>
    simp only [State.hbmByte, State.hostByte, State.remoteByte, State.scratchByte, State.tileByte, State.sideByte, State.finish_mem, State.finish_epoch, h.epoch] <;>
    rw [h.mem]

/-! ## FENCE (R222, R266) -/

/-- The state that a FENCE's wait leaves, before it releases to later fences and acquires: `w` of the statement, with what a late one has yet to wait for. -/
noncomputable def State.fenceWaited (s : State) (late rel : Bool) (sc : Scope) : State :=
  if late then
    let p := (s.settleStores s.iss.key).publish s.iss.key
    { p with fenced := mset p.fenced s.iss.key (dieOf p.grp.core) }
  else if rel then s.release s.iss.key sc else s.drain s.iss.key
/-- The end of a FENCE. -/
noncomputable def State.fenceEnd (s : State) (key : Nat) (rel acq : Bool) (sc : Scope) : State :=
  let s := if rel then s.releaseTo key (.fence key) else s
  if acq then s.acquire s.grp.core sc else s

theorem State.fenceEnd_l1Only (s : State) (key : Nat) (rel acq : Bool) (sc : Scope) : s.L1Only (s.fenceEnd key rel acq sc) := by
  unfold State.fenceEnd State.acquire
  rcases rel <;> rcases acq <;> dsimp only <;> split_ifs <;> exact ⟨rfl, rfl, rfl, rfl⟩
theorem State.fenceEnd_fenced (s : State) (key : Nat) (rel acq : Bool) (sc : Scope) : (s.fenceEnd key rel acq sc).fenced = s.fenced := by
  unfold State.fenceEnd State.acquire
  rcases rel <;> rcases acq <;> dsimp only <;> split_ifs <;> rfl
theorem State.fenceEnd_dropped (s : State) (key : Nat) (rel : Bool) (sc : Scope) (hsc : sc ≠ .core) :
    ∀ c ∈ (s.fenceEnd key rel true sc).mem.l1, c.core ≠ s.grp.core := by
  have hcode : sc.code ≠ 0 := by revert hsc; rcases sc <;> decide
  have hdrop : (s.fenceEnd key rel true sc).mem.l1 = s.mem.l1.filter fun c => c.core != s.grp.core := by
    unfold State.fenceEnd State.acquire
    rcases rel <;> simp only [if_true, Bool.false_eq_true, if_false, if_neg hcode] <;> rfl
  intro c hc
  rw [hdrop] at hc
  simpa using (List.mem_filter.1 hc).2

theorem State.L1Only.trans {s t u : State} (h : s.L1Only t) (k : t.L1Only u) : s.L1Only u :=
  ⟨k.iss.trans h.iss, k.groups.trans h.groups, by rw [k.mem, h.mem], k.epoch.trans h.epoch⟩
theorem exec_fence (sc : Scope) (od : MemOrd) (o : Ops) (s : State) (h : s.iss.act ≠ 0) :
    exec (.fence sc od o) s =
      .next ((s.fenceWaited (s.iss.lateFence sc od) od.isRel sc).fenceEnd s.iss.key od.isRel od.isAcq sc).finish :=
  congrArg Host.Outcome.next (State.ifActive_eq _ _ h)

/-- What a FENCE waits for, as the statement names it. -/
noncomputable def State.fenceWait (s : State) (late rel : Bool) (sc : Scope) : State :=
  if rel then (if late then (s.settleStores s.iss.key).publish s.iss.key else s.release s.iss.key sc) else s.drain s.iss.key

theorem State.settles_fenceWait (s : State) (late rel : Bool) (sc : Scope) : s.Settles (s.fenceWait late rel sc) := by
  unfold State.fenceWait
  split_ifs
  · exact s.settles_published
  · exact s.settles_release sc
  · exact s.settles_drain
theorem State.sq_fenceWait (s : State) (late rel : Bool) (sc : Scope) : (s.fenceWait late rel sc).grp.sq = [] := by
  have hi := (s.settles_fenceWait late rel sc).iss
  unfold State.grp
  rw [hi]
  unfold State.fenceWait
  split_ifs
  · exact (State.sq_publish _ _).trans (s.sq_settleStores _)
  · exact s.sq_release sc
  · exact s.sq_drain _
/-- A late wait differs in the entry that the group's next write settles. -/
theorem State.fenceWaited_l1Only (s : State) {late rel : Bool} (sc : Scope) (h : late = true → rel = true) :
    (s.fenceWait late rel sc).L1Only (s.fenceWaited late rel sc) := by
  unfold State.fenceWait State.fenceWaited
  induction late with
  | true => rw [h rfl]; exact ⟨rfl, rfl, rfl, rfl⟩
  | false => rcases rel <;> exact ⟨rfl, rfl, rfl, rfl⟩
/-- A release at .dev or wider that is not late has flushed the group's die. -/
theorem State.flushed_fenceWait (s : State) (sc : Scope) (h : 3 ≤ sc.code) : State.Flushed (dieOf s.grp.core) (s.fenceWait false true sc) := by
  show State.Flushed _ (s.release s.iss.key sc)
  rw [s.release_eq sc, if_neg (Nat.not_lt.2 h)]
  exact State.flushed_flushDie _ _
theorem State.L1Only.flushed {s t : State} (h : s.L1Only t) {die : Nat} (hs : State.Flushed die s) : State.Flushed die t := by
  unfold State.Flushed at *
  rw [h.mem]
  exact hs
/-- With an empty queue, draining is what a fence has left to wait for. -/
theorem State.drain_settled (s : State) (key : Nat) (h : (mget {} s.groups key).sq = []) : s.drain key = s.settleFence key := by
  unfold State.drain
  rw [h]
  rfl

theorem fence_spec (sc : Scope) (od : MemOrd) (s : State) :
    let w := s.fenceWait (s.iss.lateFence sc od) od.isRel sc
    let t := ((s.fenceWaited (s.iss.lateFence sc od) od.isRel sc).fenceEnd s.iss.key od.isRel od.isAcq sc).finish
    s.WroteFrom w t [] [] ∧ w.SameBytes t ∧ t.grp.sq = [] ∧
      (od.isRel = true → 3 ≤ sc.code →
        if s.iss.lateFence sc od then State.Flushed (dieOf s.grp.core) (t.drain s.iss.key) else State.Flushed (dieOf s.grp.core) t) ∧
      (od.isAcq = true → sc ≠ .core → ∀ c ∈ t.mem.l1, c.core ≠ s.grp.core) := by
  intro w t
  have hlate : s.iss.lateFence sc od = true → od.isRel = true := by
    unfold Issue.lateFence
    rcases od <;> simp [MemOrd.isRel]
  have hsettles := s.settles_fenceWait (s.iss.lateFence sc od) od.isRel sc
  have hwaited := s.fenceWaited_l1Only sc hlate
  have hend := hwaited.trans (State.fenceEnd_l1Only _ s.iss.key od.isRel od.isAcq sc)
  have hkey : t.iss.key = s.iss.key := congrArg Issue.key (hend.iss.trans hsettles.iss)
  have hsq : t.grp.sq = [] := by
    refine (State.sq_finish _).trans ?_
    unfold State.grp
    rw [hend.iss, hend.groups]
    exact s.sq_fenceWait _ _ sc
  refine ⟨hsettles.wroteFrom hend.iss hend.groups, hend.sameBytes, hsq, fun hrel hsc => ?_, fun hacq hsc => ?_⟩
  · split
    · rename_i h
      rw [State.drain_settled _ _ (by rw [← hkey]; exact hsq)]
      have hcore : (s.fenceWait true true sc).grp.core = s.grp.core := (s.settles_fenceWait true true sc).core
      have hfenced : mfind t.fenced s.iss.key = some (dieOf s.grp.core) := by
        show mfind (State.fenceEnd _ _ _ _ _).fenced _ = _
        rw [State.fenceEnd_fenced, h]
        exact (mfind_mset_self _ _ _).trans (congrArg (fun c => some (dieOf c)) hcore)
      unfold State.settleFence
      rw [hfenced]
      exact State.flushed_flushDie _ _
    · rename_i h
      refine (hend.flushed ?_ : State.Flushed _ _)
      rw [hrel, Bool.eq_false_iff.2 h]
      exact s.flushed_fenceWait sc hsc
  · have hcore : (s.fenceWaited (s.iss.lateFence sc od) od.isRel sc).grp.core = s.grp.core := by
      rw [← hsettles.core]
      unfold State.grp
      rw [hwaited.iss, hwaited.groups]
    have hdrop := State.fenceEnd_dropped (s.fenceWaited (s.iss.lateFence sc od) od.isRel sc) s.iss.key od.isRel sc hsc
    rw [hcore] at hdrop
    show ∀ c ∈ (State.fenceEnd _ _ _ od.isAcq _).mem.l1, _
    rw [hacq]
    exact hdrop

/-! ## CMNT.l1 (R267) -/

theorem cmntL1_spec (o : Ops) (s : State) (h : s.iss.act ≠ 0) :
    ∃ t, exec (.cmntL1 o) s = .next t ∧ s.WroteFrom (s.settleStores s.iss.key) t [] [] ∧ (s.settleStores s.iss.key).SameBytes t ∧ t.grp.sq = [] ∧
      t.mem.l2 = (s.settleStores s.iss.key).mem.l2 ∧ ∀ c, c ∈ t.mem.l1 ↔ c ∈ (s.settleStores s.iss.key).mem.l1 ∧ c.core ≠ s.grp.core := by
  have hs := s.settles_settleStores
  have hdrop : (s.settleStores s.iss.key).L1Only ((s.settleStores s.iss.key).l1Drop s.grp.core) := ⟨rfl, rfl, rfl, rfl⟩
  refine ⟨_, congrArg Host.Outcome.next (State.ifActive_eq _ _ h), hs.wroteFrom rfl rfl, hdrop.sameBytes, ?_, rfl, fun c => ?_⟩
  · refine (State.sq_finish _).trans ?_
    show (mget {} (s.settleStores s.iss.key).groups (s.settleStores s.iss.key).iss.key).sq = []
    rw [hs.iss]
    exact s.sq_settleStores _
  · show c ∈ (s.settleStores s.iss.key).mem.l1.filter _ ↔ _
    rw [List.mem_filter, bne_iff_ne]

/-! ## Copies written back (R218) -/

/-- Where every write to an address writes one byte, that byte is read. -/
theorem Mem.read_writeAll_one {bs : List (Nat × Byte)} {a : Nat} {b : Byte} (hb : (a, b) ∈ bs) (hone : ∀ e ∈ bs, e.1 = a → e.2 = b) (m : Mem) :
    Mem.read (Mem.writeAll m bs) a = some b := by
  induction bs generalizing m with
  | nil => cases hb
  | cons e bs ih =>
    by_cases hin : (a, b) ∈ bs
    · exact ih hin (fun x hx => hone x (by simp [hx])) _
    · have he : (a, b) = e := (List.mem_cons.1 hb).resolve_right hin
      subst he
      refine (Mem.read_writeAll_ne (Mem.write m a b) bs fun x hx hxa => hin ?_).trans (Mem.read_write_self _ _ _)
      obtain ⟨y, z⟩ := x
      obtain rfl : y = a := hxa
      obtain rfl : z = b := hone (y, z) (by simp [hx]) rfl
      exact hx
/-- A store in canonical form holds one byte of an address. -/
theorem Mem.read_of_mem {m : Mem} (h : Mem.wf m = true) {a : Nat} {b : Byte} (hb : (a, b) ∈ m) : Mem.read m a = some b := by
  rw [Mem.wf_iff, AMap.sorted_iff_pairwise] at h
  induction m with
  | nil => cases hb
  | cons e m ih =>
    obtain ⟨j, y⟩ := e
    obtain ⟨hlt, hm⟩ := List.pairwise_cons.1 h
    rcases List.mem_cons.1 hb with he | hb
    · cases he
      exact if_pos rfl
    · have hne : j ≠ a := Nat.ne_of_lt (hlt _ hb)
      exact (if_neg hne).trans (ih hm hb)
theorem Mem.mem_of_read {m : Mem} {a : Nat} {b : Byte} (h : Mem.read m a = some b) : (a, b) ∈ m := by
  induction m with
  | nil => cases h
  | cons e m ih =>
    obtain ⟨j, y⟩ := e
    by_cases hj : j = a
    · subst hj
      have hy : some y = some b := (if_pos rfl : Mem.read ((j, y) :: m) j = some y).symm.trans h
      cases hy
      simp
    · exact List.mem_cons_of_mem _ (ih ((if_neg hj : Mem.read ((j, y) :: m) a = Mem.read m a).symm.trans h))

/-- What the write-back of copy `c` makes of copy `d`. -/
noncomputable def L2Copy.cleanedBy (c d : L2Copy) : L2Copy :=
  if c.dirty = [] && !c.pdirty then d else if d.die == c.die && d.sector == c.sector then { d with dirty := [], pdirty := false } else d

theorem State.l2_writeBackCopy (s : State) (c : L2Copy) : (s.writeBackCopy c).mem.l2 = s.mem.l2.map c.cleanedBy := by
  unfold State.writeBackCopy L2Copy.cleanedBy
  dsimp only
  split
  · exact (List.map_id _).symm
  · rfl
/-- Nothing else of the copies, the groups and the work under way changes. -/
theorem State.writeBackCopy_kept (s : State) (c : L2Copy) :
    ((s.writeBackCopy c).mem.l1, (s.writeBackCopy c).groups, (s.writeBackCopy c).iss, (s.writeBackCopy c).epoch) = (s.mem.l1, s.groups, s.iss, s.epoch) := by
  unfold State.writeBackCopy
  dsimp only
  split <;> rfl
/-- The bytes that a write-back writes to the cistern. -/
theorem State.hbm_writeBackCopy (s : State) (c : L2Copy) :
    (s.writeBackCopy c).mem.hbm = s.mem.hbm ∨ (s.writeBackCopy c).mem.hbm = Mem.writeAll s.mem.hbm (c.data.filter fun e => c.dirty.contains e.1) := by
  unfold State.writeBackCopy
  dsimp only
  split
  · exact .inl rfl
  · exact .inr rfl
theorem State.hbmByte_writeBackCopy_ne (s : State) (c : L2Copy) {x : Nat} (h : x ∉ c.dirty) : (s.writeBackCopy c).hbmByte x = s.hbmByte x := by
  have hne : ∀ e ∈ c.data.filter fun e => c.dirty.contains e.1, e.1 ≠ x := by
    rintro e he rfl
    exact h (List.elem_iff.1 (List.mem_filter.1 he).2)
  have he : (s.writeBackCopy c).epoch = s.epoch := congrArg (fun p => p.2.2.2) (s.writeBackCopy_kept c)
  unfold State.hbmByte
  rw [he]
  rcases s.hbm_writeBackCopy c with hm | hm
  · rw [hm]
  · rw [hm, Mem.read_writeAll_ne _ _ hne]
theorem State.hbmByte_writeBackCopy (s : State) (c : L2Copy) {x : Nat} {v : Byte} (h : x ∈ c.dirty) (hwf : Mem.wf c.data = true)
    (hv : Mem.read c.data x = some v) : (s.writeBackCopy c).hbmByte x = v := by
  have hmem : (x, v) ∈ c.data.filter fun e => c.dirty.contains e.1 := List.mem_filter.2 ⟨Mem.mem_of_read hv, List.elem_iff.2 h⟩
  have hone : ∀ e ∈ c.data.filter fun e => c.dirty.contains e.1, e.1 = x → e.2 = v := by
    rintro ⟨y, z⟩ he rfl
    exact Option.some.inj ((Mem.read_of_mem hwf (List.mem_filter.1 he).1).symm.trans hv)
  have hdirty : c.dirty ≠ [] := List.ne_nil_of_mem h
  have hm : (s.writeBackCopy c).mem.hbm = Mem.writeAll s.mem.hbm (c.data.filter fun e => c.dirty.contains e.1) := by
    unfold State.writeBackCopy
    rw [if_neg (by simp [hdirty])]
    rfl
  unfold State.hbmByte
  rw [hm, Mem.read_writeAll_one hmem hone]
  rfl

/-! ## Several copies written back -/

theorem State.l2_writeBacks (cs : List L2Copy) (s : State) :
    (cs.foldl State.writeBackCopy s).mem.l2 = s.mem.l2.map fun d => cs.foldl (fun d c => c.cleanedBy d) d := by
  induction cs generalizing s with
  | nil => exact (List.map_id _).symm
  | cons c cs ih => rw [List.foldl_cons, ih, s.l2_writeBackCopy, List.map_map]; rfl
theorem State.writeBacks_kept (cs : List L2Copy) (s : State) :
    ((cs.foldl State.writeBackCopy s).mem.l1, (cs.foldl State.writeBackCopy s).groups, (cs.foldl State.writeBackCopy s).iss,
      (cs.foldl State.writeBackCopy s).epoch) = (s.mem.l1, s.groups, s.iss, s.epoch) :=
  foldl_keeps (p := fun u : State => (u.mem.l1, u.groups, u.iss, u.epoch)) State.writeBackCopy_kept cs s
theorem State.hbmByte_writeBacks_ne (cs : List L2Copy) (s : State) {x : Nat} (h : ∀ c ∈ cs, x ∉ c.dirty) :
    (cs.foldl State.writeBackCopy s).hbmByte x = s.hbmByte x := by
  induction cs generalizing s with
  | nil => rfl
  | cons c cs ih => exact (ih _ fun d hd => h d (by simp [hd])).trans (s.hbmByte_writeBackCopy_ne c (h c (by simp)))
/-- A byte that one copy alone holds dirty is written back as that copy holds it. -/
theorem State.hbmByte_writeBacks (cs : List L2Copy) (s : State) {c : L2Copy} (hc : c ∈ cs) {x : Nat} {v : Byte} (h : x ∈ c.dirty)
    (hwf : Mem.wf c.data = true) (hv : Mem.read c.data x = some v) (hone : ∀ d ∈ cs, x ∈ d.dirty → d = c) :
    (cs.foldl State.writeBackCopy s).hbmByte x = v := by
  induction cs generalizing s with
  | nil => cases hc
  | cons d cs ih =>
    by_cases hin : c ∈ cs
    · exact ih _ hin fun e he => hone e (by simp [he])
    · obtain rfl : c = d := (List.mem_cons.1 hc).resolve_right hin
      refine (State.hbmByte_writeBacks_ne cs _ fun e he hx => hin ?_).trans (s.hbmByte_writeBackCopy c h hwf hv)
      exact hone e (by simp [he]) hx ▸ he

/-- A copy after some write-backs: the same sector of the same die, for the same VD. -/
theorem L2Copy.cleanedBy_place (cs : List L2Copy) (d : L2Copy) :
    let e := cs.foldl (fun d c => L2Copy.cleanedBy c d) d
    (e.die, e.sector, e.vd, e.dieCoh) = (d.die, d.sector, d.vd, d.dieCoh) :=
  foldl_keeps (p := fun d : L2Copy => (d.die, d.sector, d.vd, d.dieCoh)) (fun d c => by unfold L2Copy.cleanedBy; split_ifs <;> rfl) cs d
/-- Copies elsewhere stay as they are. -/
theorem L2Copy.cleanedBy_other (cs : List L2Copy) (d : L2Copy) (h : ∀ c ∈ cs, ¬(d.die = c.die ∧ d.sector = c.sector)) :
    cs.foldl (fun d c => L2Copy.cleanedBy c d) d = d := by
  induction cs with
  | nil => rfl
  | cons c cs ih =>
    have hd : c.cleanedBy d = d := by
      have := h c (by simp)
      unfold L2Copy.cleanedBy
      split
      · rfl
      · rw [if_neg (by simpa using this)]
    rw [List.foldl_cons, hd]
    exact ih fun e he => h e (by simp [he])
theorem L2Copy.cleanedBy_clean (c : L2Copy) {d : L2Copy} (h : d.dirty = [] ∧ d.pdirty = false) :
    (c.cleanedBy d).dirty = [] ∧ (c.cleanedBy d).pdirty = false := by
  unfold L2Copy.cleanedBy
  split_ifs
  · exact h
  · exact ⟨rfl, rfl⟩
  · exact h
/-- A copy that is itself written back is clean afterwards. -/
theorem L2Copy.cleanedBy_self (cs : List L2Copy) (d : L2Copy) (h : d ∈ cs ∨ d.dirty = [] ∧ d.pdirty = false) :
    (cs.foldl (fun d c => L2Copy.cleanedBy c d) d).dirty = [] ∧ (cs.foldl (fun d c => L2Copy.cleanedBy c d) d).pdirty = false := by
  induction cs generalizing d with
  | nil => exact h.resolve_left (List.not_mem_nil)
  | cons c cs ih =>
    refine ih (c.cleanedBy d) ?_
    rcases h with h | h
    · by_cases hc : c.cleanedBy d = d
      · rw [hc]
        rcases List.mem_cons.1 h with rfl | h
        · right
          unfold L2Copy.cleanedBy at hc
          split_ifs at hc with hclean hplace
          · simpa using hclean
          · rw [← hc]; exact ⟨rfl, rfl⟩
          · simp at hplace
        · exact .inl h
      · right
        unfold L2Copy.cleanedBy at hc ⊢
        split_ifs at hc ⊢
        · exact absurd rfl hc
        · exact ⟨rfl, rfl⟩
        · exact absurd rfl hc
    · exact .inr (c.cleanedBy_clean h)

/-! ## CMNT.wb and CMNT.inv (R251, R267) -/

/-- The maintenance of the sectors that `hit` picks, for the agents of a core and a VD: write-back, and with `inv` no copy remains. -/
noncomputable def State.maintained (s : State) (core vd : Nat) (hit : Nat → Bool) (inv : Bool) : State :=
  let s := s.writeBack (dieOf core) vd hit
  if inv then
    s.setMem fun m => { m with l2 := m.l2.filter fun c => !(c.die == dieOf core && c.vd == vd && hit c.sector),
                               l1 := m.l1.filter fun c => !(c.core == core && c.vd == vd && hit c.sector) }
  else s

/-- The copies that a write-back picks. -/
noncomputable def State.picked (s : State) (core vd : Nat) (hit : Nat → Bool) : List L2Copy :=
  s.mem.l2.filter fun c => c.die == dieOf core && c.dieCoh && c.vd == vd && hit c.sector
theorem State.mem_picked {s : State} {core vd : Nat} {hit : Nat → Bool} {c : L2Copy} :
    c ∈ s.picked core vd hit ↔ c ∈ s.mem.l2 ∧ c.die = dieOf core ∧ c.vd = vd ∧ c.dieCoh = true ∧ hit c.sector = true := by
  unfold State.picked
  rw [List.mem_filter]
  simp only [Bool.and_eq_true, beq_iff_eq]
  tauto

section
variable (s : State) (core vd : Nat) (hit : Nat → Bool) (inv : Bool)

theorem State.maintained_frame :
    (s.maintained core vd hit inv).iss = s.iss ∧ (s.maintained core vd hit inv).groups = s.groups := by
  have h := State.writeBacks_kept (s.picked core vd hit) s
  unfold State.maintained
  split
  · exact ⟨congrArg (fun p => p.2.2.1) h, congrArg (fun p => p.2.1) h⟩
  · exact ⟨congrArg (fun p => p.2.2.1) h, congrArg (fun p => p.2.1) h⟩
theorem State.hbmByte_maintained (x : Nat) :
    (s.maintained core vd hit inv).hbmByte x = ((s.picked core vd hit).foldl State.writeBackCopy s).hbmByte x := by
  unfold State.maintained
  split <;> rfl
/-- A copy after the maintenance is one that it may have cleaned, and with `inv` none of the VD's in the range. -/
theorem State.mem_l2_maintained {c : L2Copy} :
    c ∈ (s.maintained core vd hit inv).mem.l2 ↔
      (∃ d ∈ s.mem.l2, (s.picked core vd hit).foldl (fun d c => L2Copy.cleanedBy c d) d = c) ∧
        (inv = true → ¬(c.die = dieOf core ∧ c.vd = vd ∧ hit c.sector = true)) := by
  have hl2 := State.l2_writeBacks (s.picked core vd hit) s
  have hmap : c ∈ (s.writeBack (dieOf core) vd hit).mem.l2 ↔ ∃ d ∈ s.mem.l2, (s.picked core vd hit).foldl (fun d c => L2Copy.cleanedBy c d) d = c := by
    show c ∈ ((s.picked core vd hit).foldl State.writeBackCopy s).mem.l2 ↔ _
    rw [hl2, List.mem_map]
  unfold State.maintained
  induction inv with
  | false => simpa using hmap
  | true =>
    rw [← hmap]
    show c ∈ (s.writeBack (dieOf core) vd hit).mem.l2.filter _ ↔ _
    rw [List.mem_filter]
    simp only [Bool.not_eq_true', ← Bool.not_eq_true, Bool.and_eq_true, beq_iff_eq, and_assoc, forall_const]
theorem State.mem_l1_maintained {c : L1Copy} :
    c ∈ (s.maintained core vd hit inv).mem.l1 ↔ c ∈ s.mem.l1 ∧ (inv = true → ¬(c.core = core ∧ c.vd = vd ∧ hit c.sector = true)) := by
  have hl1 : (s.writeBack (dieOf core) vd hit).mem.l1 = s.mem.l1 := congrArg (fun p => p.1) (State.writeBacks_kept (s.picked core vd hit) s)
  unfold State.maintained
  induction inv with
  | false => simp [hl1]
  | true =>
    show c ∈ (s.writeBack (dieOf core) vd hit).mem.l1.filter _ ↔ _
    rw [List.mem_filter, hl1]
    simp only [Bool.not_eq_true', ← Bool.not_eq_true, Bool.and_eq_true, beq_iff_eq, and_assoc, forall_const]
/-- Copies of the other die or outside the range stay. -/
theorem State.mem_l2_maintained_other {c : L2Copy} (h : ¬(c.die = dieOf core ∧ hit c.sector = true)) :
    c ∈ (s.maintained core vd hit inv).mem.l2 ↔ c ∈ s.mem.l2 := by
  rw [State.mem_l2_maintained]
  have hplace := fun d => L2Copy.cleanedBy_place (s.picked core vd hit) d
  have hother : ∀ d : L2Copy, d.die = c.die → d.sector = c.sector → (s.picked core vd hit).foldl (fun d c => L2Copy.cleanedBy c d) d = d := by
    intro d hdie hsec
    refine L2Copy.cleanedBy_other _ d fun e he hd => h ?_
    obtain ⟨-, hedie, -, -, hehit⟩ := State.mem_picked.1 he
    exact ⟨by rw [← hdie, hd.1, hedie], by rw [← hsec, hd.2, hehit]⟩
  constructor
  · rintro ⟨⟨d, hd, rfl⟩, -⟩
    have hp := hplace d
    simp only [Prod.mk.injEq] at hp
    rwa [hother d hp.1.symm hp.2.1.symm]
  · intro hc
    exact ⟨⟨c, hc, hother c rfl rfl⟩, fun _ hx => h ⟨hx.1, hx.2.2⟩⟩
/-- The write-back leaves the VD's die-coherent copies in the range clean. -/
theorem State.clean_maintained {c : L2Copy} (hc : c ∈ (s.maintained core vd hit false).mem.l2) (hdie : c.die = dieOf core) (hvd : c.vd = vd)
    (hcoh : c.dieCoh = true) (hhit : hit c.sector = true) : c.dirty = [] ∧ c.pdirty = false := by
  obtain ⟨⟨d, hd, rfl⟩, -⟩ := (s.mem_l2_maintained core vd hit false).1 hc
  have hp := L2Copy.cleanedBy_place (s.picked core vd hit) d
  simp only [Prod.mk.injEq] at hp
  obtain ⟨hpdie, hpsec, hpvd, hpcoh⟩ := hp
  exact L2Copy.cleanedBy_self _ d (.inl (State.mem_picked.2 ⟨hd, hpdie ▸ hdie, hpvd ▸ hvd, hpcoh ▸ hcoh, hpsec ▸ hhit⟩))

end

/-- The sectors of a range, as the maintenance asks for them. -/
noncomputable def hitIn (rs : List (Nat × Nat)) (c : Nat) : Bool := rs.any fun r => decide (r.1 ≤ c) && decide (c ≤ r.2)
theorem hitIn_iff {rs : List (Nat × Nat)} {c : Nat} : hitIn rs c = true ↔ ∃ e ∈ rs, e.1 ≤ c ∧ c ≤ e.2 := by
  simp [hitIn]

/-- How far a CMNT goes in this turn, in lines (R251). -/
noncomputable def Issue.lineEnd (i : Issue) (total : Nat) : Nat := match i.stop with | some k => min total (i.pi.toNat + k) | none => total
/-- The state of a CMNT at the end of its lines. -/
noncomputable def State.maintainedTo (s : State) (lo n upto : Nat) (inv : Bool) : State :=
  let lo' := max lo ((lo / 1024 + s.iss.pi.toNat) * 1024)
  let r := s.settleStores s.iss.key
  r.maintained r.grp.core r.grp.vd (hitIn (r.rangeSectors lo' (min (lo + n) ((lo / 1024 + upto) * 1024) - lo'))) inv

/-- A CMNT whose operands are clean. -/
theorem State.maintain_eq (s : State) (o : Ops) (inv : Bool) (h : s.iss.act ≠ 0) (ha : (s.uniA o).tag = .clean) (hb : (s.uniB o).tag = .clean) :
    let lo := (s.uniA o).val.toNat
    let n := (s.uniB o).val.toNat
    let total := (lo + n - 1) / 1024 - lo / 1024 + 1
    let upto := s.iss.lineEnd total
    let v := s.maintainedTo lo n upto inv
    s.maintain o inv =
      if n ≠ 0 ∧ (2 ^ 36 < n ∨ 2 ^ 56 < lo + n) then s.trap (xlateCause lo (lowLane s.iss.act) 1 0 false) .fresh
      else if n = 0 then s.finish
      else if upto < total then v.hold { kind := .resource } v.iss.act (BitVec.ofNat 32 upto) else v.finish := by
  have hclean : ∀ x ∈ [(s.uniA o).consumed o.a s.iss.act, (s.uniB o).consumed o.b s.iss.act], (x.dp ||| x.fp) &&& x.lanes = 0 := by
    intro x hx
    rcases List.mem_cons.1 hx with rfl | hx
    · exact SReg.consumed_clean ha _ _
    · rw [List.mem_singleton.1 hx]
      exact SReg.consumed_clean hb _ _
  unfold State.maintain
  refine (State.ifActive_eq _ _ h).trans ?_
  exact State.consume_clean hclean

end Sys2Proof.Machine
end

section
/-! PROOF. The statement on fences and cache maintenance: O32. -/
namespace Sys2Proof.Machine

section
variable (s : State) (o : Ops) (inv : Bool) (lo n : Nat)

/-- The sectors of the range that a CMNT has yet to maintain. -/
noncomputable def State.restSectors : List (Nat × Nat) :=
  let lo' := max lo ((lo / 1024 + s.iss.pi.toNat) * 1024)
  (s.settleStores s.iss.key).rangeSectors lo' (lo + n - lo')
/-- What a whole CMNT leaves before it finishes. -/
noncomputable def State.maintainedAll : State := (s.settleStores s.iss.key).maintained s.grp.core s.grp.vd (hitIn (s.restSectors lo n)) inv

/-- A CMNT that nothing stops ends at the end of its range. -/
theorem State.maintain_whole (hact : s.iss.act ≠ 0) (ha : (s.uniA o).tag = .clean) (hb : (s.uniB o).tag = .clean) (hlo : (s.uniA o).val.toNat = lo)
    (hn : (s.uniB o).val.toNat = n) (hpos : n ≠ 0) (hlen : n ≤ 2 ^ 36) (hwin : lo + n ≤ 2 ^ 56) (hstop : s.iss.stop = none) :
    s.maintain o inv = (s.maintainedAll inv lo n).finish := by
  subst hlo hn
  generalize hl : (s.uniA o).val.toNat = lo at *
  generalize hm : (s.uniB o).val.toNat = n at *
  have hupto : s.iss.lineEnd ((lo + n - 1) / 1024 - lo / 1024 + 1) = (lo + n - 1) / 1024 - lo / 1024 + 1 := by unfold Issue.lineEnd; rw [hstop]
  have hend : min (lo + n) ((lo / 1024 + ((lo + n - 1) / 1024 - lo / 1024 + 1)) * 1024) = lo + n := by
    have hle : lo / 1024 ≤ (lo + n - 1) / 1024 := Nat.div_le_div_right (Nat.le_sub_one_of_lt (Nat.lt_add_of_pos_right (Nat.pos_of_ne_zero hpos)))
    rw [← Nat.add_assoc, Nat.add_sub_cancel' hle, Nat.mul_comm]
    exact Nat.min_eq_left (Nat.le_of_pred_lt (Nat.lt_mul_div_succ _ (by decide)))
  have hs := s.settles_settleStores
  have hall : s.maintainedTo lo n ((lo + n - 1) / 1024 - lo / 1024 + 1) inv = s.maintainedAll inv lo n := by
    unfold State.maintainedTo State.maintainedAll State.restSectors
    dsimp only
    rw [hend, hs.core, hs.vd]
  have heq := s.maintain_eq o inv hact ha hb
  simp only [hl, hm] at heq
  rw [heq, if_neg fun h => h.2.elim hlen.not_gt hwin.not_gt, if_neg hpos, hupto, if_neg (Nat.lt_irrefl _), hall]
/-- A CMNT that its turn stops after `k` more lines waits. -/
theorem State.maintain_stopped (k : Nat) (hact : s.iss.act ≠ 0) (ha : (s.uniA o).tag = .clean) (hb : (s.uniB o).tag = .clean)
    (hlo : (s.uniA o).val.toNat = lo) (hn : (s.uniB o).val.toNat = n) (hpos : n ≠ 0) (hlen : n ≤ 2 ^ 36) (hwin : lo + n ≤ 2 ^ 56)
    (hstop : s.iss.stop = some k) (hk : s.iss.pi.toNat + k < (lo + n - 1) / 1024 - lo / 1024 + 1) :
    let v := s.maintainedTo lo n (s.iss.pi.toNat + k) inv
    s.maintain o inv = v.hold { kind := .resource } v.iss.act (BitVec.ofNat 32 (s.iss.pi.toNat + k)) := by
  have hupto : s.iss.lineEnd ((lo + n - 1) / 1024 - lo / 1024 + 1) = s.iss.pi.toNat + k := by
    unfold Issue.lineEnd
    rw [hstop]
    exact Nat.min_eq_right hk.le
  have heq := s.maintain_eq o inv hact ha hb
  simp only [hlo, hn] at heq
  rw [heq, if_neg fun h => h.2.elim hlen.not_gt hwin.not_gt, if_neg hpos, hupto, if_pos hk]
theorem State.grp_maintainedTo (upto : Nat) : (s.maintainedTo lo n upto inv).grp = (s.settleStores s.iss.key).grp := by
  obtain ⟨hi, hg⟩ := (s.settleStores s.iss.key).maintained_frame (s.settleStores s.iss.key).grp.core (s.settleStores s.iss.key).grp.vd
    (hitIn ((s.settleStores s.iss.key).rangeSectors (max lo ((lo / 1024 + s.iss.pi.toNat) * 1024))
      (min (lo + n) ((lo / 1024 + upto) * 1024) - max lo ((lo / 1024 + s.iss.pi.toNat) * 1024)))) inv
  unfold State.grp
  exact congrArg₂ (mget {}) hg (congrArg Issue.key hi)
theorem State.hold_spec (w : Wait) (pend pi : Word) : (s.hold w pend pi).grp.pi = pi ∧ (s.hold w pend pi).grp.pcs = s.grp.pcs := by
  unfold State.hold
  rw [State.grp_updGrp]
  split <;> exact ⟨rfl, rfl⟩

theorem State.wroteFrom_maintainedAll : s.WroteFrom (s.settleStores s.iss.key) (s.maintainedAll inv lo n).finish [] [] := by
  obtain ⟨hi, hg⟩ := (s.settleStores s.iss.key).maintained_frame s.grp.core s.grp.vd (hitIn (s.restSectors lo n)) inv
  exact s.settles_settleStores.wroteFrom hi hg

/-- A copy that a CMNT maintains: of the group's die and VD, die-coherent, in the range. -/
noncomputable def State.maintains (c : L2Copy) : Prop :=
  c.die = dieOf s.grp.core ∧ c.vd = s.grp.vd ∧ c.dieCoh = true ∧ ∃ e ∈ s.restSectors lo n, e.1 ≤ c.sector ∧ c.sector ≤ e.2
theorem State.mem_picked_rest {c : L2Copy} :
    c ∈ (s.settleStores s.iss.key).picked s.grp.core s.grp.vd (hitIn (s.restSectors lo n)) ↔
      c ∈ (s.settleStores s.iss.key).mem.l2 ∧ s.maintains lo n c := by
  rw [State.mem_picked, State.maintains, hitIn_iff]

/-- The bytes and copies after a whole CMNT. -/
theorem State.written_maintainedAll :
    let r := s.settleStores s.iss.key
    let t := (s.maintainedAll inv lo n).finish
    let inRange (c : Nat) : Prop := ∃ e ∈ s.restSectors lo n, e.1 ≤ c ∧ c ≤ e.2
    (∀ x, (∀ c ∈ r.mem.l2, s.maintains lo n c → x ∉ c.dirty) → t.hbmByte x = r.hbmByte x) ∧
    (∀ c ∈ r.mem.l2, s.maintains lo n c → ∀ x v, x ∈ c.dirty → Mem.wf c.data = true → Mem.read c.data x = some v →
      (∀ d ∈ r.mem.l2, x ∈ d.dirty → d = c) → t.hbmByte x = v) ∧
    (∀ c, ¬(c.die = dieOf s.grp.core ∧ inRange c.sector) → (c ∈ t.mem.l2 ↔ c ∈ r.mem.l2)) ∧
    (∀ c, ¬inRange c.sector → (c ∈ t.mem.l1 ↔ c ∈ r.mem.l1)) := by
  intro r t inRange
  have hbyte : ∀ x, t.hbmByte x = _ := fun x => r.hbmByte_maintained s.grp.core s.grp.vd (hitIn (s.restSectors lo n)) inv x
  have hpicked : ∀ {c}, c ∈ r.picked s.grp.core s.grp.vd (hitIn (s.restSectors lo n)) → c ∈ r.mem.l2 ∧ s.maintains lo n c :=
    fun hc => (s.mem_picked_rest lo n).1 hc
  refine ⟨fun x hx => ?_, fun c hc hm x y hx hwf hy hone => ?_, fun c hout => ?_, fun c hout => ?_⟩
  · rw [hbyte]
    exact State.hbmByte_writeBacks_ne _ r fun c hc => hx c (hpicked hc).1 (hpicked hc).2
  · rw [hbyte]
    exact State.hbmByte_writeBacks _ r ((s.mem_picked_rest lo n).2 ⟨hc, hm⟩) hx hwf hy fun d hd hxd => hone d (hpicked hd).1 hxd
  · exact r.mem_l2_maintained_other _ _ _ inv fun h => hout ⟨h.1, hitIn_iff.1 h.2⟩
  · exact (r.mem_l1_maintained _ _ _ inv).trans (and_iff_left fun _ h => hout (hitIn_iff.1 h.2.2))
/-- A write-back alone leaves the copies it maintains clean, and no L1 changed. -/
theorem State.clean_maintainedAll {c : L2Copy} (hc : c ∈ (s.maintainedAll false lo n).mem.l2) (hm : s.maintains lo n c) : c.dirty = [] ∧ c.pdirty = false := by
  obtain ⟨hdie, hvd, hcoh, hin⟩ := hm
  exact (s.settleStores s.iss.key).clean_maintained _ _ _ hc hdie hvd hcoh (hitIn_iff.2 hin)
theorem State.l1_maintainedAll : (s.maintainedAll false lo n).mem.l1 = (s.settleStores s.iss.key).mem.l1 :=
  congrArg (fun p => p.1) (State.writeBacks_kept ((s.settleStores s.iss.key).picked s.grp.core s.grp.vd (hitIn (s.restSectors lo n))) _)
/-- An invalidation leaves no copy of the VD in the range. -/
theorem State.dropped_l2 {c : L2Copy} (hc : c ∈ (s.maintainedAll true lo n).mem.l2) (hdie : c.die = dieOf s.grp.core) (hvd : c.vd = s.grp.vd) :
    ¬∃ e ∈ s.restSectors lo n, e.1 ≤ c.sector ∧ c.sector ≤ e.2 :=
  fun hin => (((s.settleStores s.iss.key).mem_l2_maintained _ _ _ true).1 hc).2 rfl ⟨hdie, hvd, hitIn_iff.2 hin⟩
theorem State.dropped_l1 {c : L1Copy} (hc : c ∈ (s.maintainedAll true lo n).mem.l1) (hcore : c.core = s.grp.core) (hvd : c.vd = s.grp.vd) :
    ¬∃ e ∈ s.restSectors lo n, e.1 ≤ c.sector ∧ c.sector ≤ e.2 :=
  fun hin => (((s.settleStores s.iss.key).mem_l1_maintained _ _ _ true).1 hc).2 rfl ⟨hcore, hvd, hitIn_iff.2 hin⟩

end

/-- Settles O32: what FENCE ends with is `fence_spec`, CMNT.l1 `cmntL1_spec`; a CMNT.wb or .inv runs as `State.maintain_eq` says, to the
state `State.maintainedAll` where nothing stops it. -/
theorem fencesAndMaintenance : Obligations.FencesAndMaintenance := by
  unfold Obligations.FencesAndMaintenance
  intro sc od o s _ hact
  have hnext : ∀ {inv : Bool} {t : State}, s.maintain o inv = t → (Host.Outcome.next (s.maintain o inv) : Out) = .next t := fun h => congrArg _ h
  refine ⟨⟨_, exec_fence sc od o s hact, fence_spec sc od s⟩, cmntL1_spec o s hact, fun hc hn => ?_, fun hc hbad => ?_, fun hc hn hlen hwin hstop => ?_,
    fun k hc hn hlen hwin hstop hk _ => ?_⟩
  · have hfin : ∀ inv, s.maintain o inv = s.finish := fun inv =>
      (s.maintain_eq o inv hact hc.1 hc.2).trans ((if_neg fun h => h.1 hn).trans (if_pos hn))
    exact ⟨hnext (hfin false), hnext (hfin true)⟩
  · have htrap : ∀ inv, s.maintain o inv = s.trap _ .fresh := fun inv => (s.maintain_eq o inv hact hc.1 hc.2).trans
      (if_pos (hbad.elim (fun h => ⟨(Nat.zero_lt_of_lt h).ne', .inl h⟩) fun h => ⟨h.1, .inr h.2⟩))
    exact ⟨hnext (htrap false), hnext (htrap true)⟩
  · have hrun : ∀ inv, s.maintain o inv = _ := fun inv => s.maintain_whole o inv _ _ hact hc.1 hc.2 rfl rfl hn hlen hwin hstop
    exact ⟨⟨_, hnext (hrun false), s.wroteFrom_maintainedAll false _ _, s.written_maintainedAll false _ _, s.l1_maintainedAll _ _,
        fun c hmem hm => s.clean_maintainedAll _ _ hmem hm⟩,
      _, hnext (hrun true), s.wroteFrom_maintainedAll true _ _, s.written_maintainedAll true _ _,
      fun c hmem hdie hvd => s.dropped_l2 _ _ hmem hdie hvd, fun c hmem hcore hvd => s.dropped_l1 _ _ hmem hcore hvd⟩
  · have hrun : ∀ inv, s.maintain o inv = _ := fun inv => s.maintain_stopped o inv _ _ k hact hc.1 hc.2 rfl rfl hn hlen hwin hstop hk
    have hkept : ∀ inv, _ := fun inv => congrArg Group.pcs (s.grp_maintainedTo inv (s.uniA o).val.toNat (s.uniB o).val.toNat (s.iss.pi.toNat + k))
    exact ⟨⟨_, hnext (hrun false), (State.hold_spec _ _ _ _).1, (State.hold_spec _ _ _ _).2.trans (hkept false)⟩,
      _, hnext (hrun true), (State.hold_spec _ _ _ _).1, (State.hold_spec _ _ _ _).2.trans (hkept true)⟩

end Sys2Proof.Machine
end

section
/-! PROOF. A poisoned ST to host memory (O29). -/
namespace Sys2Proof.Machine

/-- The state of `beforeHostStore` with data-poison in lane 0 of v0 as well. -/
def beforeHostLanes : State :=
  { beforeHostStore with groups := [(1, { v := [(0, ⟨.uniform 0, 1, 0⟩)], pcs := List.replicate 32 (some 0x100) })] }
/-- An ST of v0 to address 0x1000. -/
def stToHost : Ops := { sstToHost with b := .v 0 }
/-- The access that the statement gives an ST of 32 bits. -/
def hostLaneStore : Access := { n := 4, acc := 1, sc := .core, acq := false, rel := false, score := true }
theorem ready_beforeHostLanes :
    beforeHostLanes.Ready hostLaneStore
      (beforeHostLanes.addrConsumed stToHost true 1 ++ [beforeHostLanes.dataConsumed (beforeHostLanes.srcBfield stToHost false) stToHost.b 1])
      (beforeHostLanes.lanesEa stToHost false fun _ => 4) (fun _ _ _ => none) [(0, hostPlace)] beforeHostLanes where
  lanes := by decide
  fresh := by decide
  whole := by decide
  dst := by decide
  clean := by decide +kernel
  admits := by
    intro l hl hact
    obtain rfl : l = 0 := by
      revert hl hact
      revert l
      decide
    exact ⟨by decide +kernel, by decide +kernel, by decide +kernel⟩
  still := by decide +kernel
  idle := by decide +kernel
  reached := ⟨hostPlace, beforeHostLanes, [], by decide +kernel, rfl, rfl, rfl, rfl⟩

theorem hostSectorPoisoned_beforeHostLanes :
    hostSectorPoisoned (exec (.st .b32 .none .core .rlx false stToHost) beforeHostLanes) = some false := by decide +kernel

/-- Refutes O29: of host memory a queued store poisons bytes and not sectors (`QStore.ofLanes`, R252), so of the sector that
a poisoned lane of an ST to host memory touches, the queue says nothing, where `Marks` has it poisoned. -/
theorem not_laneStores : ¬ Obligations.LaneStores := by
  unfold Obligations.LaneStores
  intro h
  obtain ⟨hst, -⟩ := h .b32 .none .core .rlx .rn false false false stToHost beforeHostLanes beforeHostLanes [(0, hostPlace)]
  obtain ⟨t, ht, -, -, hqueue⟩ := hst ready_beforeHostLanes
  obtain ⟨-, hmarks⟩ := hqueue (by simp [OneClass])
  have hpoisoned : queuedPoison t.grp.sq .host 16 false = true :=
    (hmarks .host 16 false).2 (.inl ⟨_, List.mem_singleton.2 rfl, rfl, by decide +kernel, 0, by decide +kernel, by decide +kernel⟩)
  have hclean := hostSectorPoisoned_beforeHostLanes
  rw [ht, hostSectorPoisoned, hpoisoned] at hclean
  exact absurd hclean (by decide)

end Sys2Proof.Machine
end

section
/-! PROOF. An MWAIT whose team has no window on record (O42). -/
namespace Sys2Proof.Machine

/-- Group 2, of the matrix role, has a window of register 0, and has written it while it was closed. -/
def hitWindow : Group := { role := .matrix, win := [(0, 1, 0)], winHit := [0] }
/-- Group 1, the stream of team 0, issues; the team's queue and its own list of windows are empty. -/
def beforeMwait : State :=
  { State.reset with
    teams := [(0, {})]
    groups := [(1, { role := .stream }), (2, hitWindow)]
    iss := { key := 1, pc := 0x100, npc := 0x104, xm := 1, act := 1, pend := 1 } }

/-- How many registers group 2 holds after an instruction. -/
def memberRegisters (r : Out) : Option Nat :=
  match r with
  | .next t => some (mget {} t.groups 2).v.length
  | _ => none
theorem memberRegisters_beforeMwait : memberRegisters (exec (.mwait .blank) beforeMwait) = some 1 := by decide +kernel

/-- Refutes O42: MWAIT opens the windows that the groups hold (`State.releaseWindows`, R241), and not those that the team has on
record: with none on record and one held that was written while closed, the member's register takes undefined words (R87),
where the statement has every register of every other group kept. -/
theorem not_matrixStream : ¬ Obligations.MatrixStream := by
  unfold Obligations.MatrixStream
  intro h
  obtain ⟨-, -, -, -, hmwait, -⟩ :=
    h .f32 .bf16 .bf16 false false false false 0 false false false 0 .blank .blank beforeMwait ⟨by decide +kernel, by decide +kernel⟩
  obtain ⟨t, ht, -, hregs, -⟩ := hmwait rfl rfl
  obtain ⟨hv, -⟩ := hregs 2 (by decide)
  have hkept : memberRegisters (exec (.mwait .blank) beforeMwait) = some 0 := by
    rw [ht, memberRegisters, hv]
    rfl
  rw [memberRegisters_beforeMwait] at hkept
  exact absurd hkept (by decide)

end Sys2Proof.Machine
end

section
/-! PROOF. A lane access that goes ahead in every active lane is one pass, and finishes (R248 to R251). -/
namespace Sys2Proof.Machine

/-! ## The lanes of a pass -/

/-- Lanes that all reach memory are located in order. -/
theorem Reached.located {m : Access} {refuse : Nat → Nat → Loc → Option Pending} {eas : Nat → Nat} {xs : List Nat} {s u : State} {ls : List (Nat × Loc)}
    (h : Reached m refuse (xs.map fun l => (l, eas l)) s ls u) (acc : List (Nat × LaneAt)) :
    xs.foldl (locateLane m eas refuse []) (acc, s) = (acc ++ ls.map fun e => (e.1, .ok e.2), u) := by
  induction xs generalizing s ls acc with
  | nil =>
    obtain ⟨rfl, rfl⟩ := h
    simp
  | cons x xs ih =>
    obtain ⟨loc, r, rest, hloc, href, rfl, hrest⟩ := h
    have hx : locateLane m eas refuse [] (acc, s) x = (acc ++ [(x, .ok loc)], r) := by
      simp only [locateLane, List.find?_nil, hloc, href]
    rw [List.foldl_cons, hx, ih hrest]
    simp
theorem Reached.lanes {m : Access} {refuse : Nat → Nat → Loc → Option Pending} {xs : List (Nat × Nat)} {s u : State} {ls : List (Nat × Loc)}
    (h : Reached m refuse xs s ls u) : ls.map (·.1) = xs.map (·.1) := by
  induction xs generalizing s ls with
  | nil => rw [h.1]; rfl
  | cons x xs ih =>
    obtain ⟨loc, r, rest, -, -, rfl, hrest⟩ := h
    simp [ih hrest]
theorem okLanes_map (ls : List (Nat × Loc)) : okLanes (ls.map fun e => (e.1, .ok e.2)) = ls := by
  unfold okLanes
  rw [List.filterMap_map]
  exact List.filterMap_some
/-- The lanes of some accesses are those of a mask. -/
theorem laneMask_eq {ls : List (Nat × Loc)} {act : Word} (h : ls.map (·.1) = lanesOf act) : laneMask ls = act := by
  refine BitVec.eq_of_getLsbD_eq fun l hl => ?_
  have hmem : (ls.any fun e => e.1 == l) = act.getLsbD l := by
    rw [Bool.eq_iff_iff, List.any_eq_true]
    have hl' := @mem_lanesOf act l
    rw [← h, List.mem_map] at hl'
    simpa [hl] using hl'
  rw [laneMask, getLsbD_maskOf, hmem]
  simp [hl]

/-! ## The end of a pass -/

/-- What a deferring load does where no request waits: nothing. -/
theorem State.deferEntered_idle (s : State) (dst : List Nat) (h : s.groupReqs s.iss.key = []) :
    (s.deferEntered dst).1 = { s with vds := mset s.vds s.grp.vd (s.vd s.grp.vd) } := by
  unfold State.deferEntered
  rw [h]
  simp only [List.filter_nil, List.foldl_nil, List.contains_nil, Bool.false_eq_true, if_false, List.map_id']
  rfl
/-- Of lanes that reached memory, none faults, waits or is refused. -/
theorem filterMap_ok {β : Type} (ls : List (Nat × Loc)) (f : Nat × LaneAt → Option β) (hf : ∀ l loc, f (l, .ok loc) = none) :
    (ls.map fun e => ((e.1, .ok e.2) : Nat × LaneAt)).filterMap f = [] := by
  simp [List.filterMap_map, hf]
/-- After a pass whose lanes all reached memory nothing is left, and the instruction finishes. -/
theorem State.passEnd_ok (s : State) (m : Access) (act : Word) (eas : Nat → Nat) {ls : List (Nat × Loc)} (h : ls.map (·.1) = lanesOf act) :
    s.passEnd m 0 act eas (ls.map fun e => (e.1, .ok e.2)) = (if m.defer then s.deferEntered m.dst else (s, 0)).1.finish := by
  have hdone : ∀ d : Word, act &&& ~~~((maskOf fun l => ls.any fun e => e.1 == l) ||| d) = 0 := by
    intro d
    have hmask : (maskOf fun l => ls.any fun e => e.1 == l) = act := laneMask_eq h
    rw [hmask]
    refine BitVec.eq_of_getLsbD_eq fun l hl => ?_
    simp only [BitVec.getLsbD_and, BitVec.getLsbD_not, BitVec.getLsbD_or, hl]
    cases act.getLsbD l <;> simp
  unfold State.passEnd
  rw [okLanes_map, filterMap_ok]
  · dsimp only
    exact if_pos (hdone _)
  · exact fun _ _ => rfl

/-! ## A ready access -/

theorem and_pend_self {act pend pi : Word} (hpend : act &&& ~~~pend = 0) (hpi : pi = 0) : act &&& pend &&& ~~~pi = act := by
  subst hpi
  refine BitVec.eq_of_getLsbD_eq fun i hi => ?_
  have := congrArg (·.getLsbD i) hpend
  simp only [BitVec.getLsbD_and, BitVec.getLsbD_not, hi] at this ⊢
  cases ha : act.getLsbD i <;> simp_all
/-- Addresses that all pass the checks of R248 fail none. -/
theorem State.checkEas_none {s : State} {m : Access} {es : List (Nat × Nat)} (h : ∀ e ∈ es, s.Admits m e.2) : s.checkEas m es = none := by
  have haligned : (if m.aligned then es.find? fun e => e.2 % m.n != 0 else none) = none := by
    split
    · rename_i hm
      exact List.find?_eq_none.2 fun e he => by simp [(h e he).aligned hm]
    · rfl
  have hwindow : (es.find? fun e => !m.win.takes (windowOfN e.2 m.n)) = none := List.find?_eq_none.2 fun e he => by simp [(h e he).window]
  have hbounds : (es.find? fun e => (s.boundCode e.2 m.n).isSome) = none := List.find?_eq_none.2 fun e he => by simp [(h e he).bounds]
  unfold State.checkEas
  rw [haligned]
  dsimp only
  rw [hwindow]
  dsimp only
  rw [hbounds]
/-- An access that goes ahead in every active lane is one pass over them. -/
theorem State.Ready.laneMem {s u : State} {m : Access} {srcs : List Consumed} {eas : List Nat} {refuse : Nat → Nat → Loc → Option Pending}
    {ls : List (Nat × Loc)} (h : s.Ready m srcs eas refuse ls u) (perform : State → List (Nat × Loc) → State) :
    s.laneMem m srcs (eas.getD · 0) refuse perform =
      let v := u.performed s.iss.key m ls perform
      (if m.defer then v.deferEntered m.dst else (v, 0)).1.finish := by
  have hleft := and_pend_self h.fresh.1 h.fresh.2
  have hgo : (decide (s.iss.act = 0) || decide (s.iss.act &&& s.iss.pend &&& ~~~s.iss.pi = 0)) = false := lanes_left h.lanes h.fresh.1 h.fresh.2
  have hdst : (m.dst.find? fun d => decide (s.grp.ngen ≤ d) && (m.general || !s.grp.whole s.iss.act)) = none := by
    refine List.find?_eq_none.2 fun d hd => ?_
    rcases h.dst d hd with hfit | ⟨hgen, hwhole⟩
    · simp [Nat.not_le.2 hfit]
    · simp [hgen, hwhole]
  have hlocated : s.located m s.iss.act (eas.getD · 0) refuse = (ls.map fun e => (e.1, .ok e.2), u) := by
    have hpass : s.passLanes m s.iss.act = s.iss.act := by unfold State.passLanes; rw [h.whole]
    unfold State.located
    rw [hpass, h.idle]
    exact (h.reached.located []).trans (by rw [List.nil_append])
  have hlanes : ls.map (·.1) = lanesOf s.iss.act := h.reached.lanes.trans ((List.map_map ..).trans (List.map_id _))
  have hadmits : ∀ e ∈ (lanesOf s.iss.act).map fun l => (l, eas.getD l 0), s.Admits m e.2 := by
    intro e he
    obtain ⟨l, hl, rfl⟩ := List.mem_map.1 he
    exact h.admits l (mem_lanesOf.1 hl).1 (mem_lanesOf.1 hl).2
  unfold State.laneMem
  dsimp only
  rw [if_neg (by rw [hgo]; decide), hdst]
  dsimp only
  rw [State.consume_clean h.clean, hleft, State.checkEas_none hadmits]
  dsimp only
  rw [if_neg (by rw [h.still]; decide), h.fresh.2, State.pass_eq, hlocated, okLanes_map]
  exact State.passEnd_ok _ m _ _ hlanes

end Sys2Proof.Machine
end

section
/-! PROOF. What translations and copies taken into caches change: of the bytes, nothing but lines that a full L2 gives up (R213, R218, R326). -/
namespace Sys2Proof.Machine

/-! ## Copies taken -/

/-- `t` is `s` after translations, up to `k` copies taken into an L2, copies taken or dropped by L1s, and changes of groups. A copy that
is given up leaves its dirty bytes in the cistern. -/
structure State.Fills (k : Nat) (s t : State) : Prop where
  rest : t = { s with groups := t.groups, vds := t.vds, mem := t.mem, tlb := t.tlb, walkCache := t.walkCache, marks := t.marks, freeCtr := t.freeCtr }
  vds : ∀ j, t.vd j = s.vd j
  stores : (t.mem.host, t.mem.remote, t.mem.scratch, t.mem.tile, t.mem.side) = (s.mem.host, s.mem.remote, s.mem.scratch, s.mem.tile, s.mem.side)
  hbm : ∀ a, t.hbmByte a = s.hbmByte a ∨ Config.l2Lines < s.mem.l2.length + k ∧ ∃ c ∈ s.mem.l2, a ∈ c.dirty ∧ (a, t.hbmByte a) ∈ c.data
  dirty : ∀ c ∈ t.mem.l2, c.dirty ≠ [] → ∃ d ∈ s.mem.l2, d.dirty = c.dirty ∧ d.data = c.data
  size : t.mem.l2.length ≤ s.mem.l2.length + k

/-- What takes no copy into an L2 and writes no byte. -/
theorem State.Fills.of_rest {s t : State}
    (hrest : t = { s with groups := t.groups, vds := t.vds, mem := t.mem, tlb := t.tlb, walkCache := t.walkCache, marks := t.marks, freeCtr := t.freeCtr })
    (hvds : ∀ j, t.vd j = s.vd j)
    (hmem : t.mem = { s.mem with l1 := t.mem.l1, hbmPoison := t.mem.hbmPoison, found := t.mem.found, damaged := t.mem.damaged }) :
    State.Fills 0 s t where
  rest := hrest
  vds := hvds
  stores := by rw [hmem]
  hbm a := .inl (by unfold State.hbmByte; rw [hrest, hmem])
  dirty c hc _ := ⟨c, by rw [hmem] at hc; exact hc, rfl, rfl⟩
  size := by rw [hmem]; exact Nat.le_refl _
theorem State.Fills.refl (s : State) : State.Fills 0 s s := .of_rest rfl (fun _ => rfl) rfl
theorem State.Fills.trans {k j : Nat} {s t u : State} (h : State.Fills k s t) (g : State.Fills j t u) : State.Fills (k + j) s u where
  rest := by rw [g.rest, h.rest]
  vds n := (g.vds n).trans (h.vds n)
  stores := g.stores.trans h.stores
  hbm a := by
    rcases g.hbm a with hg | ⟨hfull, c, hc, ha, hdata⟩
    · rw [hg]
      exact (h.hbm a).imp_right fun ⟨hl, hx⟩ => ⟨hl.trans_le (Nat.add_le_add_left (Nat.le_add_right k j) _), hx⟩
    · obtain ⟨d, hd, hdirty, hdd⟩ := h.dirty c hc (List.ne_nil_of_mem ha)
      exact .inr ⟨(hfull.trans_le (Nat.add_le_add_right h.size j)).trans_eq (Nat.add_assoc ..), d, hd, hdirty ▸ ha, hdd ▸ hdata⟩
  dirty c hc hne := by
    obtain ⟨d, hd, hdirty, hdata⟩ := g.dirty c hc hne
    obtain ⟨e, he, hdirty', hdata'⟩ := h.dirty d hd (hdirty ▸ hne)
    exact ⟨e, he, hdirty'.trans hdirty, hdata'.trans hdata⟩
  size := (g.size.trans (Nat.add_le_add_right h.size j)).trans_eq (Nat.add_assoc ..)
theorem State.Fills.mono {k j : Nat} {s t : State} (h : State.Fills k s t) (hkj : k ≤ j) : State.Fills j s t :=
  { h with
    hbm := fun a => (h.hbm a).imp_right fun ⟨hl, hx⟩ => ⟨hl.trans_le (Nat.add_le_add_left hkj _), hx⟩
    size := h.size.trans (Nat.add_le_add_left hkj _) }
theorem State.Fills.foldl {α : Type} {k : Nat} {f : State → α → State} (xs : List α) (h : ∀ x ∈ xs, ∀ s : State, State.Fills k s (f s x)) (s : State) :
    State.Fills (k * xs.length) s (xs.foldl f s) := by
  induction xs generalizing s with
  | nil => exact .refl s
  | cons x xs ih => exact ((h x (by simp) s).trans (ih (fun y hy => h y (by simp [hy])) _)).mono (by rw [List.length_cons, Nat.mul_succ, Nat.add_comm])
/-- With at most 1,024 copies taken, what a load may do to the bytes. -/
theorem State.Fills.copiedBytes {k : Nat} {s t : State} (h : State.Fills k s t) (hk : k ≤ 1024) : s.CopiedBytes t := by
  have hs := h.stores
  simp only [Prod.mk.injEq] at hs
  obtain ⟨hhost, hremote, hscratch, htile, hside⟩ := hs
  have hbm : ∀ a, s.HbmKept t a := fun a => by
    rcases h.hbm a with hsame | ⟨hfull, hcopy⟩
    · exact .inl hsame
    · exact .inr ⟨fun hroom => absurd (hfull.trans_le (Nat.add_le_add_left hk _)) (Nat.not_lt.2 hroom), hcopy⟩
  exact ⟨hbm, fun a => by unfold State.hostByte; rw [hhost], fun a => by unfold State.remoteByte; rw [hremote],
    fun a => by unfold State.scratchByte; rw [hscratch], fun r c => by unfold State.tileByte; rw [htile],
    fun r c => by unfold State.sideByte; rw [hside]⟩

/-! ## The caches -/

theorem State.fills_meet (s : State) (vd : Option Nat) (secs : List Nat) : State.Fills 0 s (s.meet vd secs) := by
  unfold State.meet
  split
  · exact .refl s
  · exact .of_rest rfl (fun _ => rfl) rfl
theorem State.fills_l1Drop (s : State) (core : Nat) : State.Fills 0 s (s.l1Drop core) := .of_rest rfl (fun _ => rfl) rfl
theorem State.fills_acquire (s : State) (core : Nat) (sc : Scope) : State.Fills 0 s (s.acquire core sc) := by
  unfold State.acquire
  split
  · exact .refl s
  · exact s.fills_l1Drop core
theorem State.fills_l1Fill (s : State) (core sec vd : Nat) : State.Fills 0 s (s.l1Fill core sec vd) := by
  unfold State.l1Fill
  split
  · exact .refl s
  · exact .of_rest rfl (fun _ => rfl) rfl
theorem State.fills_bumpFree (s : State) : State.Fills 0 s s.bumpFree := .of_rest rfl (fun _ => rfl) rfl
theorem State.fills_updGrp (s : State) (f : Group → Group) : State.Fills 0 s (s.updGrp f) := .of_rest rfl (fun _ => rfl) rfl

/-- A read after some writes finds the byte before them or one of those written. -/
theorem Mem.read_writeAll_or (m : Mem) (bs : List (Nat × Byte)) (a : Nat) :
    Mem.read (Mem.writeAll m bs) a = Mem.read m a ∨ ∃ b, (a, b) ∈ bs ∧ Mem.read (Mem.writeAll m bs) a = some b := by
  induction bs generalizing m with
  | nil => exact .inl rfl
  | cons e bs ih =>
    rcases ih (Mem.write m e.1 e.2) with h | ⟨b, hb, h⟩
    · by_cases ha : a = e.1
      · subst ha
        exact .inr ⟨e.2, by simp, h.trans (Mem.read_write_self _ _ _)⟩
      · exact .inl (h.trans (Mem.read_write_ne _ _ ha))
    · exact .inr ⟨b, List.mem_cons_of_mem _ hb, h⟩
/-- A byte after some write-backs is what it was or what one of the copies holds dirty. -/
theorem State.hbmByte_writeBacks_or (cs : List L2Copy) (s : State) (a : Nat) :
    (cs.foldl State.writeBackCopy s).hbmByte a = s.hbmByte a ∨
      ∃ c ∈ cs, a ∈ c.dirty ∧ (a, (cs.foldl State.writeBackCopy s).hbmByte a) ∈ c.data := by
  induction cs generalizing s with
  | nil => exact .inl rfl
  | cons c cs ih =>
    rcases ih (s.writeBackCopy c) with h | ⟨d, hd, h⟩
    · rw [List.foldl_cons, h]
      by_cases ha : a ∈ c.dirty
      · have he : (s.writeBackCopy c).epoch = s.epoch := congrArg (fun p => p.2.2.2) (s.writeBackCopy_kept c)
        unfold State.hbmByte
        rw [he]
        rcases s.hbm_writeBackCopy c with hm | hm
        · rw [hm]; exact .inl rfl
        · rw [hm]
          rcases Mem.read_writeAll_or s.mem.hbm (c.data.filter fun e => c.dirty.contains e.1) a with hr | ⟨b, hb, hr⟩
          · rw [hr]; exact .inl rfl
          · rw [hr]; exact .inr ⟨c, by simp, ha, (List.mem_filter.1 hb).1⟩
      · exact .inl (s.hbmByte_writeBackCopy_ne c ha)
    · exact .inr ⟨d, List.mem_cons_of_mem _ hd, h⟩
/-- A copy that write-backs leave dirty is as it was. -/
theorem L2Copy.cleanedBy_dirty (cs : List L2Copy) (d : L2Copy) (h : (cs.foldl (fun d c => L2Copy.cleanedBy c d) d).dirty ≠ []) :
    (cs.foldl (fun d c => L2Copy.cleanedBy c d) d).dirty = d.dirty ∧ (cs.foldl (fun d c => L2Copy.cleanedBy c d) d).data = d.data := by
  induction cs generalizing d with
  | nil => exact ⟨rfl, rfl⟩
  | cons c cs ih =>
    rw [List.foldl_cons] at h ⊢
    obtain ⟨hdirty, hdata⟩ := ih _ h
    rw [hdirty] at h
    rw [hdirty, hdata]
    unfold L2Copy.cleanedBy at h ⊢
    split_ifs at h ⊢
    · exact ⟨rfl, rfl⟩
    · exact absurd rfl h
    · exact ⟨rfl, rfl⟩
/-- A full cache gives up a line. -/
theorem victimLine_full {cap : Nat} {secs marked : List Nat} {sec v : Nat} (h : victimLine cap secs marked sec = some v) : cap ≤ secs.length := by
  unfold victimLine at h
  split at h
  · cases h
  · omega

/-- Write-backs write the cistern, its poison and the copies' own marks, and nothing else. -/
theorem State.writeBacks_stores (cs : List L2Copy) (s : State) :
    let t := cs.foldl State.writeBackCopy s
    t = { s with mem := t.mem } ∧
      (t.mem.host, t.mem.remote, t.mem.scratch, t.mem.tile, t.mem.side) = (s.mem.host, s.mem.remote, s.mem.scratch, s.mem.tile, s.mem.side) := by
  induction cs generalizing s with
  | nil => exact ⟨rfl, rfl⟩
  | cons c cs ih =>
    obtain ⟨hrest, hstores⟩ := ih (s.writeBackCopy c)
    have hone : s.writeBackCopy c = { s with mem := (s.writeBackCopy c).mem } ∧
        ((s.writeBackCopy c).mem.host, (s.writeBackCopy c).mem.remote, (s.writeBackCopy c).mem.scratch, (s.writeBackCopy c).mem.tile,
          (s.writeBackCopy c).mem.side) = (s.mem.host, s.mem.remote, s.mem.scratch, s.mem.tile, s.mem.side) := by
      unfold State.writeBackCopy
      dsimp only
      split <;> exact ⟨rfl, rfl⟩
    exact ⟨hrest.trans (congrArg (fun u : State => { u with mem := (cs.foldl State.writeBackCopy (s.writeBackCopy c)).mem }) hone.1),
      hstores.trans hone.2⟩
/-- A full L2 gives up a line's copies before it takes another. -/
theorem State.fills_l2Evict (s : State) (f : L2Copy → Bool) (h : Config.l2Lines ≤ s.mem.l2.length) (c : L2Copy) (hc : c.dirty = []) :
    State.Fills 1 s ((s.l2Evict f).setMem fun m => { m with l2 := m.l2 ++ [c] }) := by
  have hl2 := State.l2_writeBacks (s.mem.l2.filter f) s
  obtain ⟨hrest, hstores⟩ := State.writeBacks_stores (s.mem.l2.filter f) s
  have hbyte := State.hbmByte_writeBacks_or (s.mem.l2.filter f) s
  have hdirty := L2Copy.cleanedBy_dirty (s.mem.l2.filter f)
  unfold State.l2Evict
  generalize (s.mem.l2.filter f).foldl State.writeBackCopy s = u at hl2 hrest hstores hbyte ⊢
  have hmem : ∀ d, d ∈ (u.mem.l2.filter fun c => !f c) ++ [c] → d.dirty ≠ [] → ∃ e ∈ s.mem.l2, e.dirty = d.dirty ∧ e.data = d.data := by
    intro d hd hne
    rcases List.mem_append.1 hd with hd | hd
    · rw [hl2] at hd
      obtain ⟨e, he, rfl⟩ := List.mem_map.1 (List.mem_filter.1 hd).1
      obtain ⟨h1, h2⟩ := hdirty e hne
      exact ⟨e, he, h1.symm, h2.symm⟩
    · rw [List.mem_singleton.1 hd] at hne
      exact absurd hc hne
  refine ⟨by rw [hrest]; rfl, fun j => by rw [hrest]; rfl, hstores, fun a => ?_, hmem, ?_⟩
  · exact (hbyte a).imp_right fun ⟨d, hd, ha, hdata⟩ => ⟨Nat.lt_succ_of_le h, d, (List.mem_filter.1 hd).1, ha, hdata⟩
  · show ((u.mem.l2.filter fun c => !f c) ++ [c]).length ≤ _
    rw [List.length_append, List.length_singleton]
    have hle := List.length_filter_le (fun c => !f c) u.mem.l2
    rw [hl2, List.length_map] at hle
    rw [hl2]
    exact Nat.succ_le_succ hle
theorem State.fills_l2Take (s : State) (c : L2Copy) (hc : c.dirty = []) : State.Fills 1 s (s.setMem fun m => { m with l2 := m.l2 ++ [c] }) where
  rest := rfl
  vds _ := rfl
  stores := rfl
  hbm _ := .inl rfl
  dirty d hd hne := by
    rcases List.mem_append.1 hd with hd | hd
    · exact ⟨d, hd, rfl, rfl⟩
    · rw [List.mem_singleton.1 hd] at hne
      exact absurd hc hne
  size := by simp [State.setMem]
theorem State.fills_l2Fill (s : State) (die sec : Nat) (coh : Bool) (vd : Nat) : State.Fills 1 s (s.l2Fill die sec coh vd) := by
  unfold State.l2Fill
  split
  · exact (State.Fills.refl s).mono (Nat.zero_le _)
  · refine ((s.fills_meet (some vd) [sec]).trans (j := 1) ?_).mono (Nat.zero_add 1).le
    generalize s.meet (some vd) [sec] = u
    dsimp only
    split
    · rename_i v hv
      refine u.fills_l2Evict _ ((victimLine_full hv).trans ?_) _ rfl
      rw [List.length_map]
      exact List.length_filter_le _ _
    · exact u.fills_l2Take _ rfl

/-- Bytes lie in no more sectors than there are of them. -/
theorem Loc.sectors_length (l : Loc) (n : Nat) : (l.sectors n).length ≤ n := by
  have hsins : ∀ (m : List Nat) (k : Nat), (sins m k).length ≤ m.length + 1 := by
    intro m k
    induction m with
    | nil => exact Nat.le_refl _
    | cons j m ih =>
      unfold sins
      split_ifs
      · exact Nat.le_refl _
      · exact Nat.le_succ _
      · exact Nat.succ_le_succ ih
  have hfold : ∀ (xs m : List Nat), (xs.foldl (fun c i => sins c (sectorOf (l.byteAt i))) m).length ≤ m.length + xs.length := by
    intro xs
    induction xs with
    | nil => exact fun m => Nat.le_refl _
    | cons x xs ih =>
      intro m
      have h1 := ih (sins m (sectorOf (l.byteAt x)))
      have h2 := hsins m (sectorOf (l.byteAt x))
      rw [List.foldl_cons, List.length_cons]
      exact (h1.trans (Nat.add_le_add_right h2 _)).trans_eq (Nat.succ_add_eq_add_succ ..)
  have h := hfold (List.range n) []
  rwa [List.length_nil, Nat.zero_add, List.length_range] at h
theorem State.fills_loadFill (s : State) (g : Group) (sc : Scope) (l : Loc) (n : Nat) (nal : Bool) : State.Fills n s (s.loadFill g sc l n nal) := by
  unfold State.loadFill
  split
  · refine (State.Fills.foldl (k := 1) _ (fun c _ u => ?_) s).mono ((Nat.one_mul _).trans_le (l.sectors_length n))
    have hfill := u.fills_l2Fill (dieOf g.core) c (l.dieCoh || l.space = .stack) g.vd
    dsimp only
    split
    · exact hfill.trans (State.fills_l1Fill _ _ _ _)
    · exact hfill
  · exact (State.Fills.refl s).mono (Nat.zero_le _)

end Sys2Proof.Machine
end

section
/-! PROOF. What a load leaves of its group, and the values that land in its registers (R247, R254). -/
namespace Sys2Proof.Machine

/-! ## Translation (R326) -/

theorem State.Looked.refl (s : State) : s.Looked s := rfl
theorem State.Looked.trans {s t u : State} (h : s.Looked t) (k : t.Looked u) : s.Looked u := by
  unfold State.Looked at *
  rw [k, h]
theorem State.reach_looked {s t : State} {o : Origin} {die : Nat} {core : Option Nat} {vd asid va : Nat} {span : Nat → Nat × Nat} {lane : Nat} {l : Loc}
    (h : s.reach o die core vd asid va 0 span lane = (.ok l, t)) : s.Looked t := by
  unfold State.reach at h
  split at h
  · cases h
  · rename_i e u hu
    simp only [beq_self_eq_true, Bool.or_true, Bool.true_or, if_true] at h
    split at h
    · cases h
    · split at h
      · cases h
      · cases h
        exact State.translate_looked hu
theorem State.locate_looked {s t : State} {lane ea : Nat} {span : Nat → Nat × Nat} {l : Loc} (h : s.locate lane ea 0 span = (.ok l, t)) : s.Looked t := by
  unfold State.locate at h
  split at h
  · cases h; exact .refl s
  · cases h; exact .refl s
  · cases h
  · dsimp only at h
    split at h
    · cases h
    · have hx := congrArg Prod.fst h
      dsimp only at hx
      split at hx <;> cases hx
    · rename_i hr
      cases h
      exact State.reach_looked hr
theorem Reached.looked {m : Access} (hm : m.acc = 0) {refuse : Nat → Nat → Loc → Option Pending} {xs : List (Nat × Nat)} {s u : State}
    {ls : List (Nat × Loc)} (h : Reached m refuse xs s ls u) : s.Looked u := by
  induction xs generalizing s ls with
  | nil => rw [h.2]; exact .refl s
  | cons x xs ih =>
    obtain ⟨loc, r, rest, hloc, -, -, hrest⟩ := h
    rw [hm] at hloc
    exact (State.locate_looked hloc).trans (ih hrest)
theorem State.Looked.fills {s t : State} (h : s.Looked t) : State.Fills 0 s t := by
  unfold State.Looked at h
  exact .of_rest (by rw [h]) (fun j => by rw [h]; rfl) (by rw [h])

/-! ## The end of a load -/

/-- A state that has the groups of `s` with the issuing one changed by `f`, and otherwise differs by copies and translations, ends a load. -/
theorem State.Fills.loaded {k : Nat} {s z : State} (h : State.Fills k s z) (hk : k ≤ 1024) {f : Group → Group} {vs : List Nat}
    (hg : z.groups = s.groups ∧ f s.grp = s.grp ∨ z.groups = (s.updGrp f).groups)
    (hrest : f s.grp = { s.grp with v := (f s.grp).v, winHit := (f s.grp).winHit, vdirty := (f s.grp).vdirty })
    (hv : ∀ k, k ∉ vs → (f s.grp).vreg k = s.grp.vreg k)
    (hn : vs = [] → (f s.grp).winHit = s.grp.winHit ∧ (f s.grp).vdirty = s.grp.vdirty) :
    s.Loaded z.finish vs [] ∧ z.finish.grp = (f s.grp).ended s.iss := by
  have hi : z.iss = s.iss := (congrArg State.iss h.rest :)
  have hgrp : z.grp = f s.grp := by
    unfold State.grp
    rw [hi]
    rcases hg with ⟨hg, hf⟩ | hg
    · rw [hg]; exact hf.symm
    · rw [hg]; exact mget_mset_self _ _ _ _
  have hran := s.ran_ended f vs [] [] (by rw [hrest]) hv (fun _ _ => by rw [hrest]; rfl) (fun _ _ => by rw [hrest]; rfl) hn
  have hfin : z.finish.grp = (f s.grp).ended s.iss := by rw [State.finish_eq, State.grp_updGrp, hgrp, hi]
  have hgroups : z.finish.groups = mset z.groups s.iss.key ((f s.grp).ended s.iss) := by
    rw [State.finish_eq]
    show mset z.groups z.iss.key (z.grp.ended z.iss) = _
    rw [hi, hgrp]
  refine ⟨⟨?_, h.vds, fun j hj => ?_, ?_, ?_⟩, hfin⟩
  · rw [State.finish_eq, State.updGrp_rest, h.rest]
  · rw [hgroups, mfind_mset_ne _ _ hj]
    rcases hg with ⟨hg, -⟩ | hg
    · rw [hg]
    · rw [hg]; exact mfind_mset_ne _ _ hj
  · rw [hfin]
    have hself := hran.self
    rwa [State.grp_updGrp] at hself
  · have hb := h.copiedBytes hk
    have hs := z.ran_finish [] [] []
    exact ⟨fun a => by rw [State.HbmKept, hs.sameBytes.hbm]; exact hb.hbm a, fun a => (hs.sameBytes.host a).trans (hb.host a),
      fun a => (hs.sameBytes.remote a).trans (hb.remote a), fun a => (hs.sameBytes.scratch a).trans (hb.scratch a),
      fun r c => (hs.sameBytes.tile r c).trans (hb.tile r c), fun r c => (hs.sameBytes.side r c).trans (hb.side r c)⟩

/-! ## Registers written in some lanes -/

/-- What each of several different registers holds once all are written. -/
theorem Group.foldWriteV_holds (act : Word) (ws : List DestW) (hws : (ws.map (·.reg)).Nodup) (g : Group) {w : DestW} (hw : w ∈ ws) {l : Nat} (hl : l < 32) :
    let h := ws.foldl (fun g w => g.writeV act w) g
    (h.vreg w.reg).tag l = (if act.getLsbD l then tagAt w.dp w.fp l else (g.vreg w.reg).tag l) ∧
    (g.winOf w.reg = none →
      (act.getLsbD l = true → (h.vreg w.reg).val.lane l = w.val.lane l) ∧
      (act.getLsbD l = false → g.live.getLsbD l = true → (h.vreg w.reg).val.lane l = (g.vreg w.reg).val.lane l)) := by
  induction ws generalizing g with
  | nil => cases hw
  | cons x ws ih =>
    obtain ⟨hx, hnodup⟩ := List.nodup_cons.1 hws
    rcases List.mem_cons.1 hw with rfl | hw
    · have hkept := Group.foldWriteV_vreg act ws (g.writeV act w) w.reg fun y hy he => hx (List.mem_map.2 ⟨y, hy, he⟩)
      simp only [List.foldl_cons, hkept]
      exact g.writeV_holds act w hl
    · have hne : w.reg ≠ x.reg := fun he => hx (List.mem_map.2 ⟨w, hw, he⟩)
      have h := ih hnodup (g.writeV act x) hw
      rw [g.writeV_vreg_ne act x hne] at h
      exact h

/-- The registers that `landLanes` writes. -/
noncomputable def landed (i : Issue) (o : Ops) (vals : List (Nat → Nat)) (dp : Word) : List DestW :=
  vals.zipIdx.map fun e => ⟨o.d.reg + e.2, .general ((List.range 32).map fun l => BitVec.ofNat 32 (e.1 l)), (dp ||| i.gdp) &&& ~~~(0 ||| i.gfp), 0 ||| i.gfp⟩
/-- What `landLanes` makes of a group. -/
noncomputable def Group.land (i : Issue) (o : Ops) (m : Word) (vals : List (Nat → Nat)) (dp : Word) (g : Group) : Group :=
  (landed i o vals dp).foldl (fun g w => g.writeV m w) g

theorem State.landLanes_eq (s : State) (o : Ops) (m : Word) (vals : List (Nat → Nat)) (dp : Word) :
    s.landLanes o m vals dp = s.updGrp (Group.land s.iss o m vals dp) := by
  unfold State.landLanes Group.land landed
  congr 1
  funext g
  rw [List.foldl_map]
  rfl
theorem landed_regs (i : Issue) (o : Ops) (vals : List (Nat → Nat)) (dp : Word) : (landed i o vals dp).map (·.reg) = destRegs o vals.length := by
  unfold landed destRegs
  rw [List.map_map]
  show vals.zipIdx.map (fun e => o.d.reg + e.2) = _
  rw [List.range_eq_range', ← List.zipIdx_map_snd 0 vals, List.map_map]
  rfl
theorem destRegs_nodup (o : Ops) (n : Nat) : (destRegs o n).Nodup :=
  List.Nodup.map (fun _ _ h => Nat.add_left_cancel h) List.nodup_range
/-- The values that land in the active lanes of a destination register, with the guard's tags joined. -/
theorem Group.land_holds {s t : State} {o : Ops} {vals : List (Nat → Nat)} {bad : Nat → Bool}
    (ht : t.grp = (Group.land s.iss o s.iss.act vals (maskOf bad) s.grp).ended s.iss) {j : Nat} {f : Nat → Nat} (hf : vals[j]? = some f) :
    s.HoldsV t (o.d.reg + j) f fun l => (if bad l then Tag.poison else .clean).join (s.iss.guardTag l) := by
  intro l hl
  have hw : (⟨o.d.reg + j, .general ((List.range 32).map fun l => BitVec.ofNat 32 (f l)), (maskOf bad ||| s.iss.gdp) &&& ~~~(0 ||| s.iss.gfp),
      0 ||| s.iss.gfp⟩ : DestW) ∈ landed s.iss o vals (maskOf bad) := by
    refine List.mem_map.2 ⟨(f, j), ?_, rfl⟩
    rw [List.mem_zipIdx_iff_getElem?]
    exact hf
  have h := Group.foldWriteV_holds s.iss.act (landed s.iss o vals (maskOf bad)) (by rw [landed_regs]; exact destRegs_nodup _ _) s.grp hw hl
  rw [ht, Group.ended_vreg]
  have htag : tagAt ((maskOf bad ||| s.iss.gdp) &&& ~~~(0 ||| s.iss.gfp)) (0 ||| s.iss.gfp) l =
      (if bad l then Tag.poison else .clean).join (s.iss.guardTag l) := by
    rw [tagAt_under, tagAt_join]
    refine congrArg (Tag.join · _) ?_
    unfold tagAt
    rw [show (0 : Word).getLsbD l = false from BitVec.getLsbD_zero, getLsbD_maskOf, decide_eq_true hl, Bool.true_and]
    rfl
  obtain ⟨htagged, hval⟩ := h
  refine ⟨htagged.trans (by rw [htag]), fun hwin => ⟨fun hact => ((hval hwin).1 hact).trans (Shape.lane_general _ hl), (hval hwin).2⟩⟩

end Sys2Proof.Machine
end

section
/-! PROOF. Lane loads and PREF: O27. -/
namespace Sys2Proof.Machine

/-! ## What leaves the groups alone -/

@[simp] theorem State.bare_l1Fill (s : State) (core sec vd : Nat) : (s.l1Fill core sec vd).bare = s.bare := by
  unfold State.l1Fill
  split
  · rfl
  · rfl
@[simp] theorem State.bare_loadFill (s : State) (g : Group) (sc : Scope) (l : Loc) (n : Nat) (nal : Bool) : (s.loadFill g sc l n nal).bare = s.bare := by
  unfold State.loadFill
  split
  · refine foldl_keeps (fun u c => ?_) _ s
    dsimp only
    split <;> simp
  · rfl
theorem State.updGrp_groups_congr {s t : State} (hg : t.groups = s.groups) (hi : t.iss = s.iss) (f : Group → Group) :
    (t.updGrp f).groups = (s.updGrp f).groups := by
  have hgrp : t.grp = s.grp := by unfold State.grp; rw [hg, hi]
  show mset t.groups t.iss.key (f t.grp) = mset s.groups s.iss.key (f s.grp)
  rw [hg, hi, hgrp]
theorem State.fills_markStrm (s : State) (n : Nat) (ls : List (Nat × Loc)) : State.Fills 0 s (s.markStrm n ls) where
  rest := rfl
  vds _ := rfl
  stores := rfl
  hbm _ := .inl rfl
  dirty c hc _ := by
    obtain ⟨d, hd, rfl⟩ := List.mem_map.1 hc
    refine ⟨d, hd, ?_⟩
    split <;> exact ⟨rfl, rfl⟩
  size := (List.length_map _).le

/-! ## A load's pass -/

/-- Before the reads of a load nothing is released. -/
theorem State.ordered_load (u : State) {m : Access} (hacc : m.acc = 0) (hrel : m.rel = false) (ls : List (Nat × Loc)) :
    u.ordered m ls = u.readBy u.iss.key m.n ls := by
  unfold State.ordered
  rw [hacc, hrel]
  cases widest (ls.map fun e => e.2.scope m.sc) <;> rfl
theorem State.performed_load (u : State) (key : Nat) {m : Access} (hacc : m.acc = 0) (ls : List (Nat × Loc)) (perform : State → List (Nat × Loc) → State) :
    let p := perform (u.ordered m ls) ls
    let v := u.performed key m ls perform
    State.Fills 0 p v ∧ v.groups = p.groups := by
  intro p v
  have hv : v = p ∨ ∃ core c, v = p.acquire core c := by
    have hstore : ¬m.acc = 2 := by rw [hacc]; decide
    show u.performed key m ls perform = p ∨ ∃ core c, u.performed key m ls perform = p.acquire core c
    unfold State.performed
    dsimp only
    rw [if_neg hstore]
    cases widest (ls.map fun e => e.2.scope m.sc) with
    | none => exact .inl rfl
    | some c =>
      induction m.acq with
      | false => exact .inl rfl
      | true => exact .inr ⟨_, c, rfl⟩
  rcases hv with hv | ⟨core, c, hv⟩
  · rw [hv]; exact ⟨.refl p, rfl⟩
  · rw [hv]
    refine ⟨p.fills_acquire core c, ?_⟩
    unfold State.acquire
    split <;> rfl
theorem State.vd_kept (s : State) (k j : Nat) : ({ s with vds := mset s.vds k (s.vd k) } : State).vd j = s.vd j := by
  refine (mget_mset _ _ _ _ _).trans ?_
  split
  · subst_vars; rfl
  · rfl
/-- A load that goes ahead in every active lane ends with what its lanes leave and one change of its group. -/
theorem State.Ready.load {s u : State} {m : Access} {srcs : List Consumed} {eas : List Nat} {refuse : Nat → Nat → Loc → Option Pending}
    {ls : List (Nat × Loc)} (h : s.Ready m srcs eas refuse ls u) (hacc : m.acc = 0) {perform : State → List (Nat × Loc) → State} {k : Nat}
    (hk : k ≤ 1024) {f : Group → Group} {vs : List Nat} (hfills : State.Fills k s (perform (u.ordered m ls) ls))
    (hgroups : (perform (u.ordered m ls) ls).groups = (s.updGrp f).groups)
    (hrest : f s.grp = { s.grp with v := (f s.grp).v, winHit := (f s.grp).winHit, vdirty := (f s.grp).vdirty })
    (hv : ∀ k, k ∉ vs → (f s.grp).vreg k = s.grp.vreg k) (hvs : vs ≠ []) :
    let t := s.laneMem m srcs (eas.getD · 0) refuse perform
    s.Loaded t vs [] ∧ t.grp = (f s.grp).ended s.iss := by
  intro t
  obtain ⟨hp, hpg⟩ := u.performed_load s.iss.key hacc ls perform
  have hfv := hfills.trans hp
  have hgv := hpg.trans hgroups
  have ht : t = _ := h.laneMem perform
  generalize u.performed s.iss.key m ls perform = v at hfv hgv ht
  have hi : v.iss = s.iss := (congrArg State.iss hfv.rest :)
  have hgrp : mget {} v.groups s.iss.key = f s.grp := by rw [hgv]; exact mget_mset_self _ _ _ _
  have hreqs : v.groupReqs v.iss.key = [] := by
    have hvd : (f s.grp).vd = s.grp.vd := by rw [hrest]
    have hidle := h.idle
    unfold State.groupReqs at hidle ⊢
    rw [hi, hgrp, hvd, hfv.vds]
    exact hidle
  have hz : ∃ z, t = z.finish ∧ State.Fills 0 v z ∧ z.groups = v.groups := by
    rw [ht]
    dsimp only
    split
    · rw [v.deferEntered_idle m.dst hreqs]
      exact ⟨_, rfl, .of_rest rfl (v.vd_kept _) rfl, rfl⟩
    · exact ⟨v, rfl, .refl v, rfl⟩
  obtain ⟨z, hz, hfz, hgz⟩ := hz
  rw [hz]
  exact (hfv.trans hfz).loaded hk (.inr (hgz.trans hgv)) hrest hv fun he => absurd he hvs

/-- The same, where what changes is that values land in the destination's registers. -/
theorem State.Ready.load_lands {s u : State} {m : Access} {srcs : List Consumed} {eas : List Nat} {refuse : Nat → Nat → Loc → Option Pending}
    {ls : List (Nat × Loc)} (h : s.Ready m srcs eas refuse ls u) (hacc : m.acc = 0) {perform : State → List (Nat × Loc) → State} {k : Nat}
    (hk : k ≤ 1024) {o : Ops} {vals : List (Nat → Nat)} (hvals : vals ≠ []) {bad : Nat → Bool}
    (hfills : State.Fills k s (perform (u.ordered m ls) ls))
    (hgroups : (perform (u.ordered m ls) ls).groups = (s.updGrp (Group.land s.iss o s.iss.act vals (maskOf bad))).groups) :
    let t := s.laneMem m srcs (eas.getD · 0) refuse perform
    s.Loaded t (destRegs o vals.length) [] ∧
      ∀ (j : Nat) (f : Nat → Nat), vals[j]? = some f →
        s.HoldsV t (o.d.reg + j) f fun l => (if bad l then Tag.poison else .clean).join (s.iss.guardTag l) := by
  intro t
  have hregs := landed_regs s.iss o vals (maskOf bad)
  have hload := h.load hacc hk (f := Group.land s.iss o s.iss.act vals (maskOf bad)) (vs := destRegs o vals.length) hfills hgroups
    (Group.foldWriteV_rest _ _ _)
    (fun k hk => Group.foldWriteV_vreg _ _ _ k fun w hw he => hk (hregs ▸ List.mem_map.2 ⟨w, hw, he⟩))
    (fun he => hvals (List.length_eq_zero_iff.1 (by simpa [destRegs] using he)))
  exact ⟨hload.1, fun j f hf => Group.land_holds hload.2 hf⟩

/-! ## The lanes' values -/

/-- The location of an active lane. -/
theorem find_lane {ls : List (Nat × Loc)} {act : Word} (h : ls.map (·.1) = lanesOf act) {l : Nat} (hl : l < 32) (hact : act.getLsbD l = true) :
    ls.find? (fun e => e.1 == l) = some (l, locAt ls l) ∧ ∀ e ∈ ls, e.1 = l → e = (l, locAt ls l) := by
  have hmem : l ∈ ls.map (·.1) := h ▸ mem_lanesOf.2 ⟨hl, hact⟩
  have hnodup : (ls.map (·.1)).Nodup := h ▸ List.Nodup.filter _ List.nodup_range
  obtain ⟨e, he, rfl⟩ := List.mem_map.1 hmem
  cases hf : ls.find? fun x => x.1 == e.1 with
  | none => exact absurd (List.find?_eq_none.1 hf e he) (by simp)
  | some x =>
    have hx1 : x.1 = e.1 := by simpa using List.find?_some hf
    have hloc : locAt ls e.1 = x.2 := by unfold locAt; rw [hf]; rfl
    have hxe : (x : Nat × Loc) = (e.1, locAt ls e.1) := by rw [hloc, ← hx1]
    refine ⟨by rw [← hxe], fun y hy hy1 => ?_⟩
    rw [← hxe]
    exact List.inj_on_of_nodup_map hnodup hy (List.mem_of_find?_eq_some hf) (hy1.trans hx1.symm)
section
variable {ls : List (Nat × Loc)} {act : Word} (h : ls.map (·.1) = lanesOf act) {l : Nat} (hl : l < 32) (hact : act.getLsbD l = true)
include h hl hact

/-- What a list over the lanes' locations gives an active lane. -/
theorem find_lane_map {α : Type} (f : Nat × Loc → α) :
    (ls.map fun e => (e.1, f e)).find? (fun e => e.1 == l) = some (l, f (l, locAt ls l)) := by
  rw [List.find?_map]
  exact congrArg _ (find_lane h hl hact).1
theorem any_lane_map {α : Type} (f : Nat × Loc → α) (p : α → Bool) :
    ((ls.map fun e => (e.1, f e)).any fun e => e.1 == l && p e.2) = p (f (l, locAt ls l)) := by
  obtain ⟨hfind, hone⟩ := find_lane h hl hact
  rw [Bool.eq_iff_iff, List.any_eq_true]
  constructor
  · rintro ⟨e, he, hp⟩
    obtain ⟨x, hx, rfl⟩ := List.mem_map.1 he
    rw [Bool.and_eq_true, beq_iff_eq] at hp
    rw [← hone x hx hp.1]
    exact hp.2
  · intro hp
    exact ⟨(l, f (l, locAt ls l)), List.mem_map.2 ⟨_, List.mem_of_find?_eq_some hfind, rfl⟩, by simpa using hp⟩
end

/-- Values and tags matter in the active lanes alone. -/
theorem State.HoldsV.congr_active {s t : State} {k : Nat} {val val' : Nat → Nat} {tag tag' : Nat → Tag} (h : s.HoldsV t k val tag)
    (hval : ∀ l < 32, s.iss.act.getLsbD l = true → val l = val' l) (htag : ∀ l < 32, s.iss.act.getLsbD l = true → tag l = tag' l) :
    s.HoldsV t k val' tag' := by
  intro l hl
  obtain ⟨h1, h2⟩ := h l hl
  refine ⟨h1.trans ?_, fun hw => ⟨fun ha => ((h2 hw).1 ha).trans (by rw [hval l hl ha]), (h2 hw).2⟩⟩
  split
  · exact htag l hl ‹_›
  · rfl

/-- The value of a type's bits, extended to 64 bits. -/
theorem wrap_int_extendAs (ty : Ty) (v : Nat) : wrap (ty.int v) 64 = (extendAs ty (readAs ty (BitVec.ofNat 64 v))).toNat := by
  have hwidth : ty.width ∣ 64 := by rcases ty <;> decide
  have hle : 2 ^ ty.width ∣ 2 ^ 64 := Nat.pow_dvd_pow 2 (Nat.le_of_dvd (by decide) hwidth)
  have hbits : BitVec.ofNat ty.width (v % 2 ^ 64) = BitVec.ofNat ty.width v :=
    BitVec.eq_of_toNat_eq (by simp only [BitVec.toNat_ofNat, Nat.mod_mod_of_dvd _ hle])
  have hread : readAs ty (BitVec.ofNat 64 v) = ty.int v := by
    rw [← Ty.int_eq_readAs, Ty.int_eq, Ty.int_eq, BitVec.toNat_ofNat, hbits]
  have hext : BitVec.ofInt 64 (ty.int v) = extendAs ty (ty.int v) := by
    rw [Ty.int_eq]
    unfold extendAs
    split
    · rw [BitVec.ofInt_toInt]; rfl
    · rw [BitVec.ofInt_natCast, BitVec.ofInt_natCast, BitVec.ofNat_toNat, BitVec.ofNat_toNat, BitVec.setWidth_eq]
  rw [wrap_eq_toNat_ofInt, hext, hread]

theorem wordsOf_get (is64 : Bool) (f : Nat → Nat) {j : Nat} (hj : j < if is64 then 2 else 1) :
    ∃ g, (wordsOf is64 f)[j]? = some g ∧ ∀ l, g l = f l / 2 ^ (32 * j) := by
  unfold wordsOf
  induction is64 with
  | false =>
    obtain rfl : j = 0 := by simpa using hj
    exact ⟨f, rfl, fun l => by simp⟩
  | true =>
    have hj' : j < 2 := by simpa using hj
    interval_cases j
    · exact ⟨f, rfl, fun l => by simp⟩
    · exact ⟨_, rfl, fun l => by simp⟩
theorem wordsOf_length (is64 : Bool) (f : Nat → Nat) : (wordsOf is64 f).length = if is64 then 2 else 1 := by cases is64 <;> rfl

end Sys2Proof.Machine
end

section
/-! PROOF. LD, LDT and PREF: O27. -/
namespace Sys2Proof.Machine

/-! ## What the reads of a load find (R247, R252) -/

/-- `t` is `s` after what comes before the reads of a load: translations, and notes of who has read. -/
noncomputable def State.Sighted (s t : State) : Prop := t = { s with tlb := t.tlb, walkCache := t.walkCache, marks := t.marks }

section
variable {s t : State} (h : s.Sighted t)
include h

theorem State.Sighted.iss : t.iss = s.iss := by rw [h]
theorem State.Sighted.groups : t.groups = s.groups := by rw [h]
theorem State.Sighted.grp : t.grp = s.grp := by rw [h]; rfl
theorem State.Sighted.free (i : Nat) : t.free i = s.free i := by rw [h]; rfl
theorem State.Sighted.fills : State.Fills 0 s t := .of_rest (by rw [h]) (fun j => by rw [h]; rfl) (by rw [h])
theorem State.Sighted.loadN (sc : Scope) (l : Loc) (n : Nat) : t.loadN t.grp sc l n = s.loadN s.grp sc l n := by
  rw [h.grp, h]
  rfl
theorem State.Sighted.typedRead (sc : Scope) (ty : Ty) (m : Rnd) (e2 : Bool) (l : Loc) : t.typedRead sc ty m e2 l = s.typedRead sc ty m e2 l := by
  unfold State.typedRead
  simp only [h.loadN]
end
theorem State.Ready.sighted {s u : State} {m : Access} {srcs : List Consumed} {eas : List Nat} {refuse : Nat → Nat → Loc → Option Pending}
    {ls : List (Nat × Loc)} (h : s.Ready m srcs eas refuse ls u) (hacc : m.acc = 0) (hrel : m.rel = false) : s.Sighted (u.ordered m ls) := by
  have hu : s.Looked u := h.reached.looked hacc
  rw [u.ordered_load hacc hrel]
  unfold State.Looked at hu
  unfold State.Sighted
  rw [hu]
  rfl
theorem State.Ready.locs {s u : State} {m : Access} {srcs : List Consumed} {eas : List Nat} {refuse : Nat → Nat → Loc → Option Pending}
    {ls : List (Nat × Loc)} (h : s.Ready m srcs eas refuse ls u) : ls.map (·.1) = lanesOf s.iss.act :=
  h.reached.lanes.trans ((List.map_map ..).trans (List.map_id _))
theorem lanesOf_length_le (m : Word) : (lanesOf m).length ≤ 32 := (List.length_filter_le _ _).trans (List.length_range).le
theorem locs_length {ls : List (Nat × Loc)} {m : Word} (h : ls.map (·.1) = lanesOf m) : ls.length ≤ 32 := by
  rw [← List.length_map (f := (·.1)), h]
  exact lanesOf_length_le m
theorem bytes_le (ty : Ty) : ty.width / 8 ≤ 8 := by rcases ty <;> decide

/-! ## LD (R254) -/

noncomputable def ldAccess (ty : Ty) (sc : Scope) (od : MemOrd) (nodfr : Bool) (o : Ops) : Access :=
  { n := ty.width / 8, acc := 0, sc := sc, acq := od.isAcq, rel := false, defer := !nodfr, score := true,
    dst := destRegs o (if ty.is64 then 2 else 1), pair := ty.is64 }
/-- Whether the read of a lane's bytes is poisoned. -/
noncomputable def ldBad (w : State) (sc : Scope) (n : Nat) (ls : List (Nat × Loc)) (l : Nat) : Bool :=
  (ls.map fun e => (e.1, w.loadN w.grp sc e.2 n)).any fun e => e.1 == l && e.2.2
/-- The value that LD puts into a lane. -/
noncomputable def ldVal (w : State) (ty : Ty) (sc : Scope) (n : Nat) (ls : List (Nat × Loc)) (l : Nat) : Nat :=
  wrap (ty.int (laneVal ((ls.map fun e => (e.1, w.loadN w.grp sc e.2 n)).map fun e => (e.1, if e.2.2 then (w.free e.1).toNat else e.2.1)) l)) 64
/-- The copies that LD takes, and the counter of free values it moves. -/
noncomputable def State.ldCopies (w : State) (hint : LdHint) (sc : Scope) (n : Nat) (ls : List (Nat × Loc)) : State :=
  let z := ls.foldl (fun s e => s.loadFill w.grp sc e.2 n (hint = .nal)) w
  let z := if maskOf (ldBad w sc n ls) = 0 then z else z.bumpFree
  if hint = .strm then z.markStrm n ls else z

theorem State.groups_loadFill (s : State) (g : Group) (sc : Scope) (l : Loc) (n : Nat) (nal : Bool) : (s.loadFill g sc l n nal).groups = s.groups :=
  (congrArg State.groups (s.bare_loadFill g sc l n nal) :)
theorem exec_ld (ty : Ty) (hint : LdHint) (sc : Scope) (od : MemOrd) (sx nodfr : Bool) (o : Ops) (s : State) :
    exec (.ld ty hint sc od sx nodfr o) s =
      .next (s.laneMem (ldAccess ty sc od nodfr o)
        (s.addrConsumed o true s.iss.act) ((s.lanesEa o sx fun _ => ty.width / 8).getD · 0) (fun _ _ _ => none) fun w ls =>
          (w.ldCopies hint sc (ty.width / 8) ls).landLanes o (laneMask ls) (wordsOf ty.is64 (ldVal w ty sc (ty.width / 8) ls))
            (maskOf (ldBad w sc (ty.width / 8) ls))) := rfl
theorem State.fills_ldCopies (w : State) (hint : LdHint) (sc : Scope) (n : Nat) (ls : List (Nat × Loc)) :
    State.Fills (n * ls.length) w (w.ldCopies hint sc n ls) := by
  have hfold := State.Fills.foldl ls (fun e _ u => u.fills_loadFill w.grp sc e.2 n (hint = .nal)) w
  unfold State.ldCopies
  dsimp only
  split_ifs
  · exact hfold.trans (State.fills_markStrm _ n ls)
  · exact (hfold.trans (State.fills_bumpFree _)).trans (State.fills_markStrm _ n ls)
  · exact hfold
  · exact hfold.trans (State.fills_bumpFree _)
theorem State.groups_ldCopies (w : State) (hint : LdHint) (sc : Scope) (n : Nat) (ls : List (Nat × Loc)) :
    (w.ldCopies hint sc n ls).groups = w.groups := by
  have hfold : (ls.foldl (fun s e => s.loadFill w.grp sc e.2 n (hint = .nal)) w).groups = w.groups :=
    foldl_keeps (p := State.groups) (fun u (e : Nat × Loc) => u.groups_loadFill w.grp sc e.2 n (hint = .nal)) ls w
  unfold State.ldCopies
  dsimp only
  split_ifs <;> exact hfold
section
variable {ls : List (Nat × Loc)} {act : Word} (hls : ls.map (·.1) = lanesOf act) {l : Nat} (hl : l < 32) (hact : act.getLsbD l = true)
include hls hl hact

theorem ldBad_lane (w : State) (sc : Scope) (n : Nat) : ldBad w sc n ls l = (w.loadN w.grp sc (locAt ls l) n).2 :=
  any_lane_map hls hl hact (fun e => w.loadN w.grp sc e.2 n) (·.2)
theorem ldVal_lane (w : State) (ty : Ty) (sc : Scope) (n : Nat) :
    ldVal w ty sc n ls l = wrap (ty.int (if (w.loadN w.grp sc (locAt ls l) n).2 then (w.free l).toNat else (w.loadN w.grp sc (locAt ls l) n).1)) 64 := by
  unfold ldVal laneVal
  rw [List.map_map]
  refine congrArg (fun v : Nat => wrap (ty.int v) 64) ?_
  exact congrArg (fun o : Option (Nat × Nat) => (o.map (·.2)).getD 0)
    (find_lane_map hls hl hact fun e => if (w.loadN w.grp sc e.2 n).2 then (w.free e.1).toNat else (w.loadN w.grp sc e.2 n).1)
end

/-- LD leaves the bytes' values in its active lanes. -/
theorem State.Ready.ld {s u : State} {ty : Ty} {hint : LdHint} {sc : Scope} {od : MemOrd} {sx nodfr : Bool} {o : Ops} {ls : List (Nat × Loc)}
    (h : s.Ready (ldAccess ty sc od nodfr o)
      (s.addrConsumed o true s.iss.act) (s.lanesEa o sx fun _ => ty.width / 8) (fun _ _ _ => none) ls u) :
    let x (l : Nat) := s.loadN s.grp sc (locAt ls l) (ty.width / 8)
    ∃ t, exec (.ld ty hint sc od sx nodfr o) s = .next t ∧ s.Loaded t (destRegs o (if ty.is64 then 2 else 1)) [] ∧
      ∀ j < (destRegs o (if ty.is64 then 2 else 1)).length, s.HoldsV t (o.d.reg + j)
        (fun l => (if (x l).2 then wrap (ty.int (s.free l).toNat) 64 else (extendAs ty (readAs ty (BitVec.ofNat 64 (x l).1))).toNat) / 2 ^ (32 * j))
        (fun l => (if (x l).2 then Tag.poison else .clean).join (s.iss.guardTag l)) := by
  intro x
  let w := u.ordered (ldAccess ty sc od nodfr o) ls
  have hw : s.Sighted w := h.sighted rfl rfl
  have hfills : State.Fills (ty.width / 8 * ls.length) s (w.ldCopies hint sc (ty.width / 8) ls) :=
    (hw.fills.trans (State.fills_ldCopies w hint sc _ ls)).mono (Nat.zero_add _).le
  have hi : (w.ldCopies hint sc (ty.width / 8) ls).iss = s.iss := (congrArg State.iss hfills.rest :)
  have hcount : ty.width / 8 * ls.length ≤ 1024 := (Nat.mul_le_mul (bytes_le ty) (locs_length h.locs)).trans (by decide)
  obtain ⟨hloaded, hholds⟩ := h.load_lands rfl hcount (o := o) (vals := wordsOf ty.is64 (ldVal w ty sc (ty.width / 8) ls))
    (bad := ldBad w sc (ty.width / 8) ls)
    (perform := fun w ls => (w.ldCopies hint sc (ty.width / 8) ls).landLanes o (laneMask ls) (wordsOf ty.is64 (ldVal w ty sc (ty.width / 8) ls))
      (maskOf (ldBad w sc (ty.width / 8) ls)))
    (by cases ty.is64 <;> exact List.cons_ne_nil _ _)
    (by rw [State.landLanes_eq]; exact hfills.trans (State.fills_updGrp _ _))
    (by
      rw [State.landLanes_eq, hi, laneMask_eq h.locs]
      exact State.updGrp_groups_congr ((w.groups_ldCopies hint sc _ ls).trans hw.groups) hi _)
  rw [wordsOf_length] at hloaded
  refine ⟨_, exec_ld .., hloaded, fun j hj => ?_⟩
  obtain ⟨g, hg, hgl⟩ := wordsOf_get ty.is64 (ldVal w ty sc (ty.width / 8) ls) (j := j) (by simpa [destRegs] using hj)
  refine (hholds j g hg).congr_active (fun l hl hact => ?_) fun l hl hact => ?_
  · rw [hgl, ldVal_lane h.locs hl hact, hw.loadN, hw.free, ← wrap_int_extendAs]
    exact congrArg (fun v : Nat => v / 2 ^ (32 * j)) (apply_ite (fun v : Nat => wrap (ty.int v) 64) _ _ _)
  · rw [ldBad_lane h.locs hl hact, hw.loadN]

/-! ## LDT (R257, R258) -/

noncomputable def ldtAccess (ty : Ty) (sc : Scope) (od : MemOrd) (e2 nodfr : Bool) (o : Ops) : Access :=
  { n := 1, acc := 0, sc := sc, acq := od.isAcq, rel := false, win := .globalOnly, aligned := false, defer := !nodfr,
    dst := destRegs o (if ty.is64 || e2 then 2 else 1), pair := ty.is64 }
/-- Whether the read of a lane's elements is poisoned. -/
noncomputable def ldtBad (w : State) (sc : Scope) (ty : Ty) (m : Rnd) (e2 : Bool) (ls : List (Nat × Loc)) (l : Nat) : Bool :=
  (ls.map fun e => (e.1, w.typedRead sc ty m e2 e.2)).any fun e => e.1 == l && e.2.2
/-- The value of a lane's element `k`. -/
noncomputable def ldtVal (w : State) (sc : Scope) (ty : Ty) (m : Rnd) (e2 : Bool) (ls : List (Nat × Loc)) (k l : Nat) : Nat :=
  match (ls.map fun e => (e.1, w.typedRead sc ty m e2 e.2)).find? fun e => e.1 == l with
  | some e => if e.2.2 then (w.free (64 * k + l)).toNat else e.2.1.getD k 0
  | none => 0
/-- The words that LDT puts into a lane. -/
noncomputable def ldtWords (w : State) (sc : Scope) (ty : Ty) (m : Rnd) (e2 : Bool) (ls : List (Nat × Loc)) : List (Nat → Nat) :=
  if e2 then [ldtVal w sc ty m e2 ls 0, ldtVal w sc ty m e2 ls 1] else wordsOf ty.is64 (ldtVal w sc ty m e2 ls 0)
/-- The copies that a lane of LDT takes: of its element and, where its format has them, of its scales. -/
noncomputable def State.ldtCopy (sc : Scope) (s : State) (e : Nat × Loc) : State :=
  let s := s.loadFill s.grp sc e.2 1 false
  if fmtQuant e.2.fmt then s.loadFill s.grp sc { e.2 with addr := e.2.page + qMeta e.2.fmt (e.2.addr - e.2.page) } 4 false else s
/-- What LDT does in a pass. -/
noncomputable def State.ldtPass (ty : Ty) (m : Rnd) (sc : Scope) (e2 : Bool) (o : Ops) (w : State) (ls : List (Nat × Loc)) : State :=
  let t := (ls.foldl (State.ldtCopy sc) w).landLanes o (laneMask ls) (ldtWords w sc ty m e2 ls) (maskOf (ldtBad w sc ty m e2 ls))
  if maskOf (ldtBad w sc ty m e2 ls) = 0 then t else t.bumpFree

theorem exec_ldt (ty : Ty) (m : Rnd) (sc : Scope) (od : MemOrd) (e2 nodfr : Bool) (o : Ops) (s : State) :
    exec (.ldt ty m sc od e2 nodfr o) s =
      .next (s.laneMem (ldtAccess ty sc od e2 nodfr o) (s.addrConsumed o true s.iss.act)
        ((s.lanesEa o false fun l => s.typedUnit ((s.srcA o true).d l)).getD · 0) (s.typedRefused ty e2 true false 0)
        (State.ldtPass ty m sc e2 o)) := rfl
theorem State.fills_ldtCopy (sc : Scope) (s : State) (e : Nat × Loc) : State.Fills 5 s (s.ldtCopy sc e) := by
  have helem := s.fills_loadFill s.grp sc e.2 1 false
  unfold State.ldtCopy
  dsimp only
  split
  · exact helem.trans (State.fills_loadFill _ _ _ _ 4 _)
  · exact helem.mono (by decide)
theorem State.groups_ldtCopy (sc : Scope) (s : State) (e : Nat × Loc) : (s.ldtCopy sc e).groups = s.groups := by
  unfold State.ldtCopy
  dsimp only
  split
  · exact (State.groups_loadFill _ _ _ _ _ _).trans (State.groups_loadFill _ _ _ _ _ _)
  · exact State.groups_loadFill _ _ _ _ _ _
theorem ldtWords_length (w : State) (sc : Scope) (ty : Ty) (m : Rnd) (e2 : Bool) (ls : List (Nat × Loc)) :
    (ldtWords w sc ty m e2 ls).length = if ty.is64 || e2 then 2 else 1 := by
  unfold ldtWords
  induction e2 with
  | true => rw [Bool.or_true]; rfl
  | false => rw [Bool.or_false]; exact wordsOf_length _ _
section
variable {ls : List (Nat × Loc)} {act : Word} (hls : ls.map (·.1) = lanesOf act) {l : Nat} (hl : l < 32) (hact : act.getLsbD l = true)
include hls hl hact

theorem ldtBad_lane (w : State) (sc : Scope) (ty : Ty) (m : Rnd) (e2 : Bool) :
    ldtBad w sc ty m e2 ls l = (w.typedRead sc ty m e2 (locAt ls l)).2 :=
  any_lane_map hls hl hact (fun e => w.typedRead sc ty m e2 e.2) (·.2)
theorem ldtVal_lane (w : State) (sc : Scope) (ty : Ty) (m : Rnd) (e2 : Bool) (k : Nat) :
    let y := w.typedRead sc ty m e2 (locAt ls l)
    ldtVal w sc ty m e2 ls k l = if y.2 then (w.free (64 * k + l)).toNat else y.1.getD k 0 := by
  unfold ldtVal
  rw [find_lane_map hls hl hact fun e => w.typedRead sc ty m e2 e.2]
end
/-- An undefined value that LDT may put into word `j` of a lane. -/
noncomputable def State.ldtFree (s : State) (e2 : Bool) (j l : Nat) : Nat := if e2 then (s.free (64 * j + l)).toNat else (s.free l).toNat / 2 ^ (32 * j)
/-- Word `j` of what LDT puts into an active lane. -/
theorem ldtWords_lane {w : State} {sc : Scope} {ty : Ty} {m : Rnd} {e2 : Bool} {ls : List (Nat × Loc)} {act : Word} (hls : ls.map (·.1) = lanesOf act)
    {j : Nat} (hj : j < (ldtWords w sc ty m e2 ls).length) :
    ∃ g, (ldtWords w sc ty m e2 ls)[j]? = some g ∧ ∀ l < 32, act.getLsbD l = true →
      let y := w.typedRead sc ty m e2 (locAt ls l)
      g l = if y.2 then w.ldtFree e2 j l else if e2 then y.1.getD j 0 else y.1.getD 0 0 / 2 ^ (32 * j) := by
  induction e2 with
  | true =>
    have hj : j < 2 := by simpa [ldtWords] using hj
    refine ⟨ldtVal w sc ty m true ls j, ?_, fun l hl hact => ldtVal_lane hls hl hact w sc ty m true j⟩
    interval_cases j <;> rfl
  | false =>
    rw [ldtWords_length, Bool.or_false] at hj
    obtain ⟨g, hg, hgl⟩ := wordsOf_get ty.is64 (ldtVal w sc ty m false ls 0) hj
    refine ⟨g, hg, fun l hl hact => ?_⟩
    dsimp only
    rw [hgl, ldtVal_lane hls hl hact w sc ty m false 0, Nat.mul_zero, Nat.zero_add]
    exact apply_ite (fun v : Nat => v / 2 ^ (32 * j)) _ _ _

/-- LDT leaves its elements' values in its active lanes. -/
theorem State.Ready.ldt {s u : State} {ty : Ty} {m : Rnd} {sc : Scope} {od : MemOrd} {e2 nodfr : Bool} {o : Ops} {ls : List (Nat × Loc)}
    (h : s.Ready (ldtAccess ty sc od e2 nodfr o) (s.addrConsumed o true s.iss.act) (s.lanesEa o false fun l => s.typedUnit ((s.srcA o true).d l))
      (s.typedRefused ty e2 true false 0) ls u) :
    let y (l : Nat) := s.typedRead sc ty m e2 (locAt ls l)
    ∃ t, exec (.ldt ty m sc od e2 nodfr o) s = .next t ∧ s.Loaded t (destRegs o (if ty.is64 || e2 then 2 else 1)) [] ∧
      ∀ j < (destRegs o (if ty.is64 || e2 then 2 else 1)).length, s.HoldsV t (o.d.reg + j)
        (fun l => if (y l).2 then s.ldtFree e2 j l else if e2 then (y l).1.getD j 0 else (y l).1.getD 0 0 / 2 ^ (32 * j))
        (fun l => (if (y l).2 then Tag.poison else .clean).join (s.iss.guardTag l)) := by
  intro y
  let w := u.ordered (ldtAccess ty sc od e2 nodfr o) ls
  have hw : s.Sighted w := h.sighted rfl rfl
  have hfills : State.Fills (5 * ls.length) s (ls.foldl (State.ldtCopy sc) w) :=
    (hw.fills.trans (State.Fills.foldl ls (fun e _ v => v.fills_ldtCopy sc e) w)).mono (Nat.zero_add _).le
  have hgroups : (ls.foldl (State.ldtCopy sc) w).groups = s.groups := (foldl_keeps (State.groups_ldtCopy sc) ls w).trans hw.groups
  have hi : (ls.foldl (State.ldtCopy sc) w).iss = s.iss := (congrArg State.iss hfills.rest :)
  have hcount : 5 * ls.length ≤ 1024 := (Nat.mul_le_mul_left 5 (locs_length h.locs)).trans (by decide)
  have hlength := ldtWords_length w sc ty m e2 ls
  obtain ⟨hloaded, hholds⟩ := h.load_lands rfl hcount (o := o) (vals := ldtWords w sc ty m e2 ls) (bad := ldtBad w sc ty m e2 ls)
    (perform := State.ldtPass ty m sc e2 o)
    (fun hnil => by rw [hnil] at hlength; revert hlength; split <;> exact (nomatch ·))
    (by
      unfold State.ldtPass
      dsimp only
      rw [State.landLanes_eq]
      split
      · exact hfills.trans (State.fills_updGrp _ _)
      · exact (hfills.trans (State.fills_updGrp _ _)).trans (State.fills_bumpFree _))
    (by
      have hland := State.updGrp_groups_congr hgroups hi (Group.land s.iss o s.iss.act (ldtWords w sc ty m e2 ls) (maskOf (ldtBad w sc ty m e2 ls)))
      unfold State.ldtPass
      dsimp only
      rw [State.landLanes_eq, hi, laneMask_eq h.locs]
      split <;> exact hland)
  rw [hlength] at hloaded
  refine ⟨_, exec_ldt .., hloaded, fun j hj => ?_⟩
  obtain ⟨g, hg, hgl⟩ := ldtWords_lane (w := w) (sc := sc) (ty := ty) (m := m) (e2 := e2) h.locs (j := j)
    (by rw [hlength]; simpa [destRegs] using hj)
  refine (hholds j g hg).congr_active (fun l hl hact => ?_) fun l hl hact => ?_
  · rw [hgl l hl hact, hw.typedRead]
    unfold State.ldtFree
    rw [hw.free, hw.free]
  · rw [ldtBad_lane h.locs hl hact, hw.typedRead]

/-! ## PREF (R256) -/

/-- A lane of PREF. -/
noncomputable def State.prefLane (g : Group) (m : Access) (eas : List Nat) (ph : PrefHint) (s : State) (l : Nat) : State :=
  let ea := eas.getD l 0
  match s.checkEas m [(l, ea)] with
  | some _ => s
  | none =>
    match translate s (dieOf g.core) (some g.core) g.vd s.team.asid ea 0 with
    | .error _ => s
    | .ok (e, s) =>
      let loc := e.loc ea
      if loc.space ≠ .hbm ∨ ph = .cis then s
      else s.loadFill g .core loc 1 (ph != .l1)

/-- A lane of PREF takes at most one copy into an L2. -/
theorem State.prefLane_fills (g : Group) (m : Access) (eas : List Nat) (ph : PrefHint) (s : State) (l : Nat) :
    State.Fills 1 s (s.prefLane g m eas ph l) ∧ (s.prefLane g m eas ph l).groups = s.groups := by
  have hnone : State.Fills 1 s s ∧ s.groups = s.groups := ⟨(State.Fills.refl s).mono (by decide), rfl⟩
  unfold State.prefLane
  dsimp only
  split
  · exact hnone
  · split
    · exact hnone
    · rename_i e t ht
      have hlook := State.translate_looked ht
      have hgroups : t.groups = s.groups := by rw [hlook]
      split
      · exact ⟨hlook.fills.mono (by decide), hgroups⟩
      · exact ⟨hlook.fills.trans (t.fills_loadFill _ _ _ 1 _), (t.groups_loadFill _ _ _ _ _).trans hgroups⟩
/-- PREF changes no register and no byte, whatever its lanes meet. -/
theorem exec_pref_loaded (ty : Ty) (ph : PrefHint) (sx : Bool) (o : Ops) (s : State) :
    ∃ t, exec (.pref ty ph sx o) s = .next t ∧ s.Loaded t [] [] := by
  let m : Access := { n := ty.width / 8, acc := 0, sc := .core, acq := false, rel := false, win := .globalOnly }
  let eas := s.lanesEa o sx fun _ => ty.width / 8
  let tagged := (s.addrConsumed o true s.iss.act).foldl (fun m c => m ||| c.dp ||| c.fp) 0
  let lanes := lanesOf (s.iss.act &&& ~~~tagged)
  have hexec : exec (.pref ty ph sx o) s = .next (lanes.foldl (State.prefLane s.grp m eas ph) s).finish := rfl
  have hfills : State.Fills (1 * lanes.length) s _ :=
    State.Fills.foldl lanes (fun l _ v => (v.prefLane_fills s.grp m eas ph l).1) s
  have hgroups : (lanes.foldl (State.prefLane s.grp m eas ph) s).groups = s.groups :=
    foldl_keeps (fun v l => (v.prefLane_fills s.grp m eas ph l).2) lanes s
  have hcount : 1 * lanes.length ≤ 1024 := (Nat.one_mul _).trans_le ((lanesOf_length_le _).trans (by decide))
  exact ⟨_, hexec, (hfills.loaded hcount (f := id) (.inl ⟨hgroups, rfl⟩) rfl (fun _ _ => rfl) fun _ => ⟨rfl, rfl⟩).1⟩

/-- Settles O27: what comes before a load's reads moves translations and notes of readers alone, so that its lanes read what `s` holds; the
copies they take give up at most dirty lines of a full L2; and the values land in the destination's registers one after the other. -/
theorem laneLoads : Obligations.LaneLoads := by
  unfold Obligations.LaneLoads
  refine ⟨fun ty hint sc od rnd sx e2 nodfr o s u ls => ⟨fun h => ?_, fun h => ?_⟩, exec_pref_loaded⟩
  · obtain ⟨t, hexec, hloaded, hholds⟩ := State.Ready.ld (ty := ty) (hint := hint) (od := od) (sx := sx) (nodfr := nodfr) h
    exact ⟨t, _, hexec, hloaded, hholds⟩
  · obtain ⟨t, hexec, hloaded, hholds⟩ := State.Ready.ldt (ty := ty) (m := rnd) (od := od) (e2 := e2) (nodfr := nodfr) h
    exact ⟨t, s.ldtFree e2, hexec, hloaded, hholds⟩

end Sys2Proof.Machine
end
